-- ==== Sys2Proof/Word.lean ====
section
/-! DEFINITION. The byte, and the plainest whole-number arithmetic of the book (00, Arithmetic). -/

namespace Sys2Proof

/-- A character of the depot line or a byte of a payload (R151, R152). -/
abbrev Byte := BitVec 8

/-- ceil(a / b), the smallest whole number not below the quotient; b is a stated nonzero constant or a `max` with 600. -/
def ceilDiv (a b : Nat) : Nat := (a + b - 1) / b

/-- A count that saturates stays at its largest value `top` once there. -/
def satAdd (top a b : Nat) : Nat := min top (a + b)

end Sys2Proof
end

