-- ==== Sys2Proof/Config.lean ====
section
/-! DEFINITION. The constants the book fixes for the part, and the one free value of the model. -/

namespace Sys2Proof.Config

/-- FREE VALUE (log 4): the order in which things taken at the same moment are taken, where the book says
"either may be taken first"; and, by one of its bits, what two rules leave open between them (logs 13 and 30). It is
applied to a counter of State and nothing is known of it. -/
opaque freeChoice : Nat → Nat

/-- One step on an empty queue is one tick: 1 ms, here in microseconds (00, Time; R151). -/
def tickMicros : Nat := 1000

/-- Ticks in a clock second (R14). -/
def ticksPerSecond : Nat := 1000

/-- Seconds in a day; the depot clock holds 0..86399 (R14). -/
def daySeconds : Nat := 86400

/-- The UNSET value of a clock field, all ones in three bytes (R154). -/
def unsetField : Nat := 16777215

/-- The store read lasts 40 ms (R167). -/
def storeReadMs : Nat := 40

/-- The restart wait ends at 100 ms (R180). -/
def restartWaitMs : Nat := 100

/-- The quiet gap, 20 bit times of 8 µs (R151). -/
def quietGapMicros : Nat := 160

/-- The unit of a backoff (R156). -/
def backoffUnitMicros : Nat := 40

/-- Collisions after which a frame is discarded (R157). -/
def maxCollisions : Nat := 8

/-- Largest payload of a frame (R152). -/
def maxPayload : Nat := 56

/-- Largest body of a reply part (R171). -/
def maxBody : Nat := 47

/-- Largest value of a 16-bit count that saturates (R125, R164). -/
def top16 : Nat := 65535

/-- Largest value of the delivered counts (R71, R85). -/
def top32 : Nat := 4294967295

/-- Entries the notice table holds (R98). -/
def noticeCapacity : Nat := 48

/-- Most rounds of a limit override (R105). -/
def maxOverrideRounds : Nat := 360

/-- Forward distance above which a departure has passed (R78, R102). -/
def passedDistance : Nat := 72000

/-- Departure countdown of a session opened with the clock UNSET (R78). -/
def horizonSeconds : Nat := 28800

/-- Largest energy field (R77, R99). -/
def maxEnergy : Nat := 200000

/-- Largest preconditioning power and time (R77). -/
def maxPrecondPower : Nat := 300
def maxPrecondSeconds : Nat := 3600

/-- Least divisor of the required power (R55). -/
def minSpread : Nat := 600

/-- Largest power of a well-formed claim (R38). -/
def maxPower : Nat := 2500

/-- Isolation count at which a station is cut off (R27, R28). -/
def isolationLimit : Nat := 18

/-- Missed round ends at which an entry is removed (R43). -/
def removalAge : Nat := 24

/-- Rounds of a METER hold (R93). -/
def meterHoldRounds : Nat := 6

/-- The rails of a temperature input (R141, R142). -/
def railLow : Int := -40
def railHigh : Int := 150

/-- DESIGN CHOICE (log 7): the factory segment of the part whose reset is `State.reset`, the part of the book's
own example (section 11.5). Every statement over all states holds for every serial and rating. -/
def resetSerial : BitVec 32 := 40117233#32
def resetStageRating : Nat := 400

end Sys2Proof.Config
end

