-- ==== Sys2Proof/Syntax.lean ====
section
/-! DEFINITION. The commands of the block: one constructor per row of spec/opcode_table.json. The table gives no
operands; the operands here are what the rule of each row says comes with the event (log 8). -/

namespace Sys2Proof

/-- The temperatures at the three inputs when a slice ends, in whole degrees (R141: converted together). -/
structure Temps where
  connector : Int
  cable     : Int
  heatSink  : Int
  deriving DecidableEq, Repr

/-- A QUERY frame without its view (R168): the sender bay and the payload-length byte of the frame, and the fields.
Where the length is not 9 the frame is malformed and its fields are not read (R169). -/
structure QueryFrame where
  sender     : Byte
  length     : Byte
  form       : Byte
  target     : BitVec 32
  tag        : Byte
  startIndex : Byte
  count      : Byte
  deriving DecidableEq, Repr

/-- A PLUG record as carried (R75). -/
structure PlugRecord where
  van         : BitVec 16
  need        : BitVec 32
  vanMax      : BitVec 16
  floor       : BitVec 16
  precondPower : BitVec 16
  precondTime  : BitVec 16
  deriving DecidableEq, Repr

/-- The forty commands. -/
inductive Instr where
  /-- POWER_UP (R19): application of supply. -/
  | powerUp
  /-- RESET_ASSERTED (R20): the RESET input passes to its asserted level. -/
  | resetAsserted
  /-- RESET_RELEASED (R20): the RESET input is released. -/
  | resetReleased
  /-- STORE_READ_COMPLETES (R20). -/
  | storeReadCompletes
  /-- SLICE_EXPIRY (R2): a slice other than slice B−1 ends; the temperatures its scan converts. -/
  | sliceExpiry (temps : Temps)
  /-- NATURAL_ROUND_END (R3): slice B−1 ends; the temperatures its scan converts. -/
  | naturalRoundEnd (temps : Temps)
  /-- CLOCK_SECOND_EVENT (R14). -/
  | clockSecondEvent
  /-- MARK_FRAME (R10): a valid MARK; the temperatures are converted if it ends the round. -/
  | markFrame (sender : Byte) (payload : List Byte) (temps : Temps)
  /-- CLAIM_FRAME (R37). -/
  | claimFrame (sender : Byte) (payload : List Byte)
  /-- NOTICE_FRAME (R99). -/
  | noticeFrame (sender : Byte) (payload : List Byte)
  /-- LIMIT_FRAME (R106). -/
  | limitFrame (sender : Byte) (payload : List Byte)
  /-- REPLY_FRAME (R161). -/
  | replyFrame (sender : Byte) (payload : List Byte)
  /-- QUERY_STATUS (R174). -/
  | queryStatus (q : QueryFrame)
  /-- QUERY_PEERS (R175). -/
  | queryPeers (q : QueryFrame)
  /-- QUERY_NOTICES (R109). -/
  | queryNotices (q : QueryFrame)
  /-- QUERY_SESSION (R174). -/
  | querySession (q : QueryFrame)
  /-- QUERY_LAST (R72). -/
  | queryLast (q : QueryFrame)
  /-- QUERY_CONFIG (R174). -/
  | queryConfig (q : QueryFrame)
  /-- SETUP_WRITE (R177): target serial, field code and value. -/
  | setupWrite (sender : Byte) (serial : BitVec 32) (field : Byte) (value : BitVec 32)
  /-- SETUP_LOCK (R179): field and value are not read. -/
  | setupLock (sender : Byte) (serial : BitVec 32)
  /-- SETUP_RESTART (R180): field and value are not read. -/
  | setupRestart (sender : Byte) (serial : BitVec 32)
  /-- RESTART_WAIT_EXPIRY (R180). -/
  | restartWaitExpiry
  /-- INVALID_FRAME (R160): a whole frame whose CRC does not match or whose kind is out of range. -/
  | invalidFrame
  /-- RECEIVE_ERROR (R160): a character with a framing error, a payload-length byte above 56, or a stray character. -/
  | receiveError
  /-- QUIET_GAP (R160): the quiet timer reaches 160 µs. -/
  | quietGap
  /-- SEND_ATTEMPT (R156). -/
  | sendAttempt
  /-- SENT_IN_FULL (R157). -/
  | sentInFull
  /-- COLLISION (R157). -/
  | collision
  /-- METER_EDGE (R126): the meter pulse input changes level. -/
  | meterEdge
  /-- PERMIT_FALLING (R119). -/
  | permitFalling
  /-- PERMIT_RISING (R119). -/
  | permitRising
  /-- PLUG (R78). -/
  | plug (r : PlugRecord)
  /-- TAPER (R80): the new van max power as carried. -/
  | taper (vanMax : BitVec 16)
  /-- HOLD (R81). -/
  | hold
  /-- RESUME (R82). -/
  | resume
  /-- UNPLUG (R83). -/
  | unplug
  /-- START_BIT_HEARD (R156). -/
  | startBitHeard
  /-- CHARACTER_HEARD (R160): a whole character. -/
  | characterHeard (c : Byte)
  /-- QUERY_VIEW_UNKNOWN (R170): the view code carried. -/
  | queryViewUnknown (q : QueryFrame) (view : Byte)
  /-- MALFORMED_SETUP (R177): the payload as received. -/
  | malformedSetup (sender : Byte) (payload : List Byte)
  deriving DecidableEq, Repr

end Sys2Proof
end

