-- ==== Sys2Proof/WellFormed.lean ====
section
/-! DEFINITION. Which commands can stand for an event of the part: a valid frame's payload has at most 56 bytes
(R152), a QUERY row carries the view of its row (R170), and a malformed SETUP is one (R177). -/

namespace Sys2Proof

/-- A payload a valid frame may have (R152, R160). -/
def payloadFits (p : List Byte) : Bool := decide (p.length ≤ Config.maxPayload)

/-- The length byte of a QUERY lies within a valid frame's (R152). -/
def QueryFrame.wellFormed (q : QueryFrame) : Bool := decide (q.length.toNat ≤ Config.maxPayload)

/-- The view codes of R168. -/
def viewKnown (v : Byte) : Bool := decide (1 ≤ v.toNat ∧ v.toNat ≤ 6)

/-- The payload of a SETUP that R177 calls malformed: not 10 bytes, or an action that is none of 1, 2, 3. -/
def setupMalformed (p : List Byte) : Bool :=
  match p with
  | [_, _, _, _, action, _, _, _, _, _] => !decide (1 ≤ action.toNat ∧ action.toNat ≤ 3)
  | _ => true

/-- The checks on a command, each by a rule. -/
def Instr.wellFormed : Instr → Bool
  | .markFrame _ p _ => payloadFits p
  | .claimFrame _ p => payloadFits p
  | .noticeFrame _ p => payloadFits p
  | .limitFrame _ p => payloadFits p
  | .replyFrame _ p => payloadFits p
  | .queryStatus q => q.wellFormed
  | .queryPeers q => q.wellFormed
  | .queryNotices q => q.wellFormed
  | .querySession q => q.wellFormed
  | .queryLast q => q.wellFormed
  | .queryConfig q => q.wellFormed
  | .queryViewUnknown q v => q.wellFormed && !viewKnown v
  | .malformedSetup _ p => payloadFits p && setupMalformed p
  | .powerUp => true
  | .resetAsserted => true
  | .resetReleased => true
  | .storeReadCompletes => true
  | .sliceExpiry _ => true
  | .naturalRoundEnd _ => true
  | .clockSecondEvent => true
  | .setupWrite _ _ _ _ => true
  | .setupLock _ _ => true
  | .setupRestart _ _ => true
  | .restartWaitExpiry => true
  | .invalidFrame => true
  | .receiveError => true
  | .quietGap => true
  | .sendAttempt => true
  | .sentInFull => true
  | .collision => true
  | .meterEdge => true
  | .permitFalling => true
  | .permitRising => true
  | .plug _ => true
  | .taper _ => true
  | .hold => true
  | .resume => true
  | .unplug => true
  | .startBitHeard => true
  | .characterHeard _ => true

end Sys2Proof
end

