-- ==== Sys2Proof/Decode.lean ====
section
/-! DEFINITION. The opcode table gives no row bits: a command is an event of the part, not a word. So no word
spells a command. The bytes of the depot line's frames are read in Machine/Operands.lean and Machine/Frames.lean. -/

namespace Sys2Proof

/-- No row of spec/opcode_table.json has bits, so no word of any width is a command. -/
def decodeTableWord (_nbits _w : Nat) : Option Instr := none

end Sys2Proof
end

