-- ==== Sys2Proof/Machine/State.lean ====
section
/-! DEFINITION. Everything the book gives the part to hold, block by block, as plain data; how a step can stop; and
the part right after power-up. A field's default value is the value its rule gives for power-up and restart. -/

namespace Sys2Proof.Machine

/-- No command of this part faults: the book names no behaviour that stops it. The type has no constructor. -/
inductive Fault where
  deriving DecidableEq, Repr

/-- The one way a step can refuse. -/
inductive Refusal where
  /-- Raised by an arm of exec for a command with no meaning yet; no arm does (safe). -/
  | notModelled (mnemonic : String)
  deriving DecidableEq, Repr

/-- Levels of the part's inputs, held between the commands that change them (log 6). -/
structure Pins where
  /-- RESET input asserted (R20). -/
  reset : Bool := false
  /-- PERMIT input high (R119). -/
  permit : Bool := false
  /-- Meter pulse input high (R126). -/
  meterIn : Bool := false
  /-- Temperatures at the inputs (R141). -/
  temps : Temps := ⟨0, 0, 0⟩
  deriving DecidableEq, Repr

/-- The installer segment (R166): each field blank until written; the lock. -/
structure Installer where
  bay : Option Nat := none
  bayCount : Option Nat := none
  feederLimit : Option Nat := none
  reserve : Option Nat := none
  sliceDiv : Option Nat := none
  roundDiv : Option Nat := none
  stepLag : Option Nat := none
  ppk : Option Nat := none
  edges : Option Nat := none
  derateStart : Option Nat := none
  derateEnd : Option Nat := none
  defaultDeparture : Option Nat := none
  locked : Bool := false
  deriving DecidableEq, Repr

/-- The configuration store (R166). -/
structure Store where
  serial : BitVec 32
  stageRating : Nat
  installer : Installer := {}
  deriving DecidableEq, Repr

/-- The values a store read hands to the blocks, held until the next restart (R167). -/
structure Settings where
  bay : Nat
  n : Nat
  feederLimit : Nat
  reserve : Nat
  sliceDiv : Nat
  roundDiv : Nat
  ppk : Nat
  edges : Nat
  derateStart : Nat
  derateEnd : Nat
  defaultDeparture : Nat
  stageRating : Nat
  deriving DecidableEq, Repr

/-- The round timer (section 1.1); `clock` none is UNSET. -/
structure Timer where
  running : Bool := false
  sliceCounter : Nat := 0
  sliceIndex : Nat := 0
  roundCount : Nat := 0
  aligned : Bool := false
  subSecond : Nat := 0
  clock : Option Nat := none
  deriving DecidableEq, Repr

/-- The standings (R18). -/
inductive Standing where
  | starting | setup | listening | joined | isolated | rejoining | cutoff
  deriving DecidableEq, Repr

/-- The round claim record: NONE, SENT, UNSENT (R18, R23). -/
inductive ClaimRecord where
  | nothing | sent | unsent
  deriving DecidableEq, Repr

/-- The standing unit (R18, R19). -/
structure StandingUnit where
  standing : Standing := .starting
  listenCount : Nat := 0
  listenHeard : Bool := false
  listenPosted : Bool := false
  silentStreak : Nat := 0
  rejoinCount : Nat := 0
  isolationCount : Nat := 0
  roundHeard : Bool := false
  claimRecord : ClaimRecord := .nothing
  bayClash : Bool := false
  clashClear : Nat := 0
  roundClash : Bool := false
  deriving DecidableEq, Repr

/-- A set of hold reasons (R71). -/
structure HoldSet where
  driver : Bool := false
  permit : Bool := false
  thermal : Bool := false
  meter : Bool := false
  deriving DecidableEq, Repr

/-- The hold reasons (R91). -/
inductive HoldReason where
  | driver | permit | thermal | meter
  deriving DecidableEq, Repr

/-- The session phases (R73). -/
inductive Phase where
  | vacant | attached | charging | deferred | held | topped | precondition | fault
  deriving DecidableEq, Repr

/-- A peer entry (R36). The phase is the byte as carried; it is not checked. -/
structure PeerEntry where
  bay : Nat
  lastHeard : Nat
  standing : Standing
  phase : Byte
  q : Nat
  m : Nat
  f : Nat
  k : Nat
  pEff : Nat
  thermal : Bool
  clash : Bool
  hold : Bool
  reasons : HoldSet
  sequence : Nat
  deriving DecidableEq, Repr

/-- The peer table (R35) and the two figures last handed over (R49). -/
structure PeerTable where
  entries : List PeerEntry := []
  dHanded : Nat := 0
  claimantsHanded : Nat := 0
  deriving DecidableEq, Repr

/-- A claim formed by this station (R58). -/
structure Claim where
  standing : Standing
  phase : Phase
  q : Nat
  mEff : Nat
  f : Nat
  k : Nat
  pEff : Nat
  thermal : Bool
  clash : Bool
  hold : Bool
  reasons : HoldSet
  sequence : Nat
  deriving DecidableEq, Repr

/-- The share computer (R50). `postOwed`: slice 2, the post slice, begins at this moment, and its claim is still to be
formed (R60; log 31). -/
structure ShareUnit where
  ownClaim : Option Claim := none
  sequence : Nat := 0
  postSlice : Option Nat := none
  allotment : Nat := 0
  postOwed : Bool := false
  deriving DecidableEq, Repr

/-- Where a session's target comes from (R71). -/
inductive TargetSource where
  | van | notice
  deriving DecidableEq, Repr

/-- Where a session's departure comes from (R71). -/
inductive DepartureSource where
  | notice | default | horizon
  deriving DecidableEq, Repr

/-- Why a session is in FAULT (R71, R90). -/
inductive FaultReason where
  | overdraw | meter
  deriving DecidableEq, Repr

/-- How a session ended (R72). -/
inductive EndReason where
  | unplug | superseded | restart
  deriving DecidableEq, Repr

/-- The session record (R71). `openedThisRound` says that the opening count is still to be taken off (R85). -/
structure Session where
  van : Nat
  phase : Phase
  need : Nat
  target : Nat
  targetSource : TargetSource
  departure : Nat
  departureSource : DepartureSource
  vanMax : Nat
  floor : Nat
  precondPower : Nat
  precondTime : Nat
  delivered : Nat := 0
  opening : Nat
  holds : HoldSet := {}
  meterHolds : Nat := 0
  meterRoundsLeft : Nat := 0
  overdrawStreak : Nat := 0
  faultReason : Option FaultReason := none
  plugSecond : Option Nat
  openedThisRound : Bool := true
  deriving DecidableEq, Repr

/-- The last-session record (R72). -/
structure LastSession where
  van : Nat
  delivered : Nat
  reason : EndReason
  finalPhase : Phase
  deriving DecidableEq, Repr

/-- The kinds of record the connector module sends (R75). -/
inductive RecordKind where
  | plug | taper | hold | resume | unplug
  deriving DecidableEq, Repr

/-- The results an ACK carries (R75). -/
inductive AckResult where
  | taken | clamped | ignored
  deriving DecidableEq, Repr

/-- A record out on the post link (R75). -/
inductive LinkRecord where
  | ack (kind : RecordKind) (result : AckResult)
  | phase (phase : Phase) (holds : HoldSet) (reason : Option FaultReason)
  deriving DecidableEq, Repr

/-- A notice entry (R98); `target` none is absent. -/
structure NoticeEntry where
  van : Nat
  departure : Nat
  target : Option Nat
  deriving DecidableEq, Repr

/-- A running limit override (R98). -/
structure Override where
  value : Nat
  rounds : Nat
  deriving DecidableEq, Repr

/-- The notice unit (R98); `override` none is the state NONE, whose value and rounds read 0. -/
structure NoticeUnit where
  table : List NoticeEntry := []
  override : Option Override := none
  deriving DecidableEq, Repr

/-- Stage control (R110). `sliceDriven` says that every demand word of the slice in progress was above 0 and
ENABLE on throughout (R121). `startOwed`: slice 2, the lag slice, begins at this moment, and its start is still to be
taken (R116; log 31). -/
structure StageControl where
  applied : Nat := 0
  pendingIncrease : Option Nat := none
  cap : Bool := false
  lagSlice : Option Nat := none
  wordSent : Nat := 0
  enable : Bool := false
  sliceDriven : Bool := false
  startOwed : Bool := false
  deriving DecidableEq, Repr

/-- The meter counter (R125). -/
structure MeterCounter where
  sliceCount : Nat := 0
  roundCount : Nat := 0
  holdCount : Nat := 0
  ceiling : Option Nat := none
  capped : Bool := false
  allDriven : Bool := true
  deriving DecidableEq, Repr

/-- One temperature channel: the latest reading and its sensor-fault flag (R140). -/
structure Channel where
  reading : Option Int := none
  faulty : Bool := false
  deriving DecidableEq, Repr

/-- The thermal scan (R140). -/
structure ThermalScan where
  ch0 : Channel := {}
  ch1 : Channel := {}
  ch2 : Channel := {}
  hot : Option Int := none
  derating : Bool := false
  mEff : Nat := 0
  deriving DecidableEq, Repr

/-- The slots of the outbox (R155). -/
inductive Slot where
  | mark | claim | reply
  deriving DecidableEq, Repr

/-- A frame in a slot: its payload (a MARK's is filled at the attempt, R7) and its collision count (R155). -/
structure Queued where
  payload : List Byte
  collisions : Nat
  deriving DecidableEq, Repr

/-- The outbox (R155). -/
structure Outbox where
  mark : Option Queued := none
  claim : Option Queued := none
  reply : Option Queued := none
  deriving DecidableEq, Repr

/-- The send attempt under way (R157): its slot, the characters on the line, whether a newer frame has taken the
slot (R159), whether it may not be retried after a collision (R8, R158), and how many characters have been read back. -/
structure Attempt where
  slot : Slot
  bytes : List Byte
  replaced : Bool
  noRetry : Bool
  heard : Nat
  deriving DecidableEq, Repr

/-- The sender (R156): WAITING holds the backoff in units and the quiet time waited, in microseconds. -/
inductive Sender where
  | idle
  | waiting (backoff waited : Nat)
  | sending (a : Attempt)
  deriving DecidableEq, Repr

/-- The receiver (R160): SKIP says whether the next character is counted as stray. -/
inductive Receiver where
  | hunt
  | frame (chars : List Byte)
  | skip (strayCounts : Bool)
  deriving DecidableEq, Repr

/-- The line counters (R164). -/
structure LineCounters where
  framesHeard : Nat := 0
  lineErrors : Nat := 0
  collisions : Nat := 0
  claimsUnposted : Nat := 0
  foreignFrames : Nat := 0
  queriesDropped : Nat := 0
  deriving DecidableEq, Repr

/-- The line engine (chapter 10). `lineActive`: a start bit has been heard whose character has not ended (R151). -/
structure LineEngine where
  outbox : Outbox := {}
  sender : Sender := .idle
  receiver : Receiver := .skip false
  lineActive : Bool := false
  quietTimer : Nat := 0
  prng : BitVec 16
  counters : LineCounters := {}
  deriving DecidableEq, Repr

/-- The kind of request a pending reply answers (R172). -/
inductive RequestKind where
  | query | write | lock | restart
  deriving DecidableEq, Repr

/-- A pending reply (R172): the payloads of its parts, how many have been placed in the REPLY slot, and the request. -/
structure PendingReply where
  parts : List (List Byte)
  placed : Nat
  kind : RequestKind
  deriving DecidableEq, Repr

/-- The inspection and setup block (R172). -/
structure Inspection where
  pendingReply : Option PendingReply := none
  restartWait : Option Nat := none
  deriving DecidableEq, Repr

/-- What has left the part, oldest first (log 14); nothing in the part reads it. -/
structure Outputs where
  /-- Records formed for the post link (R75, R76). -/
  link : List LinkRecord := []
  /-- Demand words sent (R111). -/
  stage : List Nat := []
  /-- Frames sent in full, as characters (R152, R157). -/
  line : List (List Byte) := []
  deriving DecidableEq, Repr

/-- The part. -/
structure State where
  pins : Pins
  store : Store
  /-- The store read in progress, with the ms elapsed (R167). -/
  storeRead : Option Nat
  /-- The values handed over by the last store read (R167). -/
  settings : Option Settings
  timer : Timer
  stand : StandingUnit
  peers : PeerTable
  share : ShareUnit
  /-- The session record; none in VACANT (R71). -/
  session : Option Session
  /-- The last-session record; none while empty (R72). -/
  last : Option LastSession
  notices : NoticeUnit
  stage : StageControl
  meter : MeterCounter
  thermal : ThermalScan
  line : LineEngine
  inspect : Inspection
  out : Outputs
  /-- MODEL's own (log 4): orders already chosen for what is to come; they are taken first. -/
  choices : List Nat
  /-- MODEL's own (log 4): the counter the free choice is applied to. -/
  freeCount : Nat
  /-- The commands waiting, first in, first out. -/
  pending : List Instr
  deriving DecidableEq, Repr

/-- The part right after power-up: every block at its power-up values, the store read begun, STARTING
(R5, R17, R19, R20, R48, R50, R71, R72, R98, R110, R125, R140, R165, R172); the installer segment blank and
unlocked (R166); input levels by log 6, factory segment by log 7. -/
def State.reset : State where
  pins := {}
  store := { serial := Config.resetSerial, stageRating := Config.resetStageRating }
  storeRead := some 0
  settings := none
  timer := {}
  stand := {}
  peers := {}
  share := {}
  session := none
  last := none
  notices := {}
  stage := {}
  meter := {}
  thermal := {}
  line := { prng := Config.resetSerial.setWidth 16 ^^^ (Config.resetSerial >>> 16).setWidth 16 }
  inspect := {}
  out := { stage := [0] }
  choices := []
  freeCount := 0
  pending := []

end Sys2Proof.Machine
end

