-- ==== Sys2Proof/Machine/Operands.lean ====
section
/-! DEFINITION. The byte formats of the depot line: numbers, the frame and its CRC (R152), the CLAIM payload (R153),
the codes of R18, R73, R154, and the flag bits (R153, R174). -/

namespace Sys2Proof.Machine

/-- `n` in `k` bytes, most significant byte first (R152). -/
def bytesBE : Nat → Nat → List Byte
  | 0, _ => []
  | k + 1, n => BitVec.ofNat 8 (n / 256 ^ k) :: bytesBE k n

/-- The number whose bytes are given, most significant first (R152). -/
def numBE (bs : List Byte) : Nat := bs.foldl (fun n b => n * 256 + b.toNat) 0

/-- A byte from flags, the first in the lowest bit (R153, R174). -/
def flagByte : List Bool → Byte
  | [] => 0
  | b :: bs => (flagByte bs <<< 1) ||| (if b then 1 else 0)

/-- One bit of a byte. -/
def bitOf (b : Byte) (i : Nat) : Bool := b.getLsbD i

/-- One step of the CRC: shift, and combine with 0x1021 if the bit differs from the top bit (R152). -/
def crcBit (reg : BitVec 16) (bit : Bool) : BitVec 16 :=
  if bit != reg.msb then (reg <<< 1) ^^^ 0x1021#16 else reg <<< 1

/-- A byte's eight bits, most significant first (R152). -/
def crcByte (reg : BitVec 16) (b : Byte) : BitVec 16 :=
  [7, 6, 5, 4, 3, 2, 1, 0].foldl (fun r i => crcBit r (bitOf b i)) reg

/-- The CRC over kind, sender bay, payload length and payload (R152). -/
def crc (bs : List Byte) : BitVec 16 := bs.foldl crcByte 0xFFFF#16

/-- The frame kinds (R154). -/
inductive FrameKind where
  | mark | claim | notice | limit | query | reply | setup
  deriving DecidableEq, Repr

/-- The kind codes (R154). -/
def FrameKind.code : FrameKind → Byte
  | .mark => 1
  | .claim => 2
  | .notice => 3
  | .limit => 4
  | .query => 5
  | .reply => 6
  | .setup => 7

/-- The kind a code names; none for 0 and 8..255 (R160). -/
def FrameKind.ofCode (b : Byte) : Option FrameKind :=
  match b.toNat with
  | 1 => some .mark
  | 2 => some .claim
  | 3 => some .notice
  | 4 => some .limit
  | 5 => some .query
  | 6 => some .reply
  | 7 => some .setup
  | _ => none

/-- The start byte (R152). -/
def startByte : Byte := 0xA5

/-- The characters of a frame (R152). -/
def frameBytes (kind : FrameKind) (sender : Byte) (payload : List Byte) : List Byte :=
  let body := kind.code :: sender :: BitVec.ofNat 8 payload.length :: payload
  startByte :: body ++ bytesBE 2 (crc body).toNat

/-- The kind a slot's frames have. -/
def Slot.kind : Slot → FrameKind
  | .mark => .mark
  | .claim => .claim
  | .reply => .reply

/-- The standing codes (R18). -/
def Standing.code : Standing → Nat
  | .starting => 0
  | .setup => 1
  | .listening => 2
  | .joined => 3
  | .isolated => 4
  | .rejoining => 5
  | .cutoff => 6

/-- The standing a CLAIM's code names: the five in which claims are sent (R38). -/
def Standing.ofClaimCode (n : Nat) : Option Standing :=
  match n with
  | 2 => some .listening
  | 3 => some .joined
  | 4 => some .isolated
  | 5 => some .rejoining
  | 6 => some .cutoff
  | _ => none

/-- The phase codes (R73). -/
def Phase.code : Phase → Nat
  | .vacant => 0
  | .attached => 1
  | .charging => 2
  | .deferred => 3
  | .held => 4
  | .topped => 5
  | .precondition => 6
  | .fault => 7

/-- Byte 13 of a CLAIM (R153). -/
def HoldSet.byte (h : HoldSet) : Byte := flagByte [h.driver, h.permit, h.thermal, h.meter]

/-- The defined bits of byte 13 of a CLAIM (R153). -/
def HoldSet.ofByte (b : Byte) : HoldSet := ⟨bitOf b 0, bitOf b 1, bitOf b 2, bitOf b 3⟩

/-- The 16 bytes of an own claim (R153). -/
def Claim.payload (c : Claim) : List Byte :=
  bytesBE 1 c.standing.code ++ bytesBE 1 c.phase.code ++ bytesBE 2 c.q ++ bytesBE 2 c.mEff ++ bytesBE 2 c.f ++
    bytesBE 2 c.k ++ bytesBE 2 c.pEff ++ [flagByte [c.thermal, c.clash, c.hold], c.reasons.byte] ++
    bytesBE 1 c.sequence ++ [0]

/-- A CLAIM heard from `bay` during round `round`, if it is well formed (R38): 16 bytes, a standing that sends
claims, powers of at most 2500, q at most M, and F at most q where q is above 0. -/
def peerEntryOf (bay round : Nat) (payload : List Byte) : Option PeerEntry :=
  match payload with
  | [st, ph, q1, q0, m1, m0, f1, f0, k1, k0, p1, p0, flags, reasons, seq, _] =>
    match Standing.ofClaimCode st.toNat with
    | none => none
    | some standing =>
      let e : PeerEntry :=
        { bay := bay, lastHeard := round, standing := standing, phase := ph, q := numBE [q1, q0],
          m := numBE [m1, m0], f := numBE [f1, f0], k := numBE [k1, k0], pEff := numBE [p1, p0],
          thermal := bitOf flags 0, clash := bitOf flags 1, hold := bitOf flags 2,
          reasons := HoldSet.ofByte reasons, sequence := seq.toNat }
      if e.m ≤ Config.maxPower ∧ e.f ≤ Config.maxPower ∧ e.pEff ≤ Config.maxPower ∧ e.q ≤ e.m ∧
          (0 < e.q → e.f ≤ e.q) then some e else none
  | _ => none

/-- The fields of a NOTICE (R154). -/
structure NoticeFields where
  van : Nat
  departure : Nat
  target : Nat
  dispatch : Nat
  deriving DecidableEq, Repr

/-- A NOTICE payload of 11 bytes (R154). -/
def noticeFields (payload : List Byte) : Option NoticeFields :=
  match payload with
  | [v1, v0, d2, d1, d0, t2, t1, t0, c2, c1, c0] =>
    some ⟨numBE [v1, v0], numBE [d2, d1, d0], numBE [t2, t1, t0], numBE [c2, c1, c0]⟩
  | _ => none

/-- The fields of a LIMIT (R154). -/
structure LimitFields where
  value : Nat
  rounds : Nat
  dispatch : Nat
  deriving DecidableEq, Repr

/-- A LIMIT payload of 7 bytes (R154). -/
def limitFields (payload : List Byte) : Option LimitFields :=
  match payload with
  | [v1, v0, r1, r0, c2, c1, c0] => some ⟨numBE [v1, v0], numBE [r1, r0], numBE [c2, c1, c0]⟩
  | _ => none

/-- The clock field of a MARK payload of 3 bytes (R154). -/
def markField (payload : List Byte) : Option Nat :=
  match payload with
  | [c2, c1, c0] => some (numBE [c2, c1, c0])
  | _ => none

/-- A clock field that holds a second of day; 86400 and above read as UNSET (R15, section 1.3). -/
def clockOfField (n : Nat) : Option Nat := if n < Config.daySeconds then some n else none

/-- The three bytes of a clock, UNSET as all ones (R154, R174). -/
def clockBytes (c : Option Nat) : List Byte := bytesBE 3 (c.getD Config.unsetField)

end Sys2Proof.Machine
end

