-- ==== Sys2Proof/Machine/Ops.lean ====
section
/-! DEFINITION. The operations the commands share: choosing an order, the generator, the outbox, the demand word and
draw permission, the session's phase and holds, forming a claim, a change of standing, and the restart. -/

namespace Sys2Proof.Machine

/-! ### Order of things taken at the same moment (log 4) -/

/-- The next free choice: from the choices already made, or else the free value of the counter. -/
def State.choose (s : State) : Nat × State :=
  match s.choices with
  | [] => (Config.freeChoice s.freeCount, { s with freeCount := s.freeCount + 1 })
  | c :: cs => (c, { s with choices := cs })

/-- `x` put at position `n` of `l` (at the end if `l` is shorter). -/
def insertAt {α : Type} (x : α) : Nat → List α → List α
  | 0, l => x :: l
  | _ + 1, [] => [x]
  | n + 1, y :: l => y :: insertAt x n l

/-- The order of `l` that the number `c` stands for; every order of `l` is one for some `c`. -/
def arrange {α : Type} (c : Nat) : List α → List α
  | [] => []
  | x :: l => insertAt x (c % (l.length + 1)) (arrange (c / (l.length + 1)) l)

/-- Parts of an event done one after the other. -/
def runAll (parts : List (State → State)) (s : State) : State := parts.foldl (fun s w => w s) s

/-- Parts of an event done in the order `c` stands for. -/
def runIn (c : Nat) (parts : List (State → State)) (s : State) : State := runAll (arrange c parts) s

/-- Parts of an event done in an order the book leaves open. -/
def inAnyOrder (parts : List (State → State)) (s : State) : State := runIn s.choose.1 parts s.choose.2

/-! ### Settings -/

/-- Settings read as 0 before a read has handed them over; no rule reads them then. -/
def Settings.blank : Settings := ⟨0, 0, 0, 0, 0, 0, 0, 0, 0, 0, 0, 0⟩

/-- The settings the blocks hold (R167). -/
def State.cfg (s : State) : Settings := s.settings.getD Settings.blank

/-- The standings in which the part has rounds, takes frames and forms claims (R22, R37, R57). -/
def Standing.onLine : Standing → Bool
  | .starting => false
  | .setup => false
  | .listening => true
  | .joined => true
  | .isolated => true
  | .rejoining => true
  | .cutoff => true

/-- The standings that draw (R112). -/
def Standing.draws : Standing → Bool
  | .joined => true
  | .isolated => true
  | .rejoining => true
  | .starting => false
  | .setup => false
  | .listening => false
  | .cutoff => false

/-! ### The pseudo-random generator (R163) -/

/-- The seed: the serial's low half combined with its high half. -/
def prngSeed (serial : BitVec 32) : BitVec 16 := serial.setWidth 16 ^^^ (serial >>> 16).setWidth 16

/-- The state after one advance. -/
def prngNext (x : BitVec 16) : BitVec 16 := x * 7417#16 + 2851#16

/-- A draw of `m` values from the advanced state. -/
def prngValue (m : Nat) (x : BitVec 16) : Nat := x.toNat * m / 65536

/-- One draw: its value, and the part with the generator advanced. -/
def State.draw (m : Nat) (s : State) : Nat × State :=
  let x := prngNext s.line.prng
  (prngValue m x, { s with line := { s.line with prng := x } })

/-! ### Counters (R164) -/

/-- Counts of 16 bits saturate (R164). -/
def bump (n : Nat) : Nat := satAdd Config.top16 n 1

def State.countLineError (s : State) : State :=
  { s with line := { s.line with counters := { s.line.counters with lineErrors := bump s.line.counters.lineErrors } } }

def State.countCollision (s : State) : State :=
  { s with line := { s.line with counters := { s.line.counters with collisions := bump s.line.counters.collisions } } }

def State.countUnposted (s : State) : State :=
  { s with line := { s.line with counters :=
      { s.line.counters with claimsUnposted := bump s.line.counters.claimsUnposted } } }

def State.countDropped (s : State) : State :=
  { s with line := { s.line with counters :=
      { s.line.counters with queriesDropped := bump s.line.counters.queriesDropped } } }

/-! ### The outbox and the sender (R155, R156, R159) -/

/-- The frame in a slot. -/
def Outbox.get (o : Outbox) : Slot → Option Queued
  | .mark => o.mark
  | .claim => o.claim
  | .reply => o.reply

/-- The outbox with a slot's contents replaced. -/
def Outbox.set (o : Outbox) (slot : Slot) (f : Option Queued) : Outbox :=
  match slot with
  | .mark => { o with mark := f }
  | .claim => { o with claim := f }
  | .reply => { o with reply := f }

/-- Every slot is empty. -/
def Outbox.isEmpty (o : Outbox) : Bool := o.mark.isNone && o.claim.isNone && o.reply.isNone

/-- The highest occupied slot, in the order MARK, CLAIM, REPLY (R155). -/
def Outbox.highest (o : Outbox) : Option (Slot × Queued) :=
  match o.mark, o.claim, o.reply with
  | some f, _, _ => some (.mark, f)
  | none, some f, _ => some (.claim, f)
  | none, none, some f => some (.reply, f)
  | none, none, none => none

def State.setSlot (slot : Slot) (f : Option Queued) (s : State) : State :=
  { s with line := { s.line with outbox := s.line.outbox.set slot f } }

def State.setSender (x : Sender) (s : State) : State := { s with line := { s.line with sender := x } }

/-- A backoff of `m` values is drawn and the wait begins (R156). -/
def State.startWait (m : Nat) (s : State) : State :=
  (s.draw m).2.setSender (.waiting (s.draw m).1 0)

/-- The frame in the slot is the one on the line (R157, R159). -/
def State.underWay (slot : Slot) (s : State) : Bool :=
  match s.line.sender with
  | .sending a => a.slot == slot && !a.replaced
  | _ => false

/-- A frame is placed in a slot, with a collision count of 0 and in place of an unsent one (R155). An IDLE sender
draws a first-attempt backoff; placed while the slot's own frame is on the line, it waits for the next attempt (R156, R159). -/
def State.placeFrame (slot : Slot) (payload : List Byte) (s : State) : State :=
  let s1 := s.setSlot slot (some ⟨payload, 0⟩)
  match s.line.sender with
  | .idle => s1.startWait 16
  | .waiting _ _ => s1
  | .sending a => if a.slot = slot then s1.setSender (.sending { a with replaced := true }) else s1

/-- A frame not under way is taken out of its slot; a wait with nothing left to send is dropped (R156). -/
def State.removeFrame (slot : Slot) (s : State) : State :=
  let s1 := s.setSlot slot none
  match s.line.sender with
  | .waiting _ _ => if s1.line.outbox.isEmpty then s1.setSender .idle else s1
  | .idle => s1
  | .sending _ => s1

/-- After an attempt: a backoff of `m` values if a slot is still occupied, IDLE otherwise (R156). -/
def State.afterAttempt (m : Nat) (s : State) : State :=
  if s.line.outbox.isEmpty then s.setSender .idle else s.startWait m

/-- The attempt under way, if it is of this slot, is not to be retried after a collision (R8, R158). -/
def State.forbidRetry (slot : Slot) (s : State) : State :=
  match s.line.sender with
  | .sending a => if a.slot = slot then s.setSender (.sending { a with noRetry := true }) else s
  | _ => s

/-- The MARK leaves the outbox if its send has not begun (R8, R9). -/
def State.removeWaitingMark (s : State) : State :=
  if s.line.outbox.mark.isSome && !s.underWay .mark then s.removeFrame .mark else s

/-! ### The demand word and draw permission (R111 to R113, R117, R121) -/

/-- The value to be sent: 0 while capped, the applied power otherwise (R111). -/
def StageControl.word (g : StageControl) : Nat := if g.cap then 0 else g.applied

/-- The demand word is sent; a word of 0, or ENABLE off, spoils the slice's driven finding (R111, R121). -/
def State.sendWord (s : State) : State :=
  { s with
    stage := { s.stage with
      wordSent := s.stage.word
      sliceDriven := s.stage.sliceDriven && decide (0 < s.stage.word) && s.stage.enable }
    out := { s.out with stage := s.out.stage ++ [s.stage.word] } }

/-- Outside a slice start the word is sent only when its value changes (R111, log 12). -/
def State.sendIfChanged (s : State) : State :=
  if s.stage.word = s.stage.wordSent then
    { s with stage := { s.stage with sliceDriven := s.stage.sliceDriven && s.stage.enable } }
  else s.sendWord

/-- The session phase; VACANT with no session (R71). -/
def State.phase (s : State) : Phase :=
  match s.session with
  | none => .vacant
  | some x => x.phase

/-- The set of hold reasons; empty with no session (R71). -/
def State.holds (s : State) : HoldSet :=
  match s.session with
  | none => {}
  | some x => x.holds

/-- The phases in which the post may draw (R73, R112). -/
def Phase.draws : Phase → Bool
  | .charging => true
  | .precondition => true
  | .vacant => false
  | .attached => false
  | .deferred => false
  | .held => false
  | .topped => false
  | .fault => false

/-- Draw permission (R112). -/
def State.permission (s : State) : Bool := s.phase.draws && s.pins.permit && s.stand.standing.draws

/-- Permission evaluated at an event between round ends: ENABLE matches it, and where it does not hold the applied
power is 0 and no increase waits (R112, R113). -/
def State.evalPermission (s : State) : State :=
  (if s.permission then { s with stage := { s.stage with enable := true } }
   else { s with stage := { s.stage with enable := false, applied := 0, pendingIncrease := none } }).sendIfChanged

/-- The applied power is clamped to M_eff; a waiting increase stands (R117). -/
def State.clampApplied (s : State) : State :=
  ({ s with stage := { s.stage with applied := min s.stage.applied s.thermal.mEff } } : State).sendIfChanged

/-! ### Effective max power (R144, R145) -/

/-- M_d from H, Ts, Te and M0 (R144). -/
def deratedMax (h ts te : Int) (m0 : Nat) : Nat :=
  if h ≤ ts then m0 else if h < te then m0 * (te - h).toNat / (te - ts).toNat else 0

/-- M_eff from M_d and the floor power (R145). -/
def flooredMax (floor md : Nat) : Nat := if floor ≤ md then md else 0

/-- M_eff of the session and the hot value of the last scan; 0 with no session or no scan (R144, R145). -/
def State.formedMEff (s : State) : Nat :=
  match s.session, s.thermal.hot with
  | some x, some h =>
    flooredMax x.floor (deratedMax h s.cfg.derateStart s.cfg.derateEnd (min x.vanMax s.cfg.stageRating))
  | some _, none => 0
  | none, _ => 0

/-- M_eff is formed anew and handed to stage control (R145, R146). -/
def State.refreshMEff (s : State) : State :=
  ({ s with thermal := { s.thermal with mEff := s.formedMEff } } : State).clampApplied

/-! ### Energy of the session (R85, R86) -/

/-- Watt-hours of a count of meter counts (R85). -/
def State.whOf (s : State) (counts : Nat) : Nat := counts * 1000 / (s.cfg.ppk * s.cfg.edges)

/-- Delivered energy: the credited counts in Wh (R85). -/
def State.deliveredWh (s : State) (x : Session) : Nat := s.whOf x.delivered

/-- Running delivered counts: with the round's counts up to its last slice end (R85). -/
def State.runningCounts (s : State) (x : Session) : Nat :=
  x.delivered + s.meter.roundCount - (if x.openedThisRound then x.opening else 0)

/-- Running delivered energy (R85). -/
def State.runningWh (s : State) (x : Session) : Nat := s.whOf (s.runningCounts x)

/-- Remaining energy E (R86). -/
def State.remaining (s : State) (x : Session) : Nat := x.target - s.deliveredWh x

/-- The pre-window condition: Pp > 0 and 0 < T ≤ Tp (R55, R73). -/
def Session.preWindow (x : Session) : Bool :=
  decide (0 < x.precondPower ∧ 0 < x.departure ∧ x.departure ≤ x.precondTime)

/-! ### Forming the own claim (R54 to R59) -/

/-- FREE VALUE (log 30): whether a claim formed in TOPPED, the running delivered energy at the target, asks for the E
of the last round end (R54, R86) or for none (R68, R70). It is read from the next free choice, above every order that
choice can stand for, and takes nothing from it. -/
def State.asksUncredited (s : State) : Bool := decide (s.choose.1 / 4294967296 % 2 = 1)

/-- The energy a claim asks for: E as after the last round end (R54, R86), in PRECONDITION too, where R94's "next claim"
is read as the one after the round end that credits the target reached (DEDUCED, log 33). In TOPPED with the running
delivered energy at the target R68 and R70 give none instead, and which of the two is free (log 30). -/
def State.claimEnergy (s : State) (x : Session) : Nat :=
  if x.phase = .topped ∧ x.target ≤ s.runningWh x ∧ s.asksUncredited = false then 0 else s.remaining x

/-- q before clamping, by the first case that holds (R55). -/
def requiredBefore (phase : Phase) (window : Bool) (e t pp tp : Nat) : Nat :=
  if phase = .precondition ∨ window then pp + ceilDiv (e * 36) (max t Config.minSpread)
  else if t = 0 then ceilDiv (e * 36) Config.minSpread
  else if e = 0 then 0
  else ceilDiv (e * 36) (max (t - (if 0 < pp then tp else 0)) Config.minSpread)

/-- The three adjustments of q, in order (R56). -/
def adjustQ (q mEff floor : Nat) : Nat :=
  let q1 := min q mEff
  let q2 := if 0 < q1 ∧ q1 < floor then floor else q1
  if mEff = 0 then 0 else q2

/-- No hold reason is present. -/
def HoldSet.isEmpty (h : HoldSet) : Bool := !h.driver && !h.permit && !h.thermal && !h.meter

/-- The required power q of the session (R54, R55, R56). -/
def State.required (s : State) (x : Session) : Nat :=
  if x.phase = .fault ∨ x.phase = .vacant ∨ !x.holds.isEmpty then 0
  else adjustQ (requiredBefore x.phase x.preWindow (s.claimEnergy x) x.departure x.precondPower x.precondTime)
    s.thermal.mEff x.floor

/-- The claim the station would form now (R58). -/
def State.claimNow (s : State) : Claim :=
  { standing := s.stand.standing
    phase := s.phase
    q := match s.session with | none => 0 | some x => s.required x
    mEff := match s.session with | none => 0 | some _ => s.thermal.mEff
    f := match s.session with | none => 0 | some x => x.floor
    k := match s.session with | none => 0 | some x => min x.departure 65535
    pEff := s.share.allotment
    thermal := s.thermal.derating
    clash := s.stand.bayClash
    hold := !s.holds.isEmpty
    reasons := s.holds
    sequence := (s.share.sequence + 1) % 256 }

/-- A claim is formed, recorded and queued (R57, R58); in STARTING and SETUP none is (R57). -/
def State.formClaim (s : State) : State :=
  if s.stand.standing.onLine then
    ({ s with share := { s.share with ownClaim := some s.claimNow, sequence := s.claimNow.sequence } } : State).placeFrame
      .claim s.claimNow.payload
  else s

/-! ### Session changes (R74, R76, R91, R92, R94) -/

/-- A record is formed for the post link (R75). -/
def State.sendLink (r : LinkRecord) (s : State) : State := { s with out := { s.out with link := s.out.link ++ [r] } }

/-- The PHASE record of the session as it stands: phase, hold reasons, and the fault reason in FAULT (R74). -/
def State.phaseRecord (s : State) : LinkRecord :=
  match s.session with
  | none => .phase .vacant {} none
  | some x => .phase x.phase x.holds (if x.phase = .fault then x.faultReason else none)

def State.sendPhase (s : State) : State := s.sendLink s.phaseRecord

/-- The phases whose entry re-forms the claim (R59, R74). -/
def Phase.reforms : Phase → Bool
  | .held => true
  | .fault => true
  | .topped => true
  | .vacant => true
  | .attached => false
  | .charging => false
  | .deferred => false
  | .precondition => false

/-- The session record changes: one PHASE record if the phase or the set of hold reasons changed, and a claim formed
on entry to HELD, FAULT, TOPPED or VACANT (R59, R74). -/
def State.putSession (x : Option Session) (s : State) : State :=
  let s1 : State := { s with session := x }
  let s2 := if s1.phase = s.phase ∧ s1.holds = s.holds then s1 else s1.sendPhase
  if s1.phase ≠ s.phase ∧ s1.phase.reforms then s2.formClaim else s2

/-- The same at an event between round ends, where stage control acts at once (R74, R113). -/
def State.changeSession (x : Option Session) (s : State) : State := (s.putSession x).evalPermission

/-- Membership of a reason. -/
def HoldSet.has (h : HoldSet) : HoldReason → Bool
  | .driver => h.driver
  | .permit => h.permit
  | .thermal => h.thermal
  | .meter => h.meter

/-- The set with a reason put in or taken out. -/
def HoldSet.put (h : HoldSet) (b : Bool) : HoldReason → HoldSet
  | .driver => { h with driver := b }
  | .permit => { h with permit := b }
  | .thermal => { h with thermal := b }
  | .meter => { h with meter := b }

/-- The phase after a reason is added: HELD, or FAULT kept (R91). -/
def Phase.afterHold : Phase → Phase
  | .fault => .fault
  | .vacant => .vacant
  | .attached => .held
  | .charging => .held
  | .deferred => .held
  | .held => .held
  | .topped => .held
  | .precondition => .held

/-- A hold reason is added to the set of an open session (R91). -/
def State.addHold (r : HoldReason) (s : State) : State :=
  match s.session with
  | none => s
  | some x =>
    if x.holds.has r then s
    else s.changeSession (some { x with holds := x.holds.put true r, phase := x.phase.afterHold })

/-- A hold reason is removed; the phase is left as it stands (R92). -/
def State.removeHold (r : HoldReason) (s : State) : State :=
  match s.session with
  | none => s
  | some x => if x.holds.has r then s.changeSession (some { x with holds := x.holds.put false r }) else s

/-- The phases that reaching the target ends at once (R94). -/
def Phase.toppable : Phase → Bool
  | .charging => true
  | .deferred => true
  | .vacant => false
  | .attached => false
  | .held => false
  | .topped => false
  | .precondition => false
  | .fault => false

/-- CHARGING or DEFERRED with the running delivered energy at the target becomes TOPPED at once (R94, R88). -/
def State.topIfReached (s : State) : State :=
  match s.session with
  | none => s
  | some x =>
    if x.phase.toppable ∧ x.target ≤ s.runningWh x then s.changeSession (some { x with phase := .topped }) else s

/-- The last-session record of the open session is written (R72, R84). -/
def State.writeLast (r : EndReason) (s : State) : State :=
  match s.session with
  | none => s
  | some x => { s with last := some { van := x.van, delivered := s.runningWh x, reason := r, finalPhase := x.phase } }

/-- Forward distance from the clock to a second of day (R78, R102). -/
def forwardDistance (second clock : Nat) : Nat := (second + Config.daySeconds - clock) % Config.daySeconds

/-- The countdown a notice's departure gives (R78, R88). -/
def noticeCountdown (second clock : Nat) : Nat :=
  if forwardDistance second clock ≤ Config.passedDistance then forwardDistance second clock else 0

/-! ### Standing (R22, R23, R25, R27, R29, R32, R34) -/

/-- Entry into LISTENING: the counts and indicators of R25, and the aligned indicator (R13). -/
def State.enterListening (s : State) : State :=
  { s with
    stand := { s.stand with
      standing := .listening, listenCount := 0, silentStreak := 0, rejoinCount := 0, isolationCount := 0
      listenHeard := false, listenPosted := false }
    timer := { s.timer with aligned := false } }

/-- The report of an own CLAIM sent in full or unsent (R23, R25). -/
def State.reportClaim (sent : Bool) (s : State) : State :=
  { s with stand := { s.stand with
      claimRecord :=
        if sent then .sent else match s.stand.claimRecord with | .sent => .sent | .nothing => .unsent | .unsent => .unsent
      listenPosted := s.stand.listenPosted || (sent && s.stand.standing == .listening) } }

/-- A sender bay in 1..N (section 2.3). -/
def State.isStation (s : State) (bay : Nat) : Bool := decide (1 ≤ bay ∧ bay ≤ s.cfg.n)

/-- The indicators a station frame sets (R22, R32). -/
def StandingUnit.hears (u : StandingUnit) (clash : Bool) : StandingUnit :=
  { u with
    roundHeard := true
    listenHeard := u.listenHeard || (u.standing == .listening)
    bayClash := u.bayClash || clash
    roundClash := u.roundClash || clash
    clashClear := if clash then 0 else u.clashClear }

/-- The standing unit takes a valid frame by its sender bay (R22, R27, R29, R32). A passage between round ends
forms a claim and has the permission evaluated (R34, R59, R112). -/
def State.standingTakes (bay : Nat) (s : State) : State :=
  if s.stand.standing.onLine && s.isStation bay then
    let clash := decide (bay = s.cfg.bay)
    let s1 : State := { s with stand := s.stand.hears clash }
    if clash then s1
    else match s.stand.standing with
      | .isolated =>
        ({ s1 with stand := { s1.stand with standing := .rejoining, silentStreak := 0, rejoinCount := 0 } } : State).formClaim.evalPermission
      | .cutoff => s1.enterListening.formClaim.evalPermission
      | _ => s1
  else s

/-! ### Reset (R5, R19, R48, R50, R97, R98, R110, R124, R125, R139, R140, R150, R165, R172) -/

/-- The store read begins, unless the RESET input is asserted (R20, R167). -/
def State.beginRead (s : State) : State := { s with storeRead := if s.pins.reset then none else some 0 }

/-- What power-up and restart do alike: every block at its reset values, a demand word of 0, the store read begun. -/
def State.resetBlocks (s : State) : State :=
  ({ s with
    settings := none
    timer := { s.timer with running := false, sliceCounter := 0, sliceIndex := 0, roundCount := 0, aligned := false }
    stand := {}
    peers := {}
    share := {}
    session := none
    notices := { s.notices with override := none }
    stage := {}
    meter := {}
    thermal := {}
    line := { prng := prngSeed s.store.serial, lineActive := s.line.lineActive }
    inspect := {}
    out := { s.out with stage := s.out.stage ++ [0] } } : State).beginRead

/-- The restart: an open session is closed with its running delivered energy, then every block is reset (R97, R139). -/
def State.restart (s : State) : State := (s.writeLast .restart).resetBlocks

/-- Power-up: as a restart, with the clock UNSET, the last-session record and the notice table empty (R17, R72, R98). -/
def State.powerUp (s : State) : State :=
  ({ s with
    last := none
    timer := { s.timer with subSecond := 0, clock := none }
    notices := { s.notices with table := [] } } : State).resetBlocks

end Sys2Proof.Machine
end

