-- ==== Sys2Proof/Machine/Share.lean ====
section
/-! DEFINITION. The share computation (chapter 4) and the peer table's round-end work (sections 3.3 and 3.4). -/

namespace Sys2Proof.Machine

/-- A claimant of a share computation (R46, R53). -/
structure Claimant where
  bay : Nat
  q : Nat
  m : Nat
  f : Nat
  k : Nat
  deriving DecidableEq, Repr

/-- A claimant and the power it has been granted so far (R63, R64). -/
structure Grant where
  who : Claimant
  power : Nat
  deriving DecidableEq, Repr

/-- The pool of a round end: L, the reserve, U and S (R51, R52). -/
structure Pool where
  limit : Nat
  reserve : Nat
  usable : Nat
  lone : Nat
  deriving DecidableEq, Repr

/-- The reserve, U and S from L, R and N (R52). -/
def poolOf (limit percent n : Nat) : Pool :=
  let reserve := ceilDiv (limit * percent) 100
  { limit := limit, reserve := reserve, usable := limit - reserve, lone := (limit - reserve) / n }

/-- The limit in effect: the configured limit, or the lower override value while one runs (R51, R107). -/
def State.limitInEffect (s : State) : Nat :=
  match s.notices.override with
  | none => s.cfg.feederLimit
  | some o => min s.cfg.feederLimit o.value

/-- The pool formed at a round end (R52). -/
def State.pool (s : State) : Pool := poolOf s.limitInEffect s.cfg.reserve s.cfg.n

/-! ### The peer table at a round end -/

/-- Round ends since the entry's last claim, counted at the end of round `round` (R42). -/
def PeerEntry.missed (e : PeerEntry) (round : Nat) : Nat := (round + 65536 - e.lastHeard) % 65536

/-- The states of an entry (R42, R49). -/
inductive EntryState where
  | fresh | quiet | lost | removed
  deriving DecidableEq, Repr

/-- The state that missed gives (R42). -/
def entryState (missed : Nat) : EntryState :=
  if missed = 0 then .fresh else if missed ≤ 3 then .quiet else if missed < Config.removalAge then .lost else .removed

/-- What an entry is in the computation (R44, R45). -/
inductive Role where
  | claimant
  | presumed (power : Nat)
  | nothing
  deriving DecidableEq, Repr

/-- The role of a FRESH entry (R44). -/
def PeerEntry.freshRole (e : PeerEntry) : Role :=
  match e.standing with
  | .joined => if 0 < e.q then .claimant else .nothing
  | .listening => if 0 < e.q then .claimant else .nothing
  | .isolated => .presumed e.pEff
  | .rejoining => .presumed e.pEff
  | .cutoff => .nothing
  | .starting => .nothing
  | .setup => .nothing

/-- The role of an entry at the end of round `round`, with lone share `lone` (R44, R45). -/
def PeerEntry.role (lone round : Nat) (e : PeerEntry) : Role :=
  match entryState (e.missed round) with
  | .fresh => e.freshRole
  | .quiet => .presumed e.pEff
  | .lost => .presumed lone
  | .removed => .nothing

/-- The power presumed for a role. -/
def Role.power : Role → Nat
  | .presumed p => p
  | .claimant => 0
  | .nothing => 0

/-- The claimant an entry is (R44). -/
def PeerEntry.claimant (e : PeerEntry) : Claimant := ⟨e.bay, e.q, e.m, e.f, e.k⟩

/-- The entries that stay at the end of round `round`: those whose missed has not reached 24 (R43). -/
def keptEntries (round : Nat) (es : List PeerEntry) : List PeerEntry :=
  es.filter fun e => decide (e.missed round < Config.removalAge)

/-- D, the sum of the presumed draws (R46). -/
def presumedDraws (lone round : Nat) (es : List PeerEntry) : Nat := (es.map fun e => (e.role lone round).power).sum

/-- The claimant list of the table, in bay order (R46). -/
def tableClaimants (lone round : Nat) (es : List PeerEntry) : List Claimant :=
  (es.filter fun e => decide (e.role lone round = .claimant)).map PeerEntry.claimant

/-- The peer table's round-end work for the ending round (R42 to R47). -/
def State.agePeers (lone : Nat) (s : State) : State :=
  let kept := keptEntries s.timer.roundCount s.peers.entries
  { s with peers :=
    { entries := kept
      dHanded := presumedDraws lone s.timer.roundCount kept
      claimantsHanded := (tableClaimants lone s.timer.roundCount kept).length } }

/-! ### The passes (R61 to R65) -/

/-- Deadline order: by K, and by bay among equals (R62). -/
def Claimant.before (a b : Claimant) : Bool := decide (a.k < b.k ∨ (a.k = b.k ∧ a.bay ≤ b.bay))

/-- A claimant put in its place. -/
def insertClaimant (c : Claimant) : List Claimant → List Claimant
  | [] => [c]
  | d :: l => if c.before d then c :: d :: l else d :: insertClaimant c l

/-- The list in deadline order (R62). -/
def deadlineOrder : List Claimant → List Claimant
  | [] => []
  | c :: l => insertClaimant c (deadlineOrder l)

/-- Pass 1's grant to a claimant while `rem` remains (R63). -/
def firstGrant (rem : Nat) (c : Claimant) : Nat := if c.q ≤ rem then c.q else if c.f ≤ rem then rem else 0

/-- Pass 1 (R63): the grants, and what remains. -/
def pass1 : Nat → List Claimant → List Grant × Nat
  | rem, [] => ([], rem)
  | rem, c :: l =>
    let g := firstGrant rem c
    (⟨c, g⟩ :: (pass1 (rem - g) l).1, (pass1 (rem - g) l).2)

/-- Headroom: M less the grant (R64). -/
def Grant.headroom (g : Grant) : Nat := g.who.m - g.power

/-- An open claimant: a grant above 0 and headroom above 0 (R64). -/
def Grant.isOpen (g : Grant) : Bool := decide (0 < g.power ∧ 0 < g.headroom)

/-- How many claimants are open (R64). -/
def openCount (gs : List Grant) : Nat := (gs.filter Grant.isOpen).length

/-- What an open claimant receives of an equal share `share` (R64). -/
def Grant.addition (share : Nat) (g : Grant) : Nat := if g.isOpen then min share g.headroom else 0

/-- One repetition with a share of 1 or more (R64). -/
def levelled (share : Nat) (gs : List Grant) : List Grant :=
  gs.map fun g => { g with power := g.power + g.addition share }

/-- The power a repetition gives out (R64). -/
def levelledPower (share : Nat) (gs : List Grant) : Nat := (gs.map (Grant.addition share)).sum

/-- The last repetition: one step each in deadline order until `rem` is 0 (R64). -/
def oneStepEach : Nat → List Grant → List Grant
  | _, [] => []
  | rem, g :: l =>
    if 0 < rem ∧ g.isOpen then { g with power := g.power + 1 } :: oneStepEach (rem - 1) l else g :: oneStepEach rem l

/-- Pass 2 (R64), with at most `reps` repetitions. -/
def pass2 : Nat → Nat → List Grant → List Grant
  | 0, _, gs => gs
  | reps + 1, rem, gs =>
    if openCount gs = 0 ∨ rem = 0 then gs
    else if 1 ≤ rem / openCount gs then
      pass2 reps (rem - levelledPower (rem / openCount gs) gs) (levelled (rem / openCount gs) gs)
    else oneStepEach rem gs

/-- Both passes over a list in deadline order; Pass 2 ends after at most one repetition more than claimants (R61, R64). -/
def grants (available : Nat) (cs : List Claimant) : List Grant :=
  pass2 (cs.length + 1) (pass1 available cs).2 (pass1 available cs).1

/-- The grant of a bay; 0 where it has none (R66). -/
def grantOf (bay : Nat) (gs : List Grant) : Nat :=
  match gs.find? fun g => decide (g.who.bay = bay) with
  | none => 0
  | some g => g.power

/-! ### The own allotment (R53, R66, R31) -/

/-- The self claimant: JOINED or LISTENING with an own claim whose q is above 0 (R53). -/
def State.selfClaimant (s : State) : Option Claimant :=
  match s.share.ownClaim with
  | none => none
  | some c =>
    if (s.stand.standing = .joined ∨ s.stand.standing = .listening) ∧ 0 < c.q then some ⟨s.cfg.bay, c.q, c.mEff, c.f, c.k⟩
    else none

/-- The claimant list of a round end in deadline order (R53, R62). -/
def State.claimants (lone : Nat) (s : State) : List Claimant :=
  deadlineOrder (tableClaimants lone s.timer.roundCount s.peers.entries ++ s.selfClaimant.toList)

/-- The lone-share rule (R31). -/
def loneShare (lone : Nat) (own : Option Claim) : Nat :=
  match own with
  | none => 0
  | some c => if 0 < c.q ∧ c.f ≤ lone then min c.mEff lone else 0

/-- The self claimant's grant; 0 without one (R66). -/
def State.ownGrant (pool : Pool) (s : State) : Nat :=
  match s.selfClaimant with
  | none => 0
  | some _ => grantOf s.cfg.bay (grants (pool.usable - s.peers.dHanded) (s.claimants pool.lone))

/-- The own allotment, by the standing and the bay-clash flag after their round-end work (R66). -/
def State.allotmentFor (pool : Pool) (s : State) : Nat :=
  match s.stand.standing with
  | .joined => if s.stand.bayClash then min (s.ownGrant pool) pool.lone else s.ownGrant pool
  | .isolated => loneShare pool.lone s.share.ownClaim
  | .rejoining => loneShare pool.lone s.share.ownClaim
  | .listening => 0
  | .cutoff => 0
  | .starting => 0
  | .setup => 0

/-- The allotment is chosen and replaces the one held (R66, R67). -/
def State.chooseAllotment (pool : Pool) (s : State) : State :=
  { s with share := { s.share with allotment := s.allotmentFor pool } }

end Sys2Proof.Machine
end

