-- ==== Sys2Proof/Machine/Rounds.lean ====
section
/-! DEFINITION. Slices, rounds and the clock second: the work of every block at a slice end (R2) and a round end (R3),
and the commands SLICE_EXPIRY, NATURAL_ROUND_END and CLOCK_SECOND_EVENT. -/

namespace Sys2Proof.Machine

/-! ### Work at every slice end -/

/-- Stage control hands over its finding for the ending slice, and a slice not driven clears the all-driven
indicator (R121, R134). -/
def State.handDriven (s : State) : State :=
  { s with meter := { s.meter with allDriven := s.meter.allDriven && s.stage.sliceDriven } }

/-- The round count is past the ceiling (R131). -/
def MeterCounter.overCeiling (m : MeterCounter) : Bool :=
  match m.ceiling with
  | none => false
  | some c => decide (c < m.roundCount)

/-- The ceiling test: a round count above C sets the round-capped indicator and the cap state (R120, R131). -/
def State.ceilingTest (s : State) : State :=
  if s.meter.overCeiling then
    ({ s with meter := { s.meter with capped := true }, stage := { s.stage with cap := true } } : State).sendIfChanged
  else s

/-- The slice count is added to the round count, and the ceiling test made (R127, R128). -/
def State.meterSliceEnd (s : State) : State :=
  ({ s with meter := { s.meter with
      roundCount := satAdd Config.top16 s.meter.roundCount s.meter.sliceCount, sliceCount := 0 } } : State).ceilingTest

/-- A temperature converted to −40..150 (R141). -/
def converted (t : Int) : Int := max Config.railLow (min Config.railHigh t)

/-- A channel after a scan: a reading at either rail is a sensor fault (R141, R142). -/
def scannedChannel (t : Int) : Channel :=
  { reading := some (converted t), faulty := decide (converted t = Config.railLow ∨ converted t = Config.railHigh) }

/-- A channel's value in the hot value: its reading, or Te where it is faulted (R143). -/
def channelValue (te t : Int) : Int := if (scannedChannel t).faulty then te else converted t

/-- H (R143). -/
def hotValue (te : Int) (t : Temps) : Int :=
  max (channelValue te t.connector) (max (channelValue te t.cable) (channelValue te t.heatSink))

/-- The readings, H and the derating indicator of a scan (R141 to R143). -/
def State.scanned (s : State) : ThermalScan :=
  let h := hotValue s.cfg.derateEnd s.pins.temps
  { ch0 := scannedChannel s.pins.temps.connector
    ch1 := scannedChannel s.pins.temps.cable
    ch2 := scannedChannel s.pins.temps.heatSink
    hot := some h
    derating := decide ((s.cfg.derateStart : Int) < h)
    mEff := s.thermal.mEff }

/-- The THERMAL hold reason follows H with a band of 5 °C (R147). -/
def State.thermalHold (s : State) : State :=
  match s.thermal.hot with
  | none => s
  | some h =>
    if (s.cfg.derateEnd : Int) ≤ h then s.addHold .thermal
    else if h ≤ (s.cfg.derateEnd : Int) - 5 then s.removeHold .thermal
    else s

/-- One thermal scan (R141 to R147). -/
def State.scan (s : State) : State := ({ s with thermal := s.scanned } : State).refreshMEff.thermalHold

/-- The level test of PERMIT (R91, R119). -/
def State.permitTest (s : State) : State := if s.pins.permit then s else s.addHold .permit

/-! ### A slice end that is not a round end -/

/-- The start of the slice: a waiting increase is taken at the lag slice, and the demand word is sent (R111, R115). -/
def State.startSlice (s : State) : State :=
  let g := s.stage
  let g1 : StageControl :=
    match g.pendingIncrease with
    | none => g
    | some p =>
      if g.lagSlice = some s.timer.sliceIndex then { g with applied := min p s.thermal.mEff, pendingIncrease := none } else g
  ({ s with stage := { g1 with sliceDriven := true } } : State).sendWord

/-- At the start of the post slice the round's claim is formed (R57). -/
def State.postClaim (s : State) : State := if s.share.postSlice = some s.timer.sliceIndex then s.formClaim else s

/-- The start of a slice, unless it is left to the next event of the moment (R116; log 31). -/
def State.startUnlessOwed (s : State) : State := if s.stage.startOwed then s else s.startSlice

/-- The claim of the post slice, unless it is left to the next event of the moment (R60; log 31). -/
def State.postUnlessOwed (s : State) : State := if s.share.postOwed then s else s.postClaim

/-- At the expiry of slice 1 a MARK whose send has not begun is removed, and one under way is not retried (R8). -/
def State.discardMark (s : State) : State :=
  if s.timer.sliceIndex = 2 then s.removeWaitingMark.forbidRetry .mark else s

/-- The parts of a slice end. -/
inductive SlicePart where
  | meter | scan | permit | start | post | mark | topped
  deriving DecidableEq, Repr

/-- What each part does. -/
def SlicePart.run : SlicePart → State → State
  | .meter => State.meterSliceEnd
  | .scan => State.scan
  | .permit => State.permitTest
  | .start => State.startUnlessOwed
  | .post => State.postUnlessOwed
  | .mark => State.discardMark
  | .topped => State.topIfReached

/-- `x` put somewhere after `a`, at a place `n` stands for. -/
def placeAfter (a x : SlicePart) (n : Nat) : List SlicePart → List SlicePart
  | [] => [x]
  | y :: l => if y = a then y :: insertAt x (n % (l.length + 1)) l else y :: placeAfter a x n l

/-- The order of the parts that `c` stands for: any (R122, R149, R159; log 4), but that the test of R94 reads the
round's count as the meter leaves it at this slice end (R85), and so comes after the meter's part. -/
def sliceOrder (c : Nat) : List SlicePart :=
  placeAfter .meter .topped (c / 720) (arrange c [.meter, .scan, .permit, .start, .post, .mark])

/-- The next slice begins: the slice counter at 0, the slice index one on (R2). -/
def State.nextSlice (s : State) : State :=
  { s with timer := { s.timer with sliceCounter := 0, sliceIndex := s.timer.sliceIndex + 1 } }

/-- What is owed of the start of a slice. -/
def State.oweStarts (start post : Bool) (s : State) : State :=
  { s with stage := { s.stage with startOwed := start }, share := { s.share with postOwed := post } }

/-- A peer's MARK taken with the expiry of slice 1 ends the round only from slice 2 on (R11), and may yet be taken
before the start of slice 2 (R116, R60). So where slice 2 is the lag slice, or the post slice, `c` says whether its
start is taken now or owed (log 31). -/
def State.leaveStarts (c : Nat) (s : State) : State :=
  s.oweStarts (decide (s.timer.sliceIndex = 2 ∧ s.stage.lagSlice = some 2 ∧ c % 2 = 1))
    (decide (s.timer.sliceIndex = 2 ∧ s.share.postSlice = some 2 ∧ c / 2 % 2 = 1))

/-- The owed start of the slice in progress is taken, before time goes on or the slice ends. -/
def State.takeStarts (s : State) : State :=
  if s.timer.running then
    let s1 := s.oweStarts false false
    let s2 := if s.stage.startOwed then s1.startSlice else s1
    if s.share.postOwed then s2.postClaim else s2
  else s

/-- A slice end that is not a round end, its parts in the order `c` stands for. The driven finding is of the words
sent before this event, so it is handed over first (R121, section 7.10; log 5). -/
def State.sliceEndIn (c : Nat) (s : State) : State :=
  runAll ((sliceOrder c).map SlicePart.run) (s.handDriven.nextSlice.leaveStarts (c / 43200))

/-- The slice in progress is one that a round end ends: slice B−1 (R2, R3). -/
def State.inLastSlice (s : State) : Bool := decide (s.cfg.roundDiv ≤ s.timer.sliceIndex + 1)

/-- The expiry of a slice other than slice B−1 (R2); in IDLE, and in slice B−1, this event does not occur (log 3). -/
def State.sliceExpiry (s : State) : State :=
  if s.timer.running && !s.inLastSlice then s.takeStarts.choose.2.sliceEndIn s.takeStarts.choose.1 else s

/-! ### The round end: outbox, standing, notices, share -/

/-- At a round end a CLAIM whose attempt is not under way is discarded and reported unsent for the ending round; an
attempt of a CLAIM under way is not retried (R158, R23). -/
def State.discardClaim (s : State) : State :=
  let s1 := s.forbidRetry .claim
  if s1.line.outbox.claim.isSome && !s1.underWay .claim then
    ((s1.removeFrame .claim).reportClaim false).countUnposted
  else s1

/-- The ending round is silent (R24). -/
def StandingUnit.silent (n : Nat) (u : StandingUnit) : Bool :=
  decide (2 ≤ n) && (!u.roundHeard || u.claimRecord == .unsent)

/-- LISTENING at a round end (R25). -/
def StandingUnit.endListening (n : Nat) (u : StandingUnit) : StandingUnit :=
  if u.listenCount + 1 < 2 then { u with listenCount := u.listenCount + 1 }
  else
    let u1 := { u with listenCount := 0, listenHeard := false, listenPosted := false }
    if 2 ≤ n ∧ u.listenPosted = false then u1
    else if u.listenHeard = true ∨ n = 1 then { u1 with standing := .joined, silentStreak := 0 }
    else { u1 with standing := .isolated, silentStreak := 0, rejoinCount := 0, isolationCount := 0 }

/-- JOINED at a round end (R26). -/
def StandingUnit.endJoined (n : Nat) (u : StandingUnit) : StandingUnit :=
  if u.silent n then
    if 3 ≤ u.silentStreak + 1 then
      { u with standing := .isolated, silentStreak := 0, rejoinCount := 0, isolationCount := 0 }
    else { u with silentStreak := u.silentStreak + 1 }
  else { u with silentStreak := 0 }

/-- The isolation count advanced by one, saturating (R27, R28). -/
def StandingUnit.isolationNext (u : StandingUnit) : Nat := satAdd Config.isolationLimit u.isolationCount 1

/-- ISOLATED at a round end (R27). -/
def StandingUnit.endIsolated (u : StandingUnit) : StandingUnit :=
  { u with
    isolationCount := u.isolationNext
    standing := if u.isolationNext = Config.isolationLimit then .cutoff else .isolated }

/-- REJOINING at a round end, by the rows of R28. -/
def StandingUnit.endRejoining (n : Nat) (u : StandingUnit) : StandingUnit :=
  let u1 := { u with isolationCount := u.isolationNext }
  if u.silent n then
    if u.isolationNext = Config.isolationLimit then
      { u1 with standing := .cutoff, silentStreak := u.silentStreak + 1, rejoinCount := 0 }
    else if 3 ≤ u.silentStreak + 1 then { u1 with standing := .isolated, silentStreak := 0, rejoinCount := 0 }
    else { u1 with silentStreak := u.silentStreak + 1, rejoinCount := 0 }
  else if 2 ≤ u.rejoinCount + 1 then
    { u1 with standing := .joined, silentStreak := 0, rejoinCount := 0, isolationCount := 0 }
  else { u1 with silentStreak := 0, rejoinCount := u.rejoinCount + 1 }

/-- The passage a round end gives the standing (R25 to R29). -/
def StandingUnit.endPassage (n : Nat) (u : StandingUnit) : StandingUnit :=
  match u.standing with
  | .listening => u.endListening n
  | .joined => u.endJoined n
  | .isolated => u.endIsolated
  | .rejoining => u.endRejoining n
  | .cutoff => u
  | .starting => u
  | .setup => u

/-- The bay-clash update (R33). -/
def StandingUnit.endClash (u : StandingUnit) : StandingUnit :=
  if u.roundClash then { u with clashClear := 0, roundClash := false }
  else if u.bayClash then
    if 3 ≤ u.clashClear + 1 then { u with bayClash := false, clashClear := 0 } else { u with clashClear := u.clashClear + 1 }
  else u

/-- The standing unit's round-end work (R24 to R28, R33). -/
def StandingUnit.roundEnd (n : Nat) (u : StandingUnit) : StandingUnit :=
  { (u.endPassage n).endClash with roundHeard := false, claimRecord := .nothing }

/-- The same, with the aligned indicator set on passing from LISTENING to JOINED or ISOLATED (R13). -/
def State.standingRoundEnd (s : State) : State :=
  let u := s.stand.roundEnd s.cfg.n
  { s with
    stand := u
    timer := { s.timer with
      aligned := s.timer.aligned || (s.stand.standing == .listening && (u.standing == .joined || u.standing == .isolated)) } }

/-- The rounds remaining of an override fall by one; at 0 it ends (R107). -/
def State.countOverride (s : State) : State :=
  { s with notices := { s.notices with override :=
      match s.notices.override with
      | none => none
      | some o => if o.rounds - 1 = 0 then none else some { o with rounds := o.rounds - 1 } } }

/-- With the clock set, entries whose departure has passed are removed (R102). -/
def State.expireNotices (s : State) : State :=
  match s.timer.clock with
  | none => s
  | some now =>
    { s with notices := { s.notices with
        table := s.notices.table.filter fun e => decide (forwardDistance e.departure now ≤ Config.passedDistance) } }

/-! ### The round end: meter, session, stage -/

/-- The silence test: every slice driven and not one count (R136). -/
def MeterCounter.silent (m : MeterCounter) : Bool := m.allDriven && m.roundCount == 0

/-- The round count becomes the hold count (R128, step 3). -/
def State.holdRound (s : State) : State := { s with meter := { s.meter with holdCount := s.meter.roundCount } }

/-- The ceiling of an allotment (R129). -/
def ceilingFor (p lms ppk edges : Nat) : Nat := p * lms * ppk * edges * 9 / 288000000 + 2

/-- The ceiling of the round that begins, and its counts and indicators (R128, steps 5 and 6; R129). -/
def State.beginMeterRound (s : State) : State :=
  { s with meter := { s.meter with
      ceiling := some (ceilingFor s.share.allotment (s.cfg.sliceDiv * s.cfg.roundDiv) s.cfg.ppk s.cfg.edges)
      roundCount := 0
      capped := false
      allDriven := true } }

/-- The ending round's counts are credited, less the opening count of a session opened in it (R85). -/
def Session.credit (counts : Nat) (x : Session) : Session :=
  { x with
    delivered := satAdd Config.top32 x.delivered (counts - (if x.openedThisRound then x.opening else 0))
    openedThisRound := false }

/-- A METER hold counted down; at 0 METER is removed (R93). -/
def Session.countHold (x : Session) : Session :=
  if x.meterRoundsLeft = 0 then x
  else if x.meterRoundsLeft - 1 = 0 then { x with meterRoundsLeft := 0, holds := x.holds.put false .meter }
  else { x with meterRoundsLeft := x.meterRoundsLeft - 1 }

/-- The overdraw streak (R133). -/
def Session.updateStreak (capped : Bool) (x : Session) : Session :=
  { x with overdrawStreak := if capped then satAdd 3 x.overdrawStreak 1 else 0 }

/-- Entry to FAULT; a FAULT keeps its reason (R90). -/
def Session.enterFault (r : FaultReason) (x : Session) : Session :=
  if x.phase = .fault then x else { x with phase := .fault, faultReason := some r }

/-- The overdraw streak applied (R90). -/
def Session.applyStreak (x : Session) : Session := if x.overdrawStreak = 3 then x.enterFault .overdraw else x

/-- The silence finding applied (R90, R93). -/
def Session.applySilence (silence : Bool) (x : Session) : Session :=
  if silence then
    if x.meterHolds < 2 then
      { x with
        meterHolds := x.meterHolds + 1, meterRoundsLeft := Config.meterHoldRounds
        holds := x.holds.put true .meter, phase := x.phase.afterHold }
    else if x.meterHolds = 2 then ({ x with meterHolds := 3 } : Session).enterFault .meter
    else x
  else x

/-- The phase a round end decides (R89). -/
def decidedPhase (holds : HoldSet) (standing : Standing) (e : Nat) (window : Bool) (allotment : Nat) : Phase :=
  if !holds.isEmpty then .held
  else if standing = .listening ∨ standing = .cutoff then .attached
  else if e = 0 ∧ window = false then .topped
  else if window then .precondition
  else if 0 < allotment then .charging
  else .deferred

/-- The session after its round-end work in the order of R89: credit, METER hold, the meter's results, and, unless in
FAULT, the decision. -/
def State.sessionAfterRound (s : State) (counts : Nat) (capped silence : Bool) (x : Session) : Session :=
  let y := ((((x.credit counts).countHold).updateStreak capped).applyStreak).applySilence silence
  if y.phase = .fault then y
  else { y with phase := decidedPhase y.holds s.stand.standing (s.remaining y) y.preWindow s.share.allotment }

/-- The session unit's round-end work (R89). -/
def State.sessionRoundEnd (counts : Nat) (capped silence : Bool) (s : State) : State :=
  match s.session with
  | none => s
  | some x => s.putSession (some (s.sessionAfterRound counts capped silence x))

/-- The applied power and the waiting increase a round end decides (R114, step 4). -/
def StageControl.decide (g : StageControl) (permission : Bool) (p mEff : Nat) : StageControl :=
  if permission then
    if p ≤ g.applied then { g with applied := min p mEff, pendingIncrease := none }
    else if g.lagSlice = some 0 then { g with applied := min p mEff, pendingIncrease := none }
    else { g with pendingIncrease := some p }
  else { g with applied := 0, pendingIncrease := none }

/-- Stage control's round-end work, steps 1 to 5 of R114; an owed slice start goes with the increase (R116). -/
def State.stageRoundEnd (s : State) : State :=
  let g : StageControl := { s.stage with
    pendingIncrease := none, cap := false, enable := s.permission, sliceDriven := true, startOwed := false }
  ({ s with stage := g.decide s.permission s.share.allotment s.thermal.mEff } : State).sendWord

/-! ### The whole round end -/

/-- The round timer's own part: the next round's slice 0, the round count one on (R3, R4). -/
def State.nextRound (s : State) : State :=
  { s with timer := { s.timer with sliceCounter := 0, sliceIndex := 0, roundCount := (s.timer.roundCount + 1) % 65536 } }

/-- The own MARK is placed, provided the aligned indicator is set (R6). -/
def State.placeMark (s : State) : State := if s.timer.aligned then s.placeFrame .mark [] else s

/-- The post slice of the round that begins is drawn, in 1..B−3 (R57, R163); a claim owed to the old one is not formed (R60). -/
def State.drawPostSlice (s : State) : State :=
  let d := s.draw (s.cfg.roundDiv - 3)
  { d.2 with share := { d.2.share with postSlice := some (d.1 + 1), postOwed := false } }

/-- A standing change at the round end re-forms the claim once the allotment is chosen (R34, R59). -/
def State.reformIfChanged (before : Standing) (s : State) : State :=
  if s.stand.standing = before then s else s.formClaim

/-- The scan and the PERMIT level test of the last slice's end, each taken before all the round-end work or after all
of it (R95, R123, R149; log 5): those of this side, in the order `c` stands for. -/
def slicePartsOn (c : Nat) (scanHere permitHere : Bool) : State → State :=
  runIn c ((if scanHere then [State.scan] else []) ++ (if permitHere then [State.permitTest] else []))

/-- From the meter's part to the allotment: the order in which each reads another's result (R46, R51, R53, R66, R107,
R128, R158). `markFirst`: the own MARK is placed before the CLAIM is discarded (R159). -/
def State.roundEndCore (markFirst : Bool) (s : State) : State :=
  let s1 := s.meterSliceEnd.holdRound
  let s2 := (if markFirst then s1.placeMark else s1).discardClaim.standingRoundEnd
  let pool := s2.pool
  ((((s2.agePeers pool.lone).countOverride).expireNotices).chooseAllotment pool).nextRound

/-- The parts after the allotment, whose order decides only which draw each receives and what a claim reads (R59,
R163; log 4): the post slice, the own MARK, the claim of a standing change, and the session's with stage control's. -/
def roundEndTail (mark : Bool) (before : Standing) (counts : Nat) (capped silence : Bool) : List (State → State) :=
  [State.drawPostSlice, fun s => if mark then s.placeMark else s, State.reformIfChanged before,
    fun s => (s.sessionRoundEnd counts capped silence).stageRoundEnd]

/-- The round-end work, its open orders by `c` (R3). -/
def State.roundEndWork (natural : Bool) (c : Nat) (s : State) : State :=
  let markFirst := natural && s.timer.aligned && decide (c % 2 = 1)
  let m := s.meterSliceEnd.meter
  (runIn (c / 2) (roundEndTail (natural && !markFirst) s.stand.standing m.roundCount m.capped m.silent)
    (s.roundEndCore markFirst)).beginMeterRound

/-- A round end, natural or early, its open orders by `c` (R3, R11). The last slice's driven finding comes first. -/
def State.roundEndIn (natural : Bool) (c : Nat) (s : State) : State :=
  let scanFirst := decide (c % 2 = 1)
  let permitFirst := decide (c / 2 % 2 = 1)
  slicePartsOn (c / 4) (!scanFirst) (!permitFirst)
    ((slicePartsOn (c / 4) scanFirst permitFirst s.handDriven).roundEndWork natural (c / 8))

/-- A round end with its open orders chosen (log 4). -/
def State.roundEnd (natural : Bool) (s : State) : State := s.choose.2.roundEndIn natural s.choose.1

/-- The expiry of slice B−1 (R2, R3); in IDLE, and in an earlier slice, this event does not occur (log 3). -/
def State.naturalRoundEnd (s : State) : State := if s.timer.running && s.inLastSlice then s.roundEnd true else s

/-- The clock second event: the sub-second count back at 0, a set clock one second on, an open session's countdown
one down (R14, R87). -/
def State.clockSecond (s : State) : State :=
  { s with
    timer := { s.timer with
      subSecond := 0
      clock := s.timer.clock.map fun c => (c + 1) % Config.daySeconds }
    session := s.session.map fun x => { x with departure := x.departure - 1 } }

/-- The temperatures now at the inputs. -/
def State.setTemps (t : Temps) (s : State) : State := { s with pins := { s.pins with temps := t } }

/-- SLICE_EXPIRY (R2). -/
def execSliceExpiry (t : Temps) (s : State) : Host.Outcome State Fault Refusal := .next (s.setTemps t).sliceExpiry

/-- NATURAL_ROUND_END (R3). -/
def execNaturalRoundEnd (t : Temps) (s : State) : Host.Outcome State Fault Refusal :=
  .next (s.setTemps t).naturalRoundEnd

/-- CLOCK_SECOND_EVENT (R14). -/
def execClockSecondEvent (s : State) : Host.Outcome State Fault Refusal := .next s.clockSecond

end Sys2Proof.Machine
end

