-- ==== Sys2Proof/Machine/Power.lean ====
section
/-! DEFINITION. Supply, the RESET input, the store read and the restart wait: POWER_UP, RESET_ASSERTED,
RESET_RELEASED, STORE_READ_COMPLETES, RESTART_WAIT_EXPIRY. -/

namespace Sys2Proof.Machine

/-- The values a read of a locked store hands over (R167). Locked fields are all written (R179). -/
def settingsOf (st : Store) : Settings :=
  { bay := st.installer.bay.getD 0
    n := st.installer.bayCount.getD 0
    feederLimit := st.installer.feederLimit.getD 0
    reserve := st.installer.reserve.getD 0
    sliceDiv := st.installer.sliceDiv.getD 0
    roundDiv := st.installer.roundDiv.getD 0
    ppk := st.installer.ppk.getD 0
    edges := st.installer.edges.getD 0
    derateStart := st.installer.derateStart.getD 0
    derateEnd := st.installer.derateEnd.getD 0
    defaultDeparture := st.installer.defaultDeparture.getD 0
    stageRating := st.stageRating }

/-- The round timer becomes RUNNING: slice 0 of round 0, the lag slice, the ceiling of an allotment of 0, the
all-driven indicator of a round start (R1, R110, R125, R129, R134). -/
def State.startRounds (s : State) : State :=
  { s with
    settings := some (settingsOf s.store)
    timer := { s.timer with running := true, sliceCounter := 0, sliceIndex := 0, roundCount := 0 }
    stage := { s.stage with
      lagSlice := some (min (s.store.installer.stepLag.getD 0) ((settingsOf s.store).roundDiv - 1)) }
    meter := { s.meter with
      ceiling := some (ceilingFor 0 ((settingsOf s.store).sliceDiv * (settingsOf s.store).roundDiv)
        (settingsOf s.store).ppk (settingsOf s.store).edges)
      allDriven := true } }

/-- Entry into LISTENING from STARTING (R20, R25): also the round-heard indicator and the round claim record. -/
def State.firstListening (s : State) : State :=
  { s.enterListening with stand := { s.enterListening.stand with roundHeard := false, claimRecord := .nothing } }

/-- The end of a store read (R20, R76, R167): LISTENING with rounds running, a first claim and a post slice (in either
order, R163), if the segment is locked; SETUP if not. One PHASE record reports VACANT either way. -/
def State.completeRead (s : State) : State :=
  let s1 : State := ({ s with storeRead := none } : State).sendLink (.phase .vacant {} none)
  if s.store.installer.locked then inAnyOrder [State.formClaim, State.drawPostSlice] s1.startRounds.firstListening
  else { s1 with stand := { s1.stand with standing := .setup } }

/-- The event "store read completes", where a read is in progress (R20; log 3). -/
def State.storeReadEnds (s : State) : State :=
  if s.storeRead.isSome && s.stand.standing == .starting then s.completeRead else s

/-- RESET passes to its asserted level: a restart, whose read waits for the release (R20). -/
def State.assertReset (s : State) : State :=
  if s.pins.reset then s else ({ s with pins := { s.pins with reset := true } } : State).restart

/-- RESET is released: the read begins (R20). -/
def State.releaseReset (s : State) : State :=
  if s.pins.reset then
    let s1 : State := { s with pins := { s.pins with reset := false } }
    if s.stand.standing = .starting then s1.beginRead else s1
  else s

/-- The restart wait reaches 100 ms: the restart is carried out (R180). -/
def State.restartWaitEnds (s : State) : State := if s.inspect.restartWait.isSome then s.restart else s

/-- POWER_UP (R19). -/
def execPowerUp (s : State) : Host.Outcome State Fault Refusal := .next s.powerUp

/-- RESET_ASSERTED (R20). -/
def execResetAsserted (s : State) : Host.Outcome State Fault Refusal := .next s.assertReset

/-- RESET_RELEASED (R20). -/
def execResetReleased (s : State) : Host.Outcome State Fault Refusal := .next s.releaseReset

/-- STORE_READ_COMPLETES (R20). -/
def execStoreReadCompletes (s : State) : Host.Outcome State Fault Refusal := .next s.storeReadEnds

/-- RESTART_WAIT_EXPIRY (R180). -/
def execRestartWaitExpiry (s : State) : Host.Outcome State Fault Refusal := .next s.restartWaitEnds

end Sys2Proof.Machine
end

