-- ==== Sys2Proof/Machine/Frames.lean ====
section
/-! DEFINITION. Valid frames of the line taken by the round timer, the standing unit, the peer table and the notice
unit: MARK_FRAME, CLAIM_FRAME, NOTICE_FRAME, LIMIT_FRAME, REPLY_FRAME. -/

namespace Sys2Proof.Machine

/-! ### Taking a frame -/

/-- A send attempt of the station is under way; the characters of the line are then its own, read back (R157, R160). -/
def State.isSending (s : State) : Bool :=
  match s.line.sender with
  | .sending _ => true
  | .idle => false
  | .waiting _ _ => false

/-- A backoff wait runs again from the end of the character, with the same backoff (R156). -/
def Sender.rewait : Sender → Sender
  | .waiting b _ => .waiting b 0
  | .idle => .idle
  | .sending a => .sending a

/-- A character ends: the quiet timer restarts, the line is quiet, a wait runs again from here (R151, R156). -/
def State.characterEnds (s : State) : State :=
  { s with line := { s.line with quietTimer := 0, lineActive := false, sender := s.line.sender.rewait } }

def State.setReceiver (r : Receiver) (s : State) : State := { s with line := { s.line with receiver := r } }

/-- The frame is foreign: a bay above N, or bay 0 on a MARK or CLAIM, once the station is on the line (R162). -/
def State.isForeign (kind : FrameKind) (bay : Nat) (s : State) : Bool :=
  s.stand.standing.onLine && (decide (s.cfg.n < bay) || (decide (bay = 0) && (kind == .mark || kind == .claim)))

/-- A valid frame is taken: counted among frames heard and, if foreign, among those (R160, R162, R164). -/
def State.countFrame (kind : FrameKind) (bay : Nat) (s : State) : State :=
  { s with line := { s.line with counters :=
      { s.line.counters with
        framesHeard := bump s.line.counters.framesHeard
        foreignFrames := if s.isForeign kind bay then bump s.line.counters.foreignFrames else s.line.counters.foreignFrames } } }

/-- The last character of a valid frame of a sender bay is heard (R160): SKIP, in which one stray character counts. -/
def State.takeFrame (kind : FrameKind) (bay : Nat) (s : State) : State :=
  ((s.characterEnds).setReceiver (.skip true)).countFrame kind bay

/-! ### MARK (R9 to R13, R16) -/

/-- A peer's MARK and the round (R11, R12, R13): alignment, an early round end, or a late mark. -/
def State.markRound (s : State) : State :=
  if s.stand.standing = .listening ∧ s.timer.aligned = false then
    ({ s with timer := { s.timer with aligned := true } } : State).roundEnd false
  else if 2 ≤ s.timer.sliceIndex then s.roundEnd false
  else s

/-- The depot clock is set, and the sub-second count returned to 0 (R15, R16). -/
def State.setClock (second : Nat) (s : State) : State :=
  { s with timer := { s.timer with clock := some second, subSecond := 0 } }

/-- A peer's MARK sets an UNSET clock from a second of day (R16). -/
def State.markClock (field : Nat) (s : State) : State :=
  match s.timer.clock, clockOfField field with
  | none, some c => s.setClock c
  | none, none => s
  | some _, _ => s

/-- A peer's MARK for the round timer: 1..N, or 1..31 before N is read (R10, R161). -/
def State.isMarkPeer (bay : Nat) (s : State) : Bool :=
  if s.stand.standing.onLine then s.isStation bay else decide (1 ≤ bay ∧ bay ≤ 31)

/-- A MARK is delivered to the round timer and the standing unit, in either order (R10, R13, R22, R161); in IDLE the
round timer takes it for the clock rule alone. -/
def State.deliverMark (bay : Nat) (payload : List Byte) (s : State) : State :=
  match markField payload with
  | none => s.countLineError.standingTakes bay
  | some field =>
    if s.isMarkPeer bay then
      if s.timer.running then
        inAnyOrder [State.removeWaitingMark, State.markRound, State.markClock field, State.standingTakes bay] s
      else (s.markClock field).standingTakes bay
    else s.standingTakes bay

/-! ### CLAIM (R37 to R40) -/

/-- An entry is made, or replaces that of its bay, in ascending bay order (R35, R39, R40). -/
def putEntry (e : PeerEntry) : List PeerEntry → List PeerEntry
  | [] => [e]
  | d :: l => if e.bay < d.bay then e :: d :: l else if e.bay = d.bay then e :: l else d :: putEntry e l

/-- The peer table takes a CLAIM of a peer bay; a malformed one is counted and not entered (R37, R38, R162). -/
def State.peersTake (bay : Nat) (payload : List Byte) (s : State) : State :=
  if s.stand.standing.onLine && s.isStation bay && !decide (bay = s.cfg.bay) then
    match peerEntryOf bay s.timer.roundCount payload with
    | none => s.countLineError
    | some e => { s with peers := { s.peers with entries := putEntry e s.peers.entries } }
  else s

/-- A CLAIM is delivered to the peer table and the standing unit; neither reads what the other writes (R161). -/
def State.deliverClaim (bay : Nat) (payload : List Byte) (s : State) : State :=
  (s.peersTake bay payload).standingTakes bay

/-! ### NOTICE (R15, R88, R99 to R101) -/

/-- A dispatch time below 86400 sets the clock (R15). -/
def State.dispatchClock (field : Nat) (s : State) : State :=
  match clockOfField field with
  | some c => s.setClock c
  | none => s

/-- A notice's target: 0 is none, and one above 200000 is clamped (R99, R101). -/
def noticeTarget (t : Nat) : Option Nat := if t = 0 then none else some (min t Config.maxEnergy)

/-- The target a session takes from its need and a notice's target (R78, R88). -/
def sessionTarget (need : Nat) (t : Option Nat) : Nat × TargetSource :=
  match t with
  | none => (need, .van)
  | some t => (min need t, .notice)

/-- The session with a notice's departure and target (R88). -/
def Session.noticed (clock : Option Nat) (departure : Nat) (target : Option Nat) (x : Session) : Session :=
  { x with
    target := (sessionTarget x.need target).1
    targetSource := (sessionTarget x.need target).2
    departure := match clock with | none => x.departure | some now => noticeCountdown departure now
    departureSource := match clock with | none => x.departureSource | some _ => .notice }

/-- An entry of the notice table is stored as the newest, in place of the van's older one, or with the oldest
evicted from a full table (R101). -/
def storeNotice (e : NoticeEntry) (l : List NoticeEntry) : List NoticeEntry :=
  let kept := l.filter fun d => decide (d.van ≠ e.van)
  (if kept.length < Config.noticeCapacity then kept else kept.drop 1) ++ [e]

/-- A well-formed NOTICE: applied to the van in session at once, or stored (R100, R101). -/
def State.applyNotice (van departure : Nat) (target : Option Nat) (s : State) : State :=
  match s.session with
  | some x =>
    if x.van = van then
      ({ s with session := some (x.noticed s.timer.clock departure target) } : State).topIfReached
    else { s with notices := { s.notices with table := storeNotice ⟨van, departure, target⟩ s.notices.table } }
  | none => { s with notices := { s.notices with table := storeNotice ⟨van, departure, target⟩ s.notices.table } }

/-- The notice unit takes a NOTICE: the clock, the checks, the van (R15, R99). -/
def State.noticeTaken (f : NoticeFields) (s : State) : State :=
  let s1 := s.dispatchClock f.dispatch
  if f.van = 0 ∨ Config.daySeconds ≤ f.departure then s1.countLineError
  else s1.applyNotice f.van f.departure (noticeTarget f.target)

/-- A NOTICE is delivered to the notice unit and the standing unit, in either order (R161). -/
def State.deliverNotice (bay : Nat) (payload : List Byte) (s : State) : State :=
  match noticeFields payload with
  | none => s.countLineError.standingTakes bay
  | some f => inAnyOrder [State.noticeTaken f, State.standingTakes bay] s

/-! ### LIMIT (R105, R106) -/

/-- The notice unit takes a LIMIT: the clock; then, in a standing with rounds, the override (R105, R106). -/
def State.limitTaken (f : LimitFields) (s : State) : State :=
  let s1 := s.dispatchClock f.dispatch
  if s.stand.standing.onLine then
    if f.rounds = 0 then s1.countLineError
    else
      let o : Override := ⟨min s1.cfg.feederLimit f.value, min f.rounds Config.maxOverrideRounds⟩
      { s1 with notices := { s1.notices with override := some o } }
  else s1

/-- A LIMIT is delivered to the notice unit and the standing unit; neither reads what the other writes (R161). -/
def State.deliverLimit (bay : Nat) (payload : List Byte) (s : State) : State :=
  match limitFields payload with
  | none => s.countLineError.standingTakes bay
  | some f => (s.limitTaken f).standingTakes bay

/-! ### The commands -/

/-- MARK_FRAME (R10). -/
def execMarkFrame (sender : Byte) (payload : List Byte) (t : Temps) (s : State) : Host.Outcome State Fault Refusal :=
  .next (((s.setTemps t).takeFrame .mark sender.toNat).deliverMark sender.toNat payload)

/-- CLAIM_FRAME (R37). -/
def execClaimFrame (sender : Byte) (payload : List Byte) (s : State) : Host.Outcome State Fault Refusal :=
  .next ((s.takeFrame .claim sender.toNat).deliverClaim sender.toNat payload)

/-- NOTICE_FRAME (R99). -/
def execNoticeFrame (sender : Byte) (payload : List Byte) (s : State) : Host.Outcome State Fault Refusal :=
  .next ((s.takeFrame .notice sender.toNat).deliverNotice sender.toNat payload)

/-- LIMIT_FRAME (R105). -/
def execLimitFrame (sender : Byte) (payload : List Byte) (s : State) : Host.Outcome State Fault Refusal :=
  .next ((s.takeFrame .limit sender.toNat).deliverLimit sender.toNat payload)

/-- REPLY_FRAME: read by no owner but the standing unit (R161); its payload is not read. -/
def execReplyFrame (sender : Byte) (_payload : List Byte) (s : State) : Host.Outcome State Fault Refusal :=
  .next ((s.takeFrame .reply sender.toNat).standingTakes sender.toNat)

end Sys2Proof.Machine
end

