-- ==== Sys2Proof/Machine/Flags.lean ====
section
/-! DEFINITION. Flags and codes of the views (R174): the sixteen STATUS flags, the flags of a PEERS entry, the blank
set of CONFIG, and the bytes of temperatures, absent values and enumerated items. -/

namespace Sys2Proof.Machine

/-- The sixteen flags of STATUS, from the lowest bit of the first byte (R174). -/
def State.statusFlags (s : State) : List Byte :=
  [flagByte [s.stage.pendingIncrease.isSome, s.stand.bayClash, s.timer.aligned, s.meter.capped, s.stage.cap,
      s.stage.enable, s.pins.permit, s.thermal.derating],
    flagByte [s.thermal.ch0.faulty, s.thermal.ch1.faulty, s.thermal.ch2.faulty, s.notices.override.isSome,
      s.timer.clock.isNone, s.inspect.restartWait.isSome, false, false]]

/-- The flags of a PEERS entry, laid out as byte 12 of a CLAIM (R174). -/
def PeerEntry.flags (e : PeerEntry) : Byte := flagByte [e.thermal, e.clash, e.hold]

/-- The blank set: a mark of 1 while a field is blank, field code 1 in the lowest bit of the first byte (R174). -/
def Installer.blankSet (i : Installer) : List Byte :=
  [flagByte [i.bay.isNone, i.bayCount.isNone, i.feederLimit.isNone, i.reserve.isNone, i.sliceDiv.isNone,
      i.roundDiv.isNone, i.stepLag.isNone, i.ppk.isNone],
    flagByte [i.edges.isNone, i.derateStart.isNone, i.derateEnd.isNone, i.defaultDeparture.isNone]]

/-- A temperature: degrees plus 40, and 255 while it is none (R174). -/
def tempByte (t : Option Int) : List Byte :=
  match t with
  | none => [255]
  | some t => bytesBE 1 (t + 40).toNat

/-- A temperature of the store: degrees plus 40, and 0 while the field is blank (R174; log 16). -/
def storedTempByte (t : Option Nat) : List Byte :=
  match t with
  | none => [0]
  | some t => bytesBE 1 (t + 40)

/-- An energy of three bytes; one above 16777215 is sent as 16777215 (R174). -/
def energyBytes (wh : Nat) : List Byte := bytesBE 3 (min wh 16777215)

/-- Round timer state and override state (R174). -/
def onByte (b : Bool) : List Byte := [if b then 1 else 0]

/-- Codes of R174. -/
def TargetSource.code : TargetSource → Nat
  | .van => 1
  | .notice => 2

def DepartureSource.code : DepartureSource → Nat
  | .notice => 1
  | .default => 2
  | .horizon => 3

def faultCode : Option FaultReason → Nat
  | none => 0
  | some .overdraw => 1
  | some .meter => 2

def EndReason.code : EndReason → Nat
  | .unplug => 1
  | .superseded => 2
  | .restart => 3

def EntryState.code : EntryState → Nat
  | .fresh => 0
  | .quiet => 1
  | .lost => 2
  | .removed => 3

end Sys2Proof.Machine
end

