-- ==== Sys2Proof/Machine/Inspect.lean ====
section
/-! DEFINITION. Inspection and setup (chapter 11): the views, replies and their parts, queries, and the SETUP actions:
the six QUERY rows, QUERY_VIEW_UNKNOWN, SETUP_WRITE, SETUP_LOCK, SETUP_RESTART, MALFORMED_SETUP. -/

namespace Sys2Proof.Machine

/-! ### The views (R174, R175, R49, R109). A view is a list of items; an item is not divided between parts. -/

/-- STATUS (R174). -/
def State.statusItems (s : State) : List (List Byte) :=
  [ bytesBE 1 s.stand.standing.code, onByte s.timer.running, bytesBE 1 s.timer.sliceIndex,
    bytesBE 2 s.timer.sliceCounter, bytesBE 2 s.timer.roundCount, clockBytes s.timer.clock,
    bytesBE 1 s.stand.listenCount, bytesBE 1 s.stand.silentStreak, bytesBE 1 s.stand.rejoinCount,
    bytesBE 1 s.stand.isolationCount, s.statusFlags, bytesBE 2 s.stage.applied, bytesBE 2 s.share.allotment,
    bytesBE 2 (s.stage.pendingIncrease.getD 0), bytesBE 1 s.notices.table.length ] ++
  [ onByte s.notices.override.isSome, bytesBE 2 ((s.notices.override.map Override.value).getD 0),
    bytesBE 2 ((s.notices.override.map Override.rounds).getD 0), tempByte s.thermal.ch0.reading,
    tempByte s.thermal.ch1.reading, tempByte s.thermal.ch2.reading, tempByte s.thermal.hot,
    bytesBE 2 s.thermal.mEff, bytesBE 2 s.meter.roundCount, bytesBE 2 s.meter.holdCount,
    bytesBE 2 (s.meter.ceiling.getD 0), bytesBE 2 s.line.counters.framesHeard,
    bytesBE 2 s.line.counters.lineErrors, bytesBE 2 s.line.counters.collisions,
    bytesBE 2 s.line.counters.claimsUnposted, bytesBE 2 s.line.counters.foreignFrames,
    bytesBE 2 s.line.counters.queriesDropped ]

/-- SESSION: the session record, or VACANT alone (R71, R174). -/
def State.sessionItems (s : State) : List (List Byte) :=
  match s.session with
  | none => [bytesBE 1 Phase.vacant.code]
  | some x =>
    [ bytesBE 1 x.phase.code, bytesBE 2 x.van, bytesBE 3 x.need, bytesBE 3 x.target, bytesBE 1 x.targetSource.code,
      bytesBE 3 x.departure, bytesBE 1 x.departureSource.code, bytesBE 2 x.vanMax, bytesBE 2 x.floor,
      bytesBE 2 x.precondPower, bytesBE 2 x.precondTime, bytesBE 4 x.delivered, bytesBE 2 x.opening ] ++
    [ [x.holds.byte], bytesBE 1 x.meterHolds, bytesBE 1 x.meterRoundsLeft, bytesBE 1 x.overdrawStreak,
      bytesBE 1 (faultCode x.faultReason), clockBytes x.plugSecond, energyBytes (s.runningWh x) ]

/-- LAST: the last-session record, or no items (R72, R174). -/
def State.lastItems (s : State) : List (List Byte) :=
  match s.last with
  | none => []
  | some l => [bytesBE 2 l.van, energyBytes l.delivered, bytesBE 1 l.reason.code, bytesBE 1 l.finalPhase.code]

/-- CONFIG: the store (R174). -/
def State.configItems (s : State) : List (List Byte) :=
  let i := s.store.installer
  [ bytesBE 4 s.store.serial.toNat, bytesBE 2 s.store.stageRating, onByte i.locked, i.blankSet,
    bytesBE 1 (i.bay.getD 0), bytesBE 1 (i.bayCount.getD 0), bytesBE 2 (i.feederLimit.getD 0),
    bytesBE 1 (i.reserve.getD 0), bytesBE 2 (i.sliceDiv.getD 0), bytesBE 1 (i.roundDiv.getD 0),
    bytesBE 1 (i.stepLag.getD 0), bytesBE 2 (i.ppk.getD 0), bytesBE 1 (i.edges.getD 0),
    storedTempByte i.derateStart, storedTempByte i.derateEnd, bytesBE 3 (i.defaultDeparture.getD 0) ]

/-- One PEERS entry, 20 bytes, with missed-now and state-now (R49, R175). -/
def State.peerItem (s : State) (e : PeerEntry) : List Byte :=
  bytesBE 1 e.bay ++ bytesBE 2 e.lastHeard ++ bytesBE 1 e.standing.code ++ [e.phase] ++ bytesBE 2 e.q ++
    bytesBE 2 e.m ++ bytesBE 2 e.f ++ bytesBE 2 e.k ++ bytesBE 2 e.pEff ++ [e.flags, e.reasons.byte] ++
    bytesBE 1 e.sequence ++ bytesBE 1 (e.missed s.timer.roundCount) ++
    bytesBE 1 (entryState (e.missed s.timer.roundCount)).code

/-- The PEERS summary, 5 bytes, one item (R175). -/
def State.peersSummary (s : State) : List Byte :=
  bytesBE 1 s.peers.entries.length ++ bytesBE 3 s.peers.dHanded ++ bytesBE 1 s.peers.claimantsHanded

/-- One NOTICES entry, 11 bytes, with its forward distance from the clock (R109, R175). -/
def State.noticeItem (s : State) (e : NoticeEntry) : List Byte :=
  bytesBE 2 e.van ++ bytesBE 3 e.departure ++ bytesBE 3 (e.target.getD 0) ++
    clockBytes (s.timer.clock.map (forwardDistance e.departure))

/-- The NOTICES summary, 6 bytes, one item (R175). -/
def State.noticesSummary (s : State) : List Byte :=
  bytesBE 1 s.notices.table.length ++ onByte s.notices.override.isSome ++
    bytesBE 2 ((s.notices.override.map Override.value).getD 0) ++
    bytesBE 2 ((s.notices.override.map Override.rounds).getD 0)

/-- The count clamped to 1..8 (R170). -/
def clampCount (c : Nat) : Nat := max 1 (min 8 c)

/-- The entries from the start index, as many as the clamped count and the list hold (R170). -/
def listWindow {α : Type} (start count : Nat) (l : List α) : List α := (l.drop start).take (clampCount count)

/-- The items of a view; none for a code that names no view (R168, R170). -/
def State.viewItems (view start count : Nat) (s : State) : Option (List (List Byte)) :=
  match view with
  | 1 => some s.statusItems
  | 2 => some (s.peersSummary :: (listWindow start count s.peers.entries).map s.peerItem)
  | 3 => some (s.noticesSummary :: (listWindow start count s.notices.table).map s.noticeItem)
  | 4 => some s.sessionItems
  | 5 => some s.lastItems
  | 6 => some s.configItems
  | _ => none

/-! ### Replies (R171 to R173) -/

/-- The body cut into parts in order, each with as many whole items as fit in 47 bytes (R171). -/
def cutParts : List Byte → List (List Byte) → List (List Byte)
  | cur, [] => [cur]
  | cur, i :: l => if cur.length + i.length ≤ Config.maxBody then cutParts (cur ++ i) l else cur :: cutParts i l

/-- Reply codes (R171). -/
inductive ReplyCode where
  | shown | viewUnknown | accepted | notSetup | fieldWritten | range | unknownField | fieldBlank
  deriving DecidableEq, Repr

def ReplyCode.code : ReplyCode → Nat
  | .shown => 1
  | .viewUnknown => 2
  | .accepted => 3
  | .notSetup => 4
  | .fieldWritten => 5
  | .range => 6
  | .unknownField => 7
  | .fieldBlank => 8

/-- The payloads of parts `index` and on of a reply of `total` parts (R171). -/
def partPayloads (serial : BitVec 32) (tag : Byte) (code : ReplyCode) (subject : Byte) (total : Nat) :
    Nat → List (List Byte) → List (List Byte)
  | _, [] => []
  | index, body :: l =>
    (bytesBE 4 serial.toNat ++ [tag] ++ bytesBE 1 code.code ++ [subject] ++ bytesBE 1 index ++ bytesBE 1 total ++ body) ::
      partPayloads serial tag code subject total (index + 1) l

/-- The payloads of a whole reply (R171). -/
def replyParts (serial : BitVec 32) (tag : Byte) (code : ReplyCode) (subject : Byte) (items : List (List Byte)) :
    List (List Byte) :=
  partPayloads serial tag code subject (cutParts [] items).length 1 (cutParts [] items)

/-- The pending reply is replaced. -/
def State.setReply (r : Option PendingReply) (s : State) : State := { s with inspect := { s.inspect with pendingReply := r } }

/-- A reply formed occupies the pending reply, and its first part takes the REPLY slot (R173). -/
def State.sendReply (kind : RequestKind) (tag : Byte) (code : ReplyCode) (subject : Byte) (items : List (List Byte))
    (s : State) : State :=
  let parts := replyParts s.store.serial tag code subject items
  (s.setReply (some ⟨parts, 1, kind⟩)).placeFrame .reply (parts.headD [])

/-- The report that a REPLY was sent in full (R173, R180): the restart, the next part, or the reply done. -/
def State.replySent (s : State) : State :=
  match s.inspect.pendingReply with
  | none => s
  | some r =>
    if r.kind = .restart then s.restart
    else match r.parts[r.placed]? with
      | none => s.setReply none
      | some part => (s.setReply (some { r with placed := r.placed + 1 })).placeFrame .reply part

/-- The report that a REPLY was discarded (R173, R180): abandoned, but a RESTART's stays occupied. -/
def State.replyDiscarded (s : State) : State :=
  match s.inspect.pendingReply with
  | none => s
  | some r => if r.kind = .restart then s else s.setReply none

/-! ### Queries (R168 to R170) -/

/-- The address of a QUERY is this station's, by the standing (R169). -/
def State.addressed (form : Nat) (target : BitVec 32) (s : State) : Bool :=
  if s.stand.standing.onLine then decide (form = 1) && decide (target.toNat = s.cfg.bay)
  else decide (form = 2) && decide (target = s.store.serial)

/-- The reply to a QUERY that is taken with no reply pending (R170). -/
def State.answerQuery (q : QueryFrame) (view : Byte) (s : State) : State :=
  match s.viewItems view.toNat q.startIndex.toNat q.count.toNat with
  | some items => s.sendReply .query q.tag .shown view items
  | none => s.sendReply .query q.tag .viewUnknown view []

/-- The inspection and setup block takes a QUERY (R169): malformed, passed over, dropped, or answered. -/
def State.queryTaken (q : QueryFrame) (view : Byte) (s : State) : State :=
  if q.length.toNat ≠ 9 ∨ (q.form.toNat ≠ 1 ∧ q.form.toNat ≠ 2) then s.countLineError
  else if s.addressed q.form.toNat q.target then
    if s.inspect.pendingReply.isSome then s.countDropped else s.answerQuery q view
  else s

/-- A QUERY is delivered to inspection and setup and to the standing unit, in either order (R161, R170). -/
def State.deliverQuery (q : QueryFrame) (view : Byte) (s : State) : State :=
  inAnyOrder [State.queryTaken q view, State.standingTakes q.sender.toNat] s

/-! ### Setup (R166, R176 to R180) -/

/-- Whether an installer field is written; none for a code that is no installer field (R166). -/
def Installer.written (i : Installer) (code : Nat) : Option Bool :=
  match code with
  | 1 => some i.bay.isSome
  | 2 => some i.bayCount.isSome
  | 3 => some i.feederLimit.isSome
  | 4 => some i.reserve.isSome
  | 5 => some i.sliceDiv.isSome
  | 6 => some i.roundDiv.isSome
  | 7 => some i.stepLag.isSome
  | 8 => some i.ppk.isSome
  | 9 => some i.edges.isSome
  | 10 => some i.derateStart.isSome
  | 11 => some i.derateEnd.isSome
  | 12 => some i.defaultDeparture.isSome
  | _ => none

/-- A written field's bound; a blank one bounds nothing (R178). -/
def ifWritten (f : Option Nat) (p : Nat → Bool) : Bool :=
  match f with
  | none => true
  | some v => p v

/-- The value lies in the field's range, cross-checks included (R166, R178). -/
def Installer.admits (i : Installer) (code v : Nat) : Bool :=
  match code with
  | 1 => decide (1 ≤ v ∧ v ≤ 31) && ifWritten i.bayCount fun n => decide (v ≤ n)
  | 2 => decide (1 ≤ v ∧ v ≤ 31) && ifWritten i.bay fun b => decide (b ≤ v)
  | 3 => decide (1 ≤ v ∧ v ≤ 65000)
  | 4 => decide (v ≤ 25)
  | 5 => decide (100 ≤ v ∧ v ≤ 2000)
  | 6 => decide (8 ≤ v ∧ v ≤ 60)
  | 7 => decide (v ≤ 7)
  | 8 => decide (v = 100 ∨ v = 250 ∨ v = 500 ∨ v = 1000)
  | 9 => decide (v = 1 ∨ v = 2)
  | 10 => decide (40 ≤ v ∧ v ≤ 100) && ifWritten i.derateEnd fun te => decide (te ≤ v + 40 ∧ v + 5 ≤ te)
  | 11 => decide (45 ≤ v ∧ v ≤ 130) && ifWritten i.derateStart fun ts => decide (ts + 5 ≤ v ∧ v ≤ ts + 40)
  | 12 => decide (v ≤ 86399)
  | _ => false

/-- The field is written (R177). -/
def Installer.write (i : Installer) (code v : Nat) : Installer :=
  match code with
  | 1 => { i with bay := some v }
  | 2 => { i with bayCount := some v }
  | 3 => { i with feederLimit := some v }
  | 4 => { i with reserve := some v }
  | 5 => { i with sliceDiv := some v }
  | 6 => { i with roundDiv := some v }
  | 7 => { i with stepLag := some v }
  | 8 => { i with ppk := some v }
  | 9 => { i with edges := some v }
  | 10 => { i with derateStart := some v }
  | 11 => { i with derateEnd := some v }
  | 12 => { i with defaultDeparture := some v }
  | _ => i

/-- The decision on a WRITE: the first check that fails, or ACCEPTED (R177). -/
def State.writeCode (code v : Nat) (s : State) : ReplyCode :=
  if s.stand.standing ≠ .setup then .notSetup
  else if code = 0 ∨ 14 < code then .unknownField
  else if s.store.installer.written code ≠ some false then .fieldWritten
  else if s.store.installer.admits code v then .accepted
  else .range

/-- A mandatory field is blank (R179). -/
def Installer.mandatoryBlank (i : Installer) : Bool := i.bay.isNone || i.bayCount.isNone || i.feederLimit.isNone

/-- The derate start at LOCK (R179). -/
def Installer.lockedStart (i : Installer) : Nat :=
  match i.derateStart, i.derateEnd with
  | some ts, _ => ts
  | none, some te => min 100 (max 40 (te - 20))
  | none, none => 70

/-- The derate end at LOCK (R179). -/
def Installer.lockedEnd (i : Installer) : Nat :=
  match i.derateEnd, i.derateStart with
  | some te, _ => te
  | none, some ts => min (ts + 20) 130
  | none, none => 90

/-- The segment after an accepted LOCK: each blank field takes its default, and the lock is set (R166, R179). -/
def Installer.lock (i : Installer) : Installer :=
  { i with
    reserve := some (i.reserve.getD 5)
    sliceDiv := some (i.sliceDiv.getD 500)
    roundDiv := some (i.roundDiv.getD 20)
    stepLag := some (i.stepLag.getD 2)
    ppk := some (i.ppk.getD 1000)
    edges := some (i.edges.getD 1)
    derateStart := some i.lockedStart
    derateEnd := some i.lockedEnd
    defaultDeparture := some (i.defaultDeparture.getD 19800)
    locked := true }

def State.setInstaller (i : Installer) (s : State) : State := { s with store := { s.store with installer := i } }

/-- A SETUP addressed to the own serial: dropped while a reply is pending, decided otherwise (R177). -/
def State.setupFor (serial : BitVec 32) (decideIt : State → State) (s : State) : State :=
  if serial = s.store.serial then
    if s.inspect.pendingReply.isSome then s.countDropped else decideIt s
  else s

/-- A SETUP reply: tag 0, the action, one part with no body (R171, R177). -/
def State.setupReply (kind : RequestKind) (code : ReplyCode) (action : Byte) (s : State) : State :=
  s.sendReply kind 0 code action []

/-- A WRITE decided (R177). -/
def State.decideWrite (code v : Nat) (s : State) : State :=
  (if s.writeCode code v = .accepted then s.setInstaller (s.store.installer.write code v) else s).setupReply .write
    (s.writeCode code v) 1

/-- A LOCK decided (R179): accepted, the standing passes to STARTING and a new store read begins (R21). -/
def State.decideLock (s : State) : State :=
  if s.stand.standing ≠ .setup then s.setupReply .lock .notSetup 2
  else if s.store.installer.mandatoryBlank then s.setupReply .lock .fieldBlank 2
  else
    let s1 := (s.setInstaller s.store.installer.lock).setupReply .lock .accepted 2
    ({ s1 with stand := { s1.stand with standing := .starting } } : State).beginRead

/-- A RESTART accepted: the reply, and the restart wait at 0 ms (R180). -/
def State.decideRestart (s : State) : State :=
  let s1 := s.setupReply .restart .accepted 3
  { s1 with inspect := { s1.inspect with restartWait := some 0 } }

/-- A SETUP payload read by its fields (R176); malformed ones are counted among line errors (R177). -/
def State.setupTaken (payload : List Byte) (s : State) : State :=
  match payload with
  | [s3, s2, s1, s0, action, field, v3, v2, v1, v0] =>
    let serial := BitVec.ofNat 32 (numBE [s3, s2, s1, s0])
    match action.toNat with
    | 1 => s.setupFor serial (State.decideWrite field.toNat (numBE [v3, v2, v1, v0]))
    | 2 => s.setupFor serial State.decideLock
    | 3 => s.setupFor serial State.decideRestart
    | _ => s.countLineError
  | _ => s.countLineError

/-- A QUERY payload of 9 bytes read by its fields (R168); one of another length is malformed (R169). -/
def queryOf (sender : Byte) (payload : List Byte) : QueryFrame × Byte :=
  match payload with
  | [form, t3, t2, t1, t0, tag, view, start, count] =>
    (⟨sender, 9, form, BitVec.ofNat 32 (numBE [t3, t2, t1, t0]), tag, start, count⟩, view)
  | _ => (⟨sender, 0, 0, 0, 0, 0, 0⟩, 0)

/-! ### The commands -/

/-- A QUERY frame of a view. -/
def State.queryFrame (q : QueryFrame) (view : Byte) (s : State) : State :=
  (s.takeFrame .query q.sender.toNat).deliverQuery q view

/-- A SETUP frame with what inspection and setup does with it; that and the standing unit's part do not read each
other's writes (R161). -/
def State.setupFrame (sender : Byte) (taken : State → State) (s : State) : State :=
  (taken (s.takeFrame .setup sender.toNat)).standingTakes sender.toNat

/-- QUERY_STATUS (R174). -/
def execQueryStatus (q : QueryFrame) (s : State) : Host.Outcome State Fault Refusal := .next (s.queryFrame q 1)

/-- QUERY_PEERS (R175). -/
def execQueryPeers (q : QueryFrame) (s : State) : Host.Outcome State Fault Refusal := .next (s.queryFrame q 2)

/-- QUERY_NOTICES (R109). -/
def execQueryNotices (q : QueryFrame) (s : State) : Host.Outcome State Fault Refusal := .next (s.queryFrame q 3)

/-- QUERY_SESSION (R174). -/
def execQuerySession (q : QueryFrame) (s : State) : Host.Outcome State Fault Refusal := .next (s.queryFrame q 4)

/-- QUERY_LAST (R72). -/
def execQueryLast (q : QueryFrame) (s : State) : Host.Outcome State Fault Refusal := .next (s.queryFrame q 5)

/-- QUERY_CONFIG (R174). -/
def execQueryConfig (q : QueryFrame) (s : State) : Host.Outcome State Fault Refusal := .next (s.queryFrame q 6)

/-- QUERY_VIEW_UNKNOWN (R170): the view code is read as R170 reads it. -/
def execQueryViewUnknown (q : QueryFrame) (view : Byte) (s : State) : Host.Outcome State Fault Refusal :=
  .next (s.queryFrame q view)

/-- SETUP_WRITE (R177). -/
def execSetupWrite (sender : Byte) (serial : BitVec 32) (field : Byte) (value : BitVec 32) (s : State) :
    Host.Outcome State Fault Refusal :=
  .next (s.setupFrame sender (State.setupFor serial (State.decideWrite field.toNat value.toNat)))

/-- SETUP_LOCK (R179). -/
def execSetupLock (sender : Byte) (serial : BitVec 32) (s : State) : Host.Outcome State Fault Refusal :=
  .next (s.setupFrame sender (State.setupFor serial State.decideLock))

/-- SETUP_RESTART (R180). -/
def execSetupRestart (sender : Byte) (serial : BitVec 32) (s : State) : Host.Outcome State Fault Refusal :=
  .next (s.setupFrame sender (State.setupFor serial State.decideRestart))

/-- MALFORMED_SETUP (R177). -/
def execMalformedSetup (sender : Byte) (payload : List Byte) (s : State) : Host.Outcome State Fault Refusal :=
  .next (s.setupFrame sender (State.setupTaken payload))

end Sys2Proof.Machine
end

