-- ==== Sys2Proof/Machine/Line.lean ====
section
/-! DEFINITION. The line engine's own events (chapter 10): SEND_ATTEMPT, SENT_IN_FULL, COLLISION, START_BIT_HEARD,
CHARACTER_HEARD, QUIET_GAP, INVALID_FRAME, RECEIVE_ERROR. -/

namespace Sys2Proof.Machine

/-! ### Sending (R155 to R159, R7, R8, R173) -/

/-- The sender bay of a frame sent now: the own bay, 0 in STARTING and SETUP (R152, R173). -/
def State.senderBay (s : State) : Byte := if s.stand.standing.onLine then BitVec.ofNat 8 s.cfg.bay else 0

/-- The payload of a slot's frame at the start of an attempt: a MARK's clock is filled then (R7). -/
def State.payloadNow (slot : Slot) (f : Queued) (s : State) : List Byte :=
  match slot with
  | .mark => clockBytes s.timer.clock
  | .claim => f.payload
  | .reply => f.payload

/-- The backoff wait ends on a quiet line: an attempt begins with the highest occupied slot (R155, R156, R157). -/
def State.beginAttempt (s : State) : State :=
  match s.line.sender with
  | .waiting _ _ =>
    if s.line.lineActive then s
    else match s.line.outbox.highest with
      | none => s
      | some (slot, f) =>
        s.setSender (.sending ⟨slot, frameBytes slot.kind s.senderBay (s.payloadNow slot f), false, false, 0⟩)
  | .idle => s
  | .sending _ => s

/-- The last own character of an attempt: the line is quiet, and the receiver skips to the next quiet gap (R157, R160). -/
def State.attemptEnds (s : State) : State := (s.characterEnds).setReceiver (.skip false)

/-- An attempt has sent its frame in full (R157, R159): the frame leaves its slot unless a newer one holds it, its owner
is told, and the sender waits again or is IDLE. -/
def State.frameSent (a : Attempt) (s : State) : State :=
  let s1 : State := { s.attemptEnds with out := { s.attemptEnds.out with line := s.attemptEnds.out.line ++ [a.bytes] } }
  let s2 := if a.replaced then s1 else s1.setSlot a.slot none
  (match a.slot with
    | .mark => s2
    | .claim => s2.reportClaim true
    | .reply => s2.replySent).afterAttempt 16

/-- The owner of a frame discarded after a collision is told (R157, R158, R8). -/
def State.reportDiscard (slot : Slot) (s : State) : State :=
  match slot with
  | .mark => s
  | .claim => (s.reportClaim false).countUnposted
  | .reply => s.replyDiscarded

/-- What a collision does to the frame in the attempt's slot (R157, R158, R159): a replaced one is dropped, one that
may not be retried or has collided eight times is discarded, any other stays. A replaced CLAIM that was also under way
at a round end is reported by R158 and not by R159: which, is left free (log 13). -/
def State.collideFrame (a : Attempt) (s : State) : State :=
  if a.replaced then
    if a.slot = .claim ∧ a.noRetry then
      if s.choose.1 % 2 = 0 then s.choose.2.reportDiscard .claim else s.choose.2
    else s
  else match s.line.outbox.get a.slot with
    | none => s
    | some f =>
      if a.noRetry ∨ Config.maxCollisions ≤ f.collisions + 1 then (s.setSlot a.slot none).reportDiscard a.slot
      else s.setSlot a.slot (some { f with collisions := f.collisions + 1 })

/-- An attempt ends in a collision (R157): counted, the frame dealt with, a retry backoff drawn if a slot is occupied. -/
def State.frameCollides (a : Attempt) (s : State) : State :=
  ((s.attemptEnds.countCollision).collideFrame a).afterAttempt 64

/-- An event of the attempt under way, if there is one; what it is to a station that is not sending otherwise. -/
def State.ofAttemptOr (f : Attempt → State → State) (otherwise : State → State) (s : State) : State :=
  match s.line.sender with
  | .sending a => f a s
  | .idle => otherwise s
  | .waiting _ _ => otherwise s

/-- An event of the attempt under way, if there is one (log 3). -/
def State.ofAttempt (f : Attempt → State → State) (s : State) : State := s.ofAttemptOr f id

/-- A character is read back (R157): one that differs from the character driven is a collision; the last one that
matches has sent the frame in full; another that matches is counted, and the attempt goes on (log 32). -/
def State.readBack (c : Byte) (a : Attempt) (s : State) : State :=
  if a.bytes[a.heard]? = some c then
    if a.heard + 1 = a.bytes.length then s.frameSent a
    else s.characterEnds.setSender (.sending { a with heard := a.heard + 1 })
  else s.frameCollides a

/-! ### Receiving (R151, R160, R161) -/

/-- A valid frame is taken and delivered to its owners (R161). -/
def State.deliverFrame (kind : FrameKind) (sender : Byte) (payload : List Byte) (s : State) : State :=
  let s1 := s.takeFrame kind sender.toNat
  match kind with
  | .mark => s1.deliverMark sender.toNat payload
  | .claim => s1.deliverClaim sender.toNat payload
  | .notice => s1.deliverNotice sender.toNat payload
  | .limit => s1.deliverLimit sender.toNat payload
  | .query => s1.deliverQuery (queryOf sender payload).1 (queryOf sender payload).2
  | .reply => s1.standingTakes sender.toNat
  | .setup => (s1.setupTaken payload).standingTakes sender.toNat

/-- A whole frame that is not valid is counted and delivered to no one (R160). -/
def State.rejectFrame (s : State) : State := (s.characterEnds.setReceiver (.skip true)).countLineError

/-- The last character of a frame: CRC and kind checked (R160). -/
def State.completeFrame (kind sender len : Byte) (payload sum : List Byte) (s : State) : State :=
  if sum = bytesBE 2 (crc (kind :: sender :: len :: payload)).toNat then
    match FrameKind.ofCode kind with
    | some k => s.deliverFrame k sender payload
    | none => s.rejectFrame
  else s.rejectFrame

/-- The characters of a frame so far: one more added, a length above 56 refused, the last one taken (R160). -/
def State.assemble (chars : List Byte) (s : State) : State :=
  match chars with
  | _ :: kind :: sender :: len :: rest =>
    if Config.maxPayload < len.toNat then s.countLineError.setReceiver (.skip false)
    else if rest.length = len.toNat + 2 then
      s.completeFrame kind sender len (rest.take len.toNat) (rest.drop len.toNat)
    else s.setReceiver (.frame chars)
  | _ => s.setReceiver (.frame chars)

/-- A whole character by the receiver's state (R160). -/
def State.receive (c : Byte) (s : State) : State :=
  match s.line.receiver with
  | .hunt => if c = startByte then s.setReceiver (.frame [c]) else s.countLineError.setReceiver (.skip false)
  | .frame chars => s.assemble (chars ++ [c])
  | .skip true => s.countLineError.setReceiver (.skip false)
  | .skip false => s

/-- A character in error by the receiver's state (R160; log 9). -/
def State.receiveBad (s : State) : State :=
  match s.line.receiver with
  | .hunt => s.countLineError.setReceiver (.skip false)
  | .frame _ => s.countLineError.setReceiver (.skip false)
  | .skip true => s.countLineError.setReceiver (.skip false)
  | .skip false => s

/-- The leading edge of a start bit: the line is active, a wait is broken off (R151, R156). -/
def State.startBit (s : State) : State :=
  if s.isSending then s
  else { s with line := { s.line with lineActive := true, sender := s.line.sender.rewait } }

/-- The quiet timer reaches 160 µs: HUNT; a frame not complete is cut short and counted (R160). -/
def State.quietGap (s : State) : State :=
  if s.isSending || s.line.lineActive then s
  else
    let s1 : State := { s with line := { s.line with quietTimer := max s.line.quietTimer Config.quietGapMicros } }
    match s.line.receiver with
    | .frame _ => s1.countLineError.setReceiver .hunt
    | .hunt => s1
    | .skip _ => s1.setReceiver .hunt

/-! ### The commands -/

/-- INVALID_FRAME (R160). -/
def execInvalidFrame (s : State) : Host.Outcome State Fault Refusal := .next s.rejectFrame

/-- RECEIVE_ERROR (R160); a framing error of a character read back is a collision (R157; log 32). -/
def execReceiveError (s : State) : Host.Outcome State Fault Refusal :=
  .next (s.ofAttemptOr State.frameCollides fun s => s.characterEnds.receiveBad)

/-- QUIET_GAP (R160). -/
def execQuietGap (s : State) : Host.Outcome State Fault Refusal := .next s.quietGap

/-- SEND_ATTEMPT (R156). -/
def execSendAttempt (s : State) : Host.Outcome State Fault Refusal := .next s.beginAttempt

/-- SENT_IN_FULL (R157). -/
def execSentInFull (s : State) : Host.Outcome State Fault Refusal := .next (s.ofAttempt State.frameSent)

/-- COLLISION (R157). -/
def execCollision (s : State) : Host.Outcome State Fault Refusal := .next (s.ofAttempt State.frameCollides)

/-- START_BIT_HEARD (R156). -/
def execStartBitHeard (s : State) : Host.Outcome State Fault Refusal := .next s.startBit

/-- CHARACTER_HEARD (R160); during an own attempt it is read back (R157). -/
def execCharacterHeard (c : Byte) (s : State) : Host.Outcome State Fault Refusal :=
  .next (s.ofAttemptOr (State.readBack c) fun s => s.characterEnds.receive c)

end Sys2Proof.Machine
end

