-- ==== Sys2Proof/Machine/StagePort.lean ====
section
/-! DEFINITION. The stage port and the meter input: METER_EDGE (R126), PERMIT_FALLING and PERMIT_RISING (R119). -/

namespace Sys2Proof.Machine

/-- An edge is counted: any with edges 2, a rising one with edges 1 (R126). -/
def State.edgeCounts (s : State) : Bool := s.timer.running && (decide (s.cfg.edges = 2) || !s.pins.meterIn)

/-- The meter input changes level; a counted edge adds one to the slice count, which saturates (R126). -/
def State.meterEdge (s : State) : State :=
  { s with
    pins := { s.pins with meterIn := !s.pins.meterIn }
    meter := { s.meter with
      sliceCount := if s.edgeCounts then satAdd Config.top16 s.meter.sliceCount 1 else s.meter.sliceCount } }

/-- PERMIT passes from high to low: permission is lost and the session unit adds PERMIT (R91, R113, R119). -/
def State.permitFalls (s : State) : State :=
  if s.pins.permit then
    (({ s with pins := { s.pins with permit := false } } : State).addHold .permit).evalPermission
  else s

/-- PERMIT passes from low to high: the session unit removes PERMIT and permission is evaluated (R92, R119). -/
def State.permitRises (s : State) : State :=
  if s.pins.permit then s
  else (({ s with pins := { s.pins with permit := true } } : State).removeHold .permit).evalPermission

/-- METER_EDGE (R126). -/
def execMeterEdge (s : State) : Host.Outcome State Fault Refusal := .next s.meterEdge

/-- PERMIT_FALLING (R119). -/
def execPermitFalling (s : State) : Host.Outcome State Fault Refusal := .next s.permitFalls

/-- PERMIT_RISING (R119). -/
def execPermitRising (s : State) : Host.Outcome State Fault Refusal := .next s.permitRises

end Sys2Proof.Machine
end

