-- ==== Sys2Proof/Machine/PostLink.lean ====
section
/-! DEFINITION. The records of the connector module (chapter 5): PLUG, TAPER, HOLD, RESUME, UNPLUG. -/

namespace Sys2Proof.Machine

/-- Each record is answered with one ACK, before any PHASE record of the same event (R76). -/
def State.ack (kind : RecordKind) (result : AckResult) (s : State) : State := s.sendLink (.ack kind result)

/-- In STARTING and SETUP every record is answered IGNORED (R76). -/
def State.record (kind : RecordKind) (f : State → State) (s : State) : State :=
  if s.stand.standing.onLine then f s else s.ack kind .ignored

/-! ### PLUG (R77 to R79) -/

/-- The fields of a PLUG. -/
structure PlugFields where
  van : Nat
  need : Nat
  vanMax : Nat
  floor : Nat
  precondPower : Nat
  precondTime : Nat
  deriving DecidableEq, Repr

/-- The fields as carried (R75). -/
def plugFields (r : PlugRecord) : PlugFields :=
  ⟨r.van.toNat, r.need.toNat, r.vanMax.toNat, r.floor.toNat, r.precondPower.toNat, r.precondTime.toNat⟩

/-- The fields clamped, in the order of R77. -/
def PlugFields.clamped (rating : Nat) (p : PlugFields) : PlugFields :=
  { van := p.van
    need := min p.need Config.maxEnergy
    vanMax := min p.vanMax rating
    floor := min p.floor (min p.vanMax rating)
    precondPower := min p.precondPower Config.maxPrecondPower
    precondTime := min p.precondTime Config.maxPrecondSeconds }

/-- The notice entry of a van (R103). -/
def noticeOf (van : Nat) (l : List NoticeEntry) : Option NoticeEntry := l.find? fun e => decide (e.van = van)

/-- The departure a session opens with (R78). -/
def openingDeparture (clock : Option Nat) (notice : Option NoticeEntry) (defaultSecond : Nat) : Nat × DepartureSource :=
  match clock, notice with
  | none, _ => (Config.horizonSeconds, .horizon)
  | some now, some e => (noticeCountdown e.departure now, .notice)
  | some now, none =>
    let d := forwardDistance defaultSecond now
    (if d = 0 then Config.daySeconds else d, .default)

/-- The record of a session opened by a PLUG (R78). -/
def State.newSession (p : PlugFields) (s : State) : Session :=
  let notice := noticeOf p.van s.notices.table
  let target := sessionTarget p.need (notice.bind NoticeEntry.target)
  let departure := openingDeparture s.timer.clock notice s.cfg.defaultDeparture
  { van := p.van, phase := .attached, need := p.need, target := target.1, targetSource := target.2
    departure := departure.1, departureSource := departure.2, vanMax := p.vanMax, floor := p.floor
    precondPower := p.precondPower, precondTime := p.precondTime, opening := s.meter.roundCount
    plugSecond := s.timer.clock }

/-- The van's notice entry is consumed (R78, R103). -/
def State.consumeNotice (van : Nat) (s : State) : State :=
  { s with notices := { s.notices with table := s.notices.table.filter fun e => decide (e.van ≠ van) } }

/-- A session is opened, an open one being closed first as SUPERSEDED (R78, R79): ACK, PHASE ATTACHED, permission
evaluated, M_eff formed. The own claim is not re-formed. DESIGN CHOICE (log 34): the book gives no order between the loss
of permission (R79, R113) and the M_eff handed to stage control (R145, R146); the loss is taken first, so a drawing session
superseded sends a demand word of 0 alone, never a clamped one before it. -/
def State.openSession (p : PlugFields) (result : AckResult) (s : State) : State :=
  let s1 : State := { (s.writeLast .superseded).consumeNotice p.van with session := some (s.newSession p) }
  ((s1.ack .plug result).sendPhase.evalPermission).refreshMEff

/-- PLUG (R77): IGNORED for van 0 and in FAULT; CLAMPED if a clamp changed a field. -/
def State.plugTaken (p : PlugFields) (s : State) : State :=
  if p.van = 0 ∨ s.phase = .fault then s.ack .plug .ignored
  else s.openSession (p.clamped s.cfg.stageRating)
    (if p.clamped s.cfg.stageRating = p then .taken else .clamped)

/-! ### TAPER, HOLD, RESUME, UNPLUG (R80 to R83) -/

/-- TAPER (R80). -/
def State.taperTaken (vanMax : Nat) (s : State) : State :=
  match s.session with
  | none => s.ack .taper .ignored
  | some x =>
    (({ s with session := some { x with vanMax := min vanMax s.cfg.stageRating } } : State).ack .taper
      (if min vanMax s.cfg.stageRating = vanMax then .taken else .clamped)).refreshMEff

/-- HOLD (R81). -/
def State.holdTaken (s : State) : State :=
  if s.phase = .vacant ∨ s.phase = .fault then s.ack .hold .ignored else (s.ack .hold .taken).addHold .driver

/-- RESUME (R82). -/
def State.resumeTaken (s : State) : State :=
  if s.holds.driver then (s.ack .resume .taken).removeHold .driver else s.ack .resume .ignored

/-- UNPLUG (R83, R84). -/
def State.unplugTaken (s : State) : State :=
  match s.session with
  | none => s.ack .unplug .ignored
  | some _ => (((s.writeLast .unplug).ack .unplug .taken).changeSession none).refreshMEff

/-! ### The commands -/

/-- PLUG (R78). -/
def execPlug (r : PlugRecord) (s : State) : Host.Outcome State Fault Refusal :=
  .next (s.record .plug (State.plugTaken (plugFields r)))

/-- TAPER (R80). -/
def execTaper (vanMax : BitVec 16) (s : State) : Host.Outcome State Fault Refusal :=
  .next (s.record .taper (State.taperTaken vanMax.toNat))

/-- HOLD (R81). -/
def execHold (s : State) : Host.Outcome State Fault Refusal := .next (s.record .hold State.holdTaken)

/-- RESUME (R82). -/
def execResume (s : State) : Host.Outcome State Fault Refusal := .next (s.record .resume State.resumeTaken)

/-- UNPLUG (R83). -/
def execUnplug (s : State) : Host.Outcome State Fault Refusal := .next (s.record .unplug State.unplugTaken)

end Sys2Proof.Machine
end

