-- ==== Sys2Proof/Machine/Tick.lean ====
section
/-! DEFINITION. One tick of the part's own time base, 1 ms: what a step does on an empty queue (log 1). The counters
of time advance, and the events that fall due are taken, in an order left open (log 4). -/

namespace Sys2Proof.Machine

/-- Quiet time passes for the quiet timer and a wait; none while the line is active or the station sends (R151, R156). -/
def LineEngine.tick (l : LineEngine) : LineEngine :=
  if l.lineActive then l
  else match l.sender with
    | .sending _ => l
    | .idle => { l with quietTimer := l.quietTimer + Config.tickMicros }
    | .waiting b w => { l with quietTimer := l.quietTimer + Config.tickMicros, sender := .waiting b (w + Config.tickMicros) }

/-- The counters of time advance by one tick (R2, R14, R167, R180). -/
def State.advance (s : State) : State :=
  { s with
    timer := { s.timer with
      subSecond := s.timer.subSecond + 1
      sliceCounter := if s.timer.running then s.timer.sliceCounter + 1 else s.timer.sliceCounter }
    storeRead := s.storeRead.map (· + 1)
    inspect := { s.inspect with restartWait := s.inspect.restartWait.map (· + 1) }
    line := s.line.tick }

/-- The events time brings about. -/
inductive Due where
  | second | slice | read | restart | quiet | attempt
  deriving DecidableEq, Repr

/-- The wait of the sender is over: 160 µs and the backoff (R156). -/
def Sender.waitOver : Sender → Bool
  | .waiting b w => decide (Config.quietGapMicros + b * Config.backoffUnitMicros ≤ w)
  | .idle => false
  | .sending _ => false

/-- Whether an event has fallen due (R2, R14, R156, R160, R167, R180). -/
def Due.isDue (s : State) : Due → Bool
  | .second => decide (Config.ticksPerSecond ≤ s.timer.subSecond)
  | .slice => s.timer.running && decide (s.cfg.sliceDiv ≤ s.timer.sliceCounter)
  | .read => match s.storeRead with | none => false | some t => decide (Config.storeReadMs ≤ t)
  | .restart => match s.inspect.restartWait with | none => false | some t => decide (Config.restartWaitMs ≤ t)
  | .quiet => decide (Config.quietGapMicros ≤ s.line.quietTimer) && decide (s.line.receiver ≠ .hunt)
  | .attempt => s.line.sender.waitOver

/-- The event itself. A slice that expires is a round end if it is slice B−1 (R2); a quiet gap comes before the
attempt that the same quiet time brings (R156). -/
def Due.take : Due → State → State
  | .second => State.clockSecond
  | .slice => fun s => if s.inLastSlice then s.naturalRoundEnd else s.sliceExpiry
  | .read => State.storeReadEnds
  | .restart => State.restartWaitEnds
  | .quiet => State.quietGap
  | .attempt => fun s => (if Due.quiet.isDue s then s.quietGap else s).beginAttempt

/-- An event is taken if it is still due when its turn comes. -/
def Due.takeIfDue (d : Due) (s : State) : State := if d.isDue s then d.take s else s

/-- The events a tick may bring. -/
def dueEvents : List Due := [.second, .slice, .read, .restart, .quiet, .attempt]

/-- One tick. What is owed of a slice's start is taken before the time goes on (log 31). With two or more events due,
their order is a free choice. -/
def State.tick (s : State) : State :=
  let s1 := s.takeStarts.advance
  let due := dueEvents.filter (Due.isDue s1)
  if due.length ≤ 1 then runAll (due.map Due.takeIfDue) s1 else inAnyOrder (due.map Due.takeIfDue) s1

end Sys2Proof.Machine
end

