-- ==== Sys2Proof/Machine/Dispatch.lean ====
section
/-! DEFINITION. Every command to its meaning. -/

namespace Sys2Proof.Machine

def exec (i : Instr) (s : State) : Host.Outcome State Fault Refusal :=
  match i with
  | .powerUp => Sys2Proof.Machine.execPowerUp s
  | .resetAsserted => Sys2Proof.Machine.execResetAsserted s
  | .resetReleased => Sys2Proof.Machine.execResetReleased s
  | .storeReadCompletes => Sys2Proof.Machine.execStoreReadCompletes s
  | .sliceExpiry t => Sys2Proof.Machine.execSliceExpiry t s
  | .naturalRoundEnd t => Sys2Proof.Machine.execNaturalRoundEnd t s
  | .clockSecondEvent => Sys2Proof.Machine.execClockSecondEvent s
  | .markFrame b p t => Sys2Proof.Machine.execMarkFrame b p t s
  | .claimFrame b p => Sys2Proof.Machine.execClaimFrame b p s
  | .noticeFrame b p => Sys2Proof.Machine.execNoticeFrame b p s
  | .limitFrame b p => Sys2Proof.Machine.execLimitFrame b p s
  | .replyFrame b p => Sys2Proof.Machine.execReplyFrame b p s
  | .queryStatus q => Sys2Proof.Machine.execQueryStatus q s
  | .queryPeers q => Sys2Proof.Machine.execQueryPeers q s
  | .queryNotices q => Sys2Proof.Machine.execQueryNotices q s
  | .querySession q => Sys2Proof.Machine.execQuerySession q s
  | .queryLast q => Sys2Proof.Machine.execQueryLast q s
  | .queryConfig q => Sys2Proof.Machine.execQueryConfig q s
  | .setupWrite b n f v => Sys2Proof.Machine.execSetupWrite b n f v s
  | .setupLock b n => Sys2Proof.Machine.execSetupLock b n s
  | .setupRestart b n => Sys2Proof.Machine.execSetupRestart b n s
  | .restartWaitExpiry => Sys2Proof.Machine.execRestartWaitExpiry s
  | .invalidFrame => Sys2Proof.Machine.execInvalidFrame s
  | .receiveError => Sys2Proof.Machine.execReceiveError s
  | .quietGap => Sys2Proof.Machine.execQuietGap s
  | .sendAttempt => Sys2Proof.Machine.execSendAttempt s
  | .sentInFull => Sys2Proof.Machine.execSentInFull s
  | .collision => Sys2Proof.Machine.execCollision s
  | .meterEdge => Sys2Proof.Machine.execMeterEdge s
  | .permitFalling => Sys2Proof.Machine.execPermitFalling s
  | .permitRising => Sys2Proof.Machine.execPermitRising s
  | .plug r => Sys2Proof.Machine.execPlug r s
  | .taper m => Sys2Proof.Machine.execTaper m s
  | .hold => Sys2Proof.Machine.execHold s
  | .resume => Sys2Proof.Machine.execResume s
  | .unplug => Sys2Proof.Machine.execUnplug s
  | .startBitHeard => Sys2Proof.Machine.execStartBitHeard s
  | .characterHeard c => Sys2Proof.Machine.execCharacterHeard c s
  | .queryViewUnknown q v => Sys2Proof.Machine.execQueryViewUnknown q v s
  | .malformedSetup b p => Sys2Proof.Machine.execMalformedSetup b p s

end Sys2Proof.Machine
end

