-- ==== Sys2Proof/Safety.lean ====
section
/-! DEFINITION. What the rules say of every state a run reaches: the invariants of the part, block by block. -/

namespace Sys2Proof.Machine

/-- The part has rounds: LISTENING, JOINED, ISOLATED, REJOINING or CUTOFF (R1, R22). -/
def State.onLine (s : State) : Bool := s.stand.standing.onLine

/-! ### Rounds and settings (R1, R20, R21, R167) -/

/-- The timer runs, and the settings of the store are held, exactly while the part has rounds, and the store is
locked then; otherwise timer, peer table, share computer, session, override, stage control, meter and scan are at
their reset values. -/
structure State.RoundsInv (s : State) : Prop where
  running : s.timer.running = s.onLine
  handed : s.settings = if s.onLine then some (settingsOf s.store) else none
  locked : s.onLine = true → s.store.installer.locked = true
  idleTimer : s.onLine = false →
    s.timer.sliceCounter = 0 ∧ s.timer.sliceIndex = 0 ∧ s.timer.roundCount = 0 ∧ s.timer.aligned = false
  idleBlocks : s.onLine = false →
    s.peers = {} ∧ s.share = {} ∧ s.session = none ∧ s.notices.override = none ∧ s.stage = {} ∧ s.meter = {} ∧
      s.thermal = {}

/-! ### The store (R166, R178, R179) -/

/-- A field is blank or holds a value with the property. -/
def fieldHas (f : Option Nat) (p : Nat → Prop) : Prop :=
  match f with
  | none => True
  | some v => p v

/-- Every written field lies in its range, the pairs fit, and a locked segment has no blank field. -/
structure Installer.Sound (i : Installer) : Prop where
  bay : fieldHas i.bay fun v => 1 ≤ v ∧ v ≤ 31
  bayCount : fieldHas i.bayCount fun v => 1 ≤ v ∧ v ≤ 31
  bays : fieldHas i.bay fun b => fieldHas i.bayCount fun n => b ≤ n
  feederLimit : fieldHas i.feederLimit fun v => 1 ≤ v ∧ v ≤ 65000
  reserve : fieldHas i.reserve fun v => v ≤ 25
  sliceDiv : fieldHas i.sliceDiv fun v => 100 ≤ v ∧ v ≤ 2000
  roundDiv : fieldHas i.roundDiv fun v => 8 ≤ v ∧ v ≤ 60
  stepLag : fieldHas i.stepLag fun v => v ≤ 7
  ppk : fieldHas i.ppk fun v => v = 100 ∨ v = 250 ∨ v = 500 ∨ v = 1000
  edges : fieldHas i.edges fun v => v = 1 ∨ v = 2
  derateStart : fieldHas i.derateStart fun v => 40 ≤ v ∧ v ≤ 100
  derateEnd : fieldHas i.derateEnd fun v => 45 ≤ v ∧ v ≤ 130
  derate : fieldHas i.derateStart fun ts => fieldHas i.derateEnd fun te => ts + 5 ≤ te ∧ te ≤ ts + 40
  defaultDeparture : fieldHas i.defaultDeparture fun v => v ≤ 86399
  full : i.locked = true → ∀ code, 1 ≤ code → code ≤ 12 → i.written code = some true

/-! ### Drawing (R112, R115, R117, R118, R121) -/

/-- ENABLE is the draw permission; without it nothing is applied or waits; the applied power is at most the allotment,
the effective max and the stage rating; a waiting increase is at most the allotment; the stage holds the word due; and a
slice is driven so far only with ENABLE on and a word above 0 sent (R121). -/
structure State.DrawSafe (s : State) : Prop where
  enable : s.stage.enable = s.permission
  still : s.permission = false → s.stage.applied = 0 ∧ s.stage.pendingIncrease = none
  allotted : s.stage.applied ≤ s.share.allotment
  cool : s.stage.applied ≤ s.thermal.mEff
  waiting : ∀ p, s.stage.pendingIncrease = some p → p ≤ s.share.allotment
  word : s.stage.wordSent = s.stage.word
  rated : s.thermal.mEff ≤ s.cfg.stageRating
  driven : s.stage.sliceDriven = true → s.stage.enable = true ∧ 0 < s.stage.wordSent

/-- The same with the facts on rounds that it rests on. -/
def State.DrawInv (s : State) : Prop := s.RoundsInv ∧ s.DrawSafe

/-- Stage control at one event between round ends, from `s` to `t`: the cap state, the lag slice and what is owed of a
slice's start stand (R114, R120); the word due is sent where it changes, and nothing otherwise (R111, R113; log 12); and a
slice driven so far stays so with ENABLE on and the word as it stood or above 0 (R121). -/
structure State.SendsDue (s t : State) : Prop where
  cap : t.stage.cap = s.stage.cap
  lagSlice : t.stage.lagSlice = s.stage.lagSlice
  owed : t.stage.startOwed = s.stage.startOwed
  word : t.stage.wordSent = if s.stage.cap then 0 else t.stage.applied
  sent : t.out.stage = s.out.stage ++ if t.stage.wordSent = s.stage.wordSent then [] else [t.stage.wordSent]
  driven : t.stage.sliceDriven = true ↔
    s.stage.sliceDriven = true ∧ t.stage.enable = true ∧ (t.stage.wordSent = s.stage.wordSent ∨ 0 < t.stage.wordSent)

/-! ### The outbox and the sender (R155, R156, R159) -/

/-- The frame of an attempt still holds its slot, unless a newer one has taken it. -/
def LineEngine.senderFits (l : LineEngine) : Prop :=
  match l.sender with
  | .idle => l.outbox.isEmpty = true
  | .waiting _ _ => l.outbox.isEmpty = false
  | .sending a => a.replaced = false → (l.outbox.get a.slot).isSome = true

/-- IDLE exactly with nothing to send; a frame in a slot has collided at most seven times; an attempt has a character
still to be read back. -/
structure LineEngine.OutboxInv (l : LineEngine) : Prop where
  sender : l.senderFits
  counts : ∀ slot f, l.outbox.get slot = some f → f.collisions ≤ 7
  readBack : ∀ a, l.sender = .sending a → a.heard < a.bytes.length

/-- A frame is placed in a slot with a collision count of 0 (R155). An IDLE sender draws a first-attempt backoff of 16
values (R156, R163); a wait under way stands; a frame of the slot on the line stays there, replaced (R159). -/
structure LineEngine.Places (l m : LineEngine) (slot : Slot) (payload : List Byte) : Prop where
  inSlot : m.outbox = l.outbox.set slot (some ⟨payload, 0⟩)
  idle : l.sender = .idle → m.prng = prngNext l.prng ∧ m.sender = .waiting (prngValue 16 (prngNext l.prng)) 0
  waiting : ∀ b w, l.sender = .waiting b w → m.prng = l.prng ∧ m.sender = .waiting b w
  sending : ∀ a, l.sender = .sending a → m.prng = l.prng ∧
    m.sender = .sending { a with replaced := a.replaced || decide (a.slot = slot) }
  others : m = { l with outbox := m.outbox, sender := m.sender, prng := m.prng }

/-- The generator's state after `k` advances (R163). -/
def prngAfter : Nat → BitVec 16 → BitVec 16
  | 0, x => x
  | k + 1, x => prngNext (prngAfter k x)

/-- An own CLAIM waits in the outbox: it is not the one on the line (R155, R158). -/
def State.ClaimWaits (s : State) : Prop :=
  s.line.outbox.claim.isSome = true ∧ ∀ a, s.line.sender = .sending a → a.slot = .claim → a.replaced = true

/-! ### The tables (R35, R98) -/

/-- Entries in ascending bay order, each of a peer bay in 1..N. -/
structure State.PeersSafe (s : State) : Prop where
  ordered : s.peers.entries.Pairwise fun a b => a.bay < b.bay
  peer : ∀ e ∈ s.peers.entries, 1 ≤ e.bay ∧ e.bay ≤ s.cfg.n ∧ e.bay ≠ s.cfg.bay

/-- The same with the facts on rounds that it rests on. -/
def State.PeersInv (s : State) : Prop := s.RoundsInv ∧ s.PeersSafe

/-- A notice entry's fields lie in their ranges (R98). -/
def NoticeEntry.Sound (e : NoticeEntry) : Prop :=
  1 ≤ e.van ∧ e.departure < Config.daySeconds ∧ ∀ t, e.target = some t → 1 ≤ t ∧ t ≤ Config.maxEnergy

/-- At most 48 entries, one for a van, none for the van in session (R98, R100). -/
structure State.NoticesInv (s : State) : Prop where
  room : s.notices.table.length ≤ Config.noticeCapacity
  distinct : s.notices.table.Pairwise fun a b => a.van ≠ b.van
  sound : ∀ e ∈ s.notices.table, e.Sound
  apart : ∀ x, s.session = some x → ∀ e ∈ s.notices.table, e.van ≠ x.van

/-! ### The session (R71, R90, R91) -/

/-- Ranges of an open session; hold reasons only in HELD and FAULT; a fault reason exactly in FAULT. -/
structure Session.Sound (x : Session) : Prop where
  van : 1 ≤ x.van ∧ x.van ≤ 65535
  phase : x.phase ≠ .vacant
  held : x.holds.isEmpty = false → x.phase = .held ∨ x.phase = .fault
  fault : x.faultReason.isSome = true ↔ x.phase = .fault
  target : x.target ≤ x.need ∧ x.need ≤ Config.maxEnergy
  departure : x.departure ≤ Config.daySeconds
  counts : x.delivered ≤ Config.top32 ∧ x.opening ≤ Config.top16
  plugged : ∀ c, x.plugSecond = some c → c < Config.daySeconds
  meter : x.meterHolds ≤ 3 ∧ x.meterRoundsLeft ≤ 6 ∧ x.overdrawStreak ≤ 3
  precond : x.precondPower ≤ Config.maxPrecondPower ∧ x.precondTime ≤ Config.maxPrecondSeconds

/-- The open session, if any, is sound, its powers within the stage rating; the counts and the clock it is opened with
are in their ranges. -/
structure State.SessionSafe (s : State) : Prop where
  sound : ∀ x, s.session = some x → x.Sound
  rated : ∀ x, s.session = some x → x.vanMax ≤ s.store.stageRating ∧ x.floor ≤ s.store.stageRating
  counts : s.meter.roundCount ≤ Config.top16
  clock : ∀ c, s.timer.clock = some c → c < Config.daySeconds

/-- The same with the facts on rounds that it rests on. -/
def State.SessionInv (s : State) : Prop := s.RoundsInv ∧ s.SessionSafe

/-- A session neither HELD nor in FAULT in `s` has taken, by `t`, a THERMAL or PERMIT reason that it lacked: it entered
HELD at the event between them (R91). -/
def State.EntersHeld (s t : State) : Prop :=
  ∃ x y, s.session = some x ∧ t.session = some y ∧ x.phase ≠ .held ∧ x.phase ≠ .fault ∧
    ((x.holds.thermal = false ∧ y.holds.thermal = true) ∨ (x.holds.permit = false ∧ y.holds.permit = true))

/-- The records out on the post link at a slice end from `s` to `t` (R74): PHASE records alone, one for THERMAL where it
changed, one for PERMIT where it changed, and at most one more; none where phase and hold reasons stand, and otherwise
the last reports the session as `t` has it. -/
structure State.ReportsChanges (s t : State) (rs : List LinkRecord) : Prop where
  link : t.out.link = s.out.link ++ rs
  phases : ∀ r ∈ rs, ∃ p h f, r = .phase p h f
  unchanged : t.phase = s.phase → t.holds = s.holds → rs = []
  changed : t.phase ≠ s.phase ∨ t.holds ≠ s.holds → rs.getLast? =
    some (.phase t.phase t.holds (t.session.bind fun x => if x.phase = .fault then x.faultReason else none))
  count : ∃ k, k ≤ 1 ∧ rs.length = k + (if t.holds.thermal = s.holds.thermal then 0 else 1) +
    (if t.holds.permit = s.holds.permit then 0 else 1)

/-! ### The standing (R18, R25 to R29, R33) -/

/-- The ranges of the standing unit between events; the counts that belong to a standing are 0 outside it. -/
structure StandingUnit.Sound (u : StandingUnit) : Prop where
  listen : u.listenCount ≤ 1
  streak : u.silentStreak ≤ 3
  streakJoined : u.standing = .joined ∨ u.standing = .rejoining → u.silentStreak ≤ 2
  rejoin : u.rejoinCount ≤ 1
  isolation : u.isolationCount ≤ Config.isolationLimit
  isolated : u.standing = .isolated → u.isolationCount < Config.isolationLimit
  clash : u.clashClear ≤ 2
  flagged : u.roundClash = true → u.bayClash = true

/-! ### The round timer (R2, R4, R14) -/

/-- While the part has rounds the slice index is in 0..B−1 and the slice counter in 0..A−1; the round count has 16
bits, the sub-second count is in 0..999, and a set clock holds a second of day. -/
structure State.TimerSafe (s : State) : Prop where
  slice : s.onLine = true → s.timer.sliceIndex < s.cfg.roundDiv ∧ s.timer.sliceCounter < s.cfg.sliceDiv
  round : s.timer.roundCount < 65536
  second : s.timer.subSecond < Config.ticksPerSecond
  clock : ∀ c, s.timer.clock = some c → c < Config.daySeconds

/-- The same with the facts on rounds and settings that it rests on. -/
def State.TimerInv (s : State) : Prop := s.RoundsInv ∧ s.store.installer.Sound ∧ s.TimerSafe

/-! ### Own claims (R38, R56, R58) -/

/-- The form a peer checks in a claim of this part (R38), with every field in the range its bytes carry (R153). -/
structure Claim.WellFormed (c : Claim) : Prop where
  standing : c.standing.onLine = true
  asks : c.q ≤ c.mEff
  floor : 0 < c.q → c.f ≤ c.q
  powers : c.mEff ≤ Config.maxPower ∧ c.f ≤ Config.maxPower ∧ c.pEff ≤ Config.maxPower
  key : c.k ≤ 65535
  sequence : c.sequence < 256

/-- The own claim record is well formed, and so are the peers' and the figures the next claim is formed from. -/
structure State.ClaimSafe (s : State) : Prop where
  own : ∀ c, s.share.ownClaim = some c → c.WellFormed
  floor : ∀ x, s.session = some x → x.floor ≤ s.store.stageRating ∧ (s.thermal.mEff = 0 ∨ x.floor ≤ s.thermal.mEff)
  power : s.thermal.mEff ≤ s.store.stageRating
  allotted : s.share.allotment ≤ Config.maxPower
  peers : ∀ e ∈ s.peers.entries, e.q ≤ e.m ∧ (0 < e.q → e.f ≤ e.q) ∧ e.m ≤ Config.maxPower
  rating : s.store.stageRating ≤ Config.maxPower

/-- The same with the facts on rounds that it rests on. -/
def State.ClaimInv (s : State) : Prop := s.RoundsInv ∧ s.ClaimSafe

/-! ### The frames among the commands (R154, R161) -/

/-- The kind and the sender bay of a command that is a valid frame. -/
def frameOf : Instr → Option (FrameKind × Byte)
  | .markFrame b _ _ => some (.mark, b)
  | .claimFrame b _ => some (.claim, b)
  | .noticeFrame b _ => some (.notice, b)
  | .limitFrame b _ => some (.limit, b)
  | .replyFrame b _ => some (.reply, b)
  | .queryStatus q => some (.query, q.sender)
  | .queryPeers q => some (.query, q.sender)
  | .queryNotices q => some (.query, q.sender)
  | .querySession q => some (.query, q.sender)
  | .queryLast q => some (.query, q.sender)
  | .queryConfig q => some (.query, q.sender)
  | .queryViewUnknown q _ => some (.query, q.sender)
  | .setupWrite b _ _ _ => some (.setup, b)
  | .setupLock b _ => some (.setup, b)
  | .setupRestart b _ => some (.setup, b)
  | .malformedSetup b _ => some (.setup, b)
  | .powerUp => none
  | .resetAsserted => none
  | .resetReleased => none
  | .storeReadCompletes => none
  | .sliceExpiry _ => none
  | .naturalRoundEnd _ => none
  | .clockSecondEvent => none
  | .restartWaitExpiry => none
  | .invalidFrame => none
  | .receiveError => none
  | .quietGap => none
  | .sendAttempt => none
  | .sentInFull => none
  | .collision => none
  | .meterEdge => none
  | .permitFalling => none
  | .permitRising => none
  | .plug _ => none
  | .taper _ => none
  | .hold => none
  | .resume => none
  | .unplug => none
  | .startBitHeard => none
  | .characterHeard _ => none

/-- The fields and the view of a command that is a QUERY (R168). -/
def queryOfCommand : Instr → Option (QueryFrame × Byte)
  | .queryStatus q => some (q, 1)
  | .queryPeers q => some (q, 2)
  | .queryNotices q => some (q, 3)
  | .querySession q => some (q, 4)
  | .queryLast q => some (q, 5)
  | .queryConfig q => some (q, 6)
  | .queryViewUnknown q v => some (q, v)
  | _ => none

/-- The target serial and the request of a command that is a well-formed SETUP (R176). -/
def setupOfCommand : Instr → Option (BitVec 32 × RequestKind)
  | .setupWrite _ n _ _ => some (n, .write)
  | .setupLock _ n => some (n, .lock)
  | .setupRestart _ n => some (n, .restart)
  | _ => none

/-- The row of the table that a valid frame of the line is. A QUERY whose length is not 9 has the length in its row's
operand and is malformed in every row (R169). -/
def rowOf (kind : FrameKind) (sender : Byte) (payload : List Byte) (temps : Temps) : Instr :=
  match kind with
  | .mark => .markFrame sender payload temps
  | .claim => .claimFrame sender payload
  | .notice => .noticeFrame sender payload
  | .limit => .limitFrame sender payload
  | .reply => .replyFrame sender payload
  | .query =>
    match payload with
    | [form, t3, t2, t1, t0, tag, view, start, count] =>
      let q : QueryFrame := ⟨sender, 9, form, BitVec.ofNat 32 (numBE [t3, t2, t1, t0]), tag, start, count⟩
      match view.toNat with
      | 1 => .queryStatus q
      | 2 => .queryPeers q
      | 3 => .queryNotices q
      | 4 => .querySession q
      | 5 => .queryLast q
      | 6 => .queryConfig q
      | _ => .queryViewUnknown q view
    | p => .queryStatus ⟨sender, BitVec.ofNat 8 p.length, 0, 0, 0, 0, 0⟩
  | .setup =>
    match payload with
    | [s3, s2, s1, s0, action, field, v3, v2, v1, v0] =>
      let serial := BitVec.ofNat 32 (numBE [s3, s2, s1, s0])
      match action.toNat with
      | 1 => .setupWrite sender serial field (BitVec.ofNat 32 (numBE [v3, v2, v1, v0]))
      | 2 => .setupLock sender serial
      | 3 => .setupRestart sender serial
      | _ => .malformedSetup sender [s3, s2, s1, s0, action, field, v3, v2, v1, v0]
    | p => .malformedSetup sender p

/-! ### Readings of a scan (R141 to R143) -/

/-- A channel after a scan of an input at `t` degrees. -/
def Channel.Converts (c : Channel) (t : Int) : Prop :=
  c.reading = some (max (-40) (min 150 t)) ∧ (c.faulty = true ↔ t ≤ -40 ∨ 150 ≤ t)

/-- What an input at `t` degrees counts as in the hot value. -/
def countedTemp (te : Nat) (t : Int) : Int := if t ≤ -40 ∨ 150 ≤ t then te else t

/-- `h` is the largest of three. -/
def IsLargest (h a b c : Int) : Prop := (h = a ∨ h = b ∨ h = c) ∧ a ≤ h ∧ b ≤ h ∧ c ≤ h

end Sys2Proof.Machine
end

