-- ==== Sys2Proof/Certificates/Slice0/Obligations.lean ====
section
/-! DEFINITION. The statements about the model: what each command does, what a step does, and what every step keeps. -/

open Sys2Proof Sys2Proof.Machine

/-! ### The queue and the tick -/

/-- A step takes the command at the front of the queue with the queue's rest. -/
def Obligations.StepTakesFront : Prop :=
  ∀ (c : Instr) (q : List Instr) (s : State), s.pending = c :: q → step s = exec c { s with pending := q }

/-- MODEL'S CHOICE (log 1). On an empty queue 1 ms passes: what is owed of a slice's start is taken (log 31), the
counters of time advance, and where one event falls due it is taken, as the command of the same name takes it. Of two or
more due at one tick each has one turn, in a free order (logs 1 and 4), and is taken if it is still due then. An
event falls due at 1000 ticks of the sub-second count, A ticks of the slice counter, 40 ms of a store read, 100 ms of a
restart wait, 160 µs of a quiet line, and 160 µs and the backoff of 40 µs units of a wait. MODEL'S CHOICE (log 15): the
quiet time of the line and of a wait is counted in whole milliseconds, 1000 µs at a tick, so a quiet gap and an attempt
come at the first tick at or after their time, often the same one. -/
def Obligations.EmptyQueueTick : Prop :=
  (∀ s : State, s.pending = [] →
    ∃ u v : State, u = s.takeStarts ∧ v = u.advance ∧
      (s.stage.startOwed = false → s.share.postOwed = false → u = s) ∧
      v = { u with
        timer := { u.timer with
          subSecond := u.timer.subSecond + 1
          sliceCounter := if u.timer.running then u.timer.sliceCounter + 1 else u.timer.sliceCounter }
        storeRead := u.storeRead.map (· + 1)
        inspect := { u.inspect with restartWait := u.inspect.restartWait.map (· + 1) }
        line := v.line } ∧
      (u.line.lineActive = true ∨ u.isSending = true → v.line = u.line) ∧
      (u.line.lineActive = false → u.line.sender = .idle →
        v.line = { u.line with quietTimer := u.line.quietTimer + 1000 }) ∧
      (∀ backoff waited, u.line.lineActive = false → u.line.sender = .waiting backoff waited →
        v.line = { u.line with
          quietTimer := u.line.quietTimer + 1000, sender := .waiting backoff (waited + 1000) }) ∧
      ((∀ d : Due, d.isDue v = false) → step s = .next v) ∧
      (∀ d : Due, d.isDue v = true → (∀ e : Due, e ≠ d → e.isDue v = false) → step s = .next (d.take v)) ∧
      (∀ d e : Due, d ≠ e → d.isDue v = true → e.isDue v = true →
        step s = .next (inAnyOrder ((dueEvents.filter (Due.isDue v)).map Due.takeIfDue) v)) ∧
      ∃ (turns : List Due) (w : State), turns.Nodup ∧ (∀ d, d ∈ turns ↔ d.isDue v = true) ∧
        w = { v with choices := w.choices, freeCount := w.freeCount } ∧
        step s = .next (turns.foldl (fun x d => if d.isDue x then d.take x else x) w)) ∧
  (∀ v : State,
      (Due.second.isDue v = true ↔ 1000 ≤ v.timer.subSecond) ∧
      (Due.slice.isDue v = true ↔ v.timer.running = true ∧ v.cfg.sliceDiv ≤ v.timer.sliceCounter) ∧
      (Due.read.isDue v = true ↔ ∃ ms, v.storeRead = some ms ∧ 40 ≤ ms) ∧
      (Due.restart.isDue v = true ↔ ∃ ms, v.inspect.restartWait = some ms ∧ 100 ≤ ms) ∧
      (Due.quiet.isDue v = true ↔ 160 ≤ v.line.quietTimer ∧ v.line.receiver ≠ .hunt) ∧
      (Due.attempt.isDue v = true ↔
        ∃ backoff waited, v.line.sender = .waiting backoff waited ∧ 160 + 40 * backoff ≤ waited) ∧
      .next (Due.second.take v) = exec .clockSecondEvent v ∧
      .next (Due.slice.take v) = (if v.cfg.roundDiv ≤ v.timer.sliceIndex + 1 then exec (.naturalRoundEnd v.pins.temps) v
        else exec (.sliceExpiry v.pins.temps) v) ∧
      .next (Due.read.take v) = exec .storeReadCompletes v ∧
      .next (Due.restart.take v) = exec .restartWaitExpiry v ∧
      .next (Due.quiet.take v) = exec .quietGap v ∧
      (∀ u, exec .quietGap v = .next u → .next (Due.attempt.take v) =
        exec .sendAttempt (if 160 ≤ v.line.quietTimer ∧ v.line.receiver ≠ .hunt then u else v)))

/-- MODEL'S CHOICE (log 3). An event command that cannot occur in the present state changes nothing (the temperatures
it carries are taken). -/
def Obligations.EventsThatCannotOccur : Prop :=
  ∀ (s : State) (temps : Temps),
    (s.pins.reset = true → exec .resetAsserted s = .next s) ∧
    (s.pins.reset = false → exec .resetReleased s = .next s) ∧
    (s.storeRead = none ∨ s.stand.standing ≠ .starting → exec .storeReadCompletes s = .next s) ∧
    (s.inspect.restartWait = none → exec .restartWaitExpiry s = .next s) ∧
    (s.timer.running = false ∨ s.cfg.roundDiv ≤ s.timer.sliceIndex + 1 →
      exec (.sliceExpiry temps) s = .next { s with pins := { s.pins with temps := temps } }) ∧
    (s.timer.running = false ∨ s.timer.sliceIndex + 1 < s.cfg.roundDiv →
      exec (.naturalRoundEnd temps) s = .next { s with pins := { s.pins with temps := temps } }) ∧
    (s.pins.permit = false → exec .permitFalling s = .next s) ∧
    (s.pins.permit = true → exec .permitRising s = .next s) ∧
    (s.isSending = false → exec .sentInFull s = .next s ∧ exec .collision s = .next s) ∧
    (s.isSending = true →
      exec .quietGap s = .next s ∧ exec .startBitHeard s = .next s ∧ exec .sendAttempt s = .next s) ∧
    (s.line.sender = .idle ∨ s.line.lineActive = true ∨ s.line.outbox.isEmpty = true →
      exec .sendAttempt s = .next s) ∧
    (s.isSending = true ↔ ∃ a, s.line.sender = .sending a) ∧
    (s.line.outbox.isEmpty = true ↔
      s.line.outbox.mark = none ∧ s.line.outbox.claim = none ∧ s.line.outbox.reply = none)

/-! ### Supply, the RESET input and the store read -/

/-- POWER_UP: every item at its reset value, the clock UNSET, the notice table and the last-session record empty, and
the store read begun unless RESET is asserted. MODEL'S CHOICES: `sliceDriven` and `allDriven` have reset values of the
model (log 17), and the mark of an active line is kept (log 27). -/
def Obligations.PowerUpState : Prop :=
  ∀ s : State, exec .powerUp s = .next
    { s with
      storeRead := if s.pins.reset then none else some 0
      settings := none
      timer := { running := false, sliceCounter := 0, sliceIndex := 0, roundCount := 0, aligned := false,
                 subSecond := 0, clock := none }
      stand := { standing := .starting, listenCount := 0, listenHeard := false, listenPosted := false,
                 silentStreak := 0, rejoinCount := 0, isolationCount := 0, roundHeard := false,
                 claimRecord := .nothing, bayClash := false, clashClear := 0, roundClash := false }
      peers := { entries := [], dHanded := 0, claimantsHanded := 0 }
      share := { ownClaim := none, sequence := 0, postSlice := none, allotment := 0, postOwed := false }
      session := none
      last := none
      notices := { table := [], override := none }
      stage := { applied := 0, pendingIncrease := none, cap := false, lagSlice := none, wordSent := 0,
                 enable := false, sliceDriven := false, startOwed := false }
      meter := { sliceCount := 0, roundCount := 0, holdCount := 0, ceiling := none, capped := false,
                 allDriven := true }
      thermal := { ch0 := ⟨none, false⟩, ch1 := ⟨none, false⟩, ch2 := ⟨none, false⟩, hot := none,
                   derating := false, mEff := 0 }
      line := { outbox := ⟨none, none, none⟩, sender := .idle, receiver := .skip false,
                lineActive := s.line.lineActive, quietTimer := 0,
                prng := s.store.serial.setWidth 16 ^^^ (s.store.serial >>> 16).setWidth 16,
                counters := ⟨0, 0, 0, 0, 0, 0⟩ }
      inspect := { pendingReply := none, restartWait := none }
      out := { s.out with stage := s.out.stage ++ [0] } }

/-- A restart, by the RESET input, by the restart wait, or by the report that a RESTART's reply was sent in full (its
characters have left the part, and the line is quiet): as power-up, but the clock, the sub-second count and the
notice table are kept, and an open session is closed into the last-session record with its running delivered energy.
MODEL'S CHOICES: `sliceDriven` and `allDriven` have reset values of the model (log 17), and the mark of an active line
is kept (log 27). -/
def Obligations.RestartState : Prop :=
  ∀ (c : Instr) (s u : State),
    (c = .resetAsserted ∧ s.pins.reset = false ∧ u = { s with pins := { s.pins with reset := true } }) ∨
      (c = .restartWaitExpiry ∧ s.inspect.restartWait.isSome = true ∧ u = s) ∨
      (c = .sentInFull ∧ ∃ a r, s.line.sender = .sending a ∧ a.slot = .reply ∧ s.inspect.pendingReply = some r ∧
        r.kind = .restart ∧ u = { s with
          line := { s.line with lineActive := false }, out := { s.out with line := s.out.line ++ [a.bytes] } }) →
    exec c s = .next
      { u with
        storeRead := if u.pins.reset then none else some 0
        settings := none
        timer := { running := false, sliceCounter := 0, sliceIndex := 0, roundCount := 0, aligned := false,
                   subSecond := u.timer.subSecond, clock := u.timer.clock }
        stand := {}
        peers := { entries := [], dHanded := 0, claimantsHanded := 0 }
        share := { ownClaim := none, sequence := 0, postSlice := none, allotment := 0, postOwed := false }
        session := none
        last :=
          match u.session with
          | none => u.last
          | some x => some { van := x.van, delivered := u.runningWh x, reason := .restart, finalPhase := x.phase }
        notices := { table := u.notices.table, override := none }
        stage := {}
        meter := {}
        thermal := {}
        line := { outbox := ⟨none, none, none⟩, sender := .idle, receiver := .skip false,
                  lineActive := u.line.lineActive, quietTimer := 0,
                  prng := u.store.serial.setWidth 16 ^^^ (u.store.serial >>> 16).setWidth 16,
                  counters := ⟨0, 0, 0, 0, 0, 0⟩ }
        inspect := { pendingReply := none, restartWait := none }
        out := { u.out with stage := u.out.stage ++ [0] } }

/-- R19: power-up and every restart (the RESET input, the restart wait, the report that a RESTART's reply was sent in
full) put the standing at STARTING with every item of the standing unit at its reset value, and stage control drops
applied power and ENABLE. -/
def Obligations.ResetsClearStanding : Prop :=
  ∀ (c : Instr) (s : State),
    c = .powerUp ∨ (c = .resetAsserted ∧ s.pins.reset = false) ∨
      (c = .restartWaitExpiry ∧ s.inspect.restartWait.isSome = true) ∨
      (c = .sentInFull ∧ ∃ a r, s.line.sender = .sending a ∧ a.slot = .reply ∧
        s.inspect.pendingReply = some r ∧ r.kind = .restart) →
    ∃ t, exec c s = .next t ∧
      t.stand.standing = .starting ∧ t.stand.listenCount = 0 ∧ t.stand.silentStreak = 0 ∧
      t.stand.rejoinCount = 0 ∧ t.stand.isolationCount = 0 ∧ t.stand.listenHeard = false ∧
      t.stand.listenPosted = false ∧ t.stand.roundHeard = false ∧ t.stand.roundClash = false ∧
      t.stand.claimRecord = .nothing ∧ t.stand.bayClash = false ∧ t.stand.clashClear = 0 ∧
      t.stage.applied = 0 ∧ t.stage.enable = false

/-- RESET_RELEASED begins the store read that waits in STARTING; in any other standing it begins none (MODEL'S READING,
log 22). The part is on the line in each standing but STARTING and SETUP, and there the settings handed over are those
its blocks read. STORE_READ_COMPLETES gives SETUP where the segment is not
locked; where it is, LISTENING, with the settings handed over, rounds running from slice 0 of round 0, a first claim
in the outbox and a post slice in 1..B−3, drawn from the generator before or after the claim's backoff (R163). One PHASE
record reports VACANT either way. -/
def Obligations.ReleaseAndRead : Prop :=
  (∀ (s : State) (st : Store) (i : Installer), i = st.installer →
      (s.onLine = true ↔ s.stand.standing ≠ .starting ∧ s.stand.standing ≠ .setup) ∧
      (∀ g, s.settings = some g → s.cfg = g) ∧
      settingsOf st =
        { bay := i.bay.getD 0, n := i.bayCount.getD 0, feederLimit := i.feederLimit.getD 0, reserve := i.reserve.getD 0
          sliceDiv := i.sliceDiv.getD 0, roundDiv := i.roundDiv.getD 0, ppk := i.ppk.getD 0, edges := i.edges.getD 0
          derateStart := i.derateStart.getD 0, derateEnd := i.derateEnd.getD 0
          defaultDeparture := i.defaultDeparture.getD 0, stageRating := st.stageRating }) ∧
  (∀ s : State, s.pins.reset = true →
      exec .resetReleased s = .next
        { s with
          pins := { s.pins with reset := false }
          storeRead := if s.stand.standing = .starting then some 0 else s.storeRead }) ∧
  (∀ s : State, s.storeRead.isSome = true → s.stand.standing = .starting →
      (s.store.installer.locked = false →
        exec .storeReadCompletes s = .next
          { s with
            storeRead := none
            stand := { s.stand with standing := .setup }
            out := { s.out with link := s.out.link ++ [.phase .vacant {} none] } }) ∧
      (s.store.installer.locked = true → 8 ≤ s.store.installer.roundDiv.getD 0 → s.session = none →
        ∃ t c p, exec .storeReadCompletes s = .next t ∧
          t.settings = some (settingsOf s.store) ∧
          t.timer = { s.timer with running := true, sliceCounter := 0, sliceIndex := 0, roundCount := 0,
                                   aligned := false } ∧
          t.stand = { s.stand with standing := .listening, listenCount := 0, silentStreak := 0, rejoinCount := 0,
                                   isolationCount := 0, listenHeard := false, listenPosted := false,
                                   roundHeard := false, claimRecord := .nothing } ∧
          t.share = { s.share with ownClaim := some c, sequence := (s.share.sequence + 1) % 256,
                                   postSlice := some p, postOwed := false } ∧
          c.standing = .listening ∧ c.phase = .vacant ∧ c.q = 0 ∧ c.mEff = 0 ∧ c.f = 0 ∧ c.k = 0 ∧
          c.pEff = s.share.allotment ∧ c.thermal = s.thermal.derating ∧ c.clash = s.stand.bayClash ∧
          c.hold = false ∧ c.reasons = {} ∧
          c.sequence = (s.share.sequence + 1) % 256 ∧
          1 ≤ p ∧ p + 3 ≤ s.store.installer.roundDiv.getD 0 ∧
          (∃ g1 g2, g1 = prngNext s.line.prng ∧ g2 = prngNext g1 ∧
            (s.line.sender = .idle → t.line.prng = g2 ∧
              ((p = 1 + prngValue (s.store.installer.roundDiv.getD 0 - 3) g1 ∧
                  t.line.sender = .waiting (prngValue 16 g2) 0) ∨
                (p = 1 + prngValue (s.store.installer.roundDiv.getD 0 - 3) g2 ∧
                  t.line.sender = .waiting (prngValue 16 g1) 0))) ∧
            (s.line.sender ≠ .idle → t.line.prng = g1 ∧
              p = 1 + prngValue (s.store.installer.roundDiv.getD 0 - 3) g1)) ∧
          t.line.outbox.claim = some ⟨c.payload, 0⟩ ∧
          t.stage = { s.stage with
            lagSlice := some (min (s.store.installer.stepLag.getD 0) (s.store.installer.roundDiv.getD 0 - 1)) } ∧
          t.meter = { s.meter with ceiling := some 2, allDriven := true } ∧
          t.out = { s.out with link := s.out.link ++ [.phase .vacant {} none] } ∧
          t = { s with storeRead := none, settings := t.settings, timer := t.timer, stand := t.stand,
                       share := t.share, line := t.line, stage := t.stage, meter := t.meter, out := t.out,
                       choices := t.choices, freeCount := t.freeCount }))

/-! ### Slices, rounds and the clock second -/

/-- CLOCK_SECOND_EVENT: the sub-second count returns to 0, a set clock goes one second on (86399 to 0), and the open
session's countdown falls by one to no less than 0. -/
def Obligations.ClockSecond : Prop :=
  ∀ s : State, exec .clockSecondEvent s = .next
    { s with
      timer := { s.timer with
        subSecond := 0
        clock := match s.timer.clock with
          | none => none
          | some c => some ((c + 1) % 86400) }
      session := match s.session with
        | none => none
        | some x => some { x with departure := x.departure - 1 } }

/-- SLICE_EXPIRY of a slice other than the last: the next slice, the slice count added to the round count and the
ceiling test made, a demand word sent, the session changed in phase and hold reasons alone, and nothing else touched.
MODEL'S CHOICE (log 31): the start of slice 2 may be left owed where slice 2 is the lag slice or the post slice.
At the start of the post slice a claim is formed, of the state as it then stands, and queued; without it, and with the
phase unchanged, no claim is formed. At the expiry of slice 1 the own MARK leaves the outbox unless it is on the line,
and an attempt of it is not retried; at any other expiry it stays. A PHASE record goes out for each change of phase or
hold reasons (R74). A slice whose start is taken is driven so far where ENABLE is on and the word sent is above 0 (R121).
What is owed of the start of a slice is taken at the next expiry or tick: the waiting increase of the lag slice with the
demand word, and the claim of the post slice. A session in CHARGING or DEFERRED, and in no other phase, passes to TOPPED
with its running delivered energy at the target (R94); one that takes a hold reason is HELD, but for one in FAULT (R91).
Entry to HELD and to TOPPED re-forms the claim (R59), with q = 0 in HELD, and
each claim formed has the next sequence. -/
def Obligations.SliceExpiry : Prop :=
  (∀ (s : State) (temps : Temps), s.timer.running = true → s.timer.sliceIndex + 1 < s.cfg.roundDiv →
    ∃ t u, exec (.sliceExpiry temps) s = .next t ∧ u = s.takeStarts ∧
      t.timer = { s.timer with sliceCounter := 0, sliceIndex := s.timer.sliceIndex + 1 } ∧
      t.meter.roundCount = min 65535 (s.meter.roundCount + s.meter.sliceCount) ∧
      t.meter.sliceCount = 0 ∧
      t.meter.allDriven = (s.meter.allDriven && u.stage.sliceDriven) ∧
      (t.meter.capped = true ↔
        s.meter.capped = true ∨ ∃ c, s.meter.ceiling = some c ∧ c < t.meter.roundCount) ∧
      (t.stage.cap = true ↔ s.stage.cap = true ∨ ∃ c, s.meter.ceiling = some c ∧ c < t.meter.roundCount) ∧
      (∃ ws, (t.stage.startOwed = false → ws ≠ []) ∧ t.out.stage = u.out.stage ++ ws ∧
        (ws = [] → t.stage.wordSent = u.stage.wordSent) ∧ (ws ≠ [] → ws.getLast? = some t.stage.wordSent)) ∧
      t.stage.lagSlice = s.stage.lagSlice ∧ t.out.line = s.out.line ∧
      (∃ rs, s.ReportsChanges t rs) ∧
      (t.stage.startOwed = false →
        (t.stage.sliceDriven = true → t.stage.enable = true ∧ 0 < t.stage.wordSent) ∧
        (s.stage.enable = s.permission → t.stage.enable = true → 0 < t.stage.wordSent → t.stage.sliceDriven = true)) ∧
      (t.stage.startOwed = true → t.stage.sliceDriven = true → u.stage.sliceDriven = true) ∧
      (t.stage.startOwed = true → s.timer.sliceIndex = 1 ∧ s.stage.lagSlice = some 2) ∧
      (t.share.postOwed = true → s.timer.sliceIndex = 1 ∧ s.share.postSlice = some 2) ∧
      (s.session = none → t.session = none) ∧
      (∀ x, s.session = some x → ∃ y, t.session = some y ∧ y = { x with phase := y.phase, holds := y.holds } ∧
        y.holds.meter = x.holds.meter ∧
        (x.phase = .charging ∨ x.phase = .deferred → x.target ≤ t.runningWh x → y.phase = .topped ∨ y.phase = .held) ∧
        ((∀ r, y.holds.has r = true → x.holds.has r = true) →
          ¬ ((x.phase = .charging ∨ x.phase = .deferred) ∧ x.target ≤ t.runningWh x) → y.phase = x.phase) ∧
        (y.phase = .topped → x.phase = .topped ∨
          ((x.phase = .charging ∨ x.phase = .deferred) ∧ x.target ≤ t.runningWh x)) ∧
        (y.phase = x.phase ∨ y.phase = .topped ∨ y.phase = .held) ∧ (x.phase = .fault → y.phase = .fault) ∧
        (x.phase ≠ .fault → x.phase ≠ .vacant → ∀ r, y.holds.has r = true → x.holds.has r = false →
          y.phase = .held)) ∧
      t.share.allotment = s.share.allotment ∧ t.share.postSlice = s.share.postSlice ∧
      t.line.counters = s.line.counters ∧
      t = { s with
        pins := { s.pins with temps := temps }, timer := t.timer, share := t.share, session := t.session
        stage := t.stage
        meter := { s.meter with sliceCount := t.meter.sliceCount, roundCount := t.meter.roundCount,
                                capped := t.meter.capped, allDriven := t.meter.allDriven }
        thermal := t.thermal, line := t.line, out := t.out, choices := t.choices, freeCount := t.freeCount }) ∧
  (∀ (s : State) (temps : Temps), s.timer.running = true → s.timer.sliceIndex + 1 < s.cfg.roundDiv → s.onLine = true →
    ∃ t u, exec (.sliceExpiry temps) s = .next t ∧ u = s.takeStarts ∧
      (s.share.postSlice = some (s.timer.sliceIndex + 1) → t.share.postOwed = false →
        ∃ v : State, t.share.ownClaim = some v.claimNow ∧ t.share.sequence = v.claimNow.sequence ∧
          t.line.outbox.claim = some ⟨v.claimNow.payload, 0⟩ ∧
          v.stand = s.stand ∧ v.settings = s.settings ∧ v.share.allotment = s.share.allotment ∧
          (v.thermal = s.thermal ∨ v.thermal = t.thermal) ∧
          (v.meter.roundCount = s.meter.roundCount ∨ v.meter.roundCount = t.meter.roundCount) ∧
          (s.session = none → v.session = none) ∧
          (∀ x, s.session = some x → ∃ y, v.session = some y ∧ y = { x with phase := y.phase, holds := y.holds } ∧
            (t.session = s.session → y = x))) ∧
      (t.share.sequence = u.share.sequence ∨ ∃ n, 1 ≤ n ∧ n ≤ 3 ∧ t.share.sequence = (u.share.sequence + n) % 256) ∧
      (s.share.postSlice = some (s.timer.sliceIndex + 1) → t.share.postOwed = false → t.session = s.session →
        t.share.sequence = (u.share.sequence + 1) % 256) ∧
      (t.phase = .held → s.phase ≠ .held → ∃ c, t.share.ownClaim = some c ∧ c.phase = .held ∧ c.q = 0 ∧ c.hold = true ∧
        c.standing = s.stand.standing ∧ c.pEff = s.share.allotment ∧ c.sequence = t.share.sequence ∧
        t.line.outbox.claim = some ⟨c.payload, 0⟩ ∧ t.share.sequence ≠ u.share.sequence) ∧
      (t.phase = .topped → s.phase ≠ .topped → t.share.sequence ≠ u.share.sequence ∧
        ∃ v : State, t.share.ownClaim = some v.claimNow ∧ t.share.sequence = v.claimNow.sequence ∧
          t.line.outbox.claim = some ⟨v.claimNow.payload, 0⟩ ∧ v.phase = .topped ∧
          v.stand = s.stand ∧ v.settings = s.settings ∧ v.share.allotment = s.share.allotment ∧
          (v.thermal = s.thermal ∨ v.thermal = t.thermal) ∧ v.meter.roundCount = t.meter.roundCount ∧
          ∀ x, s.session = some x → ∃ y, v.session = some y ∧ y = { x with phase := .topped, holds := y.holds }) ∧
      (s.share.postSlice ≠ some (s.timer.sliceIndex + 1) → t.phase = s.phase →
        t.share.ownClaim = u.share.ownClaim ∧ t.share.sequence = u.share.sequence ∧
        t.line.outbox.claim = u.line.outbox.claim) ∧
      (s.timer.sliceIndex = 1 →
        (∀ a, s.line.sender = .sending a → a.slot = .mark →
          t.line.sender = .sending { a with noRetry := true } ∧
          t.line.outbox.mark = if a.replaced then none else s.line.outbox.mark) ∧
        ((∀ a, s.line.sender = .sending a → a.slot ≠ .mark) → t.line.outbox.mark = none)) ∧
      (s.timer.sliceIndex ≠ 1 → t.line.outbox.mark = s.line.outbox.mark) ∧
      t.line.outbox.reply = s.line.outbox.reply ∧
      (t.line.prng = u.line.prng ∨ (t.line.prng = prngNext u.line.prng ∧
        t.line.sender = .waiting (prngValue 16 (prngNext u.line.prng)) 0)) ∧
      (u.line.sender = .idle → t.share.sequence ≠ u.share.sequence → t.line.prng = prngNext u.line.prng)) ∧
  (∀ s : State, s.timer.running = true → ∃ t, s.takeStarts = t ∧
      t.stage.startOwed = false ∧ t.share.postOwed = false ∧
      (s.stage.startOwed = false → t.stage = s.stage ∧ t.out = s.out) ∧
      (s.stage.startOwed = true →
        t.stage.enable = s.stage.enable ∧ t.stage.cap = s.stage.cap ∧ t.stage.lagSlice = s.stage.lagSlice ∧
        t.stage.wordSent = (if s.stage.cap then 0 else t.stage.applied) ∧
        t.out = { s.out with stage := s.out.stage ++ [t.stage.wordSent] } ∧
        (t.stage.sliceDriven = true ↔ t.stage.enable = true ∧ 0 < t.stage.wordSent) ∧
        (∀ p, s.stage.pendingIncrease = some p → s.stage.lagSlice = some s.timer.sliceIndex →
          t.stage.pendingIncrease = none ∧ t.stage.applied = min p s.thermal.mEff) ∧
        (s.stage.pendingIncrease = none ∨ s.stage.lagSlice ≠ some s.timer.sliceIndex →
          t.stage.pendingIncrease = s.stage.pendingIncrease ∧ t.stage.applied = s.stage.applied)) ∧
      (s.share.postOwed = false → t.share = s.share ∧ t.line = s.line) ∧
      (s.share.postOwed = true → s.share.postSlice = some s.timer.sliceIndex → s.onLine = true →
        t.share = { s.share with ownClaim := some s.claimNow, sequence := s.claimNow.sequence, postOwed := false } ∧
        s.line.Places t.line .claim s.claimNow.payload) ∧
      t = { s with stage := t.stage, share := t.share, line := t.line, out := t.out })

/-- A slice end of either kind makes a thermal scan and the level test of PERMIT: readings, sensor faults, the hot
value, the derating indicator and M_eff; THERMAL put in at Te, taken out at Te − 5, kept between; PERMIT put in where
the input is low; DRIVER untouched. The levels scanned are those of the pins as State holds them (log 6). -/
def Obligations.SliceEndScan : Prop :=
  ∀ (s : State) (temps : Temps) (c : Instr), s.timer.running = true →
    (c = .sliceExpiry temps ∧ s.timer.sliceIndex + 1 < s.cfg.roundDiv) ∨
      (c = .naturalRoundEnd temps ∧ s.cfg.roundDiv ≤ s.timer.sliceIndex + 1) →
    ∃ t h, exec c s = .next t ∧
      t.thermal.ch0.Converts temps.connector ∧ t.thermal.ch1.Converts temps.cable ∧
      t.thermal.ch2.Converts temps.heatSink ∧
      t.thermal.hot = some h ∧
      IsLargest h (countedTemp s.cfg.derateEnd temps.connector) (countedTemp s.cfg.derateEnd temps.cable)
        (countedTemp s.cfg.derateEnd temps.heatSink) ∧
      (t.thermal.derating = true ↔ (s.cfg.derateStart : Int) < h) ∧
      t.thermal.mEff = t.formedMEff ∧
      ∀ x, s.session = some x → ∃ y, t.session = some y ∧
        ((s.cfg.derateEnd : Int) ≤ h → y.holds.thermal = true) ∧
        (h + 5 ≤ s.cfg.derateEnd → y.holds.thermal = false) ∧
        (h < s.cfg.derateEnd → (s.cfg.derateEnd : Int) < h + 5 → y.holds.thermal = x.holds.thermal) ∧
        y.holds.permit = (x.holds.permit || !s.pins.permit) ∧
        y.holds.driver = x.holds.driver

/-- The applied power at a slice end that keeps draw permission: at the lag slice a pending increase is taken, held to
M_eff before or after the scan of the same moment, unless the start of slice 2 is left owed (MODEL'S CHOICE, log 31);
at any other slice end, and with no increase pending, the power is clamped to the new M_eff. Without draw permission after a session's change the power is
0.
A round end (R114), from a state with no power applied without permission (as DrawKept keeps it): 0 without draw
permission; otherwise at most the allotment and M_eff, a decrease at once, and an increase left to wait for a lag
slice of 1 or more. The round's slice 0 is driven so far where ENABLE is on and the word sent, the applied power, is above
0 (R121). -/
def Obligations.AppliedPower : Prop :=
  (∀ (s : State) (temps : Temps), s.timer.running = true → s.timer.sliceIndex + 1 < s.cfg.roundDiv →
      ∃ t u, exec (.sliceExpiry temps) s = .next t ∧ u = s.takeStarts ∧
        (t.permission = true → ∀ p, u.stage.pendingIncrease = some p →
          s.stage.lagSlice = some (s.timer.sliceIndex + 1) → t.stage.startOwed = false →
          t.stage.pendingIncrease = none ∧
          (t.stage.applied = min p t.thermal.mEff ∨
            t.stage.applied = min (min p s.thermal.mEff) t.thermal.mEff)) ∧
        (t.permission = true → s.stage.lagSlice ≠ some (s.timer.sliceIndex + 1) ∨ t.stage.startOwed = true ∨
            u.stage.pendingIncrease = none →
          t.stage.pendingIncrease = u.stage.pendingIncrease ∧
          t.stage.applied = min u.stage.applied t.thermal.mEff) ∧
        (s.permission = true → t.permission = false →
          t.stage.applied = 0 ∧ t.stage.pendingIncrease = none ∧ t.stage.enable = false)) ∧
  (∀ (s : State) (temps : Temps), s.timer.running = true → s.cfg.roundDiv ≤ s.timer.sliceIndex + 1 →
      (s.permission = false → s.stage.applied = 0) →
      ∃ t p, exec (.naturalRoundEnd temps) s = .next t ∧ p = t.share.allotment ∧
        t.stage.enable = t.permission ∧ t.stage.wordSent = t.stage.applied ∧
        (t.stage.sliceDriven = true ↔ t.stage.enable = true ∧ 0 < t.stage.wordSent) ∧
        (t.permission = false → t.stage.applied = 0 ∧ t.stage.pendingIncrease = none) ∧
        (t.permission = true →
          t.stage.applied ≤ p ∧ t.stage.applied ≤ t.thermal.mEff ∧
          (s.stage.applied < p → s.stage.lagSlice ≠ some 0 →
            t.stage.pendingIncrease = some p ∧ t.stage.applied = min s.stage.applied t.thermal.mEff) ∧
          (s.stage.applied < p → s.stage.lagSlice = some 0 →
            t.stage.pendingIncrease = none ∧
            (t.stage.applied = min p t.thermal.mEff ∨ t.stage.applied = min (min p s.thermal.mEff) t.thermal.mEff)) ∧
          (p ≤ s.stage.applied → p ≤ s.thermal.mEff → p ≤ t.thermal.mEff →
            t.stage.pendingIncrease = none ∧ t.stage.applied = p)))

/-! ### The share computation -/

/-- NATURAL_ROUND_END: slice 0 of the next round; meter counter, peer table, override and notice table as their rules
give; the own MARK placed where the aligned indicator is set; a PHASE record for each change of phase or hold reasons
(R74); nothing else touched.
The outbox (R158): a CLAIM that waits leaves its slot, counted unposted; one on the line stays there and is not retried.
The generator (R163): one advance for the post slice, drawn in 1..B−3, and one for each backoff drawn by a frame placed
with the sender IDLE, in an order left open (log 4).
The claim (R59): a change of standing, and a passage to TOPPED or FAULT, re-forms it with the new allotment, from the
session before or after its own round-end work; a passage to HELD re-forms it with q = 0; with none of these it
stands: a passage to ATTACHED, CHARGING, DEFERRED or PRECONDITION re-forms none. -/
def Obligations.NaturalRoundEnd : Prop :=
  ∀ (s : State) (temps : Temps), s.timer.running = true → s.cfg.roundDiv ≤ s.timer.sliceIndex + 1 →
    ∃ t, exec (.naturalRoundEnd temps) s = .next t ∧
      t.timer = { s.timer with
        sliceCounter := 0, sliceIndex := 0, roundCount := (s.timer.roundCount + 1) % 65536
        aligned := s.timer.aligned || (s.stand.standing == .listening &&
          (t.stand.standing == .joined || t.stand.standing == .isolated)) } ∧
      t.meter =
        { sliceCount := 0, roundCount := 0
          holdCount := min 65535 (s.meter.roundCount + s.meter.sliceCount)
          ceiling := some (t.share.allotment * (s.cfg.sliceDiv * s.cfg.roundDiv) * s.cfg.ppk * s.cfg.edges * 9 /
            288000000 + 2)
          capped := false, allDriven := true } ∧
      t.peers =
        { entries := keptEntries s.timer.roundCount s.peers.entries
          dHanded := presumedDraws s.pool.lone s.timer.roundCount (keptEntries s.timer.roundCount s.peers.entries)
          claimantsHanded := (tableClaimants s.pool.lone s.timer.roundCount
            (keptEntries s.timer.roundCount s.peers.entries)).length } ∧
      t.notices.override = (match s.notices.override with
        | none => none
        | some o => if o.rounds ≤ 1 then none else some { o with rounds := o.rounds - 1 }) ∧
      t.notices.table = (match s.timer.clock with
        | none => s.notices.table
        | some now => s.notices.table.filter fun e => decide ((e.departure + 86400 - now) % 86400 ≤ 72000)) ∧
      (t.timer.aligned = true → t.line.outbox.mark = some ⟨[], 0⟩) ∧
      (t.timer.aligned = false → t.line.outbox.mark = s.line.outbox.mark) ∧
      t.line.outbox.reply = s.line.outbox.reply ∧
      (∃ rs, s.ReportsChanges t rs) ∧
      t.line.counters = { s.line.counters with claimsUnposted := t.line.counters.claimsUnposted } ∧
      (s.ClaimWaits → t.line.counters.claimsUnposted = min 65535 (s.line.counters.claimsUnposted + 1) ∧
        (t.share.sequence = s.share.sequence → t.line.outbox.claim = none)) ∧
      (¬ s.ClaimWaits → ¬ s.EntersHeld t → t.line.counters = s.line.counters) ∧
      (¬ s.ClaimWaits → t.share.sequence = s.share.sequence →
        t.line.counters = s.line.counters ∧ t.line.outbox.claim = s.line.outbox.claim) ∧
      (∃ p j k, t.share.postSlice = some p ∧ p = 1 + prngValue (s.cfg.roundDiv - 3) (prngAfter j s.line.prng) ∧
        1 ≤ j ∧ j ≤ k ∧ k ≤ 3 ∧ t.line.prng = prngAfter k s.line.prng ∧
        (8 ≤ s.cfg.roundDiv → 1 ≤ p ∧ p + 3 ≤ s.cfg.roundDiv) ∧
        (∀ a, s.line.sender = .sending a → k = 1 ∧ t.line.sender = .sending { a with
          noRetry := a.noRetry || decide (a.slot = .claim)
          replaced := a.replaced || (decide (a.slot = .mark) && t.timer.aligned) ||
            (decide (a.slot = .claim) && decide (t.share.sequence ≠ s.share.sequence)) }) ∧
        (s.line.sender = .idle → (k = 1 ↔ t.timer.aligned = false ∧ t.share.sequence = s.share.sequence)) ∧
        (∀ b w, s.line.sender = .waiting b w →
          (s.line.outbox.mark ≠ none ∨ s.line.outbox.reply ≠ none → k = 1 ∧ t.line.sender = .waiting b w) ∧
          (t.timer.aligned = false → t.share.sequence = s.share.sequence → k = 1)) ∧
        (s.isSending = false → t.line.sender = .idle ∨ t.line.sender = s.line.sender ∨
          ∃ i, 1 ≤ i ∧ i ≤ k ∧ i ≠ j ∧ t.line.sender = .waiting (prngValue 16 (prngAfter i s.line.prng)) 0)) ∧
      (t.share.sequence = s.share.sequence ∨ ∃ n, 1 ≤ n ∧ n ≤ 3 ∧ t.share.sequence = (s.share.sequence + n) % 256) ∧
      (t.stand.standing = s.stand.standing →
        (t.phase = .attached ∨ t.phase = .charging ∨ t.phase = .deferred ∨ t.phase = .precondition) ∨
          (t.phase = s.phase ∧ t.holds.thermal = s.holds.thermal ∧ t.holds.permit = s.holds.permit) →
        t.share.ownClaim = s.share.ownClaim ∧ t.share.sequence = s.share.sequence) ∧
      (s.onLine = true → t.phase = .held → s.phase ≠ .held →
        ∃ c, t.share.ownClaim = some c ∧ c.phase = .held ∧ c.q = 0 ∧ t.share.sequence ≠ s.share.sequence) ∧
      (s.onLine = true → t.stand.standing ≠ s.stand.standing ∨ (t.phase ≠ s.phase ∧ (t.phase = .topped ∨ t.phase = .fault)) →
        t.share.sequence ≠ s.share.sequence ∧ ∃ v : State, t.share.ownClaim = some v.claimNow ∧ t.share.sequence = v.claimNow.sequence ∧
          t.line.outbox.claim = some ⟨v.claimNow.payload, 0⟩ ∧
          v.stand = t.stand ∧ v.settings = s.settings ∧ v.share.allotment = t.share.allotment ∧
          (v.thermal = s.thermal ∨ v.thermal = t.thermal) ∧
          (v.meter.roundCount = t.meter.holdCount ∨ v.meter.roundCount = 0) ∧
          (t.phase ≠ s.phase → t.phase = .topped ∨ t.phase = .fault → v.phase = t.phase) ∧
          (s.session = none → v.session = none) ∧
          ∀ x y, s.session = some x → t.session = some y → ∃ z, v.session = some z ∧
            (z = { x with phase := z.phase, holds := z.holds } ∨ z = { y with phase := z.phase, holds := z.holds }) ∧
            (z.phase = x.phase ∨ z.phase = y.phase ∨ (z.phase = .held ∧ s.EntersHeld t)) ∧
            ∀ r, z.holds.has r = x.holds.has r ∨ z.holds.has r = y.holds.has r) ∧
      t.stage.startOwed = false ∧ t.share.postOwed = false ∧ t.stage.cap = false ∧ t.stage.lagSlice = s.stage.lagSlice ∧
      (∃ ws, ws.getLast? = some t.stage.wordSent ∧ t.out.stage = s.out.stage ++ ws) ∧ t.out.line = s.out.line ∧
      t = { s with
        pins := { s.pins with temps := temps }, timer := t.timer, stand := t.stand, peers := t.peers
        share := t.share, session := t.session, notices := t.notices, stage := t.stage, meter := t.meter
        thermal := t.thermal, line := t.line, out := t.out, choices := t.choices, freeCount := t.freeCount }

/-- The standing at a round end is that of R24 to R28 and R33 from the round's items, where an own CLAIM waiting in
the outbox (R158), one that entry to HELD at the same moment has just placed included, is reported unsent first, and a
CLAIM on the line is not.
The rows follow: R24 (silent), R25 (LISTENING), R26 (JOINED), R27 (ISOLATED), R28 (REJOINING), R29 (CUTOFF), R33 (bay
clash). -/
def Obligations.RoundEndStanding : Prop :=
  (∀ (s : State) (temps : Temps), s.timer.running = true → s.cfg.roundDiv ≤ s.timer.sliceIndex + 1 →
      ∃ t r, exec (.naturalRoundEnd temps) s = .next t ∧
        t.stand = ({ s.stand with claimRecord := r } : StandingUnit).roundEnd s.cfg.n ∧
        (r = s.stand.claimRecord ∨ (r = .unsent ∧ s.stand.claimRecord = .nothing)) ∧
        (s.ClaimWaits → s.stand.claimRecord = .nothing → r = .unsent) ∧
        (r ≠ s.stand.claimRecord → s.ClaimWaits ∨ s.EntersHeld t)) ∧
  (∀ (n : Nat) (u : StandingUnit), ∃ v, u.roundEnd n = v ∧
      (u.silent n = true ↔ 2 ≤ n ∧ (u.roundHeard = false ∨ u.claimRecord = .unsent)) ∧
      v.roundHeard = false ∧ v.claimRecord = .nothing ∧ v.roundClash = false ∧
      (u.standing = .listening →
        (u.listenCount = 0 → v.standing = .listening ∧ v.listenCount = 1 ∧ v.listenHeard = u.listenHeard ∧
          v.listenPosted = u.listenPosted) ∧
        (1 ≤ u.listenCount → v.listenCount = 0 ∧ v.listenHeard = false ∧ v.listenPosted = false ∧
          (2 ≤ n → u.listenPosted = false → v.standing = .listening) ∧
          (n = 1 ∨ (u.listenPosted = true ∧ u.listenHeard = true) → v.standing = .joined ∧ v.silentStreak = 0) ∧
          (2 ≤ n → u.listenPosted = true → u.listenHeard = false →
            v.standing = .isolated ∧ v.silentStreak = 0 ∧ v.rejoinCount = 0 ∧ v.isolationCount = 0))) ∧
      (u.standing = .joined →
        (u.silent n = false → v.standing = .joined ∧ v.silentStreak = 0) ∧
        (u.silent n = true → u.silentStreak + 1 < 3 → v.standing = .joined ∧ v.silentStreak = u.silentStreak + 1) ∧
        (u.silent n = true → 3 ≤ u.silentStreak + 1 →
          v.standing = .isolated ∧ v.silentStreak = 0 ∧ v.rejoinCount = 0 ∧ v.isolationCount = 0)) ∧
      (u.standing = .isolated →
        v.isolationCount = min 18 (u.isolationCount + 1) ∧
        (u.isolationCount + 1 < 18 → v.standing = .isolated) ∧ (18 ≤ u.isolationCount + 1 → v.standing = .cutoff)) ∧
      (u.standing = .rejoining →
        (u.silent n = true → 18 ≤ u.isolationCount + 1 →
          v.standing = .cutoff ∧ v.isolationCount = 18 ∧ v.silentStreak = u.silentStreak + 1 ∧ v.rejoinCount = 0) ∧
        (u.silent n = true → u.isolationCount + 1 < 18 → v.isolationCount = u.isolationCount + 1 ∧ v.rejoinCount = 0 ∧
          (3 ≤ u.silentStreak + 1 → v.standing = .isolated ∧ v.silentStreak = 0) ∧
          (u.silentStreak + 1 < 3 → v.standing = .rejoining ∧ v.silentStreak = u.silentStreak + 1)) ∧
        (u.silent n = false → v.silentStreak = 0 ∧
          (1 ≤ u.rejoinCount → v.standing = .joined ∧ v.rejoinCount = 0 ∧ v.isolationCount = 0) ∧
          (u.rejoinCount = 0 →
            v.standing = .rejoining ∧ v.rejoinCount = 1 ∧ v.isolationCount = min 18 (u.isolationCount + 1)))) ∧
      (u.standing = .cutoff → v.standing = .cutoff ∧ v.silentStreak = u.silentStreak ∧
        v.rejoinCount = u.rejoinCount ∧ v.isolationCount = u.isolationCount) ∧
      (u.roundClash = true → v.bayClash = u.bayClash ∧ v.clashClear = 0) ∧
      (u.roundClash = false → u.bayClash = true → u.clashClear + 1 < 3 →
        v.bayClash = true ∧ v.clashClear = u.clashClear + 1) ∧
      (u.roundClash = false → u.bayClash = true → 3 ≤ u.clashClear + 1 → v.bayClash = false ∧ v.clashClear = 0) ∧
      (u.roundClash = false → u.bayClash = false → v.bayClash = false ∧ v.clashClear = u.clashClear))

/-- The own allotment a round end chooses, by the standing and the bay-clash flag after their round-end work and by the
own claim record: the record as it stood, or, where a THERMAL or PERMIT reason new at this event took the session to
HELD, the claim with q = 0 that this entry re-formed.
JOINED with own q above 0 (R53, R66): the own bay's grant among the table's claimants and the self claimant out of
U − D, held to the lone share S in a bay clash; without one 0. ISOLATED and REJOINING (R31): min(M_eff, S) where the own
q is above 0 and F ≤ S, and 0 otherwise. LISTENING and CUTOFF: 0. -/
def Obligations.RoundEndAllotment : Prop :=
  ∀ (s : State) (temps : Temps), s.timer.running = true → s.cfg.roundDiv ≤ s.timer.sliceIndex + 1 →
    ∃ t own, exec (.naturalRoundEnd temps) s = .next t ∧
      (own = s.share.ownClaim ∨ (s.EntersHeld t ∧ ∃ c, own = some c ∧ c.phase = .held ∧ c.q = 0)) ∧
      (t.stand.standing = .joined → ∀ c, own = some c → 0 < c.q → ∃ (self : Claimant) (gs : List Grant) (p : Nat),
        self = ⟨s.cfg.bay, c.q, c.mEff, c.f, c.k⟩ ∧
        gs = grants (s.pool.usable - t.peers.dHanded)
          (deadlineOrder (tableClaimants s.pool.lone s.timer.roundCount t.peers.entries ++ [self])) ∧
        ((∀ e ∈ t.peers.entries, e.bay ≠ s.cfg.bay) → ⟨self, p⟩ ∈ gs) ∧
        p = grantOf s.cfg.bay gs ∧
        t.share.allotment = if t.stand.bayClash then min p s.pool.lone else p) ∧
      (t.stand.standing = .joined → (∀ c, own = some c → c.q = 0) → t.share.allotment = 0) ∧
      (t.stand.standing = .isolated ∨ t.stand.standing = .rejoining →
        (own = none → t.share.allotment = 0) ∧
        ∀ c, own = some c → t.share.allotment =
          if 0 < c.q ∧ c.f ≤ s.pool.lone then min c.mEff s.pool.lone else 0) ∧
      (t.stand.standing = .listening ∨ t.stand.standing = .cutoff → t.share.allotment = 0) ∧
      (t.stand.standing = .joined → t.share.allotment ≤ s.pool.usable - t.peers.dHanded) ∧
      (t.stand.standing = .joined → t.stand.bayClash = true → t.share.allotment ≤ s.pool.lone)

/-- The session's round-end work: the ending round's counts credited, the overdraw streak and the silence finding
applied (a third silence finding is a FAULT with reason METER), and the phase decided by R89 unless in FAULT. A scan
or a level test of the same moment taken after the decision may put the phase at HELD.
The table of R89 follows, its first case that holds. -/
def Obligations.RoundEndSession : Prop :=
  (∀ (s : State) (temps : Temps), s.timer.running = true → s.cfg.roundDiv ≤ s.timer.sliceIndex + 1 →
      ∃ t counts, exec (.naturalRoundEnd temps) s = .next t ∧
        counts = min 65535 (s.meter.roundCount + s.meter.sliceCount) ∧
        (s.session = none → t.session = none) ∧
        ∀ x, s.session = some x → ∃ (y : Session) (capped silent : Bool), t.session = some y ∧
          (capped = true ↔ s.meter.capped = true ∨ ∃ c, s.meter.ceiling = some c ∧ c < counts) ∧
          (silent = true ↔ s.meter.allDriven = true ∧ s.stage.sliceDriven = true ∧ counts = 0) ∧
          y.delivered = min 4294967295 (x.delivered + (counts - (if x.openedThisRound then x.opening else 0))) ∧
          y.openedThisRound = false ∧
          y.overdrawStreak = (if capped then min 3 (x.overdrawStreak + 1) else 0) ∧
          y.meterHolds = (if silent ∧ x.meterHolds ≤ 2 then x.meterHolds + 1 else x.meterHolds) ∧
          y.meterRoundsLeft = (if silent ∧ x.meterHolds < 2 then 6 else x.meterRoundsLeft - 1) ∧
          y.holds.meter = (if silent ∧ x.meterHolds < 2 then true
            else if x.meterRoundsLeft = 1 then false else x.holds.meter) ∧
          (y.phase = .fault ↔ x.phase = .fault ∨ y.overdrawStreak = 3 ∨ (silent = true ∧ x.meterHolds = 2)) ∧
          (x.phase ≠ .fault → y.overdrawStreak = 3 → y.faultReason = some .overdraw) ∧
          (x.phase ≠ .fault → y.overdrawStreak ≠ 3 → silent = true → x.meterHolds = 2 →
            y.faultReason = some .meter) ∧
          (x.phase = .fault → y.faultReason = x.faultReason) ∧
          (y.phase ≠ .fault → y.faultReason = x.faultReason ∧
            (y.phase = .held ∨ y.phase =
              decidedPhase y.holds t.stand.standing (t.remaining y) y.preWindow t.share.allotment)) ∧
          (y.phase = .held → y.holds.isEmpty = false ∨ x.holds.thermal = true) ∧
          y = { x with
            phase := y.phase, delivered := y.delivered, holds := y.holds, meterHolds := y.meterHolds
            meterRoundsLeft := y.meterRoundsLeft, overdrawStreak := y.overdrawStreak, faultReason := y.faultReason
            openedThisRound := false }) ∧
  (∀ (h : HoldSet) (standing : Standing) (e p : Nat) (x : Session),
      (x.preWindow = true ↔ 0 < x.precondPower ∧ 0 < x.departure ∧ x.departure ≤ x.precondTime) ∧
      (h.isEmpty = true ↔ h.driver = false ∧ h.permit = false ∧ h.thermal = false ∧ h.meter = false) ∧
      (h.isEmpty = false → decidedPhase h standing e x.preWindow p = .held) ∧
      (h.isEmpty = true → (standing = .listening ∨ standing = .cutoff →
        decidedPhase h standing e x.preWindow p = .attached) ∧
       (standing ≠ .listening → standing ≠ .cutoff →
        (e = 0 → x.preWindow = false → decidedPhase h standing e x.preWindow p = .topped) ∧
        (x.preWindow = true → decidedPhase h standing e x.preWindow p = .precondition) ∧
        (0 < e → x.preWindow = false → 0 < p → decidedPhase h standing e x.preWindow p = .charging) ∧
        (0 < e → x.preWindow = false → p = 0 → decidedPhase h standing e x.preWindow p = .deferred))))

/-- The pool of a round end (R51, R52): L is the feeder limit, or the lower override value while one runs; the reserve
is L × R / 100 rounded up; U is L less the reserve; S is U / N rounded down. -/
def Obligations.PoolFigures : Prop :=
  ∀ s : State,
    s.pool.limit = (match s.notices.override with
      | none => s.cfg.feederLimit
      | some o => min s.cfg.feederLimit o.value) ∧
    s.pool.limit * s.cfg.reserve ≤ 100 * s.pool.reserve ∧
    100 * s.pool.reserve < s.pool.limit * s.cfg.reserve + 100 ∧
    s.pool.usable = s.pool.limit - s.pool.reserve ∧
    s.pool.lone = s.pool.usable / s.cfg.n ∧
    (s.cfg.feederLimit ≤ 65000 → s.cfg.reserve ≤ 25 →
      s.pool.reserve ≤ 16250 ∧ s.pool.usable ≤ 65000 ∧ s.pool.lone ≤ 65000)

/-- The ageing of a peer entry at a round end; what an entry of each state gives the computation (R43, R44, R45); and
what the table hands over (R43, R46): the entries whose missed has not reached 24 stay, D is the sum of the presumed
draws, and the claimant list has one claimant for each entry that is one, in the order of the table. -/
def Obligations.EntryAgeAndRoles : Prop :=
  (∀ (e : PeerEntry) (round : Nat), e.lastHeard < 65536 → round < 65536 →
      (e.missed round : Int) = ((round : Int) - e.lastHeard) % 65536 ∧
      (e.lastHeard = round → e.missed round = 0) ∧
      (entryState (e.missed round) = .fresh ↔ e.missed round = 0) ∧
      (entryState (e.missed round) = .quiet ↔ 1 ≤ e.missed round ∧ e.missed round ≤ 3) ∧
      (entryState (e.missed round) = .lost ↔ 4 ≤ e.missed round ∧ e.missed round ≤ 23) ∧
      (entryState (e.missed round) = .removed ↔ 24 ≤ e.missed round)) ∧
  (∀ (e : PeerEntry) (lone round : Nat),
      (e.missed round = 0 →
        ((e.standing = .joined ∨ e.standing = .listening) → 0 < e.q → e.role lone round = .claimant) ∧
        ((e.standing = .joined ∨ e.standing = .listening) → e.q = 0 → e.role lone round = .nothing) ∧
        (e.standing = .isolated ∨ e.standing = .rejoining → e.role lone round = .presumed e.pEff) ∧
        (e.standing = .cutoff → e.role lone round = .nothing)) ∧
      (1 ≤ e.missed round → e.missed round ≤ 3 → e.role lone round = .presumed e.pEff) ∧
      (4 ≤ e.missed round → e.missed round ≤ 23 → e.role lone round = .presumed lone) ∧
      (24 ≤ e.missed round → e.role lone round = .nothing)) ∧
  (∀ (lone round : Nat) (es : List PeerEntry),
      keptEntries round es = (es.filter fun e => decide (e.missed round < 24)) ∧
      presumedDraws lone round es = (es.map fun e => match e.role lone round with
        | .presumed p => p
        | .claimant => 0
        | .nothing => 0).sum ∧
      tableClaimants lone round es =
        (es.filter fun e => decide (e.role lone round = .claimant)).map fun e => ⟨e.bay, e.q, e.m, e.f, e.k⟩)

/-- R62: the list the passes run over holds exactly the peer claimants and the self claimant, sorted by K, and by bay among
equals; the self claimant is there in JOINED and LISTENING with an own claim whose q is above 0 (R53). R63: Pass 1 takes them one by one, and each grant is subtracted from what remains. -/
def Obligations.DeadlineOrderAndPassOne : Prop :=
  ((∀ cs : List Claimant, (deadlineOrder cs).Perm cs ∧
      (deadlineOrder cs).Pairwise fun a b => a.k < b.k ∨ (a.k = b.k ∧ a.bay ≤ b.bay)) ∧
    ∀ (s : State) (lone : Nat),
      s.claimants lone =
        deadlineOrder (tableClaimants lone s.timer.roundCount s.peers.entries ++ s.selfClaimant.toList) ∧
      (∀ d, s.selfClaimant = some d ↔ (s.stand.standing = .joined ∨ s.stand.standing = .listening) ∧
        ∃ c, s.share.ownClaim = some c ∧ 0 < c.q ∧ d = ⟨s.cfg.bay, c.q, c.mEff, c.f, c.k⟩)) ∧
  (∀ rem : Nat, pass1 rem [] = ([], rem) ∧
      ∀ (c : Claimant) (l : List Claimant), ∃ g, g ≤ rem ∧
        (c.q ≤ rem → g = c.q) ∧ (rem < c.q → c.f ≤ rem → g = rem) ∧ (rem < c.q → rem < c.f → g = 0) ∧
        pass1 rem (c :: l) = (⟨c, g⟩ :: (pass1 (rem - g) l).1, (pass1 (rem - g) l).2))

/-- SAFETY OF THE FEEDER (R64, R65). The grants of claimants whose claims are well formed, together with the presumed draws,
stay within U, or within the presumed draws alone where these exceed U; each nonzero grant lies between the claimant's F
and M; and no power is left ungranted while a claimant that received a grant could take more.
Pass 2 (R64) goes on from Pass 1. With k open claimants and at least k of power each open claimant receives the equal
share, or its headroom if that is less; with less than k one step each, in deadline order, until none remains. -/
def Obligations.GrantsFitAndUseAll : Prop :=
  (∀ (u d : Nat) (cs : List Claimant), (∀ c ∈ cs, c.q ≤ c.m ∧ (0 < c.q → c.f ≤ c.q)) →
      (grants (u - d) cs).map Grant.who = cs ∧
      ((grants (u - d) cs).map Grant.power).sum + d ≤ max u d ∧
      ∀ g ∈ grants (u - d) cs, 0 < g.power → g.who.f ≤ g.power ∧ g.power ≤ g.who.m) ∧
  (∀ (available : Nat) (cs : List Claimant), (∀ c ∈ cs, c.q ≤ c.m ∧ (0 < c.q → c.f ≤ c.q)) →
      ((grants available cs).map Grant.power).sum = available ∨
        ∀ g ∈ grants available cs, 0 < g.power → g.power = g.who.m) ∧
  (∀ (available : Nat) (cs : List Claimant),
      grants available cs = pass2 (cs.length + 1) (pass1 available cs).2 (pass1 available cs).1) ∧
  (∀ (reps rem k : Nat) (gs : List Grant),
      k = (gs.filter fun g => decide (0 < g.power ∧ g.power < g.who.m)).length →
      (k = 0 ∨ rem = 0 → pass2 (reps + 1) rem gs = gs) ∧
      (0 < k → k ≤ rem → ∃ (added : Grant → Nat) (more : List Grant),
        (∀ g, added g = if 0 < g.power ∧ g.power < g.who.m then min (rem / k) (g.who.m - g.power) else 0) ∧
        more = gs.map (fun g => ⟨g.who, g.power + added g⟩) ∧
        pass2 (reps + 1) rem gs = pass2 reps (rem - (gs.map added).sum) more) ∧
      (0 < rem → rem < k → pass2 (reps + 1) rem gs = oneStepEach rem gs)) ∧
  (∀ (rem : Nat) (g : Grant) (l : List Grant),
      oneStepEach rem [] = [] ∧
      (0 < rem → 0 < g.power → g.power < g.who.m →
        oneStepEach rem (g :: l) = ⟨g.who, g.power + 1⟩ :: oneStepEach (rem - 1) l) ∧
      (rem = 0 ∨ g.power = 0 ∨ g.who.m ≤ g.power → oneStepEach rem (g :: l) = g :: oneStepEach rem l))

/-- The energy of a session (R85, R86): watt-hours are counts × 1000 / (ppk × edges) rounded down; the running delivered
counts are the credited counts and the round's, less the opening count of a session opened in the round; E is the target
less the delivered energy, not below 0, and is what a claim asks for, in PRECONDITION too (MODEL'S READING of R94, log 33).
FREE VALUE (log 30): in TOPPED, while the running delivered energy is at the target, a claim asks for E or for no energy.
The fields of a claim formed (R58): those of the state at its formation, all of the session's 0 in VACANT, the sequence
one on.
The required power (R55, R56) of a claim formed with a session open that is neither in FAULT nor held, from its energy E
and its countdown T; with either, 0. -/
def Obligations.RequiredPower : Prop :=
  (∀ a b : Nat, 0 < b → a ≤ b * ceilDiv a b ∧ b * ceilDiv a b < a + b) ∧
  (∀ (s : State) (x : Session) (counts running : Nat),
      s.whOf counts = counts * 1000 / (s.cfg.ppk * s.cfg.edges) ∧
      (running = x.delivered + s.meter.roundCount - (if x.openedThisRound then x.opening else 0) →
        s.runningWh x = s.whOf running ∧
        (x.phase = .topped → x.target ≤ s.whOf running → s.claimEnergy x = 0 ∨ s.claimEnergy x = s.remaining x) ∧
        (x.phase ≠ .topped ∨ s.whOf running < x.target → s.claimEnergy x = s.remaining x)) ∧
      s.remaining x = x.target - s.whOf x.delivered) ∧
  (∀ (s : State) (c : Claim), s.claimNow = c →
      c.standing = s.stand.standing ∧ c.phase = s.phase ∧ c.pEff = s.share.allotment ∧
      c.thermal = s.thermal.derating ∧ c.clash = s.stand.bayClash ∧
      c.sequence = (s.share.sequence + 1) % 256 ∧
      (c.hold = true ↔
        c.reasons.driver = true ∨ c.reasons.permit = true ∨ c.reasons.thermal = true ∨ c.reasons.meter = true) ∧
      (s.session = none → c.phase = .vacant ∧ c.q = 0 ∧ c.mEff = 0 ∧ c.f = 0 ∧ c.k = 0 ∧ c.reasons = {}) ∧
      ∀ x, s.session = some x → c.phase = x.phase ∧ c.mEff = s.thermal.mEff ∧ c.f = x.floor ∧
        c.k = min x.departure 65535 ∧ c.reasons = x.holds ∧ (x.phase = .fault ∨ c.hold = true → c.q = 0)) ∧
  ∀ (s : State) (x : Session), s.session = some x → x.phase ≠ .vacant → x.phase ≠ .fault → x.holds.isEmpty = true →
    ∃ (q0 q1 e : Nat), e = s.claimEnergy x ∧
      (x.phase = .precondition ∨ x.preWindow = true →
        q0 = x.precondPower + ceilDiv (e * 36) (max x.departure 600)) ∧
      (x.phase ≠ .precondition → x.preWindow = false →
        (x.departure = 0 → q0 = ceilDiv (e * 36) 600) ∧
        (0 < x.departure → e = 0 → q0 = 0) ∧
        (0 < x.departure → 0 < e → 0 < x.precondPower →
          q0 = ceilDiv (e * 36) (max (x.departure - x.precondTime) 600)) ∧
        (0 < x.departure → 0 < e → x.precondPower = 0 →
          q0 = ceilDiv (e * 36) (max x.departure 600))) ∧
      q1 = min q0 s.thermal.mEff ∧
      (s.thermal.mEff = 0 → s.claimNow.q = 0) ∧
      (0 < s.thermal.mEff → 0 < q1 → q1 < x.floor → s.claimNow.q = x.floor) ∧
      (0 < s.thermal.mEff → q1 = 0 ∨ x.floor ≤ q1 → s.claimNow.q = q1) ∧
      (s.thermal.mEff = 0 ∨ x.floor ≤ s.thermal.mEff →
        s.claimNow.q ≤ s.thermal.mEff ∧ (0 < s.claimNow.q → x.floor ≤ s.claimNow.q))

/-- R144, with M_eff of R145: the derated max power of a session from the hot value of the last scan; 0 with no session
or before the first scan. -/
def Obligations.DeratedMax : Prop :=
  ∀ s : State, (s.session = none ∨ s.thermal.hot = none → s.formedMEff = 0) ∧
    ∀ (x : Session) (h : Int) (m0 : Nat), s.session = some x → s.thermal.hot = some h →
      m0 = min x.vanMax s.cfg.stageRating →
      ∃ md : Nat,
        (h ≤ s.cfg.derateStart → md = m0) ∧
        ((s.cfg.derateStart : Int) < h → h < s.cfg.derateEnd →
          (md : Int) = m0 * (s.cfg.derateEnd - h) / ((s.cfg.derateEnd : Int) - s.cfg.derateStart)) ∧
        ((s.cfg.derateStart : Int) < h → (s.cfg.derateEnd : Int) ≤ h → md = 0) ∧
        (x.floor ≤ md → s.formedMEff = md) ∧ (md < x.floor → s.formedMEff = 0)

/-! ### Frames heard -/

/-- Every valid frame heard is counted among frames heard and, once the station is on the line, a frame of a bay above
N, or a MARK or CLAIM of bay 0, among foreign frames (R160, R162, R164). MODEL'S CHOICE (log 8): a frame commanded during
an own attempt is one taken at the moment the attempt begins or ends, and is taken as any other.
Its last character ends (R151, R160): the quiet timer is at 0, the line is quiet, and the receiver is in SKIP, in which one
stray character counts. A frame of any kind but MARK leaves the own MARK where it is and the attempt under way as it is; a
wait runs again with the same backoff (R156); the CLAIM slot changes where a claim is formed, the REPLY slot where a reply
is, and a sender that was IDLE then draws its backoff. A change of standing forms one claim (R34). A MARK that the running
round timer does not take (of a length other than 3, in IDLE, or of no bay in 1..N) is as the other kinds.
Stage control (R34, R112, R113): the cap state, the lag slice and what is owed of a slice's start stand; with the phase as
it was, the power, the waiting increase and what has gone out stand too, and so they do at a change of standing where
stage control is as DrawKept keeps it. -/
def Obligations.FramesAreCounted : Prop :=
  (∀ (kind : FrameKind) (bay : Nat) (s : State), ∃ l, l = (s.takeFrame kind bay).line ∧
    s.takeFrame kind bay = { s with line := l } ∧
    l = { s.line with
      receiver := .skip true, quietTimer := 0, lineActive := false, sender := s.line.sender.rewait
      counters := { s.line.counters with
        framesHeard := min 65535 (s.line.counters.framesHeard + 1), foreignFrames := l.counters.foreignFrames } } ∧
    l.counters.foreignFrames =
      (if s.onLine = true ∧ (s.cfg.n < bay ∨ (bay = 0 ∧ (kind = .mark ∨ kind = .claim)))
      then min 65535 (s.line.counters.foreignFrames + 1) else s.line.counters.foreignFrames)) ∧
  (∀ (c : Instr) (kind : FrameKind) (bay : Byte) (s : State), frameOf c = some (kind, bay) →
    ∃ t, exec c s = .next t ∧
      t.line.counters.framesHeard = min 65535 (s.line.counters.framesHeard + 1) ∧
      t.line.counters.collisions = s.line.counters.collisions ∧
      t.line.counters.foreignFrames =
        (if s.onLine = true ∧ (s.cfg.n < bay.toNat ∨ (bay.toNat = 0 ∧ (kind = .mark ∨ kind = .claim)))
        then min 65535 (s.line.counters.foreignFrames + 1) else s.line.counters.foreignFrames) ∧
      t.line.receiver = .skip true ∧ t.line.quietTimer = 0 ∧ t.line.lineActive = false) ∧
  (∀ (c : Instr) (kind : FrameKind) (bay : Byte) (s : State), frameOf c = some (kind, bay) →
    (∀ b p temps, c = .markFrame b p temps →
      p.length ≠ 3 ∨ s.timer.running = false ∨ (s.onLine = true ∧ (bay.toNat = 0 ∨ s.cfg.n < bay.toNat))) →
    ∃ t claimed replied, exec c s = .next t ∧
      t.stage.cap = s.stage.cap ∧ t.stage.lagSlice = s.stage.lagSlice ∧ t.stage.startOwed = s.stage.startOwed ∧
      t.out.line = s.out.line ∧
      (t.phase = s.phase → t.stand.standing = s.stand.standing ∨ s.DrawSafe → t.stage = s.stage ∧ t.out = s.out) ∧
      t.share = { s.share with ownClaim := t.share.ownClaim, sequence := t.share.sequence } ∧
      t.timer.aligned = (s.timer.aligned &&
        !(s.stand.standing == .cutoff && t.stand.standing == .listening)) ∧
      (claimed = true ↔ t.share.sequence ≠ s.share.sequence) ∧
      (replied = true ↔ s.inspect.pendingReply = none ∧ t.inspect.pendingReply ≠ none) ∧
      t.line.counters.claimsUnposted = s.line.counters.claimsUnposted ∧
      t.line.outbox.mark = s.line.outbox.mark ∧
      (claimed = false → t.line.outbox.claim = s.line.outbox.claim ∧ t.share.ownClaim = s.share.ownClaim) ∧
      (replied = false → t.line.outbox.reply = s.line.outbox.reply ∧ t.inspect.pendingReply = s.inspect.pendingReply) ∧
      (∀ b w, s.line.sender = .waiting b w → t.line.sender = .waiting b 0 ∧ t.line.prng = s.line.prng) ∧
      (∀ a, s.line.sender = .sending a → t.line.prng = s.line.prng ∧ t.line.sender = .sending { a with
        replaced := a.replaced || (decide (a.slot = .claim) && claimed) || (decide (a.slot = .reply) && replied) }) ∧
      (s.line.sender = .idle →
        (claimed = false → replied = false → t.line.sender = .idle ∧ t.line.prng = s.line.prng) ∧
        (claimed = true ∨ replied = true → t.line.prng = prngNext s.line.prng ∧
          t.line.sender = .waiting (prngValue 16 (prngNext s.line.prng)) 0)) ∧
      (t.stand.standing = s.stand.standing → t.phase = s.phase → claimed = false) ∧
      (s.onLine = true → t.stand.standing ≠ s.stand.standing → t.phase = s.phase →
        t.share.sequence = (s.share.sequence + 1) % 256 ∧
        ∃ v : State, t.share.ownClaim = some v.claimNow ∧ t.line.outbox.claim = some ⟨v.claimNow.payload, 0⟩ ∧
          v.stand = t.stand ∧ (v.session = s.session ∨ v.session = t.session) ∧ v.thermal = s.thermal ∧
          v.meter = s.meter ∧ v.settings = s.settings ∧ v.share = s.share))

/-- MARK_FRAME of a peer (its own bay number included) while rounds run: at slice index 2 or above, or as the
alignment of LISTENING, it ends the round; otherwise it is late and the round goes on (MODEL'S READING, log 20, for
slice index 0 or 1 outside LISTENING with the aligned indicator clear). In CUTOFF, where the same frame
re-enters LISTENING, either may come first. A waiting own MARK leaves the outbox, one on the line stays, and an UNSET
clock is set from a second of day. The REPLY slot stands. A late MARK leaves the aligned indicator (outside CUTOFF), the
CLAIM slot where no claim is formed, and, where the standing stands, everything of share, stage and what has gone out.
The standing unit takes a late MARK as it takes any frame of that bay (O30 says how): round-heard and listen-heard, the
bay clash of the own bay, ISOLATED to REJOINING, CUTOFF to LISTENING; a change of standing forms one claim (R34). -/
def Obligations.PeerMark : Prop :=
  ∀ (s : State) (bay c2 c1 c0 : Byte) (temps : Temps) (field : Nat),
    s.timer.running = true → s.onLine = true → 1 ≤ bay.toNat → bay.toNat ≤ s.cfg.n →
    field = c2.toNat * 65536 + c1.toNat * 256 + c0.toNat →
    ∃ t ends, exec (.markFrame bay [c2, c1, c0] temps) s = .next t ∧
      (s.stand.standing ≠ .cutoff →
        (ends = true ↔ 2 ≤ s.timer.sliceIndex ∨ (s.stand.standing = .listening ∧ s.timer.aligned = false))) ∧
      (2 ≤ s.timer.sliceIndex → ends = true) ∧
      (ends = true → t.timer.sliceCounter = 0 ∧ t.timer.sliceIndex = 0 ∧
        t.timer.roundCount = (s.timer.roundCount + 1) % 65536 ∧
        t.meter.holdCount = min 65535 (s.meter.roundCount + s.meter.sliceCount) ∧ t.meter.roundCount = 0) ∧
      (ends = false → t.timer.sliceCounter = s.timer.sliceCounter ∧ t.timer.sliceIndex = s.timer.sliceIndex ∧
        t.timer.roundCount = s.timer.roundCount ∧ t.meter = s.meter ∧ t.thermal = s.thermal ∧
        t.peers = s.peers ∧ t.notices = s.notices ∧ t.session = s.session ∧
        t.share.allotment = s.share.allotment ∧ t.share.postSlice = s.share.postSlice ∧ t.out.link = s.out.link ∧
        t.timer.running = true ∧ (s.stand.standing ≠ .cutoff → t.timer.aligned = s.timer.aligned) ∧
        (∃ q : State, q = s.standingTakes bay.toNat ∧
          t.stand = q.stand ∧ t.timer.aligned = q.timer.aligned ∧ t.stage = q.stage ∧ t.out = q.out) ∧
        (s.DrawSafe → t.stage = s.stage ∧ t.out = s.out) ∧ t.share.postOwed = s.share.postOwed ∧
        (t.stand.standing ≠ s.stand.standing → t.share.sequence = (s.share.sequence + 1) % 256 ∧
          ∃ v : State, t.share.ownClaim = some v.claimNow ∧ t.line.outbox.claim = some ⟨v.claimNow.payload, 0⟩ ∧
            v.stand = t.stand ∧ v.session = s.session ∧ v.thermal = s.thermal ∧ v.meter = s.meter ∧
            v.settings = s.settings ∧ v.share = s.share) ∧
        t.line.counters.claimsUnposted = s.line.counters.claimsUnposted ∧
        (t.share.sequence = s.share.sequence → t.line.outbox.claim = s.line.outbox.claim) ∧
        (t.stand.standing = s.stand.standing → t.share = s.share ∧ t.stage = s.stage ∧ t.out = s.out) ∧
        (∀ a, s.line.sender = .sending a → t.line.prng = s.line.prng ∧ t.line.sender = .sending { a with
          replaced := a.replaced || (decide (a.slot = .claim) && decide (t.share.sequence ≠ s.share.sequence)) }) ∧
        (∀ b w, s.line.sender = .waiting b w → s.line.outbox.claim ≠ none ∨ s.line.outbox.reply ≠ none →
          t.line.sender = .waiting b 0 ∧ t.line.prng = s.line.prng) ∧
        (∀ b w, s.line.sender = .waiting b w → s.line.outbox = ⟨s.line.outbox.mark, none, none⟩ →
          s.line.outbox.mark ≠ none → t.share.sequence = s.share.sequence →
          t.line.sender = .idle ∧ t.line.prng = s.line.prng) ∧
        (s.line.sender = .idle →
          (t.share.sequence = s.share.sequence → t.line.sender = .idle ∧ t.line.prng = s.line.prng) ∧
          (t.share.sequence ≠ s.share.sequence → t.line.prng = prngNext s.line.prng ∧
            t.line.sender = .waiting (prngValue 16 (prngNext s.line.prng)) 0))) ∧
      t.line.outbox.reply = s.line.outbox.reply ∧ t.line.counters.lineErrors = s.line.counters.lineErrors ∧
      (∀ a, s.line.sender = .sending a → a.slot = .mark → a.replaced = false →
        t.line.outbox.mark = s.line.outbox.mark) ∧
      ((∀ a, s.line.sender = .sending a → a.slot = .mark → a.replaced = true) → t.line.outbox.mark = none) ∧
      (s.timer.clock = none → field < 86400 → t.timer.clock = some field ∧ t.timer.subSecond = 0) ∧
      (s.timer.clock ≠ none ∨ 86400 ≤ field →
        t.timer.clock = s.timer.clock ∧ t.timer.subSecond = s.timer.subSecond) ∧
      (s.stand.standing = .listening → s.timer.aligned = false → t.timer.aligned = true) ∧
      t = { s with
        pins := { s.pins with temps := temps }, timer := t.timer, stand := t.stand, peers := t.peers
        share := t.share, session := t.session, notices := t.notices, stage := t.stage, meter := t.meter
        thermal := t.thermal, line := t.line, out := t.out, choices := t.choices, freeCount := t.freeCount }

/-- A peer's MARK that ends the round (the round count moves on; O23 says when) does a full round end (R3, R11, R13): what
every block does at it is what NATURAL_ROUND_END does in the last slice, but for the own MARK and the draws of the
generator. `u` is the state the round end is taken in, with the slice index at B−1. The standing unit takes the frame
before or after it, and a waiting own MARK leaves the outbox before or after it. `v` is the state itself with its free
choices further on (logs 4 and 30).
The outbox (R158): a CLAIM that waits is discarded, counted unposted; one on the line stays there and is not retried; the
REPLY slot stands. The generator (R163): one advance for the post slice, and one for each backoff drawn. -/
def Obligations.EarlyRoundEnd : Prop :=
  ∀ (s : State) (bay c2 c1 c0 : Byte) (temps : Temps),
    s.timer.running = true → s.onLine = true → 1 ≤ bay.toNat → bay.toNat ≤ s.cfg.n →
    ∃ t : State, exec (.markFrame bay [c2, c1, c0] temps) s = .next t ∧
      (2 ≤ s.timer.sliceIndex ∨ (s.stand.standing = .listening ∧ s.timer.aligned = false) →
        t.timer.roundCount ≠ s.timer.roundCount) ∧
      (t.timer.roundCount ≠ s.timer.roundCount → ∃ u v f w x : State,
        exec (.naturalRoundEnd temps) u = .next w ∧ v = { s with choices := v.choices, freeCount := v.freeCount } ∧
        f = v.takeFrame .mark bay.toNat ∧
        ((u.stand = (v.standingTakes bay.toNat).stand ∧ u.share = (v.standingTakes bay.toNat).share ∧
            u.stage = (v.standingTakes bay.toNat).stage ∧ u.out = (v.standingTakes bay.toNat).out ∧ x = w ∧
            (u.line = (f.standingTakes bay.toNat).line ∨ u.line = (f.removeWaitingMark.standingTakes bay.toNat).line ∨
              u.line = (f.standingTakes bay.toNat).removeWaitingMark.line)) ∨
          (u.stand = s.stand ∧ u.share = s.share ∧ u.stage = s.stage ∧ u.out = s.out ∧ x = w.standingTakes bay.toNat ∧
            (u.line = f.line ∨ u.line = f.removeWaitingMark.line))) ∧
        (u.timer.clock = s.timer.clock ∨ u.timer.clock = t.timer.clock) ∧
        u.timer.aligned = (s.timer.aligned || u.stand.standing == .listening) ∧
        u = { s with
          pins := { s.pins with temps := temps }
          timer := { s.timer with
            sliceIndex := s.cfg.roundDiv - 1, clock := u.timer.clock, subSecond := u.timer.subSecond
            aligned := u.timer.aligned }
          stand := u.stand, share := u.share, stage := u.stage, line := u.line, out := u.out, choices := u.choices
          freeCount := u.freeCount } ∧
        t.line.counters = w.line.counters ∧
        t.peers = w.peers ∧ t.notices = w.notices ∧ t.meter = w.meter ∧ t.thermal = w.thermal ∧ t.session = w.session ∧
        t.share.allotment = w.share.allotment ∧ t.timer.roundCount = w.timer.roundCount ∧
        t.timer.sliceIndex = 0 ∧ t.timer.sliceCounter = 0 ∧ t.timer.aligned = x.timer.aligned ∧
        t.stand = x.stand ∧ t.share.ownClaim = x.share.ownClaim ∧ t.share.sequence = x.share.sequence ∧
        t.line.outbox.claim = x.line.outbox.claim ∧ t.stage = x.stage ∧ t.out = x.out ∧
        t.stage.startOwed = false ∧ t.share.postOwed = false ∧
        u.out.link = s.out.link ∧ t.out.link = w.out.link ∧ t.line.outbox.reply = s.line.outbox.reply ∧
        (s.ClaimWaits → t.line.counters.claimsUnposted = min 65535 (s.line.counters.claimsUnposted + 1) ∧
          (t.share.sequence = s.share.sequence → t.line.outbox.claim = none)) ∧
        (¬ s.ClaimWaits → t.share.sequence = s.share.sequence →
          t.line.counters.claimsUnposted = s.line.counters.claimsUnposted ∧
          t.line.outbox.claim = s.line.outbox.claim) ∧
        ∃ p j k, t.share.postSlice = some p ∧ p = 1 + prngValue (s.cfg.roundDiv - 3) (prngAfter j s.line.prng) ∧
          1 ≤ j ∧ j ≤ k ∧ k ≤ 3 ∧ t.line.prng = prngAfter k s.line.prng ∧
          (8 ≤ s.cfg.roundDiv → 1 ≤ p ∧ p + 3 ≤ s.cfg.roundDiv) ∧
          (∀ a, s.line.sender = .sending a → k = 1 ∧ t.line.sender = .sending { a with
            noRetry := a.noRetry || decide (a.slot = .claim)
            replaced := a.replaced || (decide (a.slot = .claim) && decide (t.share.sequence ≠ s.share.sequence)) }) ∧
          (s.line.sender = .idle → (k = 1 ↔ t.share.sequence = s.share.sequence)) ∧
          (∀ b w, s.line.sender = .waiting b w →
            (s.line.outbox.reply ≠ none → k = 1 ∧ t.line.sender = .waiting b 0) ∧
            (t.share.sequence = s.share.sequence → k = 1)) ∧
          (s.isSending = false → t.line.sender = .idle ∨ t.line.sender = s.line.sender.rewait ∨
            ∃ i, 1 ≤ i ∧ i ≤ k ∧ i ≠ j ∧ t.line.sender = .waiting (prngValue 16 (prngAfter i s.line.prng)) 0))

/-- MARK_FRAME otherwise: one of a length other than 3 is counted among line errors and goes to the standing unit alone;
one of a bay the round timer does
not take, on the line, changes no timer item; one heard in IDLE of a bay in 1..31 sets an UNSET clock and nothing
else.
A CLAIM of the own bay, or of no bay in 1..N, or heard in STARTING or SETUP, makes no entry and is no line error;
one of the own bay is a bay clash (R32, R37). -/
def Obligations.FramesNotTaken : Prop :=
  (∀ (s : State) (bay : Byte) (payload : List Byte) (temps : Temps),
      ∃ t, exec (.markFrame bay payload temps) s = .next t ∧
        (payload.length ≠ 3 →
          t.line.counters.lineErrors = min 65535 (s.line.counters.lineErrors + 1) ∧
          t.timer = { s.timer with aligned := t.timer.aligned } ∧ t.stand = (s.standingTakes bay.toNat).stand ∧
          t.share.allotment = s.share.allotment ∧ t.share.postSlice = s.share.postSlice ∧
          (t.stand.standing = s.stand.standing → t.share = s.share ∧ t.stage = s.stage ∧ t.out = s.out) ∧
          t.line.outbox.mark = s.line.outbox.mark ∧ t.line.outbox.reply = s.line.outbox.reply ∧
          t = { s with
            pins := { s.pins with temps := temps }, timer := { s.timer with aligned := t.timer.aligned }
            stand := t.stand, share := t.share, stage := t.stage, line := t.line, out := t.out }) ∧
        (payload.length = 3 → s.onLine = true → bay.toNat = 0 ∨ s.cfg.n < bay.toNat →
          t = { s with pins := { s.pins with temps := temps }, line := t.line } ∧
          t.line.counters.lineErrors = s.line.counters.lineErrors ∧ t.line.outbox = s.line.outbox) ∧
        (∀ c2 c1 c0 : Byte, payload = [c2, c1, c0] → s.onLine = false → s.timer.running = false →
          t = { s with pins := { s.pins with temps := temps }, line := t.line, timer := t.timer } ∧
          t.line.counters.lineErrors = s.line.counters.lineErrors ∧ t.line.outbox = s.line.outbox ∧
          (∀ field, field = c2.toNat * 65536 + c1.toNat * 256 + c0.toNat →
            t.timer = if s.timer.clock = none ∧ field < 86400 ∧ 1 ≤ bay.toNat ∧ bay.toNat ≤ 31
              then { s.timer with clock := some field, subSecond := 0 } else s.timer))) ∧
  (∀ (s : State) (bay : Byte) (payload : List Byte),
      s.onLine = false ∨ bay.toNat = 0 ∨ s.cfg.n < bay.toNat ∨ bay.toNat = s.cfg.bay →
      ∃ t, exec (.claimFrame bay payload) s = .next t ∧
        t = { s with stand := t.stand, line := t.line } ∧
        t.line.counters.lineErrors = s.line.counters.lineErrors ∧ t.line.outbox = s.line.outbox ∧
        (s.onLine = true → 1 ≤ bay.toNat → bay.toNat ≤ s.cfg.n → bay.toNat = s.cfg.bay →
          t.stand.bayClash = true ∧ t.stand.roundClash = true ∧ t.stand.clashClear = 0 ∧ t.stand.roundHeard = true ∧
          t.stand.standing = s.stand.standing) ∧
        (s.onLine = false ∨ bay.toNat = 0 ∨ s.cfg.n < bay.toNat → t.stand = s.stand))

/-- R38, with R39 and R40. A CLAIM of 16 bytes whose standing codes 2..6, whose powers lie in 0..2500, whose q does not
exceed M and whose F does not exceed a q above 0, from a peer bay, makes or replaces that bay's entry and no other;
any other CLAIM from a peer bay is counted among line errors and leaves every entry as it stood. The standing unit
takes both. -/
def Obligations.PeerClaim : Prop :=
  ∀ (s : State) (bay : Byte) (payload : List Byte),
    s.onLine = true → 1 ≤ bay.toNat → bay.toNat ≤ s.cfg.n → bay.toNat ≠ s.cfg.bay →
    s.peers.entries.Pairwise (fun a b => a.bay < b.bay) →
    ∃ t, exec (.claimFrame bay payload) s = .next t ∧
      t.stand = (s.standingTakes bay.toNat).stand ∧ t.stand.roundHeard = true ∧
      t.peers.dHanded = s.peers.dHanded ∧ t.peers.claimantsHanded = s.peers.claimantsHanded ∧
      (∀ st ph q1 q0 m1 m0 f1 f0 k1 k0 p1 p0 flags reasons seq reserved,
        payload = [st, ph, q1, q0, m1, m0, f1, f0, k1, k0, p1, p0, flags, reasons, seq, reserved] →
        ∀ q m f p : Nat, q = q1.toNat * 256 + q0.toNat → m = m1.toNat * 256 + m0.toNat →
          f = f1.toNat * 256 + f0.toNat → p = p1.toNat * 256 + p0.toNat →
          2 ≤ st.toNat → st.toNat ≤ 6 → q ≤ 2500 → m ≤ 2500 → f ≤ 2500 → p ≤ 2500 → q ≤ m → (0 < q → f ≤ q) →
          t.line.counters.lineErrors = s.line.counters.lineErrors ∧
          ∃ e : PeerEntry, e.bay = bay.toNat ∧ e.lastHeard = s.timer.roundCount ∧ e.standing.code = st.toNat ∧
            e.phase = ph ∧ e.q = q ∧ e.m = m ∧ e.f = f ∧ e.k = k1.toNat * 256 + k0.toNat ∧ e.pEff = p ∧
            e.thermal = flags.getLsbD 0 ∧ e.clash = flags.getLsbD 1 ∧ e.hold = flags.getLsbD 2 ∧
            e.reasons = ⟨reasons.getLsbD 0, reasons.getLsbD 1, reasons.getLsbD 2, reasons.getLsbD 3⟩ ∧
            e.sequence = seq.toNat ∧
            t.peers.entries.Pairwise (fun a b => a.bay < b.bay) ∧
            ∀ d, d ∈ t.peers.entries ↔ d = e ∨ (d ∈ s.peers.entries ∧ d.bay ≠ bay.toNat)) ∧
      ((¬ ∃ st ph q1 q0 m1 m0 f1 f0 k1 k0 p1 p0 flags reasons seq reserved : Byte,
          payload = [st, ph, q1, q0, m1, m0, f1, f0, k1, k0, p1, p0, flags, reasons, seq, reserved] ∧
          2 ≤ st.toNat ∧ st.toNat ≤ 6 ∧
          q1.toNat * 256 + q0.toNat ≤ m1.toNat * 256 + m0.toNat ∧ m1.toNat * 256 + m0.toNat ≤ 2500 ∧
          f1.toNat * 256 + f0.toNat ≤ 2500 ∧ p1.toNat * 256 + p0.toNat ≤ 2500 ∧
          (0 < q1.toNat * 256 + q0.toNat → f1.toNat * 256 + f0.toNat ≤ q1.toNat * 256 + q0.toNat)) →
        t.line.counters.lineErrors = min 65535 (s.line.counters.lineErrors + 1) ∧
        t.peers.entries = s.peers.entries) ∧
      t = { s with
        timer := { s.timer with aligned := t.timer.aligned }, stand := t.stand, peers := t.peers, share := t.share
        stage := t.stage, line := t.line, out := t.out } ∧
      t.share.allotment = s.share.allotment

/-- NOTICE_FRAME of 11 bytes: its dispatch time sets the clock where it is a second of day; van 0 or a departure
second above 86399 is counted among line errors and goes no further; for the van in session it gives that session its
target and, with the clock set, its departure, and reports the one phase it may change, from CHARGING or DEFERRED alone to
TOPPED with the power at 0 (R88, R94); for
any other van it is stored as the newest entry in place of the van's older one, or with the oldest evicted from a full
table. The demand word follows where it changes (MODEL'S READING, log 12). Entry to TOPPED and a change of standing each form one claim, with the next sequence. -/
def Obligations.NoticeTaken : Prop :=
  ∀ (s : State) (bay v1 v0 d2 d1 d0 t2 t1 t0 c2 c1 c0 : Byte) (van departure target dispatch : Nat),
    van = v1.toNat * 256 + v0.toNat → departure = d2.toNat * 65536 + d1.toNat * 256 + d0.toNat →
    target = t2.toNat * 65536 + t1.toNat * 256 + t0.toNat → dispatch = c2.toNat * 65536 + c1.toNat * 256 + c0.toNat →
    ∃ t, exec (.noticeFrame bay [v1, v0, d2, d1, d0, t2, t1, t0, c2, c1, c0]) s = .next t ∧
      t.stand = (s.standingTakes bay.toNat).stand ∧
      t.timer = { s.timer with
        clock := if dispatch < 86400 then some dispatch else s.timer.clock
        subSecond := if dispatch < 86400 then 0 else s.timer.subSecond
        aligned := t.timer.aligned } ∧
      t.notices.override = s.notices.override ∧ t.share.allotment = s.share.allotment ∧
      (∃ n, n = (if t.stand.standing = s.stand.standing then 0 else 1) + (if t.phase = s.phase then 0 else 1) ∧
        (n = 0 → t.share = s.share) ∧
        (0 < n → s.onLine = true → t.share.sequence = (s.share.sequence + n) % 256)) ∧
      t.out.link = s.out.link ++ (if t.phase = s.phase then [] else [.phase .topped s.holds none]) ∧
      (t.phase ≠ s.phase → t.stage.applied = 0 ∧ t.stage.pendingIncrease = none ∧ t.stage.enable = false ∧
        (s.stage.wordSent = (if s.stage.cap then 0 else s.stage.applied) → s.SendsDue t)) ∧
      (van = 0 ∨ 86400 ≤ departure →
        t.line.counters.lineErrors = min 65535 (s.line.counters.lineErrors + 1) ∧
        t.notices.table = s.notices.table ∧ t.session = s.session) ∧
      (van ≠ 0 → departure < 86400 → (∀ x, s.session = some x → x.van ≠ van) →
        t.line.counters.lineErrors = s.line.counters.lineErrors ∧ t.session = s.session ∧
        ∃ kept, kept = (s.notices.table.filter fun e => decide (e.van ≠ van)) ∧
          t.notices.table = (if kept.length < 48 then kept else kept.drop 1) ++
            [⟨van, departure, if target = 0 then none else some (min target 200000)⟩]) ∧
      (van ≠ 0 → departure < 86400 → ∀ x, s.session = some x → x.van = van →
        t.line.counters.lineErrors = s.line.counters.lineErrors ∧ t.notices.table = s.notices.table ∧
        ∃ y, t.session = some y ∧
          (target = 0 → y.target = x.need ∧ y.targetSource = .van) ∧
          (0 < target → y.target = min x.need (min target 200000) ∧ y.targetSource = .notice) ∧
          (t.timer.clock = none → y.departure = x.departure ∧ y.departureSource = x.departureSource) ∧
          (∀ now d, t.timer.clock = some now → d = (departure + 86400 - now) % 86400 →
            y.departureSource = .notice ∧ y.departure = if d ≤ 72000 then d else 0) ∧
          y.phase = (if (x.phase = .charging ∨ x.phase = .deferred) ∧ y.target ≤ s.runningWh x then .topped else x.phase) ∧
          (s.onLine = true → y.phase ≠ x.phase →
            ∃ v : State, t.share.ownClaim = some v.claimNow ∧ t.share.sequence = v.claimNow.sequence ∧
              t.line.outbox.claim = some ⟨v.claimNow.payload, 0⟩ ∧ v.session = t.session ∧ v.thermal = s.thermal ∧ v.meter = s.meter ∧ v.settings = s.settings ∧
              v.share.allotment = s.share.allotment ∧ (v.stand = s.stand ∨ v.stand = t.stand)) ∧
          y = { x with target := y.target, targetSource := y.targetSource, departure := y.departure
                       departureSource := y.departureSource, phase := y.phase }) ∧
      t = { s with
        timer := t.timer, stand := t.stand, share := t.share, session := t.session, notices := t.notices
        stage := t.stage, line := t.line, out := t.out, choices := t.choices, freeCount := t.freeCount }

/-- LIMIT_FRAME of 7 bytes: its dispatch time sets the clock; then, while the part has rounds, rounds 0 is counted
among line errors, and any other starts or replaces the override with the lower of the feeder limit and the value, for
at most 360 rounds. No allotment, ceiling or applied power changes (in a state with no power applied without
permission, as DrawKept keeps it). -/
def Obligations.LimitTaken : Prop :=
  ∀ (s : State) (bay v1 v0 r1 r0 c2 c1 c0 : Byte) (value rounds dispatch : Nat),
    value = v1.toNat * 256 + v0.toNat → rounds = r1.toNat * 256 + r0.toNat →
    dispatch = c2.toNat * 65536 + c1.toNat * 256 + c0.toNat →
    ∃ t, exec (.limitFrame bay [v1, v0, r1, r0, c2, c1, c0]) s = .next t ∧
      t.stand = (s.standingTakes bay.toNat).stand ∧
      t.timer = { s.timer with
        clock := if dispatch < 86400 then some dispatch else s.timer.clock
        subSecond := if dispatch < 86400 then 0 else s.timer.subSecond
        aligned := t.timer.aligned } ∧
      t.notices.table = s.notices.table ∧
      (s.onLine = false → t.notices = s.notices ∧ t.line.counters.lineErrors = s.line.counters.lineErrors) ∧
      (s.onLine = true → rounds = 0 → t.notices = s.notices ∧
        t.line.counters.lineErrors = min 65535 (s.line.counters.lineErrors + 1)) ∧
      (s.onLine = true → 0 < rounds → t.line.counters.lineErrors = s.line.counters.lineErrors ∧
        t.notices.override = some ⟨min s.cfg.feederLimit value, min rounds 360⟩) ∧
      t.share.allotment = s.share.allotment ∧ t.meter = s.meter ∧
      ((s.permission = false → s.stage.applied = 0 ∧ s.stage.pendingIncrease = none) →
        t.stage.applied = s.stage.applied ∧ t.stage.pendingIncrease = s.stage.pendingIncrease) ∧
      t = { s with
        timer := t.timer, stand := t.stand, share := t.share, notices := t.notices, stage := t.stage
        line := t.line, out := t.out }

/-- A NOTICE or a LIMIT of another length, and a SETUP whose length is not 10 or whose action is not 1, 2 or 3: one line
error, and no clock, notice, override, store, reply or restart wait. -/
def Obligations.MalformedFrames : Prop :=
  (∀ (s : State) (bay : Byte) (payload : List Byte) (c : Instr),
      (c = .noticeFrame bay payload ∧ payload.length ≠ 11) ∨ (c = .limitFrame bay payload ∧ payload.length ≠ 7) →
      ∃ t, exec c s = .next t ∧
        t.line.counters.lineErrors = min 65535 (s.line.counters.lineErrors + 1) ∧
        t.stand = (s.standingTakes bay.toNat).stand ∧
        t = { s with
          timer := { s.timer with aligned := t.timer.aligned }, stand := t.stand, share := t.share
          stage := t.stage, line := t.line, out := t.out } ∧
        t.share.allotment = s.share.allotment) ∧
  (∀ (s : State) (bay : Byte) (payload : List Byte),
      payload.length ≠ 10 ∨ (∃ a, payload[4]? = some a ∧ a ≠ 1 ∧ a ≠ 2 ∧ a ≠ 3) →
      ∃ t, exec (.malformedSetup bay payload) s = .next t ∧
        t.line.counters.lineErrors = min 65535 (s.line.counters.lineErrors + 1) ∧
        t.stand = (s.standingTakes bay.toNat).stand ∧
        t = { s with
          timer := { s.timer with aligned := t.timer.aligned }, stand := t.stand, share := t.share
          stage := t.stage, line := t.line, out := t.out } ∧
        t.share.allotment = s.share.allotment)

/-- REPLY_FRAME, which the standing unit alone takes: a peer's frame sets the round-heard indicator (and listen-heard
in LISTENING) and takes ISOLATED to REJOINING and CUTOFF to LISTENING, each with a claim formed; the own bay is a
clash; any other bay changes nothing. -/
def Obligations.StandingUnitHears : Prop :=
  ∀ (s : State) (bay : Byte) (payload : List Byte),
    ∃ t, exec (.replyFrame bay payload) s = .next t ∧
      t.stand = (s.standingTakes bay.toNat).stand ∧
      (s.onLine = false ∨ bay.toNat = 0 ∨ s.cfg.n < bay.toNat → t = { s with line := t.line }) ∧
      (s.onLine = true → 1 ≤ bay.toNat → bay.toNat ≤ s.cfg.n → bay.toNat = s.cfg.bay →
        t = { s with line := t.line, stand := t.stand } ∧
        t.stand = { s.stand with
          roundHeard := true, listenHeard := s.stand.listenHeard || s.stand.standing == .listening
          bayClash := true, roundClash := true, clashClear := 0 }) ∧
      (s.onLine = true → 1 ≤ bay.toNat → bay.toNat ≤ s.cfg.n → bay.toNat ≠ s.cfg.bay →
        t.stand.roundHeard = true ∧ t.stand.bayClash = s.stand.bayClash ∧
        (s.stand.standing = .isolated → t.stand.standing = .rejoining ∧ t.stand.silentStreak = 0 ∧
          t.stand.rejoinCount = 0 ∧ t.stand.isolationCount = s.stand.isolationCount ∧ t.timer = s.timer ∧
          t.share.sequence = (s.share.sequence + 1) % 256 ∧
          t.share.ownClaim = some ({ s with stand := t.stand } : State).claimNow ∧
          (s.takeFrame .reply bay.toNat).line.Places t.line .claim
            ({ s with stand := t.stand } : State).claimNow.payload) ∧
        (s.stand.standing = .cutoff → t.stand.standing = .listening ∧ t.stand.listenCount = 0 ∧
          t.stand.listenHeard = false ∧ t.stand.listenPosted = false ∧ t.stand.silentStreak = 0 ∧
          t.stand.rejoinCount = 0 ∧ t.stand.isolationCount = 0 ∧ t.timer = { s.timer with aligned := false } ∧
          t.share.sequence = (s.share.sequence + 1) % 256 ∧
          t.share.ownClaim = some ({ s with stand := t.stand } : State).claimNow ∧
          (s.takeFrame .reply bay.toNat).line.Places t.line .claim
            ({ s with stand := t.stand } : State).claimNow.payload) ∧
        (s.stand.standing ≠ .isolated → s.stand.standing ≠ .cutoff →
          t = { s with line := t.line, stand := t.stand } ∧ t.line.outbox = s.line.outbox ∧
          t.stand = { s.stand with
            roundHeard := true
            listenHeard := s.stand.listenHeard || s.stand.standing == .listening })) ∧
      t = { s with
        timer := { s.timer with aligned := t.timer.aligned }, stand := t.stand, share := t.share
        stage := t.stage, line := t.line, out := t.out } ∧
      t.share.allotment = s.share.allotment

/-! ### Queries and replies -/

/-- A QUERY (each of the seven rows) of 9 bytes addressed to this station, by bay on the line and by serial in STARTING
and SETUP, with no reply pending: a reply is formed from the state before or after the standing unit takes the same
frame (a free order, log 4), occupies the pending reply, and its first part takes the REPLY slot. MODEL'S CHOICE
(log 21): QUERY_VIEW_UNKNOWN that carries the code of a known view, 1 to 6, is answered with that view. -/
def Obligations.QueryAnswered : Prop :=
  ∀ (c : Instr) (q : QueryFrame) (v : Byte) (s : State), queryOfCommand c = some (q, v) →
    q.length = 9 → s.inspect.pendingReply = none →
    (s.onLine = true → q.form = 1 ∧ q.target.toNat = s.cfg.bay) →
    (s.onLine = false → q.form = 2 ∧ q.target = s.store.serial) →
    ∃ (t u : State) (code : ReplyCode) (items : List (List Byte)) (first : List Byte) (rest : List (List Byte)),
      exec c s = .next t ∧
      (u = s.takeFrame .query q.sender.toNat ∨
        u = (s.takeFrame .query q.sender.toNat).standingTakes q.sender.toNat) ∧
      (1 ≤ v.toNat → v.toNat ≤ 6 → code = .shown ∧
        u.viewItems v.toNat q.startIndex.toNat q.count.toNat = some items) ∧
      (v.toNat = 0 ∨ 6 < v.toNat → code = .viewUnknown ∧ items = []) ∧
      replyParts s.store.serial q.tag code v items = first :: rest ∧
      t.inspect = { s.inspect with pendingReply := some ⟨first :: rest, 1, .query⟩ } ∧
      t.line.outbox.reply = some ⟨first, 0⟩ ∧
      t.line.counters.lineErrors = s.line.counters.lineErrors ∧
      t.line.counters.queriesDropped = s.line.counters.queriesDropped ∧
      t.stand = (s.standingTakes q.sender.toNat).stand ∧
      t = { s with
        timer := { s.timer with aligned := t.timer.aligned }, stand := t.stand, share := t.share, stage := t.stage
        line := t.line, inspect := t.inspect, out := t.out, choices := t.choices, freeCount := t.freeCount }

/-- What each view shows (R170, R174, R175). STATUS, SESSION, LAST and CONFIG: the items of R174, in its order and
sizes, each a number with its most significant byte first; SESSION the phase VACANT alone with no session, LAST nothing
while empty. PEERS and NOTICES: the summary of R175, then the entries from the start index with at most the count as
clamped to 1..8, each with the fields of R175. The flag bytes have their first flag in the lowest bit. Every item fits
the body of one part. MODEL'S READING (log 16): a derate point of CONFIG is sent as its degrees plus 40. -/
def Obligations.Views : Prop :=
  (∀ (s : State) (start count : Nat) (temp : Option Int → Nat) (flags1 flags2 : Byte),
      temp none = 255 → (∀ t, temp (some t) = (t + 40).toNat) →
      (∀ (i : Nat) (b : Bool), [s.stage.pendingIncrease.isSome, s.stand.bayClash, s.timer.aligned, s.meter.capped,
        s.stage.cap, s.stage.enable, s.pins.permit, s.thermal.derating][i]? = some b → flags1.getLsbD i = b) →
      (∀ (i : Nat) (b : Bool), [s.thermal.ch0.faulty, s.thermal.ch1.faulty, s.thermal.ch2.faulty,
        s.notices.override.isSome, s.timer.clock.isNone, s.inspect.restartWait.isSome, false, false][i]? = some b →
          flags2.getLsbD i = b) →
      s.viewItems 1 start count = some
        [bytesBE 1 s.stand.standing.code, bytesBE 1 (if s.timer.running then 1 else 0), bytesBE 1 s.timer.sliceIndex,
         bytesBE 2 s.timer.sliceCounter, bytesBE 2 s.timer.roundCount, bytesBE 3 (s.timer.clock.getD 16777215),
         bytesBE 1 s.stand.listenCount, bytesBE 1 s.stand.silentStreak, bytesBE 1 s.stand.rejoinCount,
         bytesBE 1 s.stand.isolationCount, [flags1, flags2], bytesBE 2 s.stage.applied, bytesBE 2 s.share.allotment,
         bytesBE 2 (s.stage.pendingIncrease.getD 0), bytesBE 1 s.notices.table.length,
         bytesBE 1 (if s.notices.override.isSome then 1 else 0),
         bytesBE 2 ((s.notices.override.map Override.value).getD 0),
         bytesBE 2 ((s.notices.override.map Override.rounds).getD 0), bytesBE 1 (temp s.thermal.ch0.reading),
         bytesBE 1 (temp s.thermal.ch1.reading), bytesBE 1 (temp s.thermal.ch2.reading), bytesBE 1 (temp s.thermal.hot),
         bytesBE 2 s.thermal.mEff, bytesBE 2 s.meter.roundCount, bytesBE 2 s.meter.holdCount,
         bytesBE 2 (s.meter.ceiling.getD 0), bytesBE 2 s.line.counters.framesHeard,
         bytesBE 2 s.line.counters.lineErrors, bytesBE 2 s.line.counters.collisions,
         bytesBE 2 s.line.counters.claimsUnposted, bytesBE 2 s.line.counters.foreignFrames,
         bytesBE 2 s.line.counters.queriesDropped]) ∧
  (∀ (s : State) (start count : Nat),
      s.viewItems 2 start count = some
        ((bytesBE 1 s.peers.entries.length ++ bytesBE 3 s.peers.dHanded ++ bytesBE 1 s.peers.claimantsHanded) ::
          ((s.peers.entries.drop start).take (max 1 (min 8 count))).map fun e =>
            bytesBE 1 e.bay ++ bytesBE 2 e.lastHeard ++ bytesBE 1 e.standing.code ++ [e.phase] ++ bytesBE 2 e.q ++
              bytesBE 2 e.m ++ bytesBE 2 e.f ++ bytesBE 2 e.k ++ bytesBE 2 e.pEff ++ [e.flags, e.reasons.byte] ++
              bytesBE 1 e.sequence ++ bytesBE 1 (e.missed s.timer.roundCount) ++
              bytesBE 1 (entryState (e.missed s.timer.roundCount)).code) ∧
      s.viewItems 3 start count = some
        ((bytesBE 1 s.notices.table.length ++ bytesBE 1 (if s.notices.override.isSome then 1 else 0) ++
            bytesBE 2 ((s.notices.override.map Override.value).getD 0) ++
            bytesBE 2 ((s.notices.override.map Override.rounds).getD 0)) ::
          ((s.notices.table.drop start).take (max 1 (min 8 count))).map fun e =>
            bytesBE 2 e.van ++ bytesBE 3 e.departure ++ bytesBE 3 (e.target.getD 0) ++
              bytesBE 3 (match s.timer.clock with
                | none => 16777215
                | some now => (e.departure + 86400 - now) % 86400)) ∧
      (s.session = none → s.viewItems 4 start count = some [[0]]) ∧
      (∀ x, s.session = some x → s.viewItems 4 start count = some
        [bytesBE 1 x.phase.code, bytesBE 2 x.van, bytesBE 3 x.need, bytesBE 3 x.target, bytesBE 1 x.targetSource.code,
         bytesBE 3 x.departure, bytesBE 1 x.departureSource.code, bytesBE 2 x.vanMax, bytesBE 2 x.floor,
         bytesBE 2 x.precondPower, bytesBE 2 x.precondTime, bytesBE 4 x.delivered, bytesBE 2 x.opening,
         [x.holds.byte], bytesBE 1 x.meterHolds, bytesBE 1 x.meterRoundsLeft, bytesBE 1 x.overdrawStreak,
         bytesBE 1 (faultCode x.faultReason), bytesBE 3 (x.plugSecond.getD 16777215),
         bytesBE 3 (min (s.runningWh x) 16777215)]) ∧
      (s.last = none → s.viewItems 5 start count = some []) ∧
      (∀ l, s.last = some l → s.viewItems 5 start count = some
        [bytesBE 2 l.van, bytesBE 3 (min l.delivered 16777215), bytesBE 1 l.reason.code, bytesBE 1 l.finalPhase.code]) ∧
      (∀ (i : Installer) (marks1 marks2 : Byte), i = s.store.installer →
        (∀ (n : Nat) (b : Bool), [i.bay.isNone, i.bayCount.isNone, i.feederLimit.isNone, i.reserve.isNone,
          i.sliceDiv.isNone, i.roundDiv.isNone, i.stepLag.isNone, i.ppk.isNone][n]? = some b → marks1.getLsbD n = b) →
        (∀ (n : Nat) (b : Bool), [i.edges.isNone, i.derateStart.isNone, i.derateEnd.isNone, i.defaultDeparture.isNone,
          false, false, false, false][n]? = some b → marks2.getLsbD n = b) →
        s.viewItems 6 start count = some
          [bytesBE 4 s.store.serial.toNat, bytesBE 2 s.store.stageRating, bytesBE 1 (if i.locked then 1 else 0),
           [marks1, marks2], bytesBE 1 (i.bay.getD 0), bytesBE 1 (i.bayCount.getD 0), bytesBE 2 (i.feederLimit.getD 0),
           bytesBE 1 (i.reserve.getD 0), bytesBE 2 (i.sliceDiv.getD 0), bytesBE 1 (i.roundDiv.getD 0),
           bytesBE 1 (i.stepLag.getD 0), bytesBE 2 (i.ppk.getD 0), bytesBE 1 (i.edges.getD 0),
           bytesBE 1 ((i.derateStart.map (· + 40)).getD 0), bytesBE 1 ((i.derateEnd.map (· + 40)).getD 0),
           bytesBE 3 (i.defaultDeparture.getD 0)]) ∧
      ∀ view, view = 0 ∨ 6 < view → s.viewItems view start count = none) ∧
  (∀ (e : PeerEntry) (h : HoldSet),
      e.flags = (if e.thermal then 1 else 0) + (if e.clash then 2 else 0) + (if e.hold then 4 else 0) ∧
      h.byte = (if h.driver then 1 else 0) + (if h.permit then 2 else 0) + (if h.thermal then 4 else 0) +
        (if h.meter then 8 else 0)) ∧
  ([Standing.starting, .setup, .listening, .joined, .isolated, .rejoining, .cutoff].map Standing.code =
      [0, 1, 2, 3, 4, 5, 6] ∧
    [Phase.vacant, .attached, .charging, .deferred, .held, .topped, .precondition, .fault].map Phase.code =
      [0, 1, 2, 3, 4, 5, 6, 7] ∧
    [TargetSource.van, .notice].map TargetSource.code = [1, 2] ∧
    [DepartureSource.notice, .default, .horizon].map DepartureSource.code = [1, 2, 3] ∧
    [none, some FaultReason.overdraw, some .meter].map faultCode = [0, 1, 2] ∧
    [EndReason.unplug, .superseded, .restart].map EndReason.code = [1, 2, 3] ∧
    [EntryState.fresh, .quiet, .lost, .removed].map EntryState.code = [0, 1, 2, 3]) ∧
  (∀ k n : Nat, (bytesBE k n).length = k ∧ (n < 256 ^ k → numBE (bytesBE k n) = n)) ∧
  (numBE [] = 0 ∧ ∀ (bs : List Byte) (b : Byte), numBE (bs ++ [b]) = numBE bs * 256 + b.toNat) ∧
  (∀ (s : State) (view start count : Nat) (items : List (List Byte)), s.viewItems view start count = some items →
      (∀ i ∈ items, i.length ≤ 47) ∧ (view = 1 → (cutParts [] items).map List.length = [46, 6]))

/-- A reply's parts carry its items whole and in order (R171): the items are grouped, one group to a part, each part is
the header and the joined items of its group, at most 47 bytes, and a group ends only where its next item does not fit.
A reply with no items is one part. The reply codes are 1 to 8. -/
def Obligations.ReplyParts : Prop :=
  ([ReplyCode.shown, .viewUnknown, .accepted, .notSetup, .fieldWritten, .range, .unknownField, .fieldBlank].map
    ReplyCode.code = [1, 2, 3, 4, 5, 6, 7, 8]) ∧
  ∀ (serial : BitVec 32) (tag : Byte) (code : ReplyCode) (subject : Byte) (items : List (List Byte)),
    (∀ i ∈ items, i.length ≤ 47) →
    ∃ groups : List (List (List Byte)), 1 ≤ groups.length ∧ groups.flatten = items ∧
      (∀ g ∈ groups, g.flatten.length ≤ 47) ∧
      (∀ (n : Nat) (g next : List (List Byte)), groups[n]? = some g → groups[n + 1]? = some next →
        ∃ i rest, next = i :: rest ∧ 47 < g.flatten.length + i.length) ∧
      (replyParts serial tag code subject items).length = groups.length ∧
      ∀ n g, groups[n]? = some g →
        (replyParts serial tag code subject items)[n]? = some
          (bytesBE 4 serial.toNat ++ [tag, BitVec.ofNat 8 code.code, subject, BitVec.ofNat 8 (n + 1),
            BitVec.ofNat 8 groups.length] ++ g.flatten)

/-- A QUERY or SETUP that is not decided: malformed ones are counted among line errors, those of another address
(R169: a QUERY by the own bay on the line, by the own serial in STARTING and SETUP) are passed over, and those taken
while a reply is pending are dropped and counted. The store, the pending reply and the restart wait stand. -/
def Obligations.RequestNotDecided : Prop :=
  ∀ (c : Instr) (kind : FrameKind) (sender : Byte) (s : State),
    frameOf c = some (kind, sender) →
    (∀ q v, queryOfCommand c = some (q, v) →
      ∃ t, exec c s = .next t ∧
        (q.length ≠ 9 ∨ (q.form ≠ 1 ∧ q.form ≠ 2) →
          t.line.counters.lineErrors = min 65535 (s.line.counters.lineErrors + 1) ∧
          t.line.counters.queriesDropped = s.line.counters.queriesDropped ∧ t.inspect = s.inspect) ∧
        (q.length = 9 → q.form = 1 ∨ q.form = 2 →
          ¬ ((s.onLine = true ∧ q.form = 1 ∧ q.target.toNat = s.cfg.bay) ∨
            (s.onLine = false ∧ q.form = 2 ∧ q.target = s.store.serial)) →
          t.line.counters.lineErrors = s.line.counters.lineErrors ∧
          t.line.counters.queriesDropped = s.line.counters.queriesDropped ∧ t.inspect = s.inspect) ∧
        (q.length = 9 →
          (s.onLine = true ∧ q.form = 1 ∧ q.target.toNat = s.cfg.bay) ∨
            (s.onLine = false ∧ q.form = 2 ∧ q.target = s.store.serial) →
          s.inspect.pendingReply.isSome = true →
          t.line.counters.lineErrors = s.line.counters.lineErrors ∧
          t.line.counters.queriesDropped = min 65535 (s.line.counters.queriesDropped + 1) ∧
          t.inspect = s.inspect) ∧
        t.store = s.store ∧ t.stand = (s.standingTakes sender.toNat).stand) ∧
    (∀ n r, setupOfCommand c = some (n, r) →
      ∃ t, exec c s = .next t ∧
        (n ≠ s.store.serial →
          t.line.counters.queriesDropped = s.line.counters.queriesDropped ∧ t.inspect = s.inspect ∧
          t.store = s.store ∧ t.stand = (s.standingTakes sender.toNat).stand) ∧
        (n = s.store.serial → s.inspect.pendingReply.isSome = true →
          t.line.counters.queriesDropped = min 65535 (s.line.counters.queriesDropped + 1) ∧
          t.inspect = s.inspect ∧ t.store = s.store ∧ t.stand = (s.standingTakes sender.toNat).stand) ∧
        t.line.counters.lineErrors = s.line.counters.lineErrors)

/-- SETUP_WRITE to the own serial with no reply pending: decided by the first check that fails (R177); the field takes
the value exactly where it is ACCEPTED, no other field changes, and a reply of one part carries the code. -/
def Obligations.SetupWrite : Prop :=
  ∀ (s : State) (bay field : Byte) (value : BitVec 32), s.inspect.pendingReply = none →
    ∃ (t : State) (code : ReplyCode) (part : List Byte), exec (.setupWrite bay s.store.serial field value) s = .next t ∧
      (s.stand.standing ≠ .setup → code = .notSetup) ∧
      (s.stand.standing = .setup →
        (field.toNat = 0 ∨ 14 < field.toNat → code = .unknownField) ∧
        (field.toNat = 13 ∨ field.toNat = 14 → code = .fieldWritten) ∧
        (s.store.installer.written field.toNat = some true → code = .fieldWritten) ∧
        (s.store.installer.written field.toNat = some false →
          (s.store.installer.admits field.toNat value.toNat = true → code = .accepted) ∧
          (s.store.installer.admits field.toNat value.toNat = false → code = .range))) ∧
      t.store = (if code = .accepted
        then { s.store with installer := s.store.installer.write field.toNat value.toNat } else s.store) ∧
      (code = .accepted → t.store.installer.written field.toNat = some true ∧
        t.store.installer.locked = s.store.installer.locked ∧
        ∀ other, other ≠ field.toNat → t.store.installer.written other = s.store.installer.written other) ∧
      (∀ (i : Installer) (v : Nat), code = .accepted → i = s.store.installer → v = value.toNat →
        (field = 1 → t.store.installer = { i with bay := some v }) ∧
        (field = 2 → t.store.installer = { i with bayCount := some v }) ∧
        (field = 3 → t.store.installer = { i with feederLimit := some v }) ∧
        (field = 4 → t.store.installer = { i with reserve := some v }) ∧
        (field = 5 → t.store.installer = { i with sliceDiv := some v }) ∧
        (field = 6 → t.store.installer = { i with roundDiv := some v }) ∧
        (field = 7 → t.store.installer = { i with stepLag := some v }) ∧
        (field = 8 → t.store.installer = { i with ppk := some v }) ∧
        (field = 9 → t.store.installer = { i with edges := some v }) ∧
        (field = 10 → t.store.installer = { i with derateStart := some v }) ∧
        (field = 11 → t.store.installer = { i with derateEnd := some v }) ∧
        (field = 12 → t.store.installer = { i with defaultDeparture := some v })) ∧
      part = bytesBE 4 s.store.serial.toNat ++ [0, BitVec.ofNat 8 code.code, 1, 1, 1] ∧
      t.inspect = { s.inspect with pendingReply := some ⟨[part], 1, .write⟩ } ∧
      t.line.outbox.reply = some ⟨part, 0⟩ ∧
      t.stand = (s.standingTakes bay.toNat).stand ∧
      t = { s with
        store := t.store, timer := { s.timer with aligned := t.timer.aligned }, stand := t.stand, share := t.share
        stage := t.stage, line := t.line, inspect := t.inspect, out := t.out }

/-- R178, with the ranges of R166 (those of the fields outside the pairs for every segment): the two pairs of fields
checked against each other in either order of writing, and a pair so admitted satisfies the ranges of R166 together.
A field is written where it holds a value; the codes are those of R166. -/
def Obligations.FieldChecks : Prop :=
  (∀ i : Installer,
      [1, 2, 3, 4, 5, 6, 7, 8, 9, 10, 11, 12].map i.written =
        [some i.bay.isSome, some i.bayCount.isSome, some i.feederLimit.isSome, some i.reserve.isSome,
         some i.sliceDiv.isSome, some i.roundDiv.isSome, some i.stepLag.isSome, some i.ppk.isSome,
         some i.edges.isSome, some i.derateStart.isSome, some i.derateEnd.isSome, some i.defaultDeparture.isSome] ∧
      ∀ code, code = 0 ∨ 12 < code → i.written code = none) ∧
  (∀ (i : Installer) (v : Nat), i.bay = none → i.bayCount = none → i.derateStart = none → i.derateEnd = none →
      (i.admits 1 v = true ↔ 1 ≤ v ∧ v ≤ 31) ∧ (i.admits 2 v = true ↔ 1 ≤ v ∧ v ≤ 31) ∧
      (i.admits 3 v = true ↔ 1 ≤ v ∧ v ≤ 65000) ∧ (i.admits 4 v = true ↔ v ≤ 25) ∧
      (i.admits 5 v = true ↔ 100 ≤ v ∧ v ≤ 2000) ∧ (i.admits 6 v = true ↔ 8 ≤ v ∧ v ≤ 60) ∧
      (i.admits 7 v = true ↔ v ≤ 7) ∧ (i.admits 8 v = true ↔ v = 100 ∨ v = 250 ∨ v = 500 ∨ v = 1000) ∧
      (i.admits 9 v = true ↔ v = 1 ∨ v = 2) ∧ (i.admits 10 v = true ↔ 40 ≤ v ∧ v ≤ 100) ∧
      (i.admits 11 v = true ↔ 45 ≤ v ∧ v ≤ 130) ∧ (i.admits 12 v = true ↔ v ≤ 86399)) ∧
  (∀ (i : Installer) (v : Nat),
      (i.admits 3 v = true ↔ 1 ≤ v ∧ v ≤ 65000) ∧ (i.admits 4 v = true ↔ v ≤ 25) ∧
      (i.admits 5 v = true ↔ 100 ≤ v ∧ v ≤ 2000) ∧ (i.admits 6 v = true ↔ 8 ≤ v ∧ v ≤ 60) ∧
      (i.admits 7 v = true ↔ v ≤ 7) ∧ (i.admits 8 v = true ↔ v = 100 ∨ v = 250 ∨ v = 500 ∨ v = 1000) ∧
      (i.admits 9 v = true ↔ v = 1 ∨ v = 2) ∧ (i.admits 12 v = true ↔ v ≤ 86399) ∧
      (∀ n, i.bayCount = some n → (i.admits 1 v = true ↔ (1 ≤ v ∧ v ≤ 31) ∧ ¬ n < v)) ∧
      (∀ b, i.bay = some b → (i.admits 2 v = true ↔ (1 ≤ v ∧ v ≤ 31) ∧ ¬ v < b)) ∧
      (∀ te, i.derateEnd = some te →
        (i.admits 10 v = true ↔ (40 ≤ v ∧ v ≤ 100) ∧ ((te : Int) - 40 ≤ v ∧ (v : Int) ≤ (te : Int) - 5))) ∧
      (∀ ts, i.derateStart = some ts → 40 ≤ ts →
        (i.admits 11 v = true ↔ (ts + 5 ≤ v ∧ v ≤ ts + 40) ∧ v ≤ 130)) ∧
      (i.bayCount = none → (i.admits 1 v = true ↔ 1 ≤ v ∧ v ≤ 31)) ∧
      (i.bay = none → (i.admits 2 v = true ↔ 1 ≤ v ∧ v ≤ 31)) ∧
      (i.derateEnd = none → (i.admits 10 v = true ↔ 40 ≤ v ∧ v ≤ 100)) ∧
      (i.derateStart = none → (i.admits 11 v = true ↔ 45 ≤ v ∧ v ≤ 130)) ∧
      (∀ code, i.Sound → i.written code = some false → i.locked = false → i.admits code v = true →
        (i.write code v).Sound))

/-- SETUP_LOCK to the own serial with no reply pending: NOT_SETUP outside SETUP; FIELD_BLANK while a mandatory field is
blank; otherwise every blank field takes its default, the lock is set, and the standing passes to STARTING, where a
store read begins (MODEL'S READING, log 22: while RESET is asserted it waits for the release). -/
def Obligations.SetupLock : Prop :=
  ∀ (s : State) (bay : Byte), s.inspect.pendingReply = none →
    ∃ (t : State) (code : ReplyCode) (part : List Byte), exec (.setupLock bay s.store.serial) s = .next t ∧
      part = bytesBE 4 s.store.serial.toNat ++ [0, BitVec.ofNat 8 code.code, 2, 1, 1] ∧
      t.inspect = { s.inspect with pendingReply := some ⟨[part], 1, .lock⟩ } ∧
      t.line.outbox.reply = some ⟨part, 0⟩ ∧
      (s.stand.standing ≠ .setup → code = .notSetup ∧ t.store = s.store ∧ t.storeRead = s.storeRead ∧
        t.stand = (s.standingTakes bay.toNat).stand) ∧
      (s.stand.standing = .setup →
        (s.store.installer.bay = none ∨ s.store.installer.bayCount = none ∨ s.store.installer.feederLimit = none →
          code = .fieldBlank ∧ t.store = s.store ∧ t.storeRead = s.storeRead ∧ t.stand = s.stand) ∧
        (s.store.installer.bay.isSome = true → s.store.installer.bayCount.isSome = true →
          s.store.installer.feederLimit.isSome = true → ∃ ts te, code = .accepted ∧
          t.store = { s.store with installer := { s.store.installer with
            reserve := some (s.store.installer.reserve.getD 5)
            sliceDiv := some (s.store.installer.sliceDiv.getD 500)
            roundDiv := some (s.store.installer.roundDiv.getD 20)
            stepLag := some (s.store.installer.stepLag.getD 2)
            ppk := some (s.store.installer.ppk.getD 1000)
            edges := some (s.store.installer.edges.getD 1)
            derateStart := some ts
            derateEnd := some te
            defaultDeparture := some (s.store.installer.defaultDeparture.getD 19800)
            locked := true } } ∧
          (∀ a, s.store.installer.derateStart = some a → ts = a) ∧
          (∀ b, s.store.installer.derateEnd = some b → te = b) ∧
          (s.store.installer.derateStart = none → s.store.installer.derateEnd = none → ts = 70 ∧ te = 90) ∧
          (∀ a, s.store.installer.derateStart = some a → s.store.installer.derateEnd = none → te = min (a + 20) 130) ∧
          (∀ b, s.store.installer.derateStart = none → s.store.installer.derateEnd = some b →
            ts = min 100 (max 40 (b - 20))) ∧
          t.stand = { s.stand with standing := .starting } ∧
          t.storeRead = if s.pins.reset then none else some 0)) ∧
      t = { s with
        store := t.store, storeRead := t.storeRead, timer := { s.timer with aligned := t.timer.aligned }
        stand := t.stand, share := t.share, stage := t.stage, line := t.line, inspect := t.inspect, out := t.out }

/-- SETUP_RESTART to the own serial with no reply pending, in every standing: accepted, the restart wait at 0 ms, the
station going on as before: but for the reply, only the standing unit takes the frame. -/
def Obligations.SetupRestart : Prop :=
  ∀ (s : State) (bay : Byte), s.inspect.pendingReply = none →
    ∃ t part, exec (.setupRestart bay s.store.serial) s = .next t ∧
      part = bytesBE 4 s.store.serial.toNat ++ [0, 3, 3, 1, 1] ∧
      t.inspect = { pendingReply := some ⟨[part], 1, .restart⟩, restartWait := some 0 } ∧
      t.line.outbox.reply = some ⟨part, 0⟩ ∧
      t.stand = (s.standingTakes bay.toNat).stand ∧
      t = { s with
        timer := { s.timer with aligned := t.timer.aligned }, stand := t.stand, share := t.share, stage := t.stage
        line := t.line, inspect := t.inspect, out := t.out } ∧
      (∃ q : State, q = s.standingTakes bay.toNat ∧ t.timer = q.timer ∧ t.stage = q.stage ∧ t.out = q.out) ∧
      (t.stand.standing = s.stand.standing → t.timer = s.timer ∧ t.share = s.share ∧ t.stage = s.stage ∧ t.out = s.out ∧
        t.line.outbox.mark = s.line.outbox.mark ∧ t.line.outbox.claim = s.line.outbox.claim) ∧
      t.share.allotment = s.share.allotment

/-! ### The depot line -/

/-- INVALID_FRAME and RECEIVE_ERROR: a line error counted, but for a character in error that a SKIP with nothing to
count discards; the character ends, the receiver skips to the quiet gap, and nothing else changes.
MODEL'S READING (log 9): RECEIVE_ERROR counts by the receiver's state. MODEL'S CHOICE (log 8): INVALID_FRAME is taken
during an own attempt too.
QUIET_GAP on a quiet line: HUNT, with a frame cut short counted; on an active line it changes nothing (MODEL'S CHOICE,
log 3). START_BIT_HEARD: the line is active and a backoff
wait is broken off, to run again with the same backoff. -/
def Obligations.LineEvents : Prop :=
  (∀ (b w : Nat) (a : Attempt), (Sender.waiting b w).rewait = .waiting b 0 ∧ Sender.idle.rewait = .idle ∧
      (Sender.sending a).rewait = .sending a) ∧
  (∀ s : State, exec .invalidFrame s = .next
        { s with line := { s.line with
            quietTimer := 0, lineActive := false, sender := s.line.sender.rewait, receiver := .skip true
            counters := { s.line.counters with lineErrors := min 65535 (s.line.counters.lineErrors + 1) } } }) ∧
  (∀ s : State, s.isSending = false →
      exec .receiveError s = .next
        { s with line := { s.line with
            quietTimer := 0, lineActive := false, sender := s.line.sender.rewait, receiver := .skip false
            counters := { s.line.counters with
              lineErrors := if s.line.receiver = .skip false then s.line.counters.lineErrors
                else min 65535 (s.line.counters.lineErrors + 1) } } }) ∧
  (∀ s : State, s.isSending = false →
      (s.line.lineActive = false → exec .quietGap s = .next
        { s with line := { s.line with
            quietTimer := max s.line.quietTimer 160, receiver := .hunt
            counters := { s.line.counters with
              lineErrors := match s.line.receiver with
                | .frame _ => min 65535 (s.line.counters.lineErrors + 1)
                | .hunt => s.line.counters.lineErrors
                | .skip _ => s.line.counters.lineErrors } } }) ∧
      (s.line.lineActive = true → exec .quietGap s = .next s) ∧
      exec .startBitHeard s = .next
        { s with line := { s.line with
            lineActive := true
            sender := match s.line.sender with
              | .waiting b _ => .waiting b 0
              | .idle => .idle
              | .sending a => .sending a } })

/-- CHARACTER_HEARD during an own attempt is read back (R157; MODEL'S CHOICE of the row, log 32): a character that
matches the one driven is counted, the last one that matches is the frame sent in full, and one that differs is a
collision.
Otherwise it is taken by the receiver's state (R160), but for the last character of a valid frame: the start byte and
any other character in HUNT; a character of a frame, its length byte, and its last character where the CRC or the kind
is wrong; a stray character, the first after a whole frame counted. -/
def Obligations.CharacterHeard : Prop :=
  ∀ (s : State) (c : Byte), ∃ t, exec (.characterHeard c) s = .next t ∧
    (∀ a, s.line.sender = .sending a →
      (a.bytes[a.heard]? = some c → a.heard + 1 ≠ a.bytes.length →
        t = { s with line := { s.line with
          quietTimer := 0, lineActive := false, sender := .sending { a with heard := a.heard + 1 } } }) ∧
      (a.bytes[a.heard]? = some c → a.heard + 1 = a.bytes.length → exec .sentInFull s = .next t) ∧
      (a.bytes[a.heard]? ≠ some c → exec .collision s = .next t)) ∧
    (s.isSending = false → ∀ (r : Receiver) (errors : Nat),
      (s.line.receiver = .hunt ∧ c = 0xA5 ∧ r = .frame [0xA5] ∧ errors = s.line.counters.lineErrors) ∨
      (s.line.receiver = .hunt ∧ c ≠ 0xA5 ∧ r = .skip false ∧
        errors = min 65535 (s.line.counters.lineErrors + 1)) ∨
      (s.line.receiver = .skip true ∧ r = .skip false ∧ errors = min 65535 (s.line.counters.lineErrors + 1)) ∨
      (s.line.receiver = .skip false ∧ r = .skip false ∧ errors = s.line.counters.lineErrors) ∨
      (∃ chars, s.line.receiver = .frame chars ∧ 1 ≤ chars.length ∧
        ((chars.length < 3 ∧ r = .frame (chars ++ [c]) ∧ errors = s.line.counters.lineErrors) ∨
         (chars.length = 3 ∧ 56 < c.toNat ∧ r = .skip false ∧
            errors = min 65535 (s.line.counters.lineErrors + 1)) ∨
         (chars.length = 3 ∧ c.toNat ≤ 56 ∧ r = .frame (chars ++ [c]) ∧ errors = s.line.counters.lineErrors) ∨
         (∃ len, chars[3]? = some len ∧ len.toNat ≤ 56 ∧ chars.length + 1 < len.toNat + 6 ∧
            r = .frame (chars ++ [c]) ∧ errors = s.line.counters.lineErrors) ∨
         (∃ kind sender len sum, len.toNat ≤ 56 ∧
            chars ++ [c] = 0xA5 :: kind :: sender :: len :: sum ∧ sum.length = len.toNat + 2 ∧
            (kind = 0 ∨ 8 ≤ kind.toNat ∨ sum.drop len.toNat ≠
              bytesBE 2 (crc (kind :: sender :: len :: sum.take len.toNat)).toNat) ∧
            r = .skip true ∧ errors = min 65535 (s.line.counters.lineErrors + 1)))) →
      t = { s with line := { s.line with
        quietTimer := 0, lineActive := false, sender := s.line.sender.rewait, receiver := r
        counters := { s.line.counters with lineErrors := errors } } })

/-- The characters of a frame heard one by one from HUNT do exactly what the row of the table for that frame does:
the format of R152 and its CRC are read as they are written. MODEL'S CHOICE (log 8): the row of a frame stands for its
last character, and CHARACTER_HEARD delivers the frame it completes.
The format of R152 and the kind codes of R154: the start byte, the code, the sender bay, the payload length, the payload,
and the CRC over all but the start byte, most significant byte first. The CRC starts from a register of all ones and takes
each byte's bits from the most significant; a step shifts the register left by one and, where its old top bit differs from
the bit taken, combines it with 0x1021; nothing is inverted at the end. -/
def Obligations.FrameByCharacters : Prop :=
  ([FrameKind.mark, .claim, .notice, .limit, .query, .reply, .setup].map FrameKind.code = [1, 2, 3, 4, 5, 6, 7] ∧
    ∀ (b : Byte) (k : FrameKind), FrameKind.ofCode b = some k ↔ k.code = b) ∧
  (∀ (kind : FrameKind) (sender : Byte) (payload : List Byte),
      frameBytes kind sender payload = [0xA5, kind.code, sender, BitVec.ofNat 8 payload.length] ++ payload ++
        bytesBE 2 (crc ([kind.code, sender, BitVec.ofNat 8 payload.length] ++ payload)).toNat) ∧
  (∀ (reg : BitVec 16) (bit : Bool), ∃ shifted, shifted = BitVec.ofNat 16 (2 * reg.toNat) ∧
      (bit = reg.getLsbD 15 → crcBit reg bit = shifted) ∧
      (bit ≠ reg.getLsbD 15 → crcBit reg bit = shifted ^^^ 0x1021#16)) ∧
  (crc [] = 0xFFFF#16 ∧ ∀ (bs : List Byte) (b : Byte), crc (bs ++ [b]) =
      [b.getLsbD 7, b.getLsbD 6, b.getLsbD 5, b.getLsbD 4, b.getLsbD 3, b.getLsbD 2, b.getLsbD 1, b.getLsbD 0].foldl
        crcBit (crc bs)) ∧
  ∀ (s : State) (kind : FrameKind) (sender : Byte) (payload : List Byte),
    s.line.receiver = .hunt → s.isSending = false → s.pending = [] → payload.length ≤ 56 →
    Host.Core.run Sys2Proof.core (payload.length + 6)
        { s with pending := (frameBytes kind sender payload).map Instr.characterHeard } =
      exec (rowOf kind sender payload s.pins.temps) s

/-- A claim goes on the line in the 16 bytes of R153, those sent 0 included; a well-formed one is read by a peer field for
field (R38, R153). -/
def Obligations.ClaimReadBack : Prop :=
  (∀ c : Claim, c.payload =
      bytesBE 1 c.standing.code ++ bytesBE 1 c.phase.code ++ bytesBE 2 c.q ++ bytesBE 2 c.mEff ++ bytesBE 2 c.f ++
        bytesBE 2 c.k ++ bytesBE 2 c.pEff ++
        [(if c.thermal then 1 else 0) + (if c.clash then 2 else 0) + (if c.hold then 4 else 0),
         (if c.reasons.driver then 1 else 0) + (if c.reasons.permit then 2 else 0) +
           (if c.reasons.thermal then 4 else 0) + (if c.reasons.meter then 8 else 0)] ++
        bytesBE 1 c.sequence ++ [0]) ∧
  ∀ (c : Claim) (bay round : Nat), c.WellFormed →
    ∃ e, peerEntryOf bay round c.payload = some e ∧ c.payload.length = 16 ∧
      e.bay = bay ∧ e.lastHeard = round ∧ e.standing = c.standing ∧ e.phase.toNat = c.phase.code ∧ e.q = c.q ∧
      e.m = c.mEff ∧ e.f = c.f ∧ e.k = c.k ∧ e.pEff = c.pEff ∧ e.thermal = c.thermal ∧ e.clash = c.clash ∧
      e.hold = c.hold ∧ e.reasons = c.reasons ∧ e.sequence = c.sequence

/-- SEND_ATTEMPT on a quiet line from WAITING: the frame of the highest occupied slot, in the order MARK, CLAIM, REPLY,
goes on the line under the own bay (0 in STARTING and SETUP), a MARK with the clock of that moment.
Placing a frame (R155, R156), and the generator (R163): an advance takes its state x to x × 7417 + 2851 modulo 65536, and
a draw of m values from the advanced state is x × m / 65536 rounded down. -/
def Obligations.AttemptBegins : Prop :=
  (∀ (o : Outbox) (f : Option Queued),
      o.set .mark f = { o with mark := f } ∧ o.set .claim f = { o with claim := f } ∧
      o.set .reply f = { o with reply := f } ∧ [Slot.mark, .claim, .reply].map o.get = [o.mark, o.claim, o.reply]) ∧
  (∀ (s : State) (slot : Slot) (payload : List Byte),
      s.line.Places (s.placeFrame slot payload).line slot payload ∧
      s.placeFrame slot payload = { s with line := (s.placeFrame slot payload).line }) ∧
  (∀ (g : BitVec 16) (m : Nat),
      (prngNext g).toNat = (g.toNat * 7417 + 2851) % 65536 ∧ prngValue m g = g.toNat * m / 65536) ∧
  ∀ (s : State) (b w : Nat) (bay : Byte), s.line.sender = .waiting b w → s.line.lineActive = false →
    bay = (if s.onLine then BitVec.ofNat 8 s.cfg.bay else 0) →
    (s.line.outbox.mark.isSome = true → exec .sendAttempt s = .next
      { s with line := { s.line with
          sender := .sending ⟨.mark, frameBytes .mark bay (bytesBE 3 (s.timer.clock.getD 16777215)), false, false, 0⟩ } }) ∧
    (∀ f, s.line.outbox.mark = none → s.line.outbox.claim = some f → exec .sendAttempt s = .next
      { s with line := { s.line with sender := .sending ⟨.claim, frameBytes .claim bay f.payload, false, false, 0⟩ } }) ∧
    (∀ f, s.line.outbox.mark = none → s.line.outbox.claim = none → s.line.outbox.reply = some f →
      exec .sendAttempt s = .next
        { s with line := { s.line with sender := .sending ⟨.reply, frameBytes .reply bay f.payload, false, false, 0⟩ } })

/-- SENT_IN_FULL: the characters have left the part, the frame leaves its slot unless a newer one holds it, and its
owner is told: a CLAIM is recorded SENT; a REPLY brings the next part, ends the reply, or carries out the restart. The
sender is IDLE with every slot empty and waits a first-attempt backoff, drawn then, otherwise. The receiver skips to the
quiet gap with nothing to count, and, but for the restart, no counter changes for an own frame (R160, R164). -/
def Obligations.SentInFull : Prop :=
  ∀ (s : State) (a : Attempt), s.line.sender = .sending a →
    ∃ t, exec .sentInFull s = .next t ∧
      t.out.line = s.out.line ++ [a.bytes] ∧
      t.line.receiver = .skip false ∧
      (t.line.outbox.isEmpty = true → t.line.sender = .idle) ∧
      (t.line.outbox.isEmpty = false → t.line.sender = .waiting (prngValue 16 (prngNext s.line.prng)) 0 ∧
        t.line.prng = prngNext s.line.prng) ∧
      (a.slot ≠ .reply ∨ (∀ r, s.inspect.pendingReply = some r → r.kind ≠ .restart) →
        t.line.counters = s.line.counters ∧ t.line.lineActive = false ∧ t.line.quietTimer = 0 ∧
        (t.line.outbox.isEmpty = true → t.line.prng = s.line.prng)) ∧
      (a.slot = .mark → t.line.outbox = (if a.replaced then s.line.outbox else { s.line.outbox with mark := none }) ∧
        t = { s with line := t.line, out := { s.out with line := t.out.line } }) ∧
      (a.slot = .claim →
        t.line.outbox = (if a.replaced then s.line.outbox else { s.line.outbox with claim := none }) ∧
        t.stand = { s.stand with
          claimRecord := .sent
          listenPosted := s.stand.listenPosted || s.stand.standing == .listening } ∧
        t = { s with line := t.line, stand := t.stand, out := { s.out with line := t.out.line } }) ∧
      (a.slot = .reply → ∀ r, s.inspect.pendingReply = some r →
        (r.kind = .restart → t.stand.standing = .starting ∧ t.line.outbox.isEmpty = true ∧
          t.inspect = { pendingReply := none, restartWait := none } ∧ t.timer.running = false ∧
          t.timer.clock = s.timer.clock ∧ t.session = none) ∧
        (r.kind ≠ .restart → r.parts[r.placed]? = none → t.inspect = { s.inspect with pendingReply := none } ∧
          t.line.outbox = (if a.replaced then s.line.outbox else { s.line.outbox with reply := none }) ∧
          t = { s with line := t.line, inspect := t.inspect, out := { s.out with line := t.out.line } }) ∧
        (∀ part, r.kind ≠ .restart → r.parts[r.placed]? = some part →
          t.inspect = { s.inspect with pendingReply := some { r with placed := r.placed + 1 } } ∧
          t.line.outbox = { s.line.outbox with reply := some ⟨part, 0⟩ } ∧
          t = { s with line := t.line, inspect := t.inspect, out := { s.out with line := t.out.line } })) ∧
      (a.slot = .reply → s.inspect.pendingReply = none →
        t = { s with line := t.line, out := { s.out with line := t.out.line } })

/-- COLLISION, and RECEIVE_ERROR during an own attempt (a framing error of a character read back, R157; MODEL'S CHOICE
of the row, log 32): counted; a frame of fewer than eight collisions stays in its slot, one more held against it; at the
eighth, or where a round end or slice 1 has passed, it is discarded and its owner told (a CLAIM recorded UNSENT unless
one was sent, and counted unposted; a reply abandoned but for a RESTART's); a frame a newer one has replaced is dropped
without report (what R158 says of such a CLAIM at a round end apart, log 13). -/
def Obligations.CollisionTaken : Prop :=
  ∀ (s : State) (a : Attempt), s.line.sender = .sending a →
    ∃ t, exec .collision s = .next t ∧ exec .receiveError s = .next t ∧
      t.line.counters.collisions = min 65535 (s.line.counters.collisions + 1) ∧
      t.line.receiver = .skip false ∧ t.out = s.out ∧
      (t.line.outbox.isEmpty = true → t.line.sender = .idle) ∧
      (t.line.outbox.isEmpty = true → t.line.prng = s.line.prng) ∧
      (t.line.outbox.isEmpty = false → t.line.sender = .waiting (prngValue 64 (prngNext s.line.prng)) 0 ∧
        t.line.prng = prngNext s.line.prng) ∧
      (a.replaced = true → t.line.outbox = s.line.outbox ∧
        (a.slot ≠ .claim ∨ a.noRetry = false → t = { s with line := t.line } ∧
          t.line.counters.claimsUnposted = s.line.counters.claimsUnposted)) ∧
      (∀ f, a.replaced = false → s.line.outbox.get a.slot = some f →
        (a.noRetry = false → f.collisions + 1 < 8 →
          t = { s with line := t.line } ∧ t.line.counters.claimsUnposted = s.line.counters.claimsUnposted ∧
          t.line.outbox = s.line.outbox.set a.slot (some { f with collisions := f.collisions + 1 })) ∧
        (a.noRetry = true ∨ 8 ≤ f.collisions + 1 →
          t.line.outbox = s.line.outbox.set a.slot none ∧
          (a.slot = .mark → t = { s with line := t.line }) ∧
          (a.slot = .claim → t = { s with line := t.line, stand := t.stand } ∧
            t.line.counters.claimsUnposted = min 65535 (s.line.counters.claimsUnposted + 1) ∧
            t.stand = { s.stand with
              claimRecord := if s.stand.claimRecord = .sent then .sent else .unsent }) ∧
          (a.slot = .reply → t = { s with line := t.line, inspect := t.inspect } ∧
            t.inspect.restartWait = s.inspect.restartWait ∧
            ∀ r, s.inspect.pendingReply = some r →
              t.inspect.pendingReply = if r.kind = .restart then some r else none)))

/-! ### The meter input and PERMIT -/

/-- METER_EDGE: the level changes; while rounds run, every edge with edges 2, and a rising edge with edges 1, adds one to
the slice count. PERMIT_FALLING: ENABLE off, applied power 0, no increase waiting, the slice not driven (R121); an open
session takes the PERMIT hold reason and, unless in FAULT, is HELD, entry to HELD re-forming the claim with q = 0 (R59).
PERMIT_RISING: the session loses that reason and keeps its phase, ENABLE follows the draw permission, and a slice not
driven so far stays so. Each sends one PHASE record where the hold reasons changed, and none otherwise (R74), and the
demand word due where it changes (MODEL'S READING, log 12); the cap state and the lag slice stand (R120). -/
def Obligations.InputEdges : Prop :=
  (∀ s : State, exec .meterEdge s = .next
      { s with
        pins := { s.pins with meterIn := !s.pins.meterIn }
        meter := { s.meter with
          sliceCount := if s.timer.running = true ∧ (s.cfg.edges = 2 ∨ s.pins.meterIn = false)
            then min 65535 (s.meter.sliceCount + 1) else s.meter.sliceCount } }) ∧
  (∀ s : State, s.pins.permit = true →
      ∃ t, exec .permitFalling s = .next t ∧
        t.pins = { s.pins with permit := false } ∧
        t.stage.enable = false ∧ t.stage.applied = 0 ∧ t.stage.pendingIncrease = none ∧
        t.stage.wordSent = 0 ∧
        (s.session = none → t = { s with pins := t.pins, stage := t.stage, out := t.out } ∧
          t.out.link = s.out.link) ∧
        (∀ x, s.session = some x → x.phase ≠ .vacant →
          t.session = some { x with
            holds := { x.holds with permit := true }
            phase := if x.holds.permit ∨ x.phase = .fault then x.phase else .held } ∧
          t.out.link = s.out.link ++ (if x.holds.permit then [] else
            [.phase t.phase t.holds (if x.phase = .fault then x.faultReason else none)])) ∧
        (∀ x, s.session = some x → s.onLine = true → x.phase ≠ .vacant → x.phase ≠ .held → x.phase ≠ .fault →
          x.holds.permit = false → ∃ c, c = ({ s with session := t.session } : State).claimNow ∧
            c.q = 0 ∧ c.phase = .held ∧ c.hold = true ∧ c.sequence = (s.share.sequence + 1) % 256 ∧
            t.share = { s.share with ownClaim := some c, sequence := c.sequence } ∧
            s.line.Places t.line .claim c.payload) ∧
        (∀ x, s.session = some x → x.phase = .held ∨ x.phase = .fault ∨ x.holds.permit = true →
          t.share = s.share ∧ t.line = s.line) ∧
        t.stage.sliceDriven = false ∧ s.SendsDue t ∧ t.out.line = s.out.line ∧
        t.share.allotment = s.share.allotment ∧
        t = { s with pins := t.pins, session := t.session, share := t.share, stage := t.stage, line := t.line
                     out := t.out }) ∧
  (∀ s : State, s.pins.permit = false →
      ∃ t, exec .permitRising s = .next t ∧
        t.pins = { s.pins with permit := true } ∧
        (s.session = none → t.session = none) ∧
        (∀ x, s.session = some x → t.session = some { x with holds := { x.holds with permit := false } }) ∧
        t.out.link = s.out.link ++ (if s.holds.permit then
          [.phase t.phase t.holds (t.session.bind fun x => if x.phase = .fault then x.faultReason else none)] else []) ∧
        (t.stage.sliceDriven = true → s.stage.sliceDriven = true ∧ t.stage.enable = true) ∧
        (s.stage.sliceDriven = true → t.permission = true →
          s.stage.wordSent = (if s.stage.cap then 0 else s.stage.applied) → t.stage.sliceDriven = true) ∧
        s.SendsDue t ∧ t.out.line = s.out.line ∧ t.stage.enable = t.permission ∧
        (t.permission = false → t.stage.applied = 0 ∧ t.stage.pendingIncrease = none) ∧
        (t.permission = true → t.stage.applied = s.stage.applied ∧
          t.stage.pendingIncrease = s.stage.pendingIncrease) ∧
        t = { s with pins := t.pins, session := t.session, stage := t.stage, out := t.out })

/-! ### The post link -/

/-- In STARTING and SETUP every record is answered IGNORED and changes nothing. -/
def Obligations.RecordsIgnored : Prop :=
  ∀ (s : State) (c : Instr) (kind : RecordKind), s.onLine = false →
    (c = .hold ∧ kind = .hold) ∨ (c = .resume ∧ kind = .resume) ∨ (c = .unplug ∧ kind = .unplug) ∨
      (∃ m, c = .taper m ∧ kind = .taper) ∨ (∃ r, c = .plug r ∧ kind = .plug) →
    exec c s = .next { s with out := { s.out with link := s.out.link ++ [.ack kind .ignored] } }

/-- PLUG: IGNORED for van 0 and in FAULT; otherwise a session is opened in ATTACHED with the clamped fields, an open one
being closed first as SUPERSEDED, the van's notice used and consumed, the power at 0 and ENABLE off, M_eff formed, and
the own claim left as it stood. MODEL'S READING (log 11): a PHASE record reports ATTACHED over an ATTACHED session too.
MODEL'S CHOICE (log 34): the permission is lost before the new M_eff clamps the power, so the one demand word sent, where
the word stood above 0, is 0. MODEL'S READING (log 12): none goes out where it stood at 0. -/
def Obligations.PlugTaken : Prop :=
  ∀ (s : State) (r : PlugRecord), s.onLine = true →
    (r.van = 0 ∨ s.phase = .fault → exec (.plug r) s = .next
      { s with out := { s.out with link := s.out.link ++ [.ack .plug .ignored] } }) ∧
    (r.van ≠ 0 → s.phase ≠ .fault → ∃ (t : State) (y : Session) (notice : Option NoticeEntry) (result : AckResult),
      exec (.plug r) s = .next t ∧
      t.session = some y ∧ y.van = r.van.toNat ∧ y.phase = .attached ∧
      y.need = min r.need.toNat 200000 ∧ y.vanMax = min r.vanMax.toNat s.cfg.stageRating ∧
      y.floor = min r.floor.toNat y.vanMax ∧ y.precondPower = min r.precondPower.toNat 300 ∧
      y.precondTime = min r.precondTime.toNat 3600 ∧ y.delivered = 0 ∧ y.opening = s.meter.roundCount ∧
      y.openedThisRound = true ∧ y.holds = {} ∧ y.meterHolds = 0 ∧ y.meterRoundsLeft = 0 ∧ y.overdrawStreak = 0 ∧
      y.faultReason = none ∧ y.plugSecond = s.timer.clock ∧
      notice = (s.notices.table.find? fun e => decide (e.van = r.van.toNat)) ∧
      (∀ e w, notice = some e → e.target = some w → y.target = min y.need w ∧ y.targetSource = .notice) ∧
      ((∀ e, notice = some e → e.target = none) → y.target = y.need ∧ y.targetSource = .van) ∧
      (s.timer.clock = none → y.departure = 28800 ∧ y.departureSource = .horizon) ∧
      (∀ now e d, s.timer.clock = some now → notice = some e → d = (e.departure + 86400 - now) % 86400 →
        y.departureSource = .notice ∧ y.departure = if d ≤ 72000 then d else 0) ∧
      (∀ now d, s.timer.clock = some now → notice = none → d = (s.cfg.defaultDeparture + 86400 - now) % 86400 →
        y.departureSource = .default ∧ y.departure = if d = 0 then 86400 else d) ∧
      (result = .taken ↔ y.need = r.need.toNat ∧ y.vanMax = r.vanMax.toNat ∧ y.floor = r.floor.toNat ∧
        y.precondPower = r.precondPower.toNat ∧ y.precondTime = r.precondTime.toNat) ∧
      (result = .taken ∨ result = .clamped) ∧
      t.out.link = s.out.link ++ [.ack .plug result, .phase .attached {} none] ∧
      t.notices = { s.notices with table := s.notices.table.filter fun e => decide (e.van ≠ r.van.toNat) } ∧
      t.last = (match s.session with
        | none => s.last
        | some x => some { van := x.van, delivered := s.runningWh x, reason := .superseded, finalPhase := x.phase }) ∧
      t.stage.applied = 0 ∧ t.stage.pendingIncrease = none ∧ t.stage.enable = false ∧ t.stage.wordSent = 0 ∧
      t.out.stage = s.out.stage ++ (if s.stage.wordSent = 0 then [] else [0]) ∧ t.out.line = s.out.line ∧
      s.SendsDue t ∧ t.stage.sliceDriven = false ∧
      t.thermal = { s.thermal with mEff := t.formedMEff } ∧
      t = { s with session := t.session, last := t.last, notices := t.notices, stage := t.stage
                   thermal := t.thermal, out := t.out })

/-- TAPER: IGNORED with no session; otherwise the van max power takes the new value clamped to the stage rating, M_eff
is formed anew, and the applied power is clamped to it; phase, floor and own claim stand.
RESUME: IGNORED while DRIVER is absent; otherwise DRIVER is removed, the phase, the draw permission and the own claim
stand, and the smaller set is reported.
Either sends the demand word due where it changes (MODEL'S READING, log 12); the cap state and the lag slice stand. -/
def Obligations.TaperAndResume : Prop :=
  (∀ (s : State) (m : BitVec 16), s.onLine = true →
      (s.session = none → exec (.taper m) s = .next
        { s with out := { s.out with link := s.out.link ++ [.ack .taper .ignored] } }) ∧
      (∀ x, s.session = some x → ∃ t, exec (.taper m) s = .next t ∧
        t.session = some { x with vanMax := min m.toNat s.cfg.stageRating } ∧
        t.out.link = s.out.link ++ [.ack .taper (if m.toNat ≤ s.cfg.stageRating then .taken else .clamped)] ∧
        t.thermal = { s.thermal with mEff := t.formedMEff } ∧
        t.stage.applied = min s.stage.applied t.thermal.mEff ∧
        t.stage.pendingIncrease = s.stage.pendingIncrease ∧ t.stage.enable = s.stage.enable ∧
        s.SendsDue t ∧ t.out.line = s.out.line ∧
        t = { s with session := t.session, stage := t.stage, thermal := t.thermal, out := t.out })) ∧
  (∀ s : State, s.onLine = true →
      (s.holds.driver = false → exec .resume s = .next
        { s with out := { s.out with link := s.out.link ++ [.ack .resume .ignored] } }) ∧
      (∀ x, s.session = some x → x.phase ≠ .vacant → x.holds.driver = true →
        ∃ (t : State) (h : HoldSet), exec .resume s = .next t ∧ h = { x.holds with driver := false } ∧
          t.session = some { x with holds := h } ∧
          t.out.link = s.out.link ++
            [.ack .resume .taken, .phase x.phase h (if x.phase = .fault then x.faultReason else none)] ∧
          t.stage.enable = s.permission ∧
          (s.permission = false → t.stage.applied = 0 ∧ t.stage.pendingIncrease = none) ∧
          (s.permission = true → t.stage.applied = s.stage.applied ∧
            t.stage.pendingIncrease = s.stage.pendingIncrease) ∧
          (s.DrawSafe → t.stage = s.stage ∧ t.out.stage = s.out.stage) ∧
          s.SendsDue t ∧ t.out.line = s.out.line ∧
          t = { s with session := t.session, stage := t.stage, out := t.out }))

/-- HOLD (R81): IGNORED in VACANT and FAULT; TAKEN with no effect with DRIVER in the set; otherwise DRIVER is added, the
phase is HELD, entry to it re-forming the claim with q = 0 (R59, R91), and the permission is lost (R113): a demand word of 0
goes out where the word stood above 0 (MODEL'S READING, log 12, where it stood at 0); the cap state and the lag slice
stand. -/
def Obligations.HoldTaken : Prop :=
  ∀ s : State, s.onLine = true →
    (s.phase = .vacant ∨ s.phase = .fault → exec .hold s = .next
      { s with out := { s.out with link := s.out.link ++ [.ack .hold .ignored] } }) ∧
    (∀ x, s.session = some x → x.phase ≠ .vacant → x.phase ≠ .fault → x.holds.driver = true →
      exec .hold s = .next { s with out := { s.out with link := s.out.link ++ [.ack .hold .taken] } }) ∧
    (∀ x, s.session = some x → x.phase ≠ .vacant → x.phase ≠ .fault → x.holds.driver = false →
      ∃ (t : State) (h : HoldSet), exec .hold s = .next t ∧ h = { x.holds with driver := true } ∧
        t.session = some { x with holds := h, phase := .held } ∧
        t.out.link = s.out.link ++ [.ack .hold .taken, .phase .held h none] ∧
        t.stage.applied = 0 ∧ t.stage.pendingIncrease = none ∧ t.stage.enable = false ∧
        t.stage.wordSent = 0 ∧ t.stage.sliceDriven = false ∧ s.SendsDue t ∧ t.out.line = s.out.line ∧
        (x.phase ≠ .held → ∃ c, t.share = { s.share with ownClaim := some c, sequence := (s.share.sequence + 1) % 256 } ∧
          c = ({ s with session := t.session } : State).claimNow ∧
          c.q = 0 ∧ c.hold = true ∧ c.phase = .held ∧ s.line.Places t.line .claim c.payload) ∧
        (x.phase = .held → t.share = s.share ∧ t.line = s.line) ∧
        t = { s with session := t.session, share := t.share, stage := t.stage, line := t.line, out := t.out })

/-- UNPLUG: IGNORED in VACANT; otherwise the session is closed with end reason UNPLUG and its running delivered energy,
a claim with q = 0 is formed, and the power is 0 with ENABLE off: a demand word of 0 goes out where the word stood above 0
(MODEL'S READING, log 12, where it stood at 0); the cap state and the lag slice stand. -/
def Obligations.UnplugTaken : Prop :=
  ∀ s : State, s.onLine = true →
    (s.session = none → exec .unplug s = .next
      { s with out := { s.out with link := s.out.link ++ [.ack .unplug .ignored] } }) ∧
    (∀ x, s.session = some x → x.phase ≠ .vacant → ∃ t c, exec .unplug s = .next t ∧
      t.session = none ∧
      t.last = some { van := x.van, delivered := s.runningWh x, reason := .unplug, finalPhase := x.phase } ∧
      t.out.link = s.out.link ++ [.ack .unplug .taken, .phase .vacant {} none] ∧
      t.share = { s.share with ownClaim := some c, sequence := (s.share.sequence + 1) % 256 } ∧
      c = ({ s with session := none } : State).claimNow ∧
      c.q = 0 ∧ c.phase = .vacant ∧ s.line.Places t.line .claim c.payload ∧
      t.stage.applied = 0 ∧ t.stage.pendingIncrease = none ∧ t.stage.enable = false ∧
      t.stage.wordSent = 0 ∧ t.stage.sliceDriven = false ∧ s.SendsDue t ∧ t.out.line = s.out.line ∧
      t.thermal = { s.thermal with mEff := 0 } ∧
      t = { s with session := none, last := t.last, share := t.share, stage := t.stage, thermal := t.thermal
                   line := t.line, out := t.out })

/-! ### What every step keeps -/

/-- The invariants below hold at reset. -/
def Obligations.InvariantsAtReset : Prop :=
  State.reset.RoundsInv ∧ State.reset.store.installer.Sound ∧ State.reset.TimerInv ∧ State.reset.DrawInv ∧
    State.reset.line.OutboxInv ∧ State.reset.PeersInv ∧ State.reset.NoticesInv ∧ State.reset.SessionInv ∧
    State.reset.stand.Sound ∧ State.reset.ClaimInv

/-- The installer segment keeps its ranges, pairs and lock; once locked it never changes; the factory segment never
changes at all. -/
def Obligations.StoreKept : Prop :=
  ∀ s t : State, s.store.installer.Sound → step s = .next t →
    t.store.installer.Sound ∧ t.store.serial = s.store.serial ∧ t.store.stageRating = s.store.stageRating ∧
      (s.store.installer.locked = true → t.store = s.store)

/-- Slice counter and index stay in their ranges, the sub-second count below 1000, a set clock a second of day. -/
def Obligations.TimerKept : Prop :=
  ∀ s t : State, s.TimerInv → step s = .next t → t.TimerInv

/-- SAFETY OF THE FEEDER AND THE STAGE (R112, R118). ENABLE is the draw permission; without it the power is 0; the
applied power never exceeds the allotment, M_eff or the stage rating; the stage holds the word due; and a slice is driven
so far (R121) only with ENABLE on and a word above 0 sent.
The draw permission (R112) holds in CHARGING and PRECONDITION alone, with PERMIT high, in JOINED, ISOLATED and REJOINING
alone; with no session the phase is VACANT and the set of hold reasons empty (R71). -/
def Obligations.DrawKept : Prop :=
  (∀ s : State,
      (s.permission = true ↔ (s.phase = .charging ∨ s.phase = .precondition) ∧ s.pins.permit = true ∧
        (s.stand.standing = .joined ∨ s.stand.standing = .isolated ∨ s.stand.standing = .rejoining)) ∧
      (s.session = none → s.phase = .vacant ∧ s.holds = {}) ∧
      ∀ x, s.session = some x → s.phase = x.phase ∧ s.holds = x.holds) ∧
  ∀ s t : State, s.DrawInv → step s = .next t → t.DrawInv

/-- The sender is IDLE exactly with nothing to send, no frame is held that has collided eight times, and an attempt under
way has a character still to be read back. -/
def Obligations.OutboxKept : Prop :=
  ∀ s t : State, s.line.OutboxInv → step s = .next t → t.line.OutboxInv

/-- The peer table keeps ascending bay order and holds peer bays of 1..N alone; the notice table keeps at most 48 entries,
one for a van, none for the van in session. -/
def Obligations.TablesKept : Prop :=
  (∀ s t : State, s.PeersInv → step s = .next t → t.PeersInv) ∧
  (∀ s t : State, s.NoticesInv → step s = .next t → t.NoticesInv)

/-- An open session keeps its ranges (R71), with hold reasons in HELD and FAULT alone and a fault reason exactly in
FAULT; the standing unit keeps its ranges. -/
def Obligations.SessionAndStandingKept : Prop :=
  (∀ s t : State, s.SessionInv → step s = .next t → t.SessionInv) ∧
  (∀ s t : State, s.stand.Sound → step s = .next t → t.stand.Sound)

/-- Every claim the station forms is well formed as its peers check it (R38, R56). -/
def Obligations.ClaimKept : Prop :=
  ∀ s t : State, s.ClaimInv → step s = .next t → t.ClaimInv

/-- R67: between round ends the allotment is held. A step that takes no round end, no restart and no power-up leaves it
as it was; and no command touches the queue. The rows left out here take a round end or a restart in some states and not
in others, and other statements have them: MARK_FRAME (O23 for a late one, O24, O25), CHARACTER_HEARD (O40, and O41 with
the row of the frame it completes), SENT_IN_FULL (O44), the restarts (O4, O5, and O3 where they do not occur),
NATURAL_ROUND_END (O14, and O3), and the tick (O2). -/
def Obligations.AllotmentHeld : Prop :=
  ∀ (c : Instr) (s : State),
    (∃ t, exec c s = .next t ∧ t.pending = s.pending) ∧
    ((∀ temps, c ≠ .naturalRoundEnd temps) → (∀ b p temps, c ≠ .markFrame b p temps) →
      (∀ b, c ≠ .characterHeard b) → c ≠ .powerUp → c ≠ .resetAsserted → c ≠ .restartWaitExpiry →
      c ≠ .sentInFull → ∃ t, exec c s = .next t ∧ t.share.allotment = s.share.allotment)
end

