-- ==== Sys2Proof/Laws/State.lean ====
section
/-! SUPPORT. One lemma per untouched field per operation, tagged simp, so that no later proof unfolds a record update. -/

namespace Sys2Proof.Machine

@[simp] theorem State.countLineError_pins (s : State) : s.countLineError.pins = s.pins := rfl
@[simp] theorem State.countLineError_store (s : State) : s.countLineError.store = s.store := rfl
@[simp] theorem State.countLineError_storeRead (s : State) : s.countLineError.storeRead = s.storeRead := rfl
@[simp] theorem State.countLineError_settings (s : State) : s.countLineError.settings = s.settings := rfl
@[simp] theorem State.countLineError_timer (s : State) : s.countLineError.timer = s.timer := rfl
@[simp] theorem State.countLineError_stand (s : State) : s.countLineError.stand = s.stand := rfl
@[simp] theorem State.countLineError_peers (s : State) : s.countLineError.peers = s.peers := rfl
@[simp] theorem State.countLineError_share (s : State) : s.countLineError.share = s.share := rfl
@[simp] theorem State.countLineError_session (s : State) : s.countLineError.session = s.session := rfl
@[simp] theorem State.countLineError_last (s : State) : s.countLineError.last = s.last := rfl
@[simp] theorem State.countLineError_notices (s : State) : s.countLineError.notices = s.notices := rfl
@[simp] theorem State.countLineError_stage (s : State) : s.countLineError.stage = s.stage := rfl
@[simp] theorem State.countLineError_meter (s : State) : s.countLineError.meter = s.meter := rfl
@[simp] theorem State.countLineError_thermal (s : State) : s.countLineError.thermal = s.thermal := rfl
@[simp] theorem State.countLineError_inspect (s : State) : s.countLineError.inspect = s.inspect := rfl
@[simp] theorem State.countLineError_out (s : State) : s.countLineError.out = s.out := rfl
@[simp] theorem State.countLineError_choices (s : State) : s.countLineError.choices = s.choices := rfl
@[simp] theorem State.countLineError_freeCount (s : State) : s.countLineError.freeCount = s.freeCount := rfl
@[simp] theorem State.countLineError_pending (s : State) : s.countLineError.pending = s.pending := rfl

@[simp] theorem State.countCollision_pins (s : State) : s.countCollision.pins = s.pins := rfl
@[simp] theorem State.countCollision_store (s : State) : s.countCollision.store = s.store := rfl
@[simp] theorem State.countCollision_storeRead (s : State) : s.countCollision.storeRead = s.storeRead := rfl
@[simp] theorem State.countCollision_settings (s : State) : s.countCollision.settings = s.settings := rfl
@[simp] theorem State.countCollision_timer (s : State) : s.countCollision.timer = s.timer := rfl
@[simp] theorem State.countCollision_stand (s : State) : s.countCollision.stand = s.stand := rfl
@[simp] theorem State.countCollision_peers (s : State) : s.countCollision.peers = s.peers := rfl
@[simp] theorem State.countCollision_share (s : State) : s.countCollision.share = s.share := rfl
@[simp] theorem State.countCollision_session (s : State) : s.countCollision.session = s.session := rfl
@[simp] theorem State.countCollision_last (s : State) : s.countCollision.last = s.last := rfl
@[simp] theorem State.countCollision_notices (s : State) : s.countCollision.notices = s.notices := rfl
@[simp] theorem State.countCollision_stage (s : State) : s.countCollision.stage = s.stage := rfl
@[simp] theorem State.countCollision_meter (s : State) : s.countCollision.meter = s.meter := rfl
@[simp] theorem State.countCollision_thermal (s : State) : s.countCollision.thermal = s.thermal := rfl
@[simp] theorem State.countCollision_inspect (s : State) : s.countCollision.inspect = s.inspect := rfl
@[simp] theorem State.countCollision_out (s : State) : s.countCollision.out = s.out := rfl
@[simp] theorem State.countCollision_choices (s : State) : s.countCollision.choices = s.choices := rfl
@[simp] theorem State.countCollision_freeCount (s : State) : s.countCollision.freeCount = s.freeCount := rfl
@[simp] theorem State.countCollision_pending (s : State) : s.countCollision.pending = s.pending := rfl

@[simp] theorem State.countUnposted_pins (s : State) : s.countUnposted.pins = s.pins := rfl
@[simp] theorem State.countUnposted_store (s : State) : s.countUnposted.store = s.store := rfl
@[simp] theorem State.countUnposted_storeRead (s : State) : s.countUnposted.storeRead = s.storeRead := rfl
@[simp] theorem State.countUnposted_settings (s : State) : s.countUnposted.settings = s.settings := rfl
@[simp] theorem State.countUnposted_timer (s : State) : s.countUnposted.timer = s.timer := rfl
@[simp] theorem State.countUnposted_stand (s : State) : s.countUnposted.stand = s.stand := rfl
@[simp] theorem State.countUnposted_peers (s : State) : s.countUnposted.peers = s.peers := rfl
@[simp] theorem State.countUnposted_share (s : State) : s.countUnposted.share = s.share := rfl
@[simp] theorem State.countUnposted_session (s : State) : s.countUnposted.session = s.session := rfl
@[simp] theorem State.countUnposted_last (s : State) : s.countUnposted.last = s.last := rfl
@[simp] theorem State.countUnposted_notices (s : State) : s.countUnposted.notices = s.notices := rfl
@[simp] theorem State.countUnposted_stage (s : State) : s.countUnposted.stage = s.stage := rfl
@[simp] theorem State.countUnposted_meter (s : State) : s.countUnposted.meter = s.meter := rfl
@[simp] theorem State.countUnposted_thermal (s : State) : s.countUnposted.thermal = s.thermal := rfl
@[simp] theorem State.countUnposted_inspect (s : State) : s.countUnposted.inspect = s.inspect := rfl
@[simp] theorem State.countUnposted_out (s : State) : s.countUnposted.out = s.out := rfl
@[simp] theorem State.countUnposted_choices (s : State) : s.countUnposted.choices = s.choices := rfl
@[simp] theorem State.countUnposted_freeCount (s : State) : s.countUnposted.freeCount = s.freeCount := rfl
@[simp] theorem State.countUnposted_pending (s : State) : s.countUnposted.pending = s.pending := rfl

@[simp] theorem State.countDropped_pins (s : State) : s.countDropped.pins = s.pins := rfl
@[simp] theorem State.countDropped_store (s : State) : s.countDropped.store = s.store := rfl
@[simp] theorem State.countDropped_storeRead (s : State) : s.countDropped.storeRead = s.storeRead := rfl
@[simp] theorem State.countDropped_settings (s : State) : s.countDropped.settings = s.settings := rfl
@[simp] theorem State.countDropped_timer (s : State) : s.countDropped.timer = s.timer := rfl
@[simp] theorem State.countDropped_stand (s : State) : s.countDropped.stand = s.stand := rfl
@[simp] theorem State.countDropped_peers (s : State) : s.countDropped.peers = s.peers := rfl
@[simp] theorem State.countDropped_share (s : State) : s.countDropped.share = s.share := rfl
@[simp] theorem State.countDropped_session (s : State) : s.countDropped.session = s.session := rfl
@[simp] theorem State.countDropped_last (s : State) : s.countDropped.last = s.last := rfl
@[simp] theorem State.countDropped_notices (s : State) : s.countDropped.notices = s.notices := rfl
@[simp] theorem State.countDropped_stage (s : State) : s.countDropped.stage = s.stage := rfl
@[simp] theorem State.countDropped_meter (s : State) : s.countDropped.meter = s.meter := rfl
@[simp] theorem State.countDropped_thermal (s : State) : s.countDropped.thermal = s.thermal := rfl
@[simp] theorem State.countDropped_inspect (s : State) : s.countDropped.inspect = s.inspect := rfl
@[simp] theorem State.countDropped_out (s : State) : s.countDropped.out = s.out := rfl
@[simp] theorem State.countDropped_choices (s : State) : s.countDropped.choices = s.choices := rfl
@[simp] theorem State.countDropped_freeCount (s : State) : s.countDropped.freeCount = s.freeCount := rfl
@[simp] theorem State.countDropped_pending (s : State) : s.countDropped.pending = s.pending := rfl

@[simp] theorem State.setSlot_pins (k : Slot) (f : Option Queued) (s : State) : (s.setSlot k f).pins = s.pins := rfl
@[simp] theorem State.setSlot_store (k : Slot) (f : Option Queued) (s : State) : (s.setSlot k f).store = s.store := rfl
@[simp] theorem State.setSlot_storeRead (k : Slot) (f : Option Queued) (s : State) : (s.setSlot k f).storeRead = s.storeRead := rfl
@[simp] theorem State.setSlot_settings (k : Slot) (f : Option Queued) (s : State) : (s.setSlot k f).settings = s.settings := rfl
@[simp] theorem State.setSlot_timer (k : Slot) (f : Option Queued) (s : State) : (s.setSlot k f).timer = s.timer := rfl
@[simp] theorem State.setSlot_stand (k : Slot) (f : Option Queued) (s : State) : (s.setSlot k f).stand = s.stand := rfl
@[simp] theorem State.setSlot_peers (k : Slot) (f : Option Queued) (s : State) : (s.setSlot k f).peers = s.peers := rfl
@[simp] theorem State.setSlot_share (k : Slot) (f : Option Queued) (s : State) : (s.setSlot k f).share = s.share := rfl
@[simp] theorem State.setSlot_session (k : Slot) (f : Option Queued) (s : State) : (s.setSlot k f).session = s.session := rfl
@[simp] theorem State.setSlot_last (k : Slot) (f : Option Queued) (s : State) : (s.setSlot k f).last = s.last := rfl
@[simp] theorem State.setSlot_notices (k : Slot) (f : Option Queued) (s : State) : (s.setSlot k f).notices = s.notices := rfl
@[simp] theorem State.setSlot_stage (k : Slot) (f : Option Queued) (s : State) : (s.setSlot k f).stage = s.stage := rfl
@[simp] theorem State.setSlot_meter (k : Slot) (f : Option Queued) (s : State) : (s.setSlot k f).meter = s.meter := rfl
@[simp] theorem State.setSlot_thermal (k : Slot) (f : Option Queued) (s : State) : (s.setSlot k f).thermal = s.thermal := rfl
@[simp] theorem State.setSlot_inspect (k : Slot) (f : Option Queued) (s : State) : (s.setSlot k f).inspect = s.inspect := rfl
@[simp] theorem State.setSlot_out (k : Slot) (f : Option Queued) (s : State) : (s.setSlot k f).out = s.out := rfl
@[simp] theorem State.setSlot_choices (k : Slot) (f : Option Queued) (s : State) : (s.setSlot k f).choices = s.choices := rfl
@[simp] theorem State.setSlot_freeCount (k : Slot) (f : Option Queued) (s : State) : (s.setSlot k f).freeCount = s.freeCount := rfl
@[simp] theorem State.setSlot_pending (k : Slot) (f : Option Queued) (s : State) : (s.setSlot k f).pending = s.pending := rfl

@[simp] theorem State.setSender_pins (x : Sender) (s : State) : (s.setSender x).pins = s.pins := rfl
@[simp] theorem State.setSender_store (x : Sender) (s : State) : (s.setSender x).store = s.store := rfl
@[simp] theorem State.setSender_storeRead (x : Sender) (s : State) : (s.setSender x).storeRead = s.storeRead := rfl
@[simp] theorem State.setSender_settings (x : Sender) (s : State) : (s.setSender x).settings = s.settings := rfl
@[simp] theorem State.setSender_timer (x : Sender) (s : State) : (s.setSender x).timer = s.timer := rfl
@[simp] theorem State.setSender_stand (x : Sender) (s : State) : (s.setSender x).stand = s.stand := rfl
@[simp] theorem State.setSender_peers (x : Sender) (s : State) : (s.setSender x).peers = s.peers := rfl
@[simp] theorem State.setSender_share (x : Sender) (s : State) : (s.setSender x).share = s.share := rfl
@[simp] theorem State.setSender_session (x : Sender) (s : State) : (s.setSender x).session = s.session := rfl
@[simp] theorem State.setSender_last (x : Sender) (s : State) : (s.setSender x).last = s.last := rfl
@[simp] theorem State.setSender_notices (x : Sender) (s : State) : (s.setSender x).notices = s.notices := rfl
@[simp] theorem State.setSender_stage (x : Sender) (s : State) : (s.setSender x).stage = s.stage := rfl
@[simp] theorem State.setSender_meter (x : Sender) (s : State) : (s.setSender x).meter = s.meter := rfl
@[simp] theorem State.setSender_thermal (x : Sender) (s : State) : (s.setSender x).thermal = s.thermal := rfl
@[simp] theorem State.setSender_inspect (x : Sender) (s : State) : (s.setSender x).inspect = s.inspect := rfl
@[simp] theorem State.setSender_out (x : Sender) (s : State) : (s.setSender x).out = s.out := rfl
@[simp] theorem State.setSender_choices (x : Sender) (s : State) : (s.setSender x).choices = s.choices := rfl
@[simp] theorem State.setSender_freeCount (x : Sender) (s : State) : (s.setSender x).freeCount = s.freeCount := rfl
@[simp] theorem State.setSender_pending (x : Sender) (s : State) : (s.setSender x).pending = s.pending := rfl

@[simp] theorem State.setReceiver_pins (r : Receiver) (s : State) : (s.setReceiver r).pins = s.pins := rfl
@[simp] theorem State.setReceiver_store (r : Receiver) (s : State) : (s.setReceiver r).store = s.store := rfl
@[simp] theorem State.setReceiver_storeRead (r : Receiver) (s : State) : (s.setReceiver r).storeRead = s.storeRead := rfl
@[simp] theorem State.setReceiver_settings (r : Receiver) (s : State) : (s.setReceiver r).settings = s.settings := rfl
@[simp] theorem State.setReceiver_timer (r : Receiver) (s : State) : (s.setReceiver r).timer = s.timer := rfl
@[simp] theorem State.setReceiver_stand (r : Receiver) (s : State) : (s.setReceiver r).stand = s.stand := rfl
@[simp] theorem State.setReceiver_peers (r : Receiver) (s : State) : (s.setReceiver r).peers = s.peers := rfl
@[simp] theorem State.setReceiver_share (r : Receiver) (s : State) : (s.setReceiver r).share = s.share := rfl
@[simp] theorem State.setReceiver_session (r : Receiver) (s : State) : (s.setReceiver r).session = s.session := rfl
@[simp] theorem State.setReceiver_last (r : Receiver) (s : State) : (s.setReceiver r).last = s.last := rfl
@[simp] theorem State.setReceiver_notices (r : Receiver) (s : State) : (s.setReceiver r).notices = s.notices := rfl
@[simp] theorem State.setReceiver_stage (r : Receiver) (s : State) : (s.setReceiver r).stage = s.stage := rfl
@[simp] theorem State.setReceiver_meter (r : Receiver) (s : State) : (s.setReceiver r).meter = s.meter := rfl
@[simp] theorem State.setReceiver_thermal (r : Receiver) (s : State) : (s.setReceiver r).thermal = s.thermal := rfl
@[simp] theorem State.setReceiver_inspect (r : Receiver) (s : State) : (s.setReceiver r).inspect = s.inspect := rfl
@[simp] theorem State.setReceiver_out (r : Receiver) (s : State) : (s.setReceiver r).out = s.out := rfl
@[simp] theorem State.setReceiver_choices (r : Receiver) (s : State) : (s.setReceiver r).choices = s.choices := rfl
@[simp] theorem State.setReceiver_freeCount (r : Receiver) (s : State) : (s.setReceiver r).freeCount = s.freeCount := rfl
@[simp] theorem State.setReceiver_pending (r : Receiver) (s : State) : (s.setReceiver r).pending = s.pending := rfl

@[simp] theorem State.characterEnds_pins (s : State) : s.characterEnds.pins = s.pins := rfl
@[simp] theorem State.characterEnds_store (s : State) : s.characterEnds.store = s.store := rfl
@[simp] theorem State.characterEnds_storeRead (s : State) : s.characterEnds.storeRead = s.storeRead := rfl
@[simp] theorem State.characterEnds_settings (s : State) : s.characterEnds.settings = s.settings := rfl
@[simp] theorem State.characterEnds_timer (s : State) : s.characterEnds.timer = s.timer := rfl
@[simp] theorem State.characterEnds_stand (s : State) : s.characterEnds.stand = s.stand := rfl
@[simp] theorem State.characterEnds_peers (s : State) : s.characterEnds.peers = s.peers := rfl
@[simp] theorem State.characterEnds_share (s : State) : s.characterEnds.share = s.share := rfl
@[simp] theorem State.characterEnds_session (s : State) : s.characterEnds.session = s.session := rfl
@[simp] theorem State.characterEnds_last (s : State) : s.characterEnds.last = s.last := rfl
@[simp] theorem State.characterEnds_notices (s : State) : s.characterEnds.notices = s.notices := rfl
@[simp] theorem State.characterEnds_stage (s : State) : s.characterEnds.stage = s.stage := rfl
@[simp] theorem State.characterEnds_meter (s : State) : s.characterEnds.meter = s.meter := rfl
@[simp] theorem State.characterEnds_thermal (s : State) : s.characterEnds.thermal = s.thermal := rfl
@[simp] theorem State.characterEnds_inspect (s : State) : s.characterEnds.inspect = s.inspect := rfl
@[simp] theorem State.characterEnds_out (s : State) : s.characterEnds.out = s.out := rfl
@[simp] theorem State.characterEnds_choices (s : State) : s.characterEnds.choices = s.choices := rfl
@[simp] theorem State.characterEnds_freeCount (s : State) : s.characterEnds.freeCount = s.freeCount := rfl
@[simp] theorem State.characterEnds_pending (s : State) : s.characterEnds.pending = s.pending := rfl

@[simp] theorem State.countFrame_pins (k : FrameKind) (b : Nat) (s : State) : (s.countFrame k b).pins = s.pins := rfl
@[simp] theorem State.countFrame_store (k : FrameKind) (b : Nat) (s : State) : (s.countFrame k b).store = s.store := rfl
@[simp] theorem State.countFrame_storeRead (k : FrameKind) (b : Nat) (s : State) : (s.countFrame k b).storeRead = s.storeRead := rfl
@[simp] theorem State.countFrame_settings (k : FrameKind) (b : Nat) (s : State) : (s.countFrame k b).settings = s.settings := rfl
@[simp] theorem State.countFrame_timer (k : FrameKind) (b : Nat) (s : State) : (s.countFrame k b).timer = s.timer := rfl
@[simp] theorem State.countFrame_stand (k : FrameKind) (b : Nat) (s : State) : (s.countFrame k b).stand = s.stand := rfl
@[simp] theorem State.countFrame_peers (k : FrameKind) (b : Nat) (s : State) : (s.countFrame k b).peers = s.peers := rfl
@[simp] theorem State.countFrame_share (k : FrameKind) (b : Nat) (s : State) : (s.countFrame k b).share = s.share := rfl
@[simp] theorem State.countFrame_session (k : FrameKind) (b : Nat) (s : State) : (s.countFrame k b).session = s.session := rfl
@[simp] theorem State.countFrame_last (k : FrameKind) (b : Nat) (s : State) : (s.countFrame k b).last = s.last := rfl
@[simp] theorem State.countFrame_notices (k : FrameKind) (b : Nat) (s : State) : (s.countFrame k b).notices = s.notices := rfl
@[simp] theorem State.countFrame_stage (k : FrameKind) (b : Nat) (s : State) : (s.countFrame k b).stage = s.stage := rfl
@[simp] theorem State.countFrame_meter (k : FrameKind) (b : Nat) (s : State) : (s.countFrame k b).meter = s.meter := rfl
@[simp] theorem State.countFrame_thermal (k : FrameKind) (b : Nat) (s : State) : (s.countFrame k b).thermal = s.thermal := rfl
@[simp] theorem State.countFrame_inspect (k : FrameKind) (b : Nat) (s : State) : (s.countFrame k b).inspect = s.inspect := rfl
@[simp] theorem State.countFrame_out (k : FrameKind) (b : Nat) (s : State) : (s.countFrame k b).out = s.out := rfl
@[simp] theorem State.countFrame_choices (k : FrameKind) (b : Nat) (s : State) : (s.countFrame k b).choices = s.choices := rfl
@[simp] theorem State.countFrame_freeCount (k : FrameKind) (b : Nat) (s : State) : (s.countFrame k b).freeCount = s.freeCount := rfl
@[simp] theorem State.countFrame_pending (k : FrameKind) (b : Nat) (s : State) : (s.countFrame k b).pending = s.pending := rfl

@[simp] theorem State.takeFrame_pins (k : FrameKind) (b : Nat) (s : State) : (s.takeFrame k b).pins = s.pins := rfl
@[simp] theorem State.takeFrame_store (k : FrameKind) (b : Nat) (s : State) : (s.takeFrame k b).store = s.store := rfl
@[simp] theorem State.takeFrame_storeRead (k : FrameKind) (b : Nat) (s : State) : (s.takeFrame k b).storeRead = s.storeRead := rfl
@[simp] theorem State.takeFrame_settings (k : FrameKind) (b : Nat) (s : State) : (s.takeFrame k b).settings = s.settings := rfl
@[simp] theorem State.takeFrame_timer (k : FrameKind) (b : Nat) (s : State) : (s.takeFrame k b).timer = s.timer := rfl
@[simp] theorem State.takeFrame_stand (k : FrameKind) (b : Nat) (s : State) : (s.takeFrame k b).stand = s.stand := rfl
@[simp] theorem State.takeFrame_peers (k : FrameKind) (b : Nat) (s : State) : (s.takeFrame k b).peers = s.peers := rfl
@[simp] theorem State.takeFrame_share (k : FrameKind) (b : Nat) (s : State) : (s.takeFrame k b).share = s.share := rfl
@[simp] theorem State.takeFrame_session (k : FrameKind) (b : Nat) (s : State) : (s.takeFrame k b).session = s.session := rfl
@[simp] theorem State.takeFrame_last (k : FrameKind) (b : Nat) (s : State) : (s.takeFrame k b).last = s.last := rfl
@[simp] theorem State.takeFrame_notices (k : FrameKind) (b : Nat) (s : State) : (s.takeFrame k b).notices = s.notices := rfl
@[simp] theorem State.takeFrame_stage (k : FrameKind) (b : Nat) (s : State) : (s.takeFrame k b).stage = s.stage := rfl
@[simp] theorem State.takeFrame_meter (k : FrameKind) (b : Nat) (s : State) : (s.takeFrame k b).meter = s.meter := rfl
@[simp] theorem State.takeFrame_thermal (k : FrameKind) (b : Nat) (s : State) : (s.takeFrame k b).thermal = s.thermal := rfl
@[simp] theorem State.takeFrame_inspect (k : FrameKind) (b : Nat) (s : State) : (s.takeFrame k b).inspect = s.inspect := rfl
@[simp] theorem State.takeFrame_out (k : FrameKind) (b : Nat) (s : State) : (s.takeFrame k b).out = s.out := rfl
@[simp] theorem State.takeFrame_choices (k : FrameKind) (b : Nat) (s : State) : (s.takeFrame k b).choices = s.choices := rfl
@[simp] theorem State.takeFrame_freeCount (k : FrameKind) (b : Nat) (s : State) : (s.takeFrame k b).freeCount = s.freeCount := rfl
@[simp] theorem State.takeFrame_pending (k : FrameKind) (b : Nat) (s : State) : (s.takeFrame k b).pending = s.pending := rfl

@[simp] theorem State.sendWord_pins (s : State) : s.sendWord.pins = s.pins := rfl
@[simp] theorem State.sendWord_store (s : State) : s.sendWord.store = s.store := rfl
@[simp] theorem State.sendWord_storeRead (s : State) : s.sendWord.storeRead = s.storeRead := rfl
@[simp] theorem State.sendWord_settings (s : State) : s.sendWord.settings = s.settings := rfl
@[simp] theorem State.sendWord_timer (s : State) : s.sendWord.timer = s.timer := rfl
@[simp] theorem State.sendWord_stand (s : State) : s.sendWord.stand = s.stand := rfl
@[simp] theorem State.sendWord_peers (s : State) : s.sendWord.peers = s.peers := rfl
@[simp] theorem State.sendWord_share (s : State) : s.sendWord.share = s.share := rfl
@[simp] theorem State.sendWord_session (s : State) : s.sendWord.session = s.session := rfl
@[simp] theorem State.sendWord_last (s : State) : s.sendWord.last = s.last := rfl
@[simp] theorem State.sendWord_notices (s : State) : s.sendWord.notices = s.notices := rfl
@[simp] theorem State.sendWord_meter (s : State) : s.sendWord.meter = s.meter := rfl
@[simp] theorem State.sendWord_thermal (s : State) : s.sendWord.thermal = s.thermal := rfl
@[simp] theorem State.sendWord_line (s : State) : s.sendWord.line = s.line := rfl
@[simp] theorem State.sendWord_inspect (s : State) : s.sendWord.inspect = s.inspect := rfl
@[simp] theorem State.sendWord_choices (s : State) : s.sendWord.choices = s.choices := rfl
@[simp] theorem State.sendWord_freeCount (s : State) : s.sendWord.freeCount = s.freeCount := rfl
@[simp] theorem State.sendWord_pending (s : State) : s.sendWord.pending = s.pending := rfl

@[simp] theorem State.sendLink_pins (r : LinkRecord) (s : State) : (s.sendLink r).pins = s.pins := rfl
@[simp] theorem State.sendLink_store (r : LinkRecord) (s : State) : (s.sendLink r).store = s.store := rfl
@[simp] theorem State.sendLink_storeRead (r : LinkRecord) (s : State) : (s.sendLink r).storeRead = s.storeRead := rfl
@[simp] theorem State.sendLink_settings (r : LinkRecord) (s : State) : (s.sendLink r).settings = s.settings := rfl
@[simp] theorem State.sendLink_timer (r : LinkRecord) (s : State) : (s.sendLink r).timer = s.timer := rfl
@[simp] theorem State.sendLink_stand (r : LinkRecord) (s : State) : (s.sendLink r).stand = s.stand := rfl
@[simp] theorem State.sendLink_peers (r : LinkRecord) (s : State) : (s.sendLink r).peers = s.peers := rfl
@[simp] theorem State.sendLink_share (r : LinkRecord) (s : State) : (s.sendLink r).share = s.share := rfl
@[simp] theorem State.sendLink_session (r : LinkRecord) (s : State) : (s.sendLink r).session = s.session := rfl
@[simp] theorem State.sendLink_last (r : LinkRecord) (s : State) : (s.sendLink r).last = s.last := rfl
@[simp] theorem State.sendLink_notices (r : LinkRecord) (s : State) : (s.sendLink r).notices = s.notices := rfl
@[simp] theorem State.sendLink_stage (r : LinkRecord) (s : State) : (s.sendLink r).stage = s.stage := rfl
@[simp] theorem State.sendLink_meter (r : LinkRecord) (s : State) : (s.sendLink r).meter = s.meter := rfl
@[simp] theorem State.sendLink_thermal (r : LinkRecord) (s : State) : (s.sendLink r).thermal = s.thermal := rfl
@[simp] theorem State.sendLink_line (r : LinkRecord) (s : State) : (s.sendLink r).line = s.line := rfl
@[simp] theorem State.sendLink_inspect (r : LinkRecord) (s : State) : (s.sendLink r).inspect = s.inspect := rfl
@[simp] theorem State.sendLink_choices (r : LinkRecord) (s : State) : (s.sendLink r).choices = s.choices := rfl
@[simp] theorem State.sendLink_freeCount (r : LinkRecord) (s : State) : (s.sendLink r).freeCount = s.freeCount := rfl
@[simp] theorem State.sendLink_pending (r : LinkRecord) (s : State) : (s.sendLink r).pending = s.pending := rfl

@[simp] theorem State.sendPhase_pins (s : State) : s.sendPhase.pins = s.pins := rfl
@[simp] theorem State.sendPhase_store (s : State) : s.sendPhase.store = s.store := rfl
@[simp] theorem State.sendPhase_storeRead (s : State) : s.sendPhase.storeRead = s.storeRead := rfl
@[simp] theorem State.sendPhase_settings (s : State) : s.sendPhase.settings = s.settings := rfl
@[simp] theorem State.sendPhase_timer (s : State) : s.sendPhase.timer = s.timer := rfl
@[simp] theorem State.sendPhase_stand (s : State) : s.sendPhase.stand = s.stand := rfl
@[simp] theorem State.sendPhase_peers (s : State) : s.sendPhase.peers = s.peers := rfl
@[simp] theorem State.sendPhase_share (s : State) : s.sendPhase.share = s.share := rfl
@[simp] theorem State.sendPhase_session (s : State) : s.sendPhase.session = s.session := rfl
@[simp] theorem State.sendPhase_last (s : State) : s.sendPhase.last = s.last := rfl
@[simp] theorem State.sendPhase_notices (s : State) : s.sendPhase.notices = s.notices := rfl
@[simp] theorem State.sendPhase_stage (s : State) : s.sendPhase.stage = s.stage := rfl
@[simp] theorem State.sendPhase_meter (s : State) : s.sendPhase.meter = s.meter := rfl
@[simp] theorem State.sendPhase_thermal (s : State) : s.sendPhase.thermal = s.thermal := rfl
@[simp] theorem State.sendPhase_line (s : State) : s.sendPhase.line = s.line := rfl
@[simp] theorem State.sendPhase_inspect (s : State) : s.sendPhase.inspect = s.inspect := rfl
@[simp] theorem State.sendPhase_choices (s : State) : s.sendPhase.choices = s.choices := rfl
@[simp] theorem State.sendPhase_freeCount (s : State) : s.sendPhase.freeCount = s.freeCount := rfl
@[simp] theorem State.sendPhase_pending (s : State) : s.sendPhase.pending = s.pending := rfl

@[simp] theorem State.ack_pins (k : RecordKind) (r : AckResult) (s : State) : (s.ack k r).pins = s.pins := rfl
@[simp] theorem State.ack_store (k : RecordKind) (r : AckResult) (s : State) : (s.ack k r).store = s.store := rfl
@[simp] theorem State.ack_storeRead (k : RecordKind) (r : AckResult) (s : State) : (s.ack k r).storeRead = s.storeRead := rfl
@[simp] theorem State.ack_settings (k : RecordKind) (r : AckResult) (s : State) : (s.ack k r).settings = s.settings := rfl
@[simp] theorem State.ack_timer (k : RecordKind) (r : AckResult) (s : State) : (s.ack k r).timer = s.timer := rfl
@[simp] theorem State.ack_stand (k : RecordKind) (r : AckResult) (s : State) : (s.ack k r).stand = s.stand := rfl
@[simp] theorem State.ack_peers (k : RecordKind) (r : AckResult) (s : State) : (s.ack k r).peers = s.peers := rfl
@[simp] theorem State.ack_share (k : RecordKind) (r : AckResult) (s : State) : (s.ack k r).share = s.share := rfl
@[simp] theorem State.ack_session (k : RecordKind) (r : AckResult) (s : State) : (s.ack k r).session = s.session := rfl
@[simp] theorem State.ack_last (k : RecordKind) (r : AckResult) (s : State) : (s.ack k r).last = s.last := rfl
@[simp] theorem State.ack_notices (k : RecordKind) (r : AckResult) (s : State) : (s.ack k r).notices = s.notices := rfl
@[simp] theorem State.ack_stage (k : RecordKind) (r : AckResult) (s : State) : (s.ack k r).stage = s.stage := rfl
@[simp] theorem State.ack_meter (k : RecordKind) (r : AckResult) (s : State) : (s.ack k r).meter = s.meter := rfl
@[simp] theorem State.ack_thermal (k : RecordKind) (r : AckResult) (s : State) : (s.ack k r).thermal = s.thermal := rfl
@[simp] theorem State.ack_line (k : RecordKind) (r : AckResult) (s : State) : (s.ack k r).line = s.line := rfl
@[simp] theorem State.ack_inspect (k : RecordKind) (r : AckResult) (s : State) : (s.ack k r).inspect = s.inspect := rfl
@[simp] theorem State.ack_choices (k : RecordKind) (r : AckResult) (s : State) : (s.ack k r).choices = s.choices := rfl
@[simp] theorem State.ack_freeCount (k : RecordKind) (r : AckResult) (s : State) : (s.ack k r).freeCount = s.freeCount := rfl
@[simp] theorem State.ack_pending (k : RecordKind) (r : AckResult) (s : State) : (s.ack k r).pending = s.pending := rfl

@[simp] theorem State.enterListening_pins (s : State) : s.enterListening.pins = s.pins := rfl
@[simp] theorem State.enterListening_store (s : State) : s.enterListening.store = s.store := rfl
@[simp] theorem State.enterListening_storeRead (s : State) : s.enterListening.storeRead = s.storeRead := rfl
@[simp] theorem State.enterListening_settings (s : State) : s.enterListening.settings = s.settings := rfl
@[simp] theorem State.enterListening_peers (s : State) : s.enterListening.peers = s.peers := rfl
@[simp] theorem State.enterListening_share (s : State) : s.enterListening.share = s.share := rfl
@[simp] theorem State.enterListening_session (s : State) : s.enterListening.session = s.session := rfl
@[simp] theorem State.enterListening_last (s : State) : s.enterListening.last = s.last := rfl
@[simp] theorem State.enterListening_notices (s : State) : s.enterListening.notices = s.notices := rfl
@[simp] theorem State.enterListening_stage (s : State) : s.enterListening.stage = s.stage := rfl
@[simp] theorem State.enterListening_meter (s : State) : s.enterListening.meter = s.meter := rfl
@[simp] theorem State.enterListening_thermal (s : State) : s.enterListening.thermal = s.thermal := rfl
@[simp] theorem State.enterListening_line (s : State) : s.enterListening.line = s.line := rfl
@[simp] theorem State.enterListening_inspect (s : State) : s.enterListening.inspect = s.inspect := rfl
@[simp] theorem State.enterListening_out (s : State) : s.enterListening.out = s.out := rfl
@[simp] theorem State.enterListening_choices (s : State) : s.enterListening.choices = s.choices := rfl
@[simp] theorem State.enterListening_freeCount (s : State) : s.enterListening.freeCount = s.freeCount := rfl
@[simp] theorem State.enterListening_pending (s : State) : s.enterListening.pending = s.pending := rfl

@[simp] theorem State.reportClaim_pins (b : Bool) (s : State) : (s.reportClaim b).pins = s.pins := rfl
@[simp] theorem State.reportClaim_store (b : Bool) (s : State) : (s.reportClaim b).store = s.store := rfl
@[simp] theorem State.reportClaim_storeRead (b : Bool) (s : State) : (s.reportClaim b).storeRead = s.storeRead := rfl
@[simp] theorem State.reportClaim_settings (b : Bool) (s : State) : (s.reportClaim b).settings = s.settings := rfl
@[simp] theorem State.reportClaim_timer (b : Bool) (s : State) : (s.reportClaim b).timer = s.timer := rfl
@[simp] theorem State.reportClaim_peers (b : Bool) (s : State) : (s.reportClaim b).peers = s.peers := rfl
@[simp] theorem State.reportClaim_share (b : Bool) (s : State) : (s.reportClaim b).share = s.share := rfl
@[simp] theorem State.reportClaim_session (b : Bool) (s : State) : (s.reportClaim b).session = s.session := rfl
@[simp] theorem State.reportClaim_last (b : Bool) (s : State) : (s.reportClaim b).last = s.last := rfl
@[simp] theorem State.reportClaim_notices (b : Bool) (s : State) : (s.reportClaim b).notices = s.notices := rfl
@[simp] theorem State.reportClaim_stage (b : Bool) (s : State) : (s.reportClaim b).stage = s.stage := rfl
@[simp] theorem State.reportClaim_meter (b : Bool) (s : State) : (s.reportClaim b).meter = s.meter := rfl
@[simp] theorem State.reportClaim_thermal (b : Bool) (s : State) : (s.reportClaim b).thermal = s.thermal := rfl
@[simp] theorem State.reportClaim_line (b : Bool) (s : State) : (s.reportClaim b).line = s.line := rfl
@[simp] theorem State.reportClaim_inspect (b : Bool) (s : State) : (s.reportClaim b).inspect = s.inspect := rfl
@[simp] theorem State.reportClaim_out (b : Bool) (s : State) : (s.reportClaim b).out = s.out := rfl
@[simp] theorem State.reportClaim_choices (b : Bool) (s : State) : (s.reportClaim b).choices = s.choices := rfl
@[simp] theorem State.reportClaim_freeCount (b : Bool) (s : State) : (s.reportClaim b).freeCount = s.freeCount := rfl
@[simp] theorem State.reportClaim_pending (b : Bool) (s : State) : (s.reportClaim b).pending = s.pending := rfl

@[simp] theorem State.beginRead_pins (s : State) : s.beginRead.pins = s.pins := rfl
@[simp] theorem State.beginRead_store (s : State) : s.beginRead.store = s.store := rfl
@[simp] theorem State.beginRead_settings (s : State) : s.beginRead.settings = s.settings := rfl
@[simp] theorem State.beginRead_timer (s : State) : s.beginRead.timer = s.timer := rfl
@[simp] theorem State.beginRead_stand (s : State) : s.beginRead.stand = s.stand := rfl
@[simp] theorem State.beginRead_peers (s : State) : s.beginRead.peers = s.peers := rfl
@[simp] theorem State.beginRead_share (s : State) : s.beginRead.share = s.share := rfl
@[simp] theorem State.beginRead_session (s : State) : s.beginRead.session = s.session := rfl
@[simp] theorem State.beginRead_last (s : State) : s.beginRead.last = s.last := rfl
@[simp] theorem State.beginRead_notices (s : State) : s.beginRead.notices = s.notices := rfl
@[simp] theorem State.beginRead_stage (s : State) : s.beginRead.stage = s.stage := rfl
@[simp] theorem State.beginRead_meter (s : State) : s.beginRead.meter = s.meter := rfl
@[simp] theorem State.beginRead_thermal (s : State) : s.beginRead.thermal = s.thermal := rfl
@[simp] theorem State.beginRead_line (s : State) : s.beginRead.line = s.line := rfl
@[simp] theorem State.beginRead_inspect (s : State) : s.beginRead.inspect = s.inspect := rfl
@[simp] theorem State.beginRead_out (s : State) : s.beginRead.out = s.out := rfl
@[simp] theorem State.beginRead_choices (s : State) : s.beginRead.choices = s.choices := rfl
@[simp] theorem State.beginRead_freeCount (s : State) : s.beginRead.freeCount = s.freeCount := rfl
@[simp] theorem State.beginRead_pending (s : State) : s.beginRead.pending = s.pending := rfl

@[simp] theorem State.agePeers_pins (n : Nat) (s : State) : (s.agePeers n).pins = s.pins := rfl
@[simp] theorem State.agePeers_store (n : Nat) (s : State) : (s.agePeers n).store = s.store := rfl
@[simp] theorem State.agePeers_storeRead (n : Nat) (s : State) : (s.agePeers n).storeRead = s.storeRead := rfl
@[simp] theorem State.agePeers_settings (n : Nat) (s : State) : (s.agePeers n).settings = s.settings := rfl
@[simp] theorem State.agePeers_timer (n : Nat) (s : State) : (s.agePeers n).timer = s.timer := rfl
@[simp] theorem State.agePeers_stand (n : Nat) (s : State) : (s.agePeers n).stand = s.stand := rfl
@[simp] theorem State.agePeers_share (n : Nat) (s : State) : (s.agePeers n).share = s.share := rfl
@[simp] theorem State.agePeers_session (n : Nat) (s : State) : (s.agePeers n).session = s.session := rfl
@[simp] theorem State.agePeers_last (n : Nat) (s : State) : (s.agePeers n).last = s.last := rfl
@[simp] theorem State.agePeers_notices (n : Nat) (s : State) : (s.agePeers n).notices = s.notices := rfl
@[simp] theorem State.agePeers_stage (n : Nat) (s : State) : (s.agePeers n).stage = s.stage := rfl
@[simp] theorem State.agePeers_meter (n : Nat) (s : State) : (s.agePeers n).meter = s.meter := rfl
@[simp] theorem State.agePeers_thermal (n : Nat) (s : State) : (s.agePeers n).thermal = s.thermal := rfl
@[simp] theorem State.agePeers_line (n : Nat) (s : State) : (s.agePeers n).line = s.line := rfl
@[simp] theorem State.agePeers_inspect (n : Nat) (s : State) : (s.agePeers n).inspect = s.inspect := rfl
@[simp] theorem State.agePeers_out (n : Nat) (s : State) : (s.agePeers n).out = s.out := rfl
@[simp] theorem State.agePeers_choices (n : Nat) (s : State) : (s.agePeers n).choices = s.choices := rfl
@[simp] theorem State.agePeers_freeCount (n : Nat) (s : State) : (s.agePeers n).freeCount = s.freeCount := rfl
@[simp] theorem State.agePeers_pending (n : Nat) (s : State) : (s.agePeers n).pending = s.pending := rfl

@[simp] theorem State.chooseAllotment_pins (p : Pool) (s : State) : (s.chooseAllotment p).pins = s.pins := rfl
@[simp] theorem State.chooseAllotment_store (p : Pool) (s : State) : (s.chooseAllotment p).store = s.store := rfl
@[simp] theorem State.chooseAllotment_storeRead (p : Pool) (s : State) : (s.chooseAllotment p).storeRead = s.storeRead := rfl
@[simp] theorem State.chooseAllotment_settings (p : Pool) (s : State) : (s.chooseAllotment p).settings = s.settings := rfl
@[simp] theorem State.chooseAllotment_timer (p : Pool) (s : State) : (s.chooseAllotment p).timer = s.timer := rfl
@[simp] theorem State.chooseAllotment_stand (p : Pool) (s : State) : (s.chooseAllotment p).stand = s.stand := rfl
@[simp] theorem State.chooseAllotment_peers (p : Pool) (s : State) : (s.chooseAllotment p).peers = s.peers := rfl
@[simp] theorem State.chooseAllotment_session (p : Pool) (s : State) : (s.chooseAllotment p).session = s.session := rfl
@[simp] theorem State.chooseAllotment_last (p : Pool) (s : State) : (s.chooseAllotment p).last = s.last := rfl
@[simp] theorem State.chooseAllotment_notices (p : Pool) (s : State) : (s.chooseAllotment p).notices = s.notices := rfl
@[simp] theorem State.chooseAllotment_stage (p : Pool) (s : State) : (s.chooseAllotment p).stage = s.stage := rfl
@[simp] theorem State.chooseAllotment_meter (p : Pool) (s : State) : (s.chooseAllotment p).meter = s.meter := rfl
@[simp] theorem State.chooseAllotment_thermal (p : Pool) (s : State) : (s.chooseAllotment p).thermal = s.thermal := rfl
@[simp] theorem State.chooseAllotment_line (p : Pool) (s : State) : (s.chooseAllotment p).line = s.line := rfl
@[simp] theorem State.chooseAllotment_inspect (p : Pool) (s : State) : (s.chooseAllotment p).inspect = s.inspect := rfl
@[simp] theorem State.chooseAllotment_out (p : Pool) (s : State) : (s.chooseAllotment p).out = s.out := rfl
@[simp] theorem State.chooseAllotment_choices (p : Pool) (s : State) : (s.chooseAllotment p).choices = s.choices := rfl
@[simp] theorem State.chooseAllotment_freeCount (p : Pool) (s : State) : (s.chooseAllotment p).freeCount = s.freeCount := rfl
@[simp] theorem State.chooseAllotment_pending (p : Pool) (s : State) : (s.chooseAllotment p).pending = s.pending := rfl

@[simp] theorem State.handDriven_pins (s : State) : s.handDriven.pins = s.pins := rfl
@[simp] theorem State.handDriven_store (s : State) : s.handDriven.store = s.store := rfl
@[simp] theorem State.handDriven_storeRead (s : State) : s.handDriven.storeRead = s.storeRead := rfl
@[simp] theorem State.handDriven_settings (s : State) : s.handDriven.settings = s.settings := rfl
@[simp] theorem State.handDriven_timer (s : State) : s.handDriven.timer = s.timer := rfl
@[simp] theorem State.handDriven_stand (s : State) : s.handDriven.stand = s.stand := rfl
@[simp] theorem State.handDriven_peers (s : State) : s.handDriven.peers = s.peers := rfl
@[simp] theorem State.handDriven_share (s : State) : s.handDriven.share = s.share := rfl
@[simp] theorem State.handDriven_session (s : State) : s.handDriven.session = s.session := rfl
@[simp] theorem State.handDriven_last (s : State) : s.handDriven.last = s.last := rfl
@[simp] theorem State.handDriven_notices (s : State) : s.handDriven.notices = s.notices := rfl
@[simp] theorem State.handDriven_stage (s : State) : s.handDriven.stage = s.stage := rfl
@[simp] theorem State.handDriven_thermal (s : State) : s.handDriven.thermal = s.thermal := rfl
@[simp] theorem State.handDriven_line (s : State) : s.handDriven.line = s.line := rfl
@[simp] theorem State.handDriven_inspect (s : State) : s.handDriven.inspect = s.inspect := rfl
@[simp] theorem State.handDriven_out (s : State) : s.handDriven.out = s.out := rfl
@[simp] theorem State.handDriven_choices (s : State) : s.handDriven.choices = s.choices := rfl
@[simp] theorem State.handDriven_freeCount (s : State) : s.handDriven.freeCount = s.freeCount := rfl
@[simp] theorem State.handDriven_pending (s : State) : s.handDriven.pending = s.pending := rfl

@[simp] theorem State.nextSlice_pins (s : State) : s.nextSlice.pins = s.pins := rfl
@[simp] theorem State.nextSlice_store (s : State) : s.nextSlice.store = s.store := rfl
@[simp] theorem State.nextSlice_storeRead (s : State) : s.nextSlice.storeRead = s.storeRead := rfl
@[simp] theorem State.nextSlice_settings (s : State) : s.nextSlice.settings = s.settings := rfl
@[simp] theorem State.nextSlice_stand (s : State) : s.nextSlice.stand = s.stand := rfl
@[simp] theorem State.nextSlice_peers (s : State) : s.nextSlice.peers = s.peers := rfl
@[simp] theorem State.nextSlice_share (s : State) : s.nextSlice.share = s.share := rfl
@[simp] theorem State.nextSlice_session (s : State) : s.nextSlice.session = s.session := rfl
@[simp] theorem State.nextSlice_last (s : State) : s.nextSlice.last = s.last := rfl
@[simp] theorem State.nextSlice_notices (s : State) : s.nextSlice.notices = s.notices := rfl
@[simp] theorem State.nextSlice_stage (s : State) : s.nextSlice.stage = s.stage := rfl
@[simp] theorem State.nextSlice_meter (s : State) : s.nextSlice.meter = s.meter := rfl
@[simp] theorem State.nextSlice_thermal (s : State) : s.nextSlice.thermal = s.thermal := rfl
@[simp] theorem State.nextSlice_line (s : State) : s.nextSlice.line = s.line := rfl
@[simp] theorem State.nextSlice_inspect (s : State) : s.nextSlice.inspect = s.inspect := rfl
@[simp] theorem State.nextSlice_out (s : State) : s.nextSlice.out = s.out := rfl
@[simp] theorem State.nextSlice_choices (s : State) : s.nextSlice.choices = s.choices := rfl
@[simp] theorem State.nextSlice_freeCount (s : State) : s.nextSlice.freeCount = s.freeCount := rfl
@[simp] theorem State.nextSlice_pending (s : State) : s.nextSlice.pending = s.pending := rfl

@[simp] theorem State.holdRound_pins (s : State) : s.holdRound.pins = s.pins := rfl
@[simp] theorem State.holdRound_store (s : State) : s.holdRound.store = s.store := rfl
@[simp] theorem State.holdRound_storeRead (s : State) : s.holdRound.storeRead = s.storeRead := rfl
@[simp] theorem State.holdRound_settings (s : State) : s.holdRound.settings = s.settings := rfl
@[simp] theorem State.holdRound_timer (s : State) : s.holdRound.timer = s.timer := rfl
@[simp] theorem State.holdRound_stand (s : State) : s.holdRound.stand = s.stand := rfl
@[simp] theorem State.holdRound_peers (s : State) : s.holdRound.peers = s.peers := rfl
@[simp] theorem State.holdRound_share (s : State) : s.holdRound.share = s.share := rfl
@[simp] theorem State.holdRound_session (s : State) : s.holdRound.session = s.session := rfl
@[simp] theorem State.holdRound_last (s : State) : s.holdRound.last = s.last := rfl
@[simp] theorem State.holdRound_notices (s : State) : s.holdRound.notices = s.notices := rfl
@[simp] theorem State.holdRound_stage (s : State) : s.holdRound.stage = s.stage := rfl
@[simp] theorem State.holdRound_thermal (s : State) : s.holdRound.thermal = s.thermal := rfl
@[simp] theorem State.holdRound_line (s : State) : s.holdRound.line = s.line := rfl
@[simp] theorem State.holdRound_inspect (s : State) : s.holdRound.inspect = s.inspect := rfl
@[simp] theorem State.holdRound_out (s : State) : s.holdRound.out = s.out := rfl
@[simp] theorem State.holdRound_choices (s : State) : s.holdRound.choices = s.choices := rfl
@[simp] theorem State.holdRound_freeCount (s : State) : s.holdRound.freeCount = s.freeCount := rfl
@[simp] theorem State.holdRound_pending (s : State) : s.holdRound.pending = s.pending := rfl

@[simp] theorem State.beginMeterRound_pins (s : State) : s.beginMeterRound.pins = s.pins := rfl
@[simp] theorem State.beginMeterRound_store (s : State) : s.beginMeterRound.store = s.store := rfl
@[simp] theorem State.beginMeterRound_storeRead (s : State) : s.beginMeterRound.storeRead = s.storeRead := rfl
@[simp] theorem State.beginMeterRound_settings (s : State) : s.beginMeterRound.settings = s.settings := rfl
@[simp] theorem State.beginMeterRound_timer (s : State) : s.beginMeterRound.timer = s.timer := rfl
@[simp] theorem State.beginMeterRound_stand (s : State) : s.beginMeterRound.stand = s.stand := rfl
@[simp] theorem State.beginMeterRound_peers (s : State) : s.beginMeterRound.peers = s.peers := rfl
@[simp] theorem State.beginMeterRound_share (s : State) : s.beginMeterRound.share = s.share := rfl
@[simp] theorem State.beginMeterRound_session (s : State) : s.beginMeterRound.session = s.session := rfl
@[simp] theorem State.beginMeterRound_last (s : State) : s.beginMeterRound.last = s.last := rfl
@[simp] theorem State.beginMeterRound_notices (s : State) : s.beginMeterRound.notices = s.notices := rfl
@[simp] theorem State.beginMeterRound_stage (s : State) : s.beginMeterRound.stage = s.stage := rfl
@[simp] theorem State.beginMeterRound_thermal (s : State) : s.beginMeterRound.thermal = s.thermal := rfl
@[simp] theorem State.beginMeterRound_line (s : State) : s.beginMeterRound.line = s.line := rfl
@[simp] theorem State.beginMeterRound_inspect (s : State) : s.beginMeterRound.inspect = s.inspect := rfl
@[simp] theorem State.beginMeterRound_out (s : State) : s.beginMeterRound.out = s.out := rfl
@[simp] theorem State.beginMeterRound_choices (s : State) : s.beginMeterRound.choices = s.choices := rfl
@[simp] theorem State.beginMeterRound_freeCount (s : State) : s.beginMeterRound.freeCount = s.freeCount := rfl
@[simp] theorem State.beginMeterRound_pending (s : State) : s.beginMeterRound.pending = s.pending := rfl

@[simp] theorem State.standingRoundEnd_pins (s : State) : s.standingRoundEnd.pins = s.pins := rfl
@[simp] theorem State.standingRoundEnd_store (s : State) : s.standingRoundEnd.store = s.store := rfl
@[simp] theorem State.standingRoundEnd_storeRead (s : State) : s.standingRoundEnd.storeRead = s.storeRead := rfl
@[simp] theorem State.standingRoundEnd_settings (s : State) : s.standingRoundEnd.settings = s.settings := rfl
@[simp] theorem State.standingRoundEnd_peers (s : State) : s.standingRoundEnd.peers = s.peers := rfl
@[simp] theorem State.standingRoundEnd_share (s : State) : s.standingRoundEnd.share = s.share := rfl
@[simp] theorem State.standingRoundEnd_session (s : State) : s.standingRoundEnd.session = s.session := rfl
@[simp] theorem State.standingRoundEnd_last (s : State) : s.standingRoundEnd.last = s.last := rfl
@[simp] theorem State.standingRoundEnd_notices (s : State) : s.standingRoundEnd.notices = s.notices := rfl
@[simp] theorem State.standingRoundEnd_stage (s : State) : s.standingRoundEnd.stage = s.stage := rfl
@[simp] theorem State.standingRoundEnd_meter (s : State) : s.standingRoundEnd.meter = s.meter := rfl
@[simp] theorem State.standingRoundEnd_thermal (s : State) : s.standingRoundEnd.thermal = s.thermal := rfl
@[simp] theorem State.standingRoundEnd_line (s : State) : s.standingRoundEnd.line = s.line := rfl
@[simp] theorem State.standingRoundEnd_inspect (s : State) : s.standingRoundEnd.inspect = s.inspect := rfl
@[simp] theorem State.standingRoundEnd_out (s : State) : s.standingRoundEnd.out = s.out := rfl
@[simp] theorem State.standingRoundEnd_choices (s : State) : s.standingRoundEnd.choices = s.choices := rfl
@[simp] theorem State.standingRoundEnd_freeCount (s : State) : s.standingRoundEnd.freeCount = s.freeCount := rfl
@[simp] theorem State.standingRoundEnd_pending (s : State) : s.standingRoundEnd.pending = s.pending := rfl

@[simp] theorem State.countOverride_pins (s : State) : s.countOverride.pins = s.pins := rfl
@[simp] theorem State.countOverride_store (s : State) : s.countOverride.store = s.store := rfl
@[simp] theorem State.countOverride_storeRead (s : State) : s.countOverride.storeRead = s.storeRead := rfl
@[simp] theorem State.countOverride_settings (s : State) : s.countOverride.settings = s.settings := rfl
@[simp] theorem State.countOverride_timer (s : State) : s.countOverride.timer = s.timer := rfl
@[simp] theorem State.countOverride_stand (s : State) : s.countOverride.stand = s.stand := rfl
@[simp] theorem State.countOverride_peers (s : State) : s.countOverride.peers = s.peers := rfl
@[simp] theorem State.countOverride_share (s : State) : s.countOverride.share = s.share := rfl
@[simp] theorem State.countOverride_session (s : State) : s.countOverride.session = s.session := rfl
@[simp] theorem State.countOverride_last (s : State) : s.countOverride.last = s.last := rfl
@[simp] theorem State.countOverride_stage (s : State) : s.countOverride.stage = s.stage := rfl
@[simp] theorem State.countOverride_meter (s : State) : s.countOverride.meter = s.meter := rfl
@[simp] theorem State.countOverride_thermal (s : State) : s.countOverride.thermal = s.thermal := rfl
@[simp] theorem State.countOverride_line (s : State) : s.countOverride.line = s.line := rfl
@[simp] theorem State.countOverride_inspect (s : State) : s.countOverride.inspect = s.inspect := rfl
@[simp] theorem State.countOverride_out (s : State) : s.countOverride.out = s.out := rfl
@[simp] theorem State.countOverride_choices (s : State) : s.countOverride.choices = s.choices := rfl
@[simp] theorem State.countOverride_freeCount (s : State) : s.countOverride.freeCount = s.freeCount := rfl
@[simp] theorem State.countOverride_pending (s : State) : s.countOverride.pending = s.pending := rfl

@[simp] theorem State.nextRound_pins (s : State) : s.nextRound.pins = s.pins := rfl
@[simp] theorem State.nextRound_store (s : State) : s.nextRound.store = s.store := rfl
@[simp] theorem State.nextRound_storeRead (s : State) : s.nextRound.storeRead = s.storeRead := rfl
@[simp] theorem State.nextRound_settings (s : State) : s.nextRound.settings = s.settings := rfl
@[simp] theorem State.nextRound_stand (s : State) : s.nextRound.stand = s.stand := rfl
@[simp] theorem State.nextRound_peers (s : State) : s.nextRound.peers = s.peers := rfl
@[simp] theorem State.nextRound_share (s : State) : s.nextRound.share = s.share := rfl
@[simp] theorem State.nextRound_session (s : State) : s.nextRound.session = s.session := rfl
@[simp] theorem State.nextRound_last (s : State) : s.nextRound.last = s.last := rfl
@[simp] theorem State.nextRound_notices (s : State) : s.nextRound.notices = s.notices := rfl
@[simp] theorem State.nextRound_stage (s : State) : s.nextRound.stage = s.stage := rfl
@[simp] theorem State.nextRound_meter (s : State) : s.nextRound.meter = s.meter := rfl
@[simp] theorem State.nextRound_thermal (s : State) : s.nextRound.thermal = s.thermal := rfl
@[simp] theorem State.nextRound_line (s : State) : s.nextRound.line = s.line := rfl
@[simp] theorem State.nextRound_inspect (s : State) : s.nextRound.inspect = s.inspect := rfl
@[simp] theorem State.nextRound_out (s : State) : s.nextRound.out = s.out := rfl
@[simp] theorem State.nextRound_choices (s : State) : s.nextRound.choices = s.choices := rfl
@[simp] theorem State.nextRound_freeCount (s : State) : s.nextRound.freeCount = s.freeCount := rfl
@[simp] theorem State.nextRound_pending (s : State) : s.nextRound.pending = s.pending := rfl

@[simp] theorem State.stageRoundEnd_pins (s : State) : s.stageRoundEnd.pins = s.pins := rfl
@[simp] theorem State.stageRoundEnd_store (s : State) : s.stageRoundEnd.store = s.store := rfl
@[simp] theorem State.stageRoundEnd_storeRead (s : State) : s.stageRoundEnd.storeRead = s.storeRead := rfl
@[simp] theorem State.stageRoundEnd_settings (s : State) : s.stageRoundEnd.settings = s.settings := rfl
@[simp] theorem State.stageRoundEnd_timer (s : State) : s.stageRoundEnd.timer = s.timer := rfl
@[simp] theorem State.stageRoundEnd_stand (s : State) : s.stageRoundEnd.stand = s.stand := rfl
@[simp] theorem State.stageRoundEnd_peers (s : State) : s.stageRoundEnd.peers = s.peers := rfl
@[simp] theorem State.stageRoundEnd_share (s : State) : s.stageRoundEnd.share = s.share := rfl
@[simp] theorem State.stageRoundEnd_session (s : State) : s.stageRoundEnd.session = s.session := rfl
@[simp] theorem State.stageRoundEnd_last (s : State) : s.stageRoundEnd.last = s.last := rfl
@[simp] theorem State.stageRoundEnd_notices (s : State) : s.stageRoundEnd.notices = s.notices := rfl
@[simp] theorem State.stageRoundEnd_meter (s : State) : s.stageRoundEnd.meter = s.meter := rfl
@[simp] theorem State.stageRoundEnd_thermal (s : State) : s.stageRoundEnd.thermal = s.thermal := rfl
@[simp] theorem State.stageRoundEnd_line (s : State) : s.stageRoundEnd.line = s.line := rfl
@[simp] theorem State.stageRoundEnd_inspect (s : State) : s.stageRoundEnd.inspect = s.inspect := rfl
@[simp] theorem State.stageRoundEnd_choices (s : State) : s.stageRoundEnd.choices = s.choices := rfl
@[simp] theorem State.stageRoundEnd_freeCount (s : State) : s.stageRoundEnd.freeCount = s.freeCount := rfl
@[simp] theorem State.stageRoundEnd_pending (s : State) : s.stageRoundEnd.pending = s.pending := rfl

@[simp] theorem State.startSlice_pins (s : State) : s.startSlice.pins = s.pins := rfl
@[simp] theorem State.startSlice_store (s : State) : s.startSlice.store = s.store := rfl
@[simp] theorem State.startSlice_storeRead (s : State) : s.startSlice.storeRead = s.storeRead := rfl
@[simp] theorem State.startSlice_settings (s : State) : s.startSlice.settings = s.settings := rfl
@[simp] theorem State.startSlice_timer (s : State) : s.startSlice.timer = s.timer := rfl
@[simp] theorem State.startSlice_stand (s : State) : s.startSlice.stand = s.stand := rfl
@[simp] theorem State.startSlice_peers (s : State) : s.startSlice.peers = s.peers := rfl
@[simp] theorem State.startSlice_share (s : State) : s.startSlice.share = s.share := rfl
@[simp] theorem State.startSlice_session (s : State) : s.startSlice.session = s.session := rfl
@[simp] theorem State.startSlice_last (s : State) : s.startSlice.last = s.last := rfl
@[simp] theorem State.startSlice_notices (s : State) : s.startSlice.notices = s.notices := rfl
@[simp] theorem State.startSlice_meter (s : State) : s.startSlice.meter = s.meter := rfl
@[simp] theorem State.startSlice_thermal (s : State) : s.startSlice.thermal = s.thermal := rfl
@[simp] theorem State.startSlice_line (s : State) : s.startSlice.line = s.line := rfl
@[simp] theorem State.startSlice_inspect (s : State) : s.startSlice.inspect = s.inspect := rfl
@[simp] theorem State.startSlice_choices (s : State) : s.startSlice.choices = s.choices := rfl
@[simp] theorem State.startSlice_freeCount (s : State) : s.startSlice.freeCount = s.freeCount := rfl
@[simp] theorem State.startSlice_pending (s : State) : s.startSlice.pending = s.pending := rfl

@[simp] theorem State.oweStarts_pins (a b : Bool) (s : State) : (s.oweStarts a b).pins = s.pins := rfl
@[simp] theorem State.oweStarts_store (a b : Bool) (s : State) : (s.oweStarts a b).store = s.store := rfl
@[simp] theorem State.oweStarts_storeRead (a b : Bool) (s : State) : (s.oweStarts a b).storeRead = s.storeRead := rfl
@[simp] theorem State.oweStarts_settings (a b : Bool) (s : State) : (s.oweStarts a b).settings = s.settings := rfl
@[simp] theorem State.oweStarts_timer (a b : Bool) (s : State) : (s.oweStarts a b).timer = s.timer := rfl
@[simp] theorem State.oweStarts_stand (a b : Bool) (s : State) : (s.oweStarts a b).stand = s.stand := rfl
@[simp] theorem State.oweStarts_peers (a b : Bool) (s : State) : (s.oweStarts a b).peers = s.peers := rfl
@[simp] theorem State.oweStarts_session (a b : Bool) (s : State) : (s.oweStarts a b).session = s.session := rfl
@[simp] theorem State.oweStarts_last (a b : Bool) (s : State) : (s.oweStarts a b).last = s.last := rfl
@[simp] theorem State.oweStarts_notices (a b : Bool) (s : State) : (s.oweStarts a b).notices = s.notices := rfl
@[simp] theorem State.oweStarts_meter (a b : Bool) (s : State) : (s.oweStarts a b).meter = s.meter := rfl
@[simp] theorem State.oweStarts_thermal (a b : Bool) (s : State) : (s.oweStarts a b).thermal = s.thermal := rfl
@[simp] theorem State.oweStarts_line (a b : Bool) (s : State) : (s.oweStarts a b).line = s.line := rfl
@[simp] theorem State.oweStarts_inspect (a b : Bool) (s : State) : (s.oweStarts a b).inspect = s.inspect := rfl
@[simp] theorem State.oweStarts_out (a b : Bool) (s : State) : (s.oweStarts a b).out = s.out := rfl
@[simp] theorem State.oweStarts_choices (a b : Bool) (s : State) : (s.oweStarts a b).choices = s.choices := rfl
@[simp] theorem State.oweStarts_freeCount (a b : Bool) (s : State) : (s.oweStarts a b).freeCount = s.freeCount := rfl
@[simp] theorem State.oweStarts_pending (a b : Bool) (s : State) : (s.oweStarts a b).pending = s.pending := rfl

@[simp] theorem State.leaveStarts_pins (c : Nat) (s : State) : (s.leaveStarts c).pins = s.pins := rfl
@[simp] theorem State.leaveStarts_store (c : Nat) (s : State) : (s.leaveStarts c).store = s.store := rfl
@[simp] theorem State.leaveStarts_storeRead (c : Nat) (s : State) : (s.leaveStarts c).storeRead = s.storeRead := rfl
@[simp] theorem State.leaveStarts_settings (c : Nat) (s : State) : (s.leaveStarts c).settings = s.settings := rfl
@[simp] theorem State.leaveStarts_timer (c : Nat) (s : State) : (s.leaveStarts c).timer = s.timer := rfl
@[simp] theorem State.leaveStarts_stand (c : Nat) (s : State) : (s.leaveStarts c).stand = s.stand := rfl
@[simp] theorem State.leaveStarts_peers (c : Nat) (s : State) : (s.leaveStarts c).peers = s.peers := rfl
@[simp] theorem State.leaveStarts_session (c : Nat) (s : State) : (s.leaveStarts c).session = s.session := rfl
@[simp] theorem State.leaveStarts_last (c : Nat) (s : State) : (s.leaveStarts c).last = s.last := rfl
@[simp] theorem State.leaveStarts_notices (c : Nat) (s : State) : (s.leaveStarts c).notices = s.notices := rfl
@[simp] theorem State.leaveStarts_meter (c : Nat) (s : State) : (s.leaveStarts c).meter = s.meter := rfl
@[simp] theorem State.leaveStarts_thermal (c : Nat) (s : State) : (s.leaveStarts c).thermal = s.thermal := rfl
@[simp] theorem State.leaveStarts_line (c : Nat) (s : State) : (s.leaveStarts c).line = s.line := rfl
@[simp] theorem State.leaveStarts_inspect (c : Nat) (s : State) : (s.leaveStarts c).inspect = s.inspect := rfl
@[simp] theorem State.leaveStarts_out (c : Nat) (s : State) : (s.leaveStarts c).out = s.out := rfl
@[simp] theorem State.leaveStarts_choices (c : Nat) (s : State) : (s.leaveStarts c).choices = s.choices := rfl
@[simp] theorem State.leaveStarts_freeCount (c : Nat) (s : State) : (s.leaveStarts c).freeCount = s.freeCount := rfl
@[simp] theorem State.leaveStarts_pending (c : Nat) (s : State) : (s.leaveStarts c).pending = s.pending := rfl

@[simp] theorem State.clockSecond_pins (s : State) : s.clockSecond.pins = s.pins := rfl
@[simp] theorem State.clockSecond_store (s : State) : s.clockSecond.store = s.store := rfl
@[simp] theorem State.clockSecond_storeRead (s : State) : s.clockSecond.storeRead = s.storeRead := rfl
@[simp] theorem State.clockSecond_settings (s : State) : s.clockSecond.settings = s.settings := rfl
@[simp] theorem State.clockSecond_stand (s : State) : s.clockSecond.stand = s.stand := rfl
@[simp] theorem State.clockSecond_peers (s : State) : s.clockSecond.peers = s.peers := rfl
@[simp] theorem State.clockSecond_share (s : State) : s.clockSecond.share = s.share := rfl
@[simp] theorem State.clockSecond_last (s : State) : s.clockSecond.last = s.last := rfl
@[simp] theorem State.clockSecond_notices (s : State) : s.clockSecond.notices = s.notices := rfl
@[simp] theorem State.clockSecond_stage (s : State) : s.clockSecond.stage = s.stage := rfl
@[simp] theorem State.clockSecond_meter (s : State) : s.clockSecond.meter = s.meter := rfl
@[simp] theorem State.clockSecond_thermal (s : State) : s.clockSecond.thermal = s.thermal := rfl
@[simp] theorem State.clockSecond_line (s : State) : s.clockSecond.line = s.line := rfl
@[simp] theorem State.clockSecond_inspect (s : State) : s.clockSecond.inspect = s.inspect := rfl
@[simp] theorem State.clockSecond_out (s : State) : s.clockSecond.out = s.out := rfl
@[simp] theorem State.clockSecond_choices (s : State) : s.clockSecond.choices = s.choices := rfl
@[simp] theorem State.clockSecond_freeCount (s : State) : s.clockSecond.freeCount = s.freeCount := rfl
@[simp] theorem State.clockSecond_pending (s : State) : s.clockSecond.pending = s.pending := rfl

@[simp] theorem State.setTemps_store (t : Temps) (s : State) : (s.setTemps t).store = s.store := rfl
@[simp] theorem State.setTemps_storeRead (t : Temps) (s : State) : (s.setTemps t).storeRead = s.storeRead := rfl
@[simp] theorem State.setTemps_settings (t : Temps) (s : State) : (s.setTemps t).settings = s.settings := rfl
@[simp] theorem State.setTemps_timer (t : Temps) (s : State) : (s.setTemps t).timer = s.timer := rfl
@[simp] theorem State.setTemps_stand (t : Temps) (s : State) : (s.setTemps t).stand = s.stand := rfl
@[simp] theorem State.setTemps_peers (t : Temps) (s : State) : (s.setTemps t).peers = s.peers := rfl
@[simp] theorem State.setTemps_share (t : Temps) (s : State) : (s.setTemps t).share = s.share := rfl
@[simp] theorem State.setTemps_session (t : Temps) (s : State) : (s.setTemps t).session = s.session := rfl
@[simp] theorem State.setTemps_last (t : Temps) (s : State) : (s.setTemps t).last = s.last := rfl
@[simp] theorem State.setTemps_notices (t : Temps) (s : State) : (s.setTemps t).notices = s.notices := rfl
@[simp] theorem State.setTemps_stage (t : Temps) (s : State) : (s.setTemps t).stage = s.stage := rfl
@[simp] theorem State.setTemps_meter (t : Temps) (s : State) : (s.setTemps t).meter = s.meter := rfl
@[simp] theorem State.setTemps_thermal (t : Temps) (s : State) : (s.setTemps t).thermal = s.thermal := rfl
@[simp] theorem State.setTemps_line (t : Temps) (s : State) : (s.setTemps t).line = s.line := rfl
@[simp] theorem State.setTemps_inspect (t : Temps) (s : State) : (s.setTemps t).inspect = s.inspect := rfl
@[simp] theorem State.setTemps_out (t : Temps) (s : State) : (s.setTemps t).out = s.out := rfl
@[simp] theorem State.setTemps_choices (t : Temps) (s : State) : (s.setTemps t).choices = s.choices := rfl
@[simp] theorem State.setTemps_freeCount (t : Temps) (s : State) : (s.setTemps t).freeCount = s.freeCount := rfl
@[simp] theorem State.setTemps_pending (t : Temps) (s : State) : (s.setTemps t).pending = s.pending := rfl

@[simp] theorem State.setClock_pins (c : Nat) (s : State) : (s.setClock c).pins = s.pins := rfl
@[simp] theorem State.setClock_store (c : Nat) (s : State) : (s.setClock c).store = s.store := rfl
@[simp] theorem State.setClock_storeRead (c : Nat) (s : State) : (s.setClock c).storeRead = s.storeRead := rfl
@[simp] theorem State.setClock_settings (c : Nat) (s : State) : (s.setClock c).settings = s.settings := rfl
@[simp] theorem State.setClock_stand (c : Nat) (s : State) : (s.setClock c).stand = s.stand := rfl
@[simp] theorem State.setClock_peers (c : Nat) (s : State) : (s.setClock c).peers = s.peers := rfl
@[simp] theorem State.setClock_share (c : Nat) (s : State) : (s.setClock c).share = s.share := rfl
@[simp] theorem State.setClock_session (c : Nat) (s : State) : (s.setClock c).session = s.session := rfl
@[simp] theorem State.setClock_last (c : Nat) (s : State) : (s.setClock c).last = s.last := rfl
@[simp] theorem State.setClock_notices (c : Nat) (s : State) : (s.setClock c).notices = s.notices := rfl
@[simp] theorem State.setClock_stage (c : Nat) (s : State) : (s.setClock c).stage = s.stage := rfl
@[simp] theorem State.setClock_meter (c : Nat) (s : State) : (s.setClock c).meter = s.meter := rfl
@[simp] theorem State.setClock_thermal (c : Nat) (s : State) : (s.setClock c).thermal = s.thermal := rfl
@[simp] theorem State.setClock_line (c : Nat) (s : State) : (s.setClock c).line = s.line := rfl
@[simp] theorem State.setClock_inspect (c : Nat) (s : State) : (s.setClock c).inspect = s.inspect := rfl
@[simp] theorem State.setClock_out (c : Nat) (s : State) : (s.setClock c).out = s.out := rfl
@[simp] theorem State.setClock_choices (c : Nat) (s : State) : (s.setClock c).choices = s.choices := rfl
@[simp] theorem State.setClock_freeCount (c : Nat) (s : State) : (s.setClock c).freeCount = s.freeCount := rfl
@[simp] theorem State.setClock_pending (c : Nat) (s : State) : (s.setClock c).pending = s.pending := rfl

@[simp] theorem State.startRounds_pins (s : State) : s.startRounds.pins = s.pins := rfl
@[simp] theorem State.startRounds_store (s : State) : s.startRounds.store = s.store := rfl
@[simp] theorem State.startRounds_storeRead (s : State) : s.startRounds.storeRead = s.storeRead := rfl
@[simp] theorem State.startRounds_stand (s : State) : s.startRounds.stand = s.stand := rfl
@[simp] theorem State.startRounds_peers (s : State) : s.startRounds.peers = s.peers := rfl
@[simp] theorem State.startRounds_share (s : State) : s.startRounds.share = s.share := rfl
@[simp] theorem State.startRounds_session (s : State) : s.startRounds.session = s.session := rfl
@[simp] theorem State.startRounds_last (s : State) : s.startRounds.last = s.last := rfl
@[simp] theorem State.startRounds_notices (s : State) : s.startRounds.notices = s.notices := rfl
@[simp] theorem State.startRounds_thermal (s : State) : s.startRounds.thermal = s.thermal := rfl
@[simp] theorem State.startRounds_line (s : State) : s.startRounds.line = s.line := rfl
@[simp] theorem State.startRounds_inspect (s : State) : s.startRounds.inspect = s.inspect := rfl
@[simp] theorem State.startRounds_out (s : State) : s.startRounds.out = s.out := rfl
@[simp] theorem State.startRounds_choices (s : State) : s.startRounds.choices = s.choices := rfl
@[simp] theorem State.startRounds_freeCount (s : State) : s.startRounds.freeCount = s.freeCount := rfl
@[simp] theorem State.startRounds_pending (s : State) : s.startRounds.pending = s.pending := rfl

@[simp] theorem State.firstListening_pins (s : State) : s.firstListening.pins = s.pins := rfl
@[simp] theorem State.firstListening_store (s : State) : s.firstListening.store = s.store := rfl
@[simp] theorem State.firstListening_storeRead (s : State) : s.firstListening.storeRead = s.storeRead := rfl
@[simp] theorem State.firstListening_settings (s : State) : s.firstListening.settings = s.settings := rfl
@[simp] theorem State.firstListening_peers (s : State) : s.firstListening.peers = s.peers := rfl
@[simp] theorem State.firstListening_share (s : State) : s.firstListening.share = s.share := rfl
@[simp] theorem State.firstListening_session (s : State) : s.firstListening.session = s.session := rfl
@[simp] theorem State.firstListening_last (s : State) : s.firstListening.last = s.last := rfl
@[simp] theorem State.firstListening_notices (s : State) : s.firstListening.notices = s.notices := rfl
@[simp] theorem State.firstListening_stage (s : State) : s.firstListening.stage = s.stage := rfl
@[simp] theorem State.firstListening_meter (s : State) : s.firstListening.meter = s.meter := rfl
@[simp] theorem State.firstListening_thermal (s : State) : s.firstListening.thermal = s.thermal := rfl
@[simp] theorem State.firstListening_line (s : State) : s.firstListening.line = s.line := rfl
@[simp] theorem State.firstListening_inspect (s : State) : s.firstListening.inspect = s.inspect := rfl
@[simp] theorem State.firstListening_out (s : State) : s.firstListening.out = s.out := rfl
@[simp] theorem State.firstListening_choices (s : State) : s.firstListening.choices = s.choices := rfl
@[simp] theorem State.firstListening_freeCount (s : State) : s.firstListening.freeCount = s.freeCount := rfl
@[simp] theorem State.firstListening_pending (s : State) : s.firstListening.pending = s.pending := rfl

@[simp] theorem State.setReply_pins (r : Option PendingReply) (s : State) : (s.setReply r).pins = s.pins := rfl
@[simp] theorem State.setReply_store (r : Option PendingReply) (s : State) : (s.setReply r).store = s.store := rfl
@[simp] theorem State.setReply_storeRead (r : Option PendingReply) (s : State) : (s.setReply r).storeRead = s.storeRead := rfl
@[simp] theorem State.setReply_settings (r : Option PendingReply) (s : State) : (s.setReply r).settings = s.settings := rfl
@[simp] theorem State.setReply_timer (r : Option PendingReply) (s : State) : (s.setReply r).timer = s.timer := rfl
@[simp] theorem State.setReply_stand (r : Option PendingReply) (s : State) : (s.setReply r).stand = s.stand := rfl
@[simp] theorem State.setReply_peers (r : Option PendingReply) (s : State) : (s.setReply r).peers = s.peers := rfl
@[simp] theorem State.setReply_share (r : Option PendingReply) (s : State) : (s.setReply r).share = s.share := rfl
@[simp] theorem State.setReply_session (r : Option PendingReply) (s : State) : (s.setReply r).session = s.session := rfl
@[simp] theorem State.setReply_last (r : Option PendingReply) (s : State) : (s.setReply r).last = s.last := rfl
@[simp] theorem State.setReply_notices (r : Option PendingReply) (s : State) : (s.setReply r).notices = s.notices := rfl
@[simp] theorem State.setReply_stage (r : Option PendingReply) (s : State) : (s.setReply r).stage = s.stage := rfl
@[simp] theorem State.setReply_meter (r : Option PendingReply) (s : State) : (s.setReply r).meter = s.meter := rfl
@[simp] theorem State.setReply_thermal (r : Option PendingReply) (s : State) : (s.setReply r).thermal = s.thermal := rfl
@[simp] theorem State.setReply_line (r : Option PendingReply) (s : State) : (s.setReply r).line = s.line := rfl
@[simp] theorem State.setReply_out (r : Option PendingReply) (s : State) : (s.setReply r).out = s.out := rfl
@[simp] theorem State.setReply_choices (r : Option PendingReply) (s : State) : (s.setReply r).choices = s.choices := rfl
@[simp] theorem State.setReply_freeCount (r : Option PendingReply) (s : State) : (s.setReply r).freeCount = s.freeCount := rfl
@[simp] theorem State.setReply_pending (r : Option PendingReply) (s : State) : (s.setReply r).pending = s.pending := rfl

@[simp] theorem State.setInstaller_pins (i : Installer) (s : State) : (s.setInstaller i).pins = s.pins := rfl
@[simp] theorem State.setInstaller_storeRead (i : Installer) (s : State) : (s.setInstaller i).storeRead = s.storeRead := rfl
@[simp] theorem State.setInstaller_settings (i : Installer) (s : State) : (s.setInstaller i).settings = s.settings := rfl
@[simp] theorem State.setInstaller_timer (i : Installer) (s : State) : (s.setInstaller i).timer = s.timer := rfl
@[simp] theorem State.setInstaller_stand (i : Installer) (s : State) : (s.setInstaller i).stand = s.stand := rfl
@[simp] theorem State.setInstaller_peers (i : Installer) (s : State) : (s.setInstaller i).peers = s.peers := rfl
@[simp] theorem State.setInstaller_share (i : Installer) (s : State) : (s.setInstaller i).share = s.share := rfl
@[simp] theorem State.setInstaller_session (i : Installer) (s : State) : (s.setInstaller i).session = s.session := rfl
@[simp] theorem State.setInstaller_last (i : Installer) (s : State) : (s.setInstaller i).last = s.last := rfl
@[simp] theorem State.setInstaller_notices (i : Installer) (s : State) : (s.setInstaller i).notices = s.notices := rfl
@[simp] theorem State.setInstaller_stage (i : Installer) (s : State) : (s.setInstaller i).stage = s.stage := rfl
@[simp] theorem State.setInstaller_meter (i : Installer) (s : State) : (s.setInstaller i).meter = s.meter := rfl
@[simp] theorem State.setInstaller_thermal (i : Installer) (s : State) : (s.setInstaller i).thermal = s.thermal := rfl
@[simp] theorem State.setInstaller_line (i : Installer) (s : State) : (s.setInstaller i).line = s.line := rfl
@[simp] theorem State.setInstaller_inspect (i : Installer) (s : State) : (s.setInstaller i).inspect = s.inspect := rfl
@[simp] theorem State.setInstaller_out (i : Installer) (s : State) : (s.setInstaller i).out = s.out := rfl
@[simp] theorem State.setInstaller_choices (i : Installer) (s : State) : (s.setInstaller i).choices = s.choices := rfl
@[simp] theorem State.setInstaller_freeCount (i : Installer) (s : State) : (s.setInstaller i).freeCount = s.freeCount := rfl
@[simp] theorem State.setInstaller_pending (i : Installer) (s : State) : (s.setInstaller i).pending = s.pending := rfl

@[simp] theorem State.consumeNotice_pins (v : Nat) (s : State) : (s.consumeNotice v).pins = s.pins := rfl
@[simp] theorem State.consumeNotice_store (v : Nat) (s : State) : (s.consumeNotice v).store = s.store := rfl
@[simp] theorem State.consumeNotice_storeRead (v : Nat) (s : State) : (s.consumeNotice v).storeRead = s.storeRead := rfl
@[simp] theorem State.consumeNotice_settings (v : Nat) (s : State) : (s.consumeNotice v).settings = s.settings := rfl
@[simp] theorem State.consumeNotice_timer (v : Nat) (s : State) : (s.consumeNotice v).timer = s.timer := rfl
@[simp] theorem State.consumeNotice_stand (v : Nat) (s : State) : (s.consumeNotice v).stand = s.stand := rfl
@[simp] theorem State.consumeNotice_peers (v : Nat) (s : State) : (s.consumeNotice v).peers = s.peers := rfl
@[simp] theorem State.consumeNotice_share (v : Nat) (s : State) : (s.consumeNotice v).share = s.share := rfl
@[simp] theorem State.consumeNotice_session (v : Nat) (s : State) : (s.consumeNotice v).session = s.session := rfl
@[simp] theorem State.consumeNotice_last (v : Nat) (s : State) : (s.consumeNotice v).last = s.last := rfl
@[simp] theorem State.consumeNotice_stage (v : Nat) (s : State) : (s.consumeNotice v).stage = s.stage := rfl
@[simp] theorem State.consumeNotice_meter (v : Nat) (s : State) : (s.consumeNotice v).meter = s.meter := rfl
@[simp] theorem State.consumeNotice_thermal (v : Nat) (s : State) : (s.consumeNotice v).thermal = s.thermal := rfl
@[simp] theorem State.consumeNotice_line (v : Nat) (s : State) : (s.consumeNotice v).line = s.line := rfl
@[simp] theorem State.consumeNotice_inspect (v : Nat) (s : State) : (s.consumeNotice v).inspect = s.inspect := rfl
@[simp] theorem State.consumeNotice_out (v : Nat) (s : State) : (s.consumeNotice v).out = s.out := rfl
@[simp] theorem State.consumeNotice_choices (v : Nat) (s : State) : (s.consumeNotice v).choices = s.choices := rfl
@[simp] theorem State.consumeNotice_freeCount (v : Nat) (s : State) : (s.consumeNotice v).freeCount = s.freeCount := rfl
@[simp] theorem State.consumeNotice_pending (v : Nat) (s : State) : (s.consumeNotice v).pending = s.pending := rfl

@[simp] theorem State.meterEdge_store (s : State) : s.meterEdge.store = s.store := rfl
@[simp] theorem State.meterEdge_storeRead (s : State) : s.meterEdge.storeRead = s.storeRead := rfl
@[simp] theorem State.meterEdge_settings (s : State) : s.meterEdge.settings = s.settings := rfl
@[simp] theorem State.meterEdge_timer (s : State) : s.meterEdge.timer = s.timer := rfl
@[simp] theorem State.meterEdge_stand (s : State) : s.meterEdge.stand = s.stand := rfl
@[simp] theorem State.meterEdge_peers (s : State) : s.meterEdge.peers = s.peers := rfl
@[simp] theorem State.meterEdge_share (s : State) : s.meterEdge.share = s.share := rfl
@[simp] theorem State.meterEdge_session (s : State) : s.meterEdge.session = s.session := rfl
@[simp] theorem State.meterEdge_last (s : State) : s.meterEdge.last = s.last := rfl
@[simp] theorem State.meterEdge_notices (s : State) : s.meterEdge.notices = s.notices := rfl
@[simp] theorem State.meterEdge_stage (s : State) : s.meterEdge.stage = s.stage := rfl
@[simp] theorem State.meterEdge_thermal (s : State) : s.meterEdge.thermal = s.thermal := rfl
@[simp] theorem State.meterEdge_line (s : State) : s.meterEdge.line = s.line := rfl
@[simp] theorem State.meterEdge_inspect (s : State) : s.meterEdge.inspect = s.inspect := rfl
@[simp] theorem State.meterEdge_out (s : State) : s.meterEdge.out = s.out := rfl
@[simp] theorem State.meterEdge_choices (s : State) : s.meterEdge.choices = s.choices := rfl
@[simp] theorem State.meterEdge_freeCount (s : State) : s.meterEdge.freeCount = s.freeCount := rfl
@[simp] theorem State.meterEdge_pending (s : State) : s.meterEdge.pending = s.pending := rfl

@[simp] theorem State.advance_pins (s : State) : s.advance.pins = s.pins := rfl
@[simp] theorem State.advance_store (s : State) : s.advance.store = s.store := rfl
@[simp] theorem State.advance_settings (s : State) : s.advance.settings = s.settings := rfl
@[simp] theorem State.advance_stand (s : State) : s.advance.stand = s.stand := rfl
@[simp] theorem State.advance_peers (s : State) : s.advance.peers = s.peers := rfl
@[simp] theorem State.advance_share (s : State) : s.advance.share = s.share := rfl
@[simp] theorem State.advance_session (s : State) : s.advance.session = s.session := rfl
@[simp] theorem State.advance_last (s : State) : s.advance.last = s.last := rfl
@[simp] theorem State.advance_notices (s : State) : s.advance.notices = s.notices := rfl
@[simp] theorem State.advance_stage (s : State) : s.advance.stage = s.stage := rfl
@[simp] theorem State.advance_meter (s : State) : s.advance.meter = s.meter := rfl
@[simp] theorem State.advance_thermal (s : State) : s.advance.thermal = s.thermal := rfl
@[simp] theorem State.advance_out (s : State) : s.advance.out = s.out := rfl
@[simp] theorem State.advance_choices (s : State) : s.advance.choices = s.choices := rfl
@[simp] theorem State.advance_freeCount (s : State) : s.advance.freeCount = s.freeCount := rfl
@[simp] theorem State.advance_pending (s : State) : s.advance.pending = s.pending := rfl

@[simp] theorem State.resetBlocks_pins (s : State) : s.resetBlocks.pins = s.pins := rfl
@[simp] theorem State.resetBlocks_store (s : State) : s.resetBlocks.store = s.store := rfl
@[simp] theorem State.resetBlocks_last (s : State) : s.resetBlocks.last = s.last := rfl
@[simp] theorem State.resetBlocks_choices (s : State) : s.resetBlocks.choices = s.choices := rfl
@[simp] theorem State.resetBlocks_freeCount (s : State) : s.resetBlocks.freeCount = s.freeCount := rfl
@[simp] theorem State.resetBlocks_pending (s : State) : s.resetBlocks.pending = s.pending := rfl

/-- All that the operation can change. -/
theorem State.choose_frame (s : State) : ∃ (x0 : List Nat) (x1 : Nat), s.choose.2 = { s with choices := x0, freeCount := x1 } := by
  unfold State.choose; split <;> exact ⟨_, _, rfl⟩

@[simp] theorem State.choose_pins (s : State) : s.choose.2.pins = s.pins :=
  let ⟨_, _, h⟩ := s.choose_frame; (congrArg State.pins h :)
@[simp] theorem State.choose_store (s : State) : s.choose.2.store = s.store :=
  let ⟨_, _, h⟩ := s.choose_frame; (congrArg State.store h :)
@[simp] theorem State.choose_storeRead (s : State) : s.choose.2.storeRead = s.storeRead :=
  let ⟨_, _, h⟩ := s.choose_frame; (congrArg State.storeRead h :)
@[simp] theorem State.choose_settings (s : State) : s.choose.2.settings = s.settings :=
  let ⟨_, _, h⟩ := s.choose_frame; (congrArg State.settings h :)
@[simp] theorem State.choose_timer (s : State) : s.choose.2.timer = s.timer :=
  let ⟨_, _, h⟩ := s.choose_frame; (congrArg State.timer h :)
@[simp] theorem State.choose_stand (s : State) : s.choose.2.stand = s.stand :=
  let ⟨_, _, h⟩ := s.choose_frame; (congrArg State.stand h :)
@[simp] theorem State.choose_peers (s : State) : s.choose.2.peers = s.peers :=
  let ⟨_, _, h⟩ := s.choose_frame; (congrArg State.peers h :)
@[simp] theorem State.choose_share (s : State) : s.choose.2.share = s.share :=
  let ⟨_, _, h⟩ := s.choose_frame; (congrArg State.share h :)
@[simp] theorem State.choose_session (s : State) : s.choose.2.session = s.session :=
  let ⟨_, _, h⟩ := s.choose_frame; (congrArg State.session h :)
@[simp] theorem State.choose_last (s : State) : s.choose.2.last = s.last :=
  let ⟨_, _, h⟩ := s.choose_frame; (congrArg State.last h :)
@[simp] theorem State.choose_notices (s : State) : s.choose.2.notices = s.notices :=
  let ⟨_, _, h⟩ := s.choose_frame; (congrArg State.notices h :)
@[simp] theorem State.choose_stage (s : State) : s.choose.2.stage = s.stage :=
  let ⟨_, _, h⟩ := s.choose_frame; (congrArg State.stage h :)
@[simp] theorem State.choose_meter (s : State) : s.choose.2.meter = s.meter :=
  let ⟨_, _, h⟩ := s.choose_frame; (congrArg State.meter h :)
@[simp] theorem State.choose_thermal (s : State) : s.choose.2.thermal = s.thermal :=
  let ⟨_, _, h⟩ := s.choose_frame; (congrArg State.thermal h :)
@[simp] theorem State.choose_line (s : State) : s.choose.2.line = s.line :=
  let ⟨_, _, h⟩ := s.choose_frame; (congrArg State.line h :)
@[simp] theorem State.choose_inspect (s : State) : s.choose.2.inspect = s.inspect :=
  let ⟨_, _, h⟩ := s.choose_frame; (congrArg State.inspect h :)
@[simp] theorem State.choose_out (s : State) : s.choose.2.out = s.out :=
  let ⟨_, _, h⟩ := s.choose_frame; (congrArg State.out h :)
@[simp] theorem State.choose_pending (s : State) : s.choose.2.pending = s.pending :=
  let ⟨_, _, h⟩ := s.choose_frame; (congrArg State.pending h :)

/-- All that the operation can change. -/
theorem State.draw_frame (m : Nat) (s : State) : ∃ (x0 : LineEngine), (s.draw m).2 = { s with line := x0 } := by
  exact ⟨_, rfl⟩

@[simp] theorem State.draw_pins (m : Nat) (s : State) : (s.draw m).2.pins = s.pins :=
  let ⟨_, h⟩ := s.draw_frame m; (congrArg State.pins h :)
@[simp] theorem State.draw_store (m : Nat) (s : State) : (s.draw m).2.store = s.store :=
  let ⟨_, h⟩ := s.draw_frame m; (congrArg State.store h :)
@[simp] theorem State.draw_storeRead (m : Nat) (s : State) : (s.draw m).2.storeRead = s.storeRead :=
  let ⟨_, h⟩ := s.draw_frame m; (congrArg State.storeRead h :)
@[simp] theorem State.draw_settings (m : Nat) (s : State) : (s.draw m).2.settings = s.settings :=
  let ⟨_, h⟩ := s.draw_frame m; (congrArg State.settings h :)
@[simp] theorem State.draw_timer (m : Nat) (s : State) : (s.draw m).2.timer = s.timer :=
  let ⟨_, h⟩ := s.draw_frame m; (congrArg State.timer h :)
@[simp] theorem State.draw_stand (m : Nat) (s : State) : (s.draw m).2.stand = s.stand :=
  let ⟨_, h⟩ := s.draw_frame m; (congrArg State.stand h :)
@[simp] theorem State.draw_peers (m : Nat) (s : State) : (s.draw m).2.peers = s.peers :=
  let ⟨_, h⟩ := s.draw_frame m; (congrArg State.peers h :)
@[simp] theorem State.draw_share (m : Nat) (s : State) : (s.draw m).2.share = s.share :=
  let ⟨_, h⟩ := s.draw_frame m; (congrArg State.share h :)
@[simp] theorem State.draw_session (m : Nat) (s : State) : (s.draw m).2.session = s.session :=
  let ⟨_, h⟩ := s.draw_frame m; (congrArg State.session h :)
@[simp] theorem State.draw_last (m : Nat) (s : State) : (s.draw m).2.last = s.last :=
  let ⟨_, h⟩ := s.draw_frame m; (congrArg State.last h :)
@[simp] theorem State.draw_notices (m : Nat) (s : State) : (s.draw m).2.notices = s.notices :=
  let ⟨_, h⟩ := s.draw_frame m; (congrArg State.notices h :)
@[simp] theorem State.draw_stage (m : Nat) (s : State) : (s.draw m).2.stage = s.stage :=
  let ⟨_, h⟩ := s.draw_frame m; (congrArg State.stage h :)
@[simp] theorem State.draw_meter (m : Nat) (s : State) : (s.draw m).2.meter = s.meter :=
  let ⟨_, h⟩ := s.draw_frame m; (congrArg State.meter h :)
@[simp] theorem State.draw_thermal (m : Nat) (s : State) : (s.draw m).2.thermal = s.thermal :=
  let ⟨_, h⟩ := s.draw_frame m; (congrArg State.thermal h :)
@[simp] theorem State.draw_inspect (m : Nat) (s : State) : (s.draw m).2.inspect = s.inspect :=
  let ⟨_, h⟩ := s.draw_frame m; (congrArg State.inspect h :)
@[simp] theorem State.draw_out (m : Nat) (s : State) : (s.draw m).2.out = s.out :=
  let ⟨_, h⟩ := s.draw_frame m; (congrArg State.out h :)
@[simp] theorem State.draw_choices (m : Nat) (s : State) : (s.draw m).2.choices = s.choices :=
  let ⟨_, h⟩ := s.draw_frame m; (congrArg State.choices h :)
@[simp] theorem State.draw_freeCount (m : Nat) (s : State) : (s.draw m).2.freeCount = s.freeCount :=
  let ⟨_, h⟩ := s.draw_frame m; (congrArg State.freeCount h :)
@[simp] theorem State.draw_pending (m : Nat) (s : State) : (s.draw m).2.pending = s.pending :=
  let ⟨_, h⟩ := s.draw_frame m; (congrArg State.pending h :)

/-- All that the operation can change. -/
theorem State.startWait_frame (m : Nat) (s : State) : ∃ (x0 : LineEngine), (s.startWait m) = { s with line := x0 } := by
  simp only [State.startWait, State.draw, State.setSender]; exact ⟨_, rfl⟩

@[simp] theorem State.startWait_pins (m : Nat) (s : State) : (s.startWait m).pins = s.pins :=
  let ⟨_, h⟩ := s.startWait_frame m; (congrArg State.pins h :)
@[simp] theorem State.startWait_store (m : Nat) (s : State) : (s.startWait m).store = s.store :=
  let ⟨_, h⟩ := s.startWait_frame m; (congrArg State.store h :)
@[simp] theorem State.startWait_storeRead (m : Nat) (s : State) : (s.startWait m).storeRead = s.storeRead :=
  let ⟨_, h⟩ := s.startWait_frame m; (congrArg State.storeRead h :)
@[simp] theorem State.startWait_settings (m : Nat) (s : State) : (s.startWait m).settings = s.settings :=
  let ⟨_, h⟩ := s.startWait_frame m; (congrArg State.settings h :)
@[simp] theorem State.startWait_timer (m : Nat) (s : State) : (s.startWait m).timer = s.timer :=
  let ⟨_, h⟩ := s.startWait_frame m; (congrArg State.timer h :)
@[simp] theorem State.startWait_stand (m : Nat) (s : State) : (s.startWait m).stand = s.stand :=
  let ⟨_, h⟩ := s.startWait_frame m; (congrArg State.stand h :)
@[simp] theorem State.startWait_peers (m : Nat) (s : State) : (s.startWait m).peers = s.peers :=
  let ⟨_, h⟩ := s.startWait_frame m; (congrArg State.peers h :)
@[simp] theorem State.startWait_share (m : Nat) (s : State) : (s.startWait m).share = s.share :=
  let ⟨_, h⟩ := s.startWait_frame m; (congrArg State.share h :)
@[simp] theorem State.startWait_session (m : Nat) (s : State) : (s.startWait m).session = s.session :=
  let ⟨_, h⟩ := s.startWait_frame m; (congrArg State.session h :)
@[simp] theorem State.startWait_last (m : Nat) (s : State) : (s.startWait m).last = s.last :=
  let ⟨_, h⟩ := s.startWait_frame m; (congrArg State.last h :)
@[simp] theorem State.startWait_notices (m : Nat) (s : State) : (s.startWait m).notices = s.notices :=
  let ⟨_, h⟩ := s.startWait_frame m; (congrArg State.notices h :)
@[simp] theorem State.startWait_stage (m : Nat) (s : State) : (s.startWait m).stage = s.stage :=
  let ⟨_, h⟩ := s.startWait_frame m; (congrArg State.stage h :)
@[simp] theorem State.startWait_meter (m : Nat) (s : State) : (s.startWait m).meter = s.meter :=
  let ⟨_, h⟩ := s.startWait_frame m; (congrArg State.meter h :)
@[simp] theorem State.startWait_thermal (m : Nat) (s : State) : (s.startWait m).thermal = s.thermal :=
  let ⟨_, h⟩ := s.startWait_frame m; (congrArg State.thermal h :)
@[simp] theorem State.startWait_inspect (m : Nat) (s : State) : (s.startWait m).inspect = s.inspect :=
  let ⟨_, h⟩ := s.startWait_frame m; (congrArg State.inspect h :)
@[simp] theorem State.startWait_out (m : Nat) (s : State) : (s.startWait m).out = s.out :=
  let ⟨_, h⟩ := s.startWait_frame m; (congrArg State.out h :)
@[simp] theorem State.startWait_choices (m : Nat) (s : State) : (s.startWait m).choices = s.choices :=
  let ⟨_, h⟩ := s.startWait_frame m; (congrArg State.choices h :)
@[simp] theorem State.startWait_freeCount (m : Nat) (s : State) : (s.startWait m).freeCount = s.freeCount :=
  let ⟨_, h⟩ := s.startWait_frame m; (congrArg State.freeCount h :)
@[simp] theorem State.startWait_pending (m : Nat) (s : State) : (s.startWait m).pending = s.pending :=
  let ⟨_, h⟩ := s.startWait_frame m; (congrArg State.pending h :)

/-- All that the operation can change. -/
theorem State.drawPostSlice_frame (s : State) : ∃ (x0 : LineEngine) (x1 : ShareUnit), s.drawPostSlice = { s with line := x0, share := x1 } := by
  simp only [State.drawPostSlice, State.draw]; exact ⟨_, _, rfl⟩

@[simp] theorem State.drawPostSlice_pins (s : State) : s.drawPostSlice.pins = s.pins :=
  let ⟨_, _, h⟩ := s.drawPostSlice_frame; (congrArg State.pins h :)
@[simp] theorem State.drawPostSlice_store (s : State) : s.drawPostSlice.store = s.store :=
  let ⟨_, _, h⟩ := s.drawPostSlice_frame; (congrArg State.store h :)
@[simp] theorem State.drawPostSlice_storeRead (s : State) : s.drawPostSlice.storeRead = s.storeRead :=
  let ⟨_, _, h⟩ := s.drawPostSlice_frame; (congrArg State.storeRead h :)
@[simp] theorem State.drawPostSlice_settings (s : State) : s.drawPostSlice.settings = s.settings :=
  let ⟨_, _, h⟩ := s.drawPostSlice_frame; (congrArg State.settings h :)
@[simp] theorem State.drawPostSlice_timer (s : State) : s.drawPostSlice.timer = s.timer :=
  let ⟨_, _, h⟩ := s.drawPostSlice_frame; (congrArg State.timer h :)
@[simp] theorem State.drawPostSlice_stand (s : State) : s.drawPostSlice.stand = s.stand :=
  let ⟨_, _, h⟩ := s.drawPostSlice_frame; (congrArg State.stand h :)
@[simp] theorem State.drawPostSlice_peers (s : State) : s.drawPostSlice.peers = s.peers :=
  let ⟨_, _, h⟩ := s.drawPostSlice_frame; (congrArg State.peers h :)
@[simp] theorem State.drawPostSlice_session (s : State) : s.drawPostSlice.session = s.session :=
  let ⟨_, _, h⟩ := s.drawPostSlice_frame; (congrArg State.session h :)
@[simp] theorem State.drawPostSlice_last (s : State) : s.drawPostSlice.last = s.last :=
  let ⟨_, _, h⟩ := s.drawPostSlice_frame; (congrArg State.last h :)
@[simp] theorem State.drawPostSlice_notices (s : State) : s.drawPostSlice.notices = s.notices :=
  let ⟨_, _, h⟩ := s.drawPostSlice_frame; (congrArg State.notices h :)
@[simp] theorem State.drawPostSlice_stage (s : State) : s.drawPostSlice.stage = s.stage :=
  let ⟨_, _, h⟩ := s.drawPostSlice_frame; (congrArg State.stage h :)
@[simp] theorem State.drawPostSlice_meter (s : State) : s.drawPostSlice.meter = s.meter :=
  let ⟨_, _, h⟩ := s.drawPostSlice_frame; (congrArg State.meter h :)
@[simp] theorem State.drawPostSlice_thermal (s : State) : s.drawPostSlice.thermal = s.thermal :=
  let ⟨_, _, h⟩ := s.drawPostSlice_frame; (congrArg State.thermal h :)
@[simp] theorem State.drawPostSlice_inspect (s : State) : s.drawPostSlice.inspect = s.inspect :=
  let ⟨_, _, h⟩ := s.drawPostSlice_frame; (congrArg State.inspect h :)
@[simp] theorem State.drawPostSlice_out (s : State) : s.drawPostSlice.out = s.out :=
  let ⟨_, _, h⟩ := s.drawPostSlice_frame; (congrArg State.out h :)
@[simp] theorem State.drawPostSlice_choices (s : State) : s.drawPostSlice.choices = s.choices :=
  let ⟨_, _, h⟩ := s.drawPostSlice_frame; (congrArg State.choices h :)
@[simp] theorem State.drawPostSlice_freeCount (s : State) : s.drawPostSlice.freeCount = s.freeCount :=
  let ⟨_, _, h⟩ := s.drawPostSlice_frame; (congrArg State.freeCount h :)
@[simp] theorem State.drawPostSlice_pending (s : State) : s.drawPostSlice.pending = s.pending :=
  let ⟨_, _, h⟩ := s.drawPostSlice_frame; (congrArg State.pending h :)

/-- All that the operation can change. -/
theorem State.placeFrame_frame (k : Slot) (p : List Byte) (s : State) : ∃ (x0 : LineEngine), (s.placeFrame k p) = { s with line := x0 } := by
  simp only [State.placeFrame]; split
  · obtain ⟨l, h⟩ := State.startWait_frame 16 (s.setSlot k (some ⟨p, 0⟩))
    exact ⟨l, h⟩
  · exact ⟨_, rfl⟩
  · split <;> exact ⟨_, rfl⟩

@[simp] theorem State.placeFrame_pins (k : Slot) (p : List Byte) (s : State) : (s.placeFrame k p).pins = s.pins :=
  let ⟨_, h⟩ := s.placeFrame_frame k p; (congrArg State.pins h :)
@[simp] theorem State.placeFrame_store (k : Slot) (p : List Byte) (s : State) : (s.placeFrame k p).store = s.store :=
  let ⟨_, h⟩ := s.placeFrame_frame k p; (congrArg State.store h :)
@[simp] theorem State.placeFrame_storeRead (k : Slot) (p : List Byte) (s : State) : (s.placeFrame k p).storeRead = s.storeRead :=
  let ⟨_, h⟩ := s.placeFrame_frame k p; (congrArg State.storeRead h :)
@[simp] theorem State.placeFrame_settings (k : Slot) (p : List Byte) (s : State) : (s.placeFrame k p).settings = s.settings :=
  let ⟨_, h⟩ := s.placeFrame_frame k p; (congrArg State.settings h :)
@[simp] theorem State.placeFrame_timer (k : Slot) (p : List Byte) (s : State) : (s.placeFrame k p).timer = s.timer :=
  let ⟨_, h⟩ := s.placeFrame_frame k p; (congrArg State.timer h :)
@[simp] theorem State.placeFrame_stand (k : Slot) (p : List Byte) (s : State) : (s.placeFrame k p).stand = s.stand :=
  let ⟨_, h⟩ := s.placeFrame_frame k p; (congrArg State.stand h :)
@[simp] theorem State.placeFrame_peers (k : Slot) (p : List Byte) (s : State) : (s.placeFrame k p).peers = s.peers :=
  let ⟨_, h⟩ := s.placeFrame_frame k p; (congrArg State.peers h :)
@[simp] theorem State.placeFrame_share (k : Slot) (p : List Byte) (s : State) : (s.placeFrame k p).share = s.share :=
  let ⟨_, h⟩ := s.placeFrame_frame k p; (congrArg State.share h :)
@[simp] theorem State.placeFrame_session (k : Slot) (p : List Byte) (s : State) : (s.placeFrame k p).session = s.session :=
  let ⟨_, h⟩ := s.placeFrame_frame k p; (congrArg State.session h :)
@[simp] theorem State.placeFrame_last (k : Slot) (p : List Byte) (s : State) : (s.placeFrame k p).last = s.last :=
  let ⟨_, h⟩ := s.placeFrame_frame k p; (congrArg State.last h :)
@[simp] theorem State.placeFrame_notices (k : Slot) (p : List Byte) (s : State) : (s.placeFrame k p).notices = s.notices :=
  let ⟨_, h⟩ := s.placeFrame_frame k p; (congrArg State.notices h :)
@[simp] theorem State.placeFrame_stage (k : Slot) (p : List Byte) (s : State) : (s.placeFrame k p).stage = s.stage :=
  let ⟨_, h⟩ := s.placeFrame_frame k p; (congrArg State.stage h :)
@[simp] theorem State.placeFrame_meter (k : Slot) (p : List Byte) (s : State) : (s.placeFrame k p).meter = s.meter :=
  let ⟨_, h⟩ := s.placeFrame_frame k p; (congrArg State.meter h :)
@[simp] theorem State.placeFrame_thermal (k : Slot) (p : List Byte) (s : State) : (s.placeFrame k p).thermal = s.thermal :=
  let ⟨_, h⟩ := s.placeFrame_frame k p; (congrArg State.thermal h :)
@[simp] theorem State.placeFrame_inspect (k : Slot) (p : List Byte) (s : State) : (s.placeFrame k p).inspect = s.inspect :=
  let ⟨_, h⟩ := s.placeFrame_frame k p; (congrArg State.inspect h :)
@[simp] theorem State.placeFrame_out (k : Slot) (p : List Byte) (s : State) : (s.placeFrame k p).out = s.out :=
  let ⟨_, h⟩ := s.placeFrame_frame k p; (congrArg State.out h :)
@[simp] theorem State.placeFrame_choices (k : Slot) (p : List Byte) (s : State) : (s.placeFrame k p).choices = s.choices :=
  let ⟨_, h⟩ := s.placeFrame_frame k p; (congrArg State.choices h :)
@[simp] theorem State.placeFrame_freeCount (k : Slot) (p : List Byte) (s : State) : (s.placeFrame k p).freeCount = s.freeCount :=
  let ⟨_, h⟩ := s.placeFrame_frame k p; (congrArg State.freeCount h :)
@[simp] theorem State.placeFrame_pending (k : Slot) (p : List Byte) (s : State) : (s.placeFrame k p).pending = s.pending :=
  let ⟨_, h⟩ := s.placeFrame_frame k p; (congrArg State.pending h :)

/-- All that the operation can change. -/
theorem State.removeFrame_frame (k : Slot) (s : State) : ∃ (x0 : LineEngine), (s.removeFrame k) = { s with line := x0 } := by
  simp only [State.removeFrame]; split <;> (try split) <;> exact ⟨_, rfl⟩

@[simp] theorem State.removeFrame_pins (k : Slot) (s : State) : (s.removeFrame k).pins = s.pins :=
  let ⟨_, h⟩ := s.removeFrame_frame k; (congrArg State.pins h :)
@[simp] theorem State.removeFrame_store (k : Slot) (s : State) : (s.removeFrame k).store = s.store :=
  let ⟨_, h⟩ := s.removeFrame_frame k; (congrArg State.store h :)
@[simp] theorem State.removeFrame_storeRead (k : Slot) (s : State) : (s.removeFrame k).storeRead = s.storeRead :=
  let ⟨_, h⟩ := s.removeFrame_frame k; (congrArg State.storeRead h :)
@[simp] theorem State.removeFrame_settings (k : Slot) (s : State) : (s.removeFrame k).settings = s.settings :=
  let ⟨_, h⟩ := s.removeFrame_frame k; (congrArg State.settings h :)
@[simp] theorem State.removeFrame_timer (k : Slot) (s : State) : (s.removeFrame k).timer = s.timer :=
  let ⟨_, h⟩ := s.removeFrame_frame k; (congrArg State.timer h :)
@[simp] theorem State.removeFrame_stand (k : Slot) (s : State) : (s.removeFrame k).stand = s.stand :=
  let ⟨_, h⟩ := s.removeFrame_frame k; (congrArg State.stand h :)
@[simp] theorem State.removeFrame_peers (k : Slot) (s : State) : (s.removeFrame k).peers = s.peers :=
  let ⟨_, h⟩ := s.removeFrame_frame k; (congrArg State.peers h :)
@[simp] theorem State.removeFrame_share (k : Slot) (s : State) : (s.removeFrame k).share = s.share :=
  let ⟨_, h⟩ := s.removeFrame_frame k; (congrArg State.share h :)
@[simp] theorem State.removeFrame_session (k : Slot) (s : State) : (s.removeFrame k).session = s.session :=
  let ⟨_, h⟩ := s.removeFrame_frame k; (congrArg State.session h :)
@[simp] theorem State.removeFrame_last (k : Slot) (s : State) : (s.removeFrame k).last = s.last :=
  let ⟨_, h⟩ := s.removeFrame_frame k; (congrArg State.last h :)
@[simp] theorem State.removeFrame_notices (k : Slot) (s : State) : (s.removeFrame k).notices = s.notices :=
  let ⟨_, h⟩ := s.removeFrame_frame k; (congrArg State.notices h :)
@[simp] theorem State.removeFrame_stage (k : Slot) (s : State) : (s.removeFrame k).stage = s.stage :=
  let ⟨_, h⟩ := s.removeFrame_frame k; (congrArg State.stage h :)
@[simp] theorem State.removeFrame_meter (k : Slot) (s : State) : (s.removeFrame k).meter = s.meter :=
  let ⟨_, h⟩ := s.removeFrame_frame k; (congrArg State.meter h :)
@[simp] theorem State.removeFrame_thermal (k : Slot) (s : State) : (s.removeFrame k).thermal = s.thermal :=
  let ⟨_, h⟩ := s.removeFrame_frame k; (congrArg State.thermal h :)
@[simp] theorem State.removeFrame_inspect (k : Slot) (s : State) : (s.removeFrame k).inspect = s.inspect :=
  let ⟨_, h⟩ := s.removeFrame_frame k; (congrArg State.inspect h :)
@[simp] theorem State.removeFrame_out (k : Slot) (s : State) : (s.removeFrame k).out = s.out :=
  let ⟨_, h⟩ := s.removeFrame_frame k; (congrArg State.out h :)
@[simp] theorem State.removeFrame_choices (k : Slot) (s : State) : (s.removeFrame k).choices = s.choices :=
  let ⟨_, h⟩ := s.removeFrame_frame k; (congrArg State.choices h :)
@[simp] theorem State.removeFrame_freeCount (k : Slot) (s : State) : (s.removeFrame k).freeCount = s.freeCount :=
  let ⟨_, h⟩ := s.removeFrame_frame k; (congrArg State.freeCount h :)
@[simp] theorem State.removeFrame_pending (k : Slot) (s : State) : (s.removeFrame k).pending = s.pending :=
  let ⟨_, h⟩ := s.removeFrame_frame k; (congrArg State.pending h :)

/-- All that the operation can change. -/
theorem State.afterAttempt_frame (m : Nat) (s : State) : ∃ (x0 : LineEngine), (s.afterAttempt m) = { s with line := x0 } := by
  unfold State.afterAttempt; split
  · exact ⟨_, rfl⟩
  · exact s.startWait_frame m

@[simp] theorem State.afterAttempt_pins (m : Nat) (s : State) : (s.afterAttempt m).pins = s.pins :=
  let ⟨_, h⟩ := s.afterAttempt_frame m; (congrArg State.pins h :)
@[simp] theorem State.afterAttempt_store (m : Nat) (s : State) : (s.afterAttempt m).store = s.store :=
  let ⟨_, h⟩ := s.afterAttempt_frame m; (congrArg State.store h :)
@[simp] theorem State.afterAttempt_storeRead (m : Nat) (s : State) : (s.afterAttempt m).storeRead = s.storeRead :=
  let ⟨_, h⟩ := s.afterAttempt_frame m; (congrArg State.storeRead h :)
@[simp] theorem State.afterAttempt_settings (m : Nat) (s : State) : (s.afterAttempt m).settings = s.settings :=
  let ⟨_, h⟩ := s.afterAttempt_frame m; (congrArg State.settings h :)
@[simp] theorem State.afterAttempt_timer (m : Nat) (s : State) : (s.afterAttempt m).timer = s.timer :=
  let ⟨_, h⟩ := s.afterAttempt_frame m; (congrArg State.timer h :)
@[simp] theorem State.afterAttempt_stand (m : Nat) (s : State) : (s.afterAttempt m).stand = s.stand :=
  let ⟨_, h⟩ := s.afterAttempt_frame m; (congrArg State.stand h :)
@[simp] theorem State.afterAttempt_peers (m : Nat) (s : State) : (s.afterAttempt m).peers = s.peers :=
  let ⟨_, h⟩ := s.afterAttempt_frame m; (congrArg State.peers h :)
@[simp] theorem State.afterAttempt_share (m : Nat) (s : State) : (s.afterAttempt m).share = s.share :=
  let ⟨_, h⟩ := s.afterAttempt_frame m; (congrArg State.share h :)
@[simp] theorem State.afterAttempt_session (m : Nat) (s : State) : (s.afterAttempt m).session = s.session :=
  let ⟨_, h⟩ := s.afterAttempt_frame m; (congrArg State.session h :)
@[simp] theorem State.afterAttempt_last (m : Nat) (s : State) : (s.afterAttempt m).last = s.last :=
  let ⟨_, h⟩ := s.afterAttempt_frame m; (congrArg State.last h :)
@[simp] theorem State.afterAttempt_notices (m : Nat) (s : State) : (s.afterAttempt m).notices = s.notices :=
  let ⟨_, h⟩ := s.afterAttempt_frame m; (congrArg State.notices h :)
@[simp] theorem State.afterAttempt_stage (m : Nat) (s : State) : (s.afterAttempt m).stage = s.stage :=
  let ⟨_, h⟩ := s.afterAttempt_frame m; (congrArg State.stage h :)
@[simp] theorem State.afterAttempt_meter (m : Nat) (s : State) : (s.afterAttempt m).meter = s.meter :=
  let ⟨_, h⟩ := s.afterAttempt_frame m; (congrArg State.meter h :)
@[simp] theorem State.afterAttempt_thermal (m : Nat) (s : State) : (s.afterAttempt m).thermal = s.thermal :=
  let ⟨_, h⟩ := s.afterAttempt_frame m; (congrArg State.thermal h :)
@[simp] theorem State.afterAttempt_inspect (m : Nat) (s : State) : (s.afterAttempt m).inspect = s.inspect :=
  let ⟨_, h⟩ := s.afterAttempt_frame m; (congrArg State.inspect h :)
@[simp] theorem State.afterAttempt_out (m : Nat) (s : State) : (s.afterAttempt m).out = s.out :=
  let ⟨_, h⟩ := s.afterAttempt_frame m; (congrArg State.out h :)
@[simp] theorem State.afterAttempt_choices (m : Nat) (s : State) : (s.afterAttempt m).choices = s.choices :=
  let ⟨_, h⟩ := s.afterAttempt_frame m; (congrArg State.choices h :)
@[simp] theorem State.afterAttempt_freeCount (m : Nat) (s : State) : (s.afterAttempt m).freeCount = s.freeCount :=
  let ⟨_, h⟩ := s.afterAttempt_frame m; (congrArg State.freeCount h :)
@[simp] theorem State.afterAttempt_pending (m : Nat) (s : State) : (s.afterAttempt m).pending = s.pending :=
  let ⟨_, h⟩ := s.afterAttempt_frame m; (congrArg State.pending h :)

/-- All that the operation can change. -/
theorem State.forbidRetry_frame (k : Slot) (s : State) : ∃ (x0 : LineEngine), (s.forbidRetry k) = { s with line := x0 } := by
  unfold State.forbidRetry; split <;> (try split) <;> exact ⟨_, rfl⟩

@[simp] theorem State.forbidRetry_pins (k : Slot) (s : State) : (s.forbidRetry k).pins = s.pins :=
  let ⟨_, h⟩ := s.forbidRetry_frame k; (congrArg State.pins h :)
@[simp] theorem State.forbidRetry_store (k : Slot) (s : State) : (s.forbidRetry k).store = s.store :=
  let ⟨_, h⟩ := s.forbidRetry_frame k; (congrArg State.store h :)
@[simp] theorem State.forbidRetry_storeRead (k : Slot) (s : State) : (s.forbidRetry k).storeRead = s.storeRead :=
  let ⟨_, h⟩ := s.forbidRetry_frame k; (congrArg State.storeRead h :)
@[simp] theorem State.forbidRetry_settings (k : Slot) (s : State) : (s.forbidRetry k).settings = s.settings :=
  let ⟨_, h⟩ := s.forbidRetry_frame k; (congrArg State.settings h :)
@[simp] theorem State.forbidRetry_timer (k : Slot) (s : State) : (s.forbidRetry k).timer = s.timer :=
  let ⟨_, h⟩ := s.forbidRetry_frame k; (congrArg State.timer h :)
@[simp] theorem State.forbidRetry_stand (k : Slot) (s : State) : (s.forbidRetry k).stand = s.stand :=
  let ⟨_, h⟩ := s.forbidRetry_frame k; (congrArg State.stand h :)
@[simp] theorem State.forbidRetry_peers (k : Slot) (s : State) : (s.forbidRetry k).peers = s.peers :=
  let ⟨_, h⟩ := s.forbidRetry_frame k; (congrArg State.peers h :)
@[simp] theorem State.forbidRetry_share (k : Slot) (s : State) : (s.forbidRetry k).share = s.share :=
  let ⟨_, h⟩ := s.forbidRetry_frame k; (congrArg State.share h :)
@[simp] theorem State.forbidRetry_session (k : Slot) (s : State) : (s.forbidRetry k).session = s.session :=
  let ⟨_, h⟩ := s.forbidRetry_frame k; (congrArg State.session h :)
@[simp] theorem State.forbidRetry_last (k : Slot) (s : State) : (s.forbidRetry k).last = s.last :=
  let ⟨_, h⟩ := s.forbidRetry_frame k; (congrArg State.last h :)
@[simp] theorem State.forbidRetry_notices (k : Slot) (s : State) : (s.forbidRetry k).notices = s.notices :=
  let ⟨_, h⟩ := s.forbidRetry_frame k; (congrArg State.notices h :)
@[simp] theorem State.forbidRetry_stage (k : Slot) (s : State) : (s.forbidRetry k).stage = s.stage :=
  let ⟨_, h⟩ := s.forbidRetry_frame k; (congrArg State.stage h :)
@[simp] theorem State.forbidRetry_meter (k : Slot) (s : State) : (s.forbidRetry k).meter = s.meter :=
  let ⟨_, h⟩ := s.forbidRetry_frame k; (congrArg State.meter h :)
@[simp] theorem State.forbidRetry_thermal (k : Slot) (s : State) : (s.forbidRetry k).thermal = s.thermal :=
  let ⟨_, h⟩ := s.forbidRetry_frame k; (congrArg State.thermal h :)
@[simp] theorem State.forbidRetry_inspect (k : Slot) (s : State) : (s.forbidRetry k).inspect = s.inspect :=
  let ⟨_, h⟩ := s.forbidRetry_frame k; (congrArg State.inspect h :)
@[simp] theorem State.forbidRetry_out (k : Slot) (s : State) : (s.forbidRetry k).out = s.out :=
  let ⟨_, h⟩ := s.forbidRetry_frame k; (congrArg State.out h :)
@[simp] theorem State.forbidRetry_choices (k : Slot) (s : State) : (s.forbidRetry k).choices = s.choices :=
  let ⟨_, h⟩ := s.forbidRetry_frame k; (congrArg State.choices h :)
@[simp] theorem State.forbidRetry_freeCount (k : Slot) (s : State) : (s.forbidRetry k).freeCount = s.freeCount :=
  let ⟨_, h⟩ := s.forbidRetry_frame k; (congrArg State.freeCount h :)
@[simp] theorem State.forbidRetry_pending (k : Slot) (s : State) : (s.forbidRetry k).pending = s.pending :=
  let ⟨_, h⟩ := s.forbidRetry_frame k; (congrArg State.pending h :)

/-- All that the operation can change. -/
theorem State.removeWaitingMark_frame (s : State) : ∃ (x0 : LineEngine), s.removeWaitingMark = { s with line := x0 } := by
  unfold State.removeWaitingMark; split <;> first | exact ⟨_, rfl⟩ | exact s.removeFrame_frame .mark

@[simp] theorem State.removeWaitingMark_pins (s : State) : s.removeWaitingMark.pins = s.pins :=
  let ⟨_, h⟩ := s.removeWaitingMark_frame; (congrArg State.pins h :)
@[simp] theorem State.removeWaitingMark_store (s : State) : s.removeWaitingMark.store = s.store :=
  let ⟨_, h⟩ := s.removeWaitingMark_frame; (congrArg State.store h :)
@[simp] theorem State.removeWaitingMark_storeRead (s : State) : s.removeWaitingMark.storeRead = s.storeRead :=
  let ⟨_, h⟩ := s.removeWaitingMark_frame; (congrArg State.storeRead h :)
@[simp] theorem State.removeWaitingMark_settings (s : State) : s.removeWaitingMark.settings = s.settings :=
  let ⟨_, h⟩ := s.removeWaitingMark_frame; (congrArg State.settings h :)
@[simp] theorem State.removeWaitingMark_timer (s : State) : s.removeWaitingMark.timer = s.timer :=
  let ⟨_, h⟩ := s.removeWaitingMark_frame; (congrArg State.timer h :)
@[simp] theorem State.removeWaitingMark_stand (s : State) : s.removeWaitingMark.stand = s.stand :=
  let ⟨_, h⟩ := s.removeWaitingMark_frame; (congrArg State.stand h :)
@[simp] theorem State.removeWaitingMark_peers (s : State) : s.removeWaitingMark.peers = s.peers :=
  let ⟨_, h⟩ := s.removeWaitingMark_frame; (congrArg State.peers h :)
@[simp] theorem State.removeWaitingMark_share (s : State) : s.removeWaitingMark.share = s.share :=
  let ⟨_, h⟩ := s.removeWaitingMark_frame; (congrArg State.share h :)
@[simp] theorem State.removeWaitingMark_session (s : State) : s.removeWaitingMark.session = s.session :=
  let ⟨_, h⟩ := s.removeWaitingMark_frame; (congrArg State.session h :)
@[simp] theorem State.removeWaitingMark_last (s : State) : s.removeWaitingMark.last = s.last :=
  let ⟨_, h⟩ := s.removeWaitingMark_frame; (congrArg State.last h :)
@[simp] theorem State.removeWaitingMark_notices (s : State) : s.removeWaitingMark.notices = s.notices :=
  let ⟨_, h⟩ := s.removeWaitingMark_frame; (congrArg State.notices h :)
@[simp] theorem State.removeWaitingMark_stage (s : State) : s.removeWaitingMark.stage = s.stage :=
  let ⟨_, h⟩ := s.removeWaitingMark_frame; (congrArg State.stage h :)
@[simp] theorem State.removeWaitingMark_meter (s : State) : s.removeWaitingMark.meter = s.meter :=
  let ⟨_, h⟩ := s.removeWaitingMark_frame; (congrArg State.meter h :)
@[simp] theorem State.removeWaitingMark_thermal (s : State) : s.removeWaitingMark.thermal = s.thermal :=
  let ⟨_, h⟩ := s.removeWaitingMark_frame; (congrArg State.thermal h :)
@[simp] theorem State.removeWaitingMark_inspect (s : State) : s.removeWaitingMark.inspect = s.inspect :=
  let ⟨_, h⟩ := s.removeWaitingMark_frame; (congrArg State.inspect h :)
@[simp] theorem State.removeWaitingMark_out (s : State) : s.removeWaitingMark.out = s.out :=
  let ⟨_, h⟩ := s.removeWaitingMark_frame; (congrArg State.out h :)
@[simp] theorem State.removeWaitingMark_choices (s : State) : s.removeWaitingMark.choices = s.choices :=
  let ⟨_, h⟩ := s.removeWaitingMark_frame; (congrArg State.choices h :)
@[simp] theorem State.removeWaitingMark_freeCount (s : State) : s.removeWaitingMark.freeCount = s.freeCount :=
  let ⟨_, h⟩ := s.removeWaitingMark_frame; (congrArg State.freeCount h :)
@[simp] theorem State.removeWaitingMark_pending (s : State) : s.removeWaitingMark.pending = s.pending :=
  let ⟨_, h⟩ := s.removeWaitingMark_frame; (congrArg State.pending h :)

/-- All that the operation can change. -/
theorem State.sendIfChanged_frame (s : State) : ∃ (x0 : StageControl) (x1 : Outputs), s.sendIfChanged = { s with stage := x0, out := x1 } := by
  unfold State.sendIfChanged; split <;> exact ⟨_, _, rfl⟩

@[simp] theorem State.sendIfChanged_pins (s : State) : s.sendIfChanged.pins = s.pins :=
  let ⟨_, _, h⟩ := s.sendIfChanged_frame; (congrArg State.pins h :)
@[simp] theorem State.sendIfChanged_store (s : State) : s.sendIfChanged.store = s.store :=
  let ⟨_, _, h⟩ := s.sendIfChanged_frame; (congrArg State.store h :)
@[simp] theorem State.sendIfChanged_storeRead (s : State) : s.sendIfChanged.storeRead = s.storeRead :=
  let ⟨_, _, h⟩ := s.sendIfChanged_frame; (congrArg State.storeRead h :)
@[simp] theorem State.sendIfChanged_settings (s : State) : s.sendIfChanged.settings = s.settings :=
  let ⟨_, _, h⟩ := s.sendIfChanged_frame; (congrArg State.settings h :)
@[simp] theorem State.sendIfChanged_timer (s : State) : s.sendIfChanged.timer = s.timer :=
  let ⟨_, _, h⟩ := s.sendIfChanged_frame; (congrArg State.timer h :)
@[simp] theorem State.sendIfChanged_stand (s : State) : s.sendIfChanged.stand = s.stand :=
  let ⟨_, _, h⟩ := s.sendIfChanged_frame; (congrArg State.stand h :)
@[simp] theorem State.sendIfChanged_peers (s : State) : s.sendIfChanged.peers = s.peers :=
  let ⟨_, _, h⟩ := s.sendIfChanged_frame; (congrArg State.peers h :)
@[simp] theorem State.sendIfChanged_share (s : State) : s.sendIfChanged.share = s.share :=
  let ⟨_, _, h⟩ := s.sendIfChanged_frame; (congrArg State.share h :)
@[simp] theorem State.sendIfChanged_session (s : State) : s.sendIfChanged.session = s.session :=
  let ⟨_, _, h⟩ := s.sendIfChanged_frame; (congrArg State.session h :)
@[simp] theorem State.sendIfChanged_last (s : State) : s.sendIfChanged.last = s.last :=
  let ⟨_, _, h⟩ := s.sendIfChanged_frame; (congrArg State.last h :)
@[simp] theorem State.sendIfChanged_notices (s : State) : s.sendIfChanged.notices = s.notices :=
  let ⟨_, _, h⟩ := s.sendIfChanged_frame; (congrArg State.notices h :)
@[simp] theorem State.sendIfChanged_meter (s : State) : s.sendIfChanged.meter = s.meter :=
  let ⟨_, _, h⟩ := s.sendIfChanged_frame; (congrArg State.meter h :)
@[simp] theorem State.sendIfChanged_thermal (s : State) : s.sendIfChanged.thermal = s.thermal :=
  let ⟨_, _, h⟩ := s.sendIfChanged_frame; (congrArg State.thermal h :)
@[simp] theorem State.sendIfChanged_line (s : State) : s.sendIfChanged.line = s.line :=
  let ⟨_, _, h⟩ := s.sendIfChanged_frame; (congrArg State.line h :)
@[simp] theorem State.sendIfChanged_inspect (s : State) : s.sendIfChanged.inspect = s.inspect :=
  let ⟨_, _, h⟩ := s.sendIfChanged_frame; (congrArg State.inspect h :)
@[simp] theorem State.sendIfChanged_choices (s : State) : s.sendIfChanged.choices = s.choices :=
  let ⟨_, _, h⟩ := s.sendIfChanged_frame; (congrArg State.choices h :)
@[simp] theorem State.sendIfChanged_freeCount (s : State) : s.sendIfChanged.freeCount = s.freeCount :=
  let ⟨_, _, h⟩ := s.sendIfChanged_frame; (congrArg State.freeCount h :)
@[simp] theorem State.sendIfChanged_pending (s : State) : s.sendIfChanged.pending = s.pending :=
  let ⟨_, _, h⟩ := s.sendIfChanged_frame; (congrArg State.pending h :)

/-- All that the operation can change. -/
theorem State.evalPermission_frame (s : State) : ∃ (x0 : StageControl) (x1 : Outputs), s.evalPermission = { s with stage := x0, out := x1 } := by
  unfold State.evalPermission; split <;> exact State.sendIfChanged_frame _

@[simp] theorem State.evalPermission_pins (s : State) : s.evalPermission.pins = s.pins :=
  let ⟨_, _, h⟩ := s.evalPermission_frame; (congrArg State.pins h :)
@[simp] theorem State.evalPermission_store (s : State) : s.evalPermission.store = s.store :=
  let ⟨_, _, h⟩ := s.evalPermission_frame; (congrArg State.store h :)
@[simp] theorem State.evalPermission_storeRead (s : State) : s.evalPermission.storeRead = s.storeRead :=
  let ⟨_, _, h⟩ := s.evalPermission_frame; (congrArg State.storeRead h :)
@[simp] theorem State.evalPermission_settings (s : State) : s.evalPermission.settings = s.settings :=
  let ⟨_, _, h⟩ := s.evalPermission_frame; (congrArg State.settings h :)
@[simp] theorem State.evalPermission_timer (s : State) : s.evalPermission.timer = s.timer :=
  let ⟨_, _, h⟩ := s.evalPermission_frame; (congrArg State.timer h :)
@[simp] theorem State.evalPermission_stand (s : State) : s.evalPermission.stand = s.stand :=
  let ⟨_, _, h⟩ := s.evalPermission_frame; (congrArg State.stand h :)
@[simp] theorem State.evalPermission_peers (s : State) : s.evalPermission.peers = s.peers :=
  let ⟨_, _, h⟩ := s.evalPermission_frame; (congrArg State.peers h :)
@[simp] theorem State.evalPermission_share (s : State) : s.evalPermission.share = s.share :=
  let ⟨_, _, h⟩ := s.evalPermission_frame; (congrArg State.share h :)
@[simp] theorem State.evalPermission_session (s : State) : s.evalPermission.session = s.session :=
  let ⟨_, _, h⟩ := s.evalPermission_frame; (congrArg State.session h :)
@[simp] theorem State.evalPermission_last (s : State) : s.evalPermission.last = s.last :=
  let ⟨_, _, h⟩ := s.evalPermission_frame; (congrArg State.last h :)
@[simp] theorem State.evalPermission_notices (s : State) : s.evalPermission.notices = s.notices :=
  let ⟨_, _, h⟩ := s.evalPermission_frame; (congrArg State.notices h :)
@[simp] theorem State.evalPermission_meter (s : State) : s.evalPermission.meter = s.meter :=
  let ⟨_, _, h⟩ := s.evalPermission_frame; (congrArg State.meter h :)
@[simp] theorem State.evalPermission_thermal (s : State) : s.evalPermission.thermal = s.thermal :=
  let ⟨_, _, h⟩ := s.evalPermission_frame; (congrArg State.thermal h :)
@[simp] theorem State.evalPermission_line (s : State) : s.evalPermission.line = s.line :=
  let ⟨_, _, h⟩ := s.evalPermission_frame; (congrArg State.line h :)
@[simp] theorem State.evalPermission_inspect (s : State) : s.evalPermission.inspect = s.inspect :=
  let ⟨_, _, h⟩ := s.evalPermission_frame; (congrArg State.inspect h :)
@[simp] theorem State.evalPermission_choices (s : State) : s.evalPermission.choices = s.choices :=
  let ⟨_, _, h⟩ := s.evalPermission_frame; (congrArg State.choices h :)
@[simp] theorem State.evalPermission_freeCount (s : State) : s.evalPermission.freeCount = s.freeCount :=
  let ⟨_, _, h⟩ := s.evalPermission_frame; (congrArg State.freeCount h :)
@[simp] theorem State.evalPermission_pending (s : State) : s.evalPermission.pending = s.pending :=
  let ⟨_, _, h⟩ := s.evalPermission_frame; (congrArg State.pending h :)

/-- All that the operation can change. -/
theorem State.clampApplied_frame (s : State) : ∃ (x0 : StageControl) (x1 : Outputs), s.clampApplied = { s with stage := x0, out := x1 } := by
  obtain ⟨_, _, h⟩ := ({ s with stage := { s.stage with applied := min s.stage.applied s.thermal.mEff } } : State).sendIfChanged_frame
  exact ⟨_, _, h⟩

@[simp] theorem State.clampApplied_pins (s : State) : s.clampApplied.pins = s.pins :=
  let ⟨_, _, h⟩ := s.clampApplied_frame; (congrArg State.pins h :)
@[simp] theorem State.clampApplied_store (s : State) : s.clampApplied.store = s.store :=
  let ⟨_, _, h⟩ := s.clampApplied_frame; (congrArg State.store h :)
@[simp] theorem State.clampApplied_storeRead (s : State) : s.clampApplied.storeRead = s.storeRead :=
  let ⟨_, _, h⟩ := s.clampApplied_frame; (congrArg State.storeRead h :)
@[simp] theorem State.clampApplied_settings (s : State) : s.clampApplied.settings = s.settings :=
  let ⟨_, _, h⟩ := s.clampApplied_frame; (congrArg State.settings h :)
@[simp] theorem State.clampApplied_timer (s : State) : s.clampApplied.timer = s.timer :=
  let ⟨_, _, h⟩ := s.clampApplied_frame; (congrArg State.timer h :)
@[simp] theorem State.clampApplied_stand (s : State) : s.clampApplied.stand = s.stand :=
  let ⟨_, _, h⟩ := s.clampApplied_frame; (congrArg State.stand h :)
@[simp] theorem State.clampApplied_peers (s : State) : s.clampApplied.peers = s.peers :=
  let ⟨_, _, h⟩ := s.clampApplied_frame; (congrArg State.peers h :)
@[simp] theorem State.clampApplied_share (s : State) : s.clampApplied.share = s.share :=
  let ⟨_, _, h⟩ := s.clampApplied_frame; (congrArg State.share h :)
@[simp] theorem State.clampApplied_session (s : State) : s.clampApplied.session = s.session :=
  let ⟨_, _, h⟩ := s.clampApplied_frame; (congrArg State.session h :)
@[simp] theorem State.clampApplied_last (s : State) : s.clampApplied.last = s.last :=
  let ⟨_, _, h⟩ := s.clampApplied_frame; (congrArg State.last h :)
@[simp] theorem State.clampApplied_notices (s : State) : s.clampApplied.notices = s.notices :=
  let ⟨_, _, h⟩ := s.clampApplied_frame; (congrArg State.notices h :)
@[simp] theorem State.clampApplied_meter (s : State) : s.clampApplied.meter = s.meter :=
  let ⟨_, _, h⟩ := s.clampApplied_frame; (congrArg State.meter h :)
@[simp] theorem State.clampApplied_thermal (s : State) : s.clampApplied.thermal = s.thermal :=
  let ⟨_, _, h⟩ := s.clampApplied_frame; (congrArg State.thermal h :)
@[simp] theorem State.clampApplied_line (s : State) : s.clampApplied.line = s.line :=
  let ⟨_, _, h⟩ := s.clampApplied_frame; (congrArg State.line h :)
@[simp] theorem State.clampApplied_inspect (s : State) : s.clampApplied.inspect = s.inspect :=
  let ⟨_, _, h⟩ := s.clampApplied_frame; (congrArg State.inspect h :)
@[simp] theorem State.clampApplied_choices (s : State) : s.clampApplied.choices = s.choices :=
  let ⟨_, _, h⟩ := s.clampApplied_frame; (congrArg State.choices h :)
@[simp] theorem State.clampApplied_freeCount (s : State) : s.clampApplied.freeCount = s.freeCount :=
  let ⟨_, _, h⟩ := s.clampApplied_frame; (congrArg State.freeCount h :)
@[simp] theorem State.clampApplied_pending (s : State) : s.clampApplied.pending = s.pending :=
  let ⟨_, _, h⟩ := s.clampApplied_frame; (congrArg State.pending h :)

/-- All that the operation can change. -/
theorem State.refreshMEff_frame (s : State) : ∃ (x0 : ThermalScan) (x1 : StageControl) (x2 : Outputs), s.refreshMEff = { s with thermal := x0, stage := x1, out := x2 } := by
  obtain ⟨_, _, h⟩ := ({ s with thermal := { s.thermal with mEff := s.formedMEff } } : State).clampApplied_frame
  exact ⟨_, _, _, h⟩

@[simp] theorem State.refreshMEff_pins (s : State) : s.refreshMEff.pins = s.pins :=
  let ⟨_, _, _, h⟩ := s.refreshMEff_frame; (congrArg State.pins h :)
@[simp] theorem State.refreshMEff_store (s : State) : s.refreshMEff.store = s.store :=
  let ⟨_, _, _, h⟩ := s.refreshMEff_frame; (congrArg State.store h :)
@[simp] theorem State.refreshMEff_storeRead (s : State) : s.refreshMEff.storeRead = s.storeRead :=
  let ⟨_, _, _, h⟩ := s.refreshMEff_frame; (congrArg State.storeRead h :)
@[simp] theorem State.refreshMEff_settings (s : State) : s.refreshMEff.settings = s.settings :=
  let ⟨_, _, _, h⟩ := s.refreshMEff_frame; (congrArg State.settings h :)
@[simp] theorem State.refreshMEff_timer (s : State) : s.refreshMEff.timer = s.timer :=
  let ⟨_, _, _, h⟩ := s.refreshMEff_frame; (congrArg State.timer h :)
@[simp] theorem State.refreshMEff_stand (s : State) : s.refreshMEff.stand = s.stand :=
  let ⟨_, _, _, h⟩ := s.refreshMEff_frame; (congrArg State.stand h :)
@[simp] theorem State.refreshMEff_peers (s : State) : s.refreshMEff.peers = s.peers :=
  let ⟨_, _, _, h⟩ := s.refreshMEff_frame; (congrArg State.peers h :)
@[simp] theorem State.refreshMEff_share (s : State) : s.refreshMEff.share = s.share :=
  let ⟨_, _, _, h⟩ := s.refreshMEff_frame; (congrArg State.share h :)
@[simp] theorem State.refreshMEff_session (s : State) : s.refreshMEff.session = s.session :=
  let ⟨_, _, _, h⟩ := s.refreshMEff_frame; (congrArg State.session h :)
@[simp] theorem State.refreshMEff_last (s : State) : s.refreshMEff.last = s.last :=
  let ⟨_, _, _, h⟩ := s.refreshMEff_frame; (congrArg State.last h :)
@[simp] theorem State.refreshMEff_notices (s : State) : s.refreshMEff.notices = s.notices :=
  let ⟨_, _, _, h⟩ := s.refreshMEff_frame; (congrArg State.notices h :)
@[simp] theorem State.refreshMEff_meter (s : State) : s.refreshMEff.meter = s.meter :=
  let ⟨_, _, _, h⟩ := s.refreshMEff_frame; (congrArg State.meter h :)
@[simp] theorem State.refreshMEff_line (s : State) : s.refreshMEff.line = s.line :=
  let ⟨_, _, _, h⟩ := s.refreshMEff_frame; (congrArg State.line h :)
@[simp] theorem State.refreshMEff_inspect (s : State) : s.refreshMEff.inspect = s.inspect :=
  let ⟨_, _, _, h⟩ := s.refreshMEff_frame; (congrArg State.inspect h :)
@[simp] theorem State.refreshMEff_choices (s : State) : s.refreshMEff.choices = s.choices :=
  let ⟨_, _, _, h⟩ := s.refreshMEff_frame; (congrArg State.choices h :)
@[simp] theorem State.refreshMEff_freeCount (s : State) : s.refreshMEff.freeCount = s.freeCount :=
  let ⟨_, _, _, h⟩ := s.refreshMEff_frame; (congrArg State.freeCount h :)
@[simp] theorem State.refreshMEff_pending (s : State) : s.refreshMEff.pending = s.pending :=
  let ⟨_, _, _, h⟩ := s.refreshMEff_frame; (congrArg State.pending h :)

/-- All that the operation can change. -/
theorem State.formClaim_frame (s : State) : ∃ (x0 : ShareUnit) (x1 : LineEngine), s.formClaim = { s with share := x0, line := x1 } := by
  unfold State.formClaim; split
  · obtain ⟨_, h⟩ := State.placeFrame_frame .claim s.claimNow.payload ({ s with share := { s.share with ownClaim := some s.claimNow, sequence := s.claimNow.sequence } } : State)
    exact ⟨_, _, h⟩
  · exact ⟨_, _, rfl⟩

@[simp] theorem State.formClaim_pins (s : State) : s.formClaim.pins = s.pins :=
  let ⟨_, _, h⟩ := s.formClaim_frame; (congrArg State.pins h :)
@[simp] theorem State.formClaim_store (s : State) : s.formClaim.store = s.store :=
  let ⟨_, _, h⟩ := s.formClaim_frame; (congrArg State.store h :)
@[simp] theorem State.formClaim_storeRead (s : State) : s.formClaim.storeRead = s.storeRead :=
  let ⟨_, _, h⟩ := s.formClaim_frame; (congrArg State.storeRead h :)
@[simp] theorem State.formClaim_settings (s : State) : s.formClaim.settings = s.settings :=
  let ⟨_, _, h⟩ := s.formClaim_frame; (congrArg State.settings h :)
@[simp] theorem State.formClaim_timer (s : State) : s.formClaim.timer = s.timer :=
  let ⟨_, _, h⟩ := s.formClaim_frame; (congrArg State.timer h :)
@[simp] theorem State.formClaim_stand (s : State) : s.formClaim.stand = s.stand :=
  let ⟨_, _, h⟩ := s.formClaim_frame; (congrArg State.stand h :)
@[simp] theorem State.formClaim_peers (s : State) : s.formClaim.peers = s.peers :=
  let ⟨_, _, h⟩ := s.formClaim_frame; (congrArg State.peers h :)
@[simp] theorem State.formClaim_session (s : State) : s.formClaim.session = s.session :=
  let ⟨_, _, h⟩ := s.formClaim_frame; (congrArg State.session h :)
@[simp] theorem State.formClaim_last (s : State) : s.formClaim.last = s.last :=
  let ⟨_, _, h⟩ := s.formClaim_frame; (congrArg State.last h :)
@[simp] theorem State.formClaim_notices (s : State) : s.formClaim.notices = s.notices :=
  let ⟨_, _, h⟩ := s.formClaim_frame; (congrArg State.notices h :)
@[simp] theorem State.formClaim_stage (s : State) : s.formClaim.stage = s.stage :=
  let ⟨_, _, h⟩ := s.formClaim_frame; (congrArg State.stage h :)
@[simp] theorem State.formClaim_meter (s : State) : s.formClaim.meter = s.meter :=
  let ⟨_, _, h⟩ := s.formClaim_frame; (congrArg State.meter h :)
@[simp] theorem State.formClaim_thermal (s : State) : s.formClaim.thermal = s.thermal :=
  let ⟨_, _, h⟩ := s.formClaim_frame; (congrArg State.thermal h :)
@[simp] theorem State.formClaim_inspect (s : State) : s.formClaim.inspect = s.inspect :=
  let ⟨_, _, h⟩ := s.formClaim_frame; (congrArg State.inspect h :)
@[simp] theorem State.formClaim_out (s : State) : s.formClaim.out = s.out :=
  let ⟨_, _, h⟩ := s.formClaim_frame; (congrArg State.out h :)
@[simp] theorem State.formClaim_choices (s : State) : s.formClaim.choices = s.choices :=
  let ⟨_, _, h⟩ := s.formClaim_frame; (congrArg State.choices h :)
@[simp] theorem State.formClaim_freeCount (s : State) : s.formClaim.freeCount = s.freeCount :=
  let ⟨_, _, h⟩ := s.formClaim_frame; (congrArg State.freeCount h :)
@[simp] theorem State.formClaim_pending (s : State) : s.formClaim.pending = s.pending :=
  let ⟨_, _, h⟩ := s.formClaim_frame; (congrArg State.pending h :)

/-- All that the operation can change. -/
theorem State.putSession_frame (x : Option Session) (s : State) : ∃ (x0 : Option Session) (x1 : Outputs) (x2 : ShareUnit) (x3 : LineEngine), (s.putSession x) = { s with session := x0, out := x1, share := x2, line := x3 } := by
  obtain ⟨_, _, h1⟩ := ({ s with session := x } : State).formClaim_frame
  obtain ⟨_, _, h2⟩ := ({ s with session := x } : State).sendPhase.formClaim_frame
  simp only [State.putSession]; split <;> split <;> first | exact ⟨_, _, _, _, h1⟩ | exact ⟨_, _, _, _, h2⟩ | exact ⟨_, _, _, _, rfl⟩

@[simp] theorem State.putSession_pins (x : Option Session) (s : State) : (s.putSession x).pins = s.pins :=
  let ⟨_, _, _, _, h⟩ := s.putSession_frame x; (congrArg State.pins h :)
@[simp] theorem State.putSession_store (x : Option Session) (s : State) : (s.putSession x).store = s.store :=
  let ⟨_, _, _, _, h⟩ := s.putSession_frame x; (congrArg State.store h :)
@[simp] theorem State.putSession_storeRead (x : Option Session) (s : State) : (s.putSession x).storeRead = s.storeRead :=
  let ⟨_, _, _, _, h⟩ := s.putSession_frame x; (congrArg State.storeRead h :)
@[simp] theorem State.putSession_settings (x : Option Session) (s : State) : (s.putSession x).settings = s.settings :=
  let ⟨_, _, _, _, h⟩ := s.putSession_frame x; (congrArg State.settings h :)
@[simp] theorem State.putSession_timer (x : Option Session) (s : State) : (s.putSession x).timer = s.timer :=
  let ⟨_, _, _, _, h⟩ := s.putSession_frame x; (congrArg State.timer h :)
@[simp] theorem State.putSession_stand (x : Option Session) (s : State) : (s.putSession x).stand = s.stand :=
  let ⟨_, _, _, _, h⟩ := s.putSession_frame x; (congrArg State.stand h :)
@[simp] theorem State.putSession_peers (x : Option Session) (s : State) : (s.putSession x).peers = s.peers :=
  let ⟨_, _, _, _, h⟩ := s.putSession_frame x; (congrArg State.peers h :)
@[simp] theorem State.putSession_last (x : Option Session) (s : State) : (s.putSession x).last = s.last :=
  let ⟨_, _, _, _, h⟩ := s.putSession_frame x; (congrArg State.last h :)
@[simp] theorem State.putSession_notices (x : Option Session) (s : State) : (s.putSession x).notices = s.notices :=
  let ⟨_, _, _, _, h⟩ := s.putSession_frame x; (congrArg State.notices h :)
@[simp] theorem State.putSession_stage (x : Option Session) (s : State) : (s.putSession x).stage = s.stage :=
  let ⟨_, _, _, _, h⟩ := s.putSession_frame x; (congrArg State.stage h :)
@[simp] theorem State.putSession_meter (x : Option Session) (s : State) : (s.putSession x).meter = s.meter :=
  let ⟨_, _, _, _, h⟩ := s.putSession_frame x; (congrArg State.meter h :)
@[simp] theorem State.putSession_thermal (x : Option Session) (s : State) : (s.putSession x).thermal = s.thermal :=
  let ⟨_, _, _, _, h⟩ := s.putSession_frame x; (congrArg State.thermal h :)
@[simp] theorem State.putSession_inspect (x : Option Session) (s : State) : (s.putSession x).inspect = s.inspect :=
  let ⟨_, _, _, _, h⟩ := s.putSession_frame x; (congrArg State.inspect h :)
@[simp] theorem State.putSession_choices (x : Option Session) (s : State) : (s.putSession x).choices = s.choices :=
  let ⟨_, _, _, _, h⟩ := s.putSession_frame x; (congrArg State.choices h :)
@[simp] theorem State.putSession_freeCount (x : Option Session) (s : State) : (s.putSession x).freeCount = s.freeCount :=
  let ⟨_, _, _, _, h⟩ := s.putSession_frame x; (congrArg State.freeCount h :)
@[simp] theorem State.putSession_pending (x : Option Session) (s : State) : (s.putSession x).pending = s.pending :=
  let ⟨_, _, _, _, h⟩ := s.putSession_frame x; (congrArg State.pending h :)

/-- All that the operation can change. -/
theorem State.changeSession_frame (x : Option Session) (s : State) : ∃ (x0 : Option Session) (x1 : Outputs) (x2 : ShareUnit) (x3 : LineEngine) (x4 : StageControl), (s.changeSession x) = { s with session := x0, out := x1, share := x2, line := x3, stage := x4 } := by
  obtain ⟨_, _, _, _, h⟩ := s.putSession_frame x; obtain ⟨_, _, h'⟩ := (s.putSession x).evalPermission_frame
  exact ⟨_, _, _, _, _, h'.trans (by rw [h])⟩

@[simp] theorem State.changeSession_pins (x : Option Session) (s : State) : (s.changeSession x).pins = s.pins :=
  let ⟨_, _, _, _, _, h⟩ := s.changeSession_frame x; (congrArg State.pins h :)
@[simp] theorem State.changeSession_store (x : Option Session) (s : State) : (s.changeSession x).store = s.store :=
  let ⟨_, _, _, _, _, h⟩ := s.changeSession_frame x; (congrArg State.store h :)
@[simp] theorem State.changeSession_storeRead (x : Option Session) (s : State) : (s.changeSession x).storeRead = s.storeRead :=
  let ⟨_, _, _, _, _, h⟩ := s.changeSession_frame x; (congrArg State.storeRead h :)
@[simp] theorem State.changeSession_settings (x : Option Session) (s : State) : (s.changeSession x).settings = s.settings :=
  let ⟨_, _, _, _, _, h⟩ := s.changeSession_frame x; (congrArg State.settings h :)
@[simp] theorem State.changeSession_timer (x : Option Session) (s : State) : (s.changeSession x).timer = s.timer :=
  let ⟨_, _, _, _, _, h⟩ := s.changeSession_frame x; (congrArg State.timer h :)
@[simp] theorem State.changeSession_stand (x : Option Session) (s : State) : (s.changeSession x).stand = s.stand :=
  let ⟨_, _, _, _, _, h⟩ := s.changeSession_frame x; (congrArg State.stand h :)
@[simp] theorem State.changeSession_peers (x : Option Session) (s : State) : (s.changeSession x).peers = s.peers :=
  let ⟨_, _, _, _, _, h⟩ := s.changeSession_frame x; (congrArg State.peers h :)
@[simp] theorem State.changeSession_last (x : Option Session) (s : State) : (s.changeSession x).last = s.last :=
  let ⟨_, _, _, _, _, h⟩ := s.changeSession_frame x; (congrArg State.last h :)
@[simp] theorem State.changeSession_notices (x : Option Session) (s : State) : (s.changeSession x).notices = s.notices :=
  let ⟨_, _, _, _, _, h⟩ := s.changeSession_frame x; (congrArg State.notices h :)
@[simp] theorem State.changeSession_meter (x : Option Session) (s : State) : (s.changeSession x).meter = s.meter :=
  let ⟨_, _, _, _, _, h⟩ := s.changeSession_frame x; (congrArg State.meter h :)
@[simp] theorem State.changeSession_thermal (x : Option Session) (s : State) : (s.changeSession x).thermal = s.thermal :=
  let ⟨_, _, _, _, _, h⟩ := s.changeSession_frame x; (congrArg State.thermal h :)
@[simp] theorem State.changeSession_inspect (x : Option Session) (s : State) : (s.changeSession x).inspect = s.inspect :=
  let ⟨_, _, _, _, _, h⟩ := s.changeSession_frame x; (congrArg State.inspect h :)
@[simp] theorem State.changeSession_choices (x : Option Session) (s : State) : (s.changeSession x).choices = s.choices :=
  let ⟨_, _, _, _, _, h⟩ := s.changeSession_frame x; (congrArg State.choices h :)
@[simp] theorem State.changeSession_freeCount (x : Option Session) (s : State) : (s.changeSession x).freeCount = s.freeCount :=
  let ⟨_, _, _, _, _, h⟩ := s.changeSession_frame x; (congrArg State.freeCount h :)
@[simp] theorem State.changeSession_pending (x : Option Session) (s : State) : (s.changeSession x).pending = s.pending :=
  let ⟨_, _, _, _, _, h⟩ := s.changeSession_frame x; (congrArg State.pending h :)

/-- All that the operation can change. -/
theorem State.addHold_frame (r : HoldReason) (s : State) : ∃ (x0 : Option Session) (x1 : Outputs) (x2 : ShareUnit) (x3 : LineEngine) (x4 : StageControl), (s.addHold r) = { s with session := x0, out := x1, share := x2, line := x3, stage := x4 } := by
  unfold State.addHold; split <;> (try split) <;> first | exact ⟨_, _, _, _, _, rfl⟩ | exact State.changeSession_frame _ s

@[simp] theorem State.addHold_pins (r : HoldReason) (s : State) : (s.addHold r).pins = s.pins :=
  let ⟨_, _, _, _, _, h⟩ := s.addHold_frame r; (congrArg State.pins h :)
@[simp] theorem State.addHold_store (r : HoldReason) (s : State) : (s.addHold r).store = s.store :=
  let ⟨_, _, _, _, _, h⟩ := s.addHold_frame r; (congrArg State.store h :)
@[simp] theorem State.addHold_storeRead (r : HoldReason) (s : State) : (s.addHold r).storeRead = s.storeRead :=
  let ⟨_, _, _, _, _, h⟩ := s.addHold_frame r; (congrArg State.storeRead h :)
@[simp] theorem State.addHold_settings (r : HoldReason) (s : State) : (s.addHold r).settings = s.settings :=
  let ⟨_, _, _, _, _, h⟩ := s.addHold_frame r; (congrArg State.settings h :)
@[simp] theorem State.addHold_timer (r : HoldReason) (s : State) : (s.addHold r).timer = s.timer :=
  let ⟨_, _, _, _, _, h⟩ := s.addHold_frame r; (congrArg State.timer h :)
@[simp] theorem State.addHold_stand (r : HoldReason) (s : State) : (s.addHold r).stand = s.stand :=
  let ⟨_, _, _, _, _, h⟩ := s.addHold_frame r; (congrArg State.stand h :)
@[simp] theorem State.addHold_peers (r : HoldReason) (s : State) : (s.addHold r).peers = s.peers :=
  let ⟨_, _, _, _, _, h⟩ := s.addHold_frame r; (congrArg State.peers h :)
@[simp] theorem State.addHold_last (r : HoldReason) (s : State) : (s.addHold r).last = s.last :=
  let ⟨_, _, _, _, _, h⟩ := s.addHold_frame r; (congrArg State.last h :)
@[simp] theorem State.addHold_notices (r : HoldReason) (s : State) : (s.addHold r).notices = s.notices :=
  let ⟨_, _, _, _, _, h⟩ := s.addHold_frame r; (congrArg State.notices h :)
@[simp] theorem State.addHold_meter (r : HoldReason) (s : State) : (s.addHold r).meter = s.meter :=
  let ⟨_, _, _, _, _, h⟩ := s.addHold_frame r; (congrArg State.meter h :)
@[simp] theorem State.addHold_thermal (r : HoldReason) (s : State) : (s.addHold r).thermal = s.thermal :=
  let ⟨_, _, _, _, _, h⟩ := s.addHold_frame r; (congrArg State.thermal h :)
@[simp] theorem State.addHold_inspect (r : HoldReason) (s : State) : (s.addHold r).inspect = s.inspect :=
  let ⟨_, _, _, _, _, h⟩ := s.addHold_frame r; (congrArg State.inspect h :)
@[simp] theorem State.addHold_choices (r : HoldReason) (s : State) : (s.addHold r).choices = s.choices :=
  let ⟨_, _, _, _, _, h⟩ := s.addHold_frame r; (congrArg State.choices h :)
@[simp] theorem State.addHold_freeCount (r : HoldReason) (s : State) : (s.addHold r).freeCount = s.freeCount :=
  let ⟨_, _, _, _, _, h⟩ := s.addHold_frame r; (congrArg State.freeCount h :)
@[simp] theorem State.addHold_pending (r : HoldReason) (s : State) : (s.addHold r).pending = s.pending :=
  let ⟨_, _, _, _, _, h⟩ := s.addHold_frame r; (congrArg State.pending h :)

/-- All that the operation can change. -/
theorem State.removeHold_frame (r : HoldReason) (s : State) : ∃ (x0 : Option Session) (x1 : Outputs) (x2 : ShareUnit) (x3 : LineEngine) (x4 : StageControl), (s.removeHold r) = { s with session := x0, out := x1, share := x2, line := x3, stage := x4 } := by
  unfold State.removeHold; split <;> (try split) <;> first | exact State.changeSession_frame _ s | exact ⟨_, _, _, _, _, rfl⟩

@[simp] theorem State.removeHold_pins (r : HoldReason) (s : State) : (s.removeHold r).pins = s.pins :=
  let ⟨_, _, _, _, _, h⟩ := s.removeHold_frame r; (congrArg State.pins h :)
@[simp] theorem State.removeHold_store (r : HoldReason) (s : State) : (s.removeHold r).store = s.store :=
  let ⟨_, _, _, _, _, h⟩ := s.removeHold_frame r; (congrArg State.store h :)
@[simp] theorem State.removeHold_storeRead (r : HoldReason) (s : State) : (s.removeHold r).storeRead = s.storeRead :=
  let ⟨_, _, _, _, _, h⟩ := s.removeHold_frame r; (congrArg State.storeRead h :)
@[simp] theorem State.removeHold_settings (r : HoldReason) (s : State) : (s.removeHold r).settings = s.settings :=
  let ⟨_, _, _, _, _, h⟩ := s.removeHold_frame r; (congrArg State.settings h :)
@[simp] theorem State.removeHold_timer (r : HoldReason) (s : State) : (s.removeHold r).timer = s.timer :=
  let ⟨_, _, _, _, _, h⟩ := s.removeHold_frame r; (congrArg State.timer h :)
@[simp] theorem State.removeHold_stand (r : HoldReason) (s : State) : (s.removeHold r).stand = s.stand :=
  let ⟨_, _, _, _, _, h⟩ := s.removeHold_frame r; (congrArg State.stand h :)
@[simp] theorem State.removeHold_peers (r : HoldReason) (s : State) : (s.removeHold r).peers = s.peers :=
  let ⟨_, _, _, _, _, h⟩ := s.removeHold_frame r; (congrArg State.peers h :)
@[simp] theorem State.removeHold_last (r : HoldReason) (s : State) : (s.removeHold r).last = s.last :=
  let ⟨_, _, _, _, _, h⟩ := s.removeHold_frame r; (congrArg State.last h :)
@[simp] theorem State.removeHold_notices (r : HoldReason) (s : State) : (s.removeHold r).notices = s.notices :=
  let ⟨_, _, _, _, _, h⟩ := s.removeHold_frame r; (congrArg State.notices h :)
@[simp] theorem State.removeHold_meter (r : HoldReason) (s : State) : (s.removeHold r).meter = s.meter :=
  let ⟨_, _, _, _, _, h⟩ := s.removeHold_frame r; (congrArg State.meter h :)
@[simp] theorem State.removeHold_thermal (r : HoldReason) (s : State) : (s.removeHold r).thermal = s.thermal :=
  let ⟨_, _, _, _, _, h⟩ := s.removeHold_frame r; (congrArg State.thermal h :)
@[simp] theorem State.removeHold_inspect (r : HoldReason) (s : State) : (s.removeHold r).inspect = s.inspect :=
  let ⟨_, _, _, _, _, h⟩ := s.removeHold_frame r; (congrArg State.inspect h :)
@[simp] theorem State.removeHold_choices (r : HoldReason) (s : State) : (s.removeHold r).choices = s.choices :=
  let ⟨_, _, _, _, _, h⟩ := s.removeHold_frame r; (congrArg State.choices h :)
@[simp] theorem State.removeHold_freeCount (r : HoldReason) (s : State) : (s.removeHold r).freeCount = s.freeCount :=
  let ⟨_, _, _, _, _, h⟩ := s.removeHold_frame r; (congrArg State.freeCount h :)
@[simp] theorem State.removeHold_pending (r : HoldReason) (s : State) : (s.removeHold r).pending = s.pending :=
  let ⟨_, _, _, _, _, h⟩ := s.removeHold_frame r; (congrArg State.pending h :)

/-- All that the operation can change. -/
theorem State.topIfReached_frame (s : State) : ∃ (x0 : Option Session) (x1 : Outputs) (x2 : ShareUnit) (x3 : LineEngine) (x4 : StageControl), s.topIfReached = { s with session := x0, out := x1, share := x2, line := x3, stage := x4 } := by
  unfold State.topIfReached; split <;> (try split) <;> first | exact State.changeSession_frame _ s | exact ⟨_, _, _, _, _, rfl⟩

@[simp] theorem State.topIfReached_pins (s : State) : s.topIfReached.pins = s.pins :=
  let ⟨_, _, _, _, _, h⟩ := s.topIfReached_frame; (congrArg State.pins h :)
@[simp] theorem State.topIfReached_store (s : State) : s.topIfReached.store = s.store :=
  let ⟨_, _, _, _, _, h⟩ := s.topIfReached_frame; (congrArg State.store h :)
@[simp] theorem State.topIfReached_storeRead (s : State) : s.topIfReached.storeRead = s.storeRead :=
  let ⟨_, _, _, _, _, h⟩ := s.topIfReached_frame; (congrArg State.storeRead h :)
@[simp] theorem State.topIfReached_settings (s : State) : s.topIfReached.settings = s.settings :=
  let ⟨_, _, _, _, _, h⟩ := s.topIfReached_frame; (congrArg State.settings h :)
@[simp] theorem State.topIfReached_timer (s : State) : s.topIfReached.timer = s.timer :=
  let ⟨_, _, _, _, _, h⟩ := s.topIfReached_frame; (congrArg State.timer h :)
@[simp] theorem State.topIfReached_stand (s : State) : s.topIfReached.stand = s.stand :=
  let ⟨_, _, _, _, _, h⟩ := s.topIfReached_frame; (congrArg State.stand h :)
@[simp] theorem State.topIfReached_peers (s : State) : s.topIfReached.peers = s.peers :=
  let ⟨_, _, _, _, _, h⟩ := s.topIfReached_frame; (congrArg State.peers h :)
@[simp] theorem State.topIfReached_last (s : State) : s.topIfReached.last = s.last :=
  let ⟨_, _, _, _, _, h⟩ := s.topIfReached_frame; (congrArg State.last h :)
@[simp] theorem State.topIfReached_notices (s : State) : s.topIfReached.notices = s.notices :=
  let ⟨_, _, _, _, _, h⟩ := s.topIfReached_frame; (congrArg State.notices h :)
@[simp] theorem State.topIfReached_meter (s : State) : s.topIfReached.meter = s.meter :=
  let ⟨_, _, _, _, _, h⟩ := s.topIfReached_frame; (congrArg State.meter h :)
@[simp] theorem State.topIfReached_thermal (s : State) : s.topIfReached.thermal = s.thermal :=
  let ⟨_, _, _, _, _, h⟩ := s.topIfReached_frame; (congrArg State.thermal h :)
@[simp] theorem State.topIfReached_inspect (s : State) : s.topIfReached.inspect = s.inspect :=
  let ⟨_, _, _, _, _, h⟩ := s.topIfReached_frame; (congrArg State.inspect h :)
@[simp] theorem State.topIfReached_choices (s : State) : s.topIfReached.choices = s.choices :=
  let ⟨_, _, _, _, _, h⟩ := s.topIfReached_frame; (congrArg State.choices h :)
@[simp] theorem State.topIfReached_freeCount (s : State) : s.topIfReached.freeCount = s.freeCount :=
  let ⟨_, _, _, _, _, h⟩ := s.topIfReached_frame; (congrArg State.freeCount h :)
@[simp] theorem State.topIfReached_pending (s : State) : s.topIfReached.pending = s.pending :=
  let ⟨_, _, _, _, _, h⟩ := s.topIfReached_frame; (congrArg State.pending h :)

/-- All that the operation can change. -/
theorem State.writeLast_frame (r : EndReason) (s : State) : ∃ (x0 : Option LastSession), (s.writeLast r) = { s with last := x0 } := by
  unfold State.writeLast; split <;> exact ⟨_, rfl⟩

@[simp] theorem State.writeLast_pins (r : EndReason) (s : State) : (s.writeLast r).pins = s.pins :=
  let ⟨_, h⟩ := s.writeLast_frame r; (congrArg State.pins h :)
@[simp] theorem State.writeLast_store (r : EndReason) (s : State) : (s.writeLast r).store = s.store :=
  let ⟨_, h⟩ := s.writeLast_frame r; (congrArg State.store h :)
@[simp] theorem State.writeLast_storeRead (r : EndReason) (s : State) : (s.writeLast r).storeRead = s.storeRead :=
  let ⟨_, h⟩ := s.writeLast_frame r; (congrArg State.storeRead h :)
@[simp] theorem State.writeLast_settings (r : EndReason) (s : State) : (s.writeLast r).settings = s.settings :=
  let ⟨_, h⟩ := s.writeLast_frame r; (congrArg State.settings h :)
@[simp] theorem State.writeLast_timer (r : EndReason) (s : State) : (s.writeLast r).timer = s.timer :=
  let ⟨_, h⟩ := s.writeLast_frame r; (congrArg State.timer h :)
@[simp] theorem State.writeLast_stand (r : EndReason) (s : State) : (s.writeLast r).stand = s.stand :=
  let ⟨_, h⟩ := s.writeLast_frame r; (congrArg State.stand h :)
@[simp] theorem State.writeLast_peers (r : EndReason) (s : State) : (s.writeLast r).peers = s.peers :=
  let ⟨_, h⟩ := s.writeLast_frame r; (congrArg State.peers h :)
@[simp] theorem State.writeLast_share (r : EndReason) (s : State) : (s.writeLast r).share = s.share :=
  let ⟨_, h⟩ := s.writeLast_frame r; (congrArg State.share h :)
@[simp] theorem State.writeLast_session (r : EndReason) (s : State) : (s.writeLast r).session = s.session :=
  let ⟨_, h⟩ := s.writeLast_frame r; (congrArg State.session h :)
@[simp] theorem State.writeLast_notices (r : EndReason) (s : State) : (s.writeLast r).notices = s.notices :=
  let ⟨_, h⟩ := s.writeLast_frame r; (congrArg State.notices h :)
@[simp] theorem State.writeLast_stage (r : EndReason) (s : State) : (s.writeLast r).stage = s.stage :=
  let ⟨_, h⟩ := s.writeLast_frame r; (congrArg State.stage h :)
@[simp] theorem State.writeLast_meter (r : EndReason) (s : State) : (s.writeLast r).meter = s.meter :=
  let ⟨_, h⟩ := s.writeLast_frame r; (congrArg State.meter h :)
@[simp] theorem State.writeLast_thermal (r : EndReason) (s : State) : (s.writeLast r).thermal = s.thermal :=
  let ⟨_, h⟩ := s.writeLast_frame r; (congrArg State.thermal h :)
@[simp] theorem State.writeLast_line (r : EndReason) (s : State) : (s.writeLast r).line = s.line :=
  let ⟨_, h⟩ := s.writeLast_frame r; (congrArg State.line h :)
@[simp] theorem State.writeLast_inspect (r : EndReason) (s : State) : (s.writeLast r).inspect = s.inspect :=
  let ⟨_, h⟩ := s.writeLast_frame r; (congrArg State.inspect h :)
@[simp] theorem State.writeLast_out (r : EndReason) (s : State) : (s.writeLast r).out = s.out :=
  let ⟨_, h⟩ := s.writeLast_frame r; (congrArg State.out h :)
@[simp] theorem State.writeLast_choices (r : EndReason) (s : State) : (s.writeLast r).choices = s.choices :=
  let ⟨_, h⟩ := s.writeLast_frame r; (congrArg State.choices h :)
@[simp] theorem State.writeLast_freeCount (r : EndReason) (s : State) : (s.writeLast r).freeCount = s.freeCount :=
  let ⟨_, h⟩ := s.writeLast_frame r; (congrArg State.freeCount h :)
@[simp] theorem State.writeLast_pending (r : EndReason) (s : State) : (s.writeLast r).pending = s.pending :=
  let ⟨_, h⟩ := s.writeLast_frame r; (congrArg State.pending h :)

/-- All that the operation can change. -/
theorem State.standingTakes_frame (b : Nat) (s : State) : ∃ (x0 : StandingUnit) (x1 : Timer) (x2 : ShareUnit) (x3 : LineEngine) (x4 : StageControl) (x5 : Outputs), (s.standingTakes b) = { s with stand := x0, timer := x1, share := x2, line := x3, stage := x4, out := x5 } := by
  have h : ∀ t : State, ∃ x0 x1 x2 x3, t.formClaim.evalPermission = { t with share := x0, line := x1, stage := x2, out := x3 } := fun t => by
    obtain ⟨_, _, h⟩ := t.formClaim_frame; obtain ⟨_, _, h'⟩ := t.formClaim.evalPermission_frame
    exact ⟨_, _, _, _, h'.trans (by rw [h])⟩
  obtain ⟨_, _, _, _, h1⟩ := h { s with stand := { s.stand.hears (decide (b = s.cfg.bay)) with standing := .rejoining, silentStreak := 0, rejoinCount := 0 } }
  obtain ⟨_, _, _, _, h2⟩ := h ({ s with stand := s.stand.hears (decide (b = s.cfg.bay)) } : State).enterListening
  simp only [State.standingTakes]; split <;> (try split) <;> (try split) <;> first | exact ⟨_, _, _, _, _, _, rfl⟩ | exact ⟨_, _, _, _, _, _, h1⟩ | exact ⟨_, _, _, _, _, _, h2⟩

@[simp] theorem State.standingTakes_pins (b : Nat) (s : State) : (s.standingTakes b).pins = s.pins :=
  let ⟨_, _, _, _, _, _, h⟩ := s.standingTakes_frame b; (congrArg State.pins h :)
@[simp] theorem State.standingTakes_store (b : Nat) (s : State) : (s.standingTakes b).store = s.store :=
  let ⟨_, _, _, _, _, _, h⟩ := s.standingTakes_frame b; (congrArg State.store h :)
@[simp] theorem State.standingTakes_storeRead (b : Nat) (s : State) : (s.standingTakes b).storeRead = s.storeRead :=
  let ⟨_, _, _, _, _, _, h⟩ := s.standingTakes_frame b; (congrArg State.storeRead h :)
@[simp] theorem State.standingTakes_settings (b : Nat) (s : State) : (s.standingTakes b).settings = s.settings :=
  let ⟨_, _, _, _, _, _, h⟩ := s.standingTakes_frame b; (congrArg State.settings h :)
@[simp] theorem State.standingTakes_peers (b : Nat) (s : State) : (s.standingTakes b).peers = s.peers :=
  let ⟨_, _, _, _, _, _, h⟩ := s.standingTakes_frame b; (congrArg State.peers h :)
@[simp] theorem State.standingTakes_session (b : Nat) (s : State) : (s.standingTakes b).session = s.session :=
  let ⟨_, _, _, _, _, _, h⟩ := s.standingTakes_frame b; (congrArg State.session h :)
@[simp] theorem State.standingTakes_last (b : Nat) (s : State) : (s.standingTakes b).last = s.last :=
  let ⟨_, _, _, _, _, _, h⟩ := s.standingTakes_frame b; (congrArg State.last h :)
@[simp] theorem State.standingTakes_notices (b : Nat) (s : State) : (s.standingTakes b).notices = s.notices :=
  let ⟨_, _, _, _, _, _, h⟩ := s.standingTakes_frame b; (congrArg State.notices h :)
@[simp] theorem State.standingTakes_meter (b : Nat) (s : State) : (s.standingTakes b).meter = s.meter :=
  let ⟨_, _, _, _, _, _, h⟩ := s.standingTakes_frame b; (congrArg State.meter h :)
@[simp] theorem State.standingTakes_thermal (b : Nat) (s : State) : (s.standingTakes b).thermal = s.thermal :=
  let ⟨_, _, _, _, _, _, h⟩ := s.standingTakes_frame b; (congrArg State.thermal h :)
@[simp] theorem State.standingTakes_inspect (b : Nat) (s : State) : (s.standingTakes b).inspect = s.inspect :=
  let ⟨_, _, _, _, _, _, h⟩ := s.standingTakes_frame b; (congrArg State.inspect h :)
@[simp] theorem State.standingTakes_choices (b : Nat) (s : State) : (s.standingTakes b).choices = s.choices :=
  let ⟨_, _, _, _, _, _, h⟩ := s.standingTakes_frame b; (congrArg State.choices h :)
@[simp] theorem State.standingTakes_freeCount (b : Nat) (s : State) : (s.standingTakes b).freeCount = s.freeCount :=
  let ⟨_, _, _, _, _, _, h⟩ := s.standingTakes_frame b; (congrArg State.freeCount h :)
@[simp] theorem State.standingTakes_pending (b : Nat) (s : State) : (s.standingTakes b).pending = s.pending :=
  let ⟨_, _, _, _, _, _, h⟩ := s.standingTakes_frame b; (congrArg State.pending h :)

/-- All that the operation can change. -/
theorem State.ceilingTest_frame (s : State) : ∃ (x0 : MeterCounter) (x1 : StageControl) (x2 : Outputs), s.ceilingTest = { s with meter := x0, stage := x1, out := x2 } := by
  unfold State.ceilingTest; split
  · obtain ⟨_, _, h⟩ := ({ s with meter := { s.meter with capped := true }, stage := { s.stage with cap := true } } : State).sendIfChanged_frame
    exact ⟨_, _, _, h⟩
  · exact ⟨_, _, _, rfl⟩

@[simp] theorem State.ceilingTest_pins (s : State) : s.ceilingTest.pins = s.pins :=
  let ⟨_, _, _, h⟩ := s.ceilingTest_frame; (congrArg State.pins h :)
@[simp] theorem State.ceilingTest_store (s : State) : s.ceilingTest.store = s.store :=
  let ⟨_, _, _, h⟩ := s.ceilingTest_frame; (congrArg State.store h :)
@[simp] theorem State.ceilingTest_storeRead (s : State) : s.ceilingTest.storeRead = s.storeRead :=
  let ⟨_, _, _, h⟩ := s.ceilingTest_frame; (congrArg State.storeRead h :)
@[simp] theorem State.ceilingTest_settings (s : State) : s.ceilingTest.settings = s.settings :=
  let ⟨_, _, _, h⟩ := s.ceilingTest_frame; (congrArg State.settings h :)
@[simp] theorem State.ceilingTest_timer (s : State) : s.ceilingTest.timer = s.timer :=
  let ⟨_, _, _, h⟩ := s.ceilingTest_frame; (congrArg State.timer h :)
@[simp] theorem State.ceilingTest_stand (s : State) : s.ceilingTest.stand = s.stand :=
  let ⟨_, _, _, h⟩ := s.ceilingTest_frame; (congrArg State.stand h :)
@[simp] theorem State.ceilingTest_peers (s : State) : s.ceilingTest.peers = s.peers :=
  let ⟨_, _, _, h⟩ := s.ceilingTest_frame; (congrArg State.peers h :)
@[simp] theorem State.ceilingTest_share (s : State) : s.ceilingTest.share = s.share :=
  let ⟨_, _, _, h⟩ := s.ceilingTest_frame; (congrArg State.share h :)
@[simp] theorem State.ceilingTest_session (s : State) : s.ceilingTest.session = s.session :=
  let ⟨_, _, _, h⟩ := s.ceilingTest_frame; (congrArg State.session h :)
@[simp] theorem State.ceilingTest_last (s : State) : s.ceilingTest.last = s.last :=
  let ⟨_, _, _, h⟩ := s.ceilingTest_frame; (congrArg State.last h :)
@[simp] theorem State.ceilingTest_notices (s : State) : s.ceilingTest.notices = s.notices :=
  let ⟨_, _, _, h⟩ := s.ceilingTest_frame; (congrArg State.notices h :)
@[simp] theorem State.ceilingTest_thermal (s : State) : s.ceilingTest.thermal = s.thermal :=
  let ⟨_, _, _, h⟩ := s.ceilingTest_frame; (congrArg State.thermal h :)
@[simp] theorem State.ceilingTest_line (s : State) : s.ceilingTest.line = s.line :=
  let ⟨_, _, _, h⟩ := s.ceilingTest_frame; (congrArg State.line h :)
@[simp] theorem State.ceilingTest_inspect (s : State) : s.ceilingTest.inspect = s.inspect :=
  let ⟨_, _, _, h⟩ := s.ceilingTest_frame; (congrArg State.inspect h :)
@[simp] theorem State.ceilingTest_choices (s : State) : s.ceilingTest.choices = s.choices :=
  let ⟨_, _, _, h⟩ := s.ceilingTest_frame; (congrArg State.choices h :)
@[simp] theorem State.ceilingTest_freeCount (s : State) : s.ceilingTest.freeCount = s.freeCount :=
  let ⟨_, _, _, h⟩ := s.ceilingTest_frame; (congrArg State.freeCount h :)
@[simp] theorem State.ceilingTest_pending (s : State) : s.ceilingTest.pending = s.pending :=
  let ⟨_, _, _, h⟩ := s.ceilingTest_frame; (congrArg State.pending h :)

/-- All that the operation can change. -/
theorem State.meterSliceEnd_frame (s : State) : ∃ (x0 : MeterCounter) (x1 : StageControl) (x2 : Outputs), s.meterSliceEnd = { s with meter := x0, stage := x1, out := x2 } := by
  obtain ⟨_, _, _, h⟩ := ({ s with meter := { s.meter with roundCount := satAdd Config.top16 s.meter.roundCount s.meter.sliceCount, sliceCount := 0 } } : State).ceilingTest_frame
  exact ⟨_, _, _, h⟩

@[simp] theorem State.meterSliceEnd_pins (s : State) : s.meterSliceEnd.pins = s.pins :=
  let ⟨_, _, _, h⟩ := s.meterSliceEnd_frame; (congrArg State.pins h :)
@[simp] theorem State.meterSliceEnd_store (s : State) : s.meterSliceEnd.store = s.store :=
  let ⟨_, _, _, h⟩ := s.meterSliceEnd_frame; (congrArg State.store h :)
@[simp] theorem State.meterSliceEnd_storeRead (s : State) : s.meterSliceEnd.storeRead = s.storeRead :=
  let ⟨_, _, _, h⟩ := s.meterSliceEnd_frame; (congrArg State.storeRead h :)
@[simp] theorem State.meterSliceEnd_settings (s : State) : s.meterSliceEnd.settings = s.settings :=
  let ⟨_, _, _, h⟩ := s.meterSliceEnd_frame; (congrArg State.settings h :)
@[simp] theorem State.meterSliceEnd_timer (s : State) : s.meterSliceEnd.timer = s.timer :=
  let ⟨_, _, _, h⟩ := s.meterSliceEnd_frame; (congrArg State.timer h :)
@[simp] theorem State.meterSliceEnd_stand (s : State) : s.meterSliceEnd.stand = s.stand :=
  let ⟨_, _, _, h⟩ := s.meterSliceEnd_frame; (congrArg State.stand h :)
@[simp] theorem State.meterSliceEnd_peers (s : State) : s.meterSliceEnd.peers = s.peers :=
  let ⟨_, _, _, h⟩ := s.meterSliceEnd_frame; (congrArg State.peers h :)
@[simp] theorem State.meterSliceEnd_share (s : State) : s.meterSliceEnd.share = s.share :=
  let ⟨_, _, _, h⟩ := s.meterSliceEnd_frame; (congrArg State.share h :)
@[simp] theorem State.meterSliceEnd_session (s : State) : s.meterSliceEnd.session = s.session :=
  let ⟨_, _, _, h⟩ := s.meterSliceEnd_frame; (congrArg State.session h :)
@[simp] theorem State.meterSliceEnd_last (s : State) : s.meterSliceEnd.last = s.last :=
  let ⟨_, _, _, h⟩ := s.meterSliceEnd_frame; (congrArg State.last h :)
@[simp] theorem State.meterSliceEnd_notices (s : State) : s.meterSliceEnd.notices = s.notices :=
  let ⟨_, _, _, h⟩ := s.meterSliceEnd_frame; (congrArg State.notices h :)
@[simp] theorem State.meterSliceEnd_thermal (s : State) : s.meterSliceEnd.thermal = s.thermal :=
  let ⟨_, _, _, h⟩ := s.meterSliceEnd_frame; (congrArg State.thermal h :)
@[simp] theorem State.meterSliceEnd_line (s : State) : s.meterSliceEnd.line = s.line :=
  let ⟨_, _, _, h⟩ := s.meterSliceEnd_frame; (congrArg State.line h :)
@[simp] theorem State.meterSliceEnd_inspect (s : State) : s.meterSliceEnd.inspect = s.inspect :=
  let ⟨_, _, _, h⟩ := s.meterSliceEnd_frame; (congrArg State.inspect h :)
@[simp] theorem State.meterSliceEnd_choices (s : State) : s.meterSliceEnd.choices = s.choices :=
  let ⟨_, _, _, h⟩ := s.meterSliceEnd_frame; (congrArg State.choices h :)
@[simp] theorem State.meterSliceEnd_freeCount (s : State) : s.meterSliceEnd.freeCount = s.freeCount :=
  let ⟨_, _, _, h⟩ := s.meterSliceEnd_frame; (congrArg State.freeCount h :)
@[simp] theorem State.meterSliceEnd_pending (s : State) : s.meterSliceEnd.pending = s.pending :=
  let ⟨_, _, _, h⟩ := s.meterSliceEnd_frame; (congrArg State.pending h :)

/-- All that the operation can change. -/
theorem State.thermalHold_frame (s : State) : ∃ (x0 : Option Session) (x1 : Outputs) (x2 : ShareUnit) (x3 : LineEngine) (x4 : StageControl), s.thermalHold = { s with session := x0, out := x1, share := x2, line := x3, stage := x4 } := by
  unfold State.thermalHold; split <;> (try split) <;> (try split) <;> first | exact s.addHold_frame _ | exact s.removeHold_frame _ | exact ⟨_, _, _, _, _, rfl⟩

@[simp] theorem State.thermalHold_pins (s : State) : s.thermalHold.pins = s.pins :=
  let ⟨_, _, _, _, _, h⟩ := s.thermalHold_frame; (congrArg State.pins h :)
@[simp] theorem State.thermalHold_store (s : State) : s.thermalHold.store = s.store :=
  let ⟨_, _, _, _, _, h⟩ := s.thermalHold_frame; (congrArg State.store h :)
@[simp] theorem State.thermalHold_storeRead (s : State) : s.thermalHold.storeRead = s.storeRead :=
  let ⟨_, _, _, _, _, h⟩ := s.thermalHold_frame; (congrArg State.storeRead h :)
@[simp] theorem State.thermalHold_settings (s : State) : s.thermalHold.settings = s.settings :=
  let ⟨_, _, _, _, _, h⟩ := s.thermalHold_frame; (congrArg State.settings h :)
@[simp] theorem State.thermalHold_timer (s : State) : s.thermalHold.timer = s.timer :=
  let ⟨_, _, _, _, _, h⟩ := s.thermalHold_frame; (congrArg State.timer h :)
@[simp] theorem State.thermalHold_stand (s : State) : s.thermalHold.stand = s.stand :=
  let ⟨_, _, _, _, _, h⟩ := s.thermalHold_frame; (congrArg State.stand h :)
@[simp] theorem State.thermalHold_peers (s : State) : s.thermalHold.peers = s.peers :=
  let ⟨_, _, _, _, _, h⟩ := s.thermalHold_frame; (congrArg State.peers h :)
@[simp] theorem State.thermalHold_last (s : State) : s.thermalHold.last = s.last :=
  let ⟨_, _, _, _, _, h⟩ := s.thermalHold_frame; (congrArg State.last h :)
@[simp] theorem State.thermalHold_notices (s : State) : s.thermalHold.notices = s.notices :=
  let ⟨_, _, _, _, _, h⟩ := s.thermalHold_frame; (congrArg State.notices h :)
@[simp] theorem State.thermalHold_meter (s : State) : s.thermalHold.meter = s.meter :=
  let ⟨_, _, _, _, _, h⟩ := s.thermalHold_frame; (congrArg State.meter h :)
@[simp] theorem State.thermalHold_thermal (s : State) : s.thermalHold.thermal = s.thermal :=
  let ⟨_, _, _, _, _, h⟩ := s.thermalHold_frame; (congrArg State.thermal h :)
@[simp] theorem State.thermalHold_inspect (s : State) : s.thermalHold.inspect = s.inspect :=
  let ⟨_, _, _, _, _, h⟩ := s.thermalHold_frame; (congrArg State.inspect h :)
@[simp] theorem State.thermalHold_choices (s : State) : s.thermalHold.choices = s.choices :=
  let ⟨_, _, _, _, _, h⟩ := s.thermalHold_frame; (congrArg State.choices h :)
@[simp] theorem State.thermalHold_freeCount (s : State) : s.thermalHold.freeCount = s.freeCount :=
  let ⟨_, _, _, _, _, h⟩ := s.thermalHold_frame; (congrArg State.freeCount h :)
@[simp] theorem State.thermalHold_pending (s : State) : s.thermalHold.pending = s.pending :=
  let ⟨_, _, _, _, _, h⟩ := s.thermalHold_frame; (congrArg State.pending h :)

/-- All that the operation can change. -/
theorem State.scan_frame (s : State) : ∃ (x0 : Option Session) (x1 : Outputs) (x2 : ShareUnit) (x3 : LineEngine) (x4 : StageControl) (x5 : ThermalScan), s.scan = { s with session := x0, out := x1, share := x2, line := x3, stage := x4, thermal := x5 } := by
  obtain ⟨_, _, _, h⟩ := ({ s with thermal := s.scanned } : State).refreshMEff_frame
  obtain ⟨_, _, _, _, _, h'⟩ := ({ s with thermal := s.scanned } : State).refreshMEff.thermalHold_frame
  exact ⟨_, _, _, _, _, _, h'.trans (by rw [h])⟩

@[simp] theorem State.scan_pins (s : State) : s.scan.pins = s.pins :=
  let ⟨_, _, _, _, _, _, h⟩ := s.scan_frame; (congrArg State.pins h :)
@[simp] theorem State.scan_store (s : State) : s.scan.store = s.store :=
  let ⟨_, _, _, _, _, _, h⟩ := s.scan_frame; (congrArg State.store h :)
@[simp] theorem State.scan_storeRead (s : State) : s.scan.storeRead = s.storeRead :=
  let ⟨_, _, _, _, _, _, h⟩ := s.scan_frame; (congrArg State.storeRead h :)
@[simp] theorem State.scan_settings (s : State) : s.scan.settings = s.settings :=
  let ⟨_, _, _, _, _, _, h⟩ := s.scan_frame; (congrArg State.settings h :)
@[simp] theorem State.scan_timer (s : State) : s.scan.timer = s.timer :=
  let ⟨_, _, _, _, _, _, h⟩ := s.scan_frame; (congrArg State.timer h :)
@[simp] theorem State.scan_stand (s : State) : s.scan.stand = s.stand :=
  let ⟨_, _, _, _, _, _, h⟩ := s.scan_frame; (congrArg State.stand h :)
@[simp] theorem State.scan_peers (s : State) : s.scan.peers = s.peers :=
  let ⟨_, _, _, _, _, _, h⟩ := s.scan_frame; (congrArg State.peers h :)
@[simp] theorem State.scan_last (s : State) : s.scan.last = s.last :=
  let ⟨_, _, _, _, _, _, h⟩ := s.scan_frame; (congrArg State.last h :)
@[simp] theorem State.scan_notices (s : State) : s.scan.notices = s.notices :=
  let ⟨_, _, _, _, _, _, h⟩ := s.scan_frame; (congrArg State.notices h :)
@[simp] theorem State.scan_meter (s : State) : s.scan.meter = s.meter :=
  let ⟨_, _, _, _, _, _, h⟩ := s.scan_frame; (congrArg State.meter h :)
@[simp] theorem State.scan_inspect (s : State) : s.scan.inspect = s.inspect :=
  let ⟨_, _, _, _, _, _, h⟩ := s.scan_frame; (congrArg State.inspect h :)
@[simp] theorem State.scan_choices (s : State) : s.scan.choices = s.choices :=
  let ⟨_, _, _, _, _, _, h⟩ := s.scan_frame; (congrArg State.choices h :)
@[simp] theorem State.scan_freeCount (s : State) : s.scan.freeCount = s.freeCount :=
  let ⟨_, _, _, _, _, _, h⟩ := s.scan_frame; (congrArg State.freeCount h :)
@[simp] theorem State.scan_pending (s : State) : s.scan.pending = s.pending :=
  let ⟨_, _, _, _, _, _, h⟩ := s.scan_frame; (congrArg State.pending h :)

/-- All that the operation can change. -/
theorem State.permitTest_frame (s : State) : ∃ (x0 : Option Session) (x1 : Outputs) (x2 : ShareUnit) (x3 : LineEngine) (x4 : StageControl), s.permitTest = { s with session := x0, out := x1, share := x2, line := x3, stage := x4 } := by
  unfold State.permitTest; split <;> first | exact s.addHold_frame _ | exact ⟨_, _, _, _, _, rfl⟩

@[simp] theorem State.permitTest_pins (s : State) : s.permitTest.pins = s.pins :=
  let ⟨_, _, _, _, _, h⟩ := s.permitTest_frame; (congrArg State.pins h :)
@[simp] theorem State.permitTest_store (s : State) : s.permitTest.store = s.store :=
  let ⟨_, _, _, _, _, h⟩ := s.permitTest_frame; (congrArg State.store h :)
@[simp] theorem State.permitTest_storeRead (s : State) : s.permitTest.storeRead = s.storeRead :=
  let ⟨_, _, _, _, _, h⟩ := s.permitTest_frame; (congrArg State.storeRead h :)
@[simp] theorem State.permitTest_settings (s : State) : s.permitTest.settings = s.settings :=
  let ⟨_, _, _, _, _, h⟩ := s.permitTest_frame; (congrArg State.settings h :)
@[simp] theorem State.permitTest_timer (s : State) : s.permitTest.timer = s.timer :=
  let ⟨_, _, _, _, _, h⟩ := s.permitTest_frame; (congrArg State.timer h :)
@[simp] theorem State.permitTest_stand (s : State) : s.permitTest.stand = s.stand :=
  let ⟨_, _, _, _, _, h⟩ := s.permitTest_frame; (congrArg State.stand h :)
@[simp] theorem State.permitTest_peers (s : State) : s.permitTest.peers = s.peers :=
  let ⟨_, _, _, _, _, h⟩ := s.permitTest_frame; (congrArg State.peers h :)
@[simp] theorem State.permitTest_last (s : State) : s.permitTest.last = s.last :=
  let ⟨_, _, _, _, _, h⟩ := s.permitTest_frame; (congrArg State.last h :)
@[simp] theorem State.permitTest_notices (s : State) : s.permitTest.notices = s.notices :=
  let ⟨_, _, _, _, _, h⟩ := s.permitTest_frame; (congrArg State.notices h :)
@[simp] theorem State.permitTest_meter (s : State) : s.permitTest.meter = s.meter :=
  let ⟨_, _, _, _, _, h⟩ := s.permitTest_frame; (congrArg State.meter h :)
@[simp] theorem State.permitTest_thermal (s : State) : s.permitTest.thermal = s.thermal :=
  let ⟨_, _, _, _, _, h⟩ := s.permitTest_frame; (congrArg State.thermal h :)
@[simp] theorem State.permitTest_inspect (s : State) : s.permitTest.inspect = s.inspect :=
  let ⟨_, _, _, _, _, h⟩ := s.permitTest_frame; (congrArg State.inspect h :)
@[simp] theorem State.permitTest_choices (s : State) : s.permitTest.choices = s.choices :=
  let ⟨_, _, _, _, _, h⟩ := s.permitTest_frame; (congrArg State.choices h :)
@[simp] theorem State.permitTest_freeCount (s : State) : s.permitTest.freeCount = s.freeCount :=
  let ⟨_, _, _, _, _, h⟩ := s.permitTest_frame; (congrArg State.freeCount h :)
@[simp] theorem State.permitTest_pending (s : State) : s.permitTest.pending = s.pending :=
  let ⟨_, _, _, _, _, h⟩ := s.permitTest_frame; (congrArg State.pending h :)

/-- All that the operation can change. -/
theorem State.postClaim_frame (s : State) : ∃ (x0 : ShareUnit) (x1 : LineEngine), s.postClaim = { s with share := x0, line := x1 } := by
  unfold State.postClaim; split <;> first | exact s.formClaim_frame | exact ⟨_, _, rfl⟩

@[simp] theorem State.postClaim_pins (s : State) : s.postClaim.pins = s.pins :=
  let ⟨_, _, h⟩ := s.postClaim_frame; (congrArg State.pins h :)
@[simp] theorem State.postClaim_store (s : State) : s.postClaim.store = s.store :=
  let ⟨_, _, h⟩ := s.postClaim_frame; (congrArg State.store h :)
@[simp] theorem State.postClaim_storeRead (s : State) : s.postClaim.storeRead = s.storeRead :=
  let ⟨_, _, h⟩ := s.postClaim_frame; (congrArg State.storeRead h :)
@[simp] theorem State.postClaim_settings (s : State) : s.postClaim.settings = s.settings :=
  let ⟨_, _, h⟩ := s.postClaim_frame; (congrArg State.settings h :)
@[simp] theorem State.postClaim_timer (s : State) : s.postClaim.timer = s.timer :=
  let ⟨_, _, h⟩ := s.postClaim_frame; (congrArg State.timer h :)
@[simp] theorem State.postClaim_stand (s : State) : s.postClaim.stand = s.stand :=
  let ⟨_, _, h⟩ := s.postClaim_frame; (congrArg State.stand h :)
@[simp] theorem State.postClaim_peers (s : State) : s.postClaim.peers = s.peers :=
  let ⟨_, _, h⟩ := s.postClaim_frame; (congrArg State.peers h :)
@[simp] theorem State.postClaim_session (s : State) : s.postClaim.session = s.session :=
  let ⟨_, _, h⟩ := s.postClaim_frame; (congrArg State.session h :)
@[simp] theorem State.postClaim_last (s : State) : s.postClaim.last = s.last :=
  let ⟨_, _, h⟩ := s.postClaim_frame; (congrArg State.last h :)
@[simp] theorem State.postClaim_notices (s : State) : s.postClaim.notices = s.notices :=
  let ⟨_, _, h⟩ := s.postClaim_frame; (congrArg State.notices h :)
@[simp] theorem State.postClaim_stage (s : State) : s.postClaim.stage = s.stage :=
  let ⟨_, _, h⟩ := s.postClaim_frame; (congrArg State.stage h :)
@[simp] theorem State.postClaim_meter (s : State) : s.postClaim.meter = s.meter :=
  let ⟨_, _, h⟩ := s.postClaim_frame; (congrArg State.meter h :)
@[simp] theorem State.postClaim_thermal (s : State) : s.postClaim.thermal = s.thermal :=
  let ⟨_, _, h⟩ := s.postClaim_frame; (congrArg State.thermal h :)
@[simp] theorem State.postClaim_inspect (s : State) : s.postClaim.inspect = s.inspect :=
  let ⟨_, _, h⟩ := s.postClaim_frame; (congrArg State.inspect h :)
@[simp] theorem State.postClaim_out (s : State) : s.postClaim.out = s.out :=
  let ⟨_, _, h⟩ := s.postClaim_frame; (congrArg State.out h :)
@[simp] theorem State.postClaim_choices (s : State) : s.postClaim.choices = s.choices :=
  let ⟨_, _, h⟩ := s.postClaim_frame; (congrArg State.choices h :)
@[simp] theorem State.postClaim_freeCount (s : State) : s.postClaim.freeCount = s.freeCount :=
  let ⟨_, _, h⟩ := s.postClaim_frame; (congrArg State.freeCount h :)
@[simp] theorem State.postClaim_pending (s : State) : s.postClaim.pending = s.pending :=
  let ⟨_, _, h⟩ := s.postClaim_frame; (congrArg State.pending h :)

/-- All that the operation can change. -/
theorem State.startUnlessOwed_frame (s : State) : ∃ (x0 : StageControl) (x1 : Outputs), s.startUnlessOwed = { s with stage := x0, out := x1 } := by
  unfold State.startUnlessOwed; split <;> exact ⟨_, _, rfl⟩

@[simp] theorem State.startUnlessOwed_pins (s : State) : s.startUnlessOwed.pins = s.pins :=
  let ⟨_, _, h⟩ := s.startUnlessOwed_frame; (congrArg State.pins h :)
@[simp] theorem State.startUnlessOwed_store (s : State) : s.startUnlessOwed.store = s.store :=
  let ⟨_, _, h⟩ := s.startUnlessOwed_frame; (congrArg State.store h :)
@[simp] theorem State.startUnlessOwed_storeRead (s : State) : s.startUnlessOwed.storeRead = s.storeRead :=
  let ⟨_, _, h⟩ := s.startUnlessOwed_frame; (congrArg State.storeRead h :)
@[simp] theorem State.startUnlessOwed_settings (s : State) : s.startUnlessOwed.settings = s.settings :=
  let ⟨_, _, h⟩ := s.startUnlessOwed_frame; (congrArg State.settings h :)
@[simp] theorem State.startUnlessOwed_timer (s : State) : s.startUnlessOwed.timer = s.timer :=
  let ⟨_, _, h⟩ := s.startUnlessOwed_frame; (congrArg State.timer h :)
@[simp] theorem State.startUnlessOwed_stand (s : State) : s.startUnlessOwed.stand = s.stand :=
  let ⟨_, _, h⟩ := s.startUnlessOwed_frame; (congrArg State.stand h :)
@[simp] theorem State.startUnlessOwed_peers (s : State) : s.startUnlessOwed.peers = s.peers :=
  let ⟨_, _, h⟩ := s.startUnlessOwed_frame; (congrArg State.peers h :)
@[simp] theorem State.startUnlessOwed_share (s : State) : s.startUnlessOwed.share = s.share :=
  let ⟨_, _, h⟩ := s.startUnlessOwed_frame; (congrArg State.share h :)
@[simp] theorem State.startUnlessOwed_session (s : State) : s.startUnlessOwed.session = s.session :=
  let ⟨_, _, h⟩ := s.startUnlessOwed_frame; (congrArg State.session h :)
@[simp] theorem State.startUnlessOwed_last (s : State) : s.startUnlessOwed.last = s.last :=
  let ⟨_, _, h⟩ := s.startUnlessOwed_frame; (congrArg State.last h :)
@[simp] theorem State.startUnlessOwed_notices (s : State) : s.startUnlessOwed.notices = s.notices :=
  let ⟨_, _, h⟩ := s.startUnlessOwed_frame; (congrArg State.notices h :)
@[simp] theorem State.startUnlessOwed_meter (s : State) : s.startUnlessOwed.meter = s.meter :=
  let ⟨_, _, h⟩ := s.startUnlessOwed_frame; (congrArg State.meter h :)
@[simp] theorem State.startUnlessOwed_thermal (s : State) : s.startUnlessOwed.thermal = s.thermal :=
  let ⟨_, _, h⟩ := s.startUnlessOwed_frame; (congrArg State.thermal h :)
@[simp] theorem State.startUnlessOwed_line (s : State) : s.startUnlessOwed.line = s.line :=
  let ⟨_, _, h⟩ := s.startUnlessOwed_frame; (congrArg State.line h :)
@[simp] theorem State.startUnlessOwed_inspect (s : State) : s.startUnlessOwed.inspect = s.inspect :=
  let ⟨_, _, h⟩ := s.startUnlessOwed_frame; (congrArg State.inspect h :)
@[simp] theorem State.startUnlessOwed_choices (s : State) : s.startUnlessOwed.choices = s.choices :=
  let ⟨_, _, h⟩ := s.startUnlessOwed_frame; (congrArg State.choices h :)
@[simp] theorem State.startUnlessOwed_freeCount (s : State) : s.startUnlessOwed.freeCount = s.freeCount :=
  let ⟨_, _, h⟩ := s.startUnlessOwed_frame; (congrArg State.freeCount h :)
@[simp] theorem State.startUnlessOwed_pending (s : State) : s.startUnlessOwed.pending = s.pending :=
  let ⟨_, _, h⟩ := s.startUnlessOwed_frame; (congrArg State.pending h :)

/-- All that the operation can change. -/
theorem State.postUnlessOwed_frame (s : State) : ∃ (x0 : ShareUnit) (x1 : LineEngine), s.postUnlessOwed = { s with share := x0, line := x1 } := by
  unfold State.postUnlessOwed; split
  · exact ⟨_, _, rfl⟩
  · exact s.postClaim_frame

@[simp] theorem State.postUnlessOwed_pins (s : State) : s.postUnlessOwed.pins = s.pins :=
  let ⟨_, _, h⟩ := s.postUnlessOwed_frame; (congrArg State.pins h :)
@[simp] theorem State.postUnlessOwed_store (s : State) : s.postUnlessOwed.store = s.store :=
  let ⟨_, _, h⟩ := s.postUnlessOwed_frame; (congrArg State.store h :)
@[simp] theorem State.postUnlessOwed_storeRead (s : State) : s.postUnlessOwed.storeRead = s.storeRead :=
  let ⟨_, _, h⟩ := s.postUnlessOwed_frame; (congrArg State.storeRead h :)
@[simp] theorem State.postUnlessOwed_settings (s : State) : s.postUnlessOwed.settings = s.settings :=
  let ⟨_, _, h⟩ := s.postUnlessOwed_frame; (congrArg State.settings h :)
@[simp] theorem State.postUnlessOwed_timer (s : State) : s.postUnlessOwed.timer = s.timer :=
  let ⟨_, _, h⟩ := s.postUnlessOwed_frame; (congrArg State.timer h :)
@[simp] theorem State.postUnlessOwed_stand (s : State) : s.postUnlessOwed.stand = s.stand :=
  let ⟨_, _, h⟩ := s.postUnlessOwed_frame; (congrArg State.stand h :)
@[simp] theorem State.postUnlessOwed_peers (s : State) : s.postUnlessOwed.peers = s.peers :=
  let ⟨_, _, h⟩ := s.postUnlessOwed_frame; (congrArg State.peers h :)
@[simp] theorem State.postUnlessOwed_session (s : State) : s.postUnlessOwed.session = s.session :=
  let ⟨_, _, h⟩ := s.postUnlessOwed_frame; (congrArg State.session h :)
@[simp] theorem State.postUnlessOwed_last (s : State) : s.postUnlessOwed.last = s.last :=
  let ⟨_, _, h⟩ := s.postUnlessOwed_frame; (congrArg State.last h :)
@[simp] theorem State.postUnlessOwed_notices (s : State) : s.postUnlessOwed.notices = s.notices :=
  let ⟨_, _, h⟩ := s.postUnlessOwed_frame; (congrArg State.notices h :)
@[simp] theorem State.postUnlessOwed_stage (s : State) : s.postUnlessOwed.stage = s.stage :=
  let ⟨_, _, h⟩ := s.postUnlessOwed_frame; (congrArg State.stage h :)
@[simp] theorem State.postUnlessOwed_meter (s : State) : s.postUnlessOwed.meter = s.meter :=
  let ⟨_, _, h⟩ := s.postUnlessOwed_frame; (congrArg State.meter h :)
@[simp] theorem State.postUnlessOwed_thermal (s : State) : s.postUnlessOwed.thermal = s.thermal :=
  let ⟨_, _, h⟩ := s.postUnlessOwed_frame; (congrArg State.thermal h :)
@[simp] theorem State.postUnlessOwed_inspect (s : State) : s.postUnlessOwed.inspect = s.inspect :=
  let ⟨_, _, h⟩ := s.postUnlessOwed_frame; (congrArg State.inspect h :)
@[simp] theorem State.postUnlessOwed_out (s : State) : s.postUnlessOwed.out = s.out :=
  let ⟨_, _, h⟩ := s.postUnlessOwed_frame; (congrArg State.out h :)
@[simp] theorem State.postUnlessOwed_choices (s : State) : s.postUnlessOwed.choices = s.choices :=
  let ⟨_, _, h⟩ := s.postUnlessOwed_frame; (congrArg State.choices h :)
@[simp] theorem State.postUnlessOwed_freeCount (s : State) : s.postUnlessOwed.freeCount = s.freeCount :=
  let ⟨_, _, h⟩ := s.postUnlessOwed_frame; (congrArg State.freeCount h :)
@[simp] theorem State.postUnlessOwed_pending (s : State) : s.postUnlessOwed.pending = s.pending :=
  let ⟨_, _, h⟩ := s.postUnlessOwed_frame; (congrArg State.pending h :)

/-- All that the operation can change. -/
theorem State.takeStarts_frame (s : State) : ∃ (x0 : StageControl) (x1 : Outputs) (x2 : ShareUnit) (x3 : LineEngine), s.takeStarts = { s with stage := x0, out := x1, share := x2, line := x3 } := by
  obtain ⟨_, _, h⟩ := (s.oweStarts false false).startSlice.postClaim_frame
  obtain ⟨_, _, h'⟩ := (s.oweStarts false false).postClaim_frame
  simp only [State.takeStarts]; split <;> (try split) <;> (try split) <;> first | exact ⟨_, _, _, _, h⟩ | exact ⟨_, _, _, _, h'⟩ | exact ⟨_, _, _, _, rfl⟩

@[simp] theorem State.takeStarts_pins (s : State) : s.takeStarts.pins = s.pins :=
  let ⟨_, _, _, _, h⟩ := s.takeStarts_frame; (congrArg State.pins h :)
@[simp] theorem State.takeStarts_store (s : State) : s.takeStarts.store = s.store :=
  let ⟨_, _, _, _, h⟩ := s.takeStarts_frame; (congrArg State.store h :)
@[simp] theorem State.takeStarts_storeRead (s : State) : s.takeStarts.storeRead = s.storeRead :=
  let ⟨_, _, _, _, h⟩ := s.takeStarts_frame; (congrArg State.storeRead h :)
@[simp] theorem State.takeStarts_settings (s : State) : s.takeStarts.settings = s.settings :=
  let ⟨_, _, _, _, h⟩ := s.takeStarts_frame; (congrArg State.settings h :)
@[simp] theorem State.takeStarts_timer (s : State) : s.takeStarts.timer = s.timer :=
  let ⟨_, _, _, _, h⟩ := s.takeStarts_frame; (congrArg State.timer h :)
@[simp] theorem State.takeStarts_stand (s : State) : s.takeStarts.stand = s.stand :=
  let ⟨_, _, _, _, h⟩ := s.takeStarts_frame; (congrArg State.stand h :)
@[simp] theorem State.takeStarts_peers (s : State) : s.takeStarts.peers = s.peers :=
  let ⟨_, _, _, _, h⟩ := s.takeStarts_frame; (congrArg State.peers h :)
@[simp] theorem State.takeStarts_session (s : State) : s.takeStarts.session = s.session :=
  let ⟨_, _, _, _, h⟩ := s.takeStarts_frame; (congrArg State.session h :)
@[simp] theorem State.takeStarts_last (s : State) : s.takeStarts.last = s.last :=
  let ⟨_, _, _, _, h⟩ := s.takeStarts_frame; (congrArg State.last h :)
@[simp] theorem State.takeStarts_notices (s : State) : s.takeStarts.notices = s.notices :=
  let ⟨_, _, _, _, h⟩ := s.takeStarts_frame; (congrArg State.notices h :)
@[simp] theorem State.takeStarts_meter (s : State) : s.takeStarts.meter = s.meter :=
  let ⟨_, _, _, _, h⟩ := s.takeStarts_frame; (congrArg State.meter h :)
@[simp] theorem State.takeStarts_thermal (s : State) : s.takeStarts.thermal = s.thermal :=
  let ⟨_, _, _, _, h⟩ := s.takeStarts_frame; (congrArg State.thermal h :)
@[simp] theorem State.takeStarts_inspect (s : State) : s.takeStarts.inspect = s.inspect :=
  let ⟨_, _, _, _, h⟩ := s.takeStarts_frame; (congrArg State.inspect h :)
@[simp] theorem State.takeStarts_choices (s : State) : s.takeStarts.choices = s.choices :=
  let ⟨_, _, _, _, h⟩ := s.takeStarts_frame; (congrArg State.choices h :)
@[simp] theorem State.takeStarts_freeCount (s : State) : s.takeStarts.freeCount = s.freeCount :=
  let ⟨_, _, _, _, h⟩ := s.takeStarts_frame; (congrArg State.freeCount h :)
@[simp] theorem State.takeStarts_pending (s : State) : s.takeStarts.pending = s.pending :=
  let ⟨_, _, _, _, h⟩ := s.takeStarts_frame; (congrArg State.pending h :)

/-- All that the operation can change. -/
theorem State.discardMark_frame (s : State) : ∃ (x0 : LineEngine), s.discardMark = { s with line := x0 } := by
  unfold State.discardMark; split
  · obtain ⟨_, h⟩ := s.removeWaitingMark_frame; obtain ⟨_, h'⟩ := s.removeWaitingMark.forbidRetry_frame .mark
    exact ⟨_, h'.trans (by rw [h])⟩
  · exact ⟨_, rfl⟩

@[simp] theorem State.discardMark_pins (s : State) : s.discardMark.pins = s.pins :=
  let ⟨_, h⟩ := s.discardMark_frame; (congrArg State.pins h :)
@[simp] theorem State.discardMark_store (s : State) : s.discardMark.store = s.store :=
  let ⟨_, h⟩ := s.discardMark_frame; (congrArg State.store h :)
@[simp] theorem State.discardMark_storeRead (s : State) : s.discardMark.storeRead = s.storeRead :=
  let ⟨_, h⟩ := s.discardMark_frame; (congrArg State.storeRead h :)
@[simp] theorem State.discardMark_settings (s : State) : s.discardMark.settings = s.settings :=
  let ⟨_, h⟩ := s.discardMark_frame; (congrArg State.settings h :)
@[simp] theorem State.discardMark_timer (s : State) : s.discardMark.timer = s.timer :=
  let ⟨_, h⟩ := s.discardMark_frame; (congrArg State.timer h :)
@[simp] theorem State.discardMark_stand (s : State) : s.discardMark.stand = s.stand :=
  let ⟨_, h⟩ := s.discardMark_frame; (congrArg State.stand h :)
@[simp] theorem State.discardMark_peers (s : State) : s.discardMark.peers = s.peers :=
  let ⟨_, h⟩ := s.discardMark_frame; (congrArg State.peers h :)
@[simp] theorem State.discardMark_share (s : State) : s.discardMark.share = s.share :=
  let ⟨_, h⟩ := s.discardMark_frame; (congrArg State.share h :)
@[simp] theorem State.discardMark_session (s : State) : s.discardMark.session = s.session :=
  let ⟨_, h⟩ := s.discardMark_frame; (congrArg State.session h :)
@[simp] theorem State.discardMark_last (s : State) : s.discardMark.last = s.last :=
  let ⟨_, h⟩ := s.discardMark_frame; (congrArg State.last h :)
@[simp] theorem State.discardMark_notices (s : State) : s.discardMark.notices = s.notices :=
  let ⟨_, h⟩ := s.discardMark_frame; (congrArg State.notices h :)
@[simp] theorem State.discardMark_stage (s : State) : s.discardMark.stage = s.stage :=
  let ⟨_, h⟩ := s.discardMark_frame; (congrArg State.stage h :)
@[simp] theorem State.discardMark_meter (s : State) : s.discardMark.meter = s.meter :=
  let ⟨_, h⟩ := s.discardMark_frame; (congrArg State.meter h :)
@[simp] theorem State.discardMark_thermal (s : State) : s.discardMark.thermal = s.thermal :=
  let ⟨_, h⟩ := s.discardMark_frame; (congrArg State.thermal h :)
@[simp] theorem State.discardMark_inspect (s : State) : s.discardMark.inspect = s.inspect :=
  let ⟨_, h⟩ := s.discardMark_frame; (congrArg State.inspect h :)
@[simp] theorem State.discardMark_out (s : State) : s.discardMark.out = s.out :=
  let ⟨_, h⟩ := s.discardMark_frame; (congrArg State.out h :)
@[simp] theorem State.discardMark_choices (s : State) : s.discardMark.choices = s.choices :=
  let ⟨_, h⟩ := s.discardMark_frame; (congrArg State.choices h :)
@[simp] theorem State.discardMark_freeCount (s : State) : s.discardMark.freeCount = s.freeCount :=
  let ⟨_, h⟩ := s.discardMark_frame; (congrArg State.freeCount h :)
@[simp] theorem State.discardMark_pending (s : State) : s.discardMark.pending = s.pending :=
  let ⟨_, h⟩ := s.discardMark_frame; (congrArg State.pending h :)

/-- All that the operation can change. -/
theorem State.discardClaim_frame (s : State) : ∃ (x0 : LineEngine) (x1 : StandingUnit), s.discardClaim = { s with line := x0, stand := x1 } := by
  obtain ⟨_, h⟩ := s.forbidRetry_frame .claim
  simp only [State.discardClaim]; split
  · obtain ⟨_, h'⟩ := (s.forbidRetry .claim).removeFrame_frame .claim
    rw [h', h]; exact ⟨_, _, rfl⟩
  · exact ⟨_, _, h⟩

@[simp] theorem State.discardClaim_pins (s : State) : s.discardClaim.pins = s.pins :=
  let ⟨_, _, h⟩ := s.discardClaim_frame; (congrArg State.pins h :)
@[simp] theorem State.discardClaim_store (s : State) : s.discardClaim.store = s.store :=
  let ⟨_, _, h⟩ := s.discardClaim_frame; (congrArg State.store h :)
@[simp] theorem State.discardClaim_storeRead (s : State) : s.discardClaim.storeRead = s.storeRead :=
  let ⟨_, _, h⟩ := s.discardClaim_frame; (congrArg State.storeRead h :)
@[simp] theorem State.discardClaim_settings (s : State) : s.discardClaim.settings = s.settings :=
  let ⟨_, _, h⟩ := s.discardClaim_frame; (congrArg State.settings h :)
@[simp] theorem State.discardClaim_timer (s : State) : s.discardClaim.timer = s.timer :=
  let ⟨_, _, h⟩ := s.discardClaim_frame; (congrArg State.timer h :)
@[simp] theorem State.discardClaim_peers (s : State) : s.discardClaim.peers = s.peers :=
  let ⟨_, _, h⟩ := s.discardClaim_frame; (congrArg State.peers h :)
@[simp] theorem State.discardClaim_share (s : State) : s.discardClaim.share = s.share :=
  let ⟨_, _, h⟩ := s.discardClaim_frame; (congrArg State.share h :)
@[simp] theorem State.discardClaim_session (s : State) : s.discardClaim.session = s.session :=
  let ⟨_, _, h⟩ := s.discardClaim_frame; (congrArg State.session h :)
@[simp] theorem State.discardClaim_last (s : State) : s.discardClaim.last = s.last :=
  let ⟨_, _, h⟩ := s.discardClaim_frame; (congrArg State.last h :)
@[simp] theorem State.discardClaim_notices (s : State) : s.discardClaim.notices = s.notices :=
  let ⟨_, _, h⟩ := s.discardClaim_frame; (congrArg State.notices h :)
@[simp] theorem State.discardClaim_stage (s : State) : s.discardClaim.stage = s.stage :=
  let ⟨_, _, h⟩ := s.discardClaim_frame; (congrArg State.stage h :)
@[simp] theorem State.discardClaim_meter (s : State) : s.discardClaim.meter = s.meter :=
  let ⟨_, _, h⟩ := s.discardClaim_frame; (congrArg State.meter h :)
@[simp] theorem State.discardClaim_thermal (s : State) : s.discardClaim.thermal = s.thermal :=
  let ⟨_, _, h⟩ := s.discardClaim_frame; (congrArg State.thermal h :)
@[simp] theorem State.discardClaim_inspect (s : State) : s.discardClaim.inspect = s.inspect :=
  let ⟨_, _, h⟩ := s.discardClaim_frame; (congrArg State.inspect h :)
@[simp] theorem State.discardClaim_out (s : State) : s.discardClaim.out = s.out :=
  let ⟨_, _, h⟩ := s.discardClaim_frame; (congrArg State.out h :)
@[simp] theorem State.discardClaim_choices (s : State) : s.discardClaim.choices = s.choices :=
  let ⟨_, _, h⟩ := s.discardClaim_frame; (congrArg State.choices h :)
@[simp] theorem State.discardClaim_freeCount (s : State) : s.discardClaim.freeCount = s.freeCount :=
  let ⟨_, _, h⟩ := s.discardClaim_frame; (congrArg State.freeCount h :)
@[simp] theorem State.discardClaim_pending (s : State) : s.discardClaim.pending = s.pending :=
  let ⟨_, _, h⟩ := s.discardClaim_frame; (congrArg State.pending h :)

/-- All that the operation can change. -/
theorem State.expireNotices_frame (s : State) : ∃ (x0 : NoticeUnit), s.expireNotices = { s with notices := x0 } := by
  unfold State.expireNotices; split <;> exact ⟨_, rfl⟩

@[simp] theorem State.expireNotices_pins (s : State) : s.expireNotices.pins = s.pins :=
  let ⟨_, h⟩ := s.expireNotices_frame; (congrArg State.pins h :)
@[simp] theorem State.expireNotices_store (s : State) : s.expireNotices.store = s.store :=
  let ⟨_, h⟩ := s.expireNotices_frame; (congrArg State.store h :)
@[simp] theorem State.expireNotices_storeRead (s : State) : s.expireNotices.storeRead = s.storeRead :=
  let ⟨_, h⟩ := s.expireNotices_frame; (congrArg State.storeRead h :)
@[simp] theorem State.expireNotices_settings (s : State) : s.expireNotices.settings = s.settings :=
  let ⟨_, h⟩ := s.expireNotices_frame; (congrArg State.settings h :)
@[simp] theorem State.expireNotices_timer (s : State) : s.expireNotices.timer = s.timer :=
  let ⟨_, h⟩ := s.expireNotices_frame; (congrArg State.timer h :)
@[simp] theorem State.expireNotices_stand (s : State) : s.expireNotices.stand = s.stand :=
  let ⟨_, h⟩ := s.expireNotices_frame; (congrArg State.stand h :)
@[simp] theorem State.expireNotices_peers (s : State) : s.expireNotices.peers = s.peers :=
  let ⟨_, h⟩ := s.expireNotices_frame; (congrArg State.peers h :)
@[simp] theorem State.expireNotices_share (s : State) : s.expireNotices.share = s.share :=
  let ⟨_, h⟩ := s.expireNotices_frame; (congrArg State.share h :)
@[simp] theorem State.expireNotices_session (s : State) : s.expireNotices.session = s.session :=
  let ⟨_, h⟩ := s.expireNotices_frame; (congrArg State.session h :)
@[simp] theorem State.expireNotices_last (s : State) : s.expireNotices.last = s.last :=
  let ⟨_, h⟩ := s.expireNotices_frame; (congrArg State.last h :)
@[simp] theorem State.expireNotices_stage (s : State) : s.expireNotices.stage = s.stage :=
  let ⟨_, h⟩ := s.expireNotices_frame; (congrArg State.stage h :)
@[simp] theorem State.expireNotices_meter (s : State) : s.expireNotices.meter = s.meter :=
  let ⟨_, h⟩ := s.expireNotices_frame; (congrArg State.meter h :)
@[simp] theorem State.expireNotices_thermal (s : State) : s.expireNotices.thermal = s.thermal :=
  let ⟨_, h⟩ := s.expireNotices_frame; (congrArg State.thermal h :)
@[simp] theorem State.expireNotices_line (s : State) : s.expireNotices.line = s.line :=
  let ⟨_, h⟩ := s.expireNotices_frame; (congrArg State.line h :)
@[simp] theorem State.expireNotices_inspect (s : State) : s.expireNotices.inspect = s.inspect :=
  let ⟨_, h⟩ := s.expireNotices_frame; (congrArg State.inspect h :)
@[simp] theorem State.expireNotices_out (s : State) : s.expireNotices.out = s.out :=
  let ⟨_, h⟩ := s.expireNotices_frame; (congrArg State.out h :)
@[simp] theorem State.expireNotices_choices (s : State) : s.expireNotices.choices = s.choices :=
  let ⟨_, h⟩ := s.expireNotices_frame; (congrArg State.choices h :)
@[simp] theorem State.expireNotices_freeCount (s : State) : s.expireNotices.freeCount = s.freeCount :=
  let ⟨_, h⟩ := s.expireNotices_frame; (congrArg State.freeCount h :)
@[simp] theorem State.expireNotices_pending (s : State) : s.expireNotices.pending = s.pending :=
  let ⟨_, h⟩ := s.expireNotices_frame; (congrArg State.pending h :)

/-- All that the operation can change. -/
theorem State.sessionRoundEnd_frame (c : Nat) (p q : Bool) (s : State) : ∃ (x0 : Option Session) (x1 : Outputs) (x2 : ShareUnit) (x3 : LineEngine), (s.sessionRoundEnd c p q) = { s with session := x0, out := x1, share := x2, line := x3 } := by
  unfold State.sessionRoundEnd; split <;> first | exact State.putSession_frame _ s | exact ⟨_, _, _, _, rfl⟩

@[simp] theorem State.sessionRoundEnd_pins (c : Nat) (p q : Bool) (s : State) : (s.sessionRoundEnd c p q).pins = s.pins :=
  let ⟨_, _, _, _, h⟩ := s.sessionRoundEnd_frame c p q; (congrArg State.pins h :)
@[simp] theorem State.sessionRoundEnd_store (c : Nat) (p q : Bool) (s : State) : (s.sessionRoundEnd c p q).store = s.store :=
  let ⟨_, _, _, _, h⟩ := s.sessionRoundEnd_frame c p q; (congrArg State.store h :)
@[simp] theorem State.sessionRoundEnd_storeRead (c : Nat) (p q : Bool) (s : State) : (s.sessionRoundEnd c p q).storeRead = s.storeRead :=
  let ⟨_, _, _, _, h⟩ := s.sessionRoundEnd_frame c p q; (congrArg State.storeRead h :)
@[simp] theorem State.sessionRoundEnd_settings (c : Nat) (p q : Bool) (s : State) : (s.sessionRoundEnd c p q).settings = s.settings :=
  let ⟨_, _, _, _, h⟩ := s.sessionRoundEnd_frame c p q; (congrArg State.settings h :)
@[simp] theorem State.sessionRoundEnd_timer (c : Nat) (p q : Bool) (s : State) : (s.sessionRoundEnd c p q).timer = s.timer :=
  let ⟨_, _, _, _, h⟩ := s.sessionRoundEnd_frame c p q; (congrArg State.timer h :)
@[simp] theorem State.sessionRoundEnd_stand (c : Nat) (p q : Bool) (s : State) : (s.sessionRoundEnd c p q).stand = s.stand :=
  let ⟨_, _, _, _, h⟩ := s.sessionRoundEnd_frame c p q; (congrArg State.stand h :)
@[simp] theorem State.sessionRoundEnd_peers (c : Nat) (p q : Bool) (s : State) : (s.sessionRoundEnd c p q).peers = s.peers :=
  let ⟨_, _, _, _, h⟩ := s.sessionRoundEnd_frame c p q; (congrArg State.peers h :)
@[simp] theorem State.sessionRoundEnd_last (c : Nat) (p q : Bool) (s : State) : (s.sessionRoundEnd c p q).last = s.last :=
  let ⟨_, _, _, _, h⟩ := s.sessionRoundEnd_frame c p q; (congrArg State.last h :)
@[simp] theorem State.sessionRoundEnd_notices (c : Nat) (p q : Bool) (s : State) : (s.sessionRoundEnd c p q).notices = s.notices :=
  let ⟨_, _, _, _, h⟩ := s.sessionRoundEnd_frame c p q; (congrArg State.notices h :)
@[simp] theorem State.sessionRoundEnd_stage (c : Nat) (p q : Bool) (s : State) : (s.sessionRoundEnd c p q).stage = s.stage :=
  let ⟨_, _, _, _, h⟩ := s.sessionRoundEnd_frame c p q; (congrArg State.stage h :)
@[simp] theorem State.sessionRoundEnd_meter (c : Nat) (p q : Bool) (s : State) : (s.sessionRoundEnd c p q).meter = s.meter :=
  let ⟨_, _, _, _, h⟩ := s.sessionRoundEnd_frame c p q; (congrArg State.meter h :)
@[simp] theorem State.sessionRoundEnd_thermal (c : Nat) (p q : Bool) (s : State) : (s.sessionRoundEnd c p q).thermal = s.thermal :=
  let ⟨_, _, _, _, h⟩ := s.sessionRoundEnd_frame c p q; (congrArg State.thermal h :)
@[simp] theorem State.sessionRoundEnd_inspect (c : Nat) (p q : Bool) (s : State) : (s.sessionRoundEnd c p q).inspect = s.inspect :=
  let ⟨_, _, _, _, h⟩ := s.sessionRoundEnd_frame c p q; (congrArg State.inspect h :)
@[simp] theorem State.sessionRoundEnd_choices (c : Nat) (p q : Bool) (s : State) : (s.sessionRoundEnd c p q).choices = s.choices :=
  let ⟨_, _, _, _, h⟩ := s.sessionRoundEnd_frame c p q; (congrArg State.choices h :)
@[simp] theorem State.sessionRoundEnd_freeCount (c : Nat) (p q : Bool) (s : State) : (s.sessionRoundEnd c p q).freeCount = s.freeCount :=
  let ⟨_, _, _, _, h⟩ := s.sessionRoundEnd_frame c p q; (congrArg State.freeCount h :)
@[simp] theorem State.sessionRoundEnd_pending (c : Nat) (p q : Bool) (s : State) : (s.sessionRoundEnd c p q).pending = s.pending :=
  let ⟨_, _, _, _, h⟩ := s.sessionRoundEnd_frame c p q; (congrArg State.pending h :)

/-- All that the operation can change. -/
theorem State.placeMark_frame (s : State) : ∃ (x0 : LineEngine), s.placeMark = { s with line := x0 } := by
  unfold State.placeMark; split <;> first | exact s.placeFrame_frame .mark [] | exact ⟨_, rfl⟩

@[simp] theorem State.placeMark_pins (s : State) : s.placeMark.pins = s.pins :=
  let ⟨_, h⟩ := s.placeMark_frame; (congrArg State.pins h :)
@[simp] theorem State.placeMark_store (s : State) : s.placeMark.store = s.store :=
  let ⟨_, h⟩ := s.placeMark_frame; (congrArg State.store h :)
@[simp] theorem State.placeMark_storeRead (s : State) : s.placeMark.storeRead = s.storeRead :=
  let ⟨_, h⟩ := s.placeMark_frame; (congrArg State.storeRead h :)
@[simp] theorem State.placeMark_settings (s : State) : s.placeMark.settings = s.settings :=
  let ⟨_, h⟩ := s.placeMark_frame; (congrArg State.settings h :)
@[simp] theorem State.placeMark_timer (s : State) : s.placeMark.timer = s.timer :=
  let ⟨_, h⟩ := s.placeMark_frame; (congrArg State.timer h :)
@[simp] theorem State.placeMark_stand (s : State) : s.placeMark.stand = s.stand :=
  let ⟨_, h⟩ := s.placeMark_frame; (congrArg State.stand h :)
@[simp] theorem State.placeMark_peers (s : State) : s.placeMark.peers = s.peers :=
  let ⟨_, h⟩ := s.placeMark_frame; (congrArg State.peers h :)
@[simp] theorem State.placeMark_share (s : State) : s.placeMark.share = s.share :=
  let ⟨_, h⟩ := s.placeMark_frame; (congrArg State.share h :)
@[simp] theorem State.placeMark_session (s : State) : s.placeMark.session = s.session :=
  let ⟨_, h⟩ := s.placeMark_frame; (congrArg State.session h :)
@[simp] theorem State.placeMark_last (s : State) : s.placeMark.last = s.last :=
  let ⟨_, h⟩ := s.placeMark_frame; (congrArg State.last h :)
@[simp] theorem State.placeMark_notices (s : State) : s.placeMark.notices = s.notices :=
  let ⟨_, h⟩ := s.placeMark_frame; (congrArg State.notices h :)
@[simp] theorem State.placeMark_stage (s : State) : s.placeMark.stage = s.stage :=
  let ⟨_, h⟩ := s.placeMark_frame; (congrArg State.stage h :)
@[simp] theorem State.placeMark_meter (s : State) : s.placeMark.meter = s.meter :=
  let ⟨_, h⟩ := s.placeMark_frame; (congrArg State.meter h :)
@[simp] theorem State.placeMark_thermal (s : State) : s.placeMark.thermal = s.thermal :=
  let ⟨_, h⟩ := s.placeMark_frame; (congrArg State.thermal h :)
@[simp] theorem State.placeMark_inspect (s : State) : s.placeMark.inspect = s.inspect :=
  let ⟨_, h⟩ := s.placeMark_frame; (congrArg State.inspect h :)
@[simp] theorem State.placeMark_out (s : State) : s.placeMark.out = s.out :=
  let ⟨_, h⟩ := s.placeMark_frame; (congrArg State.out h :)
@[simp] theorem State.placeMark_choices (s : State) : s.placeMark.choices = s.choices :=
  let ⟨_, h⟩ := s.placeMark_frame; (congrArg State.choices h :)
@[simp] theorem State.placeMark_freeCount (s : State) : s.placeMark.freeCount = s.freeCount :=
  let ⟨_, h⟩ := s.placeMark_frame; (congrArg State.freeCount h :)
@[simp] theorem State.placeMark_pending (s : State) : s.placeMark.pending = s.pending :=
  let ⟨_, h⟩ := s.placeMark_frame; (congrArg State.pending h :)

/-- All that the operation can change. -/
theorem State.reformIfChanged_frame (b : Standing) (s : State) : ∃ (x0 : ShareUnit) (x1 : LineEngine), (s.reformIfChanged b) = { s with share := x0, line := x1 } := by
  unfold State.reformIfChanged; split <;> first | exact s.formClaim_frame | exact ⟨_, _, rfl⟩

@[simp] theorem State.reformIfChanged_pins (b : Standing) (s : State) : (s.reformIfChanged b).pins = s.pins :=
  let ⟨_, _, h⟩ := s.reformIfChanged_frame b; (congrArg State.pins h :)
@[simp] theorem State.reformIfChanged_store (b : Standing) (s : State) : (s.reformIfChanged b).store = s.store :=
  let ⟨_, _, h⟩ := s.reformIfChanged_frame b; (congrArg State.store h :)
@[simp] theorem State.reformIfChanged_storeRead (b : Standing) (s : State) : (s.reformIfChanged b).storeRead = s.storeRead :=
  let ⟨_, _, h⟩ := s.reformIfChanged_frame b; (congrArg State.storeRead h :)
@[simp] theorem State.reformIfChanged_settings (b : Standing) (s : State) : (s.reformIfChanged b).settings = s.settings :=
  let ⟨_, _, h⟩ := s.reformIfChanged_frame b; (congrArg State.settings h :)
@[simp] theorem State.reformIfChanged_timer (b : Standing) (s : State) : (s.reformIfChanged b).timer = s.timer :=
  let ⟨_, _, h⟩ := s.reformIfChanged_frame b; (congrArg State.timer h :)
@[simp] theorem State.reformIfChanged_stand (b : Standing) (s : State) : (s.reformIfChanged b).stand = s.stand :=
  let ⟨_, _, h⟩ := s.reformIfChanged_frame b; (congrArg State.stand h :)
@[simp] theorem State.reformIfChanged_peers (b : Standing) (s : State) : (s.reformIfChanged b).peers = s.peers :=
  let ⟨_, _, h⟩ := s.reformIfChanged_frame b; (congrArg State.peers h :)
@[simp] theorem State.reformIfChanged_session (b : Standing) (s : State) : (s.reformIfChanged b).session = s.session :=
  let ⟨_, _, h⟩ := s.reformIfChanged_frame b; (congrArg State.session h :)
@[simp] theorem State.reformIfChanged_last (b : Standing) (s : State) : (s.reformIfChanged b).last = s.last :=
  let ⟨_, _, h⟩ := s.reformIfChanged_frame b; (congrArg State.last h :)
@[simp] theorem State.reformIfChanged_notices (b : Standing) (s : State) : (s.reformIfChanged b).notices = s.notices :=
  let ⟨_, _, h⟩ := s.reformIfChanged_frame b; (congrArg State.notices h :)
@[simp] theorem State.reformIfChanged_stage (b : Standing) (s : State) : (s.reformIfChanged b).stage = s.stage :=
  let ⟨_, _, h⟩ := s.reformIfChanged_frame b; (congrArg State.stage h :)
@[simp] theorem State.reformIfChanged_meter (b : Standing) (s : State) : (s.reformIfChanged b).meter = s.meter :=
  let ⟨_, _, h⟩ := s.reformIfChanged_frame b; (congrArg State.meter h :)
@[simp] theorem State.reformIfChanged_thermal (b : Standing) (s : State) : (s.reformIfChanged b).thermal = s.thermal :=
  let ⟨_, _, h⟩ := s.reformIfChanged_frame b; (congrArg State.thermal h :)
@[simp] theorem State.reformIfChanged_inspect (b : Standing) (s : State) : (s.reformIfChanged b).inspect = s.inspect :=
  let ⟨_, _, h⟩ := s.reformIfChanged_frame b; (congrArg State.inspect h :)
@[simp] theorem State.reformIfChanged_out (b : Standing) (s : State) : (s.reformIfChanged b).out = s.out :=
  let ⟨_, _, h⟩ := s.reformIfChanged_frame b; (congrArg State.out h :)
@[simp] theorem State.reformIfChanged_choices (b : Standing) (s : State) : (s.reformIfChanged b).choices = s.choices :=
  let ⟨_, _, h⟩ := s.reformIfChanged_frame b; (congrArg State.choices h :)
@[simp] theorem State.reformIfChanged_freeCount (b : Standing) (s : State) : (s.reformIfChanged b).freeCount = s.freeCount :=
  let ⟨_, _, h⟩ := s.reformIfChanged_frame b; (congrArg State.freeCount h :)
@[simp] theorem State.reformIfChanged_pending (b : Standing) (s : State) : (s.reformIfChanged b).pending = s.pending :=
  let ⟨_, _, h⟩ := s.reformIfChanged_frame b; (congrArg State.pending h :)

end Sys2Proof.Machine
end

