-- ==== Sys2Proof/Laws/Order.lean ====
section
/-! SUPPORT. An event's parts in an order left open: each order is a rearrangement, and what every part keeps the
event keeps. -/

namespace Sys2Proof.Machine

theorem insertAt_perm {α : Type} (x : α) : ∀ (n : Nat) (l : List α), (insertAt x n l).Perm (x :: l)
  | 0, _ => .refl _
  | _ + 1, [] => .refl _
  | n + 1, y :: l => ((insertAt_perm x n l).cons y).trans (.swap x y l)

theorem arrange_perm {α : Type} : ∀ (c : Nat) (l : List α), (arrange c l).Perm l
  | _, [] => .refl _
  | _, x :: _ => (insertAt_perm x _ _).trans ((arrange_perm _ _).cons x)

@[simp] theorem mem_arrange {α : Type} (c : Nat) (l : List α) (x : α) : x ∈ arrange c l ↔ x ∈ l :=
  (arrange_perm c l).mem_iff

/-- Every place of the list is reached by some number. -/
theorem insertAt_append {α : Type} (x : α) : ∀ (a b : List α), insertAt x a.length (a ++ b) = a ++ x :: b
  | [], _ => rfl
  | y :: a, b => congrArg (y :: ·) (insertAt_append x a b)

/-- Every order of the list is the one some number stands for. -/
theorem arrange_all {α : Type} : ∀ (l m : List α), m.Perm l → ∃ c, arrange c l = m
  | [], m, h => ⟨0, by simp [arrange, h.eq_nil]⟩
  | x :: l, m, h => by
    obtain ⟨a, b, rfl⟩ := List.append_of_mem (h.mem_iff.2 List.mem_cons_self)
    have hp : (a ++ b).Perm l := (List.perm_middle.symm.trans h).cons_inv
    obtain ⟨c, hc⟩ := arrange_all l (a ++ b) hp
    have hl : a.length < l.length + 1 := by have := hp.length_eq; simp at this; omega
    refine ⟨c * (l.length + 1) + a.length, ?_⟩
    simp only [arrange]
    rw [Nat.mul_add_mod_self_right, Nat.mod_eq_of_lt hl, Nat.mul_comm, Nat.mul_add_div (by omega),
      Nat.div_eq_of_lt hl, Nat.add_zero, hc, insertAt_append]

theorem insertAt_map {α β : Type} (g : α → β) (x : α) : ∀ (n : Nat) (l : List α),
    insertAt (g x) n (l.map g) = (insertAt x n l).map g
  | 0, _ => rfl
  | _ + 1, [] => rfl
  | n + 1, y :: l => congrArg (g y :: ·) (insertAt_map g x n l)

/-- An order of parts of one shape is an order of what they are about. -/
theorem arrange_map {α β : Type} (g : α → β) : ∀ (c : Nat) (l : List α), arrange c (l.map g) = (arrange c l).map g
  | _, [] => rfl
  | c, x :: l => by simp [arrange, arrange_map g _ l, insertAt_map]

/-- A choice moves on the free choices alone. -/
theorem choose_eq (s : State) :
    s.choose.2 = { s with choices := s.choose.2.choices, freeCount := s.choose.2.freeCount } := by
  unfold State.choose; split <;> rfl

theorem runAll_keeps {P : State → Prop} : ∀ (l : List (State → State)),
    (∀ f ∈ l, ∀ s, P s → P (f s)) → ∀ s, P s → P (runAll l s)
  | [], _, _, h => h
  | f :: l, hl, s, h =>
    runAll_keeps l (fun g hg => hl g (List.mem_cons_of_mem _ hg)) (f s) (hl f List.mem_cons_self s h)

theorem runIn_keeps {P : State → Prop} (c : Nat) (l : List (State → State)) (hl : ∀ f ∈ l, ∀ s, P s → P (f s))
    (s : State) (h : P s) : P (runIn c l s) := runAll_keeps _ (fun f hf => hl f ((mem_arrange c l f).1 hf)) s h

/-- What the choice and every part keep, the event keeps. -/
theorem inAnyOrder_keeps {P : State → Prop} (l : List (State → State)) (hc : ∀ s, P s → P s.choose.2)
    (hl : ∀ f ∈ l, ∀ s, P s → P (f s)) (s : State) (h : P s) : P (inAnyOrder l s) := runIn_keeps _ l hl _ (hc s h)

/-- Parts that keep `W` and `D`, with one among them that takes `W` to `D`: the whole takes `W` to `D`. -/
theorem runAll_establishes {W D : State → Prop} (g : State → State) (hg : ∀ s, W s → D (g s)) :
    ∀ (l : List (State → State)), g ∈ l → (∀ f ∈ l, f = g ∨ ∀ s, W s → W (f s)) →
      (∀ f ∈ l, ∀ s, D s → D (f s)) → ∀ s, W s → D (runAll l s)
  | [], h, _, _, _, _ => absurd h (by simp)
  | f :: l, hm, hw, hd, s, h => by
    have hd' := fun f hf => hd f (List.mem_cons_of_mem _ hf)
    have hw' := fun f hf => hw f (List.mem_cons_of_mem _ hf)
    rcases hw f List.mem_cons_self with rfl | hf
    · exact runAll_keeps l hd' _ (hg s h)
    · rcases List.mem_cons.1 hm with rfl | hm
      · exact runAll_keeps l hd' _ (hg s h)
      · exact runAll_establishes g hg l hm hw' hd' _ (hf s h)

theorem runIn_establishes {W D : State → Prop} (g : State → State) (c : Nat) (l : List (State → State))
    (hm : g ∈ l) (hg : ∀ s, W s → D (g s)) (hw : ∀ f ∈ l, f = g ∨ ∀ s, W s → W (f s))
    (hd : ∀ f ∈ l, ∀ s, D s → D (f s)) (s : State) (h : W s) : D (runIn c l s) :=
  runAll_establishes g hg _ ((mem_arrange c l g).2 hm) (fun f hf => hw f ((mem_arrange c l f).1 hf))
    (fun f hf => hd f ((mem_arrange c l f).1 hf)) s h

theorem mem_placeAfter (a x p : SlicePart) (n : Nat) : ∀ l, p ∈ placeAfter a x n l ↔ p = x ∨ p ∈ l
  | [] => by simp [placeAfter]
  | y :: l => by
    unfold placeAfter
    split
    · simp [(insertAt_perm x _ l).mem_iff, or_left_comm]
    · simp [mem_placeAfter a x p n l, or_left_comm]

/-- Every part of a slice end is done. -/
theorem mem_sliceOrder (c : Nat) (p : SlicePart) : p ∈ sliceOrder c := by
  cases p <;> simp [sliceOrder, mem_placeAfter]

theorem slicePartsOn_keeps {P : State → Prop} (hs : ∀ s, P s → P s.scan) (hp : ∀ s, P s → P s.permitTest)
    (c : Nat) (a b : Bool) (s : State) (h : P s) : P (slicePartsOn c a b s) :=
  runIn_keeps c _ (by intro f hf; cases a <;> cases b <;> simp at hf <;> (try rcases hf with rfl | rfl) <;>
    assumption) s h

/-- What an owed start does is the parts of a slice end that were left out of it. -/
theorem State.takeStarts_parts (s : State) : ∃ l : List SlicePart, s.takeStarts =
    if s.timer.running then runAll (l.map SlicePart.run) (s.oweStarts false false) else s := by
  refine ⟨(if s.stage.startOwed then [.start] else []) ++ if s.share.postOwed then [.post] else [], ?_⟩
  unfold State.takeStarts
  cases s.timer.running <;> cases s.stage.startOwed <;> cases s.share.postOwed <;> rfl

/-- With nothing owed nothing is taken. -/
theorem State.takeStarts_none (s : State) (h : s.stage.startOwed = false) (h' : s.share.postOwed = false) :
    s.takeStarts = s := by
  have e : ∀ a b, a = s.stage.startOwed → b = s.share.postOwed → s.oweStarts a b = s := by rintro _ _ rfl rfl; rfl
  rw [State.takeStarts, h, h', e _ _ h.symm h'.symm]; simp

/-- What every part of a slice end keeps, the taking of an owed start keeps. -/
theorem takeStarts_keeps {P : State → Prop} (ho : ∀ a b s, P s → P (s.oweStarts a b))
    (hp : ∀ p s, P s → P (SlicePart.run p s)) (s : State) (h : P s) : P s.takeStarts := by
  obtain ⟨l, e⟩ := s.takeStarts_parts
  rw [e]; split
  · exact runAll_keeps _ (by intro f hf; obtain ⟨p, -, rfl⟩ := List.mem_map.1 hf; exact hp p) _ (ho _ _ s h)
  · exact h

/-- What every part of a slice end keeps, a slice end keeps. -/
theorem sliceEndIn_keeps {P : State → Prop} (h0 : ∀ s, P s → P s.handDriven.nextSlice)
    (ho : ∀ a b s, P s → P (s.oweStarts a b)) (hp : ∀ p s, P s → P (SlicePart.run p s)) (c : Nat) (s : State)
    (h : P s) : P (s.sliceEndIn c) :=
  runAll_keeps _ (by intro f hf; obtain ⟨p, -, rfl⟩ := List.mem_map.1 hf; exact hp p) _ (ho _ _ _ (h0 s h))

theorem sliceExpiry_keeps {P : State → Prop} (hc : ∀ s, P s → P s.choose.2) (h0 : ∀ s, P s → P s.handDriven.nextSlice)
    (ho : ∀ a b s, P s → P (s.oweStarts a b)) (hp : ∀ p s, P s → P (SlicePart.run p s)) (s : State) (h : P s) :
    P s.sliceExpiry := by
  unfold State.sliceExpiry
  split
  · exact sliceEndIn_keeps h0 ho hp _ _ (hc _ (takeStarts_keeps ho hp s h))
  · exact h

/-- What every event of time, an owed start and the tick's counting keep, a tick keeps. -/
theorem tick_keeps {P : State → Prop} (hc : ∀ s, P s → P s.choose.2) (hs : ∀ s, P s → P s.takeStarts)
    (ha : ∀ s, P s → P s.advance) (hd : ∀ (d : Due) s, P s → P (d.take s)) (s : State) (h : P s) : P s.tick := by
  have hl : ∀ l : List Due, ∀ f ∈ l.map Due.takeIfDue, ∀ s, P s → P (f s) := by
    intro l f hf s hs
    obtain ⟨d, -, rfl⟩ := List.mem_map.1 hf
    unfold Due.takeIfDue
    split
    · exact hd d s hs
    · exact hs
  simp only [State.tick]
  split
  · exact runAll_keeps _ (hl _) _ (ha _ (hs s h))
  · exact inAnyOrder_keeps _ hc (hl _) _ (ha _ (hs s h))

end Sys2Proof.Machine
end

