-- ==== Sys2Proof/Laws/Exec.lean ====
section
/-! SUPPORT. Every command answers a next state, and what the moves of the part keep every step keeps. -/

namespace Sys2Proof.Machine

/-- The state a command answers with. -/
def effect (c : Instr) (s : State) : State :=
  match exec c s with
  | .next t => t
  | .fault r => nomatch r
  | .refused _ => s

theorem exec_eq (c : Instr) (s : State) : exec c s = .next (effect c s) := by cases c <;> rfl

theorem exec_next {c : Instr} {s t : State} (h : exec c s = .next t) : t = effect c s := by
  rw [exec_eq] at h; exact (Host.Outcome.next.inj h).symm

theorem step_cons {s : State} {c : Instr} {q : List Instr} (h : s.pending = c :: q) :
    step s = exec c { s with pending := q } := by unfold step; rw [h]

theorem step_nil {s : State} (h : s.pending = []) : step s = .next s.tick := by unfold step; rw [h]

theorem clockOfField_lt {n c : Nat} (h : clockOfField n = some c) : c < Config.daySeconds := by
  unfold clockOfField at h; split at h <;> simp_all

theorem State.quietGap_frame (s : State) : ∃ l, s.quietGap = { s with line := l } := by
  simp only [State.quietGap]; split <;> (try split) <;> exact ⟨_, rfl⟩

theorem State.beginAttempt_frame (s : State) : ∃ l, s.beginAttempt = { s with line := l } := by
  unfold State.beginAttempt; split <;> (try split) <;> (try split) <;> exact ⟨_, rfl⟩

theorem State.sendReply_frame (k : RequestKind) (t : Byte) (c : ReplyCode) (b : Byte) (i : List (List Byte)) (s : State) :
    ∃ l p, s.sendReply k t c b i = { s with line := l, inspect := p } := by
  simp only [State.sendReply]
  generalize replyParts s.store.serial t c b i = ps
  obtain ⟨l, e⟩ := State.placeFrame_frame .reply (ps.headD []) (s.setReply (some ⟨ps, 1, k⟩))
  exact ⟨l, _, e⟩

theorem State.dispatchClock_stand (s : State) (n : Nat) : (s.dispatchClock n).stand = s.stand := by
  unfold State.dispatchClock; split <;> rfl

theorem State.markClock_running (s : State) (n : Nat) : (s.markClock n).timer.running = s.timer.running := by
  unfold State.markClock; split <;> rfl

theorem State.standingTakes_running (s : State) (b : Nat) : (s.standingTakes b).timer.running = s.timer.running := by
  simp only [State.standingTakes]; split <;> (try split) <;> (try split) <;> simp [State.enterListening]

theorem slicePartsOn_running (c : Nat) (a b : Bool) (s : State) :
    (slicePartsOn c a b s).timer.running = s.timer.running :=
  slicePartsOn_keeps (P := fun t => t.timer.running = s.timer.running) (by simp) (by simp) c a b s rfl

theorem State.roundEndWork_running (s : State) (b : Bool) (c : Nat) :
    (s.roundEndWork b c).timer.running = s.timer.running := by
  simp only [State.roundEndWork, State.beginMeterRound_timer]
  refine runIn_keeps (P := fun t => t.timer.running = s.timer.running) _ _ ?_ _ ?_
  · intro f hf t ht
    simp only [roundEndTail, List.mem_cons, List.not_mem_nil, or_false] at hf
    rcases hf with rfl | rfl | rfl | rfl
    · simpa using ht
    · simp only []; split <;> simpa using ht
    · simpa using ht
    · simpa using ht
  · simp only [State.roundEndCore]
    split <;> simp [State.nextRound, State.standingRoundEnd]

theorem State.roundEnd_running (s : State) (b : Bool) : (s.roundEnd b).timer.running = s.timer.running := by
  unfold State.roundEnd State.roundEndIn
  rw [slicePartsOn_running, State.roundEndWork_running, slicePartsOn_running]; simp

theorem State.markRound_running (s : State) : s.markRound.timer.running = s.timer.running := by
  unfold State.markRound; split
  · rw [State.roundEnd_running]
  · split
    · rw [State.roundEnd_running]
    · rfl

/-- The moves every command, and every event of a tick, is made of, and that each keeps `P`. -/
structure Moves (P : State → Prop) : Prop where
  line : ∀ s l, P s → P { s with line := l }
  out : ∀ s o, P s → P { s with out := o }
  inspect : ∀ s i, P s → P { s with inspect := i }
  order : ∀ s a b, P s → P { s with choices := a, freeCount := b }
  temps : ∀ s t, P s → P (s.setTemps t)
  powerUp : ∀ s, P s → P s.powerUp
  restart : ∀ s, P s → P s.restart
  resetPin : ∀ s b, P s → P { s with pins := { s.pins with reset := b } }
  read : ∀ s r, P s → P { s with storeRead := r }
  started : ∀ s, P s → s.stand.standing = .starting → s.store.installer.locked = true →
    P s.startRounds.firstListening
  toSetup : ∀ s, P s → s.stand.standing = .starting → P { s with stand := { s.stand with standing := .setup } }
  claim : ∀ s, P s → P s.formClaim
  postSlice : ∀ s n, P s → s.onLine = true → P { s with share := { s.share with postSlice := n, postOwed := false } }
  owe : ∀ s a b, P s → s.timer.running = true → P (s.oweStarts a b)
  hand : ∀ s, P s → s.timer.running = true → P s.handDriven
  nextSlice : ∀ s, P s → s.timer.running = true → s.inLastSlice = false → P s.nextSlice
  part : ∀ (p : SlicePart) s, P s → s.timer.running = true → P (p.run s)
  work : ∀ s b c, P s → s.timer.running = true → P (s.roundEndWork b c)
  second : ∀ s, P s → P s.clockSecond
  align : ∀ s, P s → s.timer.running = true → P { s with timer := { s.timer with aligned := true } }
  clock : ∀ s n, P s → n < Config.daySeconds → P (s.setClock n)
  hears : ∀ s b, P s → P (s.standingTakes b)
  report : ∀ s b, P s → P (s.reportClaim b)
  entry : ∀ s bay p e, P s → s.onLine = true → 1 ≤ bay → bay ≤ s.cfg.n → bay ≠ s.cfg.bay →
    peerEntryOf bay s.timer.roundCount p = some e → P { s with peers := { s.peers with entries := putEntry e s.peers.entries } }
  notice : ∀ s van d t, P s → van ≠ 0 → d < Config.daySeconds → P (s.applyNotice van d (noticeTarget t))
  override : ∀ s o, P s → s.onLine = true → P { s with notices := { s.notices with override := some o } }
  edge : ∀ s, P s → P s.meterEdge
  permitFalls : ∀ s, P s → P s.permitFalls
  permitRises : ∀ s, P s → P s.permitRises
  plug : ∀ s (p : PlugFields) r, P s → s.onLine = true → p.van ≠ 0 → P (s.openSession (p.clamped s.cfg.stageRating) r)
  taper : ∀ s n, P s → s.onLine = true → P (s.taperTaken n)
  addHold : ∀ s, P s → s.onLine = true → P (s.addHold .driver)
  removeHold : ∀ s, P s → s.onLine = true → P (s.removeHold .driver)
  unplug : ∀ s, P s → s.onLine = true → P s.unplugTaken
  write : ∀ s c v, P s → s.writeCode c v = .accepted → P (s.setInstaller (s.store.installer.write c v))
  lock : ∀ s, P s → s.stand.standing = .setup → s.store.installer.mandatoryBlank = false →
    P { s with store := { s.store with installer := s.store.installer.lock }, stand := { s.stand with standing := .starting } }

namespace Moves
variable {P : State → Prop} (m : Moves P)
include m

theorem choose (s : State) (h : P s) : P s.choose.2 := by
  obtain ⟨a, b, e⟩ := s.choose_frame; rw [e]; exact m.order s a b h

theorem lineOnly {s t : State} (e : ∃ l, t = { s with line := l }) (h : P s) : P t := by
  obtain ⟨l, rfl⟩ := e; exact m.line s l h

theorem draws (s : State) (n : Nat) (h : P s) (ho : s.onLine = true) :
    P { (s.draw n).2 with
      share := { (s.draw n).2.share with postSlice := some ((s.draw n).1 + 1), postOwed := false } } := by
  obtain ⟨l, e⟩ := s.draw_frame n; rw [e]; exact m.postSlice _ _ (m.line s l h) ho

theorem postSliceDrawn (s : State) (h : P s) (ho : s.onLine = true) : P s.drawPostSlice := m.draws s _ h ho

theorem tell (s : State) (r : LinkRecord) (h : P s) : P (s.sendLink r) := m.out s _ h

theorem readEnds (s : State) (h : P s) : P s.storeReadEnds := by
  unfold State.storeReadEnds
  split
  · rename_i hc
    simp only [Bool.and_eq_true, beq_iff_eq] at hc
    simp only [State.completeRead]
    split
    · rename_i hl
      refine (inAnyOrder_keeps (P := fun s => P s ∧ s.onLine = true) _ (fun s h => ⟨m.choose s h.1, ?_⟩) ?_ _
        ⟨m.started _ (m.out _ _ (m.read s none h)) hc.2 hl, rfl⟩).1
      · have := h.2; simpa [State.onLine] using this
      · intro f hf s h
        simp only [List.mem_cons, List.not_mem_nil, or_false] at hf
        rcases hf with rfl | rfl
        · exact ⟨m.claim s h.1, by have := h.2; simpa [State.onLine] using this⟩
        · exact ⟨m.postSliceDrawn s h.1 h.2, by have := h.2; simpa [State.onLine] using this⟩
    · exact m.toSetup _ (m.out _ _ (m.read s none h)) hc.2
  · exact h

theorem partRuns (p : SlicePart) (s : State) (h : P s ∧ s.timer.running = true) :
    P (p.run s) ∧ (p.run s).timer.running = true :=
  ⟨m.part p s h.1 h.2, by cases p <;> simpa [SlicePart.run] using h.2⟩

theorem roundEnd (b : Bool) (s : State) (h : P s) (hr : s.timer.running = true) : P (s.roundEnd b) := by
  have on : ∀ c x y s, P s ∧ s.timer.running = true →
      P (slicePartsOn c x y s) ∧ (slicePartsOn c x y s).timer.running = true := fun c x y s h =>
    slicePartsOn_keeps (P := fun s => P s ∧ s.timer.running = true) (m.partRuns .scan) (m.partRuns .permit) c x y s h
  unfold State.roundEnd State.roundEndIn
  have h1 : P s.choose.2.handDriven := m.hand _ (m.choose s h) (by simpa using hr)
  obtain ⟨h2, h3⟩ := on _ _ _ _ ⟨h1, by simpa using hr⟩
  exact (on _ _ _ _ ⟨m.work _ _ _ h2 h3, by rw [State.roundEndWork_running]; exact h3⟩).1

theorem naturalRoundEnd (s : State) (h : P s) : P s.naturalRoundEnd := by
  unfold State.naturalRoundEnd
  split
  · rename_i hr; exact m.roundEnd _ s h (by simp at hr; exact hr.1)
  · exact h

theorem partsRun (l : List SlicePart) (s : State) (h : P s) (hr : s.timer.running = true) :
    P (runAll (l.map SlicePart.run) s) :=
  (runAll_keeps (P := fun s => P s ∧ s.timer.running = true) _
    (by intro f hf; obtain ⟨p, -, rfl⟩ := List.mem_map.1 hf; exact m.partRuns p) _ ⟨h, hr⟩).1

theorem takeStarts (s : State) (h : P s) : P s.takeStarts := by
  obtain ⟨l, e⟩ := s.takeStarts_parts
  rw [e]; split
  · rename_i hr; exact m.partsRun l _ (m.owe s _ _ h hr) hr
  · exact h

theorem sliceExpiry (s : State) (h : P s) : P s.sliceExpiry := by
  unfold State.sliceExpiry
  split
  · rename_i hr
    simp only [Bool.and_eq_true, Bool.not_eq_true'] at hr
    refine m.partsRun _ _ (m.owe _ _ _ (m.nextSlice _ (m.hand _ (m.choose _ (m.takeStarts s h)) ?_) ?_ ?_) ?_) ?_
    · simpa using hr.1
    · simpa using hr.1
    · have e := of_decide_eq_false (show decide (s.cfg.roundDiv ≤ s.timer.sliceIndex + 1) = false from hr.2)
      exact decide_eq_false (by simpa [State.cfg] using e)
    · simpa [State.nextSlice] using hr.1
    · simpa [State.nextSlice] using hr.1
  · exact h

theorem whenDue (d : Due) (s : State) (h : P s) : P (d.take s) := by
  cases d with
  | second => exact m.second s h
  | slice =>
    simp only [Due.take]
    split
    · exact m.naturalRoundEnd s h
    · exact m.sliceExpiry s h
  | read => exact m.readEnds s h
  | restart =>
    simp only [Due.take, State.restartWaitEnds]
    split
    · exact m.restart s h
    · exact h
  | quiet => exact m.lineOnly s.quietGap_frame h
  | attempt =>
    simp only [Due.take]
    refine m.lineOnly (State.beginAttempt_frame _) ?_
    split
    · exact m.lineOnly s.quietGap_frame h
    · exact h

theorem tick (hc : ∀ s, P s → P s.advance) (s : State) (h : P s) : P s.tick := tick_keeps m.choose m.takeStarts hc m.whenDue s h

theorem foreignClock (s : State) (n : Nat) (h : P s) : P (s.dispatchClock n) := by
  unfold State.dispatchClock
  split
  · rename_i c hc; exact m.clock s c h (clockOfField_lt hc)
  · exact h

theorem takeFrame (s : State) (k : FrameKind) (b : Nat) (h : P s) : P (s.takeFrame k b) := m.line s _ h

theorem lineError (s : State) (h : P s) : P s.countLineError := m.line s _ h

theorem deliverMark (s : State) (b : Nat) (p : List Byte) (h : P s) : P (s.deliverMark b p) := by
  have hclock : ∀ n s, P s → P (s.markClock n) := by
    intro n s h
    unfold State.markClock
    split
    · rename_i c _ hc; exact m.clock s c h (clockOfField_lt hc)
    · exact h
    · exact h
  unfold State.deliverMark
  split
  · exact m.hears _ _ (m.lineError s h)
  · rename_i n _
    split
    · split
      · rename_i hr
        refine (inAnyOrder_keeps (P := fun s => P s ∧ s.timer.running = true) _ ?_ ?_ s ⟨h, hr⟩).1
        · exact fun s h => ⟨m.choose s h.1, by simpa using h.2⟩
        · intro f hf s h
          simp only [List.mem_cons, List.not_mem_nil, or_false] at hf
          rcases hf with rfl | rfl | rfl | rfl
          · exact ⟨m.lineOnly s.removeWaitingMark_frame h.1, by simpa using h.2⟩
          · refine ⟨?_, by rw [s.markRound_running]; exact h.2⟩
            unfold State.markRound
            split
            · exact m.roundEnd _ _ (m.align s h.1 h.2) h.2
            · split
              · exact m.roundEnd _ s h.1 h.2
              · exact h.1
          · exact ⟨hclock n s h.1, by rw [s.markClock_running]; exact h.2⟩
          · exact ⟨m.hears s b h.1, by rw [s.standingTakes_running]; exact h.2⟩
      · exact m.hears _ _ (hclock n s h)
    · exact m.hears _ _ h

theorem deliverClaim (s : State) (b : Nat) (p : List Byte) (h : P s) : P (s.deliverClaim b p) := by
  refine m.hears _ _ ?_
  unfold State.peersTake
  split
  · rename_i hc
    simp only [Bool.and_eq_true, Bool.not_eq_true', decide_eq_false_iff_not, State.isStation, decide_eq_true_eq] at hc
    split
    · exact m.lineError s h
    · rename_i e he; exact m.entry s b p e h hc.1.1 hc.1.2.1 hc.1.2.2 hc.2 he
  · exact h

theorem deliverNotice (s : State) (b : Nat) (p : List Byte) (h : P s) : P (s.deliverNotice b p) := by
  unfold State.deliverNotice
  split
  · exact m.hears _ _ (m.lineError s h)
  · rename_i f _
    refine inAnyOrder_keeps _ m.choose ?_ s h
    intro g hg s h
    simp only [List.mem_cons, List.not_mem_nil, or_false] at hg
    rcases hg with rfl | rfl
    · simp only [State.noticeTaken]
      split
      · exact m.lineError _ (m.foreignClock s _ h)
      · rename_i hc; exact m.notice _ _ _ _ (m.foreignClock s _ h) (fun h => hc (.inl h)) (by omega)
    · exact m.hears s b h

theorem deliverLimit (s : State) (b : Nat) (p : List Byte) (h : P s) : P (s.deliverLimit b p) := by
  unfold State.deliverLimit
  split
  · exact m.hears _ _ (m.lineError s h)
  · rename_i f _
    refine m.hears _ _ ?_
    have h1 := m.foreignClock s f.dispatch h
    simp only [State.limitTaken]
    split
    · rename_i ho
      split
      · exact m.lineError _ h1
      · exact m.override _ _ h1 (by rw [State.onLine, s.dispatchClock_stand]; exact ho)
    · exact h1

theorem reply (s : State) (k : RequestKind) (t : Byte) (c : ReplyCode) (b : Byte) (i : List (List Byte)) (h : P s) :
    P (s.sendReply k t c b i) := m.lineOnly (State.placeFrame_frame _ _ _) (m.inspect s _ h)

theorem dropped (s : State) (h : P s) : P s.countDropped := m.line s _ h

theorem deliverQuery (s : State) (q : QueryFrame) (v : Byte) (h : P s) : P (s.deliverQuery q v) := by
  refine inAnyOrder_keeps _ m.choose ?_ s h
  intro g hg s h
  simp only [List.mem_cons, List.not_mem_nil, or_false] at hg
  rcases hg with rfl | rfl
  · unfold State.queryTaken
    split
    · exact m.lineError s h
    · split
      · split
        · exact m.dropped s h
        · unfold State.answerQuery; split <;> exact m.reply _ _ _ _ _ _ h
      · exact h
  · exact m.hears s _ h

theorem setupFor (s : State) (n : BitVec 32) (f : State → State) (hf : ∀ s, P s → P (f s)) (h : P s) :
    P (s.setupFor n f) := by
  unfold State.setupFor
  split
  · split
    · exact m.dropped s h
    · exact hf s h
  · exact h

theorem decideWrite (c v : Nat) (s : State) (h : P s) : P (s.decideWrite c v) := by
  refine m.reply _ _ _ _ _ _ ?_
  split
  · rename_i hc; exact m.write s c v h hc
  · exact h

theorem decideLock (s : State) (h : P s) : P s.decideLock := by
  unfold State.decideLock
  split
  · exact m.reply _ _ _ _ _ _ h
  · split
    · exact m.reply _ _ _ _ _ _ h
    · rename_i hs hb
      refine m.read _ _ ?_
      obtain ⟨l, i, e⟩ := State.sendReply_frame .lock 0 .accepted 2 [] (s.setInstaller s.store.installer.lock)
      rw [State.setupReply, e]
      exact m.inspect _ i (m.line _ l (m.lock s h (by simpa using hs) (by simpa using hb)))

theorem decideRestart (s : State) (h : P s) : P s.decideRestart := m.inspect _ _ (m.reply _ _ _ _ _ _ h)

theorem setupTaken (s : State) (p : List Byte) (h : P s) : P (s.setupTaken p) := by
  unfold State.setupTaken
  split
  · simp only []
    split
    · exact m.setupFor _ _ _ (m.decideWrite _ _) h
    · exact m.setupFor _ _ _ m.decideLock h
    · exact m.setupFor _ _ _ m.decideRestart h
    · exact m.lineError s h
  · exact m.lineError s h

theorem deliverFrame (s : State) (k : FrameKind) (b : Byte) (p : List Byte) (h : P s) : P (s.deliverFrame k b p) := by
  have h1 := m.takeFrame s k b.toNat h
  cases k
  · exact m.deliverMark _ _ _ h1
  · exact m.deliverClaim _ _ _ h1
  · exact m.deliverNotice _ _ _ h1
  · exact m.deliverLimit _ _ _ h1
  · exact m.deliverQuery _ _ _ h1
  · exact m.hears _ _ h1
  · exact m.hears _ _ (m.setupTaken _ _ h1)

theorem receive (s : State) (c : Byte) (h : P s) : P (s.receive c) := by
  have hs : ∀ r s, P s → P (s.setReceiver r) := fun r s h => m.line s _ h
  have hk : ∀ s, P s → P s.rejectFrame := fun s h => m.line s _ h
  unfold State.receive
  split
  · split
    · exact hs _ _ h
    · exact hs _ _ (m.lineError _ h)
  · unfold State.assemble
    split
    · split
      · exact hs _ _ (m.lineError _ h)
      · split
        · unfold State.completeFrame
          split
          · split
            · exact m.deliverFrame _ _ _ _ h
            · exact hk _ h
          · exact hk _ h
        · exact hs _ _ h
    · exact hs _ _ h
  · exact hs _ _ (m.lineError _ h)
  · exact h

theorem replySent (s : State) (h : P s) : P s.replySent := by
  unfold State.replySent
  split
  · exact h
  · split
    · exact m.restart s h
    · split
      · exact m.inspect s _ h
      · exact m.lineOnly (State.placeFrame_frame _ _ _) (m.inspect s _ h)

theorem frameSent (a : Attempt) (s : State) (h : P s) : P (s.frameSent a) := by
  have h1 : P { s.attemptEnds with out := { s.attemptEnds.out with line := s.attemptEnds.out.line ++ [a.bytes] } } :=
    m.out _ _ (m.line s _ h)
  have h2 : P (if a.replaced then { s.attemptEnds with out := { s.attemptEnds.out with line := s.attemptEnds.out.line ++ [a.bytes] } }
      else State.setSlot a.slot none { s.attemptEnds with out := { s.attemptEnds.out with line := s.attemptEnds.out.line ++ [a.bytes] } }) := by
    split
    · exact h1
    · exact m.line _ _ h1
  refine m.lineOnly (State.afterAttempt_frame _ _) ?_
  split
  · exact h2
  · exact m.report _ _ h2
  · exact m.replySent _ h2

theorem reportDiscard (k : Slot) (s : State) (h : P s) : P (s.reportDiscard k) := by
  cases k
  · exact h
  · exact m.line _ _ (m.report s _ h)
  · simp only [State.reportDiscard, State.replyDiscarded]
    split
    · exact h
    · split
      · exact h
      · exact m.inspect s _ h

theorem frameCollides (a : Attempt) (s : State) (h : P s) : P (s.frameCollides a) := by
  refine m.lineOnly (State.afterAttempt_frame _ _) ?_
  have h1 : P s.attemptEnds.countCollision := m.line _ _ (m.line s _ h)
  revert h1; generalize s.attemptEnds.countCollision = s; intro h
  unfold State.collideFrame
  split
  · split
    · split
      · exact m.reportDiscard _ _ (m.choose s h)
      · exact m.choose s h
    · exact h
  · split
    · exact h
    · split
      · exact m.reportDiscard _ _ (m.line s _ h)
      · exact m.line s _ h

theorem readBack (c : Byte) (a : Attempt) (s : State) (h : P s) : P (s.readBack c a) := by
  unfold State.readBack
  split
  · split
    · exact m.frameSent a s h
    · exact m.line _ _ (m.line s _ h)
  · exact m.frameCollides a s h

theorem record (k : RecordKind) (f : State → State) (s : State) (hf : s.onLine = true → P (f s)) (h : P s) :
    P (s.record k f) := by
  unfold State.record
  split
  · rename_i ho; exact hf ho
  · exact m.tell s _ h

/-- What the moves keep, every command keeps. -/
theorem effect (c : Instr) (s : State) (h : P s) : P (Machine.effect c s) := by
  have attOr : ∀ (f : Attempt → State → State) (g : State → State), (∀ a s, P s → P (f a s)) → (∀ s, P s → P (g s)) →
      P (s.ofAttemptOr f g) := by
    intro f g hf hg; unfold State.ofAttemptOr; split
    · exact hf _ s h
    · exact hg s h
    · exact hg s h
  have att : ∀ (f : Attempt → State → State), (∀ a s, P s → P (f a s)) → P (s.ofAttempt f) :=
    fun f hf => attOr f id hf fun _ h => h
  have query : ∀ q v, P (s.queryFrame q v) := fun q v => m.deliverQuery _ _ _ (m.takeFrame _ _ _ h)
  have setup : ∀ b f, (∀ s, P s → P (f s)) → P (s.setupFrame b f) := fun b f hf =>
    m.hears _ _ (hf _ (m.takeFrame _ _ _ h))
  cases c with
  | powerUp => exact m.powerUp s h
  | resetAsserted =>
    show P s.assertReset
    unfold State.assertReset; split
    · exact h
    · exact m.restart _ (m.resetPin s true h)
  | resetReleased =>
    show P s.releaseReset
    unfold State.releaseReset; split
    · simp only []; split
      · exact m.read _ _ (m.resetPin s false h)
      · exact m.resetPin s false h
    · exact h
  | storeReadCompletes => exact m.readEnds s h
  | sliceExpiry t => exact m.sliceExpiry _ (m.temps s t h)
  | naturalRoundEnd t => exact m.naturalRoundEnd _ (m.temps s t h)
  | clockSecondEvent => exact m.second s h
  | markFrame b p t => exact m.deliverMark _ _ _ (m.takeFrame _ _ _ (m.temps s t h))
  | claimFrame b p => exact m.deliverClaim _ _ _ (m.takeFrame _ _ _ h)
  | noticeFrame b p => exact m.deliverNotice _ _ _ (m.takeFrame _ _ _ h)
  | limitFrame b p => exact m.deliverLimit _ _ _ (m.takeFrame _ _ _ h)
  | replyFrame b p => exact m.hears _ _ (m.takeFrame _ _ _ h)
  | queryStatus q => exact query q 1
  | queryPeers q => exact query q 2
  | queryNotices q => exact query q 3
  | querySession q => exact query q 4
  | queryLast q => exact query q 5
  | queryConfig q => exact query q 6
  | setupWrite b n f v => exact setup _ _ fun s h => m.setupFor _ _ _ (m.decideWrite _ _) h
  | setupLock b n => exact setup _ _ fun s h => m.setupFor _ _ _ m.decideLock h
  | setupRestart b n => exact setup _ _ fun s h => m.setupFor _ _ _ m.decideRestart h
  | restartWaitExpiry =>
    show P s.restartWaitEnds
    unfold State.restartWaitEnds; split
    · exact m.restart s h
    · exact h
  | invalidFrame => exact m.line s _ h
  | receiveError =>
    refine attOr State.frameCollides (fun s => s.characterEnds.receiveBad) m.frameCollides fun s h => ?_
    unfold State.receiveBad; split <;> exact m.line s _ h
  | quietGap => exact m.lineOnly s.quietGap_frame h
  | sendAttempt => exact m.lineOnly s.beginAttempt_frame h
  | sentInFull => exact att _ m.frameSent
  | collision => exact att _ m.frameCollides
  | meterEdge => exact m.edge s h
  | permitFalling => exact m.permitFalls s h
  | permitRising => exact m.permitRises s h
  | plug r =>
    refine m.record _ _ s (fun ho => ?_) h
    unfold State.plugTaken; split
    · exact m.tell s _ h
    · rename_i hc; exact m.plug s _ _ h ho fun h => hc (.inl h)
  | taper n => exact m.record _ _ s (fun ho => m.taper s _ h ho) h
  | hold =>
    refine m.record _ _ s (fun ho => ?_) h
    unfold State.holdTaken; split
    · exact m.tell s _ h
    · exact m.addHold _ (m.tell s _ h) ho
  | resume =>
    refine m.record _ _ s (fun ho => ?_) h
    unfold State.resumeTaken; split
    · exact m.removeHold _ (m.tell s _ h) ho
    · exact m.tell s _ h
  | unplug => exact m.record _ _ s (fun ho => m.unplug s h ho) h
  | startBitHeard =>
    show P s.startBit
    unfold State.startBit; split
    · exact h
    · exact m.line s _ h
  | characterHeard c => exact attOr _ _ (m.readBack c) fun s h => m.receive _ _ (m.line s _ h)
  | queryViewUnknown q v => exact query q v
  | malformedSetup b p => exact setup _ _ fun s h => m.setupTaken _ _ h

/-- What the moves, the counting of time and the queue keep, every step keeps. -/
theorem step (hq : ∀ s q, P s → P { s with pending := q }) (hc : ∀ s, P s → P s.advance) {s t : State} (h : P s)
    (e : Machine.step s = .next t) : P t := by
  cases hp : s.pending with
  | nil => rw [step_nil hp] at e; cases e; exact m.tick hc s h
  | cons c q => rw [step_cons hp] at e; rw [exec_next e]; exact m.effect c _ (hq s q h)

end Moves

end Sys2Proof.Machine
end

