-- ==== Sys2Proof/Laws/Rounds.lean ====
section
/-! SUPPORT. The round-end work taken apart: what each of its parts keeps it keeps, and what it never touches. -/

namespace Sys2Proof.Machine

/-- What every part of the round-end work keeps, the work keeps. -/
theorem roundEndWork_keeps {P : State → Prop} (line : ∀ s l, P s → P { s with line := l })
    (report : ∀ s b, P s → P (s.reportClaim b)) (meter : ∀ s, P s → P s.meterSliceEnd)
    (hold : ∀ s, P s → P s.holdRound) (standing : ∀ s, P s → P s.standingRoundEnd)
    (age : ∀ s n, P s → P (s.agePeers n)) (count : ∀ s, P s → P s.countOverride)
    (expire : ∀ s, P s → P s.expireNotices) (allot : ∀ s p, P s → P (s.chooseAllotment p))
    (next : ∀ s, P s → P s.nextRound) (post : ∀ s, P s → P s.drawPostSlice) (claim : ∀ s, P s → P s.formClaim)
    (session : ∀ s c p q, P s → P (s.sessionRoundEnd c p q).stageRoundEnd)
    (begins : ∀ s, P s → P s.beginMeterRound) (n : Bool) (c : Nat) (s : State) (h : P s) : P (s.roundEndWork n c) := by
  have mark : ∀ s : State, P s → P s.placeMark := fun s h => by
    obtain ⟨l, e⟩ := s.placeMark_frame; rw [e]; exact line s l h
  have discard : ∀ s : State, P s → P s.discardClaim := fun s h => by
    have h1 : P (s.forbidRetry .claim) := by
      obtain ⟨l, e⟩ := s.forbidRetry_frame .claim; rw [e]; exact line s l h
    simp only [State.discardClaim]
    split
    · refine line _ _ (report _ _ ?_)
      obtain ⟨l, e⟩ := (s.forbidRetry .claim).removeFrame_frame .claim; rw [e]; exact line _ l h1
    · exact h1
  refine begins _ (runIn_keeps _ _ ?_ _ ?_)
  · intro f hf t ht
    simp only [roundEndTail, List.mem_cons, List.not_mem_nil, or_false] at hf
    rcases hf with rfl | rfl | rfl | rfl
    · exact post t ht
    · simp only []; split
      · exact mark t ht
      · exact ht
    · unfold State.reformIfChanged; split
      · exact ht
      · exact claim t ht
    · exact session t _ _ _ ht
  · simp only [State.roundEndCore]
    refine next _ (allot _ _ (expire _ (count _ (age _ _ (standing _ (discard _ ?_))))))
    split
    · exact mark _ (hold _ (meter s h))
    · exact hold _ (meter s h)

/-- The round-end work never touches these. -/
theorem State.roundEndWork_frame (n : Bool) (c : Nat) (s : State) :
    ∃ m st o l u ti p no sh se, s.roundEndWork n c =
      { s with meter := m, stage := st, out := o, line := l, stand := u, timer := ti, peers := p, notices := no,
               share := sh, session := se } := by
  refine roundEndWork_keeps (P := fun t => ∃ m st o l u ti p no sh se, t =
      { s with meter := m, stage := st, out := o, line := l, stand := u, timer := ti, peers := p, notices := no,
               share := sh, session := se })
    ?_ ?_ ?_ ?_ ?_ ?_ ?_ ?_ ?_ ?_ ?_ ?_ ?_ ?_ n c s ⟨_, _, _, _, _, _, _, _, _, _, rfl⟩
  · rintro _ l ⟨_, _, _, _, _, _, _, _, _, _, rfl⟩; exact ⟨_, _, _, _, _, _, _, _, _, _, rfl⟩
  · rintro _ l ⟨_, _, _, _, _, _, _, _, _, _, rfl⟩; exact ⟨_, _, _, _, _, _, _, _, _, _, rfl⟩
  · rintro t ⟨_, _, _, _, _, _, _, _, _, _, e⟩
    obtain ⟨_, _, _, h⟩ := t.meterSliceEnd_frame; rw [h, e]; exact ⟨_, _, _, _, _, _, _, _, _, _, rfl⟩
  · rintro _ ⟨_, _, _, _, _, _, _, _, _, _, rfl⟩; exact ⟨_, _, _, _, _, _, _, _, _, _, rfl⟩
  · rintro _ ⟨_, _, _, _, _, _, _, _, _, _, rfl⟩; exact ⟨_, _, _, _, _, _, _, _, _, _, rfl⟩
  · rintro _ n ⟨_, _, _, _, _, _, _, _, _, _, rfl⟩; exact ⟨_, _, _, _, _, _, _, _, _, _, rfl⟩
  · rintro _ ⟨_, _, _, _, _, _, _, _, _, _, rfl⟩; exact ⟨_, _, _, _, _, _, _, _, _, _, rfl⟩
  · rintro t ⟨_, _, _, _, _, _, _, _, _, _, e⟩
    obtain ⟨_, h⟩ := t.expireNotices_frame; rw [h, e]; exact ⟨_, _, _, _, _, _, _, _, _, _, rfl⟩
  · rintro _ p ⟨_, _, _, _, _, _, _, _, _, _, rfl⟩; exact ⟨_, _, _, _, _, _, _, _, _, _, rfl⟩
  · rintro _ ⟨_, _, _, _, _, _, _, _, _, _, rfl⟩; exact ⟨_, _, _, _, _, _, _, _, _, _, rfl⟩
  · rintro t ⟨_, _, _, _, _, _, _, _, _, _, e⟩
    obtain ⟨_, _, h⟩ := t.drawPostSlice_frame; rw [h, e]; exact ⟨_, _, _, _, _, _, _, _, _, _, rfl⟩
  · rintro t ⟨_, _, _, _, _, _, _, _, _, _, e⟩
    obtain ⟨_, _, h⟩ := t.formClaim_frame; rw [h, e]; exact ⟨_, _, _, _, _, _, _, _, _, _, rfl⟩
  · rintro t a b c ⟨_, _, _, _, _, _, _, _, _, _, e⟩
    obtain ⟨_, _, _, _, h⟩ := t.sessionRoundEnd_frame a b c
    rw [h, e]; exact ⟨_, _, _, _, _, _, _, _, _, _, rfl⟩
  · rintro _ ⟨_, _, _, _, _, _, _, _, _, _, rfl⟩; exact ⟨_, _, _, _, _, _, _, _, _, _, rfl⟩

/-- A part of a slice end never touches these. -/
theorem SlicePart.run_frame (p : SlicePart) (s : State) :
    ∃ m st o l sh se th, p.run s =
      { s with meter := m, stage := st, out := o, line := l, share := sh, session := se, thermal := th } := by
  cases p with
  | meter => obtain ⟨_, _, _, e⟩ := s.meterSliceEnd_frame; exact ⟨_, _, _, _, _, _, _, e⟩
  | scan => obtain ⟨_, _, _, _, _, _, e⟩ := s.scan_frame; exact ⟨_, _, _, _, _, _, _, e⟩
  | permit => obtain ⟨_, _, _, _, _, e⟩ := s.permitTest_frame; exact ⟨_, _, _, _, _, _, _, e⟩
  | start => obtain ⟨_, _, e⟩ := s.startUnlessOwed_frame; exact ⟨_, _, _, _, _, _, _, e⟩
  | post => obtain ⟨_, _, e⟩ := s.postUnlessOwed_frame; exact ⟨_, _, _, _, _, _, _, e⟩
  | mark => obtain ⟨_, e⟩ := s.discardMark_frame; exact ⟨_, _, _, _, _, _, _, e⟩
  | topped => obtain ⟨_, _, _, _, _, e⟩ := s.topIfReached_frame; exact ⟨_, _, _, _, _, _, _, e⟩

/-- Nothing is owed but of the start of slice 2, where it is the lag slice or the post slice. -/
theorem State.leaveStarts_spec (c : Nat) (s : State) :
    ((s.leaveStarts c).stage.startOwed = true → s.timer.sliceIndex = 2 ∧ s.stage.lagSlice = some 2) ∧
      ((s.leaveStarts c).share.postOwed = true → s.timer.sliceIndex = 2 ∧ s.share.postSlice = some 2) ∧
      s.leaveStarts c = s.oweStarts (s.leaveStarts c).stage.startOwed (s.leaveStarts c).share.postOwed := by
  refine ⟨fun h => ?_, fun h => ?_, rfl⟩ <;> simp [State.leaveStarts, State.oweStarts] at h <;> exact ⟨h.1, h.2.1⟩

end Sys2Proof.Machine
end

