-- ==== Sys2Proof/Laws/Line.lean ====
section
/-! SUPPORT. What the line engine's operations do to the outbox, the sender and the counters, and what forming a claim
does. -/

namespace Sys2Proof.Machine

/-- Two parts in an open order: one of the two orders, after the choice. -/
theorem inAnyOrder_pair (f g : State → State) (s : State) :
    inAnyOrder [f, g] s = g (f s.choose.2) ∨ inAnyOrder [f, g] s = f (g s.choose.2) := by
  unfold inAnyOrder runIn
  simp only [arrange, List.length_nil, List.length_cons]
  rcases Nat.mod_two_eq_zero_or_one s.choose.1 with h | h
  · left; simp [h, Nat.mod_one, insertAt, runAll]
  · right; simp [h, Nat.mod_one, insertAt, runAll]

@[simp] theorem Outbox.get_set (o : Outbox) (a b : Slot) (f : Option Queued) :
    (o.set a f).get b = if a = b then f else o.get b := by cases a <;> cases b <;> rfl

@[simp] theorem Outbox.isEmpty_iff (o : Outbox) : o.isEmpty = true ↔ o.mark = none ∧ o.claim = none ∧ o.reply = none := by
  simp [Outbox.isEmpty, and_assoc]

theorem State.setSender_line (x : Sender) (s : State) : (s.setSender x).line = { s.line with sender := x } := rfl

theorem State.startWait_line (m : Nat) (s : State) :
    (s.startWait m).line = { s.line with prng := prngNext s.line.prng, sender := .waiting (s.draw m).1 0 } := by
  simp only [State.startWait, State.draw, State.setSender]

/-- Placing a frame changes the slot, the sender and the generator alone. -/
theorem State.placeFrame_line (slot : Slot) (p : List Byte) (s : State) :
    ∃ x g, (s.placeFrame slot p).line =
      { s.line with outbox := s.line.outbox.set slot (some ⟨p, 0⟩), sender := x, prng := g } := by
  simp only [State.placeFrame]
  split
  · exact ⟨_, _, rfl⟩
  · exact ⟨_, _, rfl⟩
  · split <;> exact ⟨_, _, rfl⟩

/-- A sender that sends goes on sending the same attempt, marked replaced if the frame takes its slot. -/
theorem State.placeFrame_sending (slot : Slot) (p : List Byte) (s : State) (a : Attempt) (h : s.line.sender = .sending a) :
    (s.placeFrame slot p).line.sender = .sending (if a.slot = slot then { a with replaced := true } else a) := by
  simp only [State.placeFrame, h]
  split
  · rename_i h; simp [h, State.setSender]
  · simp [State.setSlot, h]

/-- An IDLE sender waits a first-attempt backoff, the draw of the next advance (R156, R163). -/
theorem State.placeFrame_idle (slot : Slot) (p : List Byte) (s : State) (h : s.line.sender = .idle) :
    (s.placeFrame slot p).line = { s.line with
      outbox := s.line.outbox.set slot (some ⟨p, 0⟩), prng := prngNext s.line.prng
      sender := .waiting (prngValue 16 (prngNext s.line.prng)) 0 } := by
  simp only [State.placeFrame, h]; rfl

/-- A wait under way stands. -/
theorem State.placeFrame_waiting (slot : Slot) (p : List Byte) (s : State) {b w : Nat} (h : s.line.sender = .waiting b w) :
    (s.placeFrame slot p).line = { s.line with outbox := s.line.outbox.set slot (some ⟨p, 0⟩) } := by
  unfold State.placeFrame; split
  · rename_i e; rw [h] at e; cases e
  · rfl
  · rename_i e; rw [h] at e; cases e

@[simp] theorem State.placeFrame_isSending (slot : Slot) (p : List Byte) (s : State) :
    (s.placeFrame slot p).isSending = s.isSending := by
  simp only [State.placeFrame, State.isSending]
  cases h : s.line.sender with
  | idle => simp [State.startWait, State.setSender]
  | waiting b w => simp [State.setSlot, h]
  | sending a => by_cases e : a.slot = slot <;> simp [e, State.setSender, State.setSlot, h]

theorem State.placeFrame_outbox (slot : Slot) (p : List Byte) (s : State) :
    (s.placeFrame slot p).line.outbox = s.line.outbox.set slot (some ⟨p, 0⟩) := by
  obtain ⟨_, _, h⟩ := s.placeFrame_line slot p; rw [h]

@[simp] theorem State.placeFrame_counters (slot : Slot) (p : List Byte) (s : State) :
    (s.placeFrame slot p).line.counters = s.line.counters := by
  obtain ⟨_, _, h⟩ := s.placeFrame_line slot p; rw [h]

@[simp] theorem State.placeFrame_receiver (slot : Slot) (p : List Byte) (s : State) :
    (s.placeFrame slot p).line.receiver = s.line.receiver := by
  obtain ⟨_, _, h⟩ := s.placeFrame_line slot p; rw [h]

/-- Taking a frame out changes the slot and the sender alone. -/
theorem State.removeFrame_line (slot : Slot) (s : State) :
    ∃ x, (s.removeFrame slot).line = { s.line with outbox := s.line.outbox.set slot none, sender := x } := by
  simp only [State.removeFrame]
  split
  · split <;> exact ⟨_, rfl⟩
  · exact ⟨_, rfl⟩
  · exact ⟨_, rfl⟩

/-- A claim formed is recorded with the next sequence and queued. -/
theorem State.formClaim_spec (s : State) (h : s.stand.standing.onLine = true) :
    s.formClaim.share = { s.share with ownClaim := some s.claimNow, sequence := (s.share.sequence + 1) % 256 } ∧
      s.formClaim.line.outbox = { s.line.outbox with claim := some ⟨s.claimNow.payload, 0⟩ } := by
  unfold State.formClaim
  rw [if_pos h]
  refine ⟨by simp; rfl, ?_⟩
  rw [State.placeFrame_outbox]; rfl

/-- On the line a claim formed does to the line engine what placing its payload does. -/
theorem State.formClaim_line (s : State) (h : s.stand.standing.onLine = true) :
    s.formClaim.line = (s.placeFrame .claim s.claimNow.payload).line := by
  unfold State.formClaim
  rw [if_pos h]
  simp only [State.placeFrame]
  cases hs : s.line.sender with
  | idle => rfl
  | waiting b w => rfl
  | sending a => by_cases e : a.slot = .claim <;> simp [e, State.setSender, State.setSlot]

/-- Off the line no claim is formed. -/
theorem State.formClaim_off (s : State) (h : s.stand.standing.onLine = false) : s.formClaim = s := by
  unfold State.formClaim; rw [h]; rfl

@[simp] theorem State.formClaim_counters (s : State) : s.formClaim.line.counters = s.line.counters := by
  unfold State.formClaim; split
  · simp
  · rfl

@[simp] theorem State.formClaim_receiver (s : State) : s.formClaim.line.receiver = s.line.receiver := by
  unfold State.formClaim; split
  · simp
  · rfl

/-- Forming a claim leaves what is heard of the line: the quiet timer and the active mark. -/
theorem State.formClaim_hearing (s : State) :
    s.formClaim.line.quietTimer = s.line.quietTimer ∧ s.formClaim.line.lineActive = s.line.lineActive := by
  cases h : s.stand.standing.onLine
  · rw [s.formClaim_off h]; exact ⟨rfl, rfl⟩
  · obtain ⟨_, _, e⟩ := s.placeFrame_line .claim s.claimNow.payload
    rw [s.formClaim_line h, e]; exact ⟨rfl, rfl⟩

@[simp] theorem State.formClaim_isSending (s : State) : s.formClaim.isSending = s.isSending := by
  unfold State.formClaim; split
  · simp; rfl
  · rfl

/-- Only the CLAIM slot is touched by forming a claim. -/
theorem State.formClaim_outbox (s : State) :
    ∃ c, s.formClaim.line.outbox = { s.line.outbox with claim := c } := by
  cases h : s.stand.standing.onLine
  · rw [s.formClaim_off h]; exact ⟨_, rfl⟩
  · exact ⟨_, (s.formClaim_spec h).2⟩

@[simp] theorem State.formClaim_allotment (s : State) : s.formClaim.share.allotment = s.share.allotment := by
  cases h : s.stand.standing.onLine
  · rw [s.formClaim_off h]
  · rw [(s.formClaim_spec h).1]

@[simp] theorem State.formClaim_postSlice (s : State) : s.formClaim.share.postSlice = s.share.postSlice := by
  cases h : s.stand.standing.onLine
  · rw [s.formClaim_off h]
  · rw [(s.formClaim_spec h).1]

theorem prngValue_lt (m : Nat) (x : BitVec 16) (h : 0 < m) : prngValue m x < m := by
  unfold prngValue
  rw [Nat.div_lt_iff_lt_mul (by omega), Nat.mul_comm]
  exact Nat.mul_lt_mul_of_pos_left x.isLt h

/-- The post slice drawn lies in 1..B−3 (R57). -/
theorem State.drawPostSlice_spec (s : State) (h : 8 ≤ s.cfg.roundDiv) :
    ∃ p, s.drawPostSlice.share = { s.share with postSlice := some p, postOwed := false } ∧ 1 ≤ p ∧ p + 3 ≤ s.cfg.roundDiv := by
  refine ⟨_, rfl, by omega, ?_⟩
  have := prngValue_lt (s.cfg.roundDiv - 3) (prngNext s.line.prng) (by omega)
  simp only [State.draw]; omega

/-- The draw of the post slice: the generator advances once, and the value is of the advanced state (R163). -/
theorem State.drawPostSlice_draw (s : State) :
    s.drawPostSlice.share.postSlice = some (prngValue (s.cfg.roundDiv - 3) (prngNext s.line.prng) + 1) ∧
      s.drawPostSlice.line = { s.line with prng := prngNext s.line.prng } := ⟨rfl, rfl⟩

@[simp] theorem State.drawPostSlice_outbox (s : State) : s.drawPostSlice.line.outbox = s.line.outbox := by
  simp only [State.drawPostSlice, State.draw]
@[simp] theorem State.drawPostSlice_counters (s : State) : s.drawPostSlice.line.counters = s.line.counters := by
  simp only [State.drawPostSlice, State.draw]

/-- An event while an attempt is under way. -/
theorem State.ofAttemptOr_sending {s : State} {a : Attempt} (h : s.line.sender = .sending a) (f : Attempt → State → State)
    (g : State → State) : s.ofAttemptOr f g = f a s := by simp [State.ofAttemptOr, h]

/-- The same event with no attempt under way. -/
theorem State.ofAttemptOr_hearing {s : State} (h : s.isSending = false) (f : Attempt → State → State) (g : State → State) :
    s.ofAttemptOr f g = g s := by
  unfold State.isSending at h
  unfold State.ofAttemptOr
  split at h <;> simp_all

/-- A character read back that matches, and is not the last. -/
theorem State.readBack_match {c : Byte} {a : Attempt} (s : State) (h : a.bytes[a.heard]? = some c)
    (hl : a.heard + 1 ≠ a.bytes.length) :
    s.readBack c a = s.characterEnds.setSender (.sending { a with heard := a.heard + 1 }) := by
  unfold State.readBack; rw [if_pos h, if_neg hl]

/-- The last character read back, matching: the frame is sent in full. -/
theorem State.readBack_last {c : Byte} {a : Attempt} (s : State) (h : a.bytes[a.heard]? = some c)
    (hl : a.heard + 1 = a.bytes.length) : s.readBack c a = s.frameSent a := by
  unfold State.readBack; rw [if_pos h, if_pos hl]

/-- A character read back that differs is a collision. -/
theorem State.readBack_differs {c : Byte} {a : Attempt} (s : State) (h : a.bytes[a.heard]? ≠ some c) :
    s.readBack c a = s.frameCollides a := by
  unfold State.readBack; rw [if_neg h]

end Sys2Proof.Machine
end

