-- ==== Sys2Proof/Laws/Session.lean ====
section
/-! SUPPORT. What the operations on the session, the draw permission and M_eff do: one lemma each, cited in place of
unfolding them. -/

namespace Sys2Proof.Machine

/-! ### The demand word and draw permission -/

/-- The word due has been sent; nothing else of stage control changes but the driven mark. -/
theorem State.sendIfChanged_stage (s : State) :
    ∃ b, s.sendIfChanged.stage = { s.stage with wordSent := s.stage.word, sliceDriven := b } := by
  unfold State.sendIfChanged; split
  · rename_i h; exact ⟨_, by rw [h]⟩
  · exact ⟨_, rfl⟩

/-- A word sent keeps the slice driven only with ENABLE on and the word above 0 (R121). -/
theorem State.sendWord_driven (s : State) :
    s.sendWord.stage.sliceDriven = (s.stage.sliceDriven && decide (0 < s.stage.word) && s.stage.enable) := rfl

/-- Where a driven slice has a word above 0 sent, it still has ENABLE on and a word above 0 sent after this (R121). -/
theorem State.sendIfChanged_driven (s : State) (h : s.stage.sliceDriven = true → 0 < s.stage.wordSent)
    (hd : s.sendIfChanged.stage.sliceDriven = true) :
    s.stage.sliceDriven = true ∧ s.sendIfChanged.stage.enable = true ∧ 0 < s.sendIfChanged.stage.wordSent := by
  unfold State.sendIfChanged at hd ⊢
  split at hd
  · rename_i e
    simp only [Bool.and_eq_true] at hd
    rw [if_pos e]
    exact ⟨hd.1, hd.2, h hd.1⟩
  · rename_i e
    rw [State.sendWord_driven] at hd
    simp only [Bool.and_eq_true, decide_eq_true_eq] at hd
    rw [if_neg e]
    exact ⟨hd.1.1, hd.2, hd.1.2⟩

theorem State.sendIfChanged_link (s : State) : s.sendIfChanged.out.link = s.out.link := by
  unfold State.sendIfChanged; split <;> rfl

theorem State.sendIfChanged_line_out (s : State) : s.sendIfChanged.out.line = s.out.line := by
  unfold State.sendIfChanged; split <;> rfl

/-- The words sent so far stay; at most one is added. -/
theorem State.sendIfChanged_words (s : State) : ∃ ws, s.sendIfChanged.out.stage = s.out.stage ++ ws := by
  unfold State.sendIfChanged; split
  · exact ⟨[], by simp⟩
  · exact ⟨_, rfl⟩

theorem State.permission_congr {s t : State} (h1 : t.session = s.session) (h2 : t.pins.permit = s.pins.permit)
    (h3 : t.stand.standing = s.stand.standing) : t.permission = s.permission := by
  unfold State.permission State.phase; rw [h1, h2, h3]

/-- Permission evaluated: ENABLE is the permission, and without it nothing is applied or waits (R112, R113). -/
theorem State.evalPermission_stage (s : State) :
    ∃ b g, s.evalPermission.stage = { g with wordSent := g.word, sliceDriven := b } ∧
      g = if s.permission then { s.stage with enable := true }
        else { s.stage with enable := false, applied := 0, pendingIncrease := none } := by
  unfold State.evalPermission
  obtain ⟨b, h⟩ := State.sendIfChanged_stage (if s.permission then { s with stage := { s.stage with enable := true } }
   else { s with stage := { s.stage with enable := false, applied := 0, pendingIncrease := none } })
  refine ⟨b, _, h, ?_⟩
  split <;> rfl

theorem State.evalPermission_on (s : State) (h : s.permission = true) :
    s.evalPermission.stage.enable = true ∧ s.evalPermission.stage.applied = s.stage.applied ∧
      s.evalPermission.stage.pendingIncrease = s.stage.pendingIncrease := by
  obtain ⟨b, g, h1, h2⟩ := s.evalPermission_stage; rw [h1, h2, h]; exact ⟨rfl, rfl, rfl⟩

theorem State.evalPermission_off (s : State) (h : s.permission = false) :
    s.evalPermission.stage.enable = false ∧ s.evalPermission.stage.applied = 0 ∧
      s.evalPermission.stage.pendingIncrease = none ∧ s.evalPermission.stage.wordSent = 0 := by
  obtain ⟨b, g, h1, h2⟩ := s.evalPermission_stage; rw [h1, h2, h]
  exact ⟨rfl, rfl, rfl, by simp [StageControl.word]⟩

/-- A word sent where it changes, after a change of the applied power, the waiting increase and ENABLE alone. -/
theorem State.sendIfChanged_sendsDue {s t : State} (ho : t.out = s.out)
    (hg : t.stage = { s.stage with
      applied := t.stage.applied, pendingIncrease := t.stage.pendingIncrease, enable := t.stage.enable }) :
    s.SendsDue t.sendIfChanged := by
  have hw : t.stage.wordSent = s.stage.wordSent := by rw [hg]
  have hd : t.stage.sliceDriven = s.stage.sliceDriven := by rw [hg]
  have hc : t.stage.cap = s.stage.cap := by rw [hg]
  have hl : t.stage.lagSlice = s.stage.lagSlice := by rw [hg]
  have hs : t.stage.startOwed = s.stage.startOwed := by rw [hg]
  clear hg
  unfold State.sendIfChanged
  split
  · rename_i e
    exact ⟨hc, hl, hs, by rw [← hc]; exact e.symm, by simp [ho, hw], by simp [hd, hw]⟩
  · rename_i e
    refine ⟨hc, hl, hs, by rw [← hc]; rfl, ?_, ?_⟩
    · simp only [State.sendWord, ho]; rw [if_neg (by rw [← hw]; exact e)]
    · simp only [State.sendWord, hd, Bool.and_eq_true, decide_eq_true_eq]
      constructor
      · rintro ⟨⟨h1, h2⟩, h3⟩; exact ⟨h1, h3, .inr h2⟩
      · rintro ⟨h1, h3, h2⟩; exact ⟨⟨h1, h2.resolve_left (by rw [← hw]; exact e)⟩, h3⟩

theorem State.evalPermission_sendsDue (s : State) : s.SendsDue s.evalPermission := by
  unfold State.evalPermission; split <;> exact State.sendIfChanged_sendsDue rfl rfl

@[simp] theorem State.evalPermission_cap (s : State) : s.evalPermission.stage.cap = s.stage.cap := by
  obtain ⟨b, g, h1, h2⟩ := s.evalPermission_stage; rw [h1, h2]; split <;> rfl

@[simp] theorem State.evalPermission_lagSlice (s : State) : s.evalPermission.stage.lagSlice = s.stage.lagSlice := by
  obtain ⟨b, g, h1, h2⟩ := s.evalPermission_stage; rw [h1, h2]; split <;> rfl

@[simp] theorem State.evalPermission_link (s : State) : s.evalPermission.out.link = s.out.link := by
  unfold State.evalPermission; rw [State.sendIfChanged_link]; split <;> rfl

@[simp] theorem State.evalPermission_line_out (s : State) : s.evalPermission.out.line = s.out.line := by
  unfold State.evalPermission; rw [State.sendIfChanged_line_out]; split <;> rfl

theorem State.evalPermission_words (s : State) : ∃ ws, s.evalPermission.out.stage = s.out.stage ++ ws := by
  unfold State.evalPermission
  obtain ⟨ws, h⟩ := State.sendIfChanged_words (if s.permission then { s with stage := { s.stage with enable := true } }
   else { s with stage := { s.stage with enable := false, applied := 0, pendingIncrease := none } })
  exact ⟨ws, by rw [h]; split <;> rfl⟩

@[simp] theorem State.evalPermission_permission (s : State) : s.evalPermission.permission = s.permission :=
  State.permission_congr (by simp) (by simp) (by simp)

/-! ### M_eff -/

/-- M_eff is formed, and the applied power clamped to it; the rest of stage control stands (R117, R145). -/
theorem State.refreshMEff_spec (s : State) :
    ∃ b w, s.refreshMEff.thermal = { s.thermal with mEff := s.formedMEff } ∧
      s.refreshMEff.stage =
        { s.stage with applied := min s.stage.applied s.formedMEff, wordSent := w, sliceDriven := b } ∧
      s.refreshMEff.out.link = s.out.link ∧ s.refreshMEff.out.line = s.out.line ∧
      ∃ ws, s.refreshMEff.out.stage = s.out.stage ++ ws := by
  unfold State.refreshMEff State.clampApplied
  obtain ⟨b, h⟩ := State.sendIfChanged_stage ({ s with
    thermal := { s.thermal with mEff := s.formedMEff }
    stage := { s.stage with applied := min s.stage.applied s.formedMEff } } : State)
  obtain ⟨ws, h'⟩ := State.sendIfChanged_words ({ s with
    thermal := { s.thermal with mEff := s.formedMEff }
    stage := { s.stage with applied := min s.stage.applied s.formedMEff } } : State)
  exact ⟨b, _, by simp, h, by rw [State.sendIfChanged_link], by rw [State.sendIfChanged_line_out], ws, h'⟩

theorem State.refreshMEff_sendsDue (s : State) : s.SendsDue s.refreshMEff := by
  unfold State.refreshMEff State.clampApplied; exact State.sendIfChanged_sendsDue rfl rfl

theorem State.formedMEff_congr {s t : State} (h1 : t.session = s.session) (h2 : t.thermal.hot = s.thermal.hot)
    (h3 : t.settings = s.settings) : t.formedMEff = s.formedMEff := by
  unfold State.formedMEff State.cfg; rw [h1, h2, h3]

theorem State.formedMEff_le (s : State) : s.formedMEff ≤ s.cfg.stageRating := by
  have hd : ∀ h ts te : Int, ∀ m0, deratedMax h ts te m0 ≤ m0 := by
    intro h ts te m0
    unfold deratedMax
    split
    · exact le_refl _
    · split
      · refine Nat.div_le_of_le_mul ?_
        rw [Nat.mul_comm]; exact Nat.mul_le_mul_right _ (by omega)
      · omega
  unfold State.formedMEff
  split
  · rename_i x h _ _
    have := hd h s.cfg.derateStart s.cfg.derateEnd (min x.vanMax s.cfg.stageRating)
    unfold flooredMax; split <;> omega
  · omega
  · omega

/-! ### Changes of the session -/

/-- A change of the session: one PHASE record if the phase or the set changed, and a claim on entry to a phase that
re-forms it (R59, R74). -/
theorem State.putSession_spec (s : State) (x : Option Session) :
    ∃ u : State, u = { s with session := x, out := { s.out with link := u.out.link } } ∧
      u.out.link = (if u.phase = s.phase ∧ u.holds = s.holds then s.out.link else s.out.link ++ [u.phaseRecord]) ∧
      s.putSession x = if u.phase ≠ s.phase ∧ u.phase.reforms = true then u.formClaim else u := by
  simp only [State.putSession]
  by_cases h : ({ s with session := x } : State).phase = s.phase ∧ ({ s with session := x } : State).holds = s.holds
  · rw [if_pos h]
    exact ⟨{ s with session := x }, rfl, by rw [if_pos h], rfl⟩
  · rw [if_neg h]
    exact ⟨({ s with session := x } : State).sendPhase, rfl, by
      rw [if_neg (by exact h)]; rfl, rfl⟩

@[simp] theorem State.putSession_session (s : State) (x : Option Session) : (s.putSession x).session = x := by
  simp only [State.putSession]; split <;> split <;> simp [State.sendPhase]

@[simp] theorem State.changeSession_session (s : State) (x : Option Session) : (s.changeSession x).session = x := by
  simp [State.changeSession]

@[simp] theorem State.putSession_allotment (s : State) (x : Option Session) :
    (s.putSession x).share.allotment = s.share.allotment := by
  simp only [State.putSession]; split <;> split <;> simp [State.sendPhase]

@[simp] theorem State.changeSession_allotment (s : State) (x : Option Session) :
    (s.changeSession x).share.allotment = s.share.allotment := by simp [State.changeSession]

@[simp] theorem State.putSession_postSlice (s : State) (x : Option Session) :
    (s.putSession x).share.postSlice = s.share.postSlice := by
  simp only [State.putSession]; split <;> split <;> simp [State.sendPhase]

@[simp] theorem State.changeSession_postSlice (s : State) (x : Option Session) :
    (s.changeSession x).share.postSlice = s.share.postSlice := by simp [State.changeSession]

@[simp] theorem State.putSession_counters (s : State) (x : Option Session) :
    (s.putSession x).line.counters = s.line.counters := by
  simp only [State.putSession]; split <;> split <;> simp [State.sendPhase]

@[simp] theorem State.changeSession_counters (s : State) (x : Option Session) :
    (s.changeSession x).line.counters = s.line.counters := by simp [State.changeSession]

/-- Only the CLAIM slot of the outbox can be touched by a change of the session. -/
theorem State.putSession_outbox (s : State) (x : Option Session) :
    ∃ c, (s.putSession x).line.outbox = { s.line.outbox with claim := c } := by
  obtain ⟨u, h1, -, h2⟩ := s.putSession_spec x
  rw [h2]
  have hl : u.line = s.line := by rw [h1]
  split
  · obtain ⟨c, h⟩ := u.formClaim_outbox; rw [h, hl]; exact ⟨_, rfl⟩
  · rw [hl]; exact ⟨_, rfl⟩

theorem State.changeSession_outbox (s : State) (x : Option Session) :
    ∃ c, (s.changeSession x).line.outbox = { s.line.outbox with claim := c } := by
  simpa [State.changeSession] using s.putSession_outbox x

/-- The demand words and frames sent so far are not touched by forming a record or a claim. -/
@[simp] theorem State.putSession_words (s : State) (x : Option Session) :
    (s.putSession x).out.stage = s.out.stage ∧ (s.putSession x).out.line = s.out.line := by
  simp only [State.putSession]; split <;> split <;> simp [State.sendPhase, State.sendLink]

/-- A change that keeps the phase forms no claim. -/
theorem State.putSession_share_same (s : State) (x : Option Session)
    (h : ({ s with session := x } : State).phase = s.phase) :
    (s.putSession x).share = s.share ∧ (s.putSession x).line = s.line := by
  obtain ⟨u, h1, -, h2⟩ := s.putSession_spec x
  have hp : u.phase = s.phase := by rw [h1]; exact h
  rw [h2, if_neg (fun hc => hc.1 hp), h1]
  exact ⟨rfl, rfl⟩

/-- A hold reason added to a session: HELD unless in FAULT (R91). -/
theorem State.addHold_session (r : HoldReason) (s : State) (x : Session) (h : s.session = some x) :
    (s.addHold r).session = some (if x.holds.has r then x
      else { x with holds := x.holds.put true r, phase := x.phase.afterHold }) := by
  unfold State.addHold; rw [h]; simp only []; split
  · exact h
  · simp

theorem State.addHold_none (r : HoldReason) (s : State) (h : s.session = none) : s.addHold r = s := by
  unfold State.addHold; rw [h]

/-- A hold reason removed; the phase stands (R92). -/
theorem State.removeHold_session (r : HoldReason) (s : State) (x : Session) (h : s.session = some x) :
    (s.removeHold r).session = some { x with holds := x.holds.put false r } := by
  unfold State.removeHold; rw [h]; simp only []; split
  · simp
  · rename_i hr
    rw [h]
    have : x.holds.put false r = x.holds := by
      cases hx : x.holds; cases r <;> simp_all [HoldSet.has, HoldSet.put]
    rw [this]

theorem State.removeHold_none (r : HoldReason) (s : State) (h : s.session = none) : s.removeHold r = s := by
  unfold State.removeHold; rw [h]

/-- TOPPED at once where the target is reached (R94). -/
theorem State.topIfReached_session (s : State) (x : Session) (h : s.session = some x) :
    s.topIfReached.session = some (if x.phase.toppable = true ∧ x.target ≤ s.runningWh x then { x with phase := .topped } else x) := by
  unfold State.topIfReached; rw [h]; simp only []; split
  · simp
  · exact h

theorem State.topIfReached_none (s : State) (h : s.session = none) : s.topIfReached = s := by
  unfold State.topIfReached; rw [h]

@[simp] theorem State.addHold_allotment (r : HoldReason) (s : State) : (s.addHold r).share.allotment = s.share.allotment := by
  unfold State.addHold; split
  · rfl
  · split <;> simp

@[simp] theorem State.removeHold_allotment (r : HoldReason) (s : State) :
    (s.removeHold r).share.allotment = s.share.allotment := by
  unfold State.removeHold; split
  · rfl
  · split <;> simp

@[simp] theorem State.topIfReached_allotment (s : State) : s.topIfReached.share.allotment = s.share.allotment := by
  unfold State.topIfReached; split
  · rfl
  · split <;> simp

@[simp] theorem State.standingTakes_allotment (b : Nat) (s : State) :
    (s.standingTakes b).share.allotment = s.share.allotment := by
  simp only [State.standingTakes]; split
  · split
    · rfl
    · split
      · simp
      · simp
      · rfl
  · rfl

/-! ### What the larger operations never touch -/

theorem State.restart_frame (s : State) :
    ∃ l rd st ti u p sh se no g m th li i o, s.restart =
      { s with last := l, storeRead := rd, settings := st, timer := ti, stand := u, peers := p, share := sh
               session := se, notices := no, stage := g, meter := m, thermal := th, line := li, inspect := i
               out := o } := by
  obtain ⟨l, h⟩ := State.writeLast_frame .restart s
  unfold State.restart; rw [h]
  exact ⟨_, _, _, _, _, _, _, _, _, _, _, _, _, _, _, rfl⟩

theorem State.applyNotice_frame (van d : Nat) (t : Option Nat) (s : State) :
    ∃ se no o sh li g, s.applyNotice van d t =
      { s with session := se, notices := no, out := o, share := sh, line := li, stage := g } := by
  unfold State.applyNotice
  split
  · split
    · rename_i x _ _
      obtain ⟨_, _, _, _, _, h⟩ :=
        State.topIfReached_frame ({ s with session := some (x.noticed s.timer.clock d t) } : State)
      rw [h]; exact ⟨_, _, _, _, _, _, rfl⟩
    · exact ⟨_, _, _, _, _, _, rfl⟩
  · exact ⟨_, _, _, _, _, _, rfl⟩

theorem State.permitFalls_frame (s : State) :
    ∃ pi se o sh li g, s.permitFalls =
      { s with pins := { s.pins with permit := pi }, session := se, out := o, share := sh, line := li, stage := g } := by
  unfold State.permitFalls
  split
  · obtain ⟨_, _, _, _, _, h⟩ := State.addHold_frame .permit ({ s with pins := { s.pins with permit := false } } : State)
    obtain ⟨_, _, h'⟩ := State.evalPermission_frame (({ s with pins := { s.pins with permit := false } } : State).addHold .permit)
    rw [h', h]; exact ⟨_, _, _, _, _, _, rfl⟩
  · exact ⟨_, _, _, _, _, _, rfl⟩

/-- A removal never re-forms the claim. -/
theorem State.removeHold_still (r : HoldReason) (s : State) :
    ∃ se o g, s.removeHold r = { s with session := se, out := o, stage := g } := by
  unfold State.removeHold
  split
  · exact ⟨_, _, _, rfl⟩
  · split
    · rename_i x hx hr
      simp only [State.changeSession]
      obtain ⟨_, _, h⟩ := State.evalPermission_frame (s.putSession (some { x with holds := x.holds.put false r }))
      have hp : ({ s with session := some { x with holds := x.holds.put false r } } : State).phase = s.phase := by
        simp [State.phase, hx]
      obtain ⟨h1, h2⟩ := s.putSession_share_same _ hp
      obtain ⟨_, _, _, _, h3⟩ := State.putSession_frame (some { x with holds := x.holds.put false r }) s
      rw [h3] at h1 h2
      simp only at h1 h2
      rw [h, h3, h1, h2]; exact ⟨_, _, _, rfl⟩
    · exact ⟨_, _, _, rfl⟩

theorem State.permitRises_frame (s : State) :
    ∃ pi se o g, s.permitRises = { s with pins := { s.pins with permit := pi }, session := se, out := o, stage := g } := by
  unfold State.permitRises
  split
  · exact ⟨_, _, _, _, rfl⟩
  · obtain ⟨_, _, _, h⟩ := State.removeHold_still .permit ({ s with pins := { s.pins with permit := true } } : State)
    obtain ⟨_, _, h'⟩ := State.evalPermission_frame (({ s with pins := { s.pins with permit := true } } : State).removeHold .permit)
    rw [h', h]; exact ⟨_, _, _, _, rfl⟩

theorem State.openSession_frame (p : PlugFields) (r : AckResult) (s : State) :
    ∃ la no se o g th, s.openSession p r =
      { s with last := la, notices := no, session := se, out := o, stage := g, thermal := th } := by
  simp only [State.openSession, State.ack, State.sendPhase, State.sendLink]
  obtain ⟨l, h⟩ := State.writeLast_frame .superseded s
  simp only [h, State.consumeNotice]
  generalize hu : ({ s with last := l, session := some (s.newSession p), notices := _, out := _ } : State) = u
  obtain ⟨_, _, h1⟩ := u.evalPermission_frame
  obtain ⟨_, _, _, h2⟩ := u.evalPermission.refreshMEff_frame
  rw [h2, h1, ← hu]
  exact ⟨_, _, _, _, _, _, rfl⟩

theorem State.taperTaken_frame (n : Nat) (s : State) :
    ∃ se o g th, s.taperTaken n = { s with session := se, out := o, stage := g, thermal := th } := by
  unfold State.taperTaken
  split
  · exact ⟨_, _, _, _, rfl⟩
  · rename_i x _
    obtain ⟨_, _, _, h⟩ := State.refreshMEff_frame (({ s with session := some { x with vanMax := min n s.cfg.stageRating } } : State).ack .taper
      (if min n s.cfg.stageRating = n then .taken else .clamped))
    rw [h]; exact ⟨_, _, _, _, rfl⟩

theorem State.unplugTaken_frame (s : State) :
    ∃ la se o sh li g th, s.unplugTaken =
      { s with last := la, session := se, out := o, share := sh, line := li, stage := g, thermal := th } := by
  unfold State.unplugTaken
  split
  · exact ⟨_, _, _, _, _, _, _, rfl⟩
  · obtain ⟨l, h⟩ := State.writeLast_frame .unplug s
    rw [h]
    generalize hu : ({ s with last := l } : State).ack .unplug .taken = u
    obtain ⟨_, _, _, _, _, h1⟩ := State.changeSession_frame none u
    obtain ⟨_, _, _, h2⟩ := (u.changeSession none).refreshMEff_frame
    rw [h2, h1, ← hu]
    exact ⟨_, _, _, _, _, _, _, rfl⟩

/-- A claim asks for no energy, or for the remaining energy. -/
theorem State.claimEnergy_cases {s : State} {x : Session} : s.claimEnergy x = 0 ∨ s.claimEnergy x = s.remaining x := by
  unfold State.claimEnergy
  split
  · exact .inl rfl
  · exact .inr rfl

/-- In every other case it asks for the remaining energy. -/
theorem State.claimEnergy_open {s : State} {x : Session} (h : x.phase ≠ .topped ∨ s.runningWh x < x.target) :
    s.claimEnergy x = s.remaining x := by
  unfold State.claimEnergy
  rw [if_neg]
  rintro ⟨h1, h2, _⟩
  exact h.elim (fun h => h h1) fun h => absurd h2 (Nat.not_le.2 h)

end Sys2Proof.Machine
end

