-- ==== Sys2Proof/Laws/Frames.lean ====
section
/-! SUPPORT. Frames heard: what the standing unit, the receiver, the peer table and the clock do with one, and what
comes after an attempt. -/

namespace Sys2Proof.Machine

/-- The standing unit stays on or off the line. -/
theorem State.standingTakes_onLine (s : State) (b : Nat) : (s.standingTakes b).onLine = s.onLine := by
  simp only [State.standingTakes, State.onLine]
  split
  · rename_i h; simp at h
    split
    · simp [StandingUnit.hears]
    · split <;> simp_all [Standing.onLine, State.enterListening, StandingUnit.hears]
  · rfl

/-- Of the timer only the aligned indicator can change. -/
theorem State.standingTakes_timer (s : State) (b : Nat) :
    ∃ al, (s.standingTakes b).timer = { s.timer with aligned := al } := by
  simp only [State.standingTakes]; split
  · split
    · exact ⟨_, rfl⟩
    · split
      · exact ⟨_, by simp; rfl⟩
      · exact ⟨_, by simp [State.enterListening]; rfl⟩
      · exact ⟨_, rfl⟩
  · exact ⟨_, rfl⟩

/-- In STARTING and SETUP nothing is taken. -/
theorem State.standingTakes_offLine {s : State} (h : s.onLine = false) (b : Nat) : s.standingTakes b = s := by
  unfold State.standingTakes; rw [if_neg]
  have : s.stand.standing.onLine = false := h
  simp [this]

/-- A bay outside 1..N is not taken. -/
theorem State.standingTakes_outside {s : State} {b : Nat} (h : b = 0 ∨ s.cfg.n < b) : s.standingTakes b = s := by
  unfold State.standingTakes; rw [if_neg]
  simp [State.isStation]; omega

theorem State.standingTakes_unheard {s : State} {b : Nat} (h : s.onLine = false ∨ b = 0 ∨ s.cfg.n < b) :
    s.standingTakes b = s := by
  rcases h with h | h
  · exact State.standingTakes_offLine h b
  · exact State.standingTakes_outside h

/-- The own bay is a clash (R32). -/
theorem State.standingTakes_own {s : State} {b : Nat} (h : s.onLine = true) (h1 : 1 ≤ b) (h2 : b ≤ s.cfg.n)
    (h3 : b = s.cfg.bay) : s.standingTakes b = { s with stand := s.stand.hears true } := by
  unfold State.standingTakes
  have : s.stand.standing.onLine = true := h
  rw [if_pos (by simp [this, State.isStation]; omega)]; simp [h3]

/-- A peer's frame, by the standing (R22, R27, R29). -/
theorem State.standingTakes_peer {s : State} {b : Nat} (h : s.onLine = true) (h1 : 1 ≤ b) (h2 : b ≤ s.cfg.n)
    (h3 : b ≠ s.cfg.bay) :
    s.standingTakes b = match s.stand.standing with
      | .isolated => ({ s with stand := { s.stand.hears false with
          standing := .rejoining, silentStreak := 0, rejoinCount := 0 } } : State).formClaim.evalPermission
      | .cutoff => ({ s with stand := s.stand.hears false } : State).enterListening.formClaim.evalPermission
      | _ => { s with stand := s.stand.hears false } := by
  unfold State.standingTakes
  have : s.stand.standing.onLine = true := h
  rw [if_pos (by simp [this, State.isStation]; omega)]; simp only [h3, decide_false, Bool.false_eq_true, if_false]
  all_goals cases s.stand.standing <;> rfl

/-- The standing unit afterwards. -/
theorem State.standingTakes_stand (s : State) (b : Nat) : (s.standingTakes b).stand =
    if s.onLine = true ∧ 1 ≤ b ∧ b ≤ s.cfg.n then
      if b = s.cfg.bay then s.stand.hears true
      else match s.stand.standing with
      | .isolated => { s.stand.hears false with standing := .rejoining, silentStreak := 0, rejoinCount := 0 }
      | .cutoff => (({ s with stand := s.stand.hears false } : State).enterListening).stand
      | _ => s.stand.hears false
    else s.stand := by
  split
  · rename_i h; obtain ⟨a, b1, c⟩ := h
    split
    · rename_i e; rw [State.standingTakes_own a b1 c e]
    · rename_i e; rw [State.standingTakes_peer a b1 c e]
      cases hs : s.stand.standing <;> simp
  · rename_i h; rw [State.standingTakes_unheard]
    by_cases ho : s.onLine = true
    · right; by_contra hc; exact h ⟨ho, by omega, by omega⟩
    · left; simpa using ho

/-- The standing unit's part reads the standing unit and the settings alone. -/
theorem State.standingTakes_stand_congr {s t : State} (h1 : t.stand = s.stand) (h2 : t.settings = s.settings) (b : Nat) :
    (t.standingTakes b).stand = (s.standingTakes b).stand := by
  rw [State.standingTakes_stand, State.standingTakes_stand]
  have ho : t.onLine = s.onLine := by unfold State.onLine; rw [h1]
  have hc : t.cfg = s.cfg := by unfold State.cfg; rw [h2]
  rw [ho, hc, h1]
  split
  · split
    · rfl
    · split <;> simp only [State.enterListening]
  · rfl

@[simp] theorem State.standingTakes_counters (s : State) (b : Nat) :
    (s.standingTakes b).line.counters = s.line.counters := by
  by_cases h : s.onLine = false ∨ b = 0 ∨ s.cfg.n < b
  · rw [State.standingTakes_unheard h]
  · push Not at h; obtain ⟨a, b1, c⟩ := h
    have a : s.onLine = true := by simpa using a
    by_cases e : b = s.cfg.bay
    · rw [State.standingTakes_own a (by omega) c e]
    · rw [State.standingTakes_peer a (by omega) c e]; cases hs : s.stand.standing <;> simp [State.enterListening]

/-- Receiver, quiet timer and active mark stand. -/
theorem State.standingTakes_hearing (s : State) (b : Nat) :
    (s.standingTakes b).line.receiver = s.line.receiver ∧ (s.standingTakes b).line.quietTimer = s.line.quietTimer ∧
      (s.standingTakes b).line.lineActive = s.line.lineActive := by
  simp only [State.standingTakes]; split
  · split
    · exact ⟨rfl, rfl, rfl⟩
    · split <;> simp [State.formClaim_hearing, State.enterListening]
  · exact ⟨rfl, rfl, rfl⟩

/-- Only the CLAIM slot can change. -/
theorem State.standingTakes_outbox (s : State) (b : Nat) :
    ∃ c, (s.standingTakes b).line.outbox = { s.line.outbox with claim := c } := by
  have nil : ∃ c, s.line.outbox = { s.line.outbox with claim := c } := ⟨_, rfl⟩
  have form : ∀ t : State, t.line = s.line → ∃ c, t.formClaim.line.outbox = { s.line.outbox with claim := c } := fun t h => by
    rw [← h]; exact t.formClaim_outbox
  by_cases h : s.onLine = false ∨ b = 0 ∨ s.cfg.n < b
  · rw [State.standingTakes_unheard h]; exact nil
  · push Not at h; obtain ⟨a, b1, c⟩ := h
    have a : s.onLine = true := by simpa using a
    by_cases e : b = s.cfg.bay
    · rw [State.standingTakes_own a (by omega) c e]; exact nil
    · rw [State.standingTakes_peer a (by omega) c e]
      cases hs : s.stand.standing <;> simp only [State.evalPermission_line] <;> first
        | exact nil
        | exact form _ rfl

/-- A frame taken is counted, and a foreign one as foreign (R162, R164). -/
theorem State.takeFrame_counters (s : State) (k : FrameKind) (b : Nat) :
    (s.takeFrame k b).line.counters = { s.line.counters with
      framesHeard := min 65535 (s.line.counters.framesHeard + 1)
      foreignFrames := if s.onLine = true ∧ (s.cfg.n < b ∨ (b = 0 ∧ (k = .mark ∨ k = .claim)))
          then min 65535 (s.line.counters.foreignFrames + 1) else s.line.counters.foreignFrames } := by
  have hb : s.isForeign k b = decide (s.onLine = true ∧ (s.cfg.n < b ∨ (b = 0 ∧ (k = .mark ∨ k = .claim)))) := by
    have : s.stand.standing.onLine = s.onLine := rfl
    simp only [State.isForeign, this]
    rw [Bool.eq_iff_iff]; simp
  have e : (s.takeFrame k b).line.counters = { s.line.counters with
    framesHeard := min 65535 (s.line.counters.framesHeard + 1)
    foreignFrames := if s.isForeign k b then min 65535 (s.line.counters.foreignFrames + 1)
      else s.line.counters.foreignFrames } := rfl
  rw [e, hb]
  by_cases hc : s.onLine = true ∧ (s.cfg.n < b ∨ (b = 0 ∧ (k = .mark ∨ k = .claim)))
  · simp [hc]
  · rw [if_neg hc, decide_eq_false hc]; rfl

/-- A frame taken changes the line engine alone, and of it not the outbox. -/
theorem State.takeFrame_spec (s : State) (k : FrameKind) (b : Nat) :
    ∃ w, s.takeFrame k b = w ∧ w = { s with line := w.line } ∧ w.line.outbox = s.line.outbox ∧
      w.line.receiver = .skip true ∧ w.line.sender = s.line.sender.rewait ∧ w.line.counters = { s.line.counters with
      framesHeard := min 65535 (s.line.counters.framesHeard + 1)
      foreignFrames := if s.onLine = true ∧ (s.cfg.n < b ∨ (b = 0 ∧ (k = .mark ∨ k = .claim)))
          then min 65535 (s.line.counters.foreignFrames + 1) else s.line.counters.foreignFrames } :=
  ⟨_, rfl, rfl, rfl, rfl, rfl, State.takeFrame_counters s k b⟩

/-- All that it can change, the timer's part named. -/
theorem State.standingTakes_whole (s : State) (b : Nat) : ∃ al sd sh li g o, s.standingTakes b = { s with
    timer := { s.timer with aligned := al }, stand := sd, share := sh, line := li, stage := g, out := o } := by
  obtain ⟨_, _, _, _, _, _, e⟩ := State.standingTakes_frame b s
  obtain ⟨al, ht⟩ := State.standingTakes_timer s b
  rw [e] at ht ⊢; simp only at ht; rw [ht]; exact ⟨_, _, _, _, _, _, rfl⟩

/-- Without a passage only the standing unit changes. -/
theorem State.standingTakes_standOnly (s : State) (b : Nat)
    (h : s.onLine = true → 1 ≤ b → b ≤ s.cfg.n → b ≠ s.cfg.bay →
      s.stand.standing ≠ .isolated ∧ s.stand.standing ≠ .cutoff) :
    s.standingTakes b = { s with stand := (s.standingTakes b).stand } := by
  by_cases h0 : s.onLine = false ∨ b = 0 ∨ s.cfg.n < b
  · rw [State.standingTakes_unheard h0]
  · push Not at h0; obtain ⟨a, b1, c⟩ := h0
    have a : s.onLine = true := by simpa using a
    by_cases e : b = s.cfg.bay
    · rw [State.standingTakes_own a (by omega) c e]
    · obtain ⟨h1, h2⟩ := h a (by omega) c e
      rw [State.standingTakes_peer a (by omega) c e]
      cases hs : s.stand.standing <;> simp_all

theorem mem_putEntry (e d : PeerEntry) : ∀ l, d ∈ putEntry e l → d = e ∨ d ∈ l
  | [] => by simp [putEntry]
  | x :: l => by
    unfold putEntry; split
    · simp
    · split
      · simp; tauto
      · simp only [List.mem_cons]; rintro (h | h)
        · simp [h]
        · rcases mem_putEntry e d l h with h | h <;> simp [h]

/-- Ascending bay order is kept (R35). -/
theorem putEntry_ordered (e : PeerEntry) : ∀ l : List PeerEntry, l.Pairwise (fun a b => a.bay < b.bay) →
    (putEntry e l).Pairwise (fun a b => a.bay < b.bay)
  | [], _ => by simp [putEntry]
  | x :: l, h => by
    obtain ⟨h1, h2⟩ := List.pairwise_cons.1 h
    unfold putEntry; split
    · rename_i hlt
      refine List.pairwise_cons.2 ⟨?_, h⟩
      intro a ha; rcases List.mem_cons.1 ha with rfl | ha
      · exact hlt
      · exact hlt.trans (h1 a ha)
    · split
      · rename_i he; exact List.pairwise_cons.2 ⟨fun a ha => by rw [he]; exact h1 a ha, h2⟩
      · refine List.pairwise_cons.2 ⟨?_, putEntry_ordered e l h2⟩
        intro a ha; rcases mem_putEntry e a l ha with rfl | ha
        · omega
        · exact h1 a ha

theorem peerEntryOf_bay {b r : Nat} {p : List Byte} {e : PeerEntry} (h : peerEntryOf b r p = some e) : e.bay = b := by
  unfold peerEntryOf at h
  split at h
  · split at h
    · cases h
    · simp only at h; split at h
      · cases h; rfl
      · cases h
  · cases h

/-- The entries afterwards: the new one, and those of other bays. -/
theorem mem_putEntry_iff (e : PeerEntry) : ∀ l : List PeerEntry, l.Pairwise (fun a b => a.bay < b.bay) →
    ∀ d, d ∈ putEntry e l ↔ d = e ∨ (d ∈ l ∧ d.bay ≠ e.bay)
  | [], _, d => by simp [putEntry]
  | x :: l, h, d => by
    obtain ⟨h1, h2⟩ := List.pairwise_cons.1 h
    unfold putEntry; split
    · rename_i hlt
      simp only [List.mem_cons]
      constructor
      · rintro (h | h | h)
        · exact .inl h
        · subst h; exact .inr ⟨.inl rfl, by omega⟩
        · exact .inr ⟨.inr h, by have := h1 d h; omega⟩
      · rintro (h | ⟨h | h, -⟩)
        · exact .inl h
        · exact .inr (.inl h)
        · exact .inr (.inr h)
    · split
      · rename_i he
        simp only [List.mem_cons]
        constructor
        · rintro (h | h)
          · exact .inl h
          · exact .inr ⟨.inr h, by have := h1 d h; omega⟩
        · rintro (h | ⟨h | h, hn⟩)
          · exact .inl h
          · subst h; omega
          · exact .inr h
      · have := mem_putEntry_iff e l h2 d
        simp only [List.mem_cons, this]
        constructor
        · rintro (h | h | ⟨h, hn⟩)
          · subst h; exact .inr ⟨.inl rfl, by omega⟩
          · exact .inl h
          · exact .inr ⟨.inr h, hn⟩
        · rintro (h | ⟨h | h, hn⟩)
          · exact .inr (.inl h)
          · exact .inl h
          · exact .inr (.inr ⟨h, hn⟩)

theorem numBE_two (a b : Byte) : numBE [a, b] = a.toNat * 256 + b.toNat := by simp [numBE]

theorem numBE_three (a b c : Byte) : numBE [a, b, c] = a.toNat * 65536 + b.toNat * 256 + c.toNat := by
  simp [numBE]; ring

theorem Standing.ofClaimCode_code {n : Nat} {st : Standing} (h : Standing.ofClaimCode n = some st) : st.code = n := by
  unfold Standing.ofClaimCode at h; split at h <;> cases h <;> rfl

theorem Standing.ofClaimCode_isSome {n : Nat} (h1 : 2 ≤ n) (h2 : n ≤ 6) : ∃ st, Standing.ofClaimCode n = some st := by
  have : n = 2 ∨ n = 3 ∨ n = 4 ∨ n = 5 ∨ n = 6 := by omega
  rcases this with rfl | rfl | rfl | rfl | rfl <;> exact ⟨_, rfl⟩

theorem Standing.ofClaimCode_range {n : Nat} {st : Standing} (h : Standing.ofClaimCode n = some st) : 2 ≤ n ∧ n ≤ 6 := by
  unfold Standing.ofClaimCode at h; split at h <;> first | omega | cases h

/-- A dispatch time changes clock and sub-second count alone (R15). -/
theorem State.dispatchClock_spec (w : State) (d : Nat) :
    ∃ u, w.dispatchClock d = u ∧ u = { w with timer := u.timer } ∧ u.timer = { w.timer with
        clock := if d < 86400 then some d else w.timer.clock
        subSecond := if d < 86400 then 0 else w.timer.subSecond } := by
  refine ⟨_, rfl, ?_, ?_⟩
  · unfold State.dispatchClock; split <;> rfl
  · unfold State.dispatchClock clockOfField Config.daySeconds
    by_cases h : d < 86400
    · simp only [if_pos h]; rfl
    · simp only [if_neg h]

/-- After an attempt: IDLE with nothing to send, or a wait (R156). -/
theorem State.afterAttempt_spec (m : Nat) (hm : 0 < m) (s : State) :
    ∃ x g, s.afterAttempt m = { s with line := { s.line with sender := x, prng := g } } ∧
      (s.line.outbox.isEmpty = true → x = .idle) ∧ (s.line.outbox.isEmpty = false → ∃ b, b < m ∧ x = .waiting b 0) := by
  unfold State.afterAttempt
  split
  · rename_i h
    exact ⟨.idle, s.line.prng, rfl, fun _ => rfl, fun h' => absurd h (by simp [h'])⟩
  · rename_i h
    refine ⟨.waiting (s.draw m).1 0, prngNext s.line.prng, ?_, fun h' => absurd h' h, fun _ => ⟨_, ?_, rfl⟩⟩
    · obtain ⟨l, e⟩ := s.startWait_frame m
      have := s.startWait_line m
      rw [e] at this ⊢; simp only at this; rw [this]
    · exact prngValue_lt _ _ hm

/-- With a slot occupied the wait is the draw of the next advance (R156, R163). -/
theorem State.afterAttempt_waits (m : Nat) {s : State} (h : s.line.outbox.isEmpty = false) :
    (s.afterAttempt m).line = { s.line with
      prng := prngNext s.line.prng, sender := .waiting (prngValue m (prngNext s.line.prng)) 0 } := by
  unfold State.afterAttempt; split
  · rename_i e; rw [h] at e; cases e
  · exact s.startWait_line m

/-- With every slot empty nothing is drawn. -/
theorem State.afterAttempt_idle (m : Nat) {s : State} (h : s.line.outbox.isEmpty = true) :
    (s.afterAttempt m).line = { s.line with sender := .idle } := by
  unfold State.afterAttempt; rw [h]; rfl

end Sys2Proof.Machine
end

