-- ==== Sys2Proof/Laws/PerInstr.lean ====
section
/-! SUPPORT. What is said of every command as syntax: the table gives no row bits, so no word spells a command. -/

namespace Sys2Proof.Laws.Unspelled

/-- No word of any width decodes to the command. -/
def Statement (i : Instr) : Prop := ∀ nbits w : Nat, decodeTableWord nbits w ≠ some i

/-- The decoder answers no command at all. -/
theorem any (i : Instr) : Statement i := fun _ _ => nofun

theorem powerUp : Statement (.powerUp) := any _
theorem resetAsserted : Statement (.resetAsserted) := any _
theorem resetReleased : Statement (.resetReleased) := any _
theorem storeReadCompletes : Statement (.storeReadCompletes) := any _
theorem sliceExpiry (temps : Temps) : Statement (.sliceExpiry temps) := any _
theorem naturalRoundEnd (temps : Temps) : Statement (.naturalRoundEnd temps) := any _
theorem clockSecondEvent : Statement (.clockSecondEvent) := any _
theorem markFrame (sender : Byte) (payload : List Byte) (temps : Temps) : Statement (.markFrame sender payload temps) := any _
theorem claimFrame (sender : Byte) (payload : List Byte) : Statement (.claimFrame sender payload) := any _
theorem noticeFrame (sender : Byte) (payload : List Byte) : Statement (.noticeFrame sender payload) := any _
theorem limitFrame (sender : Byte) (payload : List Byte) : Statement (.limitFrame sender payload) := any _
theorem replyFrame (sender : Byte) (payload : List Byte) : Statement (.replyFrame sender payload) := any _
theorem queryStatus (q : QueryFrame) : Statement (.queryStatus q) := any _
theorem queryPeers (q : QueryFrame) : Statement (.queryPeers q) := any _
theorem queryNotices (q : QueryFrame) : Statement (.queryNotices q) := any _
theorem querySession (q : QueryFrame) : Statement (.querySession q) := any _
theorem queryLast (q : QueryFrame) : Statement (.queryLast q) := any _
theorem queryConfig (q : QueryFrame) : Statement (.queryConfig q) := any _
theorem setupWrite (sender : Byte) (serial : BitVec 32) (field : Byte) (value : BitVec 32) : Statement (.setupWrite sender serial field value) := any _
theorem setupLock (sender : Byte) (serial : BitVec 32) : Statement (.setupLock sender serial) := any _
theorem setupRestart (sender : Byte) (serial : BitVec 32) : Statement (.setupRestart sender serial) := any _
theorem restartWaitExpiry : Statement (.restartWaitExpiry) := any _
theorem invalidFrame : Statement (.invalidFrame) := any _
theorem receiveError : Statement (.receiveError) := any _
theorem quietGap : Statement (.quietGap) := any _
theorem sendAttempt : Statement (.sendAttempt) := any _
theorem sentInFull : Statement (.sentInFull) := any _
theorem collision : Statement (.collision) := any _
theorem meterEdge : Statement (.meterEdge) := any _
theorem permitFalling : Statement (.permitFalling) := any _
theorem permitRising : Statement (.permitRising) := any _
theorem plug (r : PlugRecord) : Statement (.plug r) := any _
theorem taper (vanMax : BitVec 16) : Statement (.taper vanMax) := any _
theorem hold : Statement (.hold) := any _
theorem resume : Statement (.resume) := any _
theorem unplug : Statement (.unplug) := any _
theorem startBitHeard : Statement (.startBitHeard) := any _
theorem characterHeard (c : Byte) : Statement (.characterHeard c) := any _
theorem queryViewUnknown (q : QueryFrame) (view : Byte) : Statement (.queryViewUnknown q view) := any _
theorem malformedSetup (sender : Byte) (payload : List Byte) : Statement (.malformedSetup sender payload) := any _

end Sys2Proof.Laws.Unspelled
end

