-- ==== Sys2Proof/Laws/Scan.lean ====
section
/-! SUPPORT. The parts of a slice end on stage control and the scan: what each does. -/

namespace Sys2Proof.Machine

/-- M_eff as the scan of the present inputs gives it (R143 to R145). -/
def State.scannedMEff (s : State) : Nat := ({ s with thermal := s.scanned } : State).formedMEff

/-- A scan: readings, H and M_eff taken and the applied power clamped; then the THERMAL rule alone (R141 to R147). -/
theorem State.scan_spec (u : State) : ∃ v : State, u.scan = v.thermalHold ∧ v.session = u.session ∧ v.pins = u.pins ∧
    v.stand = u.stand ∧ v.settings = u.settings ∧ v.timer = u.timer ∧ v.meter = u.meter ∧ v.share = u.share ∧
    v.line = u.line ∧ v.thermal = { u.scanned with mEff := u.scannedMEff } ∧
    v.stage.applied = min u.stage.applied u.scannedMEff ∧ v.stage.pendingIncrease = u.stage.pendingIncrease ∧
    v.stage.enable = u.stage.enable ∧ v.stage.cap = u.stage.cap ∧ v.stage.lagSlice = u.stage.lagSlice ∧
    v.out.link = u.out.link ∧ ∃ ws, v.out.stage = u.out.stage ++ ws := by
  obtain ⟨b, w, h1, h2, h3, h4, ws, h5⟩ := State.refreshMEff_spec ({ u with thermal := u.scanned } : State)
  refine ⟨_, rfl, by simp, by simp, by simp, by simp, by simp, by simp, by simp, by simp, h1,
    ?_, ?_, ?_, ?_, ?_, h3, ws, h5⟩ <;> rw [h2] <;> rfl

/-- The meter's part of a slice end touches of stage control the cap state, the word and the driven mark alone. -/
theorem State.meterSliceEnd_stage (u : State) :
    ∃ c w b, u.meterSliceEnd.stage = { u.stage with cap := c, wordSent := w, sliceDriven := b } := by
  simp only [State.meterSliceEnd, State.ceilingTest]
  split
  · obtain ⟨b, h⟩ := State.sendIfChanged_stage ({ u with
      meter := { u.meter with
        roundCount := satAdd Config.top16 u.meter.roundCount u.meter.sliceCount, sliceCount := 0, capped := true }
      stage := { u.stage with cap := true } } : State)
    exact ⟨_, _, _, h⟩
  · exact ⟨_, _, _, rfl⟩

/-- The start of a slice: a waiting increase is taken at the lag slice, held to M_eff (R115). -/
theorem State.startSlice_stage (u : State) :
    (u.startSlice.stage.applied = match u.stage.pendingIncrease with
      | none => u.stage.applied
      | some p => if u.stage.lagSlice = some u.timer.sliceIndex then min p u.thermal.mEff else u.stage.applied) ∧
    (u.startSlice.stage.pendingIncrease = match u.stage.pendingIncrease with
      | none => none
      | some p => if u.stage.lagSlice = some u.timer.sliceIndex then none else some p) ∧
    u.startSlice.stage.enable = u.stage.enable ∧ u.startSlice.stage.lagSlice = u.stage.lagSlice ∧
    u.startSlice.stage.cap = u.stage.cap := by
  cases h : u.stage.pendingIncrease with
  | none => simp [State.startSlice, State.sendWord, h]
  | some p =>
    by_cases hl : u.stage.lagSlice = some u.timer.sliceIndex <;> simp [State.startSlice, State.sendWord, h, hl]

end Sys2Proof.Machine
end

