-- ==== Sys2Proof/Laws/Share.lean ====
section
/-! SUPPORT. The passes of the share computation: what each repetition keeps and gives out. -/

namespace Sys2Proof.Machine

/-- A claimant put in its place: the list has it and the others. -/
theorem insertClaimant_perm (c : Claimant) : ∀ l, (insertClaimant c l).Perm (c :: l)
  | [] => .refl _
  | d :: l => by
    unfold insertClaimant; split
    · exact .refl _
    · exact ((insertClaimant_perm c l).cons d).trans (.swap c d l)

/-- Deadline order is kept by a claimant put in its place (R62). -/
theorem insertClaimant_sorted (c : Claimant) : ∀ l : List Claimant,
    (l.Pairwise fun a b => a.k < b.k ∨ (a.k = b.k ∧ a.bay ≤ b.bay)) →
    (insertClaimant c l).Pairwise fun a b => a.k < b.k ∨ (a.k = b.k ∧ a.bay ≤ b.bay)
  | [], _ => by simp [insertClaimant]
  | d :: l, h => by
    unfold insertClaimant Claimant.before
    split
    · rename_i hc
      simp at hc
      refine List.Pairwise.cons ?_ h
      intro x hx
      rcases List.mem_cons.1 hx with rfl | hx
      · exact hc
      · have := (List.pairwise_cons.1 h).1 x hx; omega
    · rename_i hc
      simp at hc
      refine List.Pairwise.cons ?_ (insertClaimant_sorted c l (List.pairwise_cons.1 h).2)
      intro x hx
      rcases List.mem_cons.1 ((insertClaimant_perm c l).mem_iff.1 hx) with rfl | hx
      · omega
      · exact (List.pairwise_cons.1 h).1 x hx

/-- Deadline order drops and adds no claimant. -/
theorem deadlineOrder_perm : ∀ cs, (deadlineOrder cs).Perm cs
  | [] => .refl _
  | c :: l => (insertClaimant_perm c _).trans ((deadlineOrder_perm l).cons c)

/-- A grant above 0 lies between the claimant's F and M. -/
def Grant.Within (g : Grant) : Prop := 0 < g.power → g.who.f ≤ g.power ∧ g.power ≤ g.who.m

/-- Pass 1 keeps the list. -/
theorem pass1_who : ∀ rem cs, (pass1 rem cs).1.map Grant.who = cs
  | _, [] => rfl
  | rem, c :: l => by simp [pass1, pass1_who]

/-- Pass 1's grants and what remains make up what there was (R63). -/
theorem pass1_sum : ∀ rem cs, ((pass1 rem cs).1.map Grant.power).sum + (pass1 rem cs).2 = rem
  | _, [] => by simp [pass1]
  | rem, c :: l => by
    have := pass1_sum (rem - firstGrant rem c) l
    have h : firstGrant rem c ≤ rem := by unfold firstGrant; split_ifs <;> omega
    simp [pass1]; omega

/-- Pass 1 grants well-formed claimants within their F and M. -/
theorem pass1_within : ∀ rem cs, (∀ c ∈ cs, c.q ≤ c.m ∧ (0 < c.q → c.f ≤ c.q)) →
    ∀ g ∈ (pass1 rem cs).1, Grant.Within g
  | _, [], _ => by simp [pass1]
  | rem, c :: l, h => by
    intro g hg
    simp only [pass1, List.mem_cons] at hg
    rcases hg with rfl | hg
    · have := h c (by simp)
      intro hp
      simp only at hp ⊢
      unfold firstGrant at hp ⊢
      split_ifs at hp ⊢ <;> omega
    · exact pass1_within _ l (fun c hc => h c (by simp [hc])) g hg

theorem levelled_who (s : Nat) (gs : List Grant) : (levelled s gs).map Grant.who = gs.map Grant.who := by
  simp [levelled]

/-- A repetition gives out `levelledPower`. -/
theorem levelled_total (s : Nat) : ∀ gs : List Grant,
    ((levelled s gs).map Grant.power).sum = (gs.map Grant.power).sum + levelledPower s gs
  | [] => rfl
  | g :: l => by have := levelled_total s l; simp [levelled, levelledPower] at this ⊢; omega

/-- At most the share for each open claimant. -/
theorem levelledPower_le (s : Nat) : ∀ gs : List Grant, levelledPower s gs ≤ s * openCount gs
  | [] => by simp [levelledPower]
  | g :: l => by
    have := levelledPower_le s l
    simp only [levelledPower, openCount, List.map_cons, List.sum_cons, List.filter_cons, Grant.addition] at this ⊢
    split
    · simp only [List.length_cons, Nat.mul_add]; omega
    · omega

theorem Grant.Within.add (g : Grant) (n : Nat) (h : Grant.Within g) (ho : g.isOpen = true ∨ n = 0) (hn : n ≤ g.headroom) :
    Grant.Within { g with power := g.power + n } := by
  intro hp
  unfold Grant.Within at h
  rcases ho with ho | ho
  · have ho := of_decide_eq_true ho
    unfold Grant.headroom at *
    have := h ho.1; simp only; omega
  · subst ho; have := h (by simpa using hp); omega

theorem levelled_within (s : Nat) (gs : List Grant) (h : ∀ g ∈ gs, Grant.Within g) :
    ∀ g ∈ levelled s gs, Grant.Within g := by
  intro g hg
  obtain ⟨g', hg', rfl⟩ := List.mem_map.1 hg
  refine Grant.Within.add g' _ (h g' hg') ?_ ?_ <;> unfold Grant.addition <;> split
  · exact .inl ‹_›
  · exact .inr rfl
  · omega
  · omega

theorem oneStepEach_who : ∀ rem gs, (oneStepEach rem gs).map Grant.who = gs.map Grant.who
  | _, [] => rfl
  | rem, g :: l => by unfold oneStepEach; split <;> simp [oneStepEach_who]

theorem oneStepEach_within : ∀ rem gs, (∀ g ∈ gs, Grant.Within g) → ∀ g ∈ oneStepEach rem gs, Grant.Within g
  | _, [], _ => by simp [oneStepEach]
  | rem, g :: l, h => by
    intro x hx
    unfold oneStepEach at hx
    split at hx
    · rename_i hc
      rcases List.mem_cons.1 hx with rfl | hx
      · refine Grant.Within.add g 1 (h g (by simp)) (.inl hc.2) ?_
        have := hc.2; simp [Grant.isOpen] at this; omega
      · exact oneStepEach_within _ l (fun g hg => h g (by simp [hg])) x hx
    · rcases List.mem_cons.1 hx with rfl | hx
      · exact h x (by simp)
      · exact oneStepEach_within _ l (fun g hg => h g (by simp [hg])) x hx

/-- The last repetition gives one step to each open claimant, as far as the rest goes. -/
theorem oneStepEach_sum : ∀ rem gs,
    ((oneStepEach rem gs).map Grant.power).sum = (gs.map Grant.power).sum + min rem (openCount gs)
  | _, [] => by simp [oneStepEach, openCount]
  | rem, g :: l => by
    unfold oneStepEach
    split
    · rename_i hc
      have := oneStepEach_sum (rem - 1) l
      simp only [openCount, List.filter_cons, hc.2, if_true, List.length_cons, List.map_cons, List.sum_cons] at this ⊢
      omega
    · rename_i hc
      have := oneStepEach_sum rem l
      simp only [openCount, List.filter_cons, List.map_cons, List.sum_cons] at this ⊢
      split
      · rename_i ho
        have : rem = 0 := by by_contra h; exact hc ⟨by omega, ho⟩
        subst this; simp at *; omega
      · omega

theorem pass2_who : ∀ n rem gs, (pass2 n rem gs).map Grant.who = gs.map Grant.who
  | 0, _, _ => rfl
  | n + 1, rem, gs => by
    unfold pass2; split
    · rfl
    · split
      · rw [pass2_who n]; exact levelled_who _ _
      · exact oneStepEach_who _ _

theorem pass2_within : ∀ n rem gs, (∀ g ∈ gs, Grant.Within g) → ∀ g ∈ pass2 n rem gs, Grant.Within g
  | 0, _, _, h => h
  | n + 1, rem, gs, h => by
    unfold pass2; split
    · exact h
    · split
      · exact pass2_within n _ _ (levelled_within _ _ h)
      · exact oneStepEach_within _ _ h

/-- Pass 2 gives out no more than remains (R64). -/
theorem pass2_sum : ∀ n rem gs, ((pass2 n rem gs).map Grant.power).sum ≤ (gs.map Grant.power).sum + rem
  | 0, _, _ => by simp [pass2]
  | n + 1, rem, gs => by
    unfold pass2; split
    · omega
    · split
      · have h1 := pass2_sum n (rem - levelledPower (rem / openCount gs) gs) (levelled (rem / openCount gs) gs)
        have h2 := levelled_total (rem / openCount gs) gs
        have h3 := levelledPower_le (rem / openCount gs) gs
        have h4 : rem / openCount gs * openCount gs ≤ rem := Nat.div_mul_le_self _ _
        omega
      · rw [oneStepEach_sum]; omega

/-- A repetition closes a claimant, or gives every open one its whole share. -/
theorem levelled_openCount (s : Nat) (hs : 1 ≤ s) : ∀ gs : List Grant,
    (openCount (levelled s gs) < openCount gs) ∨
    (openCount (levelled s gs) = openCount gs ∧ levelledPower s gs = s * openCount gs)
  | [] => .inr ⟨rfl, rfl⟩
  | g :: l => by
    have ih := levelled_openCount s hs l
    have e1 : openCount (levelled s (g :: l)) =
        (if ({ g with power := g.power + g.addition s } : Grant).isOpen then 1 else 0) + openCount (levelled s l) := by
      simp only [openCount, levelled, List.map_cons, List.filter_cons]; split <;> simp; omega
    have e2 : openCount (g :: l) = (if g.isOpen then 1 else 0) + openCount l := by
      simp only [openCount, List.filter_cons]; split <;> simp; omega
    have e3 : levelledPower s (g :: l) = g.addition s + levelledPower s l := rfl
    rw [e1, e2, e3, Nat.mul_add]
    by_cases ho : g.isOpen = true
    · have ha : g.addition s = min s g.headroom := by simp [Grant.addition, ho]
      rw [if_pos ho]
      by_cases hh : s < g.headroom
      · have h1 : Grant.isOpen { g with power := g.power + min s g.headroom } = true := by
          have ho := of_decide_eq_true ho
          unfold Grant.headroom at *
          exact decide_eq_true (by simp only [Grant.headroom]; omega)
        rw [ha, if_pos h1]
        rcases ih with ih | ⟨ih1, ih2⟩
        · left; omega
        · right; omega
      · have h1 : ¬ Grant.isOpen { g with power := g.power + min s g.headroom } = true := by
          have ho := of_decide_eq_true ho
          intro h1
          have h1 := of_decide_eq_true h1
          simp only [Grant.headroom] at *; omega
        rw [ha, if_neg h1]
        left; rcases ih with ih | ⟨ih1, ih2⟩ <;> omega
    · have h0 : g.addition s = 0 := by simp [Grant.addition, ho]
      have h1 : ¬ Grant.isOpen { g with power := g.power + g.addition s } = true := by rw [h0]; exact ho
      rw [if_neg ho, if_neg h1, h0]
      rcases ih with ih | ⟨ih1, ih2⟩
      · left; omega
      · right; omega

/-- With repetitions enough, Pass 2 leaves nothing, or no open claimant (R65). -/
theorem pass2_usesAll : ∀ n rem gs, openCount gs + 1 ≤ n →
    ((pass2 n rem gs).map Grant.power).sum = (gs.map Grant.power).sum + rem ∨ openCount (pass2 n rem gs) = 0
  | 0, _, _, h => by omega
  | n + 1, rem, gs, h => by
    unfold pass2; split
    · rename_i hc; rcases hc with hc | hc
      · right; exact hc
      · left; omega
    · rename_i hc
      simp only [not_or] at hc
      split
      · rename_i hs
        have h2 := levelled_total (rem / openCount gs) gs
        have h3 := levelledPower_le (rem / openCount gs) gs
        have h4 : rem / openCount gs * openCount gs ≤ rem := Nat.div_mul_le_self _ _
        rcases levelled_openCount (rem / openCount gs) hs gs with hl | ⟨hl, hp⟩
        · rcases pass2_usesAll n (rem - levelledPower (rem / openCount gs) gs) (levelled (rem / openCount gs) gs)
            (by omega) with h | h
          · left; rw [h, h2]; omega
          · right; exact h
        · have hlt : rem - levelledPower (rem / openCount gs) gs < openCount gs := by
            rw [hp]
            have := Nat.mod_lt rem (Nat.pos_of_ne_zero hc.1)
            have := Nat.div_add_mod rem (openCount gs)
            rw [Nat.mul_comm] at this; omega
          left
          obtain ⟨k, rfl⟩ : ∃ k, n = k + 1 := ⟨n - 1, by omega⟩
          unfold pass2
          rw [hl]
          split
          · rw [h2]; omega
          · rename_i hz
            simp only [not_or] at hz
            rw [if_neg (by rw [Nat.div_eq_of_lt hlt]; omega), oneStepEach_sum, hl, h2]; omega
      · left
        rw [oneStepEach_sum]
        rename_i hs
        have : rem < openCount gs := by
          by_contra hge
          exact hs (Nat.div_pos (by omega) (Nat.pos_of_ne_zero hc.1))
        omega

/-- With no open claimant every grant above 0 is at M. -/
theorem power_of_closed {gs : List Grant} (h : openCount gs = 0) (hg : ∀ g ∈ gs, Grant.Within g) :
    ∀ g ∈ gs, 0 < g.power → g.power = g.who.m := by
  intro g hm hp
  have : g.isOpen = false := by
    by_contra hc
    have : g ∈ gs.filter Grant.isOpen := List.mem_filter.2 ⟨hm, by simpa using hc⟩
    rw [List.eq_nil_of_length_eq_zero h] at this; simp at this
  have h1 := hg g hm hp
  simp [Grant.isOpen, Grant.headroom] at this
  omega

end Sys2Proof.Machine
end

