-- ==== Sys2Proof/Tests/Slice0.lean ====
section
/-! SUPPORT. The model's own tests: an ill-formed command for each check of WellFormed, the book's worked examples,
and states that meet the hypotheses of the statements, each clause at the ends of its ranges. -/

set_option Elab.async false

namespace Sys2Proof.Machine.Test

open Sys2Proof Sys2Proof.Machine

/-! ### Ill-formed commands -/

/-- A QUERY from bay 0, to bay 3, for tag 77. -/
def ask (length : Byte) : QueryFrame := ⟨0, length, 1, 3, 77, 4, 12⟩

theorem test_wf_mark : Instr.wellFormed (.markFrame 1 (List.replicate 57 0) ⟨0, 0, 0⟩) = false := by decide
theorem test_wf_claim : Instr.wellFormed (.claimFrame 1 (List.replicate 57 0)) = false := by decide
theorem test_wf_notice : Instr.wellFormed (.noticeFrame 1 (List.replicate 57 0)) = false := by decide
theorem test_wf_limit : Instr.wellFormed (.limitFrame 1 (List.replicate 57 0)) = false := by decide
theorem test_wf_reply : Instr.wellFormed (.replyFrame 1 (List.replicate 57 0)) = false := by decide
theorem test_wf_status : Instr.wellFormed (.queryStatus (ask 57)) = false := by decide
theorem test_wf_peers : Instr.wellFormed (.queryPeers (ask 57)) = false := by decide
theorem test_wf_notices : Instr.wellFormed (.queryNotices (ask 57)) = false := by decide
theorem test_wf_session : Instr.wellFormed (.querySession (ask 57)) = false := by decide
theorem test_wf_last : Instr.wellFormed (.queryLast (ask 57)) = false := by decide
theorem test_wf_config : Instr.wellFormed (.queryConfig (ask 57)) = false := by decide
theorem test_wf_view_known : Instr.wellFormed (.queryViewUnknown (ask 9) 6) = false := by decide
theorem test_wf_view_length : Instr.wellFormed (.queryViewUnknown (ask 57) 7) = false := by decide
theorem test_wf_setup_sound : Instr.wellFormed (.malformedSetup 0 [0, 0, 0, 0, 3, 0, 0, 0, 0, 0]) = false := by decide
theorem test_wf_setup_long : Instr.wellFormed (.malformedSetup 0 (List.replicate 57 0)) = false := by decide
theorem test_wf_accepts :
    Instr.wellFormed (.markFrame 1 (List.replicate 56 0) ⟨0, 0, 0⟩) = true ∧
      Instr.wellFormed (.queryViewUnknown (ask 9) 7) = true ∧
      Instr.wellFormed (.malformedSetup 0 [0, 0, 0, 0, 4, 0, 0, 0, 0, 0]) = true := by decide

/-! ### States -/

/-- The state a command answers. -/
def after (c : Instr) (s : State) : State :=
  match exec c s with
  | .next t => t
  | _ => s

/-- A locked store: bay `bay` of `n`, feeder limit `limit`, reserve `r`, the defaults besides. -/
def storeOf (bay n limit r : Nat) : Store :=
  { serial := 40117233#32, stageRating := 400,
    installer := ({ bay := some bay, bayCount := some n, feederLimit := some limit, reserve := some r } : Installer).lock }

/-- A van in CHARGING: E 30000, T 19800, floor 60 (section 4.6). -/
def van : Session :=
  { van := 3377, phase := .charging, need := 72000, target := 60000, targetSource := .van, departure := 19800,
    departureSource := .default, vanMax := 400, floor := 60, precondPower := 0, precondTime := 0, delivered := 30000,
    opening := 0, plugSecond := none, openedThisRound := false }

/-- The part with rounds in the standing `standing`, cool, with no session. -/
def online (st : Store) (standing : Standing) : State :=
  { State.reset with
    store := st, storeRead := none, settings := some (settingsOf st)
    pins := ⟨false, true, false, ⟨50, 44, 57⟩⟩
    timer := ⟨true, 0, 0, 800, true, 0, none⟩
    stand := { standing := standing, roundHeard := true, claimRecord := .sent }
    stage := { lagSlice := some 2, sliceDriven := true }
    meter := { ceiling := some 94 }
    thermal := { hot := some 57 }
    choices := List.replicate 8 0 }

/-- Bay 3 of four, JOINED and charging at 297, its claim of the round as section 4.6 forms it. -/
def charging : State :=
  let s := online (storeOf 3 4 1500 10) .joined
  { s with
    session := some van
    stage := { s.stage with applied := 297, wordSent := 297, enable := true }
    thermal := { s.thermal with mEff := 400 }
    share := { ownClaim := some ⟨.joined, .charging, 60, 400, 60, 19800, 297, false, false, false, {}, 1⟩
               sequence := 1, postSlice := some 6, allotment := 297 } }

/-- The same in its last slice, 80 counts into the round. -/
def lastSlice : State := { charging with
  timer := { charging.timer with sliceIndex := 19 }, meter := { charging.meter with roundCount := 80 } }

/-- A JOINED peer heard in round `round`. -/
def peer (bay round q m f k p : Nat) : PeerEntry :=
  ⟨bay, round, .joined, 2, q, m, f, k, p, false, false, false, {}, 0⟩

/-- A wait of no backoff with a CLAIM and a REPLY in the outbox. -/
def waiting : State :=
  { charging with line := { charging.line with
      outbox := ⟨none, some ⟨[1, 2], 0⟩, some ⟨[3], 7⟩⟩, sender := .waiting 0 160, receiver := .hunt } }

/-- An attempt of a slot's frame under way. -/
def sending (slot : Slot) : State :=
  { waiting with line := { waiting.line with
      outbox := ⟨some ⟨[], 0⟩, some ⟨[1, 2], 0⟩, some ⟨[3], 7⟩⟩
      sender := .sending ⟨slot, frameBytes slot.kind 3 [1, 2], false, false, 0⟩ } }

/-- The same with `heard` characters read back. -/
def readingBack (slot : Slot) (heard : Nat) : State :=
  { sending slot with line := { (sending slot).line with
      sender := .sending ⟨slot, frameBytes slot.kind 3 [1, 2], false, false, heard⟩ } }

/-- The part in SETUP with a blank segment (section 11.5). -/
def fresh : State := { State.reset with storeRead := none, stand := { standing := .setup } }

/-! ### The depot line -/

/-- The check value of the book's CRC over the characters 1 to 9 (R152). -/
theorem test_crc : crc [0x31, 0x32, 0x33, 0x34, 0x35, 0x36, 0x37, 0x38, 0x39] = 0x29B1 := by decide +kernel

/-- One advance of the generator, and draws from the advanced state (R163). -/
theorem test_generator :
    prngNext 8597#16 = 272#16 ∧ prngNext 0#16 = 2851#16 ∧ prngValue 16 (prngNext 0#16) = 0 ∧ prngValue 17 65535#16 = 16 := by
  decide +kernel

theorem test_seed : State.reset.line.prng = 8597#16 := by decide +kernel

theorem test_claim_round_trip :
    (peerEntryOf 3 9 (Claim.payload ⟨.joined, .charging, 60, 400, 60, 19800, 297, true, false, true,
      ⟨true, false, false, true⟩, 255⟩)).map (fun e => ([e.q, e.m, e.f, e.k, e.pEff, e.sequence], e.reasons.meter)) =
      some ([60, 400, 60, 19800, 297, 255], true) := by decide +kernel

theorem test_sendAttempt :
    (after .sendAttempt waiting).line.sender =
      .sending ⟨.claim, frameBytes .claim 3 [1, 2], false, false, 0⟩ := by decide +kernel

/-- A CLAIM sent in full is reported; the REPLY waits. -/
theorem test_sentInFull :
    (after .sentInFull (sending .claim)).stand.claimRecord = .sent ∧
      (after .sentInFull (sending .claim)).line.outbox = ⟨some ⟨[], 0⟩, none, some ⟨[3], 7⟩⟩ := by decide +kernel

/-- The eighth collision discards the reply. -/
theorem test_collision_eighth :
    (after .collision (sending .reply)).line.outbox.reply = none ∧
      (after .collision (sending .reply)).line.counters.collisions = 1 := by decide +kernel

theorem test_collision_first :
    (after .collision (sending .claim)).line.outbox.claim = some ⟨[1, 2], 1⟩ := by decide +kernel

/-- A character read back: one that matches, the last one, and one that differs. -/
theorem test_readBack :
    let whole := frameBytes .claim 3 [1, 2]
    (after (.characterHeard 0xA5) (sending .claim)).line.sender = .sending ⟨.claim, whole, false, false, 1⟩ ∧
      (after (.characterHeard (whole.getLastD 0)) (readingBack .claim 7)).out.line = [whole] ∧
      (after (.characterHeard (whole.getLastD 0)) (readingBack .claim 7)).stand.claimRecord = .sent ∧
      (after (.characterHeard 0xA4) (sending .claim)).line.counters.collisions = 1 := by decide +kernel

/-- A framing error during an own attempt is a collision. -/
theorem test_receiveError_sending : after .receiveError (sending .claim) = after .collision (sending .claim) := by
  decide +kernel

/-- A start bit breaks the wait off; the backoff stays (section 10.4). -/
theorem test_startBit :
    (after .startBitHeard { waiting with line := { waiting.line with sender := .waiting 41 800 } }).line.sender =
      .waiting 41 0 := by decide +kernel

theorem test_quietGap_cuts_short :
    (after .quietGap { waiting with line := { waiting.line with receiver := .frame [0xA5, 1] } }).line.receiver = .hunt ∧
      (after .quietGap { waiting with line := { waiting.line with receiver := .frame [0xA5, 1] } }).line.counters.lineErrors
        = 1 := by decide +kernel

theorem test_invalidFrame : (after .invalidFrame waiting).line.counters.lineErrors = 1 := by decide +kernel

theorem test_receiveError_skip :
    (after .receiveError { waiting with line := { waiting.line with receiver := .skip false } }).line.counters.lineErrors = 0 ∧
      (after .receiveError waiting).line.counters.lineErrors = 1 := by decide +kernel

/-- The last character of a MARK of bay 1 is the MARK: late, in slice 0. -/
theorem test_characterHeard_completes :
    let chars := frameBytes .mark 1 [0x01, 0x1D, 0x08]
    (after (.characterHeard (chars.getLastD 0))
      { waiting with line := { waiting.line with receiver := .frame chars.dropLast } }).timer.clock = some 72968 := by
  decide +kernel

theorem test_characterHeard_length :
    (after (.characterHeard 57) { waiting with line := { waiting.line with receiver := .frame [0xA5, 1, 2] } }).line.receiver
      = .skip false := by decide +kernel

/-! ### Rounds and depot time (sections 1.5 and 1.7) -/

theorem test_clock_second :
    (after .clockSecondEvent { charging with timer := { charging.timer with clock := some 86399, subSecond := 1000 } }).timer
      = { charging.timer with clock := some 0, subSecond := 0 } := by decide +kernel

/-- A set clock keeps its second against a peer's MARK. -/
theorem test_mark_clock_kept :
    (after (.markFrame 1 [0x01, 0x1D, 0x08] ⟨50, 44, 57⟩)
      { charging with timer := { charging.timer with clock := some 72967 } }).timer.clock = some 72967 := by decide +kernel

/-- A MARK in slice 17 ends the round early, and no own MARK is queued. -/
theorem test_mark_early :
    let t := after (.markFrame 1 [255, 255, 255] ⟨50, 44, 57⟩)
      { charging with timer := { charging.timer with sliceIndex := 17 } }
    t.timer.sliceIndex = 0 ∧ t.timer.roundCount = 801 ∧ t.line.outbox.mark = none := by decide +kernel

theorem test_sliceExpiry_lag :
    let s : State := { charging with
      timer := { charging.timer with sliceIndex := 1 }
      stage := { charging.stage with applied := 180, wordSent := 180, pendingIncrease := some 297 } }
    (after (.sliceExpiry ⟨50, 44, 57⟩) s).stage.applied = 297 ∧
      (after (.sliceExpiry ⟨50, 44, 57⟩) s).stage.pendingIncrease = none := by decide +kernel

/-- `charging` in slice 1 with an increase to 297 for lag slice 2; `c` is the first free choice. -/
def increasing (c : Nat) : State := { charging with
  timer := { charging.timer with sliceIndex := 1 }
  stage := { charging.stage with applied := 180, wordSent := 180, pendingIncrease := some 297 }
  meter := { charging.meter with roundCount := 10 }
  choices := [c, 0, 0, 0] }

/-- Lag slice 2 and an early round end at one moment (R116): the start of slice 2 first, and the increase is in
force; the round end first, and it is discarded. -/
theorem test_lag_two_mark :
    let mark : Instr := .markFrame 1 [255, 255, 255] ⟨50, 44, 57⟩
    let first := after (.sliceExpiry ⟨50, 44, 57⟩) (increasing 0)
    let owed := after (.sliceExpiry ⟨50, 44, 57⟩) (increasing 43200)
    (first.stage.applied, first.stage.startOwed) = (297, false) ∧ (after mark first).stage.applied = 297 ∧
      (owed.stage.applied, owed.stage.startOwed) = (180, true) ∧ (after mark owed).stage.applied = 180 ∧
      (after mark owed).stage.pendingIncrease = some (after mark owed).share.allotment := by decide +kernel

/-- With no round end, what is owed is taken at the next tick, and at the next expiry. -/
theorem test_owed_start_taken :
    let owed := after (.sliceExpiry ⟨50, 44, 57⟩) (increasing 43200)
    (owed.tick.stage.applied, owed.tick.stage.startOwed) = (297, false) ∧
      (after (.sliceExpiry ⟨50, 44, 57⟩) owed).stage.applied = 297 := by decide +kernel

/-- The claim of post slice 2 may be left to the next event in the same way. -/
theorem test_owed_post_taken :
    let owed := after (.sliceExpiry ⟨50, 44, 57⟩)
      { increasing 86400 with share := { charging.share with postSlice := some 2 } }
    (owed.share.postOwed, owed.share.sequence) = (true, 1) ∧
      (owed.tick.share.postOwed, owed.tick.share.sequence) = (false, 2) := by decide +kernel

/-- Section 9.7: 76 degrees on the connector clamps 297 to 280; 90 holds the session. -/
theorem test_sliceExpiry_heat :
    (after (.sliceExpiry ⟨76, 44, 57⟩) charging).stage.applied = 280 ∧
      (after (.sliceExpiry ⟨90, 44, 57⟩) charging).phase = .held := by decide +kernel

/-! ### The share computation (sections 4.6 to 4.8) -/

/-- Case 1: the allotment of bay 3 is 297, and D is 220. -/
theorem test_natural_plenty :
    let t := after (.naturalRoundEnd ⟨50, 44, 57⟩)
      { lastSlice with peers := ⟨[peer 1 800 134 500 60 16200 371, peer 2 798 210 450 50 12600 220,
        peer 4 800 225 500 60 14400 462], 0, 0⟩ }
    t.share.allotment = 297 ∧ t.peers.dHanded = 220 ∧ t.meter.ceiling = some 94 ∧ t.phase = .charging := by decide +kernel

/-- Case 2: an override of 578 leaves bay 3 nothing, and its session DEFERRED. -/
theorem test_natural_scarcity :
    let t := after (.naturalRoundEnd ⟨50, 44, 57⟩)
      { lastSlice with
        notices := ⟨[], some ⟨578, 30⟩⟩
        peers := ⟨[peer 1 800 134 500 60 16190 371, peer 2 798 210 450 50 12600 220, peer 4 800 226 500 60 14390 462], 0, 0⟩ }
    t.share.allotment = 0 ∧ t.stage.applied = 0 ∧ t.phase = .deferred ∧ t.notices.override = some ⟨578, 29⟩ := by
  decide +kernel

/-- Case 3, with either limit. -/
theorem test_departure_wave :
    let cs : List Claimant := [⟨2, 300, 300, 50, 0⟩, ⟨5, 360, 400, 50, 900⟩, ⟨1, 219, 250, 60, 7800⟩, ⟨6, 40, 120, 40, 20000⟩]
    (grants 950 cs).map Grant.power = [300, 371, 229, 50] ∧ ((grants 1140 cs).map Grant.power).sum = 1140 - 70 := by
  decide +kernel

theorem test_required_power :
    requiredBefore .charging false 60000 36460 40 900 = 61 ∧ requiredBefore .precondition true 3500 890 40 900 = 182 ∧
      requiredBefore .charging false 12000 0 0 0 = 720 := by decide +kernel

/-- The round end of section 3.7: D is 694, the claimant list holds bay 1, and bay 8 is removed. -/
theorem test_peer_table :
    let es := [peer 1 412 180 500 60 9000 150, peer 2 410 210 450 50 12600 220,
      { peer 3 412 237 400 60 7200 237 with standing := .isolated }, peer 4 412 0 500 60 16200 0,
      peer 6 402 300 500 60 5400 310, { peer 7 412 120 300 40 10800 0 with standing := .cutoff },
      peer 8 388 150 400 60 14400 180]
    presumedDraws 237 412 (keptEntries 412 es) = 694 ∧ (tableClaimants 237 412 es).map Claimant.bay = [1] ∧
      (keptEntries 412 es).length = 6 := by decide +kernel

/-- The derating of section 9.3: M0 400, Ts 70, Te 90. -/
theorem test_derated :
    [70, 71, 75, 80, 84, 87, 88, 89, 90].map (fun h => deratedMax h 70 90 400) = [400, 380, 300, 200, 120, 60, 40, 20, 0] ∧
      [71, 75, 84, 87].map (fun h => deratedMax h 70 90 250) = [237, 187, 75, 37] := by decide +kernel

/-! ### The standing (sections 2.11 and 2.12) -/

theorem test_standing_cycle :
    (({ standing := .joined, silentStreak := 2, roundHeard := true, claimRecord := .unsent } : StandingUnit).roundEnd 8).standing
        = .isolated ∧
      ({ standing := .rejoining, isolationCount := 17, silentStreak := 2, roundHeard := true, claimRecord := .unsent } :
        StandingUnit).roundEnd 8 = { standing := .cutoff, isolationCount := 18, silentStreak := 3 } := by decide +kernel

/-- A peer's frame takes ISOLATED to REJOINING. -/
theorem test_reply_rejoins :
    (after (.replyFrame 1 []) (online (storeOf 3 4 1500 10) .isolated)).stand.standing = .rejoining := by decide +kernel

/-- A CLAIM under the own bay is a clash. -/
theorem test_claim_clash :
    (after (.claimFrame 3 []) charging).stand.bayClash = true ∧ (after (.claimFrame 3 []) charging).peers.entries = [] := by
  decide +kernel

theorem test_claim_entered :
    (after (.claimFrame 1 (Claim.payload ⟨.listening, .vacant, 150, 400, 60, 14400, 0, false, false, false, {}, 9⟩))
      charging).peers.entries = [{ peer 1 800 150 400 60 14400 0 with standing := .listening, phase := 0, sequence := 9 }] := by
  decide +kernel

/-! ### Reset and the store (sections 2.2 and 11.5) -/

theorem test_powerUp :
    (after .powerUp charging).session = none ∧ (after .powerUp charging).last = none ∧
      (after .powerUp charging).storeRead = some 0 := by decide +kernel

theorem test_resetAsserted :
    (after .resetAsserted charging).storeRead = none ∧
      (after .resetAsserted charging).last = some ⟨3377, 30000, .restart, .charging⟩ := by decide +kernel

theorem test_resetReleased : (after .resetReleased (after .resetAsserted charging)).storeRead = some 0 := by decide +kernel

theorem test_storeRead_locked :
    (after .storeReadCompletes { State.reset with store := storeOf 12 14 1800 5, choices := [0] }).stand.standing
      = .listening := by decide +kernel

theorem test_storeRead_blank : (after .storeReadCompletes State.reset).stand.standing = .setup := by decide +kernel

theorem test_restartWait :
    (after .restartWaitExpiry { charging with inspect := ⟨none, some 100⟩ }).stand.standing = .starting := by decide +kernel

/-- A field is written once. -/
theorem test_setupWrite :
    (after (.setupWrite 0 40117233#32 1 12#32) fresh).store.installer.bay = some 12 ∧
      (after (.setupWrite 0 40117233#32 2 10#32) (fresh.setInstaller { bay := some 12 })).store.installer.bayCount = none := by
  decide +kernel

/-- Section 11.5: with Te written as 110 the blank derate start takes 90. -/
theorem test_setupLock :
    let i : Installer := { bay := some 12, bayCount := some 14, feederLimit := some 1800, derateEnd := some 110 }
    (after (.setupLock 0 40117233#32) (fresh.setInstaller i)).store.installer =
        ⟨some 12, some 14, some 1800, some 5, some 500, some 20, some 2, some 1000, some 1, some 90, some 110,
          some 19800, true⟩ ∧
      (after (.setupLock 0 40117233#32) (fresh.setInstaller i)).stand.standing = .starting := by decide +kernel

theorem test_setupRestart :
    (after (.setupRestart 0 40117233#32) charging).inspect.restartWait = some 0 := by decide +kernel

theorem test_malformedSetup :
    (after (.malformedSetup 0 [0, 0, 0, 0, 4, 0, 0, 0, 0, 0]) fresh).line.counters.lineErrors = 1 := by decide +kernel

/-! ### Queries (section 11.6) -/

/-- The first part of the reply a query leaves in the outbox, with the bytes of its header that are not the serial. -/
def firstPart (c : Instr) (s : State) : List Nat :=
  match (after c s).line.outbox.reply with
  | none => []
  | some f => ((f.payload.drop 4).map BitVec.toNat).take 6

/-- Thirty entries from bay 1 on: the parts of entries 4 to 11 have bodies of 45, 40, 40 and 40 bytes. -/
theorem test_queryPeers_parts :
    let s : State := { charging with peers := ⟨(List.range 30).map fun n => peer (n + 1) 800 0 0 0 0 0, 0, 0⟩ }
    ((after (.queryPeers (ask 9)) s).inspect.pendingReply.map fun r => r.parts.map fun p => p.length - 9) =
      some [45, 40, 40, 40] := by decide +kernel

theorem test_queryStatus : firstPart (.queryStatus (ask 9)) charging = [77, 1, 1, 1, 2, 3] := by decide +kernel
theorem test_queryNotices : firstPart (.queryNotices (ask 9)) charging = [77, 1, 3, 1, 1, 0] := by decide +kernel
theorem test_querySession : firstPart (.querySession (ask 9)) charging = [77, 1, 4, 1, 1, 2] := by decide +kernel
theorem test_queryLast : firstPart (.queryLast (ask 9)) charging = [77, 1, 5, 1, 1] := by decide +kernel
theorem test_queryConfig : firstPart (.queryConfig (ask 9)) charging = [77, 1, 6, 1, 1, 2] := by decide +kernel
theorem test_queryViewUnknown : firstPart (.queryViewUnknown (ask 9) 7) charging = [77, 2, 7, 1, 1] := by decide +kernel

/-- A QUERY taken before the report that its predecessor's reply is sent is dropped; taken after it, it is answered. -/
theorem test_query_at_report :
    let s : State := { sending .reply with inspect := ⟨some ⟨[[3]], 1, .query⟩, none⟩ }
    let first := after (.queryStatus (ask 9)) s
    first.line.counters.queriesDropped = 1 ∧ (after .sentInFull first).inspect.pendingReply = none ∧
      (after (.queryStatus (ask 9)) (after .sentInFull s)).inspect.pendingReply.isSome = true ∧
      (after (.queryStatus (ask 9)) (after .sentInFull s)).line.counters.queriesDropped = 0 := by decide +kernel

theorem test_query_dropped :
    (after (.queryStatus (ask 9)) { charging with inspect := ⟨some ⟨[[1]], 1, .query⟩, none⟩ }).line.counters.queriesDropped
      = 1 := by decide +kernel

/-! ### Notices and overrides (sections 6.4 and 6.6) -/

/-- A NOTICE for van 2011, departure 15300, no target, dispatch time 64934. -/
def noticePayload : List Byte := bytesBE 2 2011 ++ bytesBE 3 15300 ++ bytesBE 3 0 ++ bytesBE 3 64934

theorem test_notice_newest :
    let s : State := { charging with notices := ⟨[⟨2011, 16200, some 55000⟩, ⟨2012, 16200, none⟩], none⟩ }
    (after (.noticeFrame 0 noticePayload) s).notices.table = [⟨2012, 16200, none⟩, ⟨2011, 15300, none⟩] ∧
      (after (.noticeFrame 0 noticePayload) s).timer.clock = some 64934 := by decide +kernel

theorem test_notice_in_session :
    (after (.noticeFrame 0 noticePayload) { charging with session := some { van with van := 2011 } }).session.map
      (fun x => (x.departure, x.target)) = some (36766, 72000) := by decide +kernel

theorem test_limit :
    (after (.limitFrame 0 (bytesBE 2 2000 ++ bytesBE 2 1 ++ bytesBE 3 0)) charging).notices.override = some ⟨1500, 1⟩ ∧
      (after (.limitFrame 0 (bytesBE 2 450 ++ bytesBE 2 400 ++ bytesBE 3 0)) charging).notices.override = some ⟨450, 360⟩ := by
  decide +kernel

/-! ### Sessions, the meter and PERMIT (sections 5.6, 5.7 and 8.8) -/

/-- The PLUG of section 5.6: CLAMPED, countdown 36470, opening count 3. -/
theorem test_plug :
    let s := online (storeOf 2 4 1500 10) .joined
    let t := after (.plug ⟨4120, 72000, 500, 60, 40, 900⟩)
      { s with timer := { s.timer with clock := some 68530 }, meter := { s.meter with roundCount := 3 }
               notices := ⟨[⟨4120, 18600, some 60000⟩], none⟩ }
    t.session.map (fun x => (x.target, x.departure, x.vanMax, x.opening, x.plugSecond)) =
        some (60000, 36470, 400, 3, some 68530) ∧
      t.notices.table = [] ∧ t.out.link = [.ack .plug .clamped, .phase .attached {} none] := by decide +kernel

/-- A PLUG with a lower van max over a drawing session: one demand word, of 0 (log 34). -/
theorem test_plug_supersedes :
    let t := after (.plug ⟨4120, 72000, 200, 60, 40, 900⟩) charging
    t.thermal.mEff = 200 ∧ t.out.stage = charging.out.stage ++ [0] ∧ t.stage.wordSent = 0 ∧ t.stage.enable = false ∧
      t.last = some ⟨3377, 30000, .superseded, .charging⟩ := by decide +kernel

theorem test_plug_fault :
    let s : State := { charging with session := some { van with phase := .fault, faultReason := some .meter } }
    (after (.plug ⟨3377, 1, 1, 1, 0, 0⟩) s).out.link = [.ack .plug .ignored] := by decide +kernel

theorem test_taper : (after (.taper 250) charging).stage.applied = 250 := by decide +kernel
theorem test_hold : (after .hold charging).phase = .held ∧ (after .hold charging).stage.applied = 0 := by decide +kernel
theorem test_resume_keeps_held : (after .resume (after .hold charging)).phase = .held := by decide +kernel
theorem test_unplug : (after .unplug charging).last = some ⟨3377, 30000, .unplug, .charging⟩ := by decide +kernel
theorem test_permitFalling : (after .permitFalling charging).holds = { permit := true } := by decide +kernel
theorem test_permitRising : (after .permitRising (after .permitFalling charging)).holds = {} := by decide +kernel
theorem test_meterEdge_rising :
    (after .meterEdge charging).meter.sliceCount = 1 ∧ (after .meterEdge (after .meterEdge charging)).meter.sliceCount = 1 := by
  decide +kernel

/-- Section 8.8: 22501 counts of 2 Wh reach a target of 45001 at a slice end. -/
theorem test_topped :
    let s : State := { charging with
      settings := charging.settings.map fun c => { c with ppk := 250, edges := 2 }
      session := some { van with target := 45001, delivered := 22500 }
      meter := { charging.meter with sliceCount := 1 } }
    (after (.sliceExpiry ⟨50, 44, 57⟩) s).phase = .topped := by decide +kernel

/-- The claim that TOPPED re-forms asks for nothing, and in the pre-window for Pp (R68, R70). -/
theorem test_topped_claim :
    let s (pp : Nat) : State := { charging with
      session := some { van with target := 30001, departure := 600, precondPower := pp, precondTime := 900 }
      meter := { charging.meter with sliceCount := 1 } }
    let t (pp : Nat) : State := after (.sliceExpiry ⟨50, 44, 57⟩) (s pp)
    ((t 0).phase, (t 0).share.ownClaim.map Claim.q, (t 0).selfClaimant) = (.topped, some 0, none) ∧
      ((t 90).phase, (t 90).share.ownClaim.map Claim.q) = (.topped, some 90) := by decide +kernel

/-- The other reading of the same claim: E of the last round end, 1 Wh, raised to the floor (R86). -/
theorem test_topped_claim_uncredited :
    let s : State := { charging with
      session := some { van with target := 30001, departure := 600 }
      meter := { charging.meter with sliceCount := 1 }, choices := [0, 4294967296] }
    let t := after (.sliceExpiry ⟨50, 44, 57⟩) s
    (t.phase, t.share.ownClaim.map Claim.q) = (.topped, some 60) := by decide +kernel

/-- In PRECONDITION a claim formed before the round end that credits the target asks for E still. -/
theorem test_precondition_claim :
    let x : Session := { van with phase := .precondition, target := 30001, departure := 600, precondPower := 90,
                                  precondTime := 900 }
    ({ charging with session := some x, meter := { charging.meter with roundCount := 1 } } : State).claimNow.q = 91 := by
  decide +kernel

/-- Section 5.7: the first silent round holds the session, the third puts it in FAULT. -/
theorem test_silence :
    (van.applySilence true).holds = { meter := true } ∧ (van.applySilence true).meterRoundsLeft = 6 ∧
      ({ van with meterHolds := 2 }.applySilence true).faultReason = some .meter := by decide +kernel

/-- An empty queue passes 1 ms, and a second of day after the last. -/
theorem test_tick :
    (State.tick { fresh with choices := [0], timer := { fresh.timer with subSecond := 999, clock := some 86399 } }).timer =
      { fresh.timer with subSecond := 0, clock := some 0 } := by decide +kernel

/-! ### Hypotheses of the statements, met by concrete states, clause by clause at the ends of their ranges -/

/-- `charging` on a line that has been quiet, in HUNT. -/
def calm : State := { charging with line := { charging.line with receiver := .hunt } }

/-- `charging` in slice `n`. -/
def inSlice (n : Nat) : State := { charging with timer := { charging.timer with sliceIndex := n } }

/-- `charging` in FAULT or HELD, with the hold reasons `h`. -/
def heldWith (p : Phase) (h : HoldSet) : State := { charging with session := some { van with phase := p, holds := h } }

theorem test_witness_StepTakesFront :
    ({ charging with pending := [.hold, .unplug] } : State).pending = .hold :: [.unplug] := by decide +kernel

theorem test_witness_EmptyQueueTick_none :
    calm.pending = [] ∧ calm.takeStarts = calm ∧ calm.stage.startOwed = false ∧ calm.share.postOwed = false ∧
      (∀ d ∈ dueEvents, d.isDue calm.takeStarts.advance = false) ∧ calm.line.sender = .idle ∧
      calm.line.lineActive = false ∧ waiting.line.sender = .waiting 0 160 ∧ waiting.line.lineActive = false ∧
      (after .startBitHeard calm).line.lineActive = true ∧ (sending .mark).isSending = true := by decide +kernel

/-- Each event alone falls due on some state. -/
theorem test_witness_EmptyQueueTick_one :
    let alone (d : Due) (s : State) : Bool := dueEvents.all fun e => e.isDue s.takeStarts.advance == decide (e = d)
    alone .second { calm with timer := { calm.timer with subSecond := 999 } } ∧
      alone .slice { calm with timer := { calm.timer with sliceCounter := 499 } } ∧
      alone .read { State.reset with storeRead := some 39, line := { State.reset.line with receiver := .hunt } } ∧
      alone .restart { calm with inspect := ⟨none, some 99⟩ } ∧
      alone .quiet { calm with line := { calm.line with receiver := .skip true } } ∧
      alone .attempt { waiting with line := { waiting.line with sender := .waiting 15 0 } } := by decide +kernel

/-- A quiet gap and an attempt due at one tick, in either order: the line is sent on once, and the receiver hunts. A
slice end with the clock second. -/
theorem test_witness_EmptyQueueTick_two :
    let due (s : State) : List Due := dueEvents.filter (Due.isDue s.takeStarts.advance)
    let gap (c : Nat) : State := { waiting with
      choices := [c], line := { waiting.line with receiver := .skip true, sender := .waiting 15 160 } }
    let second : State := { calm with timer := { calm.timer with subSecond := 999, sliceCounter := 499 } }
    (gap 0).pending = [] ∧ due (gap 0) = [.quiet, .attempt] ∧ due second = [.second, .slice] ∧
      ([0, 1].map fun c => ((gap c).tick.line.receiver, (gap c).tick.isSending)) = [(.hunt, true), (.hunt, true)] ∧
      second.tick.timer.subSecond = 0 ∧ second.tick.timer.sliceIndex = second.timer.sliceIndex + 1 := by decide +kernel

theorem test_witness_EventsThatCannotOccur :
    (after .resetAsserted charging).pins.reset = true ∧ charging.pins.reset = false ∧ charging.storeRead = none ∧
      charging.stand.standing ≠ .starting ∧ charging.inspect.restartWait = none ∧ fresh.timer.running = false ∧
      lastSlice.cfg.roundDiv ≤ lastSlice.timer.sliceIndex + 1 ∧ (inSlice 18).timer.sliceIndex + 1 < (inSlice 18).cfg.roundDiv ∧
      (after .permitFalling charging).pins.permit = false ∧ charging.pins.permit = true ∧ charging.isSending = false ∧
      (sending .mark).isSending = true ∧ frameOf (.claimFrame 1 []) = some (.claim, 1) ∧ calm.line.sender = .idle ∧
      (after .startBitHeard waiting).line.lineActive = true ∧ charging.line.outbox.isEmpty = true := by decide +kernel

theorem test_witness_RestartState :
    charging.pins.reset = false ∧
      ({ charging with inspect := ⟨none, some 0⟩ } : State).inspect.restartWait.isSome = true := by decide +kernel

/-- The restart by the report that the reply was sent in full, with a session open. -/
theorem test_witness_RestartState_sent :
    let s : State := { sending .reply with inspect := ⟨some ⟨[[1]], 1, .restart⟩, some 0⟩ }
    s.session = some van ∧ (s.inspect.pendingReply.map PendingReply.kind) = some .restart ∧
      (after .sentInFull s).last = some ⟨3377, 30000, .restart, .charging⟩ ∧
      (after .sentInFull s).out.line = [frameBytes .reply 3 [1, 2]] ∧
      (after .sentInFull s).line.sender = .idle := by decide +kernel

theorem test_witness_ResetsClearStanding :
    let s : State := { sending .reply with inspect := ⟨some ⟨[[1]], 1, .restart⟩, some 0⟩ }
    ∃ a r, s.line.sender = .sending a ∧ a.slot = .reply ∧ s.inspect.pendingReply = some r ∧ r.kind = .restart :=
  ⟨_, _, rfl, rfl, rfl, rfl⟩

theorem test_witness_ReleaseAndRead :
    (after .resetAsserted charging).pins.reset = true ∧
      State.reset.storeRead.isSome = true ∧ State.reset.stand.standing = .starting ∧
      State.reset.store.installer.locked = false ∧
      (storeOf 12 14 1800 5).installer.locked = true ∧ 8 ≤ (storeOf 12 14 1800 5).installer.roundDiv.getD 0 ∧
      State.reset.session = none ∧ State.reset.line.sender = .idle ∧ (sending .reply).line.sender ≠ .idle := by
  decide +kernel

/-- The target reached at a slice end, phase by phase: CHARGING and DEFERRED alone pass to TOPPED (R94). -/
theorem test_witness_SliceExpiry_topped :
    let full (p : Phase) : State := { inSlice 0 with session := some { van with phase := p, target := 1 } }
    let after1 (p : Phase) : Phase := (after (.sliceExpiry ⟨50, 44, 57⟩) (full p)).phase
    [Phase.attached, .charging, .deferred, .held, .topped, .precondition, .fault].map after1 =
      [.attached, .topped, .topped, .held, .topped, .precondition, .fault] := by decide +kernel

/-- A slice end that is not a round end, in the first and in the last but one slice, with and without a session. -/
theorem test_witness_SliceExpiry :
    (inSlice 0).timer.running = true ∧ (inSlice 0).timer.sliceIndex + 1 < (inSlice 0).cfg.roundDiv ∧
      (inSlice 18).timer.sliceIndex + 1 < (inSlice 18).cfg.roundDiv ∧ (inSlice 0).session = some van ∧
      (online (storeOf 3 4 1500 10) .joined).session = none ∧ van.phase.toppable = true := by decide +kernel

/-- A slice end at the post slice and at another one, slice 1 with a MARK waiting and on the line, and what is owed. -/
theorem test_witness_SliceExpiry_claims :
    let post : State := { inSlice 5 with share := { charging.share with postSlice := some 6 } }
    let mark : State := { sending .mark with timer := (inSlice 1).timer }
    let claim : State := { sending .claim with timer := (inSlice 1).timer }
    let e : Instr := .sliceExpiry ⟨50, 44, 57⟩
    post.onLine = true ∧ post.share.postSlice = some (post.timer.sliceIndex + 1) ∧ (after e post).share.postOwed = false ∧
      (after e post).share.sequence = 2 ∧ (after e post).session = post.session ∧
      (inSlice 0).share.postSlice ≠ some 1 ∧ (after e (inSlice 0)).session = (inSlice 0).session ∧
      mark.timer.running = true ∧ mark.timer.sliceIndex = 1 ∧
      mark.line.sender = .sending ⟨.mark, frameBytes .mark 3 [1, 2], false, false, 0⟩ ∧
      claim.line.outbox.mark = some ⟨[], 0⟩ ∧ (after e claim).line.outbox.mark = none := by decide +kernel

/-- Entry to HELD and to TOPPED at a slice end, each with its claim. -/
theorem test_witness_SliceExpiry_entries :
    let held := after (.sliceExpiry ⟨90, 44, 57⟩) (inSlice 0)
    let topped := after (.sliceExpiry ⟨50, 44, 57⟩) { inSlice 0 with
      session := some { van with target := 30001 }, meter := { charging.meter with sliceCount := 1 } }
    (held.phase, held.share.sequence, held.share.ownClaim.map Claim.q) = (.held, 2, some 0) ∧
      (topped.phase, topped.share.sequence) = (.topped, 2) ∧ (inSlice 0).phase = .charging ∧
      (after (.sliceExpiry ⟨50, 44, 57⟩) (inSlice 0)).phase = .charging := by decide +kernel

theorem test_witness_SliceExpiry_owed :
    let owed := after (.sliceExpiry ⟨50, 44, 57⟩) (increasing 43200)
    let post := after (.sliceExpiry ⟨50, 44, 57⟩)
      { increasing 86400 with share := { charging.share with postSlice := some 2 } }
    owed.timer.running = true ∧ owed.stage.startOwed = true ∧ owed.stage.pendingIncrease = some 297 ∧
      owed.stage.lagSlice = some owed.timer.sliceIndex ∧ post.share.postOwed = true ∧
      post.share.postSlice = some post.timer.sliceIndex ∧ post.onLine = true ∧
      (after (.sliceExpiry ⟨50, 44, 57⟩) (increasing 43200)).permission = true := by decide +kernel

/-- Either kind of slice end, and hot values at Te, at Te − 5 and between. -/
theorem test_witness_SliceEndScan :
    (inSlice 0).timer.sliceIndex + 1 < (inSlice 0).cfg.roundDiv ∧
      lastSlice.cfg.roundDiv ≤ lastSlice.timer.sliceIndex + 1 ∧
      [90, 85, 87].map (fun t => (after (.sliceExpiry ⟨t, 44, 57⟩) (heldWith .held { thermal := true })).holds.thermal) =
        [true, false, true] := by decide +kernel

/-- An increase waits for the lag slice; permission is lost to heat; a round end finds an increase and a decrease. -/
theorem test_witness_AppliedPower :
    let s : State := { inSlice 1 with stage := { charging.stage with pendingIncrease := some 297, applied := 180 } }
    s.stage.lagSlice = some (s.timer.sliceIndex + 1) ∧ (after (.sliceExpiry ⟨50, 44, 57⟩) s).permission = true ∧
      (inSlice 2).stage.lagSlice ≠ some ((inSlice 2).timer.sliceIndex + 1) ∧
      s.permission = true ∧ (after (.sliceExpiry ⟨90, 44, 57⟩) s).permission = false ∧
      (after (.naturalRoundEnd ⟨50, 44, 57⟩) lastSlice).permission = true ∧
      lastSlice.stage.applied < (after (.naturalRoundEnd ⟨50, 44, 57⟩) lastSlice).share.allotment ∧
      (lastSlice.permission = false → lastSlice.stage.applied = 0) ∧
      lastSlice.stage.lagSlice ≠ some 0 := by decide +kernel

theorem test_witness_NaturalRoundEnd :
    lastSlice.timer.running = true ∧ lastSlice.cfg.roundDiv ≤ lastSlice.timer.sliceIndex + 1 ∧
      8 ≤ lastSlice.cfg.roundDiv ∧ lastSlice.timer.aligned = true ∧ lastSlice.onLine = true := by decide +kernel

/-- A change of the standing, and a passage to FAULT and to TOPPED, at a round end. -/
theorem test_witness_NaturalRoundEnd_claims :
    let e : Instr := .naturalRoundEnd ⟨50, 44, 57⟩
    let overdrawn : State := { lastSlice with
      session := some { van with overdrawStreak := 2 }, meter := { lastSlice.meter with roundCount := 95 } }
    (after e { lastSlice with stand := { standing := .isolated, isolationCount := 17 } }).stand.standing = .cutoff ∧
      (after e overdrawn).phase = .fault ∧
      (after e { lastSlice with session := some { van with target := 30080 } }).phase = .topped := by decide +kernel

/-- A CLAIM that waits and one on the line; the draws of a sender IDLE, waiting and sending; no passage and no claim. -/
theorem test_witness_NaturalRoundEnd_line :
    let e : Instr := .naturalRoundEnd ⟨50, 44, 57⟩
    let atEnd (s : State) : State := { s with timer := lastSlice.timer, meter := lastSlice.meter }
    let waits := after e (atEnd waiting)
    let onLine := after e (atEnd (sending .claim))
    lastSlice.line.sender = .idle ∧ (after e lastSlice).line.prng = prngAfter 2 lastSlice.line.prng ∧
      (waits.line.outbox.claim, waits.line.counters.claimsUnposted) = (none, 1) ∧
      waits.line.prng = prngAfter 1 waiting.line.prng ∧ waiting.line.outbox.reply ≠ none ∧
      onLine.line.sender = .sending ⟨.claim, frameBytes .claim 3 [1, 2], false, true, 0⟩ ∧
      (onLine.line.outbox.claim, onLine.line.counters.claimsUnposted) = (some ⟨[1, 2], 0⟩, 0) ∧
      (after e lastSlice).stand.standing = lastSlice.stand.standing ∧ (after e lastSlice).phase.reforms = false ∧
      (after e lastSlice).out.link = [] := by decide +kernel

/-- The heat of the last slice's end holds the session, the scan taken first or last: PHASE HELD and a claim of 0. -/
theorem test_witness_EntersHeld :
    let e : Instr := .naturalRoundEnd ⟨90, 44, 57⟩
    let after' (c : Nat) : State := after e { lastSlice with choices := [c, 0] }
    lastSlice.EntersHeld (after' 0) ∧ lastSlice.EntersHeld (after' 1) ∧
      (after' 0).share.allotment = 400 ∧ (after' 1).share.allotment = 0 ∧
      (after' 0).phase = .held ∧ (after' 1).phase = .held ∧ lastSlice.phase ≠ .held ∧
      (after' 0).share.ownClaim.map Claim.q = some 0 ∧ (after' 1).out.link = [.phase .held { thermal := true } none] :=
  ⟨⟨van, _, rfl, rfl, by decide +kernel⟩, ⟨van, _, rfl, rfl, by decide +kernel⟩, by decide +kernel⟩

/-- A slice driven so far, one spoiled by the cap, and a slice 0 whose word is 0. -/
theorem test_witness_driven :
    let e : Instr := .sliceExpiry ⟨50, 44, 57⟩
    (after e (inSlice 0)).stage.sliceDriven = true ∧ (after e (inSlice 0)).stage.startOwed = false ∧
      (inSlice 0).stage.enable = (inSlice 0).permission ∧
      (after e { inSlice 0 with meter := { charging.meter with roundCount := 95 } }).stage.sliceDriven = false ∧
      (after (.naturalRoundEnd ⟨50, 44, 57⟩) lastSlice).stage.sliceDriven = true ∧
      (after .permitFalling charging).stage.sliceDriven = false ∧
      (after .permitRising { charging with pins := { charging.pins with permit := false } }).stage.sliceDriven = true := by
  decide +kernel

/-- Every row of the standing's table has a unit in it. -/
theorem test_witness_RoundEndStanding :
    ({ standing := .listening, listenCount := 1, listenPosted := true } : StandingUnit).roundEnd 2 =
        { standing := .isolated } ∧
      ({ standing := .listening, listenCount := 1 } : StandingUnit).roundEnd 2 = { standing := .listening } ∧
      (({ standing := .listening, listenCount := 1 } : StandingUnit).roundEnd 1).standing = .joined ∧
      (({ standing := .joined, silentStreak := 1 } : StandingUnit).roundEnd 2).silentStreak = 2 ∧
      (({ standing := .isolated, isolationCount := 17 } : StandingUnit).roundEnd 2).standing = .cutoff ∧
      (({ standing := .rejoining, rejoinCount := 1, roundHeard := true } : StandingUnit).roundEnd 2).standing = .joined ∧
      (({ standing := .rejoining, roundHeard := true } : StandingUnit).roundEnd 2).rejoinCount = 1 ∧
      (({ standing := .cutoff } : StandingUnit).roundEnd 2).standing = .cutoff ∧
      ({ bayClash := true, clashClear := 2 } : StandingUnit).roundEnd 2 = {} := by decide +kernel

theorem test_witness_RoundEndAllotment :
    let t := after (.naturalRoundEnd ⟨50, 44, 57⟩) lastSlice
    t.stand.standing = .joined ∧ lastSlice.share.ownClaim.map Claim.q = some 60 ∧ lastSlice.peers.entries = [] ∧
      (after (.naturalRoundEnd ⟨50, 44, 57⟩)
        { lastSlice with stand := { lastSlice.stand with bayClash := true } }).stand.bayClash = true ∧
      (after (.naturalRoundEnd ⟨50, 44, 57⟩)
        { lastSlice with share := { charging.share with ownClaim := none } }).share.allotment = 0 ∧
      (after (.naturalRoundEnd ⟨50, 44, 57⟩) { lastSlice with stand := { standing := .isolated } }).share.allotment = 337 ∧
      (after (.naturalRoundEnd ⟨50, 44, 57⟩) { lastSlice with stand := { standing := .cutoff } }).share.allotment = 0 := by
  decide +kernel

/-- METER removed as the only reason at a round end: the decision sees the set empty. -/
theorem test_meter_hold_ends :
    let s : State := { lastSlice with session := some { van with phase := .held, holds := { meter := true }, meterRoundsLeft := 1 } }
    let t := after (.naturalRoundEnd ⟨50, 44, 57⟩) s
    t.holds = {} ∧ t.phase ≠ .held := by decide +kernel

theorem test_witness_RoundEndSession :
    lastSlice.session = some van ∧
      decidedPhase {} .joined 0 false 5 = .topped ∧ decidedPhase {} .joined 0 true 5 = .precondition ∧
      decidedPhase {} .joined 1 false 1 = .charging ∧ decidedPhase {} .joined 1 false 0 = .deferred ∧
      decidedPhase {} .cutoff 1 false 1 = .attached ∧
      (after (.naturalRoundEnd ⟨50, 44, 57⟩)
        { lastSlice with
          session := some { van with meterHolds := 2 }, meter := { charging.meter with ceiling := some 94 } }).session.map
            Session.faultReason = some (some .meter) ∧ decidedPhase { meter := true } .joined 1 false 1 = .held := by
  decide +kernel

theorem test_witness_PoolFigures :
    charging.cfg.feederLimit ≤ 65000 ∧ charging.cfg.reserve ≤ 25 ∧ charging.pool = ⟨1500, 150, 1350, 337⟩ := by
  decide +kernel

/-- Missed 0, 1, 3, 4, 23 and 24, the round count having come round. -/
theorem test_witness_EntryAgeAndRoles :
    [65535, 65534, 65532, 65531, 65512, 65511].map (fun h => (peer 1 h 5 9 3 7 8).role 6 65535) =
        [.claimant, .presumed 8, .presumed 8, .presumed 6, .presumed 6, .nothing] ∧
      (peer 1 65535 5 9 3 7 8).missed 2 = 3 := by decide +kernel

theorem test_witness_DeadlineOrderAndPassOne :
    deadlineOrder [⟨4, 5, 9, 3, 7⟩, ⟨2, 5, 9, 3, 7⟩, ⟨9, 6, 9, 7, 1⟩] = [⟨9, 6, 9, 7, 1⟩, ⟨2, 5, 9, 3, 7⟩, ⟨4, 5, 9, 3, 7⟩] ∧
      [6, 5, 2].map (fun rem => firstGrant rem ⟨9, 6, 9, 3, 1⟩) = [6, 5, 0] := by decide +kernel

theorem test_witness_GrantsFitAndUseAll :
    (∀ c ∈ ([⟨2, 300, 300, 50, 0⟩, ⟨5, 0, 0, 50, 900⟩] : List Claimant), c.q ≤ c.m ∧ (0 < c.q → c.f ≤ c.q)) ∧
      ([⟨⟨2, 5, 9, 3, 0⟩, 5⟩, ⟨⟨4, 5, 6, 3, 1⟩, 5⟩, ⟨⟨5, 9, 9, 3, 2⟩, 9⟩] : List Grant).map
        (fun g => decide (0 < g.power ∧ g.power < g.who.m)) = [true, true, false] ∧
      ([0, 1, 2, 4].map fun rem => (pass2 3 rem [⟨⟨2, 5, 9, 3, 0⟩, 5⟩, ⟨⟨4, 5, 6, 3, 1⟩, 5⟩]).map Grant.power) =
        [[5, 5], [6, 5], [6, 6], [8, 6]] := by decide +kernel

theorem test_witness_RequiredPower :
    charging.session = some van ∧ van.phase ≠ .vacant ∧ van.phase ≠ .fault ∧ van.holds.isEmpty = true ∧
      0 < charging.thermal.mEff ∧ van.floor ≤ charging.thermal.mEff ∧
      charging.claimEnergy { van with phase := .topped, target := 30000 } = 0 ∧
      charging.claimEnergy { van with phase := .topped, target := 30001 } = 1 ∧
      ({ charging with meter := { charging.meter with roundCount := 1 } } : State).claimEnergy
        { van with phase := .topped, target := 30001 } = 0 ∧
      ({ charging with meter := { charging.meter with roundCount := 1 }, choices := [4294967296] } : State).claimEnergy
        { van with phase := .topped, target := 30001 } = 1 ∧
      (heldWith .held { driver := true }).claimNow.hold = true ∧ (heldWith .fault {}).claimNow.q = 0 ∧
      (online (storeOf 3 4 1500 10) .joined).session = none := by decide +kernel

theorem test_witness_DeratedMax :
    (online (storeOf 3 4 1500 10) .joined).session = none ∧ State.reset.thermal.hot = none ∧
    charging.session = some van ∧ charging.thermal.hot = some 57 ∧
      [70, 71, 89, 90].map (fun h => deratedMax h 70 90 400) = [400, 380, 20, 0] := by decide +kernel

theorem test_witness_FramesAreCounted :
    frameOf (.replyFrame 5 []) = some (.reply, 5) ∧ charging.onLine = true ∧
      charging.cfg.n < 5 := by decide +kernel

/-- A frame with the sender IDLE, waiting and sending; a reply formed, a claim formed, neither. -/
theorem test_witness_FramesAreCounted_line :
    let isolated := online (storeOf 3 4 1500 10) .isolated
    let r : Instr := .replyFrame 1 []
    (after r waiting).line.sender = .waiting 0 0 ∧ (after r waiting).line.receiver = .skip true ∧
      (after r waiting).line.outbox = waiting.line.outbox ∧
      (after r (sending .claim)).line.sender = (sending .claim).line.sender ∧
      isolated.line.sender = .idle ∧ isolated.onLine = true ∧
      (after r isolated).stand.standing = .rejoining ∧ (after r isolated).share.sequence = 1 ∧
      (after r isolated).line.sender = .waiting (prngValue 16 (prngNext isolated.line.prng)) 0 ∧
      charging.inspect.pendingReply = none ∧
      (after (.queryStatus (ask 9)) charging).inspect.pendingReply.isSome = true ∧
      (after (.queryStatus (ask 9)) charging).line.sender = .waiting (prngValue 16 (prngNext charging.line.prng)) 0 ∧
      (after r calm).line.sender = .idle := by decide +kernel

/-- The own MARK on the line stays; while another frame is on the line it leaves. -/
theorem test_witness_PeerMark_own :
    let m : Instr := .markFrame 4 [1, 81, 127] ⟨0, 0, 0⟩
    (sending .mark).line.sender = .sending ⟨.mark, frameBytes .mark 3 [1, 2], false, false, 0⟩ ∧
      (after m (sending .mark)).line.outbox.mark = some ⟨[], 0⟩ ∧
      (after m (sending .claim)).line.outbox.mark = none := by decide +kernel

/-- Slice index 1 and 2, and the alignment of LISTENING. -/
theorem test_witness_PeerMark :
    charging.timer.running = true ∧ charging.onLine = true ∧ 4 ≤ charging.cfg.n ∧
      ([0, 1, 2].map fun n => (after (.markFrame 4 [1, 81, 127] ⟨0, 0, 0⟩) (inSlice n)).timer.roundCount) = [800, 800, 801] ∧
      (after (.markFrame 1 [1, 81, 128] ⟨0, 0, 0⟩)
        { online (storeOf 3 4 1500 10) .listening with timer := { charging.timer with aligned := false } }).timer.roundCount =
        801 ∧
      (after (.markFrame 1 [1, 81, 128] ⟨0, 0, 0⟩) charging).timer.clock = none ∧
      (after (.markFrame 1 [1, 81, 127] ⟨0, 0, 0⟩) charging).timer.clock = some 86399 := by decide +kernel

/-- A late MARK: a peer's is heard, the own bay's is a clash, ISOLATED passes to REJOINING with a claim formed, and CUTOFF
to LISTENING where the round timer takes it first. -/
theorem test_witness_PeerMark_late :
    let m (bay : Byte) : Instr := .markFrame bay [255, 255, 255] ⟨50, 44, 57⟩
    let isolated : State := { online (storeOf 3 4 1500 10) .isolated with stand := { standing := .isolated } }
    let cutoff (c : Nat) : State := { online (storeOf 3 4 1500 10) .cutoff with choices := c :: List.replicate 8 0 }
    (after (m 4) isolated).stand.roundHeard = true ∧ (after (m 4) isolated).timer.roundCount = 800 ∧
      (after (m 4) isolated).stand.standing = .rejoining ∧ (after (m 4) isolated).share.sequence = 1 ∧
      (after (m 3) isolated).stand = { isolated.stand with roundHeard := true, bayClash := true, roundClash := true } ∧
      ([0, 1, 2, 3].map fun c => (after (m 4) (cutoff (6 * c))).timer.roundCount) = [800, 800, 800, 801] ∧
      (after (m 4) (cutoff 0)).stand.standing = .listening ∧ (after (m 4) (cutoff 0)).timer.aligned = false := by
  decide +kernel

/-- An early round end in slice 2 and in the last slice, and an alignment. -/
theorem test_witness_EarlyRoundEnd :
    let listening : State := { online (storeOf 3 4 1500 10) .listening with timer := { charging.timer with aligned := false } }
    charging.timer.running = true ∧ charging.onLine = true ∧ 1 ≤ charging.cfg.n ∧
      (inSlice 2).timer.sliceIndex = 2 ∧ lastSlice.timer.sliceIndex = 19 ∧
      listening.timer.running = true ∧ listening.onLine = true ∧ listening.stand.standing = .listening ∧
      listening.timer.aligned = false ∧ 8 ≤ listening.cfg.roundDiv := by decide +kernel

/-- A CLAIM that waits and one on the line at an early round end; a late MARK; CUTOFF in slice 1, the frame first. -/
theorem test_witness_EarlyRoundEnd_line :
    let m : Instr := .markFrame 4 [255, 255, 255] ⟨50, 44, 57⟩
    let inSlice17 (s : State) : State :=
      { s with timer := { s.timer with sliceIndex := 17 }, meter := lastSlice.meter }
    let waits := after m (inSlice17 waiting)
    let onLine := after m (inSlice17 (sending .claim))
    let cutoff (c : Nat) : State := after m { online (storeOf 3 4 1500 10) .cutoff with choices := [c, 0, 0] }
    (waits.line.outbox.claim, waits.line.counters.claimsUnposted, waits.timer.roundCount) = (none, 1, 801) ∧
      waits.line.outbox.reply = waiting.line.outbox.reply ∧ waits.line.sender = .waiting 0 0 ∧
      onLine.line.sender = .sending ⟨.claim, frameBytes .claim 3 [1, 2], false, true, 0⟩ ∧
      (onLine.line.outbox.claim, onLine.line.counters.claimsUnposted) = (some ⟨[1, 2], 0⟩, 0) ∧
      (after m calm).timer = calm.timer ∧ (after m calm).share = calm.share ∧
      ((List.range 24).map fun c => (cutoff c).timer.roundCount).contains 800 = true ∧
      ((List.range 24).map fun c => (cutoff c).timer.roundCount).contains 801 = true := by decide +kernel

/-- A MARK of two bytes, and the draw that a frame of a peer leaves as it was, in ISOLATED too. -/
theorem test_frames_keep_draw :
    let m : Instr := .markFrame 4 [1, 2] ⟨50, 44, 57⟩
    let isolated : State := { charging with stand := { charging.stand with standing := .isolated } }
    (after m charging).stage = charging.stage ∧ (after m charging).out = charging.out ∧
      (after m charging).share = charging.share ∧ (after m isolated).stand.standing = .rejoining ∧
      (after m isolated).stage = isolated.stage ∧ (after m isolated).out = isolated.out ∧
      isolated.permission = true ∧ isolated.stage.wordSent = isolated.stage.word := by decide +kernel

theorem test_witness_FramesNotTaken :
    fresh.onLine = false ∧ fresh.timer.running = false ∧ charging.cfg.n < 5 ∧
      charging.cfg.bay = 3 := by decide +kernel

/-- A claim at every bound, and one a step past each. -/
theorem test_witness_PeerClaim :
    let claim (st q m f p : Nat) := bytesBE 1 st ++ [0] ++ bytesBE 2 q ++ bytesBE 2 m ++ bytesBE 2 f ++ [0, 0] ++ bytesBE 2 p ++
      [0, 0, 0, 0]
    (peerEntryOf 1 0 (claim 2 2500 2500 2500 2500)).isSome = true ∧ (peerEntryOf 1 0 (claim 6 0 0 2500 0)).isSome = true ∧
      [claim 1 0 0 0 0, claim 7 0 0 0 0, claim 2 5 4 0 0, claim 2 4 5 5 0, claim 2 0 2501 0 0, claim 2 0 0 2501 0,
        claim 2 0 0 0 2501].all (fun p => (peerEntryOf 1 0 p).isNone) = true ∧
      charging.onLine = true ∧ charging.peers.entries.Pairwise (fun a b => a.bay < b.bay) := by
  decide +kernel

theorem test_witness_NoticeTaken :
    charging.session = some van ∧ (2011 : Nat) ≠ van.van ∧ (15300 : Nat) < 86400 ∧
      ({ charging with session := some { van with van := 2011 } } : State).session.map Session.van = some 2011 ∧
      charging.onLine = true ∧
      (after (.noticeFrame 0 (bytesBE 2 3377 ++ bytesBE 3 15300 ++ bytesBE 3 30000 ++ bytesBE 3 64934)) charging).phase =
        .topped := by decide +kernel

theorem test_witness_LimitTaken :
    charging.onLine = true ∧ fresh.onLine = false ∧ charging.permission = true ∧
      (after .hold charging).permission = false ∧ (after .hold charging).stage.applied = 0 ∧
      (after .hold charging).stage.pendingIncrease = none := by decide +kernel

theorem test_witness_MalformedFrames :
    noticePayload.length = 11 ∧ (noticePayload.drop 1).length ≠ 11 ∧
      ([0, 0, 0, 0, 4, 0, 0, 0, 0, 0] : List Byte)[4]? = some 4 ∧ (4 : Byte) ≠ 1 ∧ (4 : Byte) ≠ 2 ∧ (4 : Byte) ≠ 3 := by
  decide +kernel

theorem test_witness_StandingUnitHears :
    charging.onLine = true ∧ charging.cfg.bay = 3 ∧ charging.cfg.n = 4 ∧
      (online (storeOf 3 4 1500 10) .isolated).onLine = true ∧
      (after (.replyFrame 1 []) (online (storeOf 3 4 1500 10) .cutoff)).stand.standing = .listening := by decide +kernel

/-- By bay on the line, by serial in SETUP; a known and an unknown view. -/
theorem test_witness_QueryAnswered :
    queryOfCommand (.queryStatus (ask 9)) = some (ask 9, 1) ∧ queryOfCommand (.queryViewUnknown (ask 9) 7) = some (ask 9, 7) ∧
      (ask 9).length = 9 ∧ charging.inspect.pendingReply = none ∧ charging.onLine = true ∧
      (ask 9).form = 1 ∧ (ask 9).target.toNat = charging.cfg.bay ∧ fresh.onLine = false ∧
      fresh.addressed 2 fresh.store.serial = true := by decide +kernel

theorem test_witness_Views :
    charging.session.isSome = true ∧ fresh.session = none ∧ fresh.last = none ∧
      (after .unplug charging).last.isSome = true ∧ bytesBE 3 16777215 = [255, 255, 255] ∧
      charging.stage.enable = true ∧ charging.pins.permit = true ∧ charging.timer.clock.isNone = true := by decide +kernel

/-- Bytes with the flags of a state, as the hypotheses on the flag bytes ask: aligned, ENABLE and PERMIT, clock UNSET. -/
theorem test_witness_Views_flags :
    (∀ i < 8, ([charging.stage.pendingIncrease.isSome, charging.stand.bayClash, charging.timer.aligned, charging.meter.capped,
        charging.stage.cap, charging.stage.enable, charging.pins.permit, charging.thermal.derating][i]?) =
          some ((0x64 : Byte).getLsbD i)) ∧
      ∀ i < 8, ([charging.thermal.ch0.faulty, charging.thermal.ch1.faulty, charging.thermal.ch2.faulty,
        charging.notices.override.isSome, charging.timer.clock.isNone, charging.inspect.restartWait.isSome, false, false][i]?) =
          some ((0x10 : Byte).getLsbD i) := by decide +kernel

/-- Items of 46, 1 and 1 bytes: the second still fits, the third does not. -/
theorem test_witness_ReplyParts :
    (∀ i ∈ charging.statusItems, i.length ≤ 47) ∧
      (replyParts 7#32 0 .shown 1 [List.replicate 46 0, [1], [2]]).map List.length = [56, 10] ∧
      (replyParts 7#32 0 .shown 1 []).map List.length = [9] := by decide +kernel

theorem test_witness_RequestNotDecided :
    let busy : State := { charging with inspect := ⟨some ⟨[[1]], 1, .query⟩, none⟩ }
    frameOf (.queryStatus (ask 9)) = some (.query, 0) ∧ frameOf (.setupLock 0 7#32) = some (.setup, 0) ∧
      setupOfCommand (.setupLock 0 7#32) = some (7#32, .lock) ∧
      (7#32 : BitVec 32) ≠ charging.store.serial ∧ charging.addressed 1 4#32 = false ∧ busy.addressed 1 3#32 = true ∧
      busy.inspect.pendingReply.isSome = true := by decide +kernel

/-- The bounds of the codes and of the fields. -/
theorem test_witness_SetupWrite :
    fresh.inspect.pendingReply = none ∧ fresh.stand.standing = .setup ∧
      charging.stand.standing ≠ .setup ∧
      [(0, 1), (1, 1), (1, 32), (12, 86399), (12, 86400), (13, 0), (14, 0), (15, 0)].map (fun x : Nat × Nat => fresh.writeCode x.1 x.2) =
        [.unknownField, .accepted, .range, .accepted, .range, .fieldWritten, .fieldWritten, .unknownField] := by
  decide +kernel

theorem test_witness_FieldChecks :
    State.reset.store.installer.bay = none ∧ State.reset.store.installer.bayCount = none ∧
      State.reset.store.installer.derateStart = none ∧ State.reset.store.installer.derateEnd = none ∧
      [(110, 69), (110, 70), (110, 100), (110, 101), (45, 40), (45, 41)].map
        (fun x : Nat × Nat => ({ derateEnd := some x.1 } : Installer).admits 10 x.2) =
        [false, true, true, false, true, false] ∧
      [(40, 44), (40, 45), (40, 80), (40, 81), (100, 130), (100, 131)].map
        (fun x : Nat × Nat => ({ derateStart := some x.1 } : Installer).admits 11 x.2) =
        [false, true, true, false, true, false] := by decide +kernel

theorem test_witness_SetupLock :
    fresh.stand.standing = .setup ∧ fresh.store.installer.bay = none ∧
      ({ bay := some 12, bayCount := some 14, feederLimit := some 1800 } : Installer).mandatoryBlank = false ∧
      [some 45, some 61, some 120, some 130, none].map (fun te => ({ derateEnd := te } : Installer).lockedStart) =
        [40, 41, 100, 100, 70] := by decide +kernel

theorem test_witness_SetupRestart : charging.inspect.pendingReply = none := by decide +kernel

theorem test_witness_LineEvents :
    calm.isSending = false ∧ calm.line.lineActive = false ∧ (after .startBitHeard calm).line.lineActive = true ∧
      (after .startBitHeard calm).isSending = false := by decide +kernel

/-- A length byte of 56 and 57, and each state of the receiver. -/
theorem test_witness_CharacterHeard :
    let with_ (r : Receiver) : State := { calm with line := { calm.line with receiver := r } }
    (sending .mark).isSending = true ∧ (frameBytes .claim 3 [1, 2])[0]? = some 0xA5 ∧
    (frameBytes .claim 3 [1, 2])[7]? = (frameBytes .claim 3 [1, 2]).getLast? ∧ (frameBytes .claim 3 [1, 2]).length = 8 ∧
    calm.isSending = false ∧ calm.line.receiver = .hunt ∧
      (after (.characterHeard 0xA5) calm).line.receiver = .frame [0xA5] ∧
      (after (.characterHeard 56) (with_ (.frame [0xA5, 1, 2]))).line.receiver = .frame [0xA5, 1, 2, 56] ∧
      (after (.characterHeard 0) (with_ (.frame [0xA5, 1, 2, 0, 0]))).line.receiver = .skip true ∧
      (after (.characterHeard 0) (with_ (.skip true))).line.receiver = .skip false := by decide +kernel

theorem test_witness_FrameByCharacters :
    calm.line.receiver = .hunt ∧ calm.isSending = false ∧ calm.pending = [] ∧ ([] : List Byte).length ≤ 56 ∧
      (List.replicate 56 (0 : Byte)).length ≤ 56 := by decide +kernel

theorem test_witness_ClaimReadBack : charging.claimNow.WellFormed := by constructor <;> decide +kernel

/-- One slot after the other is the highest. -/
theorem test_witness_AttemptBegins :
    waiting.line.sender = .waiting 0 160 ∧ waiting.line.lineActive = false ∧ waiting.line.outbox.mark = none ∧
      waiting.line.outbox.claim = some ⟨[1, 2], 0⟩ ∧
      ((after .sendAttempt { waiting with line := { waiting.line with outbox := ⟨none, none, some ⟨[3], 7⟩⟩ } }).line.sender) =
        .sending ⟨.reply, frameBytes .reply 3 [3], false, false, 0⟩ ∧
      ((after .sendAttempt { waiting with line := { waiting.line with outbox := ⟨some ⟨[], 0⟩, none, none⟩ } }).line.sender) =
        .sending ⟨.mark, frameBytes .mark 3 [255, 255, 255], false, false, 0⟩ := by decide +kernel

/-- The three slots; a reply with a part to come, with none, and one of a RESTART. -/
theorem test_witness_SentInFull :
    let s (kind : RequestKind) (placed : Nat) : State := { sending .reply with inspect := ⟨some ⟨[[1], [2]], placed, kind⟩, none⟩ }
    ((after .sentInFull (s .query 1)).inspect.pendingReply.map PendingReply.placed) = some 2 ∧
      (after .sentInFull (s .query 2)).inspect.pendingReply = none ∧
      (after .sentInFull (s .restart 2)).stand.standing = .starting ∧
      (after .sentInFull (sending .mark)).line.outbox.mark = none := by decide +kernel

theorem test_witness_CollisionTaken :
    (sending .claim).line.sender = .sending ⟨.claim, frameBytes .claim 3 [1, 2], false, false, 0⟩ ∧
      (sending .claim).line.outbox.get .claim = some ⟨[1, 2], 0⟩ ∧
      (sending .reply).line.outbox.get .reply = some ⟨[3], 7⟩ := by decide +kernel

/-- HOLD, UNPLUG and PERMIT_FALLING each send one word of 0 while drawing, and none under the cap. -/
theorem test_words_lost_permission :
    let capped : State := { charging with stage := { charging.stage with cap := true, wordSent := 0 } }
    let words (s : State) : List (List Nat) :=
      [.hold, .unplug, .permitFalling].map fun c => (after c s).out.stage.drop s.out.stage.length
    words charging = [[0], [0], [0]] ∧ words capped = [[], [], []] ∧ (after .hold capped).stage.cap = true := by
  decide +kernel

theorem test_witness_InputEdges :
    charging.pins.permit = true ∧ charging.session = some van ∧ van.phase ≠ .vacant ∧
      (after .permitFalling charging).pins.permit = false ∧ (after .permitFalling fresh) = fresh ∧ charging.onLine = true ∧
      van.phase ≠ .held ∧ van.phase ≠ .fault ∧ van.holds.permit = false ∧
      (after .permitFalling charging).share.ownClaim.map Claim.q = some 0 ∧
      (after .permitFalling charging).out.link = [.phase .held { permit := true } none] ∧
      (after .permitRising (after .permitFalling charging)).out.link =
        [.phase .held { permit := true } none, .phase .held {} none] := by decide +kernel

theorem test_witness_Records :
    fresh.onLine = false ∧ charging.onLine = true ∧ (heldWith .fault {}).phase = .fault ∧
      (online (storeOf 3 4 1500 10) .joined).session = none ∧ (heldWith .held { driver := true }).holds.driver = true ∧
      charging.holds.driver = false ∧ charging.phase = .charging := by decide +kernel

/-- The invariants hold with a session open and rounds running, not at reset alone. -/
theorem test_witness_RoundsInv : charging.RoundsInv := by constructor <;> decide +kernel
/-- A locked store is sound. -/
theorem test_witness_StoreKept :
    charging.store.installer.locked = true ∧ charging.store.installer.Sound := by
  have fields : charging.store.installer =
      ⟨some 3, some 4, some 1500, some 10, some 500, some 20, some 2, some 1000, some 1, some 70, some 90, some 19800, true⟩ := by
    decide +kernel
  have full : ∀ n, n < 13 → 1 ≤ n → charging.store.installer.written n = some true := by decide +kernel
  refine ⟨by decide +kernel, ?_⟩
  constructor
  case full => exact fun _ code h1 h2 => full code (by omega) h1
  all_goals rw [fields]; simp [fieldHas]
theorem test_witness_DrawInv : charging.DrawSafe := by
  constructor
  case waiting => intro p h; cases h
  all_goals decide +kernel
/-- The same in ISOLATED. -/
theorem test_witness_DrawSafe_isolated :
    ({ charging with stand := { charging.stand with standing := .isolated } } : State).DrawSafe := by
  constructor
  case waiting => intro p h; cases h
  all_goals decide +kernel
/-- A wait under way and an attempt under way. -/
theorem test_witness_OutboxInv : waiting.line.OutboxInv ∧ (sending .claim).line.OutboxInv := by
  constructor
  · exact ⟨rfl, fun slot f h => by cases slot <;> cases h <;> decide, fun a h => by cases h⟩
  · exact ⟨fun _ => rfl, fun slot f h => by cases slot <;> cases h <;> decide, fun a h => by cases h; decide +kernel⟩
theorem test_witness_TimerSafe : charging.TimerSafe := by
  constructor
  case clock => intro c h; cases h
  all_goals decide +kernel
theorem test_witness_TimerInv : charging.TimerInv :=
  ⟨test_witness_RoundsInv, test_witness_StoreKept.2, test_witness_TimerSafe⟩
theorem test_witness_PeersInv :
    ({ charging with peers := ⟨[peer 1 800 134 500 60 16200 371, peer 4 800 225 500 60 14400 462], 0, 0⟩ } : State).PeersSafe := by
  constructor <;> decide +kernel
/-- A notice with a target and one without, beside a session. -/
theorem test_witness_NoticesInv :
    ({ charging with notices := ⟨[⟨2011, 16200, some 55000⟩, ⟨2012, 16200, none⟩], none⟩ } : State).NoticesInv := by
  constructor
  case sound =>
    intro e h
    rcases List.mem_cons.1 h with rfl | h
    · exact ⟨by decide, by decide, fun t h => by cases h; decide⟩
    · cases List.mem_singleton.1 h; exact ⟨by decide, by decide, fun t h => by cases h⟩
  case apart => intro x h; cases h; decide +kernel
  all_goals decide +kernel
theorem test_witness_SessionInv : van.Sound := by
  constructor
  case plugged => intro c h; cases h
  all_goals decide +kernel
theorem test_witness_SessionSafe : charging.SessionSafe := by
  constructor
  case sound => intro x h; cases h; exact test_witness_SessionInv
  case rated => intro x h; cases h; decide +kernel
  case clock => intro c h; cases h
  all_goals decide +kernel
theorem test_witness_Standing : charging.stand.Sound := by constructor <;> decide +kernel
/-- A session in CHARGING with its claim, beside the claims of two peers. -/
theorem test_witness_ClaimInv :
    ({ charging with
        peers := ⟨[peer 1 800 134 500 60 16200 371, peer 4 800 225 500 60 14400 462], 0, 0⟩ } : State).ClaimInv := by
  refine ⟨by constructor <;> decide +kernel, ?_⟩
  constructor
  case own => intro c h; cases h; constructor <;> decide +kernel
  case floor => intro x h; cases h; decide +kernel
  all_goals decide +kernel

end Sys2Proof.Machine.Test
end

section
/-! What power-up and every restart leave of the standing unit and stage control (R19, R110). -/

namespace Sys2Proof.Machine

@[simp] theorem State.resetBlocks_stand (s : State) : s.resetBlocks.stand = {} := rfl
@[simp] theorem State.resetBlocks_stage (s : State) : s.resetBlocks.stage = {} := rfl

@[simp] theorem State.powerUp_stand (s : State) : s.powerUp.stand = {} := State.resetBlocks_stand _
@[simp] theorem State.powerUp_stage (s : State) : s.powerUp.stage = {} := State.resetBlocks_stage _

@[simp] theorem State.restart_stand (s : State) : s.restart.stand = {} := State.resetBlocks_stand _
@[simp] theorem State.restart_stage (s : State) : s.restart.stage = {} := State.resetBlocks_stage _

theorem State.assertReset_of_released {s : State} (h : s.pins.reset = false) :
    s.assertReset = ({ s with pins := { s.pins with reset := true } } : State).restart := by
  simp [State.assertReset, h]

theorem State.restartWaitEnds_of_waiting {s : State} (h : s.inspect.restartWait.isSome = true) :
    s.restartWaitEnds = s.restart := by
  simp [State.restartWaitEnds, h]

/-- The report that a RESTART's reply was sent in full carries the restart out (R180). -/
theorem State.replySent_of_restart {s : State} {r : PendingReply} (h : s.inspect.pendingReply = some r)
    (hk : r.kind = .restart) : s.replySent = s.restart := by
  simp [State.replySent, h, hk]

/-- The attempt that sends a RESTART's reply ends in the restart: only the sender's next wait comes after it. -/
theorem State.frameSent_of_restart {s : State} {a : Attempt} {r : PendingReply} (ha : a.slot = .reply)
    (h : s.inspect.pendingReply = some r) (hk : r.kind = .restart) :
    ∃ u : State, s.frameSent a = u.restart.afterAttempt 16 := by
  unfold State.frameSent
  simp only [ha]
  rw [State.replySent_of_restart (r := r) _ hk]
  · exact ⟨_, rfl⟩
  · split <;> exact h

/-- Settles O6: each of the four events is power-up or a restart, which leave both blocks at their default values. -/
theorem resetsClearStanding : Obligations.ResetsClearStanding := by
  intro c s hc
  have reset : ∃ t, exec c s = .next t ∧ t.stand = {} ∧ t.stage = {} := by
    rcases hc with rfl | ⟨rfl, hr⟩ | ⟨rfl, hw⟩ | ⟨rfl, a, r, hs, ha, hp, hk⟩
    case inl => exact ⟨s.powerUp, rfl, by simp⟩
    case inr.inl => exact ⟨s.assertReset, rfl, by simp [State.assertReset_of_released hr]⟩
    case inr.inr.inl => exact ⟨s.restartWaitEnds, rfl, by simp [State.restartWaitEnds_of_waiting hw]⟩
    case inr.inr.inr =>
      obtain ⟨u, hu⟩ := State.frameSent_of_restart ha hp hk
      have sent : s.ofAttempt State.frameSent = s.frameSent a := State.ofAttemptOr_sending hs _ _
      exact ⟨s.ofAttempt State.frameSent, rfl, by simp [sent, hu]⟩
  obtain ⟨t, ht, hstand, hstage⟩ := reset
  exact ⟨t, ht, by simp [hstand, hstage]⟩

end Sys2Proof.Machine
end

section
/-! A CLAIM of a peer bay: which payloads the table takes, what the table and the line counters are afterwards, and what
the frame leaves unchanged (R37 to R40). -/

namespace Sys2Proof.Machine

/-! ### The payload (R38) -/

/-- R38 of a payload: 16 bytes, a standing that sends claims, the powers, q and F within their bounds. -/
def WellFormedClaim (payload : List Byte) : Prop :=
  ∃ st ph q1 q0 m1 m0 f1 f0 k1 k0 p1 p0 flags reasons seq reserved : Byte,
    payload = [st, ph, q1, q0, m1, m0, f1, f0, k1, k0, p1, p0, flags, reasons, seq, reserved] ∧
    2 ≤ st.toNat ∧ st.toNat ≤ 6 ∧
    q1.toNat * 256 + q0.toNat ≤ m1.toNat * 256 + m0.toNat ∧ m1.toNat * 256 + m0.toNat ≤ 2500 ∧
    f1.toNat * 256 + f0.toNat ≤ 2500 ∧ p1.toNat * 256 + p0.toNat ≤ 2500 ∧
    (0 < q1.toNat * 256 + q0.toNat → f1.toNat * 256 + f0.toNat ≤ q1.toNat * 256 + q0.toNat)

/-- The entry read from 16 bytes within the bounds, field by field (R36, R38). -/
theorem peerEntryOf_of_bounds (bay round : Nat)
    {st ph q1 q0 m1 m0 f1 f0 k1 k0 p1 p0 flags reasons seq reserved : Byte} {standing : Standing}
    (hst : Standing.ofClaimCode st.toNat = some standing) (hm : m1.toNat * 256 + m0.toNat ≤ 2500)
    (hf : f1.toNat * 256 + f0.toNat ≤ 2500) (hp : p1.toNat * 256 + p0.toNat ≤ 2500)
    (hqm : q1.toNat * 256 + q0.toNat ≤ m1.toNat * 256 + m0.toNat)
    (hfq : 0 < q1.toNat * 256 + q0.toNat → f1.toNat * 256 + f0.toNat ≤ q1.toNat * 256 + q0.toNat) :
    peerEntryOf bay round [st, ph, q1, q0, m1, m0, f1, f0, k1, k0, p1, p0, flags, reasons, seq, reserved] = some
      { bay := bay, lastHeard := round, standing := standing, phase := ph, q := q1.toNat * 256 + q0.toNat
        m := m1.toNat * 256 + m0.toNat, f := f1.toNat * 256 + f0.toNat, k := k1.toNat * 256 + k0.toNat
        pEff := p1.toNat * 256 + p0.toNat, thermal := flags.getLsbD 0, clash := flags.getLsbD 1
        hold := flags.getLsbD 2
        reasons := ⟨reasons.getLsbD 0, reasons.getLsbD 1, reasons.getLsbD 2, reasons.getLsbD 3⟩
        sequence := seq.toNat } := by
  simp only [peerEntryOf, hst, numBE_two, Config.maxPower]
  exact if_pos ⟨hm, hf, hp, hqm, hfq⟩

/-- Only a well-formed payload gives an entry. -/
theorem wellFormedClaim_of_peerEntryOf {bay round : Nat} {payload : List Byte} {e : PeerEntry}
    (h : peerEntryOf bay round payload = some e) : WellFormedClaim payload := by
  unfold peerEntryOf at h
  split at h
  · split at h
    · cases h
    · next hst =>
      obtain ⟨hst2, hst6⟩ := Standing.ofClaimCode_range hst
      simp only [numBE_two, Config.maxPower] at h
      split at h
      · next hbounds =>
        obtain ⟨hm, hf, hp, hqm, hfq⟩ := hbounds
        exact ⟨_, _, _, _, _, _, _, _, _, _, _, _, _, _, _, _, rfl, hst2, hst6, hqm, hm, hf, hp, hfq⟩
      · cases h
  · cases h

theorem peerEntryOf_malformed {bay round : Nat} {payload : List Byte} (h : ¬ WellFormedClaim payload) :
    peerEntryOf bay round payload = none :=
  Option.eq_none_iff_forall_ne_some.2 fun _ he => h (wellFormedClaim_of_peerEntryOf he)

/-! ### The peer table's part (R37 to R40) -/

/-- A payload of a peer bay that gives an entry is put into the table (R39, R40). -/
theorem State.peersTake_of_entry {s : State} {b : Nat} {payload : List Byte} {e : PeerEntry} (hon : s.onLine = true)
    (h1 : 1 ≤ b) (hn : b ≤ s.cfg.n) (hb : b ≠ s.cfg.bay) (he : peerEntryOf b s.timer.roundCount payload = some e) :
    s.peersTake b payload = { s with peers := { s.peers with entries := putEntry e s.peers.entries } } := by
  have hstanding : s.stand.standing.onLine = true := hon
  simp [State.peersTake, State.isStation, hstanding, h1, hn, hb, he]

/-- A payload of a peer bay that gives none is a line error (R38). -/
theorem State.peersTake_of_none {s : State} {b : Nat} {payload : List Byte} (hon : s.onLine = true)
    (h1 : 1 ≤ b) (hn : b ≤ s.cfg.n) (hb : b ≠ s.cfg.bay) (he : peerEntryOf b s.timer.roundCount payload = none) :
    s.peersTake b payload = s.countLineError := by
  have hstanding : s.stand.standing.onLine = true := hon
  simp [State.peersTake, State.isStation, hstanding, h1, hn, hb, he]

/-- The table's part can change the entries and the line engine alone. -/
theorem State.peersTake_frame (b : Nat) (payload : List Byte) (s : State) :
    ∃ es li, s.peersTake b payload = { s with peers := { s.peers with entries := es }, line := li } := by
  unfold State.peersTake
  split
  · split <;> exact ⟨_, _, rfl⟩
  · exact ⟨_, _, rfl⟩

@[simp] theorem State.peersTake_stand (b : Nat) (payload : List Byte) (s : State) :
    (s.peersTake b payload).stand = s.stand := by
  obtain ⟨_, _, h⟩ := s.peersTake_frame b payload; rw [h]

@[simp] theorem State.peersTake_settings (b : Nat) (payload : List Byte) (s : State) :
    (s.peersTake b payload).settings = s.settings := by
  obtain ⟨_, _, h⟩ := s.peersTake_frame b payload; rw [h]

@[simp] theorem State.peersTake_share (b : Nat) (payload : List Byte) (s : State) :
    (s.peersTake b payload).share = s.share := by
  obtain ⟨_, _, h⟩ := s.peersTake_frame b payload; rw [h]

@[simp] theorem State.peersTake_dHanded (b : Nat) (payload : List Byte) (s : State) :
    (s.peersTake b payload).peers.dHanded = s.peers.dHanded := by
  obtain ⟨_, _, h⟩ := s.peersTake_frame b payload; rw [h]

@[simp] theorem State.peersTake_claimantsHanded (b : Nat) (payload : List Byte) (s : State) :
    (s.peersTake b payload).peers.claimantsHanded = s.peers.claimantsHanded := by
  obtain ⟨_, _, h⟩ := s.peersTake_frame b payload; rw [h]

/-! ### The standing unit's part (R22) -/

/-- A station frame is heard in the round it comes in, whatever passage it brings. -/
theorem State.standingTakes_roundHeard {s : State} {b : Nat} (hon : s.onLine = true) (h1 : 1 ≤ b) (hn : b ≤ s.cfg.n) :
    (s.standingTakes b).stand.roundHeard = true := by
  rw [State.standingTakes_stand, if_pos ⟨hon, h1, hn⟩]
  split
  · rfl
  · split <;> rfl

/-! ### The whole frame -/

/-- A CLAIM is taken from the line, then by the peer table, then by the standing unit (R160, R161). -/
theorem effect_claimFrame (s : State) (bay : Byte) (payload : List Byte) :
    effect (.claimFrame bay payload) s =
      ((s.takeFrame .claim bay.toNat).peersTake bay.toNat payload).standingTakes bay.toNat := rfl

theorem effect_claimFrame_stand (s : State) (bay : Byte) (payload : List Byte) :
    (effect (.claimFrame bay payload) s).stand = (s.standingTakes bay.toNat).stand := by
  rw [effect_claimFrame]
  exact State.standingTakes_stand_congr (by simp) (by simp) _

/-- All that a CLAIM can change: of the timer the aligned indicator alone. -/
theorem effect_claimFrame_frame (s : State) (bay : Byte) (payload : List Byte) :
    ∃ al sd pe sh g li o, effect (.claimFrame bay payload) s = { s with
      timer := { s.timer with aligned := al }, stand := sd, peers := pe, share := sh
      stage := g, line := li, out := o } := by
  obtain ⟨w, hw, hwline, -⟩ := s.takeFrame_spec .claim bay.toNat
  obtain ⟨_, _, hp⟩ := w.peersTake_frame bay.toNat payload
  obtain ⟨_, _, _, _, _, _, ht⟩ := (w.peersTake bay.toNat payload).standingTakes_whole bay.toNat
  rw [effect_claimFrame, hw, ht, hp, hwline]
  exact ⟨_, _, _, _, _, _, _, rfl⟩

section
variable {s : State} {bay : Byte} {payload : List Byte}

/-- A payload that gives an entry makes it the one entry of its bay, in bay order; the entries of other bays stand, and
no line error is counted (R35, R39, R40). -/
theorem effect_claimFrame_entered (hon : s.onLine = true) (h1 : 1 ≤ bay.toNat) (hn : bay.toNat ≤ s.cfg.n)
    (hb : bay.toNat ≠ s.cfg.bay) (hordered : s.peers.entries.Pairwise fun a b => a.bay < b.bay) {e : PeerEntry}
    (he : peerEntryOf bay.toNat s.timer.roundCount payload = some e) :
    (effect (.claimFrame bay payload) s).line.counters.lineErrors = s.line.counters.lineErrors ∧
      ((effect (.claimFrame bay payload) s).peers.entries.Pairwise fun a b => a.bay < b.bay) ∧
      ∀ d, d ∈ (effect (.claimFrame bay payload) s).peers.entries ↔
        d = e ∨ (d ∈ s.peers.entries ∧ d.bay ≠ bay.toNat) := by
  rw [effect_claimFrame, State.standingTakes_peers, State.standingTakes_counters,
    State.peersTake_of_entry (s := s.takeFrame .claim bay.toNat) hon h1 hn hb he, ← peerEntryOf_bay he]
  exact ⟨rfl, putEntry_ordered e _ hordered, mem_putEntry_iff e _ hordered⟩

/-- A malformed payload is counted and enters nothing (R38). -/
theorem effect_claimFrame_malformed (hon : s.onLine = true) (h1 : 1 ≤ bay.toNat) (hn : bay.toNat ≤ s.cfg.n)
    (hb : bay.toNat ≠ s.cfg.bay) (hbad : ¬ WellFormedClaim payload) :
    (effect (.claimFrame bay payload) s).line.counters.lineErrors = min 65535 (s.line.counters.lineErrors + 1) ∧
      (effect (.claimFrame bay payload) s).peers.entries = s.peers.entries := by
  rw [effect_claimFrame, State.standingTakes_peers, State.standingTakes_counters,
    State.peersTake_of_none (s := s.takeFrame .claim bay.toNat) hon h1 hn hb (peerEntryOf_malformed hbad)]
  exact ⟨rfl, rfl⟩

end

/-- Settles O26: a well-formed payload is read into the entry put in its place in the ordered table, a malformed one
into none; the rest is what the parts of the frame leave unchanged. -/
theorem peerClaim : Obligations.PeerClaim := by
  intro s bay payload hon h1 hn hb hordered
  have hstand := effect_claimFrame_stand s bay payload
  refine ⟨_, exec_eq _ s, hstand, ?heard, ?dHanded, ?claimants, ?entered,
    effect_claimFrame_malformed hon h1 hn hb, ?frame, ?allotment⟩
  case heard => rw [hstand]; exact State.standingTakes_roundHeard hon h1 hn
  case dHanded => simp [effect_claimFrame]
  case claimants => simp [effect_claimFrame]
  case entered =>
    rintro st ph q1 q0 m1 m0 f1 f0 k1 k0 p1 p0 flags reasons seq reserved rfl _ _ _ _ rfl rfl rfl rfl
      hst2 hst6 - hm hf hp hqm hfq
    obtain ⟨standing, hst⟩ := Standing.ofClaimCode_isSome hst2 hst6
    have he := peerEntryOf_of_bounds bay.toNat s.timer.roundCount hst hm hf hp hqm hfq
      (ph := ph) (k1 := k1) (k0 := k0) (flags := flags) (reasons := reasons) (seq := seq) (reserved := reserved)
    obtain ⟨herrors, hsorted, hmem⟩ := effect_claimFrame_entered hon h1 hn hb hordered he
    refine ⟨herrors, _, ?_, ?_, ?code, ?_, ?_, ?_, ?_, ?_, ?_, ?_, ?_, ?_, ?_, ?_, hsorted, hmem⟩
    case code => exact Standing.ofClaimCode_code hst
    all_goals rfl
  case frame =>
    obtain ⟨_, _, _, _, _, _, _, h⟩ := effect_claimFrame_frame s bay payload
    rw [h]
  case allotment => simp [effect_claimFrame]

end Sys2Proof.Machine
end

section
/-! Deadline order, the self claimant and Pass 1 (R53, R62, R63). -/

namespace Sys2Proof.Machine

/-! ### Deadline order (R62) -/

theorem deadlineOrder_sorted : ∀ cs : List Claimant,
    (deadlineOrder cs).Pairwise fun a b => a.k < b.k ∨ (a.k = b.k ∧ a.bay ≤ b.bay)
  | [] => .nil
  | c :: l => insertClaimant_sorted c (deadlineOrder l) (deadlineOrder_sorted l)

/-! ### The self claimant (R53) -/

/-- Who is the self claimant, and when there is one. -/
theorem State.selfClaimant_eq_some_iff {s : State} {d : Claimant} :
    s.selfClaimant = some d ↔ (s.stand.standing = .joined ∨ s.stand.standing = .listening) ∧
      ∃ c, s.share.ownClaim = some c ∧ 0 < c.q ∧ d = ⟨s.cfg.bay, c.q, c.mEff, c.f, c.k⟩ := by
  cases hown : s.share.ownClaim with
  | none => simp [State.selfClaimant, hown]
  | some c => simp [State.selfClaimant, hown, and_assoc, eq_comm (a := d)]

/-! ### Pass 1's grant (R63) -/

section
variable {rem : Nat} {c : Claimant}

theorem firstGrant_of_fits (h : c.q ≤ rem) : firstGrant rem c = c.q := if_pos h

theorem firstGrant_of_partial (hq : rem < c.q) (hf : c.f ≤ rem) : firstGrant rem c = rem := by
  rw [firstGrant, if_neg (Nat.not_le.2 hq), if_pos hf]

theorem firstGrant_of_refused (hq : rem < c.q) (hf : rem < c.f) : firstGrant rem c = 0 := by
  rw [firstGrant, if_neg (Nat.not_le.2 hq), if_neg (Nat.not_le.2 hf)]

end

/-- What remains covers the grant, so that subtracting it never goes below 0. -/
theorem firstGrant_le (rem : Nat) (c : Claimant) : firstGrant rem c ≤ rem := by
  rcases Nat.lt_or_ge rem c.q with hq | hq
  · rcases Nat.lt_or_ge rem c.f with hf | hf
    · exact firstGrant_of_refused hq hf ▸ Nat.zero_le rem
    · exact (firstGrant_of_partial hq hf).le
  · exact firstGrant_of_fits hq ▸ hq

theorem pass1_nil (rem : Nat) : pass1 rem [] = ([], rem) := rfl

/-- Pass 1 goes on with what the first claimant's grant leaves. -/
theorem pass1_cons (rem : Nat) (c : Claimant) (l : List Claimant) :
    pass1 rem (c :: l) = (⟨c, firstGrant rem c⟩ :: (pass1 (rem - firstGrant rem c) l).1,
      (pass1 (rem - firstGrant rem c) l).2) := rfl

/-- Settles O18: deadline order is a sorted permutation, and Pass 1 gives each claimant `firstGrant` of what remains. -/
theorem deadlineOrderAndPassOne : Obligations.DeadlineOrderAndPassOne := by
  refine ⟨⟨fun cs => ⟨deadlineOrder_perm cs, deadlineOrder_sorted cs⟩, fun s lone => ⟨rfl, ?self⟩⟩,
    fun rem => ⟨pass1_nil rem, ?grant⟩⟩
  case self => exact fun _ => State.selfClaimant_eq_some_iff
  case grant =>
    intro c l
    exact ⟨firstGrant rem c, firstGrant_le rem c, firstGrant_of_fits, firstGrant_of_partial, firstGrant_of_refused,
      pass1_cons rem c l⟩

end Sys2Proof.Machine
end

section
/-! Derating (chapter 9). The two steps of M_eff case by case: the derating line (R144) and the floor rule (R145); and
M_eff with and without its two inputs, a session and the hot value of a scan. -/

namespace Sys2Proof.Machine

/-! ### The derating line (R144) -/

section
variable {h ts te : Int} (m0 : Nat)

theorem deratedMax_of_le_start (hs : h ≤ ts) : deratedMax h ts te m0 = m0 := if_pos hs

theorem deratedMax_of_end_le (hs : ts < h) (he : te ≤ h) : deratedMax h ts te m0 = 0 := by
  rw [deratedMax, if_neg (Int.not_le.2 hs), if_neg (Int.not_lt.2 he)]

/-- Between start and end both degree counts are positive, so that the line is the same over the integers. -/
theorem deratedMax_of_between (hs : ts < h) (he : h < te) :
    (deratedMax h ts te m0 : Int) = m0 * (te - h) / (te - ts) := by
  have hleft : ((te - h).toNat : Int) = te - h := Int.toNat_of_nonneg (by omega)
  have hspan : ((te - ts).toNat : Int) = te - ts := Int.toNat_of_nonneg (by omega)
  rw [deratedMax, if_neg (Int.not_le.2 hs), if_pos he, Int.natCast_ediv, Int.natCast_mul, hleft, hspan]

end

/-! ### The floor rule and M_eff (R145) -/

theorem flooredMax_of_floor_le {floor md : Nat} (h : floor ≤ md) : flooredMax floor md = md := if_pos h

theorem flooredMax_of_lt_floor {floor md : Nat} (h : md < floor) : flooredMax floor md = 0 := if_neg (Nat.not_le.2 h)

theorem State.formedMEff_of_session_of_hot {s : State} {x : Session} {h : Int} (hx : s.session = some x)
    (hh : s.thermal.hot = some h) :
    s.formedMEff =
      flooredMax x.floor (deratedMax h s.cfg.derateStart s.cfg.derateEnd (min x.vanMax s.cfg.stageRating)) := by
  simp only [State.formedMEff, hx, hh]

theorem State.formedMEff_of_no_session {s : State} (hx : s.session = none) : s.formedMEff = 0 := by
  simp only [State.formedMEff, hx]

theorem State.formedMEff_of_no_scan {s : State} (hh : s.thermal.hot = none) : s.formedMEff = 0 := by
  cases hx : s.session with
  | none => exact State.formedMEff_of_no_session hx
  | some x => simp only [State.formedMEff, hx, hh]

/-- Settles O21: M_eff is the floor rule applied to the derating line, whose three bands are those of the table. -/
theorem deratedMax_holds : Obligations.DeratedMax := by
  intro s
  refine ⟨?missing, fun x h m0 hx hh hm0 => ?formed⟩
  case missing =>
    rintro (hx | hh)
    · exact State.formedMEff_of_no_session hx
    · exact State.formedMEff_of_no_scan hh
  case formed =>
    have hform := State.formedMEff_of_session_of_hot hx hh
    rw [← hm0] at hform
    exact ⟨deratedMax h s.cfg.derateStart s.cfg.derateEnd m0, deratedMax_of_le_start m0, deratedMax_of_between m0,
      deratedMax_of_end_le m0, fun hle => hform.trans (flooredMax_of_floor_le hle),
      fun hlt => hform.trans (flooredMax_of_lt_floor hlt)⟩

end Sys2Proof.Machine
end

section
/-! The store's checks (R166, R178): which codes name an installer field, what a WRITE of each field is checked against,
and that a segment with ranges and pairs in order keeps them under a WRITE so admitted. -/

namespace Sys2Proof.Machine

/-! ### Blank and written fields -/

@[simp] theorem fieldHas_none (p : Nat → Prop) : fieldHas none p ↔ True := Iff.rfl
@[simp] theorem fieldHas_some (v : Nat) (p : Nat → Prop) : fieldHas (some v) p ↔ p v := Iff.rfl

/-- The model's check against the other field of a pair is the invariant's property of that field. -/
theorem ifWritten_eq_true_iff (f : Option Nat) (p : Nat → Bool) :
    ifWritten f p = true ↔ fieldHas f fun v => p v = true := by
  cases f with
  | none => exact iff_of_true rfl trivial
  | some v => exact Iff.rfl

namespace Installer

variable (i : Installer) (v : Nat)

/-- Only the codes 1 to 12 name an installer field. -/
theorem written_eq_none : ∀ code, code = 0 ∨ 12 < code → i.written code = none
  | 0, _ => rfl
  | n + 13, _ => rfl
  | 1, h | 2, h | 3, h | 4, h | 5, h | 6, h | 7, h | 8, h | 9, h | 10, h | 11, h | 12, h => absurd h (by decide)

/-! ### What each field is checked against: its own range, and in a pair the other field where that is written -/

theorem admits_feederLimit : i.admits 3 v = true ↔ 1 ≤ v ∧ v ≤ 65000 := decide_eq_true_iff
theorem admits_reserve : i.admits 4 v = true ↔ v ≤ 25 := decide_eq_true_iff
theorem admits_sliceDiv : i.admits 5 v = true ↔ 100 ≤ v ∧ v ≤ 2000 := decide_eq_true_iff
theorem admits_roundDiv : i.admits 6 v = true ↔ 8 ≤ v ∧ v ≤ 60 := decide_eq_true_iff
theorem admits_stepLag : i.admits 7 v = true ↔ v ≤ 7 := decide_eq_true_iff
theorem admits_ppk : i.admits 8 v = true ↔ v = 100 ∨ v = 250 ∨ v = 500 ∨ v = 1000 := decide_eq_true_iff
theorem admits_edges : i.admits 9 v = true ↔ v = 1 ∨ v = 2 := decide_eq_true_iff
theorem admits_defaultDeparture : i.admits 12 v = true ↔ v ≤ 86399 := decide_eq_true_iff

theorem admits_bay : i.admits 1 v = true ↔ (1 ≤ v ∧ v ≤ 31) ∧ fieldHas i.bayCount fun n => v ≤ n := by
  simp only [admits, Bool.and_eq_true, ifWritten_eq_true_iff, decide_eq_true_iff]

theorem admits_bayCount : i.admits 2 v = true ↔ (1 ≤ v ∧ v ≤ 31) ∧ fieldHas i.bay fun b => b ≤ v := by
  simp only [admits, Bool.and_eq_true, ifWritten_eq_true_iff, decide_eq_true_iff]

theorem admits_derateStart : i.admits 10 v = true ↔
    (40 ≤ v ∧ v ≤ 100) ∧ fieldHas i.derateEnd fun te => v + 5 ≤ te ∧ te ≤ v + 40 := by
  simp only [admits, Bool.and_eq_true, ifWritten_eq_true_iff, decide_eq_true_iff, and_comm (a := v + 5 ≤ _)]

theorem admits_derateEnd : i.admits 11 v = true ↔
    (45 ≤ v ∧ v ≤ 130) ∧ fieldHas i.derateStart fun ts => ts + 5 ≤ v ∧ v ≤ ts + 40 := by
  simp only [admits, Bool.and_eq_true, ifWritten_eq_true_iff, decide_eq_true_iff]

/-! ### The other field of the pair blank (R178) -/

section
variable {i}

theorem admits_bay_of_blank (h : i.bayCount = none) : i.admits 1 v = true ↔ 1 ≤ v ∧ v ≤ 31 := by
  rw [admits_bay, h, fieldHas_none, and_true]

theorem admits_bayCount_of_blank (h : i.bay = none) : i.admits 2 v = true ↔ 1 ≤ v ∧ v ≤ 31 := by
  rw [admits_bayCount, h, fieldHas_none, and_true]

theorem admits_derateStart_of_blank (h : i.derateEnd = none) : i.admits 10 v = true ↔ 40 ≤ v ∧ v ≤ 100 := by
  rw [admits_derateStart, h, fieldHas_none, and_true]

theorem admits_derateEnd_of_blank (h : i.derateStart = none) : i.admits 11 v = true ↔ 45 ≤ v ∧ v ≤ 130 := by
  rw [admits_derateEnd, h, fieldHas_none, and_true]

/-! ### The other field of the pair written (R178) -/

theorem admits_bay_of_written {n : Nat} (h : i.bayCount = some n) :
    i.admits 1 v = true ↔ (1 ≤ v ∧ v ≤ 31) ∧ ¬ n < v := by
  rw [admits_bay, h, fieldHas_some, Nat.not_lt]

theorem admits_bayCount_of_written {b : Nat} (h : i.bay = some b) :
    i.admits 2 v = true ↔ (1 ≤ v ∧ v ≤ 31) ∧ ¬ v < b := by
  rw [admits_bayCount, h, fieldHas_some, Nat.not_lt]

/-- The book's Te − 40 and Te − 5 are integers: they go below 0 where a natural difference would stop. -/
theorem admits_derateStart_of_written {te : Nat} (h : i.derateEnd = some te) :
    i.admits 10 v = true ↔ (40 ≤ v ∧ v ≤ 100) ∧ ((te : Int) - 40 ≤ v ∧ (v : Int) ≤ (te : Int) - 5) := by
  rw [admits_derateStart, h, fieldHas_some]
  omega

/-- The lower end 45 of the field's own range is what Ts + 5 already gives for a start in range. -/
theorem admits_derateEnd_of_written {ts : Nat} (h : i.derateStart = some ts) (hts : 40 ≤ ts) :
    i.admits 11 v = true ↔ (ts + 5 ≤ v ∧ v ≤ ts + 40) ∧ v ≤ 130 := by
  rw [admits_derateEnd, h, fieldHas_some]
  omega

/-! ### An admitted WRITE keeps the ranges and the pairs -/

/-- Each field's check is what soundness asks of it; the clause on a full segment asks nothing before the lock. -/
theorem Sound.write (hs : i.Sound) (hl : i.locked = false) {v : Nat} :
    ∀ {code : Nat}, i.admits code v = true → (i.write code v).Sound := by
  have unlocked {P : Prop} (h : i.locked = true) : P := absurd (hl.symm.trans h) Bool.false_ne_true
  intro code hadm
  match code, hadm with
  | 0, h | n + 13, h => exact absurd h Bool.false_ne_true
  | 1, h =>
    obtain ⟨hrange, hpair⟩ := (admits_bay i v).1 h
    exact { hs with bay := hrange, bays := hpair, full := unlocked }
  | 2, h =>
    obtain ⟨hrange, hpair⟩ := (admits_bayCount i v).1 h
    exact { hs with bayCount := hrange, bays := hpair, full := unlocked }
  | 3, h => exact { hs with feederLimit := (admits_feederLimit i v).1 h, full := unlocked }
  | 4, h => exact { hs with reserve := (admits_reserve i v).1 h, full := unlocked }
  | 5, h => exact { hs with sliceDiv := (admits_sliceDiv i v).1 h, full := unlocked }
  | 6, h => exact { hs with roundDiv := (admits_roundDiv i v).1 h, full := unlocked }
  | 7, h => exact { hs with stepLag := (admits_stepLag i v).1 h, full := unlocked }
  | 8, h => exact { hs with ppk := (admits_ppk i v).1 h, full := unlocked }
  | 9, h => exact { hs with edges := (admits_edges i v).1 h, full := unlocked }
  | 10, h =>
    obtain ⟨hrange, hpair⟩ := (admits_derateStart i v).1 h
    exact { hs with derateStart := hrange, derate := hpair, full := unlocked }
  | 11, h =>
    obtain ⟨hrange, hpair⟩ := (admits_derateEnd i v).1 h
    exact { hs with derateEnd := hrange, derate := hpair, full := unlocked }
  | 12, h => exact { hs with defaultDeparture := (admits_defaultDeparture i v).1 h, full := unlocked }

end

end Installer

open Installer in
/-- Settles O36: each field's range, the pairs with the other field blank or written, and `Installer.Sound.write`. -/
theorem fieldChecks : Obligations.FieldChecks := by
  refine ⟨fun i => ⟨rfl, written_eq_none i⟩, fun i v hbay hcount hstart hend => ?allBlank, fun i v => ?every⟩
  case allBlank =>
    exact ⟨admits_bay_of_blank v hcount, admits_bayCount_of_blank v hbay, admits_feederLimit i v, admits_reserve i v,
      admits_sliceDiv i v, admits_roundDiv i v, admits_stepLag i v, admits_ppk i v, admits_edges i v,
      admits_derateStart_of_blank v hend, admits_derateEnd_of_blank v hstart, admits_defaultDeparture i v⟩
  case every =>
    exact ⟨admits_feederLimit i v, admits_reserve i v, admits_sliceDiv i v, admits_roundDiv i v, admits_stepLag i v,
      admits_ppk i v, admits_edges i v, admits_defaultDeparture i v,
      fun _ => admits_bay_of_written v, fun _ => admits_bayCount_of_written v,
      fun _ => admits_derateStart_of_written v, fun _ => admits_derateEnd_of_written v,
      admits_bay_of_blank v, admits_bayCount_of_blank v, admits_derateStart_of_blank v, admits_derateEnd_of_blank v,
      fun _ hs _ hl hadm => hs.write hl hadm⟩

end Sys2Proof.Machine
end

section
/-! The configuration store under every step (R166, R177 to R179): only an admitted WRITE and a LOCK change it, each keeps
the ranges and the pairs, and a locked segment has no field left for either to change. -/

namespace Sys2Proof.Machine

/-- What an accepted WRITE has passed (R177). -/
theorem State.writeCode_accepted {s : State} {c v : Nat} (h : s.writeCode c v = .accepted) :
    s.store.installer.written c = some false ∧ s.store.installer.admits c v = true := by
  unfold State.writeCode at h
  split at h
  · cases h
  · split at h
    · cases h
    · split at h
      · cases h
      · split at h
        · exact ⟨not_ne_iff.1 ‹_›, ‹_›⟩
        · cases h

namespace Installer

/-- Where a field is blank the segment is not locked. -/
theorem Sound.unlocked {i : Installer} (hs : i.Sound) {c : Nat} (hw : i.written c = some false) : i.locked = false := by
  by_contra hl
  have hrange : ¬ (c = 0 ∨ 12 < c) := fun h => by rw [i.written_eq_none c h] at hw; cases hw
  have := hs.full (by simpa using hl) c (by omega) (by omega)
  rw [this] at hw; cases hw

/-- The derate points a LOCK leaves lie in their ranges, and fit each other (R179). -/
theorem Sound.lockedDerate {i : Installer} (hs : i.Sound) :
    (40 ≤ i.lockedStart ∧ i.lockedStart ≤ 100) ∧ (45 ≤ i.lockedEnd ∧ i.lockedEnd ≤ 130) ∧
      i.lockedStart + 5 ≤ i.lockedEnd ∧ i.lockedEnd ≤ i.lockedStart + 40 := by
  obtain ⟨hstart, hend, hpair⟩ := And.intro hs.derateStart (And.intro hs.derateEnd hs.derate)
  unfold lockedStart lockedEnd
  cases hts : i.derateStart <;> cases hte : i.derateEnd <;> simp only [hts, hte, fieldHas_none, fieldHas_some] at * <;> omega

/-- A field's default keeps the field's range. -/
theorem getD_of_fieldHas {f : Option Nat} {p : Nat → Prop} {d : Nat} (h : fieldHas f p) (hd : p d) :
    fieldHas (some (f.getD d)) p := by
  cases f with
  | none => exact hd
  | some _ => exact h

/-- A LOCK of a segment with its mandatory fields written leaves every field written and in range (R179). -/
theorem Sound.lock {i : Installer} (hs : i.Sound) (hm : i.mandatoryBlank = false) : i.lock.Sound := by
  obtain ⟨hstart, hend, hpair⟩ := hs.lockedDerate
  simp only [mandatoryBlank, Bool.or_eq_false_iff, Option.isNone_eq_false_iff] at hm
  obtain ⟨⟨hbay, hcount⟩, hlimit⟩ := hm
  exact { hs with
    reserve := getD_of_fieldHas hs.reserve (by omega)
    sliceDiv := getD_of_fieldHas hs.sliceDiv (by omega)
    roundDiv := getD_of_fieldHas hs.roundDiv (by omega)
    stepLag := getD_of_fieldHas hs.stepLag (by omega)
    ppk := getD_of_fieldHas hs.ppk (by omega)
    edges := getD_of_fieldHas hs.edges (by omega)
    derateStart := hstart
    derateEnd := hend
    derate := hpair
    defaultDeparture := getD_of_fieldHas hs.defaultDeparture (by omega)
    full := by
      intro _ code h1 h12
      interval_cases code <;> simp [written, Installer.lock, hbay, hcount, hlimit] }

/-- A locked segment has no blank field for a LOCK to fill. -/
theorem Sound.lock_of_locked {i : Installer} (hs : i.Sound) (hl : i.locked = true) : i.lock = i := by
  have hw : ∀ c, 1 ≤ c → c ≤ 12 → i.written c = some true := hs.full hl
  have h4 := hw 4 (by omega) (by omega)
  have h5 := hw 5 (by omega) (by omega)
  have h6 := hw 6 (by omega) (by omega)
  have h7 := hw 7 (by omega) (by omega)
  have h8 := hw 8 (by omega) (by omega)
  have h9 := hw 9 (by omega) (by omega)
  have h10 := hw 10 (by omega) (by omega)
  have h11 := hw 11 (by omega) (by omega)
  have h12 := hw 12 (by omega) (by omega)
  obtain ⟨bay, count, limit, reserve, sliceDiv, roundDiv, stepLag, ppk, edges, start, stop, departure, locked⟩ := i
  simp only [written, Option.some.injEq, Option.isSome_iff_exists] at h4 h5 h6 h7 h8 h9 h10 h11 h12
  obtain ⟨⟨_, rfl⟩, ⟨_, rfl⟩, ⟨_, rfl⟩, ⟨_, rfl⟩, ⟨_, rfl⟩, ⟨_, rfl⟩, ⟨_, rfl⟩, ⟨_, rfl⟩, ⟨_, rfl⟩⟩ :=
    And.intro h4 (And.intro h5 (And.intro h6 (And.intro h7 (And.intro h8 (And.intro h9 (And.intro h10 (And.intro h11 h12)))))))
  cases hl
  rfl

end Installer

/-- What a WRITE and a LOCK keep of the store, every move keeps: no other move touches it. -/
theorem moves_of_store {Q : Store → Prop}
    (write : ∀ st c v, Q st → st.installer.written c = some false → st.installer.admits c v = true →
      Q { st with installer := st.installer.write c v })
    (lock : ∀ st, Q st → st.installer.mandatoryBlank = false → Q { st with installer := st.installer.lock }) :
    Moves fun s => Q s.store where
  line _ _ h := h
  out _ _ h := h
  inspect _ _ h := h
  order _ _ _ h := h
  temps _ _ h := h
  powerUp _ h := h
  restart s h := by simpa [State.restart] using h
  resetPin _ _ h := h
  read _ _ h := h
  started _ h _ _ := h
  toSetup _ h _ := h
  claim s h := by simpa using h
  postSlice _ _ h _ := h
  owe _ _ _ h _ := h
  hand _ h _ := h
  nextSlice _ h _ _ := h
  part p s h _ := by obtain ⟨_, _, _, _, _, _, _, e⟩ := p.run_frame s; rw [e]; exact h
  work s b c h _ := by obtain ⟨_, _, _, _, _, _, _, _, _, _, e⟩ := s.roundEndWork_frame b c; rw [e]; exact h
  second _ h := h
  align _ h _ := h
  clock _ _ h _ := h
  hears s b h := by simpa using h
  report _ _ h := h
  entry _ _ _ _ h _ _ _ _ _ := h
  notice s v d t h _ _ := by obtain ⟨_, _, _, _, _, _, e⟩ := State.applyNotice_frame v d (noticeTarget t) s; rw [e]; exact h
  override _ _ h _ := h
  edge _ h := h
  permitFalls s h := by obtain ⟨_, _, _, _, _, _, e⟩ := s.permitFalls_frame; rw [e]; exact h
  permitRises s h := by obtain ⟨_, _, _, _, e⟩ := s.permitRises_frame; rw [e]; exact h
  plug s p r h _ _ := by obtain ⟨_, _, _, _, _, _, e⟩ := State.openSession_frame (p.clamped s.cfg.stageRating) r s; rw [e]; exact h
  taper s n h _ := by obtain ⟨_, _, _, _, e⟩ := s.taperTaken_frame n; rw [e]; exact h
  addHold s h _ := by simpa using h
  removeHold s h _ := by simpa using h
  unplug s h _ := by obtain ⟨_, _, _, _, _, _, _, e⟩ := s.unplugTaken_frame; rw [e]; exact h
  write s c v h hc := by
    obtain ⟨hw, ha⟩ := State.writeCode_accepted hc
    exact write _ c v h hw ha
  lock s h _ hb := lock _ h hb

/-- What every step keeps of a store that was `st`. -/
structure Store.KeptFrom (st t : Store) : Prop where
  sound : t.installer.Sound
  serial : t.serial = st.serial
  stageRating : t.stageRating = st.stageRating
  locked : st.installer.locked = true → t = st

theorem moves_keptFrom (st : Store) : Moves fun s => st.KeptFrom s.store := by
  refine moves_of_store ?_ ?_
  · intro t c v h hw ha
    have hu := h.sound.unlocked hw
    refine ⟨h.sound.write hu ha, h.serial, h.stageRating, fun hl => ?_⟩
    rw [h.locked hl] at hu
    rw [hu] at hl; cases hl
  · intro t h hm
    refine ⟨h.sound.lock hm, h.serial, h.stageRating, fun hl => ?_⟩
    obtain rfl := h.locked hl
    rw [h.sound.lock_of_locked hl]

/-- Settles O53: the two moves that write the store keep it sound, and leave a locked one as it is. -/
theorem storeKept : Obligations.StoreKept := by
  intro s t hs hstep
  have h := (moves_keptFrom s.store).step (fun _ _ h => h) (fun _ h => by simpa using h)
    ⟨hs, rfl, rfl, fun _ => rfl⟩ hstep
  exact ⟨h.sound, h.serial, h.stageRating, h.locked⟩

end Sys2Proof.Machine
end

section
/-! Rounds and settings under every step (R1, R20, R21, R167): what the invariants of the blocks rest on. -/

namespace Sys2Proof.Machine

/-- The off-line clauses of `State.RoundsInv`: timer and blocks at their reset values. -/
structure State.Idle (s : State) : Prop where
  timer : s.timer.sliceCounter = 0 ∧ s.timer.sliceIndex = 0 ∧ s.timer.roundCount = 0 ∧ s.timer.aligned = false
  peers : s.peers = {}
  share : s.share = {}
  session : s.session = none
  override : s.notices.override = none
  stage : s.stage = {}
  meter : s.meter = {}
  thermal : s.thermal = {}

theorem State.RoundsInv.idle {s : State} (h : s.RoundsInv) (ho : s.onLine = false) : s.Idle := by
  obtain ⟨peers, share, session, override, stage, meter, thermal⟩ := h.idleBlocks ho
  exact ⟨h.idleTimer ho, peers, share, session, override, stage, meter, thermal⟩

theorem State.Idle.blocks {s : State} (i : s.Idle) :
    s.peers = {} ∧ s.share = {} ∧ s.session = none ∧ s.notices.override = none ∧ s.stage = {} ∧ s.meter = {} ∧
      s.thermal = {} := ⟨i.peers, i.share, i.session, i.override, i.stage, i.meter, i.thermal⟩

theorem State.RoundsInv.onLine_of_running {s : State} (h : s.RoundsInv) (hr : s.timer.running = true) :
    s.onLine = true := by rw [← h.running]; exact hr

/-- A move that leaves running, standing, settings and store, and an idle part idle. -/
theorem State.RoundsInv.of_same {s t : State} (h : s.RoundsInv) (hrunning : t.timer.running = s.timer.running)
    (honLine : t.onLine = s.onLine) (hsettings : t.settings = s.settings) (hstore : t.store = s.store)
    (hidle : s.onLine = false → s.Idle → t.Idle) : t.RoundsInv where
  running := by rw [hrunning, honLine]; exact h.running
  handed := by rw [hsettings, honLine, hstore]; exact h.handed
  locked := by rw [honLine, hstore]; exact h.locked
  idleTimer ho := (hidle (honLine ▸ ho) (h.idle (honLine ▸ ho))).timer
  idleBlocks ho := (hidle (honLine ▸ ho) (h.idle (honLine ▸ ho))).blocks

/-- A move while the part has rounds. -/
theorem State.RoundsInv.of_onLine {s t : State} (h : s.RoundsInv) (ho : s.onLine = true)
    (hrunning : t.timer.running = s.timer.running) (hstanding : t.stand = s.stand)
    (hsettings : t.settings = s.settings) (hstore : t.store = s.store) : t.RoundsInv :=
  h.of_same hrunning (by simp only [State.onLine, hstanding]) hsettings hstore fun hoff => absurd (ho.symm.trans hoff) (by decide)

/-- A reset leaves the part idle. -/
theorem State.resetBlocks_roundsInv (s : State) : s.resetBlocks.RoundsInv where
  running := rfl
  handed := rfl
  locked h := Bool.noConfusion (h : false = true)
  idleTimer _ := ⟨rfl, rfl, rfl, rfl⟩
  idleBlocks _ := ⟨rfl, rfl, rfl, rfl, rfl, rfl, rfl⟩

/-- An idle part stays as it is where permission is evaluated: the word due is the 0 that stands. -/
theorem State.evalPermission_idle {s : State} (hs : s.session = none) (hg : s.stage = {}) : s.evalPermission = s := by
  have hp : s.permission = false := by simp [State.permission, State.phase, hs, Phase.draws]
  have he : ({ s with stage := { s.stage with enable := false, applied := 0, pendingIncrease := none } } : State) = s := by
    simp only [hg]; rw [← hg]
  rw [State.evalPermission, hp, if_neg (by decide), he, State.sendIfChanged, if_pos (by simp [hg, StageControl.word])]
  simp only [hg]; rw [Bool.false_and]; rw [← hg]

theorem State.permitFalls_idle {s : State} (hs : s.session = none) (hg : s.stage = {}) :
    s.permitFalls = { s with pins := { s.pins with permit := false } } := by
  unfold State.permitFalls
  split
  · rw [State.addHold_none _ _ (by exact hs), State.evalPermission_idle (by exact hs) (by exact hg)]
  · next h => simp only [Bool.not_eq_true] at h; rw [← h]

theorem State.permitRises_idle {s : State} (hs : s.session = none) (hg : s.stage = {}) :
    s.permitRises = { s with pins := { s.pins with permit := true } } := by
  unfold State.permitRises
  split
  · next h => rw [← h]
  · rw [State.removeHold_none _ _ (by exact hs), State.evalPermission_idle (by exact hs) (by exact hg)]

theorem State.meterEdge_idle {s : State} (hr : s.timer.running = false) : s.meterEdge.meter = s.meter := by
  simp [State.meterEdge, State.edgeCounts, hr]

theorem State.applyNotice_none {s : State} (van d : Nat) (t : Option Nat) (hs : s.session = none) :
    s.applyNotice van d t = { s with notices := { s.notices with table := storeNotice ⟨van, d, t⟩ s.notices.table } } := by
  unfold State.applyNotice; rw [hs]

theorem State.clockSecond_idle {s : State} (hs : s.session = none) : s.clockSecond.session = none := by
  simp [State.clockSecond, hs]

/-- What an accepted WRITE has passed first: SETUP alone writes (R177). -/
theorem State.writeCode_accepted_standing {s : State} {c v : Nat} (h : s.writeCode c v = .accepted) :
    s.stand.standing = .setup := by
  by_contra hs
  rw [State.writeCode, if_pos hs] at h; cases h

theorem State.offLine_of_setup {s : State} (h : s.stand.standing = .setup) : s.onLine = false := by
  simp [State.onLine, h, Standing.onLine]

theorem State.offLine_of_starting {s : State} (h : s.stand.standing = .starting) : s.onLine = false := by
  simp [State.onLine, h, Standing.onLine]

/-- An idle part whose standing stays off the line, whatever its store becomes. -/
theorem State.RoundsInv.of_offLine {s t : State} (h : s.RoundsInv) (ho : s.onLine = false) (ht : t.onLine = false)
    (htimer : t.timer = s.timer) (hsettings : t.settings = s.settings) (hidle : s.Idle → t.Idle) : t.RoundsInv where
  running := by rw [htimer, ht, h.running, ho]
  handed := by rw [hsettings, ht, h.handed, ho]; rfl
  locked h' := absurd (h'.symm.trans ht) (by decide)
  idleTimer _ := (hidle (h.idle ho)).timer
  idleBlocks _ := (hidle (h.idle ho)).blocks

theorem StandingUnit.endClash_standing (u : StandingUnit) : u.endClash.standing = u.standing := by
  unfold StandingUnit.endClash
  split
  · rfl
  · split
    · split <;> rfl
    · rfl

/-- A round end leads from a standing with rounds to one with rounds, and leaves STARTING and SETUP (R25 to R29). -/
theorem StandingUnit.roundEnd_onLine (n : Nat) (u : StandingUnit) :
    (u.roundEnd n).standing.onLine = u.standing.onLine := by
  have hc : (u.roundEnd n).standing = (u.endPassage n).standing := (u.endPassage n).endClash_standing
  rw [hc, StandingUnit.endPassage]
  split
  · simp only [StandingUnit.endListening, *]
    split
    · simp [*]
    · split
      · simp [*]
      · split <;> rfl
  · simp only [StandingUnit.endJoined, *]
    split
    · split <;> simp [*, Standing.onLine]
    · simp [*]
  · simp only [StandingUnit.endIsolated, *]
    split <;> rfl
  · simp only [StandingUnit.endRejoining, *]
    split
    · split
      · rfl
      · split <;> simp [*, Standing.onLine]
    · split <;> simp [*, Standing.onLine]
  all_goals rfl

theorem State.roundEndWork_onLine (s : State) (n : Bool) (c : Nat) : (s.roundEndWork n c).onLine = s.onLine := by
  refine roundEndWork_keeps (P := fun t => t.onLine = s.onLine) (fun _ _ h => h) (fun _ _ h => h) ?_ (fun _ h => h) ?_
    (fun _ _ h => h) (fun _ h => h) ?_ (fun _ _ h => h) (fun _ h => h) ?_ ?_ ?_ (fun _ h => h) n c s rfl
  · intro t h; simpa [State.onLine] using h
  · intro t h; rw [← h]; exact t.stand.roundEnd_onLine _
  · intro t h; simpa [State.onLine] using h
  · intro t h; simpa [State.onLine] using h
  · intro t h; simpa [State.onLine] using h
  · intro t _ _ _ h; simpa [State.onLine] using h

theorem moves_roundsInv : Moves State.RoundsInv where
  line _ _ h := h.of_same rfl rfl rfl rfl fun _ i => { i with }
  out _ _ h := h.of_same rfl rfl rfl rfl fun _ i => { i with }
  inspect _ _ h := h.of_same rfl rfl rfl rfl fun _ i => { i with }
  order _ _ _ h := h.of_same rfl rfl rfl rfl fun _ i => { i with }
  temps _ _ h := h.of_same rfl rfl rfl rfl fun _ i => { i with }
  powerUp s _ := State.resetBlocks_roundsInv _
  restart s _ := State.resetBlocks_roundsInv _
  resetPin _ _ h := h.of_same rfl rfl rfl rfl fun _ i => { i with }
  read _ _ h := h.of_same rfl rfl rfl rfl fun _ i => { i with }
  started s _ _ hl :=
    { running := rfl, handed := rfl, locked := fun _ => hl
      idleTimer := fun h => Bool.noConfusion (h : true = false)
      idleBlocks := fun h => Bool.noConfusion (h : true = false) }
  toSetup s h hs := h.of_offLine (State.offLine_of_starting hs) rfl rfl rfl fun i => { i with }
  claim s h := by
    refine h.of_same (by simp) (by simp [State.onLine]) (by simp) (by simp) fun ho i => ?_
    rw [State.formClaim_off s ho]; exact i
  postSlice _ _ h ho := h.of_onLine ho rfl rfl rfl rfl
  owe _ _ _ h hr := h.of_onLine (h.onLine_of_running hr) rfl rfl rfl rfl
  hand _ h hr := h.of_onLine (h.onLine_of_running hr) rfl rfl rfl rfl
  nextSlice _ h hr _ := h.of_onLine (h.onLine_of_running hr) rfl rfl rfl rfl
  part p s h hr := by
    obtain ⟨_, _, _, _, _, _, _, e⟩ := p.run_frame s
    rw [e]; exact h.of_onLine (h.onLine_of_running hr) rfl rfl rfl rfl
  work s b c h hr := by
    obtain ⟨_, _, _, _, _, _, _, _, _, _, e⟩ := s.roundEndWork_frame b c
    refine h.of_same (s.roundEndWork_running b c) (s.roundEndWork_onLine b c) (by rw [e]) (by rw [e]) fun ho => ?_
    exact absurd ((h.onLine_of_running hr).symm.trans ho) (by decide)
  second s h := h.of_same rfl rfl rfl rfl fun _ i => { i with session := State.clockSecond_idle i.session }
  align _ h hr := h.of_onLine (h.onLine_of_running hr) rfl rfl rfl rfl
  clock _ _ h _ := h.of_same rfl rfl rfl rfl fun _ i => { i with }
  hears s b h := by
    refine h.of_same (s.standingTakes_running b) (s.standingTakes_onLine b) (by simp) (by simp) fun ho i => ?_
    rw [State.standingTakes_offLine ho]; exact i
  report _ _ h := h.of_same rfl rfl rfl rfl fun _ i => { i with }
  entry _ _ _ _ h ho _ _ _ _ := h.of_onLine ho rfl rfl rfl rfl
  notice s v d t h _ _ := by
    obtain ⟨_, _, _, _, _, _, e⟩ := State.applyNotice_frame v d (noticeTarget t) s
    refine h.of_same (by rw [e]) (by rw [e]; rfl) (by rw [e]) (by rw [e]) fun _ i => ?_
    rw [State.applyNotice_none _ _ _ i.session]; exact { i with }
  override _ _ h ho := h.of_onLine ho rfl rfl rfl rfl
  edge s h := by
    refine h.of_same rfl rfl rfl rfl fun ho i => { i with meter := ?_ }
    rw [State.meterEdge_idle (h.running.trans ho)]; exact i.meter
  permitFalls s h := by
    obtain ⟨_, _, _, _, _, _, e⟩ := s.permitFalls_frame
    refine h.of_same (by rw [e]) (by rw [e]; rfl) (by rw [e]) (by rw [e]) fun _ i => ?_
    rw [State.permitFalls_idle i.session i.stage]; exact { i with }
  permitRises s h := by
    obtain ⟨_, _, _, _, e⟩ := s.permitRises_frame
    refine h.of_same (by rw [e]) (by rw [e]; rfl) (by rw [e]) (by rw [e]) fun _ i => ?_
    rw [State.permitRises_idle i.session i.stage]; exact { i with }
  plug s p r h ho _ := by
    obtain ⟨_, _, _, _, _, _, e⟩ := State.openSession_frame (p.clamped s.cfg.stageRating) r s
    rw [e]; exact h.of_onLine ho rfl rfl rfl rfl
  taper s n h ho := by
    obtain ⟨_, _, _, _, e⟩ := s.taperTaken_frame n; rw [e]; exact h.of_onLine ho rfl rfl rfl rfl
  addHold s h ho := h.of_onLine ho (by simp) (by simp) (by simp) (by simp)
  removeHold s h ho := h.of_onLine ho (by simp) (by simp) (by simp) (by simp)
  unplug s h ho := by
    obtain ⟨_, _, _, _, _, _, _, e⟩ := s.unplugTaken_frame; rw [e]; exact h.of_onLine ho rfl rfl rfl rfl
  write s c v h hc := by
    have ho := State.offLine_of_setup (State.writeCode_accepted_standing hc)
    exact h.of_offLine ho ho rfl rfl fun i => { i with }
  lock s h hs _ := h.of_offLine (State.offLine_of_setup hs) rfl rfl rfl fun i => { i with }

end Sys2Proof.Machine
end

section
/-! The round timer and the clock under every step (R2, R4, R14). A tick counts one past a bound at most; the slice end and
the clock second that then fall due bring the count back, whatever the order of the events of the tick. -/

namespace Sys2Proof.Machine

/-! ### Moves in company, and the turns of a tick -/

/-- What two predicates keep of every move, both keep together. -/
theorem Moves.and {P Q : State → Prop} (m : Moves P) (n : Moves Q) : Moves fun s => P s ∧ Q s where
  line s l h := ⟨m.line s l h.1, n.line s l h.2⟩
  out s o h := ⟨m.out s o h.1, n.out s o h.2⟩
  inspect s i h := ⟨m.inspect s i h.1, n.inspect s i h.2⟩
  order s a b h := ⟨m.order s a b h.1, n.order s a b h.2⟩
  temps s t h := ⟨m.temps s t h.1, n.temps s t h.2⟩
  powerUp s h := ⟨m.powerUp s h.1, n.powerUp s h.2⟩
  restart s h := ⟨m.restart s h.1, n.restart s h.2⟩
  resetPin s b h := ⟨m.resetPin s b h.1, n.resetPin s b h.2⟩
  read s r h := ⟨m.read s r h.1, n.read s r h.2⟩
  started s h hs hl := ⟨m.started s h.1 hs hl, n.started s h.2 hs hl⟩
  toSetup s h hs := ⟨m.toSetup s h.1 hs, n.toSetup s h.2 hs⟩
  claim s h := ⟨m.claim s h.1, n.claim s h.2⟩
  postSlice s k h ho := ⟨m.postSlice s k h.1 ho, n.postSlice s k h.2 ho⟩
  owe s a b h hr := ⟨m.owe s a b h.1 hr, n.owe s a b h.2 hr⟩
  hand s h hr := ⟨m.hand s h.1 hr, n.hand s h.2 hr⟩
  nextSlice s h hr hl := ⟨m.nextSlice s h.1 hr hl, n.nextSlice s h.2 hr hl⟩
  part p s h hr := ⟨m.part p s h.1 hr, n.part p s h.2 hr⟩
  work s b c h hr := ⟨m.work s b c h.1 hr, n.work s b c h.2 hr⟩
  second s h := ⟨m.second s h.1, n.second s h.2⟩
  align s h hr := ⟨m.align s h.1 hr, n.align s h.2 hr⟩
  clock s c h hc := ⟨m.clock s c h.1 hc, n.clock s c h.2 hc⟩
  hears s b h := ⟨m.hears s b h.1, n.hears s b h.2⟩
  report s b h := ⟨m.report s b h.1, n.report s b h.2⟩
  entry s b p e h ho h1 hn hb he := ⟨m.entry s b p e h.1 ho h1 hn hb he, n.entry s b p e h.2 ho h1 hn hb he⟩
  notice s v d t h hv hd := ⟨m.notice s v d t h.1 hv hd, n.notice s v d t h.2 hv hd⟩
  override s o h ho := ⟨m.override s o h.1 ho, n.override s o h.2 ho⟩
  edge s h := ⟨m.edge s h.1, n.edge s h.2⟩
  permitFalls s h := ⟨m.permitFalls s h.1, n.permitFalls s h.2⟩
  permitRises s h := ⟨m.permitRises s h.1, n.permitRises s h.2⟩
  plug s p r h ho hv := ⟨m.plug s p r h.1 ho hv, n.plug s p r h.2 ho hv⟩
  taper s k h ho := ⟨m.taper s k h.1 ho, n.taper s k h.2 ho⟩
  addHold s h ho := ⟨m.addHold s h.1 ho, n.addHold s h.2 ho⟩
  removeHold s h ho := ⟨m.removeHold s h.1 ho, n.removeHold s h.2 ho⟩
  unplug s h ho := ⟨m.unplug s h.1 ho, n.unplug s h.2 ho⟩
  write s c v h hc := ⟨m.write s c v h.1 hc, n.write s c v h.2 hc⟩
  lock s h hs hb := ⟨m.lock s h.1 hs hb, n.lock s h.2 hs hb⟩

/-- A tick as its turns: what is due once the time has gone on, each event once, in some order, after the choice of it. -/
theorem State.tick_turns (s : State) : ∃ (turns : List Due) (w : State),
    turns.Perm (dueEvents.filter (Due.isDue s.takeStarts.advance)) ∧
      w = { s.takeStarts.advance with choices := w.choices, freeCount := w.freeCount } ∧
      s.tick = runAll (turns.map Due.takeIfDue) w := by
  simp only [State.tick]
  split
  · exact ⟨_, _, .refl _, rfl, rfl⟩
  · refine ⟨_, _, arrange_perm s.takeStarts.advance.choose.1 _, choose_eq _, ?_⟩
    rw [inAnyOrder, runIn, arrange_map]

theorem Moves.takeIfDue {P : State → Prop} (m : Moves P) (d : Due) (s : State) (h : P s) : P (d.takeIfDue s) := by
  unfold Due.takeIfDue
  split
  · exact m.whenDue d s h
  · exact h

theorem mem_dueEvents (d : Due) : d ∈ dueEvents := by cases d <;> decide

/-- What a tick settles: a predicate `W` that the counting leaves, `D` where the event `d` is not due or its turn has come. -/
theorem Moves.tick_establishes {W D : State → Prop} (mW : Moves W) (mD : Moves D) (d : Due)
    (hd : ∀ s, W s → D (d.takeIfDue s)) (hnot : ∀ s, W s → d.isDue s = false → D s) {s : State}
    (h : W s.takeStarts.advance) : D s.tick := by
  obtain ⟨turns, w, hperm, hw, htick⟩ := s.tick_turns
  have hWw : W w := by rw [hw]; exact mW.order _ _ _ h
  have hdue : d.isDue s.takeStarts.advance = false → D w := fun hn => by
    rw [hw]; exact mD.order _ _ _ (hnot _ h hn)
  have keepsD : ∀ f ∈ turns.map Due.takeIfDue, ∀ s, D s → D (f s) := by
    intro f hf; obtain ⟨e, -, rfl⟩ := List.mem_map.1 hf; exact mD.takeIfDue e
  rw [htick]
  by_cases hmem : d ∈ turns
  · refine runAll_establishes _ hd _ (List.mem_map_of_mem hmem) ?_ keepsD _ hWw
    intro f hf; obtain ⟨e, -, rfl⟩ := List.mem_map.1 hf; exact .inr (mW.takeIfDue e)
  · have hfalse : d.isDue s.takeStarts.advance = false := by
      by_contra hc
      exact hmem (hperm.mem_iff.2 (List.mem_filter.2 ⟨mem_dueEvents d, by simpa using hc⟩))
    exact runAll_keeps _ keepsD _ (hdue hfalse)

/-! ### The ranges of the timer -/

/-- `State.TimerSafe` with the slice counter at most `a` and the sub-second count at most `b` past its range. -/
structure State.TimerWithin (a b : Nat) (s : State) : Prop where
  slice : s.onLine = true → s.timer.sliceIndex < s.cfg.roundDiv ∧ s.timer.sliceCounter < s.cfg.sliceDiv + a
  round : s.timer.roundCount < 65536
  second : s.timer.subSecond < Config.ticksPerSecond + b
  clock : ∀ c, s.timer.clock = some c → c < Config.daySeconds

theorem State.timerSafe_iff {s : State} : s.TimerSafe ↔ s.TimerWithin 0 0 :=
  ⟨fun h => ⟨h.slice, h.round, h.second, h.clock⟩, fun h => ⟨h.slice, h.round, h.second, h.clock⟩⟩

/-- Both divisors of a part with rounds are those of a locked, sound segment. -/
theorem State.RoundsInv.divisors {s : State} (h : s.RoundsInv) (hs : s.store.installer.Sound) (ho : s.onLine = true) :
    8 ≤ s.cfg.roundDiv ∧ 100 ≤ s.cfg.sliceDiv := by
  have hset := h.handed
  rw [if_pos ho] at hset
  have hfull := hs.full (h.locked ho)
  have h5 := hfull 5 (by omega) (by omega)
  have h6 := hfull 6 (by omega) (by omega)
  simp only [Installer.written, Option.some.injEq, Option.isSome_iff_exists] at h5 h6
  obtain ⟨⟨d, hd⟩, ⟨r, hr⟩⟩ := And.intro h5 h6
  have hdr := hs.sliceDiv
  have hrr := hs.roundDiv
  rw [hd, fieldHas_some] at hdr
  rw [hr, fieldHas_some] at hrr
  simp only [State.cfg, hset, Option.getD_some, settingsOf, hd, hr]
  omega

theorem moves_installerSound : Moves fun s => s.store.installer.Sound :=
  moves_of_store (Q := fun st => st.installer.Sound) (fun _ _ _ h hw ha => h.write (h.unlocked hw) ha)
    fun _ h hm => h.lock hm

theorem moves_timerBasis : Moves fun s => s.RoundsInv ∧ s.store.installer.Sound := moves_roundsInv.and moves_installerSound

/-- The timer's ranges read timer, settings and standing alone; of the timer, counts and clock. -/
theorem State.TimerWithin.of_same {a b : Nat} {s t : State} (h : s.TimerWithin a b) (honLine : t.onLine = s.onLine)
    (hsettings : t.settings = s.settings) (htimer : t.timer = { s.timer with aligned := t.timer.aligned }) :
    t.TimerWithin a b where
  slice ho := by
    have hcfg : t.cfg = s.cfg := by simp only [State.cfg, hsettings]
    rw [hcfg, htimer]; exact h.slice (honLine ▸ ho)
  round := by rw [htimer]; exact h.round
  second := by rw [htimer]; exact h.second
  clock := by rw [htimer]; exact h.clock

/-- With the divisors above 0, a slice or a round begins in range. -/
theorem State.TimerWithin.begin {a b : Nat} {s t : State} (h : s.TimerWithin a b)
    (hslice : t.onLine = true → t.timer.sliceIndex < t.cfg.roundDiv ∧ 100 ≤ t.cfg.sliceDiv)
    (hcounter : t.timer.sliceCounter = 0) (hround : t.timer.roundCount < 65536)
    (hsecond : t.timer.subSecond = s.timer.subSecond) (hclock : t.timer.clock = s.timer.clock) : t.TimerWithin a b where
  slice ho := by have := hslice ho; omega
  round := hround
  second := by rw [hsecond]; exact h.second
  clock := by rw [hclock]; exact h.clock

/-- The round-end work sets the timer to slice 0 of the next round. -/
theorem State.roundEndWork_timer (s : State) (n : Bool) (c : Nat) : (s.roundEndWork n c).timer = { s.timer with
    sliceCounter := 0, sliceIndex := 0, roundCount := (s.timer.roundCount + 1) % 65536
    aligned := (s.roundEndWork n c).timer.aligned } := by
  have core : ∀ b, (s.roundEndCore b).timer = { s.timer with
      sliceCounter := 0, sliceIndex := 0, roundCount := (s.timer.roundCount + 1) % 65536
      aligned := (s.roundEndCore b).timer.aligned } := by
    intro b
    simp only [State.roundEndCore]
    split <;> simp [State.nextRound, State.standingRoundEnd]
  have parts : ∀ u : State, ∀ m be co ca si d,
      (runIn d (roundEndTail m be co ca si) u).timer = u.timer := by
    intro u m be co ca si d
    refine runIn_keeps (P := fun t => t.timer = u.timer) _ _ ?_ u rfl
    intro f hf t ht
    simp only [roundEndTail, List.mem_cons, List.not_mem_nil, or_false] at hf
    rcases hf with rfl | rfl | rfl | rfl
    · simpa using ht
    · simp only []; split <;> simpa using ht
    · simpa using ht
    · simpa using ht
  simp only [State.roundEndWork, State.beginMeterRound_timer, parts]
  exact core _

theorem slicePartsOn_timer (c : Nat) (a b : Bool) (s : State) : (slicePartsOn c a b s).timer = s.timer :=
  slicePartsOn_keeps (P := fun t => t.timer = s.timer) (by simp) (by simp) c a b s rfl

/-- A round end of either kind begins slice 0 of the next round; of the timer only the aligned indicator is open (R3). -/
theorem State.roundEnd_timer (s : State) (n : Bool) : (s.roundEnd n).timer = { s.timer with
    sliceCounter := 0, sliceIndex := 0, roundCount := (s.timer.roundCount + 1) % 65536
    aligned := (s.roundEnd n).timer.aligned } := by
  simp only [State.roundEnd, State.roundEndIn, slicePartsOn_timer]
  rw [State.roundEndWork_timer]
  simp only [slicePartsOn_timer, State.handDriven_timer, State.choose_timer]

theorem SlicePart.run_timer (p : SlicePart) (s : State) : (p.run s).timer = s.timer := by
  obtain ⟨_, _, _, _, _, _, _, e⟩ := p.run_frame s
  rw [e]

/-- The expiry of a slice other than the last begins the next slice (R2). -/
theorem State.sliceExpiry_timer {s : State} (hr : s.timer.running = true) (hl : s.inLastSlice = false) :
    s.sliceExpiry.timer = { s.timer with sliceCounter := 0, sliceIndex := s.timer.sliceIndex + 1 } := by
  have parts : ∀ (l : List SlicePart) (u : State), (runAll (l.map SlicePart.run) u).timer = u.timer := fun l u =>
    runAll_keeps (P := fun t => t.timer = u.timer) _
      (by intro f hf t ht; obtain ⟨p, -, rfl⟩ := List.mem_map.1 hf; rw [p.run_timer, ht]) u rfl
  rw [State.sliceExpiry, if_pos (by simp [hr, hl]), State.sliceEndIn, parts]
  simp [State.nextSlice]

/-- What the invariants of the timer have in common. -/
def State.TimerKeeps (a b : Nat) (s : State) : Prop :=
  (s.RoundsInv ∧ s.store.installer.Sound) ∧ s.TimerWithin a b

theorem State.timerInv_iff {s : State} : s.TimerInv ↔ s.TimerKeeps 0 0 := by
  simp only [State.TimerInv, State.TimerKeeps, State.timerSafe_iff, and_assoc]

theorem moves_timerKeeps (a b : Nat) : Moves (State.TimerKeeps a b) where
  line s l h := ⟨moves_timerBasis.line s l h.1, h.2.of_same rfl rfl rfl⟩
  out s o h := ⟨moves_timerBasis.out s o h.1, h.2.of_same rfl rfl rfl⟩
  inspect s i h := ⟨moves_timerBasis.inspect s i h.1, h.2.of_same rfl rfl rfl⟩
  order s c d h := ⟨moves_timerBasis.order s c d h.1, h.2.of_same rfl rfl rfl⟩
  temps s t h := ⟨moves_timerBasis.temps s t h.1, h.2.of_same rfl rfl rfl⟩
  powerUp s h := ⟨moves_timerBasis.powerUp s h.1,
    { slice := fun ho => Bool.noConfusion (ho : false = true), round := (by decide : 0 < 65536)
      second := Nat.lt_of_lt_of_le (by decide : 0 < Config.ticksPerSecond) (Nat.le_add_right _ _), clock := nofun }⟩
  restart s h := by
    refine ⟨moves_timerBasis.restart s h.1, ?_⟩
    have ht : s.restart.timer =
        { running := false, sliceCounter := 0, sliceIndex := 0, roundCount := 0, aligned := false
          subSecond := s.timer.subSecond, clock := s.timer.clock } := by simp [State.restart, State.resetBlocks, State.beginRead]
    exact h.2.begin (fun ho => Bool.noConfusion (ho : false = true)) (by rw [ht]) (by rw [ht]; exact (by decide : 0 < 65536)) (by rw [ht]) (by rw [ht])
  resetPin s p h := ⟨moves_timerBasis.resetPin s p h.1, h.2.of_same rfl rfl rfl⟩
  read s r h := ⟨moves_timerBasis.read s r h.1, h.2.of_same rfl rfl rfl⟩
  started s h hs hl := by
    obtain ⟨hr, hsound⟩ := moves_timerBasis.started s h.1 hs hl
    refine ⟨⟨hr, hsound⟩, h.2.begin (fun ho => ?_) rfl (by decide : 0 < 65536) rfl rfl⟩
    obtain ⟨h8, h100⟩ := hr.divisors hsound ho
    exact ⟨by show 0 < _; omega, h100⟩
  toSetup s h hs := ⟨moves_timerBasis.toSetup s h.1 hs,
    h.2.of_same (State.offLine_of_starting hs).symm rfl rfl⟩
  claim s h := ⟨moves_timerBasis.claim s h.1, h.2.of_same (by simp [State.onLine]) (by simp) (by simp)⟩
  postSlice s n h ho := ⟨moves_timerBasis.postSlice s n h.1 ho, h.2.of_same rfl rfl rfl⟩
  owe s c d h hr := ⟨moves_timerBasis.owe s c d h.1 hr, h.2.of_same rfl rfl rfl⟩
  hand s h hr := ⟨moves_timerBasis.hand s h.1 hr, h.2.of_same rfl rfl rfl⟩
  nextSlice s h hr hl := by
    obtain ⟨h8, h100⟩ := h.1.1.divisors h.1.2 (h.1.1.onLine_of_running hr)
    have hlast := of_decide_eq_false hl
    exact ⟨moves_timerBasis.nextSlice s h.1 hr hl, h.2.begin (fun _ => ⟨Nat.not_le.1 hlast, h100⟩) rfl h.2.round rfl rfl⟩
  part p s h hr := by
    refine ⟨moves_timerBasis.part p s h.1 hr, ?_⟩
    obtain ⟨_, _, _, _, _, _, _, e⟩ := p.run_frame s
    rw [e]; exact h.2.of_same rfl rfl rfl
  work s n c h hr := by
    refine ⟨moves_timerBasis.work s n c h.1 hr, ?_⟩
    obtain ⟨h8, h100⟩ := h.1.1.divisors h.1.2 (h.1.1.onLine_of_running hr)
    have ht := s.roundEndWork_timer n c
    obtain ⟨_, _, _, _, _, _, _, _, _, _, e⟩ := s.roundEndWork_frame n c
    have hcfg : (s.roundEndWork n c).cfg = s.cfg := by rw [e]; rfl
    refine h.2.begin (fun _ => ?_) (by rw [ht]) ?_ (by rw [ht]) (by rw [ht])
    · rw [hcfg, ht]; exact ⟨by show 0 < _; omega, h100⟩
    · rw [ht]; exact Nat.mod_lt _ (by decide)
  second s h := ⟨moves_timerBasis.second s h.1,
    { slice := h.2.slice, round := h.2.round
      second := Nat.lt_of_lt_of_le (by decide : 0 < Config.ticksPerSecond) (Nat.le_add_right _ _)
      clock := by
        intro c hc
        obtain ⟨d, -, rfl⟩ := Option.map_eq_some_iff.1 hc
        exact Nat.mod_lt _ (by decide) }⟩
  align s h hr := ⟨moves_timerBasis.align s h.1 hr, h.2.of_same rfl rfl rfl⟩
  clock s n h hn := ⟨moves_timerBasis.clock s n h.1 hn,
    { slice := h.2.slice, round := h.2.round
      second := Nat.lt_of_lt_of_le (by decide : 0 < Config.ticksPerSecond) (Nat.le_add_right _ _)
      clock := fun c hc => Option.some.inj hc ▸ hn }⟩
  hears s n h := by
    obtain ⟨al, ht⟩ := s.standingTakes_timer n
    exact ⟨moves_timerBasis.hears s n h.1, h.2.of_same (s.standingTakes_onLine n) (by simp) (by rw [ht])⟩
  report s c h := ⟨moves_timerBasis.report s c h.1, h.2.of_same rfl rfl rfl⟩
  entry s n p e h ho h1 hn hb he := ⟨moves_timerBasis.entry s n p e h.1 ho h1 hn hb he, h.2.of_same rfl rfl rfl⟩
  notice s v d t h hv hd := by
    refine ⟨moves_timerBasis.notice s v d t h.1 hv hd, ?_⟩
    obtain ⟨_, _, _, _, _, _, e⟩ := State.applyNotice_frame v d (noticeTarget t) s
    rw [e]; exact h.2.of_same rfl rfl rfl
  override s o h ho := ⟨moves_timerBasis.override s o h.1 ho, h.2.of_same rfl rfl rfl⟩
  edge s h := ⟨moves_timerBasis.edge s h.1, h.2.of_same rfl rfl rfl⟩
  permitFalls s h := by
    refine ⟨moves_timerBasis.permitFalls s h.1, ?_⟩
    obtain ⟨_, _, _, _, _, _, e⟩ := s.permitFalls_frame
    rw [e]; exact h.2.of_same rfl rfl rfl
  permitRises s h := by
    refine ⟨moves_timerBasis.permitRises s h.1, ?_⟩
    obtain ⟨_, _, _, _, e⟩ := s.permitRises_frame
    rw [e]; exact h.2.of_same rfl rfl rfl
  plug s p r h ho hv := by
    refine ⟨moves_timerBasis.plug s p r h.1 ho hv, ?_⟩
    obtain ⟨_, _, _, _, _, _, e⟩ := State.openSession_frame (p.clamped s.cfg.stageRating) r s
    rw [e]; exact h.2.of_same rfl rfl rfl
  taper s n h ho := by
    refine ⟨moves_timerBasis.taper s n h.1 ho, ?_⟩
    obtain ⟨_, _, _, _, e⟩ := s.taperTaken_frame n
    rw [e]; exact h.2.of_same rfl rfl rfl
  addHold s h ho := ⟨moves_timerBasis.addHold s h.1 ho, h.2.of_same (by simp [State.onLine]) (by simp) (by simp)⟩
  removeHold s h ho := ⟨moves_timerBasis.removeHold s h.1 ho, h.2.of_same (by simp [State.onLine]) (by simp) (by simp)⟩
  unplug s h ho := by
    refine ⟨moves_timerBasis.unplug s h.1 ho, ?_⟩
    obtain ⟨_, _, _, _, _, _, _, e⟩ := s.unplugTaken_frame
    rw [e]; exact h.2.of_same rfl rfl rfl
  write s c v h hc := ⟨moves_timerBasis.write s c v h.1 hc, h.2.of_same rfl rfl rfl⟩
  lock s h hs hb := ⟨moves_timerBasis.lock s h.1 hs hb, h.2.of_same (State.offLine_of_setup hs).symm rfl rfl⟩

/-! ### A tick -/

/-- The counting leaves an idle part idle: no slice is counted without rounds. -/
theorem State.advance_roundsInv {s : State} (h : s.RoundsInv) : s.advance.RoundsInv :=
  h.of_same rfl rfl rfl rfl fun ho i => { i with timer := by simpa [State.advance, h.running, ho] using i.timer }

/-- A tick's counting goes at most one past either bound. -/
theorem State.advance_timerKeeps {s : State} (h : s.TimerKeeps 0 0) : s.advance.TimerKeeps 1 1 := by
  obtain ⟨⟨hr, hs⟩, hw⟩ := h
  exact ⟨⟨State.advance_roundsInv hr, hs⟩,
      { slice := fun ho => by
          have hin := hw.slice ho
          refine ⟨hin.1, ?_⟩
          show (if s.timer.running then s.timer.sliceCounter + 1 else s.timer.sliceCounter) < s.cfg.sliceDiv + 1
          split <;> omega
        round := hw.round
        second := Nat.succ_lt_succ hw.second
        clock := hw.clock }⟩

/-- A slice end of either kind leaves the slice counter at 0 (R2, R3). -/
theorem State.sliceEnds_counter {s : State} (hr : s.timer.running = true) :
    (Due.slice.take s).timer.sliceCounter = 0 := by
  simp only [Due.take]
  split
  · next hl => rw [State.naturalRoundEnd, if_pos (by simp [hr, hl]), State.roundEnd_timer]
  · next hl => rw [State.sliceExpiry_timer hr (by simpa using hl)]

theorem State.TimerKeeps.sliceNotDue {b : Nat} {s : State} (h : s.TimerKeeps 1 b) (hd : Due.slice.isDue s = false) :
    s.TimerKeeps 0 b := by
  refine ⟨h.1, { h.2 with slice := fun ho => ⟨(h.2.slice ho).1, ?_⟩ }⟩
  have hr : s.timer.running = true := h.1.1.running.trans ho
  simpa [Due.isDue, hr] using hd

theorem State.TimerKeeps.secondNotDue {a : Nat} {s : State} (h : s.TimerKeeps a 1) (hd : Due.second.isDue s = false) :
    s.TimerKeeps a 0 :=
  ⟨h.1, { h.2 with second := by simpa [Due.isDue] using hd }⟩

/-- Once the slice's turn has come the slice counter is in its range. -/
theorem State.TimerKeeps.afterSlice {b : Nat} {s : State} (h : s.TimerKeeps 1 b) :
    (Due.slice.takeIfDue s).TimerKeeps 0 b := by
  unfold Due.takeIfDue
  split
  · next hd =>
    simp only [Due.isDue, Bool.and_eq_true] at hd
    obtain ⟨hbasis, hw⟩ := (moves_timerKeeps 1 b).whenDue .slice s h
    refine ⟨hbasis, { hw with slice := fun ho => ⟨(hw.slice ho).1, ?_⟩ }⟩
    rw [State.sliceEnds_counter hd.1]
    have := (hbasis.1.divisors hbasis.2 ho).2
    omega
  · next hd => exact h.sliceNotDue (by simpa using hd)

/-- Once the clock second's turn has come the sub-second count is in its range. -/
theorem State.TimerKeeps.afterSecond {a : Nat} {s : State} (h : s.TimerKeeps a 1) :
    (Due.second.takeIfDue s).TimerKeeps a 0 := by
  unfold Due.takeIfDue
  split
  · obtain ⟨hbasis, hw⟩ := (moves_timerKeeps a 1).whenDue .second s h
    exact ⟨hbasis, { hw with second := (by decide : 0 < Config.ticksPerSecond) }⟩
  · next hd => exact h.secondNotDue (by simpa using hd)

/-- A tick brings both counts back into their ranges. -/
theorem State.tick_timerKeeps {s : State} (h : s.TimerKeeps 0 0) : s.tick.TimerKeeps 0 0 := by
  have hadv := State.advance_timerKeeps ((moves_timerKeeps 0 0).takeStarts s h)
  have hslice : s.tick.TimerKeeps 0 1 :=
    (moves_timerKeeps 1 1).tick_establishes (moves_timerKeeps 0 1) .slice (fun _ h => h.afterSlice)
      (fun _ h hd => h.sliceNotDue hd) hadv
  have hsecond : s.tick.TimerKeeps 1 0 :=
    (moves_timerKeeps 1 1).tick_establishes (moves_timerKeeps 1 0) .second (fun _ h => h.afterSecond)
      (fun _ h hd => h.secondNotDue hd) hadv
  exact ⟨hslice.1, { hslice.2 with second := hsecond.2.second }⟩

/-- Settles O54: a command keeps the ranges as each of its moves does, a tick by its slice end and clock second. -/
theorem timerKept : Obligations.TimerKept := by
  intro s t h hstep
  rw [State.timerInv_iff] at h ⊢
  cases hp : s.pending with
  | nil =>
    rw [step_nil hp] at hstep; cases hstep
    exact State.tick_timerKeeps h
  | cons c q =>
    rw [step_cons hp] at hstep; rw [exec_next hstep]
    have hq : State.TimerKeeps 0 0 { s with pending := q } :=
      ⟨⟨h.1.1.of_same rfl rfl rfl rfl fun _ i => { i with }, h.1.2⟩, h.2.of_same rfl rfl rfl⟩
    exact (moves_timerKeeps 0 0).effect c _ hq

end Sys2Proof.Machine
end

section
/-! The draw under every step (R112, R115, R117, R118, R121). Every change of the session, of the standing or of M_eff ends
in a permission evaluated or a power clamped; the round-end work ends in stage control's own. -/

namespace Sys2Proof.Machine

/-! ### What the draw permission reads -/

theorem State.permission_iff {s : State} : s.permission = true ↔
    (s.phase = .charging ∨ s.phase = .precondition) ∧ s.pins.permit = true ∧
      (s.stand.standing = .joined ∨ s.stand.standing = .isolated ∨ s.stand.standing = .rejoining) := by
  have hphase : s.phase.draws = true ↔ s.phase = .charging ∨ s.phase = .precondition := by
    cases s.phase <;> simp [Phase.draws]
  have hstanding : s.stand.standing.draws = true ↔
      s.stand.standing = .joined ∨ s.stand.standing = .isolated ∨ s.stand.standing = .rejoining := by
    cases s.stand.standing <;> simp [Standing.draws]
  simp only [State.permission, Bool.and_eq_true, hphase, hstanding, and_assoc]

theorem State.permission_none {s : State} (h : s.session = none) : s.permission = false := by
  simp [State.permission, State.phase, h, Phase.draws]

theorem State.permission_offLine {s : State} (h : s.onLine = false) : s.permission = false := by
  unfold State.onLine at h
  cases hs : s.stand.standing <;> simp_all [State.permission, Standing.draws, Standing.onLine]

theorem State.permission_listening {s : State} (h : s.stand.standing = .listening) : s.permission = false := by
  simp [State.permission, h, Standing.draws]

/-! ### The two halves of `State.DrawSafe`, and what restores it -/

/-- The half that neither the permission nor M_eff enters, before the word due is sent. -/
structure State.DrawLoose (s : State) : Prop where
  allotted : s.stage.applied ≤ s.share.allotment
  waiting : ∀ p, s.stage.pendingIncrease = some p → p ≤ s.share.allotment
  driven : s.stage.sliceDriven = true → 0 < s.stage.wordSent

/-- The half that speaks of M_eff. -/
structure State.DrawCool (s : State) : Prop where
  cool : s.stage.applied ≤ s.thermal.mEff
  rated : s.thermal.mEff ≤ s.cfg.stageRating

/-- The half that speaks of the permission. -/
structure State.DrawPermitted (s : State) : Prop where
  enable : s.stage.enable = s.permission
  still : s.permission = false → s.stage.applied = 0 ∧ s.stage.pendingIncrease = none

theorem State.DrawSafe.loose {s : State} (h : s.DrawSafe) : s.DrawLoose :=
  ⟨h.allotted, h.waiting, fun hd => (h.driven hd).2⟩

theorem State.DrawSafe.cooled {s : State} (h : s.DrawSafe) : s.DrawCool := ⟨h.cool, h.rated⟩

theorem State.DrawSafe.permitted {s : State} (h : s.DrawSafe) : s.DrawPermitted := ⟨h.enable, h.still⟩

/-- A move that leaves stage control, allotment, M_eff, settings and permission. -/
theorem State.DrawSafe.of_same {s t : State} (h : s.DrawSafe) (hstage : t.stage = s.stage)
    (hallotment : t.share.allotment = s.share.allotment) (hmEff : t.thermal.mEff = s.thermal.mEff)
    (hsettings : t.settings = s.settings) (hpermission : t.permission = s.permission) : t.DrawSafe where
  enable := by rw [hstage, hpermission]; exact h.enable
  still := by rw [hstage, hpermission]; exact h.still
  allotted := by rw [hstage, hallotment]; exact h.allotted
  cool := by rw [hstage, hmEff]; exact h.cool
  waiting := by rw [hstage, hallotment]; exact h.waiting
  word := by rw [hstage]; exact h.word
  rated := by simp only [hmEff, State.cfg, hsettings]; exact h.rated
  driven := by rw [hstage]; exact h.driven

theorem State.DrawLoose.of_same {s t : State} (h : s.DrawLoose) (hstage : t.stage = s.stage)
    (hallotment : t.share.allotment = s.share.allotment) : t.DrawLoose := by
  obtain ⟨h1, h2, h3⟩ := h
  exact ⟨by rwa [hstage, hallotment], by rwa [hstage, hallotment], by rwa [hstage]⟩

theorem State.DrawCool.of_same {s t : State} (h : s.DrawCool) (happlied : t.stage.applied = s.stage.applied)
    (hmEff : t.thermal.mEff = s.thermal.mEff) (hsettings : t.settings = s.settings) : t.DrawCool := by
  obtain ⟨h1, h2⟩ := h
  exact ⟨by rwa [happlied, hmEff], by simpa only [hmEff, State.cfg, hsettings] using h2⟩

theorem State.sendIfChanged_permission (s : State) : s.sendIfChanged.permission = s.permission :=
  State.permission_congr (by simp) (by simp) (by simp)

/-- The word due sent where it changes completes the rest (R111, R121). -/
theorem State.sendIfChanged_drawSafe {s : State} (hl : s.DrawLoose) (hc : s.DrawCool) (hp : s.DrawPermitted) :
    s.sendIfChanged.DrawSafe := by
  obtain ⟨b, hstage⟩ := s.sendIfChanged_stage
  obtain ⟨allotted, waiting, driven⟩ := hl
  have hperm := s.sendIfChanged_permission
  exact
    { enable := by rw [hstage, hperm]; exact hp.enable
      still := by rw [hstage, hperm]; exact hp.still
      allotted := by rw [hstage]; simpa using allotted
      cool := by rw [hstage]; simpa using hc.cool
      waiting := by rw [hstage]; simpa using waiting
      word := by rw [hstage]; rfl
      rated := by simpa [State.cfg] using hc.rated
      driven := fun hd => (s.sendIfChanged_driven driven hd).2 }

/-- Permission evaluated restores its half (R112, R113). -/
theorem State.evalPermission_drawSafe {s : State} (hl : s.DrawLoose) (hc : s.DrawCool) : s.evalPermission.DrawSafe := by
  unfold State.evalPermission
  split
  · next h =>
    exact State.sendIfChanged_drawSafe ⟨hl.allotted, hl.waiting, hl.driven⟩ ⟨hc.cool, hc.rated⟩
      ⟨h.symm, fun hn => absurd (h.symm.trans hn) (by decide)⟩
  · next h =>
    exact State.sendIfChanged_drawSafe ⟨Nat.zero_le _, nofun, hl.driven⟩ ⟨Nat.zero_le _, hc.rated⟩
      ⟨(Bool.not_eq_true _ ▸ h).symm, fun _ => ⟨rfl, rfl⟩⟩

/-- M_eff formed anew, and the power clamped to it, restores its half (R117, R145). -/
theorem State.refreshMEff_drawSafe {s : State} (hl : s.DrawLoose) (hp : s.DrawPermitted) : s.refreshMEff.DrawSafe := by
  have hle := s.formedMEff_le
  refine State.sendIfChanged_drawSafe
    ⟨le_trans (Nat.min_le_left _ _) hl.allotted, hl.waiting, hl.driven⟩ ⟨Nat.min_le_right _ _, hle⟩
    ⟨hp.enable, fun hn => ?_⟩
  obtain ⟨h0, hnone⟩ := hp.still hn
  exact ⟨by show min s.stage.applied _ = 0; rw [h0, Nat.zero_min], hnone⟩

/-! ### Changes of the session and of the standing -/

theorem State.putSession_loose {s : State} (h : s.DrawLoose) (x : Option Session) : (s.putSession x).DrawLoose :=
  h.of_same (by simp) (by simp)

theorem State.putSession_cool {s : State} (h : s.DrawCool) (x : Option Session) : (s.putSession x).DrawCool :=
  h.of_same (by simp) (by simp) (by simp)

theorem State.changeSession_drawSafe {s : State} (hl : s.DrawLoose) (hc : s.DrawCool) (x : Option Session) :
    (s.changeSession x).DrawSafe :=
  State.evalPermission_drawSafe (State.putSession_loose hl x) (State.putSession_cool hc x)

theorem State.addHold_drawSafe {s : State} (h : s.DrawSafe) (r : HoldReason) : (s.addHold r).DrawSafe := by
  unfold State.addHold
  split
  · exact h
  · split
    · exact h
    · exact State.changeSession_drawSafe h.loose h.cooled _

theorem State.removeHold_drawSafe {s : State} (h : s.DrawSafe) (r : HoldReason) : (s.removeHold r).DrawSafe := by
  unfold State.removeHold
  split
  · exact h
  · split
    · exact State.changeSession_drawSafe h.loose h.cooled _
    · exact h

theorem State.topIfReached_drawSafe {s : State} (h : s.DrawSafe) : s.topIfReached.DrawSafe := by
  unfold State.topIfReached
  split
  · exact h
  · split
    · exact State.changeSession_drawSafe h.loose h.cooled _
    · exact h

/-- A hold added or removed needs the permission's half of nothing: it is evaluated at the end. -/
theorem State.addHold_halves {s : State} (hl : s.DrawLoose) (hc : s.DrawCool) (r : HoldReason) :
    (s.addHold r).DrawLoose ∧ (s.addHold r).DrawCool := by
  unfold State.addHold
  split
  · exact ⟨hl, hc⟩
  · split
    · exact ⟨hl, hc⟩
    · have h := State.changeSession_drawSafe hl hc
      exact ⟨(h _).loose, (h _).cooled⟩

theorem State.removeHold_halves {s : State} (hl : s.DrawLoose) (hc : s.DrawCool) (r : HoldReason) :
    (s.removeHold r).DrawLoose ∧ (s.removeHold r).DrawCool := by
  unfold State.removeHold
  split
  · exact ⟨hl, hc⟩
  · split
    · have h := State.changeSession_drawSafe hl hc
      exact ⟨(h _).loose, (h _).cooled⟩
    · exact ⟨hl, hc⟩

/-- Stage control, allotment, M_eff and settings stand, and so does what the permission reads: the move is none of theirs. -/
theorem State.formClaim_drawSafe {s : State} (h : s.DrawSafe) : s.formClaim.DrawSafe :=
  h.of_same (by simp) (by simp) (by simp) (by simp) (State.permission_congr (by simp) (by simp) (by simp))

theorem State.standingTakes_drawSafe {s : State} (h : s.DrawSafe) (b : Nat) : (s.standingTakes b).DrawSafe := by
  have passage : ∀ t : State, t.stage = s.stage → t.share = s.share → t.thermal = s.thermal → t.settings = s.settings →
      t.formClaim.evalPermission.DrawSafe := fun t hg hs hth hset =>
    State.evalPermission_drawSafe (h.loose.of_same (by simp [hg]) (by simp [hs]))
      (h.cooled.of_same (by simp [hg]) (by simp [hth]) (by simp [hset]))
  have stays : ∀ u : StandingUnit, u.standing = s.stand.standing → ({ s with stand := u } : State).DrawSafe := fun u hu =>
    h.of_same rfl rfl rfl rfl (State.permission_congr rfl rfl hu)
  simp only [State.standingTakes]
  split
  · split
    · exact stays _ rfl
    · split
      · exact passage _ rfl rfl rfl rfl
      · exact passage _ rfl rfl rfl rfl
      · exact stays _ rfl
  · exact h

/-! ### The parts of a slice end -/

/-- The ceiling test can put the cap state in alone; the word due follows (R120, R131). -/
theorem State.meterSliceEnd_drawSafe {s : State} (h : s.DrawSafe) : s.meterSliceEnd.DrawSafe := by
  simp only [State.meterSliceEnd, State.ceilingTest]
  split
  · exact State.sendIfChanged_drawSafe ⟨h.allotted, h.waiting, h.loose.driven⟩ ⟨h.cool, h.rated⟩ ⟨h.enable, h.still⟩
  · exact h.of_same rfl rfl rfl rfl rfl

theorem State.scan_drawSafe {s : State} (h : s.DrawSafe) : s.scan.DrawSafe := by
  have hrefresh : ({ s with thermal := s.scanned } : State).refreshMEff.DrawSafe :=
    State.refreshMEff_drawSafe ⟨h.allotted, h.waiting, h.loose.driven⟩ ⟨h.enable, h.still⟩
  unfold State.scan State.thermalHold
  split
  · exact hrefresh
  · split
    · exact State.addHold_drawSafe hrefresh _
    · split
      · exact State.removeHold_drawSafe hrefresh _
      · exact hrefresh

/-- At the lag slice the waiting increase is taken, held to M_eff; the word due is sent (R111, R115). -/
theorem State.startSlice_drawSafe {s : State} (h : s.DrawSafe) : s.startSlice.DrawSafe := by
  obtain ⟨happlied, hpending, henable, -, -⟩ := s.startSlice_stage
  have hperm : s.startSlice.permission = s.permission := State.permission_congr (by simp) (by simp) (by simp)
  have hword : s.startSlice.stage.wordSent = s.startSlice.stage.word := rfl
  have hdriven : s.startSlice.stage.sliceDriven = true →
      s.startSlice.stage.enable = true ∧ 0 < s.startSlice.stage.wordSent := by
    intro hd
    have hd : (true && decide (0 < s.startSlice.stage.wordSent) && s.startSlice.stage.enable) = true := hd
    simpa [and_comm] using hd
  refine ⟨by rw [henable, hperm]; exact h.enable, fun hn => ?_, ?_, ?_, fun p hp => ?_, hword, by simpa [State.cfg] using h.rated, hdriven⟩
  · obtain ⟨h0, hnone⟩ := h.still (hperm ▸ hn)
    rw [happlied, hpending, hnone]; exact ⟨h0, rfl⟩
  · rw [happlied, State.startSlice_share]
    split
    · exact h.allotted
    · next p hp =>
      split
      · exact le_trans (Nat.min_le_left _ _) (h.waiting p hp)
      · exact h.allotted
  · rw [happlied, State.startSlice_thermal]
    split
    · exact h.cool
    · split
      · exact Nat.min_le_right _ _
      · exact h.cool
  · rw [hpending] at hp
    rw [State.startSlice_share]
    split at hp
    · cases hp
    · next q hq =>
      split at hp
      · cases hp
      · cases hp; exact h.waiting p hq

theorem SlicePart.run_drawSafe (p : SlicePart) {s : State} (h : s.DrawSafe) : (p.run s).DrawSafe := by
  cases p with
  | meter => exact State.meterSliceEnd_drawSafe h
  | scan => exact State.scan_drawSafe h
  | permit =>
    show s.permitTest.DrawSafe
    unfold State.permitTest
    split
    · exact h
    · exact State.addHold_drawSafe h _
  | start =>
    show s.startUnlessOwed.DrawSafe
    unfold State.startUnlessOwed
    split
    · exact h
    · exact State.startSlice_drawSafe h
  | post =>
    show s.postUnlessOwed.DrawSafe
    unfold State.postUnlessOwed State.postClaim
    split
    · exact h
    · split
      · exact State.formClaim_drawSafe h
      · exact h
  | mark =>
    show s.discardMark.DrawSafe
    exact h.of_same (by simp) (by simp) (by simp) (by simp) (State.permission_congr (by simp) (by simp) (by simp))
  | topped => exact State.topIfReached_drawSafe h

/-! ### The round-end work -/

/-- What R114 decides of the power and the waiting increase stays within the allotment and M_eff. -/
theorem StageControl.decide_within (g : StageControl) (b : Bool) (p m : Nat) (hcool : g.applied ≤ m) :
    (g.decide b p m).applied ≤ p ∧ (g.decide b p m).applied ≤ m ∧
      (∀ q, (g.decide b p m).pendingIncrease = some q → q ≤ p) ∧
      (b = false → (g.decide b p m).applied = 0 ∧ (g.decide b p m).pendingIncrease = none) := by
  unfold StageControl.decide
  split
  · next hb =>
    refine and_assoc.1 ⟨?_, ?_, fun h => absurd (hb.symm.trans h) (by decide)⟩
    all_goals split
    · exact ⟨Nat.min_le_left _ _, Nat.min_le_right _ _⟩
    · split
      · exact ⟨Nat.min_le_left _ _, Nat.min_le_right _ _⟩
      · exact ⟨by show g.applied ≤ p; omega, hcool⟩
    · nofun
    · split
      · nofun
      · intro q hq; cases hq; exact le_rfl
  · exact ⟨Nat.zero_le _, Nat.zero_le _, nofun, fun _ => ⟨rfl, rfl⟩⟩

/-- It decides nothing else. -/
theorem StageControl.decide_frame (g : StageControl) (b : Bool) (p m : Nat) :
    g.decide b p m = { g with applied := (g.decide b p m).applied, pendingIncrease := (g.decide b p m).pendingIncrease } := by
  unfold StageControl.decide
  split
  · split
    · rfl
    · split <;> rfl
  · rfl

/-- Stage control's round-end work: the permission, the power decided, and the word of it sent (R114). -/
theorem State.stageRoundEnd_stage (s : State) : ∃ g : StageControl,
    g = ({ s.stage with pendingIncrease := none, cap := false, enable := s.permission, sliceDriven := true, startOwed := false } :
      StageControl).decide s.permission s.share.allotment s.thermal.mEff ∧
    s.stageRoundEnd.stage = { g with wordSent := g.applied, sliceDriven := decide (0 < g.applied) && s.permission } ∧
    s.stageRoundEnd.out = { s.out with stage := s.out.stage ++ [g.applied] } := by
  refine ⟨_, rfl, ?_, ?_⟩ <;>
    simp only [State.stageRoundEnd, State.sendWord, StageControl.word] <;>
    rw [StageControl.decide_frame] <;> simp

theorem State.stageRoundEnd_drawSafe {s : State} (h : s.DrawCool) : s.stageRoundEnd.DrawSafe := by
  obtain ⟨g, hg, hstage, -⟩ := s.stageRoundEnd_stage
  have hframe := hg.trans (StageControl.decide_frame _ _ _ _)
  rw [← hg] at hframe
  obtain ⟨hp, hm, hwait, hstill⟩ := StageControl.decide_within ({ s.stage with
    pendingIncrease := none, cap := false, enable := s.permission, sliceDriven := true, startOwed := false } : StageControl)
    s.permission s.share.allotment s.thermal.mEff h.cool
  rw [← hg] at hp hm hwait hstill
  have hperm : s.stageRoundEnd.permission = s.permission := State.permission_congr (by simp) (by simp) (by simp)
  have henable : g.enable = s.permission := by rw [hframe]
  have hcap : g.cap = false := by rw [hframe]
  exact
    { enable := by rw [hstage, hperm]; exact henable
      still := by rw [hstage, hperm]; exact hstill
      allotted := by rw [hstage, State.stageRoundEnd_share]; exact hp
      cool := by rw [hstage, State.stageRoundEnd_thermal]; exact hm
      waiting := by rw [hstage, State.stageRoundEnd_share]; exact hwait
      word := by rw [hstage]; simp [StageControl.word, hcap]
      rated := by simpa [State.cfg] using h.rated
      driven := by
        rw [hstage]; intro hd
        simp only [Bool.and_eq_true, decide_eq_true_eq] at hd
        exact ⟨henable.trans hd.2, hd.1⟩ }

/-- The work up to the allotment leaves applied power, M_eff and settings. -/
theorem State.roundEndCore_cool {s : State} (h : s.DrawCool) (b : Bool) : (s.roundEndCore b).DrawCool := by
  obtain ⟨_, _, _, hm⟩ := s.meterSliceEnd_stage
  refine h.of_same ?_ ?_ ?_ <;> simp only [State.roundEndCore] <;> split <;> simp [hm]

theorem State.roundEndWork_drawSafe {s : State} (h : s.DrawSafe) (n : Bool) (c : Nat) : (s.roundEndWork n c).DrawSafe := by
  simp only [State.roundEndWork]
  refine State.DrawSafe.of_same (s := runIn _ _ _) ?_ rfl rfl rfl rfl rfl
  refine runIn_establishes (W := State.DrawCool) _ _ _ (List.mem_cons_of_mem _ (List.mem_cons_of_mem _
    (List.mem_cons_of_mem _ List.mem_cons_self))) ?_ ?_ ?_ _ (State.roundEndCore_cool h.cooled _)
  · intro t ht
    exact State.stageRoundEnd_drawSafe (ht.of_same (by simp) (by simp) (by simp))
  · intro f hf
    simp only [List.mem_cons, List.not_mem_nil, or_false] at hf
    rcases hf with rfl | rfl | rfl | rfl
    · exact .inr fun t ht => ht.of_same (by simp) (by simp) (by simp)
    · refine .inr fun t ht => ?_
      simp only []; split
      · exact ht.of_same (by simp) (by simp) (by simp)
      · exact ht
    · exact .inr fun t ht => ht.of_same (by simp) (by simp) (by simp)
    · exact .inl rfl
  · intro f hf t ht
    simp only [List.mem_cons, List.not_mem_nil, or_false] at hf
    rcases hf with rfl | rfl | rfl | rfl
    · exact ht.of_same (by simp) rfl (by simp) (by simp) (State.permission_congr (by simp) (by simp) (by simp))
    · simp only []; split
      · exact ht.of_same (by simp) (by simp) (by simp) (by simp) (State.permission_congr (by simp) (by simp) (by simp))
      · exact ht
    · unfold State.reformIfChanged
      split
      · exact ht
      · exact State.formClaim_drawSafe ht
    · exact State.stageRoundEnd_drawSafe (ht.cooled.of_same (by simp) (by simp) (by simp))

/-! ### Every step -/

/-- A reset, and a part that has none of the rounds' state, draw nothing. -/
theorem State.Idle.drawSafe {s : State} (i : s.Idle) : s.DrawSafe := by
  have hp := State.permission_none i.session
  refine ⟨by rw [i.stage, hp], fun _ => by rw [i.stage]; exact ⟨rfl, rfl⟩, ?_, ?_, ?_, ?_, ?_, ?_⟩
  all_goals simp [i.stage, i.thermal, i.share, StageControl.word]

theorem moves_drawInv : Moves State.DrawInv where
  line s l h := ⟨moves_roundsInv.line s l h.1, h.2.of_same rfl rfl rfl rfl rfl⟩
  out s o h := ⟨moves_roundsInv.out s o h.1, h.2.of_same rfl rfl rfl rfl rfl⟩
  inspect s i h := ⟨moves_roundsInv.inspect s i h.1, h.2.of_same rfl rfl rfl rfl rfl⟩
  order s a b h := ⟨moves_roundsInv.order s a b h.1, h.2.of_same rfl rfl rfl rfl rfl⟩
  temps s t h := ⟨moves_roundsInv.temps s t h.1, h.2.of_same rfl rfl rfl rfl rfl⟩
  powerUp s h := by
    have hr := moves_roundsInv.powerUp s h.1
    exact ⟨hr, (hr.idle rfl).drawSafe⟩
  restart s h := by
    have hr := moves_roundsInv.restart s h.1
    exact ⟨hr, (hr.idle rfl).drawSafe⟩
  resetPin s b h := ⟨moves_roundsInv.resetPin s b h.1, h.2.of_same rfl rfl rfl rfl rfl⟩
  read s r h := ⟨moves_roundsInv.read s r h.1, h.2.of_same rfl rfl rfl rfl rfl⟩
  started s h hs hl := by
    have i := h.1.idle (State.offLine_of_starting hs)
    have hp : s.startRounds.firstListening.permission = false := State.permission_listening rfl
    refine ⟨moves_roundsInv.started s h.1 hs hl, ?_⟩
    have hstage : ∃ n, s.startRounds.firstListening.stage = { lagSlice := n } := ⟨_, by
      simp only [State.firstListening_stage, State.startRounds, i.stage]; rfl⟩
    obtain ⟨n, hstage⟩ := hstage
    have hthermal : s.startRounds.firstListening.thermal = {} := i.thermal
    refine ⟨by rw [hstage, hp], fun _ => by rw [hstage]; exact ⟨rfl, rfl⟩,
      by rw [hstage]; exact Nat.zero_le _, by rw [hstage]; exact Nat.zero_le _, by rw [hstage]; nofun, by rw [hstage]; rfl,
      by rw [hthermal]; exact Nat.zero_le _, by rw [hstage]; nofun⟩
  toSetup s h hs := by
    have hr := moves_roundsInv.toSetup s h.1 hs
    exact ⟨hr, (hr.idle rfl).drawSafe⟩
  claim s h := ⟨moves_roundsInv.claim s h.1, State.formClaim_drawSafe h.2⟩
  postSlice s n h ho := ⟨moves_roundsInv.postSlice s n h.1 ho, h.2.of_same rfl rfl rfl rfl rfl⟩
  owe s a b h hr := ⟨moves_roundsInv.owe s a b h.1 hr, by
    obtain ⟨h1, h2, h3, h4, h5, h6, h7, h8⟩ := h.2
    exact ⟨h1, h2, h3, h4, h5, h6, h7, h8⟩⟩
  hand s h hr := ⟨moves_roundsInv.hand s h.1 hr, h.2.of_same rfl rfl rfl rfl rfl⟩
  nextSlice s h hr hl := ⟨moves_roundsInv.nextSlice s h.1 hr hl, h.2.of_same rfl rfl rfl rfl rfl⟩
  part p s h hr := ⟨moves_roundsInv.part p s h.1 hr, p.run_drawSafe h.2⟩
  work s n c h hr := ⟨moves_roundsInv.work s n c h.1 hr, State.roundEndWork_drawSafe h.2 n c⟩
  second s h := by
    refine ⟨moves_roundsInv.second s h.1, h.2.of_same rfl rfl rfl rfl ?_⟩
    simp only [State.permission, State.phase, State.clockSecond]
    cases s.session <;> rfl
  align s h hr := ⟨moves_roundsInv.align s h.1 hr, h.2.of_same rfl rfl rfl rfl rfl⟩
  clock s n h hn := ⟨moves_roundsInv.clock s n h.1 hn, h.2.of_same rfl rfl rfl rfl rfl⟩
  hears s b h := ⟨moves_roundsInv.hears s b h.1, State.standingTakes_drawSafe h.2 b⟩
  report s b h := ⟨moves_roundsInv.report s b h.1, h.2.of_same rfl rfl rfl rfl rfl⟩
  entry s b p e h ho h1 hn hb he := ⟨moves_roundsInv.entry s b p e h.1 ho h1 hn hb he, h.2.of_same rfl rfl rfl rfl rfl⟩
  notice s v d t h hv hd := by
    refine ⟨moves_roundsInv.notice s v d t h.1 hv hd, ?_⟩
    unfold State.applyNotice
    split
    · next x hx =>
      split
      · refine State.topIfReached_drawSafe (h.2.of_same rfl rfl rfl rfl ?_)
        simp only [State.permission, State.phase, hx]; rfl
      · exact h.2.of_same rfl rfl rfl rfl rfl
    · exact h.2.of_same rfl rfl rfl rfl rfl
  override s o h ho := ⟨moves_roundsInv.override s o h.1 ho, h.2.of_same rfl rfl rfl rfl rfl⟩
  edge s h := ⟨moves_roundsInv.edge s h.1, h.2.of_same rfl rfl rfl rfl rfl⟩
  permitFalls s h := by
    refine ⟨moves_roundsInv.permitFalls s h.1, ?_⟩
    unfold State.permitFalls
    split
    · obtain ⟨hl, hc⟩ := State.addHold_halves (s := { s with pins := { s.pins with permit := false } })
        (h.2.loose.of_same rfl rfl) (h.2.cooled.of_same rfl rfl rfl) .permit
      exact State.evalPermission_drawSafe hl hc
    · exact h.2
  permitRises s h := by
    refine ⟨moves_roundsInv.permitRises s h.1, ?_⟩
    unfold State.permitRises
    split
    · exact h.2
    · obtain ⟨hl, hc⟩ := State.removeHold_halves (s := { s with pins := { s.pins with permit := true } })
        (h.2.loose.of_same rfl rfl) (h.2.cooled.of_same rfl rfl rfl) .permit
      exact State.evalPermission_drawSafe hl hc
  plug s p r h ho hv := by
    refine ⟨moves_roundsInv.plug s p r h.1 ho hv, ?_⟩
    have opened : ∀ u : State, u.stage = s.stage → u.share = s.share → u.thermal = s.thermal → u.settings = s.settings →
        u.evalPermission.refreshMEff.DrawSafe := fun u hg hs hth hset => by
      have hu := State.evalPermission_drawSafe (h.2.loose.of_same hg (by rw [hs]))
        (h.2.cooled.of_same (by rw [hg]) (by rw [hth]) hset)
      exact State.refreshMEff_drawSafe hu.loose hu.permitted
    exact opened _ (by simp) (by simp) (by simp) (by simp)
  taper s n h ho := by
    refine ⟨moves_roundsInv.taper s n h.1 ho, ?_⟩
    unfold State.taperTaken
    split
    · exact h.2.of_same rfl rfl rfl rfl rfl
    · next x hx =>
      have hperm : (({ s with session := some { x with vanMax := min n s.cfg.stageRating } } : State).ack .taper
          (if min n s.cfg.stageRating = n then .taken else .clamped)).permission = s.permission := by
        simp [State.permission, State.phase, hx]
      exact State.refreshMEff_drawSafe (h.2.loose.of_same rfl rfl)
        ⟨by rw [hperm]; exact h.2.enable, by rw [hperm]; exact h.2.still⟩
  addHold s h ho := ⟨moves_roundsInv.addHold s h.1 ho, State.addHold_drawSafe h.2 _⟩
  removeHold s h ho := ⟨moves_roundsInv.removeHold s h.1 ho, State.removeHold_drawSafe h.2 _⟩
  unplug s h ho := by
    refine ⟨moves_roundsInv.unplug s h.1 ho, ?_⟩
    unfold State.unplugTaken
    split
    · exact h.2.of_same rfl rfl rfl rfl rfl
    · have hc : (((s.writeLast .unplug).ack .unplug .taken).changeSession none).DrawSafe :=
        State.changeSession_drawSafe (h.2.loose.of_same (by simp) (by simp)) (h.2.cooled.of_same (by simp) (by simp) (by simp)) _
      exact State.refreshMEff_drawSafe hc.loose hc.permitted
  write s c v h hc := ⟨moves_roundsInv.write s c v h.1 hc, h.2.of_same rfl rfl rfl rfl rfl⟩
  lock s h hs hb := by
    have hr := moves_roundsInv.lock s h.1 hs hb
    exact ⟨hr, (hr.idle rfl).drawSafe⟩

/-- Settles O55: what the permission reads, and that each move of a step restores the halves it breaks. -/
theorem drawKept : Obligations.DrawKept := by
  refine ⟨fun s => ⟨State.permission_iff, fun h => ?_, fun x h => ?_⟩, fun s t h hstep => ?_⟩
  · simp [State.phase, State.holds, h]
  · simp [State.phase, State.holds, h]
  · refine moves_drawInv.step (fun s q h => ?_) (fun s h => ?_) h hstep
    · exact ⟨h.1.of_same rfl rfl rfl rfl fun _ i => { i with }, h.2.of_same rfl rfl rfl rfl rfl⟩
    · exact ⟨State.advance_roundsInv h.1, h.2.of_same rfl rfl rfl rfl rfl⟩

end Sys2Proof.Machine
end

section
/-! What the outbox's own operations keep of the line engine (R155 to R159, R163, R164), every block's work keeps: it
places frames, takes waiting ones out, forbids a retry, draws, and counts, and touches the line engine in no other way. -/

namespace Sys2Proof.Machine

@[simp] theorem State.removeHold_line (r : HoldReason) (s : State) : (s.removeHold r).line = s.line := by
  obtain ⟨_, _, _, e⟩ := State.removeHold_still r s; rw [e]

@[simp] theorem State.removeHold_share (r : HoldReason) (s : State) : (s.removeHold r).share = s.share := by
  obtain ⟨_, _, _, e⟩ := State.removeHold_still r s; rw [e]

@[simp] theorem State.permitRises_line (s : State) : s.permitRises.line = s.line := by
  obtain ⟨_, _, _, _, e⟩ := s.permitRises_frame; rw [e]

@[simp] theorem State.openSession_line (p : PlugFields) (r : AckResult) (s : State) :
    (s.openSession p r).line = s.line := by
  obtain ⟨_, _, _, _, _, _, e⟩ := State.openSession_frame p r s; rw [e]

/-- The operations on the line engine that the blocks' work is made of, each of which keeps `Q`. -/
structure LineMoves (Q : LineEngine → Prop) : Prop where
  place : ∀ s slot p, Q s.line → Q (State.placeFrame slot p s).line
  remove : ∀ s slot, State.underWay slot s = false → Q s.line → Q (State.removeFrame slot s).line
  forbid : ∀ s slot, Q s.line → Q (State.forbidRetry slot s).line
  drawn : ∀ l g, Q l → Q { l with prng := g }
  counted : ∀ l errors unposted dropped, Q l → Q { l with counters := { l.counters with
    lineErrors := errors, claimsUnposted := unposted, queriesDropped := dropped } }

namespace LineMoves
variable {Q : LineEngine → Prop} (m : LineMoves Q)
include m

theorem lineError (s : State) (h : Q s.line) : Q s.countLineError.line := m.counted _ _ _ _ h

theorem unposted (s : State) (h : Q s.line) : Q s.countUnposted.line := m.counted _ _ _ _ h

theorem dropped (s : State) (h : Q s.line) : Q s.countDropped.line := m.counted _ _ _ _ h

/-! ### The session and the standing -/

theorem formClaim (s : State) (h : Q s.line) : Q s.formClaim.line := by
  cases ho : s.stand.standing.onLine
  · rwa [s.formClaim_off ho]
  · rw [s.formClaim_line ho]; exact m.place s _ _ h

theorem putSession (s : State) (x : Option Session) (h : Q s.line) : Q (s.putSession x).line := by
  obtain ⟨u, hu, -, e⟩ := s.putSession_spec x
  have hl : Q u.line := by rw [hu]; exact h
  rw [e]; split
  · exact m.formClaim u hl
  · exact hl

theorem changeSession (s : State) (x : Option Session) (h : Q s.line) : Q (s.changeSession x).line := by
  rw [State.changeSession, State.evalPermission_line]; exact m.putSession s x h

theorem addHold (s : State) (r : HoldReason) (h : Q s.line) : Q (s.addHold r).line := by
  unfold State.addHold
  split
  · exact h
  · split
    · exact h
    · exact m.changeSession s _ h

theorem topIfReached (s : State) (h : Q s.line) : Q s.topIfReached.line := by
  unfold State.topIfReached
  split
  · exact h
  · split
    · exact m.changeSession s _ h
    · exact h

theorem standingTakes (s : State) (b : Nat) (h : Q s.line) : Q (s.standingTakes b).line := by
  simp only [State.standingTakes]
  split
  · split
    · exact h
    · split
      · rw [State.evalPermission_line]; exact m.formClaim _ h
      · rw [State.evalPermission_line]; exact m.formClaim _ h
      · exact h
  · exact h

/-! ### Slice ends and round ends -/

theorem removeWaitingMark (s : State) (h : Q s.line) : Q s.removeWaitingMark.line := by
  unfold State.removeWaitingMark
  split
  · next hw =>
    simp only [Bool.and_eq_true, Bool.not_eq_true'] at hw
    exact m.remove s _ hw.2 h
  · exact h

theorem part (p : SlicePart) (s : State) (h : Q s.line) : Q (p.run s).line := by
  cases p with
  | meter => simpa [SlicePart.run] using h
  | scan =>
    have hr : Q ({ s with thermal := s.scanned } : State).refreshMEff.line := by simpa using h
    show Q s.scan.line
    unfold State.scan State.thermalHold
    split
    · exact hr
    · split
      · exact m.addHold _ _ hr
      · split
        · rw [State.removeHold_line]; exact hr
        · exact hr
  | permit =>
    show Q s.permitTest.line
    unfold State.permitTest
    split
    · exact h
    · exact m.addHold s _ h
  | start => simpa [SlicePart.run] using h
  | post =>
    show Q s.postUnlessOwed.line
    unfold State.postUnlessOwed State.postClaim
    split
    · exact h
    · split
      · exact m.formClaim s h
      · exact h
  | mark =>
    show Q s.discardMark.line
    unfold State.discardMark
    split
    · exact m.forbid _ _ (m.removeWaitingMark s h)
    · exact h
  | topped => exact m.topIfReached s h

theorem takeStarts (s : State) (h : Q s.line) : Q s.takeStarts.line :=
  takeStarts_keeps (P := fun s => Q s.line) (fun _ _ _ h => h) m.part s h

theorem sliceExpiry (s : State) (h : Q s.line) : Q s.sliceExpiry.line :=
  sliceExpiry_keeps (P := fun s => Q s.line) (fun s h => by simpa using h) (fun _ h => h) (fun _ _ _ h => h) m.part s h

theorem slicePartsOn (c : Nat) (a b : Bool) (s : State) (h : Q s.line) : Q (slicePartsOn c a b s).line :=
  slicePartsOn_keeps (P := fun s => Q s.line) (m.part .scan) (m.part .permit) c a b s h

theorem placeMark (s : State) (h : Q s.line) : Q s.placeMark.line := by
  unfold State.placeMark
  split
  · exact m.place s _ _ h
  · exact h

theorem discardClaim (s : State) (h : Q s.line) : Q s.discardClaim.line := by
  have hf := m.forbid s .claim h
  simp only [State.discardClaim]
  split
  · next hw =>
    simp only [Bool.and_eq_true, Bool.not_eq_true'] at hw
    exact m.unposted _ (m.remove _ _ hw.2 hf)
  · exact hf

theorem drawPostSlice (s : State) (h : Q s.line) : Q s.drawPostSlice.line := m.drawn _ _ h

theorem sessionRoundEnd (s : State) (c : Nat) (p q : Bool) (h : Q s.line) : Q (s.sessionRoundEnd c p q).line := by
  unfold State.sessionRoundEnd
  split
  · exact h
  · exact m.putSession s _ h

theorem roundEndCore (b : Bool) (s : State) (h : Q s.line) : Q (s.roundEndCore b).line := by
  have h1 : Q s.meterSliceEnd.holdRound.line := by simpa using h
  simp only [State.roundEndCore, State.nextRound_line, State.chooseAllotment_line, State.expireNotices_line,
    State.countOverride_line, State.agePeers_line, State.standingRoundEnd_line]
  split
  · exact m.discardClaim _ (m.placeMark _ h1)
  · exact m.discardClaim _ h1

theorem roundEndTail (b : Bool) (before : Standing) (c : Nat) (p q : Bool) :
    ∀ f ∈ roundEndTail b before c p q, ∀ s : State, Q s.line → Q (f s).line := by
  intro f hf s h
  simp only [Machine.roundEndTail, List.mem_cons, List.not_mem_nil, or_false] at hf
  rcases hf with rfl | rfl | rfl | rfl
  · exact m.drawPostSlice s h
  · simp only []; split
    · exact m.placeMark s h
    · exact h
  · unfold State.reformIfChanged
    split
    · exact h
    · exact m.formClaim s h
  · rw [State.stageRoundEnd_line]; exact m.sessionRoundEnd s c p q h

theorem roundEndWork (n : Bool) (c : Nat) (s : State) (h : Q s.line) : Q (s.roundEndWork n c).line :=
  runIn_keeps (P := fun s => Q s.line) _ _ (m.roundEndTail _ _ _ _ _) _ (m.roundEndCore _ s h)

theorem roundEnd (n : Bool) (s : State) (h : Q s.line) : Q (s.roundEnd n).line := by
  unfold State.roundEnd State.roundEndIn
  exact m.slicePartsOn _ _ _ _ (m.roundEndWork _ _ _ (m.slicePartsOn _ _ _ _ (by simpa using h)))

theorem naturalRoundEnd (s : State) (h : Q s.line) : Q s.naturalRoundEnd.line := by
  unfold State.naturalRoundEnd
  split
  · exact m.roundEnd _ s h
  · exact h

/-! ### Frames -/

theorem markRound (s : State) (h : Q s.line) : Q s.markRound.line := by
  unfold State.markRound
  split
  · exact m.roundEnd _ _ h
  · split
    · exact m.roundEnd _ s h
    · exact h

omit m in
theorem markClock (n : Nat) (s : State) (h : Q s.line) : Q (s.markClock n).line := by
  unfold State.markClock; split <;> exact h

omit m in
theorem dispatchClock (n : Nat) (s : State) (h : Q s.line) : Q (s.dispatchClock n).line := by
  unfold State.dispatchClock; split <;> exact h

theorem deliverMark (s : State) (b : Nat) (p : List Byte) (h : Q s.line) : Q (s.deliverMark b p).line := by
  unfold State.deliverMark
  split
  · exact m.standingTakes _ _ (m.lineError s h)
  · next n _ =>
    split
    · split
      · refine inAnyOrder_keeps (P := fun s => Q s.line) _ (fun s h => by simpa using h) ?_ s h
        intro f hf s h
        simp only [List.mem_cons, List.not_mem_nil, or_false] at hf
        rcases hf with rfl | rfl | rfl | rfl
        · exact m.removeWaitingMark s h
        · exact m.markRound s h
        · exact markClock n s h
        · exact m.standingTakes s b h
      · exact m.standingTakes _ _ (markClock n s h)
    · exact m.standingTakes s b h

theorem deliverClaim (s : State) (b : Nat) (p : List Byte) (h : Q s.line) : Q (s.deliverClaim b p).line := by
  refine m.standingTakes _ _ ?_
  unfold State.peersTake
  split
  · split
    · exact m.lineError s h
    · exact h
  · exact h

theorem applyNotice (s : State) (van d : Nat) (t : Option Nat) (h : Q s.line) : Q (s.applyNotice van d t).line := by
  unfold State.applyNotice
  split
  · split
    · exact m.topIfReached _ h
    · exact h
  · exact h

theorem noticeTaken (f : NoticeFields) (s : State) (h : Q s.line) : Q (s.noticeTaken f).line := by
  have h1 := dispatchClock f.dispatch s h
  simp only [State.noticeTaken]
  split
  · exact m.lineError _ h1
  · exact m.applyNotice _ _ _ _ h1

theorem deliverNotice (s : State) (b : Nat) (p : List Byte) (h : Q s.line) : Q (s.deliverNotice b p).line := by
  unfold State.deliverNotice
  split
  · exact m.standingTakes _ _ (m.lineError s h)
  · refine inAnyOrder_keeps (P := fun s => Q s.line) _ (fun s h => by simpa using h) ?_ s h
    intro g hg s h
    simp only [List.mem_cons, List.not_mem_nil, or_false] at hg
    rcases hg with rfl | rfl
    · exact m.noticeTaken _ s h
    · exact m.standingTakes s b h

theorem deliverLimit (s : State) (b : Nat) (p : List Byte) (h : Q s.line) : Q (s.deliverLimit b p).line := by
  unfold State.deliverLimit
  split
  · exact m.standingTakes _ _ (m.lineError s h)
  · next f _ =>
    refine m.standingTakes _ _ ?_
    have h1 := dispatchClock f.dispatch s h
    simp only [State.limitTaken]
    split
    · split
      · exact m.lineError _ h1
      · exact h1
    · exact h1

theorem sendReply (s : State) (k : RequestKind) (t : Byte) (c : ReplyCode) (b : Byte) (i : List (List Byte))
    (h : Q s.line) : Q (s.sendReply k t c b i).line := m.place _ _ _ h

theorem queryTaken (q : QueryFrame) (v : Byte) (s : State) (h : Q s.line) : Q (s.queryTaken q v).line := by
  unfold State.queryTaken
  split
  · exact m.lineError s h
  · split
    · split
      · exact m.dropped s h
      · unfold State.answerQuery; split <;> exact m.sendReply _ _ _ _ _ _ h
    · exact h

theorem deliverQuery (s : State) (q : QueryFrame) (v : Byte) (h : Q s.line) : Q (s.deliverQuery q v).line := by
  refine inAnyOrder_keeps (P := fun s => Q s.line) _ (fun s h => by simpa using h) ?_ s h
  intro g hg s h
  simp only [List.mem_cons, List.not_mem_nil, or_false] at hg
  rcases hg with rfl | rfl
  · exact m.queryTaken q v s h
  · exact m.standingTakes s _ h

theorem setupFor (n : BitVec 32) {f : State → State} (hf : ∀ s : State, Q s.line → Q (f s).line) (s : State)
    (h : Q s.line) : Q (s.setupFor n f).line := by
  unfold State.setupFor
  split
  · split
    · exact m.dropped s h
    · exact hf s h
  · exact h

theorem decideWrite (c v : Nat) (s : State) (h : Q s.line) : Q (s.decideWrite c v).line := by
  refine m.sendReply _ _ _ _ _ _ ?_
  split <;> exact h

theorem decideLock (s : State) (h : Q s.line) : Q s.decideLock.line := by
  unfold State.decideLock
  split
  · exact m.sendReply _ _ _ _ _ _ h
  · split
    · exact m.sendReply _ _ _ _ _ _ h
    · exact m.sendReply (s.setInstaller s.store.installer.lock) .lock 0 .accepted 2 [] h

theorem decideRestart (s : State) (h : Q s.line) : Q s.decideRestart.line := m.sendReply _ _ _ _ _ _ h

theorem setupTaken (p : List Byte) (s : State) (h : Q s.line) : Q (s.setupTaken p).line := by
  unfold State.setupTaken
  split
  · simp only []
    split
    · exact m.setupFor _ (m.decideWrite _ _) s h
    · exact m.setupFor _ m.decideLock s h
    · exact m.setupFor _ m.decideRestart s h
    · exact m.lineError s h
  · exact m.lineError s h

theorem deliverFrame (s : State) (k : FrameKind) (b : Byte) (p : List Byte) (h : Q (s.takeFrame k b.toNat).line) :
    Q (s.deliverFrame k b p).line := by
  cases k
  · exact m.deliverMark _ _ _ h
  · exact m.deliverClaim _ _ _ h
  · exact m.deliverNotice _ _ _ h
  · exact m.deliverLimit _ _ _ h
  · exact m.deliverQuery _ _ _ h
  · exact m.standingTakes _ _ h
  · exact m.standingTakes _ _ (m.setupTaken _ _ h)

/-- A frame among the commands keeps what its last character leaves (R160, R161). -/
theorem frame {c : Instr} {kind : FrameKind} {bay : Byte} (hc : frameOf c = some (kind, bay)) (s : State)
    (h : Q (s.takeFrame kind bay.toNat).line) : Q (Machine.effect c s).line := by
  cases c <;> cases hc
  case markFrame p t => exact m.deliverMark _ _ _ h
  case claimFrame p => exact m.deliverClaim _ _ _ h
  case noticeFrame p => exact m.deliverNotice _ _ _ h
  case limitFrame p => exact m.deliverLimit _ _ _ h
  case replyFrame p => exact m.standingTakes _ _ h
  case setupWrite n f v => exact m.standingTakes _ _ (m.setupFor _ (m.decideWrite _ _) _ h)
  case setupLock n => exact m.standingTakes _ _ (m.setupFor _ m.decideLock _ h)
  case setupRestart n => exact m.standingTakes _ _ (m.setupFor _ m.decideRestart _ h)
  case malformedSetup p => exact m.standingTakes _ _ (m.setupTaken _ _ h)
  all_goals exact m.deliverQuery _ _ _ h

/-! ### The post link and the pins -/

theorem permitFalls (s : State) (h : Q s.line) : Q s.permitFalls.line := by
  unfold State.permitFalls
  split
  · rw [State.evalPermission_line]; exact m.addHold _ _ h
  · exact h

theorem unplugTaken (s : State) (h : Q s.line) : Q s.unplugTaken.line := by
  unfold State.unplugTaken
  split
  · exact h
  · rw [State.refreshMEff_line]; exact m.changeSession _ _ (by simpa using h)

theorem completeRead (s : State) (h : Q s.line) : Q s.completeRead.line := by
  simp only [State.completeRead]
  split
  · refine inAnyOrder_keeps (P := fun s => Q s.line) _ (fun s h => by simpa using h) ?_ _ h
    intro g hg s h
    simp only [List.mem_cons, List.not_mem_nil, or_false] at hg
    rcases hg with rfl | rfl
    · exact m.formClaim s h
    · exact m.drawPostSlice s h
  · exact h

theorem storeReadEnds (s : State) (h : Q s.line) : Q s.storeReadEnds.line := by
  unfold State.storeReadEnds
  split
  · exact m.completeRead s h
  · exact h

end LineMoves

end Sys2Proof.Machine
end

section
/-! The outbox and the sender under every step (R155 to R157, R159). -/

namespace Sys2Proof.Machine

/-! ### The collision counts -/

/-- No frame in a slot has collided eight times. -/
def Outbox.CountsFit (o : Outbox) : Prop := ∀ slot f, o.get slot = some f → f.collisions ≤ 7

theorem Outbox.CountsFit.set {o : Outbox} (h : o.CountsFit) {f : Option Queued} (hf : ∀ g, f = some g → g.collisions ≤ 7)
    (slot : Slot) : (o.set slot f).CountsFit := by
  intro k g hg
  rw [Outbox.get_set] at hg
  split at hg
  · exact hf g hg
  · exact h k g hg

theorem Outbox.CountsFit.clear {o : Outbox} (h : o.CountsFit) (slot : Slot) : (o.set slot none).CountsFit :=
  h.set (fun _ hg => by cases hg) slot

theorem State.placeFrame_countsFit {s : State} (h : s.line.outbox.CountsFit) (slot : Slot) (p : List Byte) :
    (s.placeFrame slot p).line.outbox.CountsFit := by
  rw [State.placeFrame_outbox]
  exact h.set (fun g hg => by cases hg; exact Nat.zero_le _) slot

/-! ### Occupied slots -/

theorem Outbox.isEmpty_eq_false_iff {o : Outbox} : o.isEmpty = false ↔ ∃ slot, (o.get slot).isSome = true := by
  rw [← Bool.not_eq_true, Outbox.isEmpty_iff]
  constructor
  · intro h
    by_contra hn
    simp only [not_exists, Bool.not_eq_true, Option.isSome_eq_false_iff, Option.isNone_iff_eq_none] at hn
    exact h ⟨hn .mark, hn .claim, hn .reply⟩
  · rintro ⟨slot, hs⟩ ⟨h1, h2, h3⟩
    cases slot <;> simp [Outbox.get, h1, h2, h3] at hs

theorem Outbox.isEmpty_set_some (o : Outbox) (slot : Slot) (f : Queued) : (o.set slot (some f)).isEmpty = false :=
  Outbox.isEmpty_eq_false_iff.2 ⟨slot, by simp⟩

/-- The frame an attempt begins with holds its slot (R155). -/
theorem Outbox.get_of_highest {o : Outbox} {slot : Slot} {f : Queued} (h : o.highest = some (slot, f)) :
    o.get slot = some f := by
  unfold Outbox.highest at h
  split at h <;> cases h <;> assumption

/-! ### The operations -/

theorem State.placeFrame_outboxInv {s : State} (h : s.line.OutboxInv) (slot : Slot) (p : List Byte) :
    (s.placeFrame slot p).line.OutboxInv := by
  obtain ⟨hfits, hcounts, hread⟩ := h
  have hcounts' := State.placeFrame_countsFit (s := s) hcounts slot p
  cases hs : s.line.sender with
  | idle =>
    rw [State.placeFrame_idle slot p s hs] at hcounts' ⊢
    exact ⟨Outbox.isEmpty_set_some _ _ _, hcounts', nofun⟩
  | waiting b w =>
    rw [State.placeFrame_waiting slot p s hs] at hcounts' ⊢
    refine ⟨?_, hcounts', fun a ha => ?_⟩
    · simp only [LineEngine.senderFits, hs]; exact Outbox.isEmpty_set_some _ _ _
    · rw [hs] at ha; cases ha
  | sending a =>
    have hsend := State.placeFrame_sending slot p s a hs
    simp only [LineEngine.senderFits, hs] at hfits
    refine ⟨?_, hcounts', fun b hb => ?_⟩
    · simp only [LineEngine.senderFits, hsend, State.placeFrame_outbox, Outbox.get_set]
      split
      · nofun
      · next hne => intro hr; rw [if_neg (Ne.symm hne)]; exact hfits hr
    · rw [hsend] at hb; cases hb
      split <;> exact hread a hs

theorem State.removeFrame_outboxInv {s : State} {slot : Slot} (hu : s.underWay slot = false) (h : s.line.OutboxInv) :
    (s.removeFrame slot).line.OutboxInv := by
  obtain ⟨hfits, hcounts, hread⟩ := h
  have hcounts' : (s.line.outbox.set slot none).CountsFit := Outbox.CountsFit.clear hcounts slot
  simp only [State.removeFrame]
  cases hs : s.line.sender with
  | idle =>
    refine ⟨?_, hcounts', fun a ha => ?_⟩
    · simp only [LineEngine.senderFits, hs] at hfits
      simp only [LineEngine.senderFits, State.setSlot, hs]
      rw [Outbox.isEmpty_iff] at hfits ⊢
      cases slot <;> simp [Outbox.set, hfits]
    · rw [State.setSlot, hs] at ha; cases ha
  | waiting b w =>
    simp only []
    split
    · next he => exact ⟨he, hcounts', nofun⟩
    · next he =>
      refine ⟨?_, hcounts', fun a ha => ?_⟩
      · simp only [LineEngine.senderFits, State.setSlot, hs]; exact (Bool.not_eq_true _).mp he
      · rw [State.setSlot, hs] at ha; cases ha
  | sending a =>
    simp only [LineEngine.senderFits, hs] at hfits
    simp only [State.underWay, hs, Bool.and_eq_false_iff, beq_eq_false_iff_ne, Bool.not_eq_false'] at hu
    refine ⟨?_, hcounts', fun b hb => ?_⟩
    · simp only [LineEngine.senderFits, State.setSlot, hs, Outbox.get_set]
      intro hr
      rw [if_neg fun e => (hu.elim (fun h => h e.symm) fun h => by rw [h] at hr; cases hr)]
      exact hfits hr
    · rw [State.setSlot] at hb; exact hread b hb

theorem State.forbidRetry_outboxInv {s : State} (h : s.line.OutboxInv) (slot : Slot) :
    (s.forbidRetry slot).line.OutboxInv := by
  obtain ⟨hfits, hcounts, hread⟩ := h
  unfold State.forbidRetry
  split
  · next a hs =>
    split
    · refine ⟨?_, hcounts, fun b hb => ?_⟩
      · simpa [LineEngine.senderFits, State.setSender, hs] using hfits
      · cases hb; exact hread a hs
    · exact ⟨hfits, hcounts, hread⟩
  · exact ⟨hfits, hcounts, hread⟩

theorem lineMoves_outboxInv : LineMoves LineEngine.OutboxInv where
  place _ slot p h := State.placeFrame_outboxInv h slot p
  remove _ _ hu h := State.removeFrame_outboxInv hu h
  forbid _ slot h := State.forbidRetry_outboxInv h slot
  drawn _ _ h := ⟨h.sender, h.counts, h.readBack⟩
  counted _ _ _ _ h := ⟨h.sender, h.counts, h.readBack⟩

/-- What is heard of the line does not enter. -/
theorem LineEngine.OutboxInv.of_same {l k : LineEngine} (h : l.OutboxInv) (ho : k.outbox = l.outbox)
    (hs : k.sender = l.sender) : k.OutboxInv := by
  obtain ⟨h1, h2, h3⟩ := h
  refine ⟨?_, by rwa [ho], by rwa [hs]⟩
  unfold LineEngine.senderFits at h1 ⊢
  rwa [hs, ho]

/-- A wait that runs again, or runs on, is still a wait. -/
theorem LineEngine.OutboxInv.wait {l : LineEngine} (h : l.OutboxInv) {x : Sender}
    (hx : x = l.sender ∨ ∃ b w v, l.sender = .waiting b w ∧ x = .waiting b v) :
    ({ l with sender := x } : LineEngine).OutboxInv := by
  rcases hx with rfl | ⟨b, w, v, hl, rfl⟩
  · exact ⟨h.sender, h.counts, h.readBack⟩
  · exact ⟨by simpa [LineEngine.senderFits, hl] using h.sender, h.counts, nofun⟩

theorem Sender.rewait_cases (x : Sender) : x.rewait = x ∨ ∃ b w v, x = .waiting b w ∧ x.rewait = .waiting b v := by
  cases x with
  | idle => exact .inl rfl
  | waiting b w => exact .inr ⟨b, w, 0, rfl, rfl⟩
  | sending a => exact .inl rfl

theorem LineEngine.OutboxInv.rewait {l : LineEngine} (h : l.OutboxInv) :
    ({ l with sender := l.sender.rewait } : LineEngine).OutboxInv := h.wait l.sender.rewait_cases

theorem LineEngine.OutboxInv.tick {l : LineEngine} (h : l.OutboxInv) : l.tick.OutboxInv := by
  unfold LineEngine.tick
  split
  · exact h
  · split
    · exact h
    · exact h.of_same rfl rfl
    · next b w hs => exact (h.wait (.inr ⟨b, w, w + Config.tickMicros, hs, rfl⟩)).of_same rfl rfl

theorem State.characterEnds_outboxInv {s : State} (h : s.line.OutboxInv) : s.characterEnds.line.OutboxInv :=
  h.rewait.of_same rfl rfl

theorem State.takeFrame_outboxInv {s : State} (h : s.line.OutboxInv) (k : FrameKind) (b : Nat) :
    (s.takeFrame k b).line.OutboxInv := h.rewait.of_same rfl rfl

theorem State.resetBlocks_outboxInv (s : State) : s.resetBlocks.line.OutboxInv :=
  ⟨rfl, fun slot f hf => by (cases slot <;> cases hf), nofun⟩

/-! ### An attempt -/

/-- After an attempt the sender follows from the slots; only the counts matter before. -/
theorem State.afterAttempt_outboxInv {s : State} (h : s.line.outbox.CountsFit) {m : Nat} :
    (s.afterAttempt m).line.OutboxInv := by
  cases he : s.line.outbox.isEmpty with
  | true => rw [State.afterAttempt_idle m he]; exact ⟨he, h, nofun⟩
  | false => rw [State.afterAttempt_waits m he]; exact ⟨he, h, nofun⟩

theorem State.replySent_countsFit {s : State} (h : s.line.outbox.CountsFit) : s.replySent.line.outbox.CountsFit := by
  unfold State.replySent
  split
  · exact h
  · split
    · exact (State.resetBlocks_outboxInv _).counts
    · split
      · exact h
      · exact State.placeFrame_countsFit (by exact h) _ _

theorem State.frameSent_outboxInv {s : State} (h : s.line.OutboxInv) (a : Attempt) : (s.frameSent a).line.OutboxInv := by
  have hslot : ∀ u : State, u.line.outbox = s.line.outbox →
      (if a.replaced then u else u.setSlot a.slot none).line.outbox.CountsFit := by
    intro u hu
    split
    · rw [hu]; exact h.counts
    · show (u.line.outbox.set a.slot none).CountsFit
      rw [hu]; exact Outbox.CountsFit.clear h.counts _
  unfold State.frameSent
  refine State.afterAttempt_outboxInv ?_
  split
  · exact hslot _ rfl
  · exact hslot _ rfl
  · exact State.replySent_countsFit (hslot _ rfl)

theorem State.reportDiscard_outbox (k : Slot) (s : State) : (s.reportDiscard k).line.outbox = s.line.outbox := by
  cases k with
  | mark => rfl
  | claim => rfl
  | reply =>
    simp only [State.reportDiscard, State.replyDiscarded]
    split
    · rfl
    · split <;> rfl

theorem State.frameCollides_outboxInv {s : State} (h : s.line.OutboxInv) (a : Attempt) :
    (s.frameCollides a).line.OutboxInv := by
  have hc : s.attemptEnds.countCollision.line.outbox.CountsFit := h.counts
  unfold State.frameCollides
  refine State.afterAttempt_outboxInv ?_
  revert hc; generalize s.attemptEnds.countCollision = u; intro hc
  unfold State.collideFrame
  split
  · split
    · split
      · rw [State.reportDiscard_outbox, State.choose_line]; exact hc
      · rw [State.choose_line]; exact hc
    · exact hc
  · split
    · exact hc
    · next f hf =>
      split
      · rw [State.reportDiscard_outbox]; exact hc.clear _
      · next hn =>
        refine hc.set (fun g hg => ?_) _
        simp only [Config.maxCollisions] at hn
        cases hg; show f.collisions + 1 ≤ 7
        omega

theorem State.beginAttempt_outboxInv {s : State} (h : s.line.OutboxInv) : s.beginAttempt.line.OutboxInv := by
  unfold State.beginAttempt
  split
  · split
    · exact h
    · split
      · exact h
      · next slot f hf =>
        refine ⟨fun _ => ?_, h.counts, fun a ha => ?_⟩
        · show (s.line.outbox.get slot).isSome = true
          rw [Outbox.get_of_highest hf]; rfl
        · cases ha; exact Nat.succ_pos _
  · exact h
  · exact h

theorem State.readBack_outboxInv {s : State} {a : Attempt} (hs : s.line.sender = .sending a) (h : s.line.OutboxInv)
    (c : Byte) : (s.readBack c a).line.OutboxInv := by
  unfold State.readBack
  split
  · next hm =>
    split
    · exact State.frameSent_outboxInv h a
    · next hne =>
      have hlt : a.heard < a.bytes.length := (List.getElem?_eq_some_iff.1 hm).1
      refine ⟨?_, h.counts, fun b hb => ?_⟩
      · have := h.sender
        simp only [LineEngine.senderFits, hs] at this
        exact this
      · cases hb; show a.heard + 1 < a.bytes.length; omega
  · exact State.frameCollides_outboxInv h a

/-! ### Characters and the quiet gap -/

theorem State.receiveBad_outboxInv {s : State} (h : s.line.OutboxInv) : s.receiveBad.line.OutboxInv := by
  unfold State.receiveBad; split <;> exact h.of_same rfl rfl

theorem State.quietGap_outboxInv {s : State} (h : s.line.OutboxInv) : s.quietGap.line.OutboxInv := by
  simp only [State.quietGap]
  split
  · exact h
  · split <;> exact h.of_same rfl rfl

theorem State.receive_outboxInv {s : State} (h : s.line.OutboxInv) (c : Byte) : (s.receive c).line.OutboxInv := by
  have reject : s.rejectFrame.line.OutboxInv := h.rewait.of_same rfl rfl
  unfold State.receive
  split
  · split <;> exact h.of_same rfl rfl
  · unfold State.assemble
    split
    · split
      · exact h.of_same rfl rfl
      · split
        · unfold State.completeFrame
          split
          · split
            · exact lineMoves_outboxInv.deliverFrame _ _ _ _ (State.takeFrame_outboxInv h _ _)
            · exact reject
          · exact reject
        · exact h.of_same rfl rfl
    · exact h.of_same rfl rfl
  · exact h.of_same rfl rfl
  · exact h

/-! ### Every step -/

theorem State.ofAttemptOr_outboxInv {s : State} {f : Attempt → State → State} {g : State → State}
    (hf : ∀ a, s.line.sender = .sending a → (f a s).line.OutboxInv) (hg : (g s).line.OutboxInv) :
    (s.ofAttemptOr f g).line.OutboxInv := by
  unfold State.ofAttemptOr
  split
  · exact hf _ ‹_›
  · exact hg
  · exact hg

theorem State.record_outboxInv {s : State} {k : RecordKind} {f : State → State} (hf : (f s).line.OutboxInv)
    (h : s.line.OutboxInv) : (s.record k f).line.OutboxInv := by
  unfold State.record
  split
  · exact hf
  · exact h

theorem effect_outboxInv (c : Instr) (s : State) (h : s.line.OutboxInv) : (effect c s).line.OutboxInv := by
  cases hc : frameOf c with
  | some kb => exact lineMoves_outboxInv.frame hc s (State.takeFrame_outboxInv h _ _)
  | none =>
    cases c with
    | powerUp => exact State.resetBlocks_outboxInv _
    | resetAsserted =>
      show s.assertReset.line.OutboxInv
      unfold State.assertReset
      split
      · exact h
      · exact State.resetBlocks_outboxInv _
    | resetReleased =>
      show s.releaseReset.line.OutboxInv
      unfold State.releaseReset
      split
      · simp only []; split <;> exact h
      · exact h
    | storeReadCompletes => exact lineMoves_outboxInv.storeReadEnds s h
    | sliceExpiry t => exact lineMoves_outboxInv.sliceExpiry _ h
    | naturalRoundEnd t => exact lineMoves_outboxInv.naturalRoundEnd _ h
    | clockSecondEvent => exact h
    | restartWaitExpiry =>
      show s.restartWaitEnds.line.OutboxInv
      unfold State.restartWaitEnds
      split
      · exact State.resetBlocks_outboxInv _
      · exact h
    | invalidFrame => exact h.rewait.of_same rfl rfl
    | receiveError =>
      exact State.ofAttemptOr_outboxInv (fun a _ => State.frameCollides_outboxInv h a)
        (State.receiveBad_outboxInv (State.characterEnds_outboxInv h))
    | quietGap => exact State.quietGap_outboxInv h
    | sendAttempt => exact State.beginAttempt_outboxInv h
    | sentInFull => exact State.ofAttemptOr_outboxInv (fun a _ => State.frameSent_outboxInv h a) h
    | collision => exact State.ofAttemptOr_outboxInv (fun a _ => State.frameCollides_outboxInv h a) h
    | meterEdge => exact h
    | permitFalling => exact lineMoves_outboxInv.permitFalls s h
    | permitRising => show s.permitRises.line.OutboxInv; simpa using h
    | plug r =>
      refine State.record_outboxInv ?_ h
      unfold State.plugTaken
      split
      · exact h
      · simpa using h
    | taper n =>
      refine State.record_outboxInv ?_ h
      obtain ⟨_, _, _, _, e⟩ := s.taperTaken_frame n.toNat
      rw [e]; exact h
    | hold =>
      refine State.record_outboxInv ?_ h
      unfold State.holdTaken
      split
      · exact h
      · exact lineMoves_outboxInv.addHold _ _ h
    | resume =>
      refine State.record_outboxInv ?_ h
      unfold State.resumeTaken
      split
      · rw [State.removeHold_line]; exact h
      · exact h
    | unplug => exact State.record_outboxInv (lineMoves_outboxInv.unplugTaken s h) h
    | startBitHeard =>
      show s.startBit.line.OutboxInv
      unfold State.startBit
      split
      · exact h
      · exact h.rewait.of_same rfl rfl
    | characterHeard b =>
      exact State.ofAttemptOr_outboxInv (fun a ha => State.readBack_outboxInv ha h b)
        (State.receive_outboxInv (State.characterEnds_outboxInv h) b)
    | _ => cases hc

theorem Due.take_outboxInv (d : Due) (s : State) (h : s.line.OutboxInv) : (d.take s).line.OutboxInv := by
  cases d with
  | second => exact h
  | slice =>
    simp only [Due.take]
    split
    · exact lineMoves_outboxInv.naturalRoundEnd s h
    · exact lineMoves_outboxInv.sliceExpiry s h
  | read => exact lineMoves_outboxInv.storeReadEnds s h
  | restart => exact effect_outboxInv .restartWaitExpiry s h
  | quiet => exact State.quietGap_outboxInv h
  | attempt =>
    refine State.beginAttempt_outboxInv ?_
    split
    · exact State.quietGap_outboxInv h
    · exact h

/-- Settles O56: every operation on the outbox and the sender keeps them in agreement. -/
theorem outboxKept : Obligations.OutboxKept := by
  intro s t h hstep
  cases hp : s.pending with
  | nil =>
    rw [step_nil hp] at hstep; cases hstep
    exact tick_keeps (P := fun s => s.line.OutboxInv) (fun s h => by simpa using h) lineMoves_outboxInv.takeStarts
      (fun _ h => h.tick) Due.take_outboxInv s h
  | cons c q => rw [step_cons hp] at hstep; rw [exec_next hstep]; exact effect_outboxInv c _ h

end Sys2Proof.Machine
end

section
/-! The peer table and the notice table under every step (R35, R98, R100). -/

namespace Sys2Proof.Machine

/-! ### The peer table -/

theorem State.PeersSafe.of_same {s t : State} (h : s.PeersSafe) (he : t.peers.entries = s.peers.entries)
    (hs : t.settings = s.settings) : t.PeersSafe := by
  have hcfg : t.cfg = s.cfg := by simp only [State.cfg, hs]
  exact ⟨by rw [he]; exact h.ordered, by rw [he, hcfg]; exact h.peer⟩

theorem State.PeersSafe.of_empty {s : State} (h : s.peers.entries = []) : s.PeersSafe :=
  ⟨by rw [h]; exact .nil, by simp [h]⟩

theorem State.PeersSafe.of_filter {s t : State} (h : s.PeersSafe) {p : PeerEntry → Bool}
    (he : t.peers.entries = s.peers.entries.filter p) (hs : t.settings = s.settings) : t.PeersSafe := by
  have hcfg : t.cfg = s.cfg := by simp only [State.cfg, hs]
  refine ⟨by rw [he]; exact h.ordered.filter _, fun e hm => ?_⟩
  rw [he] at hm; rw [hcfg]
  exact h.peer e (List.mem_of_mem_filter hm)

theorem State.agePeers_peers_of {s t : State} (lone : Nat) (he : t.peers.entries = s.peers.entries)
    (hr : t.timer.roundCount = s.timer.roundCount) : (t.agePeers lone).peers = (s.agePeers lone).peers := by
  simp only [State.agePeers, he, hr]

/-- The round-end work leaves the peer table as the ageing of its entries does (R42 to R47). -/
theorem State.roundEndWork_peers (s : State) (n : Bool) (c : Nat) :
    ∃ lone, (s.roundEndWork n c).peers = (s.agePeers lone).peers := by
  have parts : ∀ u : State, ∀ m be co ca si d, (runIn d (roundEndTail m be co ca si) u).peers = u.peers := by
    intro u m be co ca si d
    refine runIn_keeps (P := fun t => t.peers = u.peers) _ _ ?_ u rfl
    intro f hf t ht
    simp only [roundEndTail, List.mem_cons, List.not_mem_nil, or_false] at hf
    rcases hf with rfl | rfl | rfl | rfl
    · simpa using ht
    · simp only []; split <;> simpa using ht
    · simpa using ht
    · simpa using ht
  simp only [State.roundEndWork, State.beginMeterRound_peers, parts, State.roundEndCore, State.nextRound_peers,
    State.chooseAllotment_peers, State.expireNotices_peers, State.countOverride_peers]
  refine ⟨_, State.agePeers_peers_of _ ?_ ?_⟩
  · split <;> simp [State.standingRoundEnd]
  · split <;> simp [State.standingRoundEnd]

theorem moves_peersInv : Moves State.PeersInv where
  line s l h := ⟨moves_roundsInv.line s l h.1, h.2.of_same rfl rfl⟩
  out s o h := ⟨moves_roundsInv.out s o h.1, h.2.of_same rfl rfl⟩
  inspect s i h := ⟨moves_roundsInv.inspect s i h.1, h.2.of_same rfl rfl⟩
  order s a b h := ⟨moves_roundsInv.order s a b h.1, h.2.of_same rfl rfl⟩
  temps s t h := ⟨moves_roundsInv.temps s t h.1, h.2.of_same rfl rfl⟩
  powerUp s h := ⟨moves_roundsInv.powerUp s h.1, .of_empty rfl⟩
  restart s h := ⟨moves_roundsInv.restart s h.1, .of_empty rfl⟩
  resetPin s b h := ⟨moves_roundsInv.resetPin s b h.1, h.2.of_same rfl rfl⟩
  read s r h := ⟨moves_roundsInv.read s r h.1, h.2.of_same rfl rfl⟩
  started s h hs hl := by
    have i := h.1.idle (State.offLine_of_starting hs)
    exact ⟨moves_roundsInv.started s h.1 hs hl, .of_empty (by simp [i.peers])⟩
  toSetup s h hs := ⟨moves_roundsInv.toSetup s h.1 hs, h.2.of_same rfl rfl⟩
  claim s h := ⟨moves_roundsInv.claim s h.1, h.2.of_same (by simp) (by simp)⟩
  postSlice s n h ho := ⟨moves_roundsInv.postSlice s n h.1 ho, h.2.of_same rfl rfl⟩
  owe s a b h hr := ⟨moves_roundsInv.owe s a b h.1 hr, h.2.of_same rfl rfl⟩
  hand s h hr := ⟨moves_roundsInv.hand s h.1 hr, h.2.of_same rfl rfl⟩
  nextSlice s h hr hl := ⟨moves_roundsInv.nextSlice s h.1 hr hl, h.2.of_same rfl rfl⟩
  part p s h hr := by
    obtain ⟨_, _, _, _, _, _, _, e⟩ := p.run_frame s
    exact ⟨moves_roundsInv.part p s h.1 hr, h.2.of_same (by rw [e]) (by rw [e])⟩
  work s n c h hr := by
    obtain ⟨_, _, _, _, _, _, _, _, _, _, e⟩ := s.roundEndWork_frame n c
    obtain ⟨lone, hp⟩ := s.roundEndWork_peers n c
    exact ⟨moves_roundsInv.work s n c h.1 hr, h.2.of_filter (by rw [hp]; rfl) (by rw [e])⟩
  second s h := ⟨moves_roundsInv.second s h.1, h.2.of_same rfl rfl⟩
  align s h hr := ⟨moves_roundsInv.align s h.1 hr, h.2.of_same rfl rfl⟩
  clock s n h hn := ⟨moves_roundsInv.clock s n h.1 hn, h.2.of_same rfl rfl⟩
  hears s b h := ⟨moves_roundsInv.hears s b h.1, h.2.of_same (by simp) (by simp)⟩
  report s b h := ⟨moves_roundsInv.report s b h.1, h.2.of_same rfl rfl⟩
  entry s b p e h ho h1 hn hb he := by
    refine ⟨moves_roundsInv.entry s b p e h.1 ho h1 hn hb he, putEntry_ordered e _ h.2.ordered, fun d hd => ?_⟩
    rcases mem_putEntry e d _ hd with rfl | hd
    · rw [peerEntryOf_bay he]; exact ⟨h1, hn, hb⟩
    · exact h.2.peer d hd
  notice s v d t h hv hd := by
    obtain ⟨_, _, _, _, _, _, e⟩ := State.applyNotice_frame v d (noticeTarget t) s
    exact ⟨moves_roundsInv.notice s v d t h.1 hv hd, h.2.of_same (by rw [e]) (by rw [e])⟩
  override s o h ho := ⟨moves_roundsInv.override s o h.1 ho, h.2.of_same rfl rfl⟩
  edge s h := ⟨moves_roundsInv.edge s h.1, h.2.of_same rfl rfl⟩
  permitFalls s h := by
    obtain ⟨_, _, _, _, _, _, e⟩ := s.permitFalls_frame
    exact ⟨moves_roundsInv.permitFalls s h.1, h.2.of_same (by rw [e]) (by rw [e])⟩
  permitRises s h := by
    obtain ⟨_, _, _, _, e⟩ := s.permitRises_frame
    exact ⟨moves_roundsInv.permitRises s h.1, h.2.of_same (by rw [e]) (by rw [e])⟩
  plug s p r h ho hv := by
    obtain ⟨_, _, _, _, _, _, e⟩ := State.openSession_frame (p.clamped s.cfg.stageRating) r s
    exact ⟨moves_roundsInv.plug s p r h.1 ho hv, h.2.of_same (by rw [e]) (by rw [e])⟩
  taper s n h ho := by
    obtain ⟨_, _, _, _, e⟩ := s.taperTaken_frame n
    exact ⟨moves_roundsInv.taper s n h.1 ho, h.2.of_same (by rw [e]) (by rw [e])⟩
  addHold s h ho := ⟨moves_roundsInv.addHold s h.1 ho, h.2.of_same (by simp) (by simp)⟩
  removeHold s h ho := ⟨moves_roundsInv.removeHold s h.1 ho, h.2.of_same (by simp) (by simp)⟩
  unplug s h ho := by
    obtain ⟨_, _, _, _, _, _, _, e⟩ := s.unplugTaken_frame
    exact ⟨moves_roundsInv.unplug s h.1 ho, h.2.of_same (by rw [e]) (by rw [e])⟩
  write s c v h hc := ⟨moves_roundsInv.write s c v h.1 hc, h.2.of_same rfl rfl⟩
  lock s h hs hb := ⟨moves_roundsInv.lock s h.1 hs hb, h.2.of_same rfl rfl⟩

/-! ### The session's record through a slice end and a round end -/

theorem State.addHold_phaseHolds {s : State} {x : Session} (h : s.session = some x) (r : HoldReason) :
    ∃ y, (s.addHold r).session = some y ∧ y = { x with phase := y.phase, holds := y.holds } := by
  rw [State.addHold_session r s x h]
  split <;> exact ⟨_, rfl, rfl⟩

theorem State.removeHold_phaseHolds {s : State} {x : Session} (h : s.session = some x) (r : HoldReason) :
    ∃ y, (s.removeHold r).session = some y ∧ y = { x with phase := y.phase, holds := y.holds } :=
  ⟨_, State.removeHold_session r s x h, rfl⟩

theorem State.topIfReached_phaseHolds {s : State} {x : Session} (h : s.session = some x) :
    ∃ y, s.topIfReached.session = some y ∧ y = { x with phase := y.phase, holds := y.holds } := by
  rw [State.topIfReached_session s x h]
  split <;> exact ⟨_, rfl, rfl⟩

theorem State.thermalHold_phaseHolds {s : State} {x : Session} (h : s.session = some x) :
    ∃ y, s.thermalHold.session = some y ∧ y = { x with phase := y.phase, holds := y.holds } := by
  unfold State.thermalHold
  split
  · exact ⟨x, h, rfl⟩
  · split
    · exact State.addHold_phaseHolds h _
    · split
      · exact State.removeHold_phaseHolds h _
      · exact ⟨x, h, rfl⟩

/-- A part of a slice end changes of the session record the phase and the hold reasons alone. -/
theorem SlicePart.run_phaseHolds (p : SlicePart) {s : State} {x : Session} (h : s.session = some x) :
    ∃ y, (p.run s).session = some y ∧ y = { x with phase := y.phase, holds := y.holds } := by
  cases p with
  | meter => exact ⟨x, by simpa [SlicePart.run] using h, rfl⟩
  | scan => exact State.thermalHold_phaseHolds (by simpa using h)
  | permit =>
    show ∃ y, s.permitTest.session = some y ∧ _
    unfold State.permitTest
    split
    · exact ⟨x, h, rfl⟩
    · exact State.addHold_phaseHolds h _
  | start => exact ⟨x, by simpa [SlicePart.run] using h, rfl⟩
  | post => exact ⟨x, by simpa [SlicePart.run] using h, rfl⟩
  | mark => exact ⟨x, by simpa [SlicePart.run] using h, rfl⟩
  | topped => exact State.topIfReached_phaseHolds h

/-- Without a session a part of a slice end opens none. -/
theorem SlicePart.run_session_none (p : SlicePart) {s : State} (h : s.session = none) : (p.run s).session = none := by
  cases p with
  | scan =>
    have hr : ({ s with thermal := s.scanned } : State).refreshMEff.session = none := by simpa using h
    show s.scan.session = none
    unfold State.scan State.thermalHold
    split
    · exact hr
    · split
      · rw [State.addHold_none _ _ hr]; exact hr
      · split
        · rw [State.removeHold_none _ _ hr]; exact hr
        · exact hr
  | permit =>
    show s.permitTest.session = none
    unfold State.permitTest
    split
    · exact h
    · rw [State.addHold_none _ _ h]; exact h
  | topped => show s.topIfReached.session = none; rw [State.topIfReached_none s h]; exact h
  | _ => simpa [SlicePart.run] using h

/-- The van in session. -/
def State.van (s : State) : Option Nat := s.session.map Session.van

theorem State.van_of_phaseHolds {s t : State}
    (hnone : s.session = none → t.session = none)
    (hsome : ∀ x, s.session = some x → ∃ y, t.session = some y ∧ y = { x with phase := y.phase, holds := y.holds }) :
    t.van = s.van := by
  cases hs : s.session with
  | none => simp [State.van, hs, hnone hs]
  | some x =>
    obtain ⟨y, hy, e⟩ := hsome x hs
    rw [State.van, State.van, hy, hs, e]; rfl

theorem SlicePart.run_van (p : SlicePart) (s : State) : (p.run s).van = s.van :=
  State.van_of_phaseHolds p.run_session_none fun _ => p.run_phaseHolds

theorem State.addHold_van (s : State) (r : HoldReason) : (s.addHold r).van = s.van :=
  State.van_of_phaseHolds (fun h => by rw [State.addHold_none _ _ h]; exact h) fun _ h => State.addHold_phaseHolds h r

theorem State.removeHold_van (s : State) (r : HoldReason) : (s.removeHold r).van = s.van :=
  State.van_of_phaseHolds (fun h => by rw [State.removeHold_none _ _ h]; exact h) fun _ h => State.removeHold_phaseHolds h r

theorem State.topIfReached_van (s : State) : s.topIfReached.van = s.van :=
  State.van_of_phaseHolds (fun h => by rw [State.topIfReached_none _ h]; exact h) fun _ h => State.topIfReached_phaseHolds h

theorem Session.enterFault_van (r : FaultReason) (x : Session) : (x.enterFault r).van = x.van := by
  unfold Session.enterFault; split <;> rfl

theorem Session.countHold_van (x : Session) : x.countHold.van = x.van := by
  unfold Session.countHold; split
  · rfl
  · split <;> rfl

theorem Session.applyStreak_van (x : Session) : x.applyStreak.van = x.van := by
  unfold Session.applyStreak; split
  · exact x.enterFault_van _
  · rfl

theorem Session.applySilence_van (b : Bool) (x : Session) : (x.applySilence b).van = x.van := by
  unfold Session.applySilence
  split
  · split
    · rfl
    · split
      · rw [Session.enterFault_van]
      · rfl
  · rfl

theorem State.sessionAfterRound_van (s : State) (c : Nat) (p q : Bool) (x : Session) :
    (s.sessionAfterRound c p q x).van = x.van := by
  have hy : ((((x.credit c).countHold).updateStreak p).applyStreak.applySilence q).van = x.van := by
    rw [Session.applySilence_van, Session.applyStreak_van]
    show (x.credit c).countHold.van = x.van
    rw [Session.countHold_van]; rfl
  simp only [State.sessionAfterRound]
  split <;> exact hy

theorem State.sessionRoundEnd_van (s : State) (c : Nat) (p q : Bool) : (s.sessionRoundEnd c p q).van = s.van := by
  unfold State.sessionRoundEnd
  split
  · rfl
  · next x hx =>
    simp only [State.van, State.putSession_session, hx, Option.map_some, s.sessionAfterRound_van]

theorem State.roundEndWork_van (s : State) (n : Bool) (c : Nat) : (s.roundEndWork n c).van = s.van := by
  refine roundEndWork_keeps (P := fun t => t.van = s.van) (fun _ _ h => h) (fun _ _ h => h) ?_ (fun _ h => h)
    (fun _ h => h) (fun _ _ h => h) (fun _ h => h) ?_ (fun _ _ h => h) (fun _ h => h) ?_ ?_ ?_ (fun _ h => h) n c s rfl
  · intro t h; simpa [State.van] using h
  · intro t h; simpa [State.van] using h
  · intro t h; simpa [State.van] using h
  · intro t h; simpa [State.van] using h
  · intro t c p q h; rw [← h, ← t.sessionRoundEnd_van c p q]; rfl

/-! ### The notice table -/

/-- The notice table beside a session of the van given. -/
structure NoticesFit (l : List NoticeEntry) (van : Option Nat) : Prop where
  room : l.length ≤ Config.noticeCapacity
  distinct : l.Pairwise fun a b => a.van ≠ b.van
  sound : ∀ e ∈ l, e.Sound
  apart : ∀ e ∈ l, some e.van ≠ van

theorem State.noticesInv_iff {s : State} : s.NoticesInv ↔ NoticesFit s.notices.table s.van := by
  constructor
  · intro h
    refine ⟨h.room, h.distinct, h.sound, fun e he hv => ?_⟩
    obtain ⟨x, hx, hxv⟩ := Option.map_eq_some_iff.1 hv.symm
    exact h.apart x hx e he hxv.symm
  · intro h
    exact ⟨h.room, h.distinct, h.sound, fun x hx e he hv => h.apart e he (by rw [State.van, hx, hv]; rfl)⟩

theorem NoticesFit.filter {l : List NoticeEntry} {v : Option Nat} (h : NoticesFit l v) (p : NoticeEntry → Bool) :
    NoticesFit (l.filter p) v where
  room := (List.length_filter_le p l).trans h.room
  distinct := h.distinct.filter p
  sound e he := h.sound e (List.mem_of_mem_filter he)
  apart e he := h.apart e (List.mem_of_mem_filter he)

theorem NoticesFit.none {l : List NoticeEntry} {v : Option Nat} (h : NoticesFit l v) : NoticesFit l none :=
  { h with apart := nofun }

theorem noticeTarget_range {t k : Nat} (h : noticeTarget t = some k) : 1 ≤ k ∧ k ≤ Config.maxEnergy := by
  unfold noticeTarget at h
  split at h
  · cases h
  · cases h
    exact ⟨Nat.le_min.2 ⟨by omega, by decide⟩, Nat.min_le_right _ _⟩

/-- A notice stored keeps the table's form: its van's older entry goes, and from a full table the oldest (R101). -/
theorem NoticesFit.store {l : List NoticeEntry} {v : Option Nat} (h : NoticesFit l v) {e : NoticeEntry} (he : e.Sound)
    (hv : some e.van ≠ v) : NoticesFit (storeNotice e l) v := by
  have hk := h.filter fun d => decide (d.van ≠ e.van)
  simp only [storeNotice]
  generalize hkept : (l.filter fun d => decide (d.van ≠ e.van)) = kept at hk
  have hne : ∀ d ∈ kept, d.van ≠ e.van := by
    intro d hd; rw [← hkept] at hd; simpa using (List.mem_filter.1 hd).2
  obtain ⟨base, hbase, hsub, hlen⟩ : ∃ base, base = (if kept.length < Config.noticeCapacity then kept else kept.drop 1) ∧
      base.Sublist kept ∧ base.length < Config.noticeCapacity := by
    refine ⟨_, rfl, ?_, ?_⟩
    · split
      · exact .refl _
      · exact List.drop_sublist 1 kept
    · split
      · assumption
      · have := hk.room
        rw [List.length_drop]
        simp only [Config.noticeCapacity] at *; omega
  rw [← hbase]
  constructor
  · rw [List.length_append]; exact hlen
  · refine List.pairwise_append.2 ⟨hk.distinct.sublist hsub, List.pairwise_singleton _ _, fun a ha b hb => ?_⟩
    rw [List.mem_singleton.1 hb]; exact hne a (hsub.subset ha)
  · intro d hd
    rcases List.mem_append.1 hd with hd | hd
    · exact hk.sound d (hsub.subset hd)
    · rw [List.mem_singleton.1 hd]; exact he
  · intro d hd
    rcases List.mem_append.1 hd with hd | hd
    · exact hk.apart d (hsub.subset hd)
    · rw [List.mem_singleton.1 hd]; exact hv

/-- The round-end work leaves of the notice table those whose departure has not passed (R102). -/
theorem State.roundEndWork_table (s : State) (n : Bool) (c : Nat) :
    (s.roundEndWork n c).notices.table = s.expireNotices.notices.table := by
  have parts : ∀ u : State, ∀ m be co ca si d, (runIn d (roundEndTail m be co ca si) u).notices = u.notices := by
    intro u m be co ca si d
    refine runIn_keeps (P := fun t => t.notices = u.notices) _ _ ?_ u rfl
    intro f hf t ht
    simp only [roundEndTail, List.mem_cons, List.not_mem_nil, or_false] at hf
    rcases hf with rfl | rfl | rfl | rfl
    · simpa using ht
    · simp only []; split <;> simpa using ht
    · simpa using ht
    · simpa using ht
  have expire : ∀ u : State, u.timer.clock = s.timer.clock → u.notices.table = s.notices.table →
      u.expireNotices.notices.table = s.expireNotices.notices.table := by
    intro u hc ht
    unfold State.expireNotices
    rw [hc]
    split
    · exact ht
    · simp only [ht]
  simp only [State.roundEndWork, State.beginMeterRound_notices, parts, State.roundEndCore, State.nextRound_notices,
    State.chooseAllotment_notices]
  split <;> exact expire _ (by simp [State.standingRoundEnd]) (by simp [State.countOverride])

theorem NoticesFit.expire {s : State} {v : Option Nat} (h : NoticesFit s.notices.table v) :
    NoticesFit s.expireNotices.notices.table v := by
  unfold State.expireNotices
  split
  · exact h
  · exact h.filter _

theorem moves_noticesFit : Moves fun s => NoticesFit s.notices.table s.van where
  line _ _ h := h
  out _ _ h := h
  inspect _ _ h := h
  order _ _ _ h := h
  temps _ _ h := h
  powerUp _ _ := ⟨Nat.zero_le _, .nil, nofun, nofun⟩
  restart s h := by
    have ht : s.restart.notices.table = s.notices.table := by simp [State.restart, State.resetBlocks]
    rw [ht]; exact h.none
  resetPin _ _ h := h
  read _ _ h := h
  started _ h _ _ := h
  toSetup _ h _ := h
  claim s h := by simpa [State.van] using h
  postSlice _ _ h _ := h
  owe _ _ _ h _ := h
  hand _ h _ := h
  nextSlice _ h _ _ := h
  part p s h _ := by
    obtain ⟨_, _, _, _, _, _, _, e⟩ := p.run_frame s
    have ht : (p.run s).notices = s.notices := by rw [e]
    rw [ht, p.run_van]; exact h
  work s n c h _ := by rw [s.roundEndWork_table, s.roundEndWork_van]; exact h.expire
  second s h := by
    have hv : s.clockSecond.van = s.van := by simp only [State.van, State.clockSecond, Option.map_map]; rfl
    rw [hv]; exact h
  align _ h _ := h
  clock _ _ h _ := h
  hears s b h := by simpa [State.van] using h
  report _ _ h := h
  entry _ _ _ _ h _ _ _ _ _ := h
  notice s v d t h hv hd := by
    have stored : some v ≠ s.van → NoticesFit (storeNotice ⟨v, d, noticeTarget t⟩ s.notices.table) s.van :=
      h.store (e := ⟨v, d, noticeTarget t⟩) ⟨Nat.pos_of_ne_zero hv, hd, fun k hk => noticeTarget_range hk⟩
    unfold State.applyNotice
    split
    · next x hx =>
      split
      · rw [State.topIfReached_van, State.topIfReached_notices]
        have : ({ s with session := some (x.noticed s.timer.clock d (noticeTarget t)) } : State).van = s.van := by
          rw [State.van, State.van, hx]; rfl
        rw [this]; exact h
      · next hne => exact stored fun e => hne (by rw [State.van, hx] at e; exact (Option.some.inj e).symm)
    · next hx => exact stored fun e => by rw [State.van, hx] at e; cases e
  override _ _ h _ := h
  edge _ h := h
  permitFalls s h := by
    unfold State.permitFalls
    split
    · have hv := State.addHold_van ({ s with pins := { s.pins with permit := false } } : State) .permit
      simp only [State.van, State.evalPermission_session, State.evalPermission_notices, State.addHold_notices] at hv ⊢
      rw [hv]; exact h
    · exact h
  permitRises s h := by
    unfold State.permitRises
    split
    · exact h
    · have hv := State.removeHold_van ({ s with pins := { s.pins with permit := true } } : State) .permit
      simp only [State.van, State.evalPermission_session, State.evalPermission_notices, State.removeHold_notices] at hv ⊢
      rw [hv]; exact h
  plug s p r h _ _ := by
    have ht : (s.openSession (p.clamped s.cfg.stageRating) r).notices.table =
        s.notices.table.filter fun e => decide (e.van ≠ p.van) := by
      simp only [State.openSession, State.refreshMEff_notices, State.evalPermission_notices, State.sendPhase_notices,
        State.ack_notices, State.consumeNotice, State.writeLast_notices, PlugFields.clamped]
      rfl
    have hv : (s.openSession (p.clamped s.cfg.stageRating) r).van = some p.van := by
      simp [State.van, State.openSession, State.newSession, PlugFields.clamped]
    rw [ht, hv]
    refine { h.filter _ with apart := fun e he hc => ?_ }
    have := (List.mem_filter.1 he).2
    simp only [decide_eq_true_eq] at this
    exact this (Option.some.inj hc)
  taper s n h _ := by
    unfold State.taperTaken
    split
    · exact h
    · next x hx =>
      simp only [State.van, State.refreshMEff_session, State.refreshMEff_notices, State.ack_session, State.ack_notices]
      rw [State.van, hx] at h
      exact h
  addHold s h _ := by rw [State.addHold_notices, s.addHold_van]; exact h
  removeHold s h _ := by rw [State.removeHold_notices, s.removeHold_van]; exact h
  unplug s h _ := by
    unfold State.unplugTaken
    split
    · exact h
    · simp only [State.van, State.refreshMEff_session, State.refreshMEff_notices, State.changeSession_session,
        State.changeSession_notices, State.ack_notices, State.writeLast_notices]
      exact h.none
  write _ _ _ h _ := h
  lock _ h _ _ := h

/-- Settles O57: an entry is put in its place and dropped by age alone; a notice is stored in place of its van's older one,
and consumed by its van's session. -/
theorem tablesKept : Obligations.TablesKept := by
  refine ⟨fun s t h hstep => ?_, fun s t h hstep => ?_⟩
  · refine moves_peersInv.step (fun s q h => ?_) (fun s h => ?_) h hstep
    · exact ⟨h.1.of_same rfl rfl rfl rfl fun _ i => { i with }, h.2.of_same rfl rfl⟩
    · exact ⟨State.advance_roundsInv h.1, h.2.of_same rfl rfl⟩
  · rw [State.noticesInv_iff] at h ⊢
    exact moves_noticesFit.step (fun _ _ h => h) (fun _ h => h) h hstep

end Sys2Proof.Machine
end

section
/-! The ranges of the standing unit under every step (R18, R25 to R29, R33). -/

namespace Sys2Proof.Machine

namespace StandingUnit

theorem isolationNext_le (u : StandingUnit) : u.isolationNext ≤ Config.isolationLimit := Nat.min_le_left _ _

theorem isolationNext_lt {u : StandingUnit} (h : ¬ u.isolationNext = Config.isolationLimit) :
    u.isolationNext < Config.isolationLimit := lt_of_le_of_ne u.isolationNext_le h

theorem sound_atReset : ({} : StandingUnit).Sound :=
  ⟨by decide, by decide, by decide, by decide, by decide, nofun, by decide, nofun⟩

theorem Sound.endListening {u : StandingUnit} (h : u.Sound) (n : Nat) : (u.endListening n).Sound := by
  simp only [StandingUnit.endListening]
  split
  · exact { h with listen := by show _ + 1 ≤ 1; omega }
  · split
    · exact { h with listen := Nat.zero_le _ }
    · split
      · exact { h with
          listen := Nat.zero_le _, streak := Nat.zero_le _, streakJoined := fun _ => Nat.zero_le _, isolated := nofun }
      · exact { h with
          listen := Nat.zero_le _, streak := Nat.zero_le _, streakJoined := nofun, rejoin := Nat.zero_le _
          isolation := Nat.zero_le _, isolated := fun _ => (by decide : 0 < Config.isolationLimit) }

theorem Sound.endJoined {u : StandingUnit} (h : u.Sound) (n : Nat) : (u.endJoined n).Sound := by
  unfold StandingUnit.endJoined
  split
  · split
    · exact { h with
        streak := Nat.zero_le _, streakJoined := nofun, rejoin := Nat.zero_le _, isolation := Nat.zero_le _
        isolated := fun _ => (by decide : 0 < Config.isolationLimit) }
    · exact { h with
        streak := by show _ + 1 ≤ 3; omega
        streakJoined := fun _ => by show _ + 1 ≤ 2; omega }
  · exact { h with streak := Nat.zero_le _, streakJoined := fun _ => Nat.zero_le _ }

theorem Sound.endIsolated {u : StandingUnit} (h : u.Sound) : u.endIsolated.Sound := by
  unfold StandingUnit.endIsolated
  split
  · exact { h with streakJoined := nofun, isolation := u.isolationNext_le, isolated := nofun }
  · next hn => exact { h with
      streakJoined := nofun, isolation := u.isolationNext_le, isolated := fun _ => isolationNext_lt hn }

theorem Sound.endRejoining {u : StandingUnit} (h : u.Sound) (n : Nat) (hs : u.standing = .rejoining) :
    (u.endRejoining n).Sound := by
  have hi : u.standing ≠ .isolated := by rw [hs]; decide
  have h2 := h.streakJoined (.inr hs)
  simp only [StandingUnit.endRejoining]
  split
  · split
    · exact { h with
        streak := Nat.succ_le_succ h2, streakJoined := nofun, rejoin := Nat.zero_le _, isolation := u.isolationNext_le
        isolated := nofun }
    · next hn =>
      split
      · exact { h with
          streak := Nat.zero_le _, streakJoined := nofun, rejoin := Nat.zero_le _, isolation := u.isolationNext_le
          isolated := fun _ => isolationNext_lt hn }
      · exact { h with
          streak := Nat.succ_le_succ h2, streakJoined := fun _ => by show _ + 1 ≤ 2; omega
          rejoin := Nat.zero_le _, isolation := u.isolationNext_le, isolated := fun hc => absurd hc hi }
  · split
    · exact { h with
        streak := Nat.zero_le _, streakJoined := fun _ => Nat.zero_le _, rejoin := Nat.zero_le _
        isolation := Nat.zero_le _, isolated := nofun }
    · exact { h with
        streak := Nat.zero_le _, streakJoined := fun _ => Nat.zero_le _, rejoin := by show _ + 1 ≤ 1; omega
        isolation := u.isolationNext_le, isolated := fun hc => absurd hc hi }

theorem Sound.endPassage {u : StandingUnit} (h : u.Sound) (n : Nat) : (u.endPassage n).Sound := by
  unfold StandingUnit.endPassage
  split
  · exact h.endListening n
  · exact h.endJoined n
  · exact h.endIsolated
  · next hs => exact h.endRejoining n hs
  · exact h
  · exact h
  · exact h

theorem Sound.endClash {u : StandingUnit} (h : u.Sound) : u.endClash.Sound := by
  unfold StandingUnit.endClash
  split
  · exact { h with clash := Nat.zero_le _, flagged := nofun }
  · next hf =>
    split
    · split
      · exact { h with clash := Nat.zero_le _, flagged := fun hc => absurd hc hf }
      · exact { h with clash := by show _ + 1 ≤ 2; omega }
    · exact h

theorem Sound.roundEnd {u : StandingUnit} (h : u.Sound) (n : Nat) : (u.roundEnd n).Sound :=
  { (h.endPassage n).endClash with }

theorem Sound.hears {u : StandingUnit} (h : u.Sound) (c : Bool) : (u.hears c).Sound := by
  refine { h with clash := ?_, flagged := ?_ }
  · cases c
    · exact h.clash
    · exact Nat.zero_le 2
  · cases c
    · simpa [StandingUnit.hears] using h.flagged
    · simp [StandingUnit.hears]

/-- Entry into LISTENING brings the standing's own counts to 0 (R25). -/
theorem Sound.enterListening {s : State} (h : s.stand.Sound) : s.enterListening.stand.Sound :=
  { h with
    listen := Nat.zero_le _, streak := Nat.zero_le _, streakJoined := nofun, rejoin := Nat.zero_le _
    isolation := Nat.zero_le _, isolated := nofun }

theorem Sound.standingTakes {s : State} (h : s.stand.Sound) (b : Nat) : (s.standingTakes b).stand.Sound := by
  have hh := h.hears (decide (b = s.cfg.bay))
  simp only [State.standingTakes]
  split
  · split
    · exact hh
    · split
      · simp only [State.evalPermission_stand, State.formClaim_stand]
        exact { hh with
          streak := Nat.zero_le _, streakJoined := fun _ => Nat.zero_le _, rejoin := Nat.zero_le _, isolated := nofun }
      · simp only [State.evalPermission_stand, State.formClaim_stand]
        exact Sound.enterListening (s := { s with stand := s.stand.hears (decide (b = s.cfg.bay)) }) hh
      · exact hh
  · exact h

end StandingUnit

/-- The round-end work leaves the standing unit sound, whatever it reports of the own claim on the way. -/
theorem State.roundEndWork_standSound (s : State) (n : Bool) (c : Nat) (h : s.stand.Sound) :
    (s.roundEndWork n c).stand.Sound := by
  refine roundEndWork_keeps (P := fun t => t.stand.Sound) (fun _ _ h => h) (fun _ _ h => { h with }) ?_ (fun _ h => h)
    (fun t h => h.roundEnd t.cfg.n) (fun _ _ h => h) (fun _ h => h) ?_ (fun _ _ h => h) (fun _ h => h) ?_ ?_ ?_
    (fun _ h => h) n c s h
  · intro t h; simpa using h
  · intro t h; simpa using h
  · intro t h; simpa using h
  · intro t h; simpa using h
  · intro t c p q h
    rw [State.stageRoundEnd_stand]
    unfold State.sessionRoundEnd
    split
    · exact h
    · simpa using h

theorem moves_standSound : Moves fun s => s.stand.Sound where
  line _ _ h := h
  out _ _ h := h
  inspect _ _ h := h
  order _ _ _ h := h
  temps _ _ h := h
  powerUp _ _ := StandingUnit.sound_atReset
  restart s _ := by rw [show s.restart.stand = {} from State.resetBlocks_stand _]; exact StandingUnit.sound_atReset
  resetPin _ _ h := h
  read _ _ h := h
  started s h _ _ := { StandingUnit.Sound.enterListening (s := s.startRounds) h with }
  toSetup _ h _ := { h with streakJoined := nofun, isolated := nofun }
  claim s h := by simpa using h
  postSlice _ _ h _ := h
  owe _ _ _ h _ := h
  hand _ h _ := h
  nextSlice _ h _ _ := h
  part p s h _ := by obtain ⟨_, _, _, _, _, _, _, e⟩ := p.run_frame s; rw [e]; exact h
  work s n c h _ := s.roundEndWork_standSound n c h
  second _ h := h
  align _ h _ := h
  clock _ _ h _ := h
  hears _ b h := h.standingTakes b
  report _ _ h := { h with }
  entry _ _ _ _ h _ _ _ _ _ := h
  notice s v d t h _ _ := by
    obtain ⟨_, _, _, _, _, _, e⟩ := State.applyNotice_frame v d (noticeTarget t) s; rw [e]; exact h
  override _ _ h _ := h
  edge _ h := h
  permitFalls s h := by obtain ⟨_, _, _, _, _, _, e⟩ := s.permitFalls_frame; rw [e]; exact h
  permitRises s h := by obtain ⟨_, _, _, _, e⟩ := s.permitRises_frame; rw [e]; exact h
  plug s p r h _ _ := by
    obtain ⟨_, _, _, _, _, _, e⟩ := State.openSession_frame (p.clamped s.cfg.stageRating) r s; rw [e]; exact h
  taper s n h _ := by obtain ⟨_, _, _, _, e⟩ := s.taperTaken_frame n; rw [e]; exact h
  addHold s h _ := by simpa using h
  removeHold s h _ := by simpa using h
  unplug s h _ := by obtain ⟨_, _, _, _, _, _, _, e⟩ := s.unplugTaken_frame; rw [e]; exact h
  write _ _ _ h _ := h
  lock _ h _ _ := { h with streakJoined := nofun, isolated := nofun }

end Sys2Proof.Machine
end

section
/-! The session record under every step (R71, R78, R85 to R94). -/

namespace Sys2Proof.Machine

theorem HoldSet.isEmpty_put_false {h : HoldSet} {r : HoldReason} (e : (h.put false r).isEmpty = false) :
    h.isEmpty = false := by
  obtain ⟨a, b, c, d⟩ := h
  revert e a b c d; cases r <;> decide

theorem Phase.afterHold_held {p : Phase} (h : p ≠ .vacant) : p.afterHold = .held ∨ p.afterHold = .fault := by
  cases p with
  | vacant => exact absurd rfl h
  | fault => exact .inr rfl
  | _ => exact .inl rfl

theorem Phase.afterHold_fault {p : Phase} : p.afterHold = .fault ↔ p = .fault := by cases p <;> decide

/-- A round end decides HELD under any hold reason, and neither VACANT nor FAULT ever (R89). -/
theorem decidedPhase_spec (g : HoldSet) (u : Standing) (e : Nat) (w : Bool) (a : Nat) :
    (g.isEmpty = false → decidedPhase g u e w a = .held) ∧ decidedPhase g u e w a ≠ .vacant ∧
      decidedPhase g u e w a ≠ .fault := by
  refine ⟨fun hg => by simp [decidedPhase, hg], ?_⟩
  unfold decidedPhase
  repeat' split
  all_goals decide

namespace Session.Sound
variable {x : Session} (h : x.Sound)
include h

theorem withHold (r : HoldReason) : ({ x with holds := x.holds.put true r, phase := x.phase.afterHold } : Session).Sound :=
  { h with
    phase := fun hc => by
      rcases Phase.afterHold_held h.phase with e | e <;> exact absurd (hc.symm.trans e) (by decide)
    held := fun _ => Phase.afterHold_held h.phase
    fault := h.fault.trans Phase.afterHold_fault.symm }

theorem withoutHold (r : HoldReason) : ({ x with holds := x.holds.put false r } : Session).Sound :=
  { h with held := fun he => h.held (HoldSet.isEmpty_put_false he) }

/-- A session without hold reasons, outside FAULT, takes any phase without a fault reason but VACANT. -/
theorem withPhase {p : Phase} (hf : x.phase ≠ .fault) (h0 : x.holds.isEmpty = false → p = .held) (hv : p ≠ .vacant)
    (hp : p ≠ .fault) : ({ x with phase := p } : Session).Sound :=
  { h with phase := hv, held := fun he => .inl (h0 he), fault := ⟨fun hc => absurd (h.fault.1 hc) hf, fun hc => absurd hc hp⟩ }

theorem topped (ht : x.phase.toppable = true) : ({ x with phase := .topped } : Session).Sound := by
  refine h.withPhase (fun hc => by rw [hc] at ht; exact Bool.noConfusion ht) (fun he => ?_) nofun nofun
  rcases h.held he with hc | hc <;> (rw [hc] at ht; exact Bool.noConfusion ht)

theorem enterFault (r : FaultReason) : (x.enterFault r).Sound := by
  unfold Session.enterFault
  split
  · exact h
  · exact { h with phase := nofun, held := fun _ => .inr rfl, fault := ⟨fun _ => rfl, fun _ => rfl⟩ }

theorem credit (n : Nat) : (x.credit n).Sound := { h with counts := ⟨Nat.min_le_left _ _, h.counts.2⟩ }

theorem countHold : x.countHold.Sound := by
  obtain ⟨hm, hl, ho⟩ := h.meter
  unfold Session.countHold
  split
  · exact h
  · split
    · exact { h.withoutHold .meter with meter := ⟨hm, Nat.zero_le _, ho⟩ }
    · exact { h with meter := ⟨hm, by show _ - 1 ≤ 6; omega, ho⟩ }

theorem updateStreak (b : Bool) : (x.updateStreak b).Sound := by
  refine { h with meter := ⟨h.meter.1, h.meter.2.1, ?_⟩ }
  simp only [Session.updateStreak]
  split
  · exact Nat.min_le_left _ _
  · exact Nat.zero_le _

theorem applyStreak : x.applyStreak.Sound := by
  unfold Session.applyStreak
  split
  · exact h.enterFault _
  · exact h

theorem applySilence (b : Bool) : (x.applySilence b).Sound := by
  obtain ⟨hm, hl, ho⟩ := h.meter
  unfold Session.applySilence
  split
  · split
    · exact { h.withHold .meter with meter := ⟨by show _ + 1 ≤ 3; omega, le_refl 6, ho⟩ }
    · split
      · exact Session.Sound.enterFault (x := { x with meterHolds := 3 }) { h with meter := ⟨le_refl 3, hl, ho⟩ } .meter
      · exact h
  · exact h

theorem afterRound (s : State) (c : Nat) (p q : Bool) : (s.sessionAfterRound c p q x).Sound := by
  have hy := ((((h.credit c).countHold).updateStreak p).applyStreak).applySilence q
  simp only [State.sessionAfterRound]
  split
  · exact hy
  · next hf =>
    obtain ⟨hh, hv, hp⟩ := decidedPhase_spec (Session.applySilence q _).holds s.stand.standing _ _ s.share.allotment
    exact hy.withPhase hf hh hv hp

theorem countdown : ({ x with departure := x.departure - 1 } : Session).Sound :=
  { h with departure := (Nat.sub_le _ _).trans h.departure }


end Session.Sound

/-! ### The van in session -/

/-- The van in session has 16 bits. -/
def State.VanFits (s : State) : Prop := ∀ v, s.van = some v → v ≤ 65535

namespace State.VanFits

theorem of_van {s t : State} (h : s.VanFits) (e : t.van = s.van) : t.VanFits := by rw [State.VanFits, e]; exact h

theorem of_session {s t : State} (h : s.VanFits) (e : t.session = s.session) : t.VanFits :=
  h.of_van (congrArg (Option.map Session.van) e)

theorem of_none {t : State} (e : t.session = none) : t.VanFits := by
  intro v hv; rw [State.van, e] at hv; cases hv

theorem restart (s : State) : s.restart.VanFits := of_none rfl

theorem part (p : SlicePart) (s : State) (h : s.VanFits) : (p.run s).VanFits := h.of_van (p.run_van s)

theorem hears (s : State) (b : Nat) (h : s.VanFits) : (s.standingTakes b).VanFits := h.of_session (by simp)

theorem placed (s : State) (k : Slot) (p : List Byte) (h : s.VanFits) : (s.placeFrame k p).VanFits :=
  h.of_session (by simp)

theorem slicePartsOn (c : Nat) (a b : Bool) (s : State) (h : s.VanFits) : (Machine.slicePartsOn c a b s).VanFits :=
  slicePartsOn_keeps (part .scan) (part .permit) c a b s h

theorem roundEnd (n : Bool) (s : State) (h : s.VanFits) : (s.roundEnd n).VanFits := by
  unfold State.roundEnd State.roundEndIn
  exact slicePartsOn _ _ _ _ ((slicePartsOn _ _ _ _ (h.of_session (by simp))).of_van (State.roundEndWork_van _ _ _))

theorem naturalRoundEnd (s : State) (h : s.VanFits) : s.naturalRoundEnd.VanFits := by
  unfold State.naturalRoundEnd
  split
  · exact roundEnd _ s h
  · exact h

theorem sliceExpiry (s : State) (h : s.VanFits) : s.sliceExpiry.VanFits :=
  sliceExpiry_keeps (P := State.VanFits) (fun s h => h.of_session (by simp)) (fun _ h => h) (fun _ _ _ h => h) part s h

theorem takeStarts (s : State) (h : s.VanFits) : s.takeStarts.VanFits := h.of_session (by simp)

theorem completeRead (s : State) (h : s.VanFits) : s.completeRead.VanFits := by
  simp only [State.completeRead]
  split
  · refine inAnyOrder_keeps (P := State.VanFits) _ (fun s h => h.of_session (by simp)) ?_ _ h
    intro g hg s h
    simp only [List.mem_cons, List.not_mem_nil, or_false] at hg
    rcases hg with rfl | rfl <;> exact h.of_session (by simp)
  · exact h

theorem readEnds (s : State) (h : s.VanFits) : s.storeReadEnds.VanFits := by
  unfold State.storeReadEnds
  split
  · exact completeRead s h
  · exact h

theorem restartWaitEnds (s : State) (h : s.VanFits) : s.restartWaitEnds.VanFits := by
  unfold State.restartWaitEnds
  split
  · exact restart s
  · exact h

theorem ofLine {s t : State} (e : ∃ l, t = { s with line := l }) (h : s.VanFits) : t.VanFits := by
  obtain ⟨l, rfl⟩ := e; exact h

theorem clockSecond (s : State) (h : s.VanFits) : s.clockSecond.VanFits := by
  refine h.of_van ?_
  simp only [State.van, State.clockSecond, Option.map_map]; rfl

theorem due (d : Due) (s : State) (h : s.VanFits) : (d.take s).VanFits := by
  cases d with
  | second => exact clockSecond s h
  | slice =>
    simp only [Due.take]
    split
    · exact naturalRoundEnd s h
    · exact sliceExpiry s h
  | read => exact readEnds s h
  | restart => exact restartWaitEnds s h
  | quiet => exact ofLine s.quietGap_frame h
  | attempt =>
    simp only [Due.take]
    refine ofLine (State.beginAttempt_frame _) ?_
    split
    · exact ofLine s.quietGap_frame h
    · exact h

theorem tick (s : State) (h : s.VanFits) : s.tick.VanFits :=
  tick_keeps (P := State.VanFits) (fun s h => h.of_session (by simp)) takeStarts (fun _ h => h) due s h

/-! ### Frames -/

theorem dispatchClock (n : Nat) (s : State) (h : s.VanFits) : (s.dispatchClock n).VanFits := by
  unfold State.dispatchClock; split <;> exact h

theorem markClock (n : Nat) (s : State) (h : s.VanFits) : (s.markClock n).VanFits := by
  unfold State.markClock; split <;> exact h

theorem markRound (s : State) (h : s.VanFits) : s.markRound.VanFits := by
  unfold State.markRound
  split
  · exact roundEnd _ _ h
  · split
    · exact roundEnd _ s h
    · exact h

theorem deliverMark (b : Nat) (p : List Byte) (s : State) (h : s.VanFits) : (s.deliverMark b p).VanFits := by
  unfold State.deliverMark
  split
  · exact hears _ _ h
  · next n _ =>
    split
    · split
      · refine inAnyOrder_keeps (P := State.VanFits) _ (fun s h => h.of_session (by simp)) ?_ s h
        intro f hf s h
        simp only [List.mem_cons, List.not_mem_nil, or_false] at hf
        rcases hf with rfl | rfl | rfl | rfl
        · exact h.of_session (by simp)
        · exact markRound s h
        · exact markClock n s h
        · exact hears s b h
      · exact hears _ _ (markClock n s h)
    · exact hears s b h

theorem deliverClaim (b : Nat) (p : List Byte) (s : State) (h : s.VanFits) : (s.deliverClaim b p).VanFits := by
  refine hears _ _ ?_
  unfold State.peersTake
  split
  · split <;> exact h
  · exact h

theorem applyNotice (v d : Nat) (t : Option Nat) (s : State) (h : s.VanFits) : (s.applyNotice v d t).VanFits := by
  unfold State.applyNotice
  split
  · next x hx =>
    split
    · refine h.of_van ?_
      rw [State.topIfReached_van, State.van, State.van, hx]; rfl
    · exact h
  · exact h

theorem deliverNotice (b : Nat) (p : List Byte) (s : State) (h : s.VanFits) : (s.deliverNotice b p).VanFits := by
  unfold State.deliverNotice
  split
  · exact hears _ _ h
  · next f _ =>
    refine inAnyOrder_keeps (P := State.VanFits) _ (fun s h => h.of_session (by simp)) ?_ s h
    intro g hg s h
    simp only [List.mem_cons, List.not_mem_nil, or_false] at hg
    rcases hg with rfl | rfl
    · simp only [State.noticeTaken]
      split
      · exact dispatchClock _ s h
      · exact applyNotice _ _ _ _ (dispatchClock _ s h)
    · exact hears s b h

theorem deliverLimit (b : Nat) (p : List Byte) (s : State) (h : s.VanFits) : (s.deliverLimit b p).VanFits := by
  unfold State.deliverLimit
  split
  · exact hears _ _ h
  · next f _ =>
    refine hears _ _ ?_
    have h1 := dispatchClock f.dispatch s h
    simp only [State.limitTaken]
    split
    · split <;> exact h1
    · exact h1

theorem reply (k : RequestKind) (t : Byte) (c : ReplyCode) (b : Byte) (i : List (List Byte)) (s : State) (h : s.VanFits) :
    (s.sendReply k t c b i).VanFits := placed _ _ _ h

theorem queryTaken (q : QueryFrame) (v : Byte) (s : State) (h : s.VanFits) : (s.queryTaken q v).VanFits := by
  unfold State.queryTaken
  split
  · exact h
  · split
    · split
      · exact h
      · unfold State.answerQuery; split <;> exact reply _ _ _ _ _ _ h
    · exact h

theorem deliverQuery (q : QueryFrame) (v : Byte) (s : State) (h : s.VanFits) : (s.deliverQuery q v).VanFits := by
  refine inAnyOrder_keeps (P := State.VanFits) _ (fun s h => h.of_session (by simp)) ?_ s h
  intro g hg s h
  simp only [List.mem_cons, List.not_mem_nil, or_false] at hg
  rcases hg with rfl | rfl
  · exact queryTaken q v s h
  · exact hears s _ h

theorem setupFor (n : BitVec 32) {f : State → State} (hf : ∀ s : State, s.VanFits → (f s).VanFits) (s : State)
    (h : s.VanFits) : (s.setupFor n f).VanFits := by
  unfold State.setupFor
  split
  · split
    · exact h
    · exact hf s h
  · exact h

theorem decideWrite (c v : Nat) (s : State) (h : s.VanFits) : (s.decideWrite c v).VanFits := by
  refine reply _ _ _ _ _ _ ?_
  split <;> exact h

theorem decideLock (s : State) (h : s.VanFits) : s.decideLock.VanFits := by
  unfold State.decideLock
  split
  · exact reply _ _ _ _ _ _ h
  · split
    · exact reply _ _ _ _ _ _ h
    · exact reply .lock 0 .accepted 2 [] (s.setInstaller s.store.installer.lock) h

theorem decideRestart (s : State) (h : s.VanFits) : s.decideRestart.VanFits := reply .restart 0 .accepted 3 [] s h

theorem setupTaken (p : List Byte) (s : State) (h : s.VanFits) : (s.setupTaken p).VanFits := by
  unfold State.setupTaken
  split
  · simp only []
    split
    · exact setupFor _ (decideWrite _ _) s h
    · exact setupFor _ decideLock s h
    · exact setupFor _ decideRestart s h
    · exact h
  · exact h

theorem deliverFrame (k : FrameKind) (b : Byte) (p : List Byte) (s : State) (h : s.VanFits) :
    (s.deliverFrame k b p).VanFits := by
  have h1 : (s.takeFrame k b.toNat).VanFits := h
  cases k
  · exact deliverMark _ _ _ h1
  · exact deliverClaim _ _ _ h1
  · exact deliverNotice _ _ _ h1
  · exact deliverLimit _ _ _ h1
  · exact deliverQuery _ _ _ h1
  · exact hears _ _ h1
  · exact hears _ _ (setupTaken _ _ h1)

theorem receive (c : Byte) (s : State) (h : s.VanFits) : (s.receive c).VanFits := by
  unfold State.receive
  split
  · split <;> exact h
  · unfold State.assemble
    split
    · split
      · exact h
      · split
        · unfold State.completeFrame
          split
          · split
            · exact deliverFrame _ _ _ _ h
            · exact h
          · exact h
        · exact h
    · exact h
  · exact h
  · exact h

/-! ### Own frames -/

theorem replySent (s : State) (h : s.VanFits) : s.replySent.VanFits := by
  unfold State.replySent
  split
  · exact h
  · split
    · exact restart s
    · split
      · exact h
      · exact placed _ _ _ h

theorem frameSent (a : Attempt) (s : State) (h : s.VanFits) : (s.frameSent a).VanFits := by
  refine ofLine (State.afterAttempt_frame _ _) ?_
  have h2 : ∀ b : Bool, (if b then { s.attemptEnds with out := { s.attemptEnds.out with line := s.attemptEnds.out.line ++ [a.bytes] } }
      else State.setSlot a.slot none { s.attemptEnds with out := { s.attemptEnds.out with line := s.attemptEnds.out.line ++ [a.bytes] } } : State).VanFits := by
    rintro (_ | _) <;> exact h
  split
  · exact h2 _
  · exact h2 _
  · exact replySent _ (h2 _)

theorem reportDiscard (k : Slot) (s : State) (h : s.VanFits) : (s.reportDiscard k).VanFits := by
  cases k
  · exact h
  · exact h
  · simp only [State.reportDiscard, State.replyDiscarded]
    split
    · exact h
    · split <;> exact h

theorem frameCollides (a : Attempt) (s : State) (h : s.VanFits) : (s.frameCollides a).VanFits := by
  refine ofLine (State.afterAttempt_frame _ _) ?_
  have h1 : s.attemptEnds.countCollision.VanFits := h
  revert h1; generalize s.attemptEnds.countCollision = s; intro h
  unfold State.collideFrame
  split
  · split
    · split
      · exact reportDiscard _ _ (h.of_session (by simp))
      · exact h.of_session (by simp)
    · exact h
  · split
    · exact h
    · split
      · exact reportDiscard _ _ h
      · exact h

theorem readBack (c : Byte) (a : Attempt) (s : State) (h : s.VanFits) : (s.readBack c a).VanFits := by
  unfold State.readBack
  split
  · split
    · exact frameSent a s h
    · exact h
  · exact frameCollides a s h

theorem ofAttemptOr {f : Attempt → State → State} {g : State → State} (hf : ∀ a s, s.VanFits → (f a s).VanFits)
    (hg : ∀ s, s.VanFits → (g s).VanFits) (s : State) (h : s.VanFits) : (s.ofAttemptOr f g).VanFits := by
  unfold State.ofAttemptOr
  split
  · exact hf _ s h
  · exact hg s h
  · exact hg s h

/-! ### The post link -/

theorem record (k : RecordKind) {f : State → State} (hf : ∀ s, s.VanFits → (f s).VanFits) (s : State) (h : s.VanFits) :
    (s.record k f).VanFits := by
  unfold State.record
  split
  · exact hf s h
  · exact h

theorem plugTaken (r : PlugRecord) (s : State) (h : s.VanFits) : (s.plugTaken (plugFields r)).VanFits := by
  unfold State.plugTaken
  split
  · exact h
  · intro v hv
    have hvan : v = r.van.toNat := by
      simpa [State.van, State.openSession, State.newSession, PlugFields.clamped, plugFields, eq_comm] using hv
    rw [hvan]; exact Nat.le_of_lt_succ r.van.isLt

theorem taperTaken (n : Nat) (s : State) (h : s.VanFits) : (s.taperTaken n).VanFits := by
  unfold State.taperTaken
  split
  · exact h
  · next x hx =>
    refine h.of_van ?_
    simp only [State.van, State.refreshMEff_session, State.ack_session, hx]; rfl

theorem holdTaken (s : State) (h : s.VanFits) : s.holdTaken.VanFits := by
  unfold State.holdTaken
  split
  · exact h
  · exact VanFits.of_van (s := s.ack .hold .taken) h (State.addHold_van _ _)

theorem resumeTaken (s : State) (h : s.VanFits) : s.resumeTaken.VanFits := by
  unfold State.resumeTaken
  split
  · exact VanFits.of_van (s := s.ack .resume .taken) h (State.removeHold_van _ _)
  · exact h

theorem unplugTaken (s : State) (h : s.VanFits) : s.unplugTaken.VanFits := by
  unfold State.unplugTaken
  split
  · exact h
  · exact of_none (by simp)

theorem permitFalls (s : State) (h : s.VanFits) : s.permitFalls.VanFits := by
  unfold State.permitFalls
  split
  · refine h.of_van ?_
    rw [State.van, State.evalPermission_session]; exact State.addHold_van _ _
  · exact h

theorem permitRises (s : State) (h : s.VanFits) : s.permitRises.VanFits := by
  unfold State.permitRises
  split
  · exact h
  · refine h.of_van ?_
    rw [State.van, State.evalPermission_session]; exact State.removeHold_van _ _

/-- A command opens a session for a van of 16 bits at most. -/
theorem effect (c : Instr) (s : State) (h : s.VanFits) : (Machine.effect c s).VanFits := by
  have attempt : ∀ {f : Attempt → State → State}, (∀ a s, s.VanFits → (f a s).VanFits) → (s.ofAttempt f).VanFits :=
    fun hf => ofAttemptOr hf (fun _ h => h) s h
  cases c with
  | powerUp => exact of_none rfl
  | resetAsserted =>
    show s.assertReset.VanFits
    unfold State.assertReset; split
    · exact h
    · exact restart _
  | resetReleased =>
    show s.releaseReset.VanFits
    unfold State.releaseReset; split
    · simp only []; split <;> exact h
    · exact h
  | storeReadCompletes => exact readEnds s h
  | sliceExpiry t => exact sliceExpiry (s.setTemps t) h
  | naturalRoundEnd t => exact naturalRoundEnd (s.setTemps t) h
  | clockSecondEvent => exact clockSecond s h
  | markFrame b p t => exact deliverMark _ _ _ h
  | claimFrame b p => exact deliverClaim _ _ _ h
  | noticeFrame b p => exact deliverNotice _ _ _ h
  | limitFrame b p => exact deliverLimit _ _ _ h
  | replyFrame b p => exact hears _ _ h
  | setupWrite b n f v => exact hears _ _ (setupFor _ (decideWrite _ _) _ h)
  | setupLock b n => exact hears _ _ (setupFor _ decideLock _ h)
  | setupRestart b n => exact hears _ _ (setupFor _ decideRestart _ h)
  | malformedSetup b p => exact hears _ _ (setupTaken _ _ h)
  | restartWaitExpiry => exact restartWaitEnds s h
  | invalidFrame => exact h
  | receiveError =>
    refine ofAttemptOr frameCollides (fun s h => ?_) s h
    unfold State.receiveBad; split <;> exact h
  | quietGap => exact ofLine s.quietGap_frame h
  | sendAttempt => exact ofLine s.beginAttempt_frame h
  | sentInFull => exact attempt frameSent
  | collision => exact attempt frameCollides
  | meterEdge => exact h
  | permitFalling => exact permitFalls s h
  | permitRising => exact permitRises s h
  | plug r => exact record _ (plugTaken r) s h
  | taper n => exact record _ (taperTaken _) s h
  | hold => exact record _ holdTaken s h
  | resume => exact record _ resumeTaken s h
  | unplug => exact record _ unplugTaken s h
  | startBitHeard =>
    show s.startBit.VanFits
    unfold State.startBit; split <;> exact h
  | characterHeard c =>
    exact ofAttemptOr (g := fun s => s.characterEnds.receive c) (readBack c) (fun s h => receive c s.characterEnds h) s h
  | queryStatus q => exact deliverQuery q _ _ h
  | queryPeers q => exact deliverQuery q _ _ h
  | queryNotices q => exact deliverQuery q _ _ h
  | querySession q => exact deliverQuery q _ _ h
  | queryLast q => exact deliverQuery q _ _ h
  | queryConfig q => exact deliverQuery q _ _ h
  | queryViewUnknown q v => exact deliverQuery q v _ h

theorem step {s t : State} (h : s.VanFits) (e : Machine.step s = .next t) : t.VanFits := by
  cases hp : s.pending with
  | nil => rw [step_nil hp] at e; cases e; exact tick s h
  | cons c q => rw [step_cons hp] at e; rw [exec_next e]; exact effect c _ h

end State.VanFits

end Sys2Proof.Machine
end

section
/-! The session's figures under every step, and with them the session and the standing (R71, R78, R85 to R94). -/

namespace Sys2Proof.Machine

theorem forwardDistance_lt (a b : Nat) : forwardDistance a b < Config.daySeconds := Nat.mod_lt _ (by decide)

theorem noticeCountdown_le (a b : Nat) : noticeCountdown a b ≤ Config.daySeconds := by
  unfold noticeCountdown
  split
  · exact (forwardDistance_lt a b).le
  · exact Nat.zero_le _

theorem sessionTarget_le (need : Nat) (t : Option Nat) : (sessionTarget need t).1 ≤ need := by
  cases t with
  | none => exact le_refl _
  | some t => exact Nat.min_le_left _ _

theorem openingDeparture_le (c : Option Nat) (e : Option NoticeEntry) (d : Nat) :
    (openingDeparture c e d).1 ≤ Config.daySeconds := by
  cases c with
  | none => exact (by decide : Config.horizonSeconds ≤ Config.daySeconds)
  | some now =>
    cases e with
    | some e => exact noticeCountdown_le _ _
    | none =>
      simp only [openingDeparture]
      split
      · exact le_refl _
      · exact (forwardDistance_lt d now).le

theorem Session.Sound.noticed {x : Session} (h : x.Sound) (clock : Option Nat) (d : Nat) (t : Option Nat) :
    (x.noticed clock d t).Sound := by
  refine { h with target := ⟨sessionTarget_le _ _, h.target.2⟩, departure := ?_ }
  cases clock with
  | none => exact h.departure
  | some now => exact noticeCountdown_le d now

/-- What the clamped fields of a PLUG open is sound, once the van has 16 bits (R77, R78). -/
theorem State.newSession_sound {s : State} {p : PlugFields} (rating : Nat) (hv : p.van ≠ 0)
    (counts : s.meter.roundCount ≤ Config.top16) (clock : ∀ c, s.timer.clock = some c → c < Config.daySeconds)
    (hfit : p.van ≤ 65535) : (s.newSession (p.clamped rating)).Sound where
  van := ⟨Nat.pos_of_ne_zero hv, hfit⟩
  phase := nofun
  held := nofun
  fault := ⟨nofun, nofun⟩
  target := ⟨sessionTarget_le _ _, Nat.min_le_right _ _⟩
  departure := openingDeparture_le _ _ _
  counts := ⟨Nat.zero_le _, counts⟩
  plugged := clock
  meter := ⟨Nat.zero_le _, Nat.zero_le _, Nat.zero_le _⟩
  precond := ⟨Nat.min_le_right _ _, Nat.min_le_right _ _⟩

/-- The powers a van gave: its van max power and its floor power. -/
def Session.powers (x : Session) : Nat × Nat := (x.vanMax, x.floor)

theorem Session.enterFault_powers (r : FaultReason) (x : Session) : (x.enterFault r).powers = x.powers := by
  unfold Session.enterFault; split <;> rfl

theorem Session.countHold_powers (x : Session) : x.countHold.powers = x.powers := by
  unfold Session.countHold; split
  · rfl
  · split <;> rfl

theorem Session.applyStreak_powers (x : Session) : x.applyStreak.powers = x.powers := by
  unfold Session.applyStreak; split
  · exact x.enterFault_powers _
  · rfl

theorem Session.applySilence_powers (b : Bool) (x : Session) : (x.applySilence b).powers = x.powers := by
  unfold Session.applySilence
  split
  · split
    · rfl
    · split
      · rw [Session.enterFault_powers]; rfl
      · rfl
  · rfl

/-- The session's round-end work leaves the powers the van gave (R80, R89). -/
theorem State.sessionAfterRound_powers (s : State) (c : Nat) (p q : Bool) (x : Session) :
    (s.sessionAfterRound c p q x).powers = x.powers := by
  have hy : ((((x.credit c).countHold).updateStreak p).applyStreak.applySilence q).powers = x.powers := by
    rw [Session.applySilence_powers, Session.applyStreak_powers]
    exact Session.countHold_powers (x.credit c)
  simp only [State.sessionAfterRound]
  split <;> exact hy

/-- A session whose record is sound once its van has 16 bits, its powers within the rating. -/
structure Session.Rated (rating : Nat) (x : Session) : Prop where
  sound : x.van ≤ 65535 → x.Sound
  vanMax : x.vanMax ≤ rating
  floor : x.floor ≤ rating

/-- A change of a session that leaves its van and powers, and its record sound, leaves it rated. -/
theorem Session.Rated.of_kept {x y : Session} {rating : Nat} (h : x.Rated rating) (hs : x.Sound → y.Sound)
    (hv : y.van = x.van) (hp : y.powers = x.powers) : y.Rated rating where
  sound hy := hs (h.sound (hv ▸ hy))
  vanMax := (congrArg Prod.fst hp).trans_le h.vanMax
  floor := (congrArg Prod.snd hp).trans_le h.floor

/-- The session invariant but for the bound on the van, with the counts and the clock a session is opened with. -/
structure State.SessionFits (s : State) : Prop where
  rated : ∀ x, s.session = some x → x.Rated s.store.stageRating
  counts : s.meter.roundCount ≤ Config.top16
  clock : ∀ c, s.timer.clock = some c → c < Config.daySeconds

theorem State.sessionSafe_iff {s : State} : s.SessionSafe ↔ s.SessionFits ∧ s.VanFits := by
  constructor
  · intro h
    refine ⟨⟨fun x hx => ⟨fun _ => h.sound x hx, (h.rated x hx).1, (h.rated x hx).2⟩, h.counts, h.clock⟩, fun v hv => ?_⟩
    obtain ⟨x, hx, rfl⟩ := Option.map_eq_some_iff.1 hv
    exact (h.sound x hx).van.2
  · rintro ⟨h, hv⟩
    exact ⟨fun x hx => (h.rated x hx).sound (hv _ (by rw [State.van, hx]; rfl)),
      fun x hx => ⟨(h.rated x hx).vanMax, (h.rated x hx).floor⟩, h.counts, h.clock⟩

namespace State.SessionFits

theorem of_same {s t : State} (h : s.SessionFits) (hx : t.session = s.session) (hr : t.store.stageRating = s.store.stageRating)
    (hm : t.meter.roundCount = s.meter.roundCount) (hc : t.timer.clock = s.timer.clock) : t.SessionFits :=
  ⟨by rw [hx, hr]; exact h.rated, by rw [hm]; exact h.counts, by rw [hc]; exact h.clock⟩

theorem of_idle {t : State} (hx : t.session = none) (hm : t.meter = {})
    (hc : ∀ c, t.timer.clock = some c → c < Config.daySeconds) : t.SessionFits :=
  ⟨by simp [hx], by rw [hm]; exact Nat.zero_le _, hc⟩

/-- A session changed in place: the van, the powers and what surrounds the session stand. -/
theorem of_changed {s t : State} (h : s.SessionFits) (hr : t.store = s.store) (hm : t.meter = s.meter)
    (hc : t.timer = s.timer)
    (hx : ∀ y, t.session = some y → ∃ x, s.session = some x ∧ (x.Sound → y.Sound) ∧ y.van = x.van ∧
      y.powers = x.powers) : t.SessionFits := by
  refine ⟨fun y hy => ?_, by rw [hm]; exact h.counts, by rw [hc]; exact h.clock⟩
  obtain ⟨x, hx, hs, hv, hp⟩ := hx y hy
  rw [hr]; exact (h.rated x hx).of_kept hs hv hp

theorem addHold {s : State} (h : s.SessionFits) (r : HoldReason) : (s.addHold r).SessionFits := by
  refine h.of_changed (by simp) (by simp) (by simp) fun y hy => ?_
  cases hs : s.session with
  | none => rw [State.addHold_none _ _ hs, hs] at hy; cases hy
  | some x =>
    refine ⟨x, rfl, ?_⟩
    rw [State.addHold_session r s x hs] at hy
    split at hy <;> cases hy
    · exact ⟨id, rfl, rfl⟩
    · exact ⟨fun hx => hx.withHold r, rfl, rfl⟩

theorem removeHold {s : State} (h : s.SessionFits) (r : HoldReason) : (s.removeHold r).SessionFits := by
  refine h.of_changed (by simp) (by simp) (by simp) fun y hy => ?_
  cases hs : s.session with
  | none => rw [State.removeHold_none _ _ hs, hs] at hy; cases hy
  | some x =>
    rw [State.removeHold_session r s x hs] at hy
    cases hy
    exact ⟨x, rfl, fun hx => hx.withoutHold r, rfl, rfl⟩

theorem topIfReached {s : State} (h : s.SessionFits) : s.topIfReached.SessionFits := by
  refine h.of_changed (by simp) (by simp) (by simp) fun y hy => ?_
  cases hs : s.session with
  | none => rw [State.topIfReached_none _ hs, hs] at hy; cases hy
  | some x =>
    refine ⟨x, rfl, ?_⟩
    rw [State.topIfReached_session s x hs] at hy
    split at hy <;> cases hy
    · next ht => exact ⟨fun hx => hx.topped ht.1, rfl, rfl⟩
    · exact ⟨id, rfl, rfl⟩

theorem meterSliceEnd {s : State} (h : s.SessionFits) : s.meterSliceEnd.SessionFits := by
  have hm : s.meterSliceEnd.meter.roundCount = satAdd Config.top16 s.meter.roundCount s.meter.sliceCount := by
    unfold State.meterSliceEnd State.ceilingTest
    split <;> simp
  exact ⟨by simpa using h.rated, by rw [hm]; exact Nat.min_le_left _ _, by simpa using h.clock⟩

theorem part {s : State} (h : s.SessionFits) (p : SlicePart) : (p.run s).SessionFits := by
  cases p with
  | meter => exact h.meterSliceEnd
  | scan =>
    have hr : ({ s with thermal := s.scanned } : State).refreshMEff.SessionFits :=
      h.of_same (by simp) (by simp) (by simp) (by simp)
    show s.scan.SessionFits
    unfold State.scan State.thermalHold
    split
    · exact hr
    · split
      · exact hr.addHold _
      · split
        · exact hr.removeHold _
        · exact hr
  | permit =>
    show s.permitTest.SessionFits
    unfold State.permitTest
    split
    · exact h
    · exact h.addHold _
  | start => exact h.of_same (by simp [SlicePart.run]) (by simp [SlicePart.run]) (by simp [SlicePart.run]) (by simp [SlicePart.run])
  | post => exact h.of_same (by simp [SlicePart.run]) (by simp [SlicePart.run]) (by simp [SlicePart.run]) (by simp [SlicePart.run])
  | mark => exact h.of_same (by simp [SlicePart.run]) (by simp [SlicePart.run]) (by simp [SlicePart.run]) (by simp [SlicePart.run])
  | topped => exact h.topIfReached

theorem sessionRoundEnd {s : State} (h : s.SessionFits) (c : Nat) (p q : Bool) : (s.sessionRoundEnd c p q).SessionFits := by
  unfold State.sessionRoundEnd
  split
  · exact h
  · next x hx =>
    refine h.of_changed (by simp) (by simp) (by simp) fun y hy => ?_
    rw [State.putSession_session] at hy
    cases hy
    exact ⟨x, hx, fun h => h.afterRound s c p q, s.sessionAfterRound_van c p q x, s.sessionAfterRound_powers c p q x⟩

theorem roundEndWork {s : State} (h : s.SessionFits) (n : Bool) (c : Nat) : (s.roundEndWork n c).SessionFits := by
  refine roundEndWork_keeps (P := State.SessionFits) (fun _ _ h => h.of_same rfl rfl rfl rfl)
    (fun _ _ h => h.of_same rfl rfl rfl rfl) (fun _ h => h.meterSliceEnd) (fun _ h => h.of_same rfl rfl rfl rfl)
    (fun _ h => h.of_same rfl rfl rfl rfl) (fun _ _ h => h.of_same rfl rfl rfl rfl)
    (fun _ h => h.of_same rfl rfl rfl rfl) ?_ (fun _ _ h => h.of_same rfl rfl rfl rfl)
    (fun _ h => h.of_same rfl rfl rfl rfl) ?_ ?_ ?_
    (fun _ h => ⟨h.rated, Nat.zero_le _, h.clock⟩) n c s h
  · exact fun t h => h.of_same (by simp) (by simp) (by simp) (by simp)
  · exact fun t h => h.of_same (by simp) (by simp) (by simp) (by simp)
  · exact fun t h => h.of_same (by simp) (by simp) (by simp) (by simp)
  · exact fun t c p q h => (h.sessionRoundEnd c p q).of_same (by simp) (by simp) (by simp) (by simp)

theorem clockSecond {s : State} (h : s.SessionFits) : s.clockSecond.SessionFits := by
  refine ⟨fun y hy => ?_, h.counts, fun c hc => ?_⟩
  · obtain ⟨x, hx, rfl⟩ := Option.map_eq_some_iff.1 hy
    exact (h.rated x hx).of_kept (fun hx => hx.countdown) rfl rfl
  · obtain ⟨d, -, rfl⟩ := Option.map_eq_some_iff.1 hc
    exact Nat.mod_lt _ (by decide)

theorem applyNotice {s : State} (h : s.SessionFits) (v d : Nat) (t : Option Nat) : (s.applyNotice v d t).SessionFits := by
  unfold State.applyNotice
  split
  · next x hx =>
    split
    · refine topIfReached (h.of_changed rfl rfl rfl fun y hy => ?_)
      cases hy
      exact ⟨x, hx, fun h => h.noticed _ _ _, rfl, rfl⟩
    · exact h.of_same rfl rfl rfl rfl
  · exact h.of_same rfl rfl rfl rfl

theorem openSession {s : State} (h : s.SessionFits) (hset : s.cfg.stageRating = s.store.stageRating) {p : PlugFields}
    (r : AckResult) (hv : p.van ≠ 0) : (s.openSession (p.clamped s.cfg.stageRating) r).SessionFits := by
  have hx : (s.openSession (p.clamped s.cfg.stageRating) r).session = some (s.newSession (p.clamped s.cfg.stageRating)) := by
    simp [State.openSession]
  obtain ⟨_, _, _, _, _, _, e⟩ := State.openSession_frame (p.clamped s.cfg.stageRating) r s
  refine ⟨fun y hy => ?_, by rw [e]; exact h.counts, by rw [e]; exact h.clock⟩
  rw [hx] at hy
  cases hy
  rw [e, ← hset]
  exact ⟨State.newSession_sound _ hv h.counts h.clock, Nat.min_le_right _ _,
    (Nat.min_le_right _ _).trans (Nat.min_le_right _ _)⟩

theorem taperTaken {s : State} (h : s.SessionFits) (hset : s.cfg.stageRating = s.store.stageRating) (n : Nat) :
    (s.taperTaken n).SessionFits := by
  unfold State.taperTaken
  split
  · exact h.of_same rfl rfl rfl rfl
  · next x hx =>
    obtain ⟨hs, hm, hf⟩ := h.rated x hx
    refine SessionFits.of_same (s := { s with session := some { x with vanMax := min n s.cfg.stageRating } })
      ⟨fun y hy => ?_, h.counts, h.clock⟩ (by simp) (by simp) (by simp) (by simp)
    cases hy
    exact ⟨fun hv => { hs hv with }, hset ▸ Nat.min_le_right _ _, hf⟩

theorem unplugTaken {s : State} (h : s.SessionFits) : s.unplugTaken.SessionFits := by
  unfold State.unplugTaken
  split
  · exact h.of_same rfl rfl rfl rfl
  · refine h.of_changed (by simp) (by simp) (by simp) fun y hy => ?_
    rw [State.refreshMEff_session, State.changeSession_session] at hy
    cases hy

theorem permitFalls {s : State} (h : s.SessionFits) : s.permitFalls.SessionFits := by
  unfold State.permitFalls
  split
  · refine of_same (addHold (s := { s with pins := { s.pins with permit := false } }) (h.of_same rfl rfl rfl rfl) .permit) ?_ ?_ ?_ ?_ <;> simp
  · exact h

theorem permitRises {s : State} (h : s.SessionFits) : s.permitRises.SessionFits := by
  unfold State.permitRises
  split
  · exact h
  · refine of_same (removeHold (s := { s with pins := { s.pins with permit := true } }) (h.of_same rfl rfl rfl rfl) .permit) ?_ ?_ ?_ ?_ <;> simp

end State.SessionFits

/-- On line the settings' rating is the store's (R167). -/
theorem State.RoundsInv.rating {s : State} (h : s.RoundsInv) (ho : s.onLine = true) :
    s.cfg.stageRating = s.store.stageRating := by
  simp [State.cfg, h.handed, ho, settingsOf]

theorem moves_sessionFits : Moves fun s => s.RoundsInv ∧ s.SessionFits where
  line s l h := ⟨moves_roundsInv.line s l h.1, h.2.of_same rfl rfl rfl rfl⟩
  out s o h := ⟨moves_roundsInv.out s o h.1, h.2.of_same rfl rfl rfl rfl⟩
  inspect s i h := ⟨moves_roundsInv.inspect s i h.1, h.2.of_same rfl rfl rfl rfl⟩
  order s a b h := ⟨moves_roundsInv.order s a b h.1, h.2.of_same rfl rfl rfl rfl⟩
  temps s t h := ⟨moves_roundsInv.temps s t h.1, h.2.of_same rfl rfl rfl rfl⟩
  powerUp s h := ⟨moves_roundsInv.powerUp s h.1, .of_idle rfl rfl fun _ hc => by cases hc⟩
  restart s h := by
    have hc : s.restart.timer.clock = s.timer.clock := by simp [State.restart, State.resetBlocks]
    exact ⟨moves_roundsInv.restart s h.1, .of_idle rfl rfl (by rw [hc]; exact h.2.clock)⟩
  resetPin s b h := ⟨moves_roundsInv.resetPin s b h.1, h.2.of_same rfl rfl rfl rfl⟩
  read s r h := ⟨moves_roundsInv.read s r h.1, h.2.of_same rfl rfl rfl rfl⟩
  started s h hs hl := ⟨moves_roundsInv.started s h.1 hs hl, h.2.of_same rfl rfl rfl rfl⟩
  toSetup s h hs := ⟨moves_roundsInv.toSetup s h.1 hs, h.2.of_same rfl rfl rfl rfl⟩
  claim s h := ⟨moves_roundsInv.claim s h.1, h.2.of_same (by simp) (by simp) (by simp) (by simp)⟩
  postSlice s n h ho := ⟨moves_roundsInv.postSlice s n h.1 ho, h.2.of_same rfl rfl rfl rfl⟩
  owe s a b h hr := ⟨moves_roundsInv.owe s a b h.1 hr, h.2.of_same rfl rfl rfl rfl⟩
  hand s h hr := ⟨moves_roundsInv.hand s h.1 hr, h.2.of_same rfl rfl rfl rfl⟩
  nextSlice s h hr hl := ⟨moves_roundsInv.nextSlice s h.1 hr hl, h.2.of_same rfl rfl rfl rfl⟩
  part p s h hr := ⟨moves_roundsInv.part p s h.1 hr, h.2.part p⟩
  work s n c h hr := ⟨moves_roundsInv.work s n c h.1 hr, h.2.roundEndWork n c⟩
  second s h := ⟨moves_roundsInv.second s h.1, h.2.clockSecond⟩
  align s h hr := ⟨moves_roundsInv.align s h.1 hr, h.2.of_same rfl rfl rfl rfl⟩
  clock s n h hn := ⟨moves_roundsInv.clock s n h.1 hn, h.2.rated, h.2.counts, fun c hc => Option.some.inj hc ▸ hn⟩
  hears s b h := by
    obtain ⟨_, ht⟩ := s.standingTakes_timer b
    exact ⟨moves_roundsInv.hears s b h.1, h.2.of_same (by simp) (by simp) (by simp) (by rw [ht])⟩
  report s b h := ⟨moves_roundsInv.report s b h.1, h.2.of_same rfl rfl rfl rfl⟩
  entry s b p e h ho h1 hn hb he := ⟨moves_roundsInv.entry s b p e h.1 ho h1 hn hb he, h.2.of_same rfl rfl rfl rfl⟩
  notice s v d t h hv hd := ⟨moves_roundsInv.notice s v d t h.1 hv hd, h.2.applyNotice v d _⟩
  override s o h ho := ⟨moves_roundsInv.override s o h.1 ho, h.2.of_same rfl rfl rfl rfl⟩
  edge s h := ⟨moves_roundsInv.edge s h.1, h.2.of_same rfl rfl rfl rfl⟩
  permitFalls s h := ⟨moves_roundsInv.permitFalls s h.1, h.2.permitFalls⟩
  permitRises s h := ⟨moves_roundsInv.permitRises s h.1, h.2.permitRises⟩
  plug s p r h ho hv := ⟨moves_roundsInv.plug s p r h.1 ho hv, h.2.openSession (h.1.rating ho) r hv⟩
  taper s n h ho := ⟨moves_roundsInv.taper s n h.1 ho, h.2.taperTaken (h.1.rating ho) n⟩
  addHold s h ho := ⟨moves_roundsInv.addHold s h.1 ho, h.2.addHold .driver⟩
  removeHold s h ho := ⟨moves_roundsInv.removeHold s h.1 ho, h.2.removeHold .driver⟩
  unplug s h ho := ⟨moves_roundsInv.unplug s h.1 ho, h.2.unplugTaken⟩
  write s c v h hc := ⟨moves_roundsInv.write s c v h.1 hc, h.2.of_same rfl rfl rfl rfl⟩
  lock s h hs hb := ⟨moves_roundsInv.lock s h.1 hs hb, h.2.of_same rfl rfl rfl rfl⟩

/-- Settles O58: a session is opened sound, every change of it keeps its ranges, and the standing's counts stay in theirs. -/
theorem sessionAndStandingKept : Obligations.SessionAndStandingKept := by
  refine ⟨fun s t h hstep => ?_, fun s t h hstep => moves_standSound.step (fun _ _ h => h) (fun _ h => h) h hstep⟩
  obtain ⟨hr, hsafe⟩ := h
  obtain ⟨hfits, hvan⟩ := State.sessionSafe_iff.1 hsafe
  have ht := moves_sessionFits.step
    (fun s q h => ⟨h.1.of_same rfl rfl rfl rfl fun _ i => { i with }, h.2.of_same rfl rfl rfl rfl⟩)
    (fun s h => ⟨State.advance_roundsInv h.1, h.2.of_same rfl rfl rfl rfl⟩) ⟨hr, hfits⟩ hstep
  exact ⟨ht.1, State.sessionSafe_iff.2 ⟨ht.2, hvan.step hstep⟩⟩

end Sys2Proof.Machine
end

section
/-! The own claim and the figures it is formed from, under every step (R38, R53 to R58, R66). -/

namespace Sys2Proof.Machine

/-! ### What the claim is formed from -/

/-- A claim heard is entered only with powers in range, q within M and F within a q above 0 (R38). -/
theorem peerEntryOf_powers {b r : Nat} {p : List Byte} {e : PeerEntry} (h : peerEntryOf b r p = some e) :
    e.q ≤ e.m ∧ (0 < e.q → e.f ≤ e.q) ∧ e.m ≤ Config.maxPower := by
  unfold peerEntryOf at h
  split at h
  · split at h
    · cases h
    · simp only at h
      split at h
      · next hc =>
        cases h
        obtain ⟨hm, -, -, hq, hf⟩ := hc
        exact ⟨hq, hf, hm⟩
      · cases h
  · cases h

theorem adjustQ_le {q m f : Nat} (hf : m = 0 ∨ f ≤ m) : adjustQ q m f ≤ m := by
  simp only [adjustQ]
  split
  · exact Nat.zero_le _
  · next hm =>
    split
    · exact hf.resolve_left hm
    · exact Nat.min_le_right _ _

theorem le_adjustQ {q m f : Nat} (h : 0 < adjustQ q m f) : f ≤ adjustQ q m f := by
  simp only [adjustQ] at h ⊢
  split
  · next hm => rw [if_pos hm] at h; cases h
  · next hm =>
    rw [if_neg hm] at h
    split
    · exact le_refl _
    · next hq => rw [if_neg hq] at h; exact Nat.le_of_not_lt fun hc => hq ⟨h, hc⟩

theorem State.required_le {s : State} {x : Session} (h : s.thermal.mEff = 0 ∨ x.floor ≤ s.thermal.mEff) :
    s.required x ≤ s.thermal.mEff := by
  unfold State.required
  split
  · exact Nat.zero_le _
  · exact adjustQ_le h

theorem State.le_required {s : State} {x : Session} (h : 0 < s.required x) : x.floor ≤ s.required x := by
  unfold State.required at h ⊢
  split
  · next hc => rw [if_pos hc] at h; cases h
  · next hc => rw [if_neg hc] at h; exact le_adjustQ h

/-- A claim formed on line from figures in their ranges is well formed (R38, R56, R58). -/
theorem State.ClaimSafe.claimNow {s : State} (h : s.ClaimSafe) (ho : s.stand.standing.onLine = true) :
    s.claimNow.WellFormed := by
  have hm := h.power.trans h.rating
  have key : ∀ q m f k : Nat, (q ≤ m ∧ (0 < q → f ≤ q) ∧ m ≤ Config.maxPower ∧ f ≤ Config.maxPower ∧ k ≤ 65535) →
      ({ s.claimNow with q := q, mEff := m, f := f, k := k } : Claim).WellFormed := by
    rintro q m f k ⟨hq, hf, hmx, hfx, hk⟩
    exact ⟨ho, hq, hf, ⟨hmx, hfx, h.allotted⟩, hk, Nat.mod_lt _ (by decide)⟩
  cases hs : s.session with
  | none =>
    have := key 0 0 0 0 ⟨le_refl _, nofun, Nat.zero_le _, Nat.zero_le _, Nat.zero_le _⟩
    simpa only [State.claimNow, hs] using this
  | some x =>
    obtain ⟨hr, hx⟩ := h.floor x hs
    have := key (s.required x) s.thermal.mEff x.floor (min x.departure 65535)
      ⟨State.required_le hx, State.le_required, hm, hr.trans h.rating, Nat.min_le_right _ _⟩
    simpa only [State.claimNow, hs] using this

/-! ### The allotment -/

theorem grantOf_le {bay top : Nat} {gs : List Grant} (h : ∀ g ∈ gs, g.power ≤ top) : grantOf bay gs ≤ top := by
  unfold grantOf
  split
  · exact Nat.zero_le _
  · next g hg => exact h g (List.mem_of_find?_eq_some hg)

/-- No grant of either pass is above its claimant's M (R63, R64). -/
theorem grants_le {available top : Nat} {cs : List Claimant}
    (h : ∀ c ∈ cs, c.q ≤ c.m ∧ (0 < c.q → c.f ≤ c.q) ∧ c.m ≤ top) : ∀ g ∈ grants available cs, g.power ≤ top := by
  intro g hg
  have hwithin := pass2_within (cs.length + 1) (pass1 available cs).2 _
    (pass1_within available cs fun c hc => ⟨(h c hc).1, (h c hc).2.1⟩) g hg
  have hwho : g.who ∈ cs := by
    have := List.mem_map_of_mem (f := Grant.who) hg
    rwa [grants, pass2_who, pass1_who] at this
  rcases Nat.eq_zero_or_pos g.power with h0 | h0
  · rw [h0]; exact Nat.zero_le _
  · exact (hwithin h0).2.trans (h _ hwho).2.2

theorem State.ClaimSafe.claimants {s : State} (h : s.ClaimSafe) (lone : Nat) :
    ∀ c ∈ s.claimants lone, c.q ≤ c.m ∧ (0 < c.q → c.f ≤ c.q) ∧ c.m ≤ Config.maxPower := by
  intro c hc
  rcases List.mem_append.1 ((deadlineOrder_perm _).mem_iff.1 hc) with hc | hc
  · obtain ⟨e, he, rfl⟩ := List.mem_map.1 hc
    exact h.peers e (List.mem_of_mem_filter he)
  · unfold State.selfClaimant at hc
    split at hc
    · cases hc
    · next own hown =>
      have hw := h.own own hown
      split at hc
      · rw [Option.mem_toList] at hc
        cases hc
        exact ⟨hw.asks, hw.floor, hw.powers.1⟩
      · cases hc

theorem State.ClaimSafe.allotmentFor {s : State} (h : s.ClaimSafe) (pool : Pool) :
    s.allotmentFor pool ≤ Config.maxPower := by
  have hown : s.ownGrant pool ≤ Config.maxPower := by
    unfold State.ownGrant
    split
    · exact Nat.zero_le _
    · exact grantOf_le (grants_le (h.claimants pool.lone))
  have hlone : loneShare pool.lone s.share.ownClaim ≤ Config.maxPower := by
    unfold loneShare
    split
    · exact Nat.zero_le _
    · next own hown =>
      split
      · exact (Nat.min_le_left _ _).trans (h.own own hown).powers.1
      · exact Nat.zero_le _
  unfold State.allotmentFor
  split
  · split
    · exact (Nat.min_le_left _ _).trans hown
    · exact hown
  · exact hlone
  · exact hlone
  all_goals exact Nat.zero_le _

/-! ### The operations that form a claim or M_eff -/

namespace State.ClaimSafe

theorem of_same {s t : State} (h : s.ClaimSafe) (hs : t.share.ownClaim = s.share.ownClaim)
    (ha : t.share.allotment = s.share.allotment) (hx : t.session = s.session) (hm : t.thermal.mEff = s.thermal.mEff)
    (hp : t.peers.entries = s.peers.entries) (hr : t.store.stageRating = s.store.stageRating) : t.ClaimSafe :=
  ⟨by rw [hs]; exact h.own, by rw [hx, hr, hm]; exact h.floor, by rw [hm, hr]; exact h.power,
    by rw [ha]; exact h.allotted, by rw [hp]; exact h.peers, by rw [hr]; exact h.rating⟩

/-- A session in place of the open one, with its floor power. -/
theorem withSession {s : State} (h : s.ClaimSafe) {x : Option Session}
    (hx : ∀ y, x = some y → ∃ z, s.session = some z ∧ y.floor = z.floor) : ({ s with session := x } : State).ClaimSafe :=
  { h with
    floor := fun y hy => by
      obtain ⟨z, hz, hf⟩ := hx y hy
      rw [hf]; exact h.floor z hz }

theorem formClaim {s : State} (h : s.ClaimSafe) : s.formClaim.ClaimSafe := by
  cases ho : s.stand.standing.onLine with
  | false => rwa [s.formClaim_off ho]
  | true =>
    have hs := (s.formClaim_spec ho).1
    refine ⟨fun c hc => ?_, by simpa using h.floor, by simpa using h.power, ?_, by simpa using h.peers, by simpa using h.rating⟩
    · rw [hs] at hc
      cases hc
      exact h.claimNow ho
    · rw [hs]; exact h.allotted

theorem evalPermission {s : State} (h : s.ClaimSafe) : s.evalPermission.ClaimSafe :=
  h.of_same (by simp) (by simp) (by simp) (by simp) (by simp) (by simp)

theorem putSession {s : State} (h : s.ClaimSafe) {x : Option Session}
    (hx : ∀ y, x = some y → ∃ z, s.session = some z ∧ y.floor = z.floor) : (s.putSession x).ClaimSafe := by
  obtain ⟨u, hu, -, e⟩ := s.putSession_spec x
  have hsafe : u.ClaimSafe := by rw [hu]; exact (h.withSession hx).of_same rfl rfl rfl rfl rfl rfl
  rw [e]
  split
  · exact hsafe.formClaim
  · exact hsafe

theorem changeSession {s : State} (h : s.ClaimSafe) {x : Option Session}
    (hx : ∀ y, x = some y → ∃ z, s.session = some z ∧ y.floor = z.floor) : (s.changeSession x).ClaimSafe :=
  (h.putSession hx).evalPermission

theorem addHold {s : State} (h : s.ClaimSafe) (r : HoldReason) : (s.addHold r).ClaimSafe := by
  unfold State.addHold
  split
  · exact h
  · next x hx =>
    split
    · exact h
    · exact h.changeSession fun y hy => ⟨x, hx, by cases hy; rfl⟩

theorem removeHold {s : State} (h : s.ClaimSafe) (r : HoldReason) : (s.removeHold r).ClaimSafe := by
  unfold State.removeHold
  split
  · exact h
  · next x hx =>
    split
    · exact h.changeSession fun y hy => ⟨x, hx, by cases hy; rfl⟩
    · exact h

theorem topIfReached {s : State} (h : s.ClaimSafe) : s.topIfReached.ClaimSafe := by
  unfold State.topIfReached
  split
  · exact h
  · next x hx =>
    split
    · exact h.changeSession fun y hy => ⟨x, hx, by cases hy; rfl⟩
    · exact h

end State.ClaimSafe

/-- What M_eff's forming needs: the claim's figures but for M_eff itself, and the session's floor in the rating. -/
structure State.ClaimBasis (s : State) : Prop where
  own : ∀ c, s.share.ownClaim = some c → c.WellFormed
  floor : ∀ x, s.session = some x → x.floor ≤ s.store.stageRating
  allotted : s.share.allotment ≤ Config.maxPower
  peers : ∀ e ∈ s.peers.entries, e.q ≤ e.m ∧ (0 < e.q → e.f ≤ e.q) ∧ e.m ≤ Config.maxPower
  rating : s.store.stageRating ≤ Config.maxPower

theorem State.ClaimSafe.basis {s : State} (h : s.ClaimSafe) : s.ClaimBasis :=
  { h with floor := fun x hx => (h.floor x hx).1 }

theorem State.ClaimBasis.of_same {s t : State} (h : s.ClaimBasis) (hs : t.share.ownClaim = s.share.ownClaim)
    (ha : t.share.allotment = s.share.allotment) (hx : t.session = s.session)
    (hp : t.peers.entries = s.peers.entries) (hr : t.store.stageRating = s.store.stageRating) : t.ClaimBasis :=
  ⟨by rw [hs]; exact h.own, by rw [hx, hr]; exact h.floor, by rw [ha]; exact h.allotted, by rw [hp]; exact h.peers,
    by rw [hr]; exact h.rating⟩

/-- M_eff as formed is 0 or at least the session's floor power (R145). -/
theorem State.formedMEff_floor {s : State} {x : Session} (hx : s.session = some x) :
    s.formedMEff = 0 ∨ x.floor ≤ s.formedMEff := by
  cases hh : s.thermal.hot with
  | none => exact .inl (State.formedMEff_of_no_scan hh)
  | some d =>
    rw [State.formedMEff_of_session_of_hot hx hh]
    unfold flooredMax
    split
    · exact .inr ‹_›
    · exact .inl rfl

theorem State.ClaimBasis.refreshMEff {s : State} (h : s.ClaimBasis) (hset : s.cfg.stageRating = s.store.stageRating) :
    s.refreshMEff.ClaimSafe := by
  have hm : s.refreshMEff.thermal.mEff = s.formedMEff := by simp [State.refreshMEff]
  refine ⟨by simpa using h.own, fun x hx => ?_, ?_, by simpa using h.allotted, by simpa using h.peers, by simpa using h.rating⟩
  · rw [State.refreshMEff_session] at hx
    rw [State.refreshMEff_store, hm]
    exact ⟨h.floor x hx, State.formedMEff_floor hx⟩
  · rw [State.refreshMEff_store, hm, ← hset]
    exact s.formedMEff_le

namespace State.ClaimSafe

theorem scan {s : State} (h : s.ClaimSafe) (hset : s.cfg.stageRating = s.store.stageRating) : s.scan.ClaimSafe := by
  have hr : ({ s with thermal := s.scanned } : State).refreshMEff.ClaimSafe :=
    (h.basis.of_same (t := { s with thermal := s.scanned }) rfl rfl rfl rfl rfl).refreshMEff hset
  unfold State.scan State.thermalHold
  split
  · exact hr
  · split
    · exact hr.addHold _
    · split
      · exact hr.removeHold _
      · exact hr

theorem part {s : State} (h : s.ClaimSafe) (hset : s.cfg.stageRating = s.store.stageRating) (p : SlicePart) :
    (p.run s).ClaimSafe := by
  cases p with
  | scan => exact h.scan hset
  | permit =>
    show s.permitTest.ClaimSafe
    unfold State.permitTest
    split
    · exact h
    · exact h.addHold _
  | topped => exact h.topIfReached
  | post =>
    show s.postUnlessOwed.ClaimSafe
    unfold State.postUnlessOwed State.postClaim
    split
    · exact h
    · split
      · exact h.formClaim
      · exact h
  | meter => exact h.of_same (by simp [SlicePart.run]) (by simp [SlicePart.run]) (by simp [SlicePart.run]) (by simp [SlicePart.run]) (by simp [SlicePart.run]) (by simp [SlicePart.run])
  | start => exact h.of_same (by simp [SlicePart.run]) (by simp [SlicePart.run]) (by simp [SlicePart.run]) (by simp [SlicePart.run]) (by simp [SlicePart.run]) (by simp [SlicePart.run])
  | mark => exact h.of_same (by simp [SlicePart.run]) (by simp [SlicePart.run]) (by simp [SlicePart.run]) (by simp [SlicePart.run]) (by simp [SlicePart.run]) (by simp [SlicePart.run])

theorem roundEndWork {s : State} (h : s.ClaimSafe) (n : Bool) (c : Nat) : (s.roundEndWork n c).ClaimSafe := by
  refine roundEndWork_keeps (P := State.ClaimSafe) (fun _ _ h => { h with }) (fun _ _ h => { h with }) ?_
    (fun _ h => { h with }) (fun _ h => { h with }) ?_ (fun _ h => { h with }) ?_ ?_ (fun _ h => { h with }) ?_
    (fun _ h => h.formClaim) ?_ (fun _ h => { h with }) n c s h
  · exact fun t h => h.of_same (by simp) (by simp) (by simp) (by simp) (by simp) (by simp)
  · exact fun t lone h => { h with peers := fun e he => h.peers e (List.mem_of_mem_filter he) }
  · exact fun t h => h.of_same (by simp) (by simp) (by simp) (by simp) (by simp) (by simp)
  · exact fun t p h => ⟨h.own, h.floor, h.power, h.allotmentFor p, h.peers, h.rating⟩
  · intro t h
    refine h.of_same ?_ ?_ (by simp) (by simp) (by simp) (by simp)
    · simp only [State.drawPostSlice, State.draw]
    · simp only [State.drawPostSlice, State.draw]
  · intro t c p q h
    refine ClaimSafe.of_same (s := t.sessionRoundEnd c p q) ?_ (by simp) (by simp) (by simp) (by simp) (by simp) (by simp)
    unfold State.sessionRoundEnd
    split
    · exact h
    · next x hx =>
      refine h.putSession fun y hy => ⟨x, hx, ?_⟩
      cases hy
      exact congrArg Prod.snd (t.sessionAfterRound_powers c p q x)

theorem standingTakes {s : State} (h : s.ClaimSafe) (b : Nat) : (s.standingTakes b).ClaimSafe := by
  have on : ∀ t : State, t.ClaimSafe → t.formClaim.evalPermission.ClaimSafe := fun t ht => ht.formClaim.evalPermission
  simp only [State.standingTakes]
  split
  · split
    · exact h.of_same rfl rfl rfl rfl rfl rfl
    · split
      · exact on _ (h.of_same rfl rfl rfl rfl rfl rfl)
      · exact on _ (h.of_same rfl rfl rfl rfl rfl rfl)
      · exact h.of_same rfl rfl rfl rfl rfl rfl
  · exact h

theorem applyNotice {s : State} (h : s.ClaimSafe) (v d : Nat) (t : Option Nat) : (s.applyNotice v d t).ClaimSafe := by
  unfold State.applyNotice
  split
  · next x hx =>
    split
    · exact topIfReached (h.withSession fun y hy => ⟨x, hx, by cases hy; rfl⟩)
    · exact h.of_same rfl rfl rfl rfl rfl rfl
  · exact h.of_same rfl rfl rfl rfl rfl rfl

theorem openSession {s : State} (h : s.ClaimSafe) (hset : s.cfg.stageRating = s.store.stageRating) (p : PlugFields)
    (r : AckResult) : (s.openSession (p.clamped s.cfg.stageRating) r).ClaimSafe := by
  obtain ⟨la, e⟩ := State.writeLast_frame .superseded s
  have hfloor : (p.clamped s.cfg.stageRating).floor ≤ s.store.stageRating := by
    rw [← hset]; exact (Nat.min_le_right _ _).trans (Nat.min_le_right _ _)
  simp only [State.openSession, e]
  refine ClaimBasis.refreshMEff ?_ (by simpa [State.cfg] using hset)
  refine ClaimBasis.of_same (s := { s with session := some (s.newSession (p.clamped s.cfg.stageRating)) })
    { h.basis with floor := fun x hx => by cases hx; exact hfloor } ?_ ?_ ?_ ?_ ?_ <;> simp

theorem taperTaken {s : State} (h : s.ClaimSafe) (hset : s.cfg.stageRating = s.store.stageRating) (n : Nat) :
    (s.taperTaken n).ClaimSafe := by
  unfold State.taperTaken
  split
  · exact h.of_same rfl rfl rfl rfl rfl rfl
  · next x hx =>
    refine ClaimBasis.refreshMEff ?_ (by simpa [State.cfg] using hset)
    exact { h.basis with floor := fun y hy => by cases hy; exact h.basis.floor x hx }

theorem unplugTaken {s : State} (h : s.ClaimSafe) (hset : s.cfg.stageRating = s.store.stageRating) :
    s.unplugTaken.ClaimSafe := by
  unfold State.unplugTaken
  split
  · exact h.of_same rfl rfl rfl rfl rfl rfl
  · refine (ClaimSafe.basis (changeSession (h.of_same ?_ ?_ ?_ ?_ ?_ ?_) fun y hy => by cases hy)).refreshMEff ?_
    all_goals simp [State.cfg]
    exact hset

theorem permitFalls {s : State} (h : s.ClaimSafe) : s.permitFalls.ClaimSafe := by
  unfold State.permitFalls
  split
  · exact (addHold (s := { s with pins := { s.pins with permit := false } }) (h.of_same rfl rfl rfl rfl rfl rfl) .permit).evalPermission
  · exact h

theorem permitRises {s : State} (h : s.ClaimSafe) : s.permitRises.ClaimSafe := by
  unfold State.permitRises
  split
  · exact h
  · exact (removeHold (s := { s with pins := { s.pins with permit := true } }) (h.of_same rfl rfl rfl rfl rfl rfl) .permit).evalPermission

/-- With the blocks at their reset values only the rating is left to hold. -/
theorem of_idle {s : State} (i : s.Idle) (hr : s.store.stageRating ≤ Config.maxPower) : s.ClaimSafe where
  own c hc := by rw [i.share] at hc; cases hc
  floor x hx := by rw [i.session] at hx; cases hx
  power := by rw [i.thermal]; exact Nat.zero_le _
  allotted := by rw [i.share]; exact Nat.zero_le _
  peers e he := by rw [i.peers] at he; cases he
  rating := hr

end State.ClaimSafe

theorem moves_claimInv : Moves State.ClaimInv where
  line s l h := ⟨moves_roundsInv.line s l h.1, { h.2 with }⟩
  out s o h := ⟨moves_roundsInv.out s o h.1, { h.2 with }⟩
  inspect s i h := ⟨moves_roundsInv.inspect s i h.1, { h.2 with }⟩
  order s a b h := ⟨moves_roundsInv.order s a b h.1, { h.2 with }⟩
  temps s t h := ⟨moves_roundsInv.temps s t h.1, { h.2 with }⟩
  powerUp s h := by
    have hr := moves_roundsInv.powerUp s h.1
    exact ⟨hr, .of_idle (hr.idle rfl) h.2.rating⟩
  restart s h := by
    have hr := moves_roundsInv.restart s h.1
    have hs : s.restart.store = s.store := by simp [State.restart, State.resetBlocks]
    exact ⟨hr, .of_idle (hr.idle rfl) (by rw [hs]; exact h.2.rating)⟩
  resetPin s b h := ⟨moves_roundsInv.resetPin s b h.1, { h.2 with }⟩
  read s r h := ⟨moves_roundsInv.read s r h.1, { h.2 with }⟩
  started s h hs hl := ⟨moves_roundsInv.started s h.1 hs hl, { h.2 with }⟩
  toSetup s h hs := ⟨moves_roundsInv.toSetup s h.1 hs, { h.2 with }⟩
  claim s h := ⟨moves_roundsInv.claim s h.1, h.2.formClaim⟩
  postSlice s n h ho := ⟨moves_roundsInv.postSlice s n h.1 ho, { h.2 with }⟩
  owe s a b h hr := ⟨moves_roundsInv.owe s a b h.1 hr, { h.2 with }⟩
  hand s h hr := ⟨moves_roundsInv.hand s h.1 hr, { h.2 with }⟩
  nextSlice s h hr hl := ⟨moves_roundsInv.nextSlice s h.1 hr hl, { h.2 with }⟩
  part p s h hr := ⟨moves_roundsInv.part p s h.1 hr, h.2.part (h.1.rating (h.1.onLine_of_running hr)) p⟩
  work s n c h hr := ⟨moves_roundsInv.work s n c h.1 hr, h.2.roundEndWork n c⟩
  second s h := by
    refine ⟨moves_roundsInv.second s h.1, State.ClaimSafe.of_same (h.2.withSession (x := s.clockSecond.session) fun y hy => ?_)
      rfl rfl rfl rfl rfl rfl⟩
    obtain ⟨x, hx, rfl⟩ := Option.map_eq_some_iff.1 hy
    exact ⟨x, hx, rfl⟩
  align s h hr := ⟨moves_roundsInv.align s h.1 hr, { h.2 with }⟩
  clock s n h hn := ⟨moves_roundsInv.clock s n h.1 hn, { h.2 with }⟩
  hears s b h := ⟨moves_roundsInv.hears s b h.1, h.2.standingTakes b⟩
  report s b h := ⟨moves_roundsInv.report s b h.1, { h.2 with }⟩
  entry s b p e h ho h1 hn hb he := by
    refine ⟨moves_roundsInv.entry s b p e h.1 ho h1 hn hb he, { h.2 with peers := fun d hd => ?_ }⟩
    rcases mem_putEntry e d _ hd with rfl | hd
    · exact peerEntryOf_powers he
    · exact h.2.peers d hd
  notice s v d t h hv hd := ⟨moves_roundsInv.notice s v d t h.1 hv hd, h.2.applyNotice v d _⟩
  override s o h ho := ⟨moves_roundsInv.override s o h.1 ho, { h.2 with }⟩
  edge s h := ⟨moves_roundsInv.edge s h.1, { h.2 with }⟩
  permitFalls s h := ⟨moves_roundsInv.permitFalls s h.1, h.2.permitFalls⟩
  permitRises s h := ⟨moves_roundsInv.permitRises s h.1, h.2.permitRises⟩
  plug s p r h ho hv := ⟨moves_roundsInv.plug s p r h.1 ho hv, h.2.openSession (h.1.rating ho) p r⟩
  taper s n h ho := ⟨moves_roundsInv.taper s n h.1 ho, h.2.taperTaken (h.1.rating ho) n⟩
  addHold s h ho := ⟨moves_roundsInv.addHold s h.1 ho, h.2.addHold .driver⟩
  removeHold s h ho := ⟨moves_roundsInv.removeHold s h.1 ho, h.2.removeHold .driver⟩
  unplug s h ho := ⟨moves_roundsInv.unplug s h.1 ho, h.2.unplugTaken (h.1.rating ho)⟩
  write s c v h hc := ⟨moves_roundsInv.write s c v h.1 hc, { h.2 with }⟩
  lock s h hs hb := ⟨moves_roundsInv.lock s h.1 hs hb, { h.2 with }⟩

/-- Settles O59: a claim is formed from an M_eff that is 0 or covers the floor power, and from an allotment no grant lifts
above its claimant's M. -/
theorem claimKept : Obligations.ClaimKept := fun _ _ h hstep =>
  moves_claimInv.step
    (fun _ _ h => ⟨h.1.of_same rfl rfl rfl rfl fun _ i => { i with }, { h.2 with }⟩)
    (fun _ h => ⟨State.advance_roundsInv h.1, { h.2 with }⟩) h hstep

end Sys2Proof.Machine
end

section
/-! The queue, a tick, events that cannot occur, and the states of power-up and restart (R2, R14, R19, R76; logs 1, 3). -/

namespace Sys2Proof.Machine

/-! ### The queue and the tick -/

/-- Settles O1. -/
theorem stepTakesFront : Obligations.StepTakesFront := fun _ _ _ h => step_cons h

theorem LineEngine.tick_still {s : State} (h : s.line.lineActive = true ∨ s.isSending = true) :
    s.line.tick = s.line := by
  unfold LineEngine.tick
  rcases h with h | h
  · rw [if_pos h]
  · unfold State.isSending at h
    split
    · rfl
    · cases hs : s.line.sender with
      | sending a => rfl
      | idle => rw [hs] at h; cases h
      | waiting b w => rw [hs] at h; cases h

theorem LineEngine.tick_idle {l : LineEngine} (ha : l.lineActive = false) (hs : l.sender = .idle) :
    l.tick = { l with quietTimer := l.quietTimer + 1000 } := by
  simp [LineEngine.tick, ha, hs, Config.tickMicros]

theorem LineEngine.tick_waiting {l : LineEngine} {b w : Nat} (ha : l.lineActive = false) (hs : l.sender = .waiting b w) :
    l.tick = { l with quietTimer := l.quietTimer + 1000, sender := .waiting b (w + 1000) } := by
  simp [LineEngine.tick, ha, hs, Config.tickMicros]

theorem dueEvents_nodup : dueEvents.Nodup := by decide

/-- With no event due a tick only counts. -/
theorem State.tick_none {s : State} (h : ∀ d : Due, d.isDue s.takeStarts.advance = false) :
    s.tick = s.takeStarts.advance := by
  have hf : dueEvents.filter (Due.isDue s.takeStarts.advance) = [] :=
    List.filter_eq_nil_iff.2 fun d _ => by simp [h d]
  simp only [State.tick, hf]
  rfl

/-- With one event due a tick takes it. -/
theorem State.tick_one {s : State} {d : Due} (h : d.isDue s.takeStarts.advance = true)
    (ho : ∀ e : Due, e ≠ d → e.isDue s.takeStarts.advance = false) : s.tick = d.take s.takeStarts.advance := by
  have hf : dueEvents.filter (Due.isDue s.takeStarts.advance) = [d] := by
    have hp : ∀ e ∈ dueEvents, Due.isDue s.takeStarts.advance e = decide (e = d) := by
      intro e _
      by_cases he : e = d
      · rw [he, h]; simp
      · rw [ho e he]; simp [he]
    rw [List.filter_congr hp]
    cases d <;> rfl
  simp only [State.tick, hf]
  show Due.takeIfDue d _ = _
  rw [Due.takeIfDue, if_pos h]

/-- With two events due or more a tick takes them in a free order. -/
theorem State.tick_many {s : State} {d e : Due} (hne : d ≠ e) (hd : d.isDue s.takeStarts.advance = true)
    (he : e.isDue s.takeStarts.advance = true) :
    s.tick = inAnyOrder ((dueEvents.filter (Due.isDue s.takeStarts.advance)).map Due.takeIfDue) s.takeStarts.advance := by
  have hlen : ¬ (dueEvents.filter (Due.isDue s.takeStarts.advance)).length ≤ 1 := by
    have hsub : [d, e].Subperm (dueEvents.filter (Due.isDue s.takeStarts.advance)) := by
      refine List.subperm_of_subset (by simpa using hne) fun x hx => ?_
      rcases List.mem_pair.1 hx with rfl | rfl
      · exact List.mem_filter.2 ⟨mem_dueEvents _, hd⟩
      · exact List.mem_filter.2 ⟨mem_dueEvents _, he⟩
    have := hsub.length_le
    simp only [List.length_cons, List.length_nil] at this
    omega
  simp only [State.tick]
  rw [if_neg hlen]

theorem runAll_eq_foldl (l : List Due) (s : State) :
    runAll (l.map Due.takeIfDue) s = l.foldl (fun x d => if d.isDue x then d.take x else x) s := by
  induction l generalizing s with
  | nil => rfl
  | cons d l ih => exact ih _

theorem Due.second_iff (v : State) : Due.second.isDue v = true ↔ 1000 ≤ v.timer.subSecond := decide_eq_true_iff

theorem Due.slice_iff (v : State) :
    Due.slice.isDue v = true ↔ v.timer.running = true ∧ v.cfg.sliceDiv ≤ v.timer.sliceCounter := by
  simp [Due.isDue]

theorem Due.read_iff (v : State) : Due.read.isDue v = true ↔ ∃ ms, v.storeRead = some ms ∧ 40 ≤ ms := by
  cases h : v.storeRead with
  | none => simp [Due.isDue, h]
  | some ms => simp [Due.isDue, h]; rfl

theorem Due.restart_iff (v : State) :
    Due.restart.isDue v = true ↔ ∃ ms, v.inspect.restartWait = some ms ∧ 100 ≤ ms := by
  cases h : v.inspect.restartWait with
  | none => simp [Due.isDue, h]
  | some ms => simp [Due.isDue, h]; rfl

theorem Due.quiet_iff (v : State) : Due.quiet.isDue v = true ↔ 160 ≤ v.line.quietTimer ∧ v.line.receiver ≠ .hunt := by
  simp only [Due.isDue, Bool.and_eq_true, decide_eq_true_eq]; rfl

theorem Due.attempt_iff (v : State) : Due.attempt.isDue v = true ↔
    ∃ backoff waited, v.line.sender = .waiting backoff waited ∧ 160 + 40 * backoff ≤ waited := by
  cases h : v.line.sender with
  | waiting b w => simp [Due.isDue, Sender.waitOver, h, Nat.mul_comm]; rfl
  | idle => simp [Due.isDue, Sender.waitOver, h]
  | sending a => simp [Due.isDue, Sender.waitOver, h]

/-- The slice's event is the round end of the last slice and the slice expiry of another (R2). -/
theorem Due.slice_take (v : State) : (.next (Due.slice.take v) : Host.Outcome State Fault Refusal) =
    if v.cfg.roundDiv ≤ v.timer.sliceIndex + 1 then exec (.naturalRoundEnd v.pins.temps) v
    else exec (.sliceExpiry v.pins.temps) v := by
  show (.next (if decide (v.cfg.roundDiv ≤ v.timer.sliceIndex + 1) = true then v.naturalRoundEnd else v.sliceExpiry) : Host.Outcome State Fault Refusal) = _
  by_cases h : v.cfg.roundDiv ≤ v.timer.sliceIndex + 1
  · rw [if_pos (decide_eq_true h), if_pos h]; rfl
  · rw [if_neg (by simpa using h), if_neg h]; rfl

/-- The attempt's event comes after the quiet gap that the same quiet time brings (R156). -/
theorem Due.attempt_take {v u : State} (hu : exec .quietGap v = .next u) :
    (.next (Due.attempt.take v) : Host.Outcome State Fault Refusal) =
      exec .sendAttempt (if 160 ≤ v.line.quietTimer ∧ v.line.receiver ≠ .hunt then u else v) := by
  obtain rfl : v.quietGap = u := Host.Outcome.next.inj hu
  show (.next (State.beginAttempt (if Due.quiet.isDue v = true then v.quietGap else v)) : Host.Outcome State Fault Refusal) = _
  by_cases h : 160 ≤ v.line.quietTimer ∧ v.line.receiver ≠ .hunt
  · rw [if_pos ((Due.quiet_iff v).2 h), if_pos h]; rfl
  · rw [if_neg (mt (Due.quiet_iff v).1 h), if_neg h]; rfl

/-- Settles O2: the counting of a tick, then the events due, each in its turn and only if still due. -/
theorem emptyQueueTick : Obligations.EmptyQueueTick := by
  refine ⟨fun s hs => ?_, fun v => ?_⟩
  · have hstep : step s = .next s.tick := step_nil hs
    refine ⟨s.takeStarts, s.takeStarts.advance, rfl, rfl, s.takeStarts_none, rfl,
      LineEngine.tick_still, LineEngine.tick_idle, fun _ _ => LineEngine.tick_waiting,
      fun h => by rw [hstep, State.tick_none h], fun d h ho => by rw [hstep, State.tick_one h ho],
      fun d e hne hd he => by rw [hstep, State.tick_many hne hd he], ?_⟩
    obtain ⟨turns, w, hperm, hw, ht⟩ := s.tick_turns
    refine ⟨turns, w, hperm.nodup_iff.2 (dueEvents_nodup.filter _), fun d => ?_, hw, ?_⟩
    · rw [hperm.mem_iff, List.mem_filter]; exact ⟨And.right, fun h => ⟨mem_dueEvents d, h⟩⟩
    · rw [hstep, ht, runAll_eq_foldl]
  · exact ⟨Due.second_iff v, Due.slice_iff v, Due.read_iff v, Due.restart_iff v, Due.quiet_iff v, Due.attempt_iff v,
      rfl, Due.slice_take v, rfl, rfl, rfl, fun _ => Due.attempt_take⟩

/-! ### Events that cannot occur -/

theorem State.isSending_iff {s : State} : s.isSending = true ↔ ∃ a, s.line.sender = .sending a := by
  unfold State.isSending
  cases s.line.sender <;> simp

theorem State.ofAttemptOr_not_sending {s : State} (h : s.isSending = false) (f : Attempt → State → State)
    (g : State → State) : s.ofAttemptOr f g = g s := by
  unfold State.isSending at h
  unfold State.ofAttemptOr
  split <;> simp_all

theorem State.beginAttempt_still {s : State}
    (h : s.line.sender = .idle ∨ s.line.lineActive = true ∨ s.line.outbox.isEmpty = true) : s.beginAttempt = s := by
  unfold State.beginAttempt
  split
  · next hs =>
    split
    · rfl
    · next ha =>
      have he : s.line.outbox.isEmpty = true := by
        rcases h with h | h | h
        · rw [hs] at h; cases h
        · exact absurd h ha
        · exact h
      obtain ⟨hm, hc, hr⟩ := (Outbox.isEmpty_iff _).1 he
      simp [Outbox.highest, hm, hc, hr]
  · rfl
  · rfl

theorem State.beginAttempt_sending {s : State} (h : s.isSending = true) : s.beginAttempt = s := by
  obtain ⟨a, ha⟩ := State.isSending_iff.1 h
  simp [State.beginAttempt, ha]

theorem State.sliceExpiry_cannot {s : State} (h : s.timer.running = false ∨ s.cfg.roundDiv ≤ s.timer.sliceIndex + 1) :
    s.sliceExpiry = s := by
  unfold State.sliceExpiry
  refine if_neg fun hc => ?_
  simp only [Bool.and_eq_true, Bool.not_eq_true', State.inLastSlice, decide_eq_false_iff_not] at hc
  rcases h with h | h
  · rw [h] at hc; cases hc.1
  · exact hc.2 h

theorem State.naturalRoundEnd_cannot {s : State}
    (h : s.timer.running = false ∨ s.timer.sliceIndex + 1 < s.cfg.roundDiv) : s.naturalRoundEnd = s := by
  unfold State.naturalRoundEnd
  refine if_neg fun hc => ?_
  simp only [Bool.and_eq_true, State.inLastSlice, decide_eq_true_eq] at hc
  rcases h with h | h
  · rw [h] at hc; cases hc.1
  · exact absurd h (Nat.not_lt.2 hc.2)

/-- Settles O3: each event has its guard, and where the guard fails nothing is done. -/
theorem eventsThatCannotOccur : Obligations.EventsThatCannotOccur := by
  intro s temps
  refine ⟨fun h => ?_, fun h => ?_, fun h => ?_, fun h => ?_, fun h => ?_, fun h => ?_, fun h => ?_, fun h => ?_,
    fun h => ?_, fun h => ?_, fun h => ?_, State.isSending_iff, Outbox.isEmpty_iff _⟩
  · exact congrArg Host.Outcome.next (if_pos h)
  · exact congrArg Host.Outcome.next (if_neg (by simp [h]))
  · refine congrArg Host.Outcome.next (if_neg fun hc => ?_)
    simp only [Bool.and_eq_true, beq_iff_eq] at hc
    rcases h with h | h
    · rw [h] at hc; cases hc.1
    · exact h hc.2
  · exact congrArg Host.Outcome.next (if_neg (by simp [h]))
  · exact congrArg Host.Outcome.next (State.sliceExpiry_cannot (s := s.setTemps temps) h)
  · exact congrArg Host.Outcome.next (State.naturalRoundEnd_cannot (s := s.setTemps temps) h)
  · exact congrArg Host.Outcome.next (if_neg (by simp [h]))
  · exact congrArg Host.Outcome.next (if_pos h)
  · exact ⟨congrArg Host.Outcome.next (State.ofAttemptOr_not_sending h _ _),
      congrArg Host.Outcome.next (State.ofAttemptOr_not_sending h _ _)⟩
  · exact ⟨congrArg Host.Outcome.next (if_pos (by simp [h])), congrArg Host.Outcome.next (if_pos h),
      congrArg Host.Outcome.next (State.beginAttempt_sending h)⟩
  · exact congrArg Host.Outcome.next (State.beginAttempt_still h)

/-! ### Power-up and restart -/

/-- Settles O4. -/
theorem powerUpState : Obligations.PowerUpState := fun _ => rfl

/-- A restart written out: what is kept, and the session closed (R5, R97, R139). -/
theorem State.restart_eq (u : State) : u.restart =
    { u with
      storeRead := if u.pins.reset then none else some 0
      settings := none
      timer := { running := false, sliceCounter := 0, sliceIndex := 0, roundCount := 0, aligned := false,
                 subSecond := u.timer.subSecond, clock := u.timer.clock }
      stand := {}, peers := {}, share := {}, session := none
      last := match u.session with
        | none => u.last
        | some x => some { van := x.van, delivered := u.runningWh x, reason := .restart, finalPhase := x.phase }
      notices := { table := u.notices.table, override := none }
      stage := {}, meter := {}, thermal := {}
      line := { prng := prngSeed u.store.serial, lineActive := u.line.lineActive }
      inspect := {}
      out := { u.out with stage := u.out.stage ++ [0] } } := by
  unfold State.restart State.writeLast
  cases u.session <;> rfl

/-- Of the line engine a restart reads whether the line is active, and nothing else. -/
theorem State.restart_line (u : State) (l : LineEngine) (h : l.lineActive = u.line.lineActive) :
    ({ u with line := l } : State).restart = u.restart := by
  rw [State.restart_eq, State.restart_eq]
  simp only [h]
  rfl

/-- The report that a RESTART's reply was sent carries the restart out, and the sender stays IDLE. -/
theorem State.frameSent_restart {s : State} {a : Attempt} {r : PendingReply} (ha : a.slot = .reply)
    (h : s.inspect.pendingReply = some r) (hk : r.kind = .restart) :
    s.frameSent a = ({ s with
      line := { s.line with lineActive := false }
      out := { s.out with line := s.out.line ++ [a.bytes] } } : State).restart := by
  have idle : ∀ u : State, u.restart.afterAttempt 16 = u.restart := by
    intro u
    have he : u.restart.line.outbox.isEmpty = true := rfl
    unfold State.afterAttempt
    rw [if_pos he]
    rfl
  unfold State.frameSent
  simp only [ha]
  rw [State.replySent_of_restart (r := r) (by split <;> exact h) hk, idle]
  split
  · exact State.restart_line ({ s with
      line := { s.line with lineActive := false }
      out := { s.out with line := s.out.line ++ [a.bytes] } } : State) _ rfl
  · exact State.restart_line ({ s with
      line := { s.line with lineActive := false }
      out := { s.out with line := s.out.line ++ [a.bytes] } } : State) _ rfl

/-- Settles O5: each of the three comes to the restart of the state it starts from. -/
theorem restartState : Obligations.RestartState := by
  intro c s u h
  have hc : exec c s = .next u.restart := by
    rcases h with ⟨rfl, hr, rfl⟩ | ⟨rfl, hw, rfl⟩ | ⟨rfl, a, r, hs, ha, hp, hk, rfl⟩
    · exact congrArg Host.Outcome.next (State.assertReset_of_released hr)
    · exact congrArg Host.Outcome.next (State.restartWaitEnds_of_waiting hw)
    · refine congrArg Host.Outcome.next ?_
      show s.ofAttemptOr State.frameSent id = _
      rw [State.ofAttemptOr_sending hs, State.frameSent_restart ha hp hk]
  rw [hc, State.restart_eq]
  rfl

/-! ### The clock second, records off line, and the reset state -/

/-- Settles O8. -/
theorem clockSecond : Obligations.ClockSecond := by
  intro s
  show (Host.Outcome.next s.clockSecond : Host.Outcome State Fault Refusal) = _
  unfold State.clockSecond
  cases s.timer.clock <;> cases s.session <;> rfl

/-- Settles O47: a record of any kind is answered by the guard on the standing. -/
theorem recordsIgnored : Obligations.RecordsIgnored := by
  intro s c kind ho h
  have hoff : ∀ (k : RecordKind) (f : State → State), s.record k f = s.ack k .ignored := fun k f =>
    if_neg (by rw [show s.stand.standing.onLine = false from ho]; decide)
  rcases h with ⟨rfl, rfl⟩ | ⟨rfl, rfl⟩ | ⟨rfl, rfl⟩ | ⟨m, rfl, rfl⟩ | ⟨r, rfl, rfl⟩ <;>
    exact congrArg Host.Outcome.next (hoff _ _)

theorem State.reset_roundsInv : State.reset.RoundsInv where
  running := rfl
  handed := rfl
  locked h := by cases h
  idleTimer _ := ⟨rfl, rfl, rfl, rfl⟩
  idleBlocks _ := ⟨rfl, rfl, rfl, rfl, rfl, rfl, rfl⟩

theorem State.reset_installerSound : State.reset.store.installer.Sound := by
  constructor
  case full => intro h; cases h
  all_goals exact trivial

/-- Settles O52: at reset every block is at its power-up values. -/
theorem invariantsAtReset : Obligations.InvariantsAtReset := by
  have hr := State.reset_roundsInv
  have hi := hr.idle rfl
  refine ⟨hr, State.reset_installerSound, ⟨hr, State.reset_installerSound, ?_⟩, ⟨hr, hi.drawSafe⟩, ?_, ⟨hr, .of_empty rfl⟩, ?_,
    ⟨hr, State.sessionSafe_iff.2 ⟨.of_idle rfl rfl (fun c hc => by cases hc), .of_none rfl⟩⟩, StandingUnit.sound_atReset,
    ⟨hr, .of_idle hi (by decide)⟩⟩
  · exact ⟨fun h => (by cases h), by decide, by decide, fun c h => by cases h⟩
  · exact ⟨rfl, fun slot f h => by (cases slot <;> cases h), fun a h => by cases h⟩
  · exact State.noticesInv_iff.2 ⟨Nat.zero_le _, .nil, (fun e h => by cases h), fun e h => by cases h⟩

end Sys2Proof.Machine
end

section
/-! The figures of the share computation and of the own claim (R42 to R46, R51 to R58, R61 to R65, R85, R86). -/

namespace Sys2Proof.Machine

/-! ### The pool -/

theorem mul_ceilDiv_bounds (a : Nat) {b : Nat} (hb : 0 < b) : a ≤ b * ceilDiv a b ∧ b * ceilDiv a b < a + b := by
  have h1 := Nat.div_add_mod (a + b - 1) b
  have h2 := Nat.mod_lt (a + b - 1) hb
  unfold ceilDiv
  omega

/-- Settles O16: the figures are those of their definitions, and a limit of 65000 with a reserve of 25 bounds them. -/
theorem poolFigures : Obligations.PoolFigures := by
  intro s
  obtain ⟨hlow, hhigh⟩ := mul_ceilDiv_bounds (s.pool.limit * s.cfg.reserve) (by decide : 0 < 100)
  refine ⟨rfl, hlow, hhigh, rfl, rfl, fun hl hr => ?_⟩
  have hlim : s.pool.limit ≤ 65000 := by
    show s.limitInEffect ≤ 65000
    unfold State.limitInEffect
    split
    · exact hl
    · exact (Nat.min_le_left _ _).trans hl
  have hprod : s.pool.limit * s.cfg.reserve ≤ 65000 * 25 := Nat.mul_le_mul hlim hr
  have husable : s.pool.usable ≤ 65000 := (Nat.sub_le _ _).trans hlim
  have hhigh : 100 * s.pool.reserve < s.pool.limit * s.cfg.reserve + 100 := hhigh
  exact ⟨by omega, husable, (Nat.div_le_self _ _).trans husable⟩

/-! ### The peer table's ages and roles -/

theorem entryState_fresh {m : Nat} : entryState m = .fresh ↔ m = 0 := by
  unfold entryState; split_ifs <;> simp_all

theorem entryState_quiet {m : Nat} : entryState m = .quiet ↔ 1 ≤ m ∧ m ≤ 3 := by
  unfold entryState; split_ifs <;> simp_all
  omega

theorem entryState_lost {m : Nat} : entryState m = .lost ↔ 4 ≤ m ∧ m ≤ 23 := by
  unfold entryState Config.removalAge; split_ifs <;> simp_all <;> omega

theorem entryState_removed {m : Nat} : entryState m = .removed ↔ 24 ≤ m := by
  unfold entryState Config.removalAge; split_ifs <;> simp_all <;> omega

theorem PeerEntry.missed_eq {e : PeerEntry} {round : Nat} (he : e.lastHeard < 65536) :
    (e.missed round : Int) = ((round : Int) - e.lastHeard) % 65536 := by
  unfold PeerEntry.missed; omega

theorem PeerEntry.role_fresh {e : PeerEntry} {round : Nat} (lone : Nat) (h : e.missed round = 0) :
    e.role lone round = e.freshRole := by
  rw [PeerEntry.role, entryState_fresh.2 h]

/-- Settles O17: an entry's age is the round's distance, and each age has its role. -/
theorem entryAgeAndRoles : Obligations.EntryAgeAndRoles := by
  refine ⟨fun e round he hr => ⟨e.missed_eq he, fun h => ?_, entryState_fresh, entryState_quiet, entryState_lost,
    entryState_removed⟩, fun e lone round => ⟨fun h => ?_, fun h1 h3 => ?_, fun h4 h23 => ?_, fun h => ?_⟩,
    fun lone round es => ⟨rfl, ?_, rfl⟩⟩
  · unfold PeerEntry.missed; omega
  · rw [e.role_fresh lone h]
    refine ⟨?_, ?_, ?_, ?_⟩
    · rintro (hs | hs) hq <;> simp [PeerEntry.freshRole, hs, hq]
    · rintro (hs | hs) hq <;> simp [PeerEntry.freshRole, hs, hq]
    · rintro (hs | hs) <;> simp [PeerEntry.freshRole, hs]
    · intro hs; simp [PeerEntry.freshRole, hs]
  · rw [PeerEntry.role, entryState_quiet.2 ⟨h1, h3⟩]
  · rw [PeerEntry.role, entryState_lost.2 ⟨h4, h23⟩]
  · rw [PeerEntry.role, entryState_removed.2 h]
  · rfl

/-! ### The grants -/

theorem Grant.isOpen_iff {g : Grant} : g.isOpen = true ↔ 0 < g.power ∧ g.power < g.who.m := by
  refine decide_eq_true_iff.trans ?_
  unfold Grant.headroom
  omega

theorem Grant.isOpen_eq : Grant.isOpen = fun g => decide (0 < g.power ∧ g.power < g.who.m) := by
  funext g
  exact Bool.eq_iff_iff.2 (Grant.isOpen_iff.trans decide_eq_true_iff.symm)

theorem Grant.addition_eq (share : Nat) (g : Grant) :
    g.addition share = if 0 < g.power ∧ g.power < g.who.m then min share (g.who.m - g.power) else 0 := by
  simp only [Grant.addition, Grant.isOpen_iff, Grant.headroom]

theorem grants_within {available : Nat} {cs : List Claimant} (h : ∀ c ∈ cs, c.q ≤ c.m ∧ (0 < c.q → c.f ≤ c.q)) :
    ∀ g ∈ grants available cs, Grant.Within g := pass2_within _ _ _ (pass1_within _ _ h)

/-- Both passes together give out at most what is available. -/
theorem grants_sum_le (available : Nat) (cs : List Claimant) : ((grants available cs).map Grant.power).sum ≤ available := by
  have h1 := pass1_sum available cs
  have h2 := pass2_sum (cs.length + 1) (pass1 available cs).2 (pass1 available cs).1
  unfold grants
  omega

theorem openCount_le (gs : List Grant) : openCount gs ≤ gs.length := List.length_filter_le _ _

/-- All is given out, or no grant above 0 could be larger (R65). -/
theorem grants_usesAll {available : Nat} {cs : List Claimant} (h : ∀ c ∈ cs, c.q ≤ c.m ∧ (0 < c.q → c.f ≤ c.q)) :
    ((grants available cs).map Grant.power).sum = available ∨
      ∀ g ∈ grants available cs, 0 < g.power → g.power = g.who.m := by
  have hlen : (pass1 available cs).1.length = cs.length := by
    rw [← List.length_map (f := Grant.who), pass1_who]
  have hopen : openCount (pass1 available cs).1 + 1 ≤ cs.length + 1 := by
    rw [← hlen]; exact Nat.succ_le_succ (openCount_le _)
  rcases pass2_usesAll _ (pass1 available cs).2 _ hopen with hall | hnone
  · exact .inl (hall.trans (pass1_sum available cs))
  · exact .inr (power_of_closed hnone (grants_within h))

/-- Settles O19: the passes give out at most what there is, each grant between F and M, and stop only with all given out or
no claimant open. -/
theorem grantsFitAndUseAll : Obligations.GrantsFitAndUseAll := by
  refine ⟨fun u d cs h => ⟨?_, ?_, grants_within h⟩, fun a cs => grants_usesAll, fun _ _ => rfl,
    fun reps rem k gs hk => ?_, fun rem g l => ⟨rfl, fun hr hp hm => ?_, fun h => ?_⟩⟩
  · rw [grants, pass2_who, pass1_who]
  · have := grants_sum_le (u - d) cs
    omega
  · obtain rfl : k = openCount gs := by rw [hk, openCount, Grant.isOpen_eq]
    refine ⟨fun h0 => ?_, fun h0 hle => ?_, fun h0 hlt => ?_⟩
    · rw [pass2, if_pos h0]
    · refine ⟨Grant.addition (rem / openCount gs), levelled (rem / openCount gs) gs, Grant.addition_eq _, rfl, ?_⟩
      rw [pass2, if_neg (by omega), if_pos (show 1 ≤ rem / openCount gs from Nat.div_pos hle h0)]
      rfl
    · rw [pass2, if_neg (by omega), if_neg (by rw [Nat.div_eq_of_lt hlt]; decide)]
  · rw [oneStepEach, if_pos ⟨hr, Grant.isOpen_iff.2 ⟨hp, hm⟩⟩]
  · rw [oneStepEach, if_neg fun hc => ?_]
    have := Grant.isOpen_iff.1 hc.2
    omega

/-! ### The own claim's fields -/

theorem HoldSet.isEmpty_iff {h : HoldSet} :
    h.isEmpty = true ↔ h.driver = false ∧ h.permit = false ∧ h.thermal = false ∧ h.meter = false := by
  simp [HoldSet.isEmpty, and_assoc]

theorem State.claimNow_hold {s : State} : s.claimNow.hold = true ↔ s.claimNow.reasons.driver = true ∨
    s.claimNow.reasons.permit = true ∨ s.claimNow.reasons.thermal = true ∨ s.claimNow.reasons.meter = true := by
  show (!s.holds.isEmpty) = true ↔ _
  simp only [HoldSet.isEmpty, State.claimNow]
  cases s.holds.driver <;> cases s.holds.permit <;> cases s.holds.thermal <;> cases s.holds.meter <;> decide

theorem State.claimNow_vacant {s : State} (h : s.session = none) : s.claimNow.phase = .vacant ∧ s.claimNow.q = 0 ∧
    s.claimNow.mEff = 0 ∧ s.claimNow.f = 0 ∧ s.claimNow.k = 0 ∧ s.claimNow.reasons = {} := by
  simp [State.claimNow, State.phase, State.holds, h]

/-- In FAULT, and under any hold reason, no power is asked for (R54). -/
theorem State.required_none {s : State} {x : Session} (h : x.phase = .fault ∨ x.holds.isEmpty = false) :
    s.required x = 0 := by
  unfold State.required
  refine if_pos ?_
  rcases h with h | h
  · exact .inl h
  · exact .inr (.inr (by simp [h]))

theorem State.claimNow_session {s : State} {x : Session} (h : s.session = some x) : s.claimNow.phase = x.phase ∧
    s.claimNow.mEff = s.thermal.mEff ∧ s.claimNow.f = x.floor ∧ s.claimNow.k = min x.departure 65535 ∧
    s.claimNow.reasons = x.holds ∧ (x.phase = .fault ∨ s.claimNow.hold = true → s.claimNow.q = 0) := by
  have hq : s.claimNow.q = s.required x := by simp only [State.claimNow, h]
  have hh : s.claimNow.hold = !x.holds.isEmpty := by simp only [State.claimNow, State.holds, h]
  refine ⟨by simp [State.claimNow, State.phase, h], by simp [State.claimNow, h], by simp [State.claimNow, h],
    by simp [State.claimNow, h], by simp [State.claimNow, State.holds, h], fun hc => ?_⟩
  rw [hq]
  refine State.required_none (hc.imp_right fun hc => ?_)
  rw [hh] at hc
  simpa using hc

/-- The required power before its clamping, by the cases of R55. -/
theorem requiredBefore_cases (phase : Phase) (window : Bool) (e t pp tp : Nat) :
    (phase = .precondition ∨ window = true →
      requiredBefore phase window e t pp tp = pp + ceilDiv (e * 36) (max t 600)) ∧
    (phase ≠ .precondition → window = false →
      (t = 0 → requiredBefore phase window e t pp tp = ceilDiv (e * 36) 600) ∧
      (0 < t → e = 0 → requiredBefore phase window e t pp tp = 0) ∧
      (0 < t → 0 < e → 0 < pp → requiredBefore phase window e t pp tp = ceilDiv (e * 36) (max (t - tp) 600)) ∧
      (0 < t → 0 < e → pp = 0 → requiredBefore phase window e t pp tp = ceilDiv (e * 36) (max t 600))) := by
  refine ⟨fun h => if_pos h, fun hp hw => ?_⟩
  have hno : ¬ (phase = .precondition ∨ window = true) := by simp [hp, hw]
  refine ⟨fun ht => ?_, fun ht he => ?_, fun ht he hpp => ?_, fun ht he hpp => ?_⟩ <;> rw [requiredBefore, if_neg hno]
  · rw [if_pos ht]; rfl
  · rw [if_neg ht.ne', if_pos he]
  · rw [if_neg ht.ne', if_neg he.ne', if_pos hpp]; rfl
  · rw [if_neg ht.ne', if_neg he.ne', if_neg (by omega)]; rfl

theorem adjustQ_cases (q m f : Nat) : (m = 0 → adjustQ q m f = 0) ∧
    (0 < m → 0 < min q m → min q m < f → adjustQ q m f = f) ∧
    (0 < m → min q m = 0 ∨ f ≤ min q m → adjustQ q m f = min q m) := by
  refine ⟨fun h => if_pos h, fun hm h0 hf => ?_, fun hm h => ?_⟩ <;> simp only [adjustQ] <;> rw [if_neg hm.ne']
  · rw [if_pos ⟨h0, hf⟩]
  · rw [if_neg (by omega)]

/-- Settles O20: the energy, the claim's fields, and the required power by its cases and its three adjustments. -/
theorem requiredPower : Obligations.RequiredPower := by
  refine ⟨fun a b hb => mul_ceilDiv_bounds a hb, fun s x counts running => ⟨rfl, ?_, rfl⟩, ?_, ?_⟩
  · rintro rfl
    exact ⟨rfl, fun _ _ => State.claimEnergy_cases, State.claimEnergy_open⟩
  · rintro s c rfl
    exact ⟨rfl, rfl, rfl, rfl, rfl, rfl, State.claimNow_hold, State.claimNow_vacant, fun _ => State.claimNow_session⟩
  · intro s x hx hv hf hh
    have hq : s.claimNow.q = adjustQ (requiredBefore x.phase x.preWindow (s.claimEnergy x) x.departure x.precondPower
        x.precondTime) s.thermal.mEff x.floor := by
      simp only [State.claimNow, hx, State.required]
      rw [if_neg (by simp [hv, hf, hh])]
    obtain ⟨hwin, hout⟩ := requiredBefore_cases x.phase x.preWindow (s.claimEnergy x) x.departure x.precondPower x.precondTime
    obtain ⟨hnone, hfloor, hplain⟩ := adjustQ_cases (requiredBefore x.phase x.preWindow (s.claimEnergy x) x.departure
      x.precondPower x.precondTime) s.thermal.mEff x.floor
    exact ⟨_, _, _, rfl, hwin, hout, rfl, fun h => hq.trans (hnone h), fun hm h0 h => hq.trans (hfloor hm h0 h),
      fun hm h => hq.trans (hplain hm h), fun h => hq ▸ ⟨adjustQ_le h, le_adjustQ⟩⟩

end Sys2Proof.Machine
end

section
/-! A claim formed and a passage of the standing unit: what each does to the line, to the share computer and to stage
control (R22, R27, R29, R34, R58, R112, R155, R156, R159, R163). -/

namespace Sys2Proof.Machine

/-! ### A frame placed -/

/-- Placing a frame is what R155, R156 and R159 say of the line engine. -/
theorem State.placeFrame_places (slot : Slot) (p : List Byte) (s : State) :
    s.line.Places (s.placeFrame slot p).line slot p where
  inSlot := s.placeFrame_outbox slot p
  idle h := by rw [s.placeFrame_idle slot p h]; exact ⟨rfl, rfl⟩
  waiting b w h := by rw [s.placeFrame_waiting slot p h]; exact ⟨rfl, h⟩
  sending a h := by
    simp only [State.placeFrame, h]
    by_cases hs : a.slot = slot
    · simp [hs, State.setSender, State.setSlot]
    · simp [hs, State.setSlot, h]
  others := by obtain ⟨_, _, h⟩ := s.placeFrame_line slot p; rw [h]

theorem State.formClaim_places {s : State} (ho : s.stand.standing.onLine = true) :
    s.line.Places s.formClaim.line .claim s.claimNow.payload := by
  rw [s.formClaim_line ho]; exact s.placeFrame_places _ _

theorem State.choose_fst_congr {s t : State} (hc : t.choices = s.choices) (hf : t.freeCount = s.freeCount) :
    t.choose.1 = s.choose.1 := by
  unfold State.choose
  rw [hc, hf]
  cases s.choices <;> rfl

/-- What a claim is formed from (R54 to R58). -/
theorem State.claimNow_congr {s t : State} (hu : t.stand = s.stand) (hx : t.session = s.session)
    (hth : t.thermal = s.thermal) (hsh : t.share = s.share) (hm : t.meter = s.meter) (hset : t.settings = s.settings)
    (hc : t.choices = s.choices) (hf : t.freeCount = s.freeCount) : t.claimNow = s.claimNow := by
  have hcfg : t.cfg = s.cfg := by simp only [State.cfg, hset]
  have hask : t.asksUncredited = s.asksUncredited := by
    simp only [State.asksUncredited, State.choose_fst_congr hc hf]
  have hrun : ∀ x, t.runningWh x = s.runningWh x := fun x => by
    simp only [State.runningWh, State.runningCounts, State.whOf, hcfg, hm]
  have hrem : ∀ x, t.remaining x = s.remaining x := fun x => by
    simp only [State.remaining, State.deliveredWh, State.whOf, hcfg]
  have henergy : ∀ x, t.claimEnergy x = s.claimEnergy x := fun x => by
    rw [State.claimEnergy, State.claimEnergy, hrun, hrem, hask]
  have hreq : ∀ x, t.required x = s.required x := fun x => by simp only [State.required, henergy, hth]
  simp only [State.claimNow, State.phase, State.holds, hu, hx, hth, hsh, hreq]

/-! ### Stage control where the permission stands -/

/-- Permission evaluated where stage control already follows it changes nothing (R112, R113). -/
theorem State.evalPermission_still {s : State} (he : s.stage.enable = s.permission)
    (hs : s.permission = false → s.stage.applied = 0 ∧ s.stage.pendingIncrease = none)
    (hw : s.stage.wordSent = s.stage.word) (hd : s.stage.sliceDriven = true → s.stage.enable = true) :
    s.evalPermission = s := by
  have hsame : ∀ g : StageControl, g = s.stage → ({ s with stage := g } : State) = s := by rintro _ rfl; rfl
  have hmatch : (if s.permission then { s with stage := { s.stage with enable := true } }
      else { s with stage := { s.stage with enable := false, applied := 0, pendingIncrease := none } } : State) = s := by
    split
    · next hp => exact hsame _ (by rw [← hp, ← he])
    · next hp =>
      have hp : s.permission = false := by simpa using hp
      obtain ⟨ha, hi⟩ := hs hp
      exact hsame _ (by rw [← hp, ← he, ← ha, ← hi])
  rw [State.evalPermission, hmatch, State.sendIfChanged, if_pos hw.symm]
  have hdriven : (s.stage.sliceDriven && s.stage.enable) = s.stage.sliceDriven := by
    cases h : s.stage.sliceDriven with
    | true => exact hd h
    | false => rfl
  rw [hdriven]

theorem State.DrawSafe.evalPermission {s t : State} (h : s.DrawSafe) (hg : t.stage = s.stage)
    (hp : t.permission = s.permission) : t.evalPermission = t :=
  State.evalPermission_still (by rw [hg, hp]; exact h.enable) (by rw [hg, hp]; exact h.still) (by rw [hg]; exact h.word)
    (by rw [hg]; exact fun hd => (h.driven hd).1)

/-! ### A passage of the standing between round ends -/

/-- The passages a frame of a peer brings: ISOLATED to REJOINING, CUTOFF to LISTENING (R27, R29). -/
structure State.Passed (s u : State) : Prop where
  onLine : s.onLine = true
  whole : u = { s with stand := u.stand, timer := { s.timer with aligned := u.timer.aligned } }
  moved : (s.stand.standing = .isolated ∧ u.stand.standing = .rejoining ∧ u.timer.aligned = s.timer.aligned) ∨
    (s.stand.standing = .cutoff ∧ u.stand.standing = .listening ∧ u.timer.aligned = false)

namespace State.Passed
variable {s u : State} (h : s.Passed u)
include h

theorem ne : u.stand.standing ≠ s.stand.standing := by
  rcases h.moved with ⟨h1, h2, -⟩ | ⟨h1, h2, -⟩ <;> rw [h1, h2] <;> decide

theorem hears : u.stand.standing.onLine = true := by
  rcases h.moved with ⟨-, h2, -⟩ | ⟨-, h2, -⟩ <;> rw [h2] <;> rfl

theorem aligned : u.timer.aligned =
    (s.timer.aligned && !(s.stand.standing == .cutoff && u.stand.standing == .listening)) := by
  rcases h.moved with ⟨h1, h2, h3⟩ | ⟨h1, h2, h3⟩ <;> rw [h1, h2, h3] <;> simp

/-- Either both standings draw or neither does (R112). -/
theorem permission : u.permission = s.permission := by
  have hd : u.stand.standing.draws = s.stand.standing.draws := by
    rcases h.moved with ⟨h1, h2, -⟩ | ⟨h1, h2, -⟩ <;> rw [h1, h2] <;> rfl
  have hp : u.phase = s.phase := by rw [h.whole]; rfl
  have hi : u.pins = s.pins := by rw [h.whole]
  rw [State.permission, State.permission, hd, hp, hi]

end State.Passed

/-- A claim formed and the permission evaluated, the state after it by what changes. -/
theorem State.formEval_spec {u : State} (ho : u.stand.standing.onLine = true) :
    u.formClaim.evalPermission.share =
        { u.share with ownClaim := some u.claimNow, sequence := (u.share.sequence + 1) % 256 } ∧
      u.line.Places u.formClaim.evalPermission.line .claim u.claimNow.payload ∧
      u.formClaim.evalPermission.stand = u.stand ∧ u.formClaim.evalPermission.timer = u.timer := by
  refine ⟨?_, ?_, by simp, by simp⟩
  · rw [State.evalPermission_share]; exact (u.formClaim_spec ho).1
  · rw [State.evalPermission_line]; exact State.formClaim_places ho

/-- A frame heard brings no passage, or one with a claim formed and the permission evaluated (R22, R34, R59). -/
theorem State.standingTakes_cases (s : State) (b : Nat) :
    ((s.standingTakes b).stand.standing = s.stand.standing ∧
      s.standingTakes b = { s with stand := (s.standingTakes b).stand }) ∨
    ∃ u, s.Passed u ∧ s.standingTakes b = u.formClaim.evalPermission := by
  by_cases hpass : s.onLine = true ∧ 1 ≤ b ∧ b ≤ s.cfg.n ∧ b ≠ s.cfg.bay ∧
      (s.stand.standing = .isolated ∨ s.stand.standing = .cutoff)
  · obtain ⟨ho, h1, hn, hb, hs⟩ := hpass
    right
    rw [State.standingTakes_peer ho h1 hn hb]
    rcases hs with hs | hs
    · rw [hs]; refine ⟨_, ?_, rfl⟩; exact ⟨ho, rfl, .inl ⟨hs, rfl, rfl⟩⟩
    · rw [hs]; refine ⟨_, ?_, rfl⟩; exact ⟨ho, rfl, .inr ⟨hs, rfl, rfl⟩⟩
  · left
    have honly := s.standingTakes_standOnly b fun ho h1 hn hb =>
      ⟨fun hs => hpass ⟨ho, h1, hn, hb, .inl hs⟩, fun hs => hpass ⟨ho, h1, hn, hb, .inr hs⟩⟩
    refine ⟨?_, honly⟩
    rw [s.standingTakes_stand b]
    split
    · next hb =>
      split
      · rfl
      · next hne =>
        split
        · next hs => exact absurd ⟨hb.1, hb.2.1, hb.2.2, hne, .inl hs⟩ hpass
        · next hs => exact absurd ⟨hb.1, hb.2.1, hb.2.2, hne, .inr hs⟩ hpass
        · rfl
    · rfl

/-- What is applied and waits stands through a frame heard, where nothing is applied or waits without permission. -/
theorem State.standingTakes_applied {s : State} (b : Nat)
    (h : s.permission = false → s.stage.applied = 0 ∧ s.stage.pendingIncrease = none) :
    (s.standingTakes b).stage.applied = s.stage.applied ∧
      (s.standingTakes b).stage.pendingIncrease = s.stage.pendingIncrease := by
  rcases s.standingTakes_cases b with ⟨-, e⟩ | ⟨u, hu, e⟩
  · rw [e]; exact ⟨rfl, rfl⟩
  · rw [e]
    have hg : u.formClaim.stage = s.stage := by rw [State.formClaim_stage, hu.whole]
    have hp : u.formClaim.permission = s.permission :=
      (State.permission_congr (by simp) (by simp) (by simp)).trans hu.permission
    cases hperm : s.permission with
    | true =>
      obtain ⟨-, ha, hi⟩ := State.evalPermission_on _ (hp.trans hperm)
      rw [ha, hi, hg]; exact ⟨rfl, rfl⟩
    | false =>
      obtain ⟨-, ha, hi, -⟩ := State.evalPermission_off _ (hp.trans hperm)
      obtain ⟨h1, h2⟩ := h hperm
      rw [ha, hi, h1, h2]; exact ⟨rfl, rfl⟩

/-- What the standing unit's part does to a state that differs from `s` in its line engine alone. -/
theorem State.standingTakes_of_line {s w : State} (b : Nat) (hw : w = { s with line := w.line }) :
    (w.standingTakes b).stand = (s.standingTakes b).stand ∧
      (w.standingTakes b) = { s with
        timer := { s.timer with aligned := (w.standingTakes b).timer.aligned }, stand := (w.standingTakes b).stand
        share := (w.standingTakes b).share, stage := (w.standingTakes b).stage, line := (w.standingTakes b).line
        out := (w.standingTakes b).out } ∧
      (w.standingTakes b).share.allotment = s.share.allotment := by
  refine ⟨State.standingTakes_stand_congr (by rw [hw]) (by rw [hw]) b, ?_, ?_⟩
  · obtain ⟨al, sd, sh, li, g, o, e⟩ := w.standingTakes_whole b
    rw [e, hw]
  · rw [State.standingTakes_allotment, hw]

/-! ### Malformed frames -/

theorem noticeFields_malformed {p : List Byte} (h : p.length ≠ 11) : noticeFields p = none := by
  unfold noticeFields
  split
  · exact absurd rfl h
  · rfl

theorem limitFields_malformed {p : List Byte} (h : p.length ≠ 7) : limitFields p = none := by
  unfold limitFields
  split
  · exact absurd rfl h
  · rfl

theorem State.setupTaken_malformed {s : State} {p : List Byte}
    (h : p.length ≠ 10 ∨ ∃ a, p[4]? = some a ∧ a ≠ 1 ∧ a ≠ 2 ∧ a ≠ 3) : s.setupTaken p = s.countLineError := by
  unfold State.setupTaken
  split
  · next action _ _ _ _ _ =>
    obtain ⟨a, ha, h1, h2, h3⟩ := h.resolve_left (by simp)
    obtain rfl : action = a := by simpa using ha
    simp only []
    split
    · next e => exact absurd (BitVec.eq_of_toNat_eq e) h1
    · next e => exact absurd (BitVec.eq_of_toNat_eq e) h2
    · next e => exact absurd (BitVec.eq_of_toNat_eq e) h3
    · rfl
  · rfl

/-- A frame that is counted as a line error and goes to the standing unit alone. -/
theorem State.countedHeard (s : State) (k : FrameKind) (b : Nat) : ∃ t,
    t = ((s.takeFrame k b).countLineError.standingTakes b) ∧
      t.line.counters.lineErrors = min 65535 (s.line.counters.lineErrors + 1) ∧
      t.stand = (s.standingTakes b).stand ∧
      t = { s with
        timer := { s.timer with aligned := t.timer.aligned }, stand := t.stand, share := t.share
        stage := t.stage, line := t.line, out := t.out } ∧
      t.share.allotment = s.share.allotment := by
  obtain ⟨hs, hw, ha⟩ := State.standingTakes_of_line (s := s) (w := (s.takeFrame k b).countLineError) b rfl
  exact ⟨_, rfl, by rw [State.standingTakes_counters]; rfl, hs, hw, ha⟩

/-- Settles O29: each is counted before anything is read of it, and the standing unit takes it as any frame. -/
theorem malformedFrames : Obligations.MalformedFrames := by
  refine ⟨fun s bay payload c hc => ?_, fun s bay payload hp => ?_⟩
  · rcases hc with ⟨rfl, hl⟩ | ⟨rfl, hl⟩
    · obtain ⟨t, ht, h⟩ := s.countedHeard .notice bay.toNat
      refine ⟨t, ?_, h⟩
      show Host.Outcome.next ((s.takeFrame .notice bay.toNat).deliverNotice bay.toNat payload) = _
      rw [State.deliverNotice, noticeFields_malformed hl, ht]
    · obtain ⟨t, ht, h⟩ := s.countedHeard .limit bay.toNat
      refine ⟨t, ?_, h⟩
      show Host.Outcome.next ((s.takeFrame .limit bay.toNat).deliverLimit bay.toNat payload) = _
      rw [State.deliverLimit, limitFields_malformed hl, ht]
  · obtain ⟨t, ht, h⟩ := s.countedHeard .setup bay.toNat
    refine ⟨t, ?_, h⟩
    show Host.Outcome.next (((s.takeFrame .setup bay.toNat).setupTaken payload).standingTakes bay.toNat) = _
    rw [State.setupTaken_malformed hp, ht]

/-! ### A REPLY, which the standing unit alone takes -/

theorem StandingUnit.hears_false (u : StandingUnit) : u.hears false = { u with
    roundHeard := true, listenHeard := u.listenHeard || u.standing == .listening } := by
  simp [StandingUnit.hears]

/-- Settles O30: the cases of the standing unit's part, read off its equations for the own bay and for a peer's. -/
theorem standingUnitHears : Obligations.StandingUnitHears := by
  intro s bay payload
  have hexec : exec (.replyFrame bay payload) s = .next ((s.takeFrame .reply bay.toNat).standingTakes bay.toNat) := rfl
  generalize hw : s.takeFrame .reply bay.toNat = w at hexec
  have hline : w = { s with line := w.line } := by rw [← hw]; rfl
  have houtbox : w.line.outbox = s.line.outbox := by rw [← hw]; rfl
  obtain ⟨hstand, hwhole, hallot⟩ := State.standingTakes_of_line (s := s) bay.toNat hline
  have hon : w.onLine = s.onLine := by rw [hline]; rfl
  have hcfg : w.cfg = s.cfg := by rw [hline]; rfl
  have hst : w.stand = s.stand := by rw [hline]
  refine ⟨_, hexec, hstand, fun h => ?_, fun ho h1 hn hb => ?_, fun ho h1 hn hb => ?_, hwhole, hallot⟩
  · rw [State.standingTakes_unheard (by rw [hon, hcfg]; exact h), hline]
  · rw [State.standingTakes_own (hon.trans ho) h1 (hcfg ▸ hn) (hcfg ▸ hb), hline]
    exact ⟨rfl, by simp [StandingUnit.hears]⟩
  · have e := State.standingTakes_peer (hon.trans ho) h1 (hcfg ▸ hn) (hcfg ▸ hb)
    rw [hst] at e
    have heard : (w.standingTakes bay.toNat).stand.roundHeard = true ∧
        (w.standingTakes bay.toNat).stand.bayClash = s.stand.bayClash := by
      rw [hstand, State.standingTakes_stand, if_pos ⟨ho, h1, hn⟩, if_neg hb]
      split <;> simp [StandingUnit.hears, State.enterListening]
    obtain ⟨hheard, hclash⟩ := heard
    refine ⟨hheard, hclash, fun hs => ?_, fun hs => ?_, fun hs hc => ?_⟩
    · rw [hs] at e
      generalize hu : ({ w with stand := { s.stand.hears false with
        standing := .rejoining, silentStreak := 0, rejoinCount := 0 } } : State) = u at e
      obtain ⟨hshare, hplaces, hstd, htimer⟩ := State.formEval_spec (u := u) (by rw [← hu]; rfl)
      have hclaim : ({ s with stand := u.stand } : State).claimNow = u.claimNow := by
        rw [← hu]
        refine State.claimNow_congr rfl ?_ ?_ ?_ ?_ ?_ ?_ ?_ <;> rw [hline]
      have hul : u.line = w.line := by rw [← hu]
      rw [e, hstd, htimer, hshare, hclaim, ← hul]
      refine ⟨?_, ?_, ?_, ?_, ?_, ?_, rfl, hplaces⟩
      all_goals rw [← hu]
      · rfl
      · rw [hline]
      · rw [hline]
    · rw [hs] at e
      generalize hu : ({ w with stand := s.stand.hears false } : State).enterListening = u at e
      obtain ⟨hshare, hplaces, hstd, htimer⟩ := State.formEval_spec (u := u) (by rw [← hu]; rfl)
      have hclaim : ({ s with stand := u.stand } : State).claimNow = u.claimNow := by
        rw [← hu]
        refine State.claimNow_congr rfl ?_ ?_ ?_ ?_ ?_ ?_ ?_ <;> rw [hline] <;> rfl
      have hul : u.line = w.line := by rw [← hu]; rfl
      rw [e, hstd, htimer, hshare, hclaim, ← hul]
      refine ⟨?_, ?_, ?_, ?_, ?_, ?_, ?_, ?_, ?_, rfl, hplaces⟩
      all_goals rw [← hu]
      all_goals first | rfl | (rw [hline]; rfl)
    · have hother : w.standingTakes bay.toNat = { w with stand := s.stand.hears false } := by
        rw [e]
        cases hst : s.stand.standing with
        | isolated => exact absurd hst hs
        | cutoff => exact absurd hst hc
        | _ => rfl
      rw [hother]
      exact ⟨by rw [hline], houtbox, StandingUnit.hears_false _⟩

end Sys2Proof.Machine
end

section
/-! LIMIT frames, MARK and CLAIM frames not taken, and requests: what each block takes of them, beside the standing unit
(R10, R15, R32, R37, R105, R106, R168 to R180). -/

namespace Sys2Proof.Machine

/-! ### The standing unit beside another block's part -/

theorem State.standingTakes_mark (s : State) (b : Nat) : (s.standingTakes b).line.outbox.mark = s.line.outbox.mark := by
  obtain ⟨_, e⟩ := s.standingTakes_outbox b; rw [e]

theorem State.standingTakes_reply (s : State) (b : Nat) : (s.standingTakes b).line.outbox.reply = s.line.outbox.reply := by
  obtain ⟨_, e⟩ := s.standingTakes_outbox b; rw [e]

theorem State.standingTakes_postSlice (s : State) (b : Nat) :
    (s.standingTakes b).share.postSlice = s.share.postSlice := by
  rcases s.standingTakes_cases b with ⟨-, e⟩ | ⟨u, hu, e⟩
  · rw [e]
  · rw [e, State.evalPermission_share, State.formClaim_postSlice, hu.whole]

/-- Without a change of standing the standing unit's part changes the standing unit alone. -/
theorem State.standingTakes_unmoved {s : State} {b : Nat}
    (h : (s.standingTakes b).stand.standing = s.stand.standing) :
    s.standingTakes b = { s with stand := (s.standingTakes b).stand } := by
  rcases s.standingTakes_cases b with ⟨-, e⟩ | ⟨u, hu, e⟩
  · exact e
  · refine absurd ?_ hu.ne
    rw [← h, e, State.evalPermission_stand, State.formClaim_stand]

theorem State.evalPermission_congr {s t : State} (hp : t.permission = s.permission) (hg : t.stage = s.stage)
    (ho : t.out = s.out) : t.evalPermission.stage = s.evalPermission.stage ∧ t.evalPermission.out = s.evalPermission.out := by
  unfold State.evalPermission State.sendIfChanged State.sendWord
  rw [hp, hg, ho]
  cases s.permission
  · simp only [Bool.false_eq_true, if_false]
    split <;> exact ⟨rfl, rfl⟩
  · simp only [if_true]
    split <;> exact ⟨rfl, rfl⟩

/-- What stage control, the timer and the outputs are after the standing unit's part (R34, R112). -/
theorem State.standingTakes_stage_congr {s t : State} (hu : t.stand = s.stand) (hset : t.settings = s.settings)
    (hx : t.session = s.session) (hpin : t.pins = s.pins) (ht : t.timer = s.timer) (hg : t.stage = s.stage)
    (ho : t.out = s.out) (b : Nat) : (t.standingTakes b).timer = (s.standingTakes b).timer ∧
      (t.standingTakes b).stage = (s.standingTakes b).stage ∧ (t.standingTakes b).out = (s.standingTakes b).out := by
  have hcfg : t.cfg = s.cfg := by simp only [State.cfg, hset]
  have passed : ∀ v w : State, v.permission = w.permission → v.timer = w.timer → v.stage = w.stage → v.out = w.out →
      v.formClaim.evalPermission.timer = w.formClaim.evalPermission.timer ∧
      v.formClaim.evalPermission.stage = w.formClaim.evalPermission.stage ∧
      v.formClaim.evalPermission.out = w.formClaim.evalPermission.out := by
    intro v w hp h1 h2 h3
    have hf : ∀ r : State, r.formClaim.permission = r.permission := fun r =>
      State.permission_congr (by simp) (by simp) (by simp)
    obtain ⟨e2, e3⟩ := State.evalPermission_congr (s := w.formClaim) (t := v.formClaim) (by rw [hf, hf, hp])
      (by simp [h2]) (by simp [h3])
    exact ⟨by simp [h1], e2, e3⟩
  simp only [State.standingTakes, State.isStation, hu, hcfg]
  split
  · split
    · exact ⟨ht, hg, ho⟩
    · split
      · exact passed _ _ (by simp only [State.permission, State.phase, hx, hpin]) ht hg ho
      · refine passed _ _ ?_ ?_ hg ho
        · simp only [State.permission, State.phase, State.enterListening, hx, hpin]
        · simp only [State.enterListening, ht]
      · exact ⟨ht, hg, ho⟩
  · exact ⟨ht, hg, ho⟩

/-! ### LIMIT -/

/-- The notice unit's part of a LIMIT: the clock, then on line the override or a line error (R15, R105, R106). -/
theorem State.limitTaken_spec (w : State) (f : LimitFields) : ∃ u, w.limitTaken f = u ∧
    u = { w with timer := u.timer, notices := u.notices, line := u.line } ∧
    u.timer = { w.timer with
      clock := if f.dispatch < 86400 then some f.dispatch else w.timer.clock
      subSecond := if f.dispatch < 86400 then 0 else w.timer.subSecond } ∧
    u.notices.table = w.notices.table ∧
    (w.onLine = false → u.notices = w.notices ∧ u.line.counters.lineErrors = w.line.counters.lineErrors) ∧
    (w.onLine = true → f.rounds = 0 → u.notices = w.notices ∧
      u.line.counters.lineErrors = min 65535 (w.line.counters.lineErrors + 1)) ∧
    (w.onLine = true → 0 < f.rounds → u.line.counters.lineErrors = w.line.counters.lineErrors ∧
      u.notices.override = some ⟨min w.cfg.feederLimit f.value, min f.rounds 360⟩) := by
  obtain ⟨u, hu, hwhole, htimer⟩ := w.dispatchClock_spec f.dispatch
  have hcfg : u.cfg = w.cfg := by rw [hwhole]; rfl
  refine ⟨_, rfl, ?_⟩
  simp only [State.limitTaken, hu, hcfg]
  split
  · next ho =>
    have hoff : ¬ w.onLine = false := by rw [show w.onLine = true from ho]; decide
    split
    · next hr => exact ⟨by rw [hwhole]; rfl, htimer, by rw [hwhole]; rfl, fun h => absurd h hoff,
        fun _ _ => ⟨by rw [hwhole]; rfl, by rw [hwhole]; rfl⟩, fun _ h => absurd hr h.ne'⟩
    · next hr => exact ⟨by rw [hwhole], htimer, by rw [hwhole], fun h => absurd h hoff, fun _ h => absurd h hr,
        fun _ _ => ⟨by rw [hwhole], rfl⟩⟩
  · next ho => exact ⟨by rw [hwhole], htimer, by rw [hwhole], fun _ => ⟨by rw [hwhole], by rw [hwhole]⟩,
      fun h => absurd h ho, fun h => absurd h ho⟩

/-- Settles O28: the notice unit's part, and after it the standing unit's, neither reading what the other writes. -/
theorem limitTaken : Obligations.LimitTaken := by
  rintro s bay v1 v0 r1 r0 c2 c1 c0 value rounds dispatch rfl rfl rfl
  obtain ⟨u, hu, hwhole, htimer, htable, hoff, hzero, hset⟩ := (s.takeFrame .limit bay.toNat).limitTaken_spec
    ⟨numBE [v1, v0], numBE [r1, r0], numBE [c2, c1, c0]⟩
  have hexec : exec (.limitFrame bay [v1, v0, r1, r0, c2, c1, c0]) s = .next (u.standingTakes bay.toNat) := by
    rw [← hu]; rfl
  obtain ⟨al, sd, sh, li, g, o, e⟩ := u.standingTakes_whole bay.toNat
  simp only [numBE_two, numBE_three] at htimer hoff hzero hset
  refine ⟨_, hexec, State.standingTakes_stand_congr (by rw [hwhole]; rfl) (by rw [hwhole]; rfl) _, ?_, ?_, ?_, ?_, ?_, ?_, ?_, ?_, ?_⟩
  · rw [e]; simp only [htimer]; rfl
  · rw [State.standingTakes_notices, htable]; rfl
  · intro h; rw [State.standingTakes_notices, State.standingTakes_counters]; exact hoff h
  · intro h h0; rw [State.standingTakes_notices, State.standingTakes_counters]; exact hzero h h0
  · intro h h0; rw [State.standingTakes_notices, State.standingTakes_counters]; exact hset h h0
  · rw [State.standingTakes_allotment, hwhole]; rfl
  · rw [State.standingTakes_meter, hwhole]; rfl
  · intro h
    have hstage : u.stage = s.stage := by rw [hwhole]; rfl
    have hperm : u.permission = s.permission := State.permission_congr (by rw [hwhole]; rfl) (by rw [hwhole]; rfl) (by rw [hwhole]; rfl)
    rw [← hstage]
    exact State.standingTakes_applied _ (by rw [hperm, hstage]; exact h)
  · rw [e]; simp only; rw [hwhole]; rfl

/-! ### MARK and CLAIM frames that the round timer and the peer table do not take -/

theorem markField_malformed {p : List Byte} (h : p.length ≠ 3) : markField p = none := by
  unfold markField
  split
  · exact absurd rfl h
  · rfl

theorem markField_of_length {p : List Byte} (h : p.length = 3) : ∃ n, markField p = some n := by
  obtain ⟨a, b, c, rfl⟩ := List.length_eq_three.1 h
  exact ⟨_, rfl⟩

/-- In a state with an UNSET clock a second of day sets it; any other MARK field is left (R16). -/
theorem State.markClock_spec (s : State) (n : Nat) : s.markClock n = { s with timer :=
    if s.timer.clock = none ∧ n < 86400 then { s.timer with clock := some n, subSecond := 0 } else s.timer } := by
  unfold State.markClock clockOfField Config.daySeconds
  by_cases hn : n < 86400
  · cases hc : s.timer.clock with
    | none => simp [hn, State.setClock]
    | some c => simp
  · cases hc : s.timer.clock with
    | none => simp [hn]
    | some c => simp

theorem State.peersTake_still {s : State} {b : Nat} {p : List Byte}
    (h : s.onLine = false ∨ b = 0 ∨ s.cfg.n < b ∨ b = s.cfg.bay) : s.peersTake b p = s := by
  unfold State.peersTake
  refine if_neg fun hc => ?_
  simp only [Bool.and_eq_true, State.isStation, Bool.not_eq_true', decide_eq_true_eq, decide_eq_false_iff_not] at hc
  obtain ⟨⟨ho, h1, hn⟩, hb⟩ := hc
  rcases h with h | h | h | h
  · exact absurd ((show s.onLine = true from ho).symm.trans h) (by decide)
  · omega
  · omega
  · exact hb h

theorem State.deliverMark_malformed {s : State} {b : Nat} {p : List Byte} (h : p.length ≠ 3) :
    s.deliverMark b p = s.countLineError.standingTakes b := by
  rw [State.deliverMark, markField_malformed h]

/-- On line a MARK of no bay in 1..N is nobody's (R10, R22). -/
theorem State.deliverMark_foreign {s : State} {b : Nat} {p : List Byte} (h : p.length = 3) (ho : s.onLine = true)
    (hb : b = 0 ∨ s.cfg.n < b) : s.deliverMark b p = s := by
  obtain ⟨n, hn⟩ := markField_of_length h
  have hpeer : s.isMarkPeer b = false := by
    rw [State.isMarkPeer, if_pos (show s.stand.standing.onLine = true from ho), State.isStation]
    exact decide_eq_false (by omega)
  simp only [State.deliverMark, hn]
  rw [if_neg (by rw [hpeer]; decide), State.standingTakes_outside hb]

/-- Off line a MARK of a bay in 1..31 sets an UNSET clock, and that is all (R10, R16). -/
theorem State.deliverMark_offLine {s : State} {b n : Nat} {p : List Byte} (hp : markField p = some n)
    (ho : s.onLine = false) (hr : s.timer.running = false) : s.deliverMark b p = { s with timer :=
      if s.timer.clock = none ∧ n < 86400 ∧ 1 ≤ b ∧ b ≤ 31
      then { s.timer with clock := some n, subSecond := 0 } else s.timer } := by
  have hoff : s.stand.standing.onLine = false := ho
  have heq : s.deliverMark b p = if 1 ≤ b ∧ b ≤ 31 then s.markClock n else s := by
    simp only [State.deliverMark, hp, State.isMarkPeer, hoff, Bool.false_eq_true, if_false, decide_eq_true_eq, hr,
      State.standingTakes_offLine ho]
    split
    · exact State.standingTakes_offLine (by rw [State.markClock_spec]; exact ho) b
    · rfl
  rw [heq, State.markClock_spec]
  by_cases hb : 1 ≤ b ∧ b ≤ 31
  · simp [hb]
  · rw [if_neg hb, if_neg fun hc => hb hc.2.2]

/-- Settles O25: a MARK is malformed, foreign, or off line, and a CLAIM is the own one or nobody's; in each case the round
timer and the peer table are left out. -/
theorem framesNotTaken : Obligations.FramesNotTaken := by
  refine ⟨fun s bay payload temps => ?_, fun s bay payload h => ?_⟩
  · have hexec : exec (.markFrame bay payload temps) s =
        .next (((s.setTemps temps).takeFrame .mark bay.toNat).deliverMark bay.toNat payload) := rfl
    refine ⟨_, hexec, fun hl => ?_, fun hl ho hb => ?_, ?_⟩
    · rw [State.deliverMark_malformed hl]
      generalize hw : ((s.setTemps temps).takeFrame .mark bay.toNat).countLineError = w
      have hwhole : w = { s with pins := { s.pins with temps := temps }, line := w.line } := by rw [← hw]; rfl
      have hout : w.line.outbox = s.line.outbox := by rw [← hw]; rfl
      obtain ⟨al, sd, sh, li, g, o, e⟩ := w.standingTakes_whole bay.toNat
      refine ⟨?_, ?_, State.standingTakes_stand_congr (by rw [hwhole]) (by rw [hwhole]) _, ?_, ?_, fun hs => ?_, ?_, ?_, ?_⟩
      · rw [State.standingTakes_counters, ← hw]; rfl
      · rw [e, hwhole]
      · rw [State.standingTakes_allotment, hwhole]
      · rw [State.standingTakes_postSlice, hwhole]
      · have hu := State.standingTakes_unmoved (s := w) (b := bay.toNat) (by rw [hs, hwhole])
        rw [hu, hwhole]
        exact ⟨rfl, rfl, rfl⟩
      · rw [State.standingTakes_mark, hout]
      · rw [State.standingTakes_reply, hout]
      · rw [e, hwhole]
    · rw [State.deliverMark_foreign hl (by exact ho) (by exact hb)]
      exact ⟨rfl, rfl, rfl⟩
    · rintro c2 c1 c0 rfl ho hr
      rw [State.deliverMark_offLine rfl (by exact ho) (by exact hr)]
      refine ⟨rfl, rfl, rfl, ?_⟩
      rintro field rfl
      rw [numBE_three]
      rfl
  · have hexec : exec (.claimFrame bay payload) s =
        .next (((s.takeFrame .claim bay.toNat).peersTake bay.toNat payload).standingTakes bay.toNat) := rfl
    rw [State.peersTake_still (by exact h)] at hexec
    refine ⟨_, hexec, ?_⟩
    by_cases hown : s.onLine = true ∧ 1 ≤ bay.toNat ∧ bay.toNat ≤ s.cfg.n
    · obtain ⟨ho, h1, hn⟩ := hown
      have hb : bay.toNat = s.cfg.bay := by
        rcases h with h | h | h | h
        · exact absurd (ho.symm.trans h) (by decide)
        · omega
        · omega
        · exact h
      rw [State.standingTakes_own (by exact ho) h1 (by exact hn) (by exact hb)]
      refine ⟨rfl, rfl, rfl, fun _ _ _ _ => ?_, fun h => ?_⟩
      · simp [StandingUnit.hears]
      · rcases h with h | h | h
        · exact absurd (ho.symm.trans h) (by decide)
        · omega
        · omega
    · have hun : s.onLine = false ∨ bay.toNat = 0 ∨ s.cfg.n < bay.toNat := by
        cases ho : s.onLine with
        | false => exact .inl rfl
        | true =>
          right
          by_contra hc
          exact hown ⟨ho, by omega, by omega⟩
      rw [State.standingTakes_unheard (by exact hun)]
      exact ⟨rfl, rfl, rfl, fun ho h1 hn _ => absurd ⟨ho, h1, hn⟩ hown, fun _ => rfl⟩

end Sys2Proof.Machine
end

section
/-! Requests: a QUERY and the three SETUP actions, decided or not (R168 to R180). -/

namespace Sys2Proof.Machine

/-! ### A reply formed -/

/-- A reply with no items is one part with an empty body (R171). -/
theorem replyParts_nil (serial : BitVec 32) (tag : Byte) (code : ReplyCode) (subject : Byte) :
    replyParts serial tag code subject [] =
      [bytesBE 4 serial.toNat ++ [tag, BitVec.ofNat 8 code.code, subject, 1, 1]] := by
  simp [replyParts, cutParts, partPayloads, bytesBE]

/-- A reply formed occupies the pending reply, and its first part takes the REPLY slot (R173). -/
theorem State.sendReply_spec (u : State) (k : RequestKind) (tag : Byte) (code : ReplyCode) (subject : Byte)
    (items : List (List Byte)) : ∃ r, u.sendReply k tag code subject items = r ∧
      r = { u with line := r.line, inspect := r.inspect } ∧
      r.inspect = { u.inspect with pendingReply := some ⟨replyParts u.store.serial tag code subject items, 1, k⟩ } ∧
      u.line.Places r.line .reply ((replyParts u.store.serial tag code subject items).headD []) := by
  refine ⟨_, rfl, ?_, ?_, State.placeFrame_places .reply _
    (u.setReply (some ⟨replyParts u.store.serial tag code subject items, 1, k⟩))⟩
  · obtain ⟨_, _, e⟩ := State.sendReply_frame k tag code subject items u; rw [e]
  · simp only [State.sendReply, State.placeFrame_inspect]; rfl

/-- A reply with no items, its part named. -/
theorem State.setupReply_spec (u : State) (k : RequestKind) (code : ReplyCode) (action : Byte) : ∃ r part,
    u.setupReply k code action = r ∧
      part = bytesBE 4 u.store.serial.toNat ++ [0, BitVec.ofNat 8 code.code, action, 1, 1] ∧
      r = { u with line := r.line, inspect := r.inspect } ∧
      r.inspect = { u.inspect with pendingReply := some ⟨[part], 1, k⟩ } ∧ u.line.Places r.line .reply part := by
  obtain ⟨r, hr, hwhole, hinspect, hplaces⟩ := u.sendReply_spec k 0 code action []
  rw [replyParts_nil] at hinspect hplaces
  exact ⟨r, _, hr, rfl, hwhole, hinspect, hplaces⟩

theorem LineEngine.Places.reply {l m : LineEngine} {p : List Byte} (h : l.Places m .reply p) :
    m.outbox = { l.outbox with reply := some ⟨p, 0⟩ } := h.inSlot

theorem LineEngine.Places.counters {l m : LineEngine} {slot : Slot} {p : List Byte} (h : l.Places m slot p) :
    m.counters = l.counters := by rw [h.others]

/-! ### SETUP decided -/

/-- A SETUP to the own serial with no reply pending is decided (R177). -/
theorem State.setupFor_own {w : State} (h : w.inspect.pendingReply = none) (f : State → State) :
    w.setupFor w.store.serial f = f w := by
  rw [State.setupFor, if_pos rfl, h, if_neg (by decide)]

/-- What a decision that leaves standing unit and settings comes to, with the standing unit's part after it: `u` is the
state decided in, before its reply. -/
theorem State.setupHeard {s u : State} (bay : Nat) (k : RequestKind) (code : ReplyCode) (action : Byte)
    (hserial : u.store.serial = s.store.serial) (hwhole : u = { s with store := u.store, line := u.line }) :
    ∃ t part, (u.setupReply k code action).standingTakes bay = t ∧
      part = bytesBE 4 s.store.serial.toNat ++ [0, BitVec.ofNat 8 code.code, action, 1, 1] ∧
      t.inspect = { s.inspect with pendingReply := some ⟨[part], 1, k⟩ } ∧ t.line.outbox.reply = some ⟨part, 0⟩ ∧
      t.stand = (s.standingTakes bay).stand ∧ t.store = u.store ∧
      t = { s with
        store := t.store, timer := { s.timer with aligned := t.timer.aligned }, stand := t.stand, share := t.share
        stage := t.stage, line := t.line, inspect := t.inspect, out := t.out } := by
  obtain ⟨r, part, hr, hpart, hrw, hinspect, hplaces⟩ := u.setupReply_spec k code action
  obtain ⟨al, sd, sh, li, g, o, e⟩ := r.standingTakes_whole bay
  have hsame : r = { s with store := u.store, line := r.line, inspect := r.inspect } := by rw [hrw, hwhole]
  refine ⟨_, part, by rw [hr], by rw [hpart, hserial], ?_, ?_, State.standingTakes_stand_congr (by rw [hsame]) (by rw [hsame]) _,
    ?_, ?_⟩
  · rw [State.standingTakes_inspect, hinspect, hwhole]
  · rw [State.standingTakes_reply, hplaces.reply]
  · rw [State.standingTakes_store, hsame]
  · rw [e, hsame]

theorem Installer.written_lt {i : Installer} {code : Nat} {b : Bool} (h : i.written code = some b) :
    1 ≤ code ∧ code ≤ 12 := by
  by_contra hc
  rw [Installer.written_eq_none i code (by omega)] at h
  cases h

/-- A WRITE writes its field and no other, and leaves the lock (R177). -/
theorem Installer.written_write {i : Installer} {code : Nat} (h1 : 1 ≤ code) (h12 : code ≤ 12) (v : Nat) :
    (i.write code v).written code = some true ∧ (i.write code v).locked = i.locked ∧
      ∀ other, other ≠ code → (i.write code v).written other = i.written other := by
  have other : ∀ o, o = 0 ∨ 12 < o → (i.write code v).written o = i.written o := fun o ho => by
    rw [Installer.written_eq_none _ o ho, Installer.written_eq_none _ o ho]
  have small : ∀ o, o ≠ code → 1 ≤ o → o ≤ 12 → (i.write code v).written o = i.written o := by
    intro o ho ho1 ho12
    interval_cases code <;> interval_cases o <;> first | rfl | exact absurd rfl ho
  refine ⟨?_, ?_, fun o ho => ?_⟩
  · interval_cases code <;> rfl
  · interval_cases code <;> rfl
  · by_cases hr : 1 ≤ o ∧ o ≤ 12
    · exact small o ho hr.1 hr.2
    · exact other o (by omega)

/-- The decision on a WRITE, check by check (R177). -/
theorem State.writeCode_cases (s : State) (code v : Nat) :
    (s.stand.standing ≠ .setup → s.writeCode code v = .notSetup) ∧
    (s.stand.standing = .setup →
      (code = 0 ∨ 14 < code → s.writeCode code v = .unknownField) ∧
      (code = 13 ∨ code = 14 → s.writeCode code v = .fieldWritten) ∧
      (s.store.installer.written code = some true → s.writeCode code v = .fieldWritten) ∧
      (s.store.installer.written code = some false →
        (s.store.installer.admits code v = true → s.writeCode code v = .accepted) ∧
        (s.store.installer.admits code v = false → s.writeCode code v = .range))) := by
  refine ⟨fun h => if_pos h, fun h => ?_⟩
  have hin : s.writeCode code v = if code = 0 ∨ 14 < code then .unknownField
      else if s.store.installer.written code ≠ some false then .fieldWritten
      else if s.store.installer.admits code v then .accepted else .range := if_neg (not_not.2 h)
  rw [hin]
  refine ⟨fun hc => if_pos hc, fun hc => ?_, fun hw => ?_, fun hw => ⟨fun ha => ?_, fun ha => ?_⟩⟩
  · rw [if_neg (by omega), if_pos (by rw [Installer.written_eq_none _ _ (by omega)]; exact nofun)]
  · have := Installer.written_lt hw
    rw [if_neg (by omega), if_pos (by rw [hw]; decide)]
  · have := Installer.written_lt hw
    rw [if_neg (by omega), if_neg (by rw [hw]; decide), if_pos ha]
  · have := Installer.written_lt hw
    rw [if_neg (by omega), if_neg (by rw [hw]; decide), if_neg (by rw [ha]; decide)]

theorem State.written_of_accepted {s : State} {code v : Nat} (h : s.writeCode code v = .accepted) :
    s.store.installer.written code = some false := by
  unfold State.writeCode at h
  split at h
  · cases h
  · split at h
    · cases h
    · split at h
      · cases h
      · next hw => exact not_not.1 hw

/-- Settles O35: the decision by its checks, the field written exactly where it is ACCEPTED, and the reply. -/
theorem setupWrite : Obligations.SetupWrite := by
  intro s bay field value hp
  generalize hw : s.takeFrame .setup bay.toNat = w
  have hline : w = { s with line := w.line } := by rw [← hw]; rfl
  have hcode : w.writeCode field.toNat value.toNat = s.writeCode field.toNat value.toNat := by rw [hline]; rfl
  generalize hc : s.writeCode field.toNat value.toNat = code at hcode
  have hexec : exec (.setupWrite bay s.store.serial field value) s = .next
      (((if code = .accepted then w.setInstaller (w.store.installer.write field.toNat value.toNat) else w).setupReply
        .write code 1).standingTakes bay.toNat) := by
    show Host.Outcome.next (((s.takeFrame .setup bay.toNat).setupFor s.store.serial _).standingTakes bay.toNat) = _
    have hserial : s.store.serial = w.store.serial := by rw [hline]
    rw [hw, hserial, State.setupFor_own (by rw [hline]; exact hp), State.decideWrite, hcode]
  generalize hu : (if code = .accepted then w.setInstaller (w.store.installer.write field.toNat value.toNat) else w) = u at hexec
  have hstore : u.store = if code = .accepted
      then { s.store with installer := s.store.installer.write field.toNat value.toNat } else s.store := by
    rw [← hu]
    split
    · rw [hline]; rfl
    · rw [hline]
  have huw : u = { s with store := u.store, line := u.line } := by
    rw [← hu]
    split
    · rw [hline]; rfl
    · rw [hline]
  obtain ⟨t, part, ht, hpart, hinspect, hreply, hstand, htstore, hwhole⟩ :=
    State.setupHeard (s := s) (u := u) bay.toNat .write code 1 (by rw [hstore]; split <;> rfl) huw
  obtain ⟨hns, hset⟩ := s.writeCode_cases field.toNat value.toNat
  rw [hc] at hns hset
  have haccepted : code = .accepted → t.store.installer = s.store.installer.write field.toNat value.toNat := fun h => by
    rw [htstore, hstore, if_pos h]
  refine ⟨t, code, part, by rw [hexec, ht], hns, hset, htstore.trans hstore, fun h => ?_, ?_, hpart, hinspect, hreply, hstand, hwhole⟩
  · obtain ⟨h1, h12⟩ := Installer.written_lt (State.written_of_accepted (hc.trans h))
    rw [haccepted h]
    exact Installer.written_write h1 h12 _
  · rintro i v h rfl rfl
    rw [haccepted h]
    refine ⟨?_, ?_, ?_, ?_, ?_, ?_, ?_, ?_, ?_, ?_, ?_, ?_⟩ <;> (rintro rfl; rfl)

/-! ### SETUP_LOCK and SETUP_RESTART -/

theorem Installer.mandatoryBlank_iff {i : Installer} :
    i.mandatoryBlank = true ↔ i.bay = none ∨ i.bayCount = none ∨ i.feederLimit = none := by
  simp [Installer.mandatoryBlank, or_assoc]

/-- The derate points at LOCK: a written one stands, a blank one follows the other, and both blank take 70 and 90 (R179). -/
theorem Installer.lockedDerate_cases (i : Installer) :
    (∀ a, i.derateStart = some a → i.lockedStart = a) ∧ (∀ b, i.derateEnd = some b → i.lockedEnd = b) ∧
    (i.derateStart = none → i.derateEnd = none → i.lockedStart = 70 ∧ i.lockedEnd = 90) ∧
    (∀ a, i.derateStart = some a → i.derateEnd = none → i.lockedEnd = min (a + 20) 130) ∧
    (∀ b, i.derateStart = none → i.derateEnd = some b → i.lockedStart = min 100 (max 40 (b - 20))) := by
  refine ⟨fun a h => ?_, fun b h => ?_, fun h1 h2 => ⟨?_, ?_⟩, fun a h1 h2 => ?_, fun b h1 h2 => ?_⟩
  · simp [Installer.lockedStart, h]
  · simp [Installer.lockedEnd, h]
  · simp [Installer.lockedStart, h1, h2]
  · simp [Installer.lockedEnd, h1, h2]
  · simp [Installer.lockedEnd, h1, h2]
  · simp [Installer.lockedStart, h1, h2]

/-- In SETUP the standing unit takes no frame (R22). -/
theorem State.standingTakes_setup {s : State} (h : s.stand.standing = .setup) (b : Nat) : s.standingTakes b = s :=
  State.standingTakes_offLine (State.offLine_of_setup h) b

/-- Settles O37: the two refusals and the acceptance, each with its reply. -/
theorem setupLock : Obligations.SetupLock := by
  intro s bay hp
  generalize hw : s.takeFrame .setup bay.toNat = w
  have hline : w = { s with line := w.line } := by rw [← hw]; rfl
  have hstd : w.stand = s.stand := by rw [hline]
  have hinst : w.store = s.store := by rw [hline]
  have hexec : exec (.setupLock bay s.store.serial) s = .next (w.decideLock.standingTakes bay.toNat) := by
    show Host.Outcome.next (((s.takeFrame .setup bay.toNat).setupFor s.store.serial _).standingTakes bay.toNat) = _
    rw [hw, ← hinst, State.setupFor_own (by rw [hline]; exact hp)]
  by_cases hs : s.stand.standing = .setup
  · by_cases hb : s.store.installer.mandatoryBlank = true
    · obtain ⟨t, part, ht, hpart, hinspect, hreply, hstand, htstore, hwhole⟩ :=
        State.setupHeard (s := s) (u := w) bay.toNat .lock .fieldBlank 2 (by rw [hinst]) (by rw [hline])
      have hread : t.storeRead = s.storeRead := by rw [hwhole]
      have hdecide : w.decideLock = w.setupReply .lock .fieldBlank 2 := by
        rw [State.decideLock, if_neg (by rw [hstd]; exact not_not.2 hs), if_pos (by rw [hinst]; exact hb)]
      refine ⟨t, _, part, by rw [hexec, hdecide, ht], hpart, hinspect, hreply, fun h => absurd hs h, fun _ => ⟨fun _ => ?_, ?_⟩, ?_⟩
      · exact ⟨rfl, htstore.trans hinst, hread, by rw [hstand, State.standingTakes_setup hs]⟩
      · intro h1 h2 h3
        rcases Installer.mandatoryBlank_iff.1 hb with h | h | h
        · rw [h] at h1; cases h1
        · rw [h] at h2; cases h2
        · rw [h] at h3; cases h3
      · rw [hwhole]
    · obtain ⟨r, part, hr, hpart, hrw, hinspect, hplaces⟩ :=
        (w.setInstaller w.store.installer.lock).setupReply_spec .lock .accepted 2
      have hdecide : w.decideLock = { r with
          stand := { s.stand with standing := .starting }, storeRead := if s.pins.reset then none else some 0 } := by
        rw [State.decideLock, if_neg (by rw [hstd]; exact not_not.2 hs), if_neg (by rw [hinst]; exact hb), hr]
        rw [hrw, hline]
        rfl
      have hoff : ({ r with stand := { s.stand with standing := .starting }
                            storeRead := if s.pins.reset then none else some 0 } : State).onLine = false := rfl
      rw [hdecide, State.standingTakes_offLine hoff] at hexec
      refine ⟨_, .accepted, part, hexec, ?_, ?_, ?_, fun h => absurd hs h, fun _ => ⟨fun h => ?_, fun _ _ _ => ?_⟩, ?_⟩
      · rw [hpart, hline]; rfl
      · show r.inspect = _
        rw [hinspect, hline]; rfl
      · show r.line.outbox.reply = _
        rw [hplaces.reply]
      · exact absurd (Installer.mandatoryBlank_iff.2 h) hb
      · obtain ⟨h1, h2, h3, h4, h5⟩ := s.store.installer.lockedDerate_cases
        refine ⟨s.store.installer.lockedStart, s.store.installer.lockedEnd, rfl, ?_, h1, h2, h3, h4, h5, rfl, rfl⟩
        show r.store = _
        rw [hrw, hline]; rfl
      · rw [hrw, hline]; rfl
  · obtain ⟨t, part, ht, hpart, hinspect, hreply, hstand, htstore, hwhole⟩ :=
      State.setupHeard (s := s) (u := w) bay.toNat .lock .notSetup 2 (by rw [hinst]) (by rw [hline])
    have hread : t.storeRead = s.storeRead := by rw [hwhole]
    have hdecide : w.decideLock = w.setupReply .lock .notSetup 2 := by
      rw [State.decideLock, if_pos (by rw [hstd]; exact hs)]
    exact ⟨t, _, part, by rw [hexec, hdecide, ht], hpart, hinspect, hreply,
      fun _ => ⟨rfl, htstore.trans hinst, hread, hstand⟩, fun h => absurd h hs, by rw [hwhole]⟩

/-- Settles O38: the reply and the restart wait, and after them the standing unit's part alone. -/
theorem setupRestart : Obligations.SetupRestart := by
  intro s bay hp
  generalize hw : s.takeFrame .setup bay.toNat = w
  have hline : w = { s with line := w.line } := by rw [← hw]; rfl
  have hout : w.line.outbox = s.line.outbox := by rw [← hw]; rfl
  obtain ⟨r, part, hr, hpart, hrw, hinspect, hplaces⟩ := w.setupReply_spec .restart .accepted 3
  generalize hv : ({ r with inspect := { r.inspect with restartWait := some 0 } } : State) = v
  have hexec : exec (.setupRestart bay s.store.serial) s = .next (v.standingTakes bay.toNat) := by
    show Host.Outcome.next (((s.takeFrame .setup bay.toNat).setupFor s.store.serial _).standingTakes bay.toNat) = _
    have hserial : s.store.serial = w.store.serial := by rw [hline]
    rw [hw, hserial, State.setupFor_own (by rw [hline]; exact hp), ← hv, ← hr]
    rfl
  have hsame : v = { s with line := v.line, inspect := v.inspect } := by rw [← hv, hrw, hline]
  have hvout : v.line.outbox = { s.line.outbox with reply := some ⟨part, 0⟩ } := by
    rw [← hv, ← hout]; exact hplaces.reply
  obtain ⟨htimer, hstage, houts⟩ := State.standingTakes_stage_congr (s := s) (t := v) (by rw [hsame]) (by rw [hsame])
    (by rw [hsame]) (by rw [hsame]) (by rw [hsame]) (by rw [hsame]) (by rw [hsame]) bay.toNat
  obtain ⟨al, sd, sh, li, g, o, e⟩ := v.standingTakes_whole bay.toNat
  refine ⟨_, part, hexec, ?_, ?_, ?_, State.standingTakes_stand_congr (by rw [hsame]) (by rw [hsame]) _, ?_,
    ⟨_, rfl, htimer, hstage, houts⟩, fun hs => ?_, ?_⟩
  · rw [hpart, hline]; rfl
  · rw [State.standingTakes_inspect, ← hv]
    show { r.inspect with restartWait := some 0 } = _
    rw [hinspect]
  · rw [State.standingTakes_reply, hvout]
  · rw [e, hsame]
  · rw [State.standingTakes_unmoved (s := v) (b := bay.toNat) (by rw [hs, hsame])]
    refine ⟨?_, ?_, ?_, ?_, ?_, ?_⟩
    · rw [hsame]
    · rw [hsame]
    · rw [hsame]
    · rw [hsame]
    · show v.line.outbox.mark = _
      rw [hvout]
    · show v.line.outbox.claim = _
      rw [hvout]
  · rw [State.standingTakes_allotment, hsame]

end Sys2Proof.Machine
end

section
/-! Replies cut into parts, and the views (R171, R174, R175). -/

namespace Sys2Proof.Machine

/-! ### Numbers and flags in bytes -/

theorem bytesBE_length (k n : Nat) : (bytesBE k n).length = k := by
  induction k with
  | zero => rfl
  | succ k ih => rw [bytesBE, List.length_cons, ih]

theorem bytesBE_one (n : Nat) : bytesBE 1 n = [BitVec.ofNat 8 n] := by simp [bytesBE]

theorem numBE_append_byte (bs : List Byte) (b : Byte) : numBE (bs ++ [b]) = numBE bs * 256 + b.toNat := by
  simp [numBE, List.foldl_append]

/-- The number of bytes read after a number already read stands above them. -/
theorem foldl_bytesBE (k n a : Nat) (h : n < 256 ^ k) :
    (bytesBE k n).foldl (fun m b => m * 256 + b.toNat) a = a * 256 ^ k + n := by
  induction k generalizing n a with
  | zero => simp only [pow_zero] at h ⊢; simp only [bytesBE, List.foldl_nil]; omega
  | succ k ih =>
    have hpos : 0 < 256 ^ k := by positivity
    have htop : n / 256 ^ k < 256 := Nat.div_lt_of_lt_mul (by rwa [pow_succ] at h)
    have hmod : ∀ j m : Nat, (bytesBE j m) = bytesBE j (m % 256 ^ j) := by
      intro j
      induction j with
      | zero => intro m; rfl
      | succ j ihj =>
        intro m
        have hq : (m % 256 ^ (j + 1)) / 256 ^ j = m / 256 ^ j % 256 := by
          rw [pow_succ, Nat.mod_mul_right_div_self]
        rw [bytesBE, bytesBE, hq, ihj m, ihj (m % 256 ^ (j + 1)),
          Nat.mod_mod_of_dvd m (pow_dvd_pow 256 (Nat.le_succ j))]
        congr 1
        apply BitVec.eq_of_toNat_eq
        simp only [BitVec.toNat_ofNat]
        omega
    rw [bytesBE, List.foldl_cons, hmod k n, ih _ _ (Nat.mod_lt _ hpos), BitVec.toNat_ofNat,
      Nat.mod_eq_of_lt (by omega : n / 256 ^ k < 2 ^ 8), pow_succ]
    have := Nat.div_add_mod n (256 ^ k)
    nlinarith

theorem numBE_bytesBE {k n : Nat} (h : n < 256 ^ k) : numBE (bytesBE k n) = n := by
  rw [numBE, foldl_bytesBE k n 0 h, Nat.zero_mul, Nat.zero_add]

/-- Flag by flag, the first in the lowest bit (R153, R174). -/
theorem flagByte_getLsbD (l : List Bool) (n : Nat) (h : n < 8) : (flagByte l).getLsbD n = l.getD n false := by
  induction l generalizing n with
  | nil => simp [flagByte]
  | cons b l ih =>
    have hb : (if b then (1 : Byte) else 0).getLsbD n = (decide (n = 0) && b) := by
      cases b <;> simp [BitVec.getLsbD_one]
    cases n with
    | zero => rw [flagByte, BitVec.getLsbD_or, hb]; simp
    | succ n =>
      rw [flagByte, BitVec.getLsbD_or, hb, BitVec.getLsbD_shiftLeft, Nat.add_sub_cancel, ih n (by omega)]
      simp [h]

/-- A byte whose bits are given flags is the byte of those flags. -/
theorem eq_flagByte {b : Byte} {l : List Bool} (hl : l.length = 8)
    (h : ∀ (n : Nat) (c : Bool), l[n]? = some c → b.getLsbD n = c) : b = flagByte l := by
  refine BitVec.eq_of_getLsbD_eq fun n hn => ?_
  rw [flagByte_getLsbD l n hn, h n l[n] (List.getElem?_eq_getElem (by omega)), List.getD_eq_getElem _ _ (by omega)]

theorem flagByte_three : ∀ a b c : Bool, flagByte [a, b, c] =
    (if a then 1 else 0) + (if b then 2 else 0) + (if c then 4 else 0) := by decide

theorem flagByte_four : ∀ a b c d : Bool, flagByte [a, b, c, d] =
    (if a then 1 else 0) + (if b then 2 else 0) + (if c then 4 else 0) + (if d then 8 else 0) := by decide

/-! ### The body cut into parts -/

/-- The items of `cutParts`, one group to a part: `g` is the group begun. -/
def cutGroups : List (List Byte) → List (List Byte) → List (List (List Byte))
  | g, [] => [g]
  | g, i :: l => if g.flatten.length + i.length ≤ Config.maxBody then cutGroups (g ++ [i]) l else g :: cutGroups [i] l

theorem cutParts_eq_groups (g l : List (List Byte)) : cutParts g.flatten l = (cutGroups g l).map List.flatten := by
  induction l generalizing g with
  | nil => rfl
  | cons i l ih =>
    rw [cutParts, cutGroups]
    split
    · rw [← ih (g ++ [i]), List.flatten_append, List.flatten_singleton]
    · rw [List.map_cons, ← ih [i], List.flatten_singleton]

theorem cutGroups_flatten (g l : List (List Byte)) : (cutGroups g l).flatten = g ++ l := by
  induction l generalizing g with
  | nil => simp [cutGroups]
  | cons i l ih =>
    rw [cutGroups]
    split
    · rw [ih]; simp
    · rw [List.flatten_cons, ih]; simp

/-- The first group of a cut begins with the group begun. -/
theorem cutGroups_head (g l : List (List Byte)) : ∃ r rest, cutGroups g l = (g ++ r) :: rest := by
  induction l generalizing g with
  | nil => exact ⟨[], [], by rw [cutGroups, List.append_nil]⟩
  | cons i l ih =>
    rw [cutGroups]
    split
    · obtain ⟨r, rest, e⟩ := ih (g ++ [i]); exact ⟨i :: r, rest, by rw [e]; simp⟩
    · exact ⟨[], _, by rw [List.append_nil]⟩

theorem cutGroups_fit {g l : List (List Byte)} (hg : g.flatten.length ≤ 47) (hl : ∀ i ∈ l, i.length ≤ 47) :
    ∀ x ∈ cutGroups g l, x.flatten.length ≤ 47 := by
  induction l generalizing g with
  | nil => intro x hx; rw [cutGroups, List.mem_singleton] at hx; rwa [hx]
  | cons i l ih =>
    have hrest : ∀ j ∈ l, j.length ≤ 47 := fun j hj => hl j (List.mem_cons_of_mem i hj)
    rw [cutGroups]
    split
    · next hfit => exact ih (by simpa [Config.maxBody] using hfit) hrest
    · intro x hx
      rcases List.mem_cons.1 hx with rfl | hx
      · exact hg
      · exact ih (by simpa using hl i List.mem_cons_self) hrest x hx

/-- A group ends only where its next item does not fit (R171). -/
theorem cutGroups_boundary (g l : List (List Byte)) (n : Nat) (x next : List (List Byte))
    (hx : (cutGroups g l)[n]? = some x) (hnext : (cutGroups g l)[n + 1]? = some next) :
    ∃ i rest, next = i :: rest ∧ 47 < x.flatten.length + i.length := by
  induction l generalizing g n with
  | nil => rw [cutGroups] at hnext; simp at hnext
  | cons i l ih =>
    rw [cutGroups] at hx hnext
    split at hx
    · next hfit => rw [if_pos hfit] at hnext; exact ih _ n hx hnext
    · next hfull =>
      rw [if_neg hfull, List.getElem?_cons_succ] at hnext
      cases n with
      | zero =>
        obtain ⟨r, rest, e⟩ := cutGroups_head [i] l
        rw [e, List.getElem?_cons_zero] at hnext
        rw [List.getElem?_cons_zero] at hx
        cases hnext
        cases hx
        exact ⟨i, r, rfl, by simpa [Config.maxBody] using hfull⟩
      | succ n => rw [List.getElem?_cons_succ] at hx; exact ih _ n hx hnext

theorem partPayloads_length (serial : BitVec 32) (tag : Byte) (code : ReplyCode) (subject : Byte) (total index : Nat)
    (l : List (List Byte)) : (partPayloads serial tag code subject total index l).length = l.length := by
  induction l generalizing index with
  | nil => rfl
  | cons b l ih => rw [partPayloads, List.length_cons, ih, List.length_cons]

/-- Part `n` of a reply is its header and its body. -/
theorem partPayloads_getElem? (serial : BitVec 32) (tag : Byte) (code : ReplyCode) (subject : Byte) (total index : Nat)
    (l : List (List Byte)) (n : Nat) (body : List Byte) (h : l[n]? = some body) :
    (partPayloads serial tag code subject total index l)[n]? = some (bytesBE 4 serial.toNat ++
      [tag, BitVec.ofNat 8 code.code, subject, BitVec.ofNat 8 (n + index), BitVec.ofNat 8 total] ++ body) := by
  induction l generalizing index n with
  | nil => rw [List.getElem?_nil] at h; cases h
  | cons b l ih =>
    rw [partPayloads]
    cases n with
    | zero =>
      rw [List.getElem?_cons_zero] at h ⊢
      cases h
      simp only [bytesBE_one, Nat.zero_add, List.append_assoc, List.cons_append, List.nil_append]
    | succ n =>
      rw [List.getElem?_cons_succ] at h ⊢
      rw [ih (index + 1) n h, show n + (index + 1) = n + 1 + index by omega]

/-- Settles O33: the groups are those of `cutGroups`, the cut that keeps the items apart. -/
theorem replyPartsCarry : Obligations.ReplyParts := by
  unfold Obligations.ReplyParts
  refine ⟨by decide, fun serial tag code subject items hitems => ?_⟩
  have hcut : cutParts [] items = (cutGroups [] items).map List.flatten := cutParts_eq_groups [] items
  have hlen : (cutParts [] items).length = (cutGroups [] items).length := by rw [hcut, List.length_map]
  obtain ⟨r, rest, hhead⟩ := cutGroups_head [] items
  refine ⟨cutGroups [] items, ?_, cutGroups_flatten [] items, cutGroups_fit (Nat.zero_le _) hitems,
    cutGroups_boundary [] items, ?_, fun n g hg => ?_⟩
  · rw [hhead, List.length_cons]; omega
  · rw [replyParts, partPayloads_length, hlen]
  · rw [replyParts, hlen]
    exact partPayloads_getElem? _ _ _ _ _ 1 _ n _ (by rw [hcut, List.getElem?_map, hg]; rfl)

/-! ### The views -/

/-- The lengths of the parts, from the lengths of the items: `a` bytes stand in the part begun. -/
def cutLengths : Nat → List Nat → List Nat
  | a, [] => [a]
  | a, n :: l => if a + n ≤ Config.maxBody then cutLengths (a + n) l else a :: cutLengths n l

theorem cutParts_lengths (cur : List Byte) (items : List (List Byte)) :
    (cutParts cur items).map List.length = cutLengths cur.length (items.map List.length) := by
  induction items generalizing cur with
  | nil => rfl
  | cons i l ih =>
    rw [cutParts, List.map_cons, cutLengths]
    split
    · rw [ih, List.length_append]
    · rw [List.map_cons, ih]

@[simp] theorem onByte_eq (b : Bool) : onByte b = bytesBE 1 (if b then 1 else 0) := by cases b <;> decide

theorem onByte_length (b : Bool) : (onByte b).length = 1 := rfl
theorem clockBytes_length (c : Option Nat) : (clockBytes c).length = 3 := bytesBE_length 3 _
theorem energyBytes_length (n : Nat) : (energyBytes n).length = 3 := bytesBE_length 3 _
theorem tempByte_length (t : Option Int) : (tempByte t).length = 1 := by cases t <;> rfl
theorem storedTempByte_length (t : Option Nat) : (storedTempByte t).length = 1 := by cases t <;> rfl

theorem tempByte_eq (temp : Option Int → Nat) (hnone : temp none = 255) (hsome : ∀ t, temp (some t) = (t + 40).toNat)
    (t : Option Int) : tempByte t = bytesBE 1 (temp t) := by
  cases t with
  | none => rw [hnone]; decide
  | some t => rw [hsome]; rfl

theorem storedTempByte_eq (t : Option Nat) : storedTempByte t = bytesBE 1 ((t.map (· + 40)).getD 0) := by
  cases t with
  | none => decide
  | some t => rfl

theorem clockBytes_forward (departure : Nat) (clock : Option Nat) :
    clockBytes (clock.map (forwardDistance departure)) = bytesBE 3 (match clock with
      | none => 16777215
      | some now => (departure + 86400 - now) % 86400) := by
  cases clock <;> rfl

theorem State.statusItems_lengths (s : State) : s.statusItems.map List.length =
    [1, 1, 1, 2, 2, 3, 1, 1, 1, 1, 2, 2, 2, 2, 1, 1, 2, 2, 1, 1, 1, 1, 2, 2, 2, 2, 2, 2, 2, 2, 2, 2] := by
  simp [State.statusItems, bytesBE_length, clockBytes_length, tempByte_length, State.statusFlags]

theorem State.sessionItems_lengths (s : State) : ∀ i ∈ s.sessionItems, i.length ≤ 4 := by
  unfold State.sessionItems
  split <;> simp [bytesBE_length, clockBytes_length, energyBytes_length]

theorem State.lastItems_lengths (s : State) : ∀ i ∈ s.lastItems, i.length ≤ 4 := by
  unfold State.lastItems
  split <;> simp [bytesBE_length, energyBytes_length]

theorem State.configItems_lengths (s : State) : ∀ i ∈ s.configItems, i.length ≤ 4 := by
  simp [State.configItems, bytesBE_length, storedTempByte_length, Installer.blankSet]

theorem State.peerItem_length (s : State) (e : PeerEntry) : (s.peerItem e).length = 20 := by
  simp [State.peerItem, bytesBE_length]

theorem State.noticeItem_length (s : State) (e : NoticeEntry) : (s.noticeItem e).length = 11 := by
  simp [State.noticeItem, bytesBE_length, clockBytes_length]

/-- Every item of a view fits the body of one part. -/
theorem State.viewItems_fit (s : State) (view start count : Nat) (items : List (List Byte))
    (h : s.viewItems view start count = some items) : ∀ i ∈ items, i.length ≤ 47 := by
  have small : ∀ {l : List (List Byte)}, (∀ i ∈ l, i.length ≤ 4) → ∀ i ∈ l, i.length ≤ 47 :=
    fun hl i hi => (hl i hi).trans (by decide)
  unfold State.viewItems at h
  split at h
  · cases h
    intro i hi
    have : i.length ∈ s.statusItems.map List.length := List.mem_map_of_mem hi
    rw [s.statusItems_lengths] at this
    exact (by decide : ∀ n ∈ [1, 1, 1, 2, 2, 3, 1, 1, 1, 1, 2, 2, 2, 2, 1, 1, 2, 2, 1, 1, 1, 1, 2, 2, 2, 2, 2, 2, 2, 2, 2, 2],
      n ≤ 47) _ this
  · cases h
    intro i hi
    rcases List.mem_cons.1 hi with rfl | hi
    · simp [State.peersSummary, bytesBE_length]
    · obtain ⟨e, -, rfl⟩ := List.mem_map.1 hi
      rw [State.peerItem_length]; decide
  · cases h
    intro i hi
    rcases List.mem_cons.1 hi with rfl | hi
    · simp [State.noticesSummary, bytesBE_length]
    · obtain ⟨e, -, rfl⟩ := List.mem_map.1 hi
      rw [State.noticeItem_length]; decide
  · cases h; exact small s.sessionItems_lengths
  · cases h; exact small s.lastItems_lengths
  · cases h; exact small s.configItems_lengths
  · cases h

theorem State.viewItems_unknown (s : State) (view start count : Nat) (h : view = 0 ∨ 6 < view) :
    s.viewItems view start count = none := by
  unfold State.viewItems
  split <;> first | omega | rfl

/-- The two tables' views: the summary, then the window on the entries (R175). -/
theorem State.viewItems_tables (s : State) (start count : Nat) :
    s.viewItems 2 start count = some (s.peersSummary ::
      ((s.peers.entries.drop start).take (max 1 (min 8 count))).map s.peerItem) ∧
    s.viewItems 3 start count = some (s.noticesSummary ::
      ((s.notices.table.drop start).take (max 1 (min 8 count))).map s.noticeItem) := ⟨rfl, rfl⟩

/-- Settles O32: each view's items are unfolded once; lengths are counted without the bytes. -/
theorem views : Obligations.Views := by
  unfold Obligations.Views
  refine ⟨fun s start count temp flags1 flags2 hnone hsome h1 h2 => ?_, fun s start count => ⟨rfl, ?_, fun h => ?_,
    fun x h => ?_, fun h => ?_, fun l h => ?_, fun i marks1 marks2 hi h1 h2 => ?_, fun view hv => s.viewItems_unknown view start count hv⟩,
    fun e h => ⟨?_, ?_⟩, by decide, fun k n => ⟨bytesBE_length k n, numBE_bytesBE⟩, ⟨rfl, numBE_append_byte⟩,
    fun s view start count items h => ⟨s.viewItems_fit view start count items h, fun hv => ?_⟩⟩
  · rw [eq_flagByte rfl h1, eq_flagByte rfl h2]
    simp only [State.viewItems, State.statusItems, State.statusFlags, tempByte_eq temp hnone hsome, onByte_eq]
    rfl
  · simp only [(s.viewItems_tables start count).2, State.noticesSummary, onByte_eq, Option.some.injEq,
      List.cons.injEq, true_and]
    refine List.map_congr_left fun e _ => ?_
    exact congrArg (bytesBE 2 e.van ++ bytesBE 3 e.departure ++ bytesBE 3 (e.target.getD 0) ++ ·)
      (clockBytes_forward e.departure s.timer.clock)
  · simp only [State.viewItems, State.sessionItems, h]; rfl
  · simp only [State.viewItems, State.sessionItems, h]; rfl
  · simp only [State.viewItems, State.lastItems, h]
  · simp only [State.viewItems, State.lastItems, h]; rfl
  · have hmarks : marks2 = flagByte [i.edges.isNone, i.derateStart.isNone, i.derateEnd.isNone, i.defaultDeparture.isNone] :=
      (eq_flagByte rfl h2).trans rfl
    rw [eq_flagByte rfl h1, hmarks]
    simp only [State.viewItems, State.configItems, Installer.blankSet, onByte_eq, storedTempByte_eq, hi]
  · exact flagByte_three e.thermal e.clash e.hold
  · exact flagByte_four h.driver h.permit h.thermal h.meter
  · subst hv
    cases h
    rw [cutParts_lengths, State.statusItems_lengths]
    decide

end Sys2Proof.Machine
end

section
/-! Queries answered, and requests that are not decided (R169, R170, R177). -/

namespace Sys2Proof.Machine

/-! ### A query taken -/

theorem byte_toNat_eq_iff (b c : Byte) (n : Nat) (hc : c.toNat = n) : b.toNat = n ↔ b = c :=
  ⟨fun h => BitVec.eq_of_toNat_eq (h.trans hc.symm), fun h => by rw [h, hc]⟩

/-- The address of a QUERY by the standing (R169). -/
theorem State.addressed_iff (s : State) (q : QueryFrame) : s.addressed q.form.toNat q.target = true ↔
    (s.onLine = true ∧ q.form = 1 ∧ q.target.toNat = s.cfg.bay) ∨
      (s.onLine = false ∧ q.form = 2 ∧ q.target = s.store.serial) := by
  have h1 := byte_toNat_eq_iff q.form 1 1 rfl
  have h2 := byte_toNat_eq_iff q.form 2 2 rfl
  have hon : s.stand.standing.onLine = s.onLine := rfl
  unfold State.addressed
  rw [hon]
  cases s.onLine <;> simp [h1, h2]

/-- The fate of a QUERY, by its form, its address and the pending reply (R169). -/
theorem State.queryTaken_cases (y : State) (q : QueryFrame) (v : Byte) :
    (q.length ≠ 9 ∨ (q.form ≠ 1 ∧ q.form ≠ 2) → y.queryTaken q v = y.countLineError) ∧
    (q.length = 9 → q.form = 1 ∨ q.form = 2 → ¬ y.addressed q.form.toNat q.target = true → y.queryTaken q v = y) ∧
    (q.length = 9 → y.addressed q.form.toNat q.target = true →
      (y.inspect.pendingReply.isSome = true → y.queryTaken q v = y.countDropped) ∧
      (y.inspect.pendingReply = none → y.queryTaken q v = y.answerQuery q v)) := by
  have h9 := byte_toNat_eq_iff q.length 9 9 rfl
  have h1 := byte_toNat_eq_iff q.form 1 1 rfl
  have h2 := byte_toNat_eq_iff q.form 2 2 rfl
  unfold State.queryTaken
  simp only [h9, h1, h2, ne_eq]
  refine ⟨fun h => if_pos h, fun h hf ha => ?_, fun h ha => ?_⟩
  · rw [if_neg (by rintro (hc | ⟨hc, hd⟩); exacts [hc h, hf.elim hc hd]), if_neg ha]
  · have hf : q.form = 1 ∨ q.form = 2 := by
      rcases (y.addressed_iff q).1 ha with ⟨-, hf, -⟩ | ⟨-, hf, -⟩
      · exact .inl hf
      · exact .inr hf
    rw [if_neg (by rintro (hc | ⟨hc, hd⟩); exacts [hc h, hf.elim hc hd]), if_pos ha]
    exact ⟨fun hp => if_pos hp, fun hp => if_neg (by rw [hp]; decide)⟩

/-- All that a QUERY taken can change. -/
theorem State.queryTaken_frame (y : State) (q : QueryFrame) (v : Byte) :
    ∃ r, y.queryTaken q v = r ∧ r = { y with line := r.line, inspect := r.inspect } := by
  refine ⟨_, rfl, ?_⟩
  unfold State.queryTaken
  split
  · rfl
  · split
    · split
      · rfl
      · unfold State.answerQuery
        split
        · obtain ⟨r, hr, hwhole, -, -⟩ := y.sendReply_spec .query q.tag .shown v (by assumption)
          rw [hr]; exact hwhole
        · obtain ⟨r, hr, hwhole, -, -⟩ := y.sendReply_spec .query q.tag .viewUnknown v []
          rw [hr]; exact hwhole
    · rfl

/-- A QUERY's row, whichever it is. -/
theorem exec_query {c : Instr} {q : QueryFrame} {v : Byte} (h : queryOfCommand c = some (q, v)) (s : State) :
    exec c s = .next (s.queryFrame q v) := by
  cases c <;> cases h <;> rfl

theorem frameOf_query {c : Instr} {q : QueryFrame} {v : Byte} (h : queryOfCommand c = some (q, v)) :
    frameOf c = some (.query, q.sender) := by
  cases c <;> cases h <;> rfl

/-- Delivery: the query taken before or after the standing unit's part (log 4), once the order is chosen. -/
theorem State.queryFrame_orders (s : State) (q : QueryFrame) (v : Byte) : ∃ x : State,
    x = { s.takeFrame .query q.sender.toNat with choices := x.choices, freeCount := x.freeCount } ∧
      (s.queryFrame q v = (x.queryTaken q v).standingTakes q.sender.toNat ∨
        s.queryFrame q v = (x.standingTakes q.sender.toNat).queryTaken q v) :=
  ⟨_, choose_eq _, inAnyOrder_pair _ _ _⟩

/-! ### Requests that are not decided -/

/-- What a QUERY frame leaves, whatever becomes of the query. -/
theorem State.queryFrame_stands (s : State) (q : QueryFrame) (v : Byte) :
    (s.queryFrame q v).store = s.store ∧ (s.queryFrame q v).stand = (s.standingTakes q.sender.toNat).stand := by
  obtain ⟨x, hx, h | h⟩ := s.queryFrame_orders q v
  · obtain ⟨r, hr, hwhole⟩ := x.queryTaken_frame q v
    rw [h, hr]
    exact ⟨by rw [State.standingTakes_store, hwhole, hx]; rfl,
      State.standingTakes_stand_congr (by rw [hwhole, hx]; rfl) (by rw [hwhole, hx]; rfl) _⟩
  · obtain ⟨r, hr, hwhole⟩ := (x.standingTakes q.sender.toNat).queryTaken_frame q v
    rw [h, hr]
    refine ⟨by rw [hwhole]; simp only [State.standingTakes_store]; rw [hx]; rfl, ?_⟩
    rw [hwhole]
    exact State.standingTakes_stand_congr (by rw [hx]; rfl) (by rw [hx]; rfl) _

/-- A QUERY of which only a count comes: the count is taken in both orders. -/
theorem State.queryFrame_counted {s : State} {q : QueryFrame} {v : Byte} (f : State → State)
    (g : LineCounters → LineCounters) (hcount : ∀ y : State, (f y).line.counters = g y.line.counters)
    (hinspect : ∀ y : State, (f y).inspect = y.inspect)
    (hf : ∀ y : State, y.onLine = s.onLine → y.settings = s.settings → y.store = s.store → y.inspect = s.inspect →
      y.queryTaken q v = f y) :
    (s.queryFrame q v).line.counters = g (s.takeFrame .query q.sender.toNat).line.counters ∧
      (s.queryFrame q v).inspect = s.inspect := by
  obtain ⟨x, hx, h | h⟩ := s.queryFrame_orders q v
  · rw [h, hf x (by rw [hx]; rfl) (by rw [hx]; rfl) (by rw [hx]; rfl) (by rw [hx]; rfl)]
    rw [State.standingTakes_counters, State.standingTakes_inspect, hcount, hinspect, hx]
    exact ⟨rfl, rfl⟩
  · rw [h, hf _ (by rw [State.standingTakes_onLine, hx]; rfl) (by rw [State.standingTakes_settings, hx]; rfl)
      (by rw [State.standingTakes_store, hx]; rfl) (by rw [State.standingTakes_inspect, hx]; rfl)]
    rw [hcount, hinspect, State.standingTakes_counters, State.standingTakes_inspect, hx]
    exact ⟨rfl, rfl⟩

/-- The address is read off standing, settings and store. -/
theorem State.addressed_congr {s y : State} (h1 : y.onLine = s.onLine) (h2 : y.settings = s.settings)
    (h3 : y.store = s.store) (form : Nat) (target : BitVec 32) : y.addressed form target = s.addressed form target := by
  have hon : ∀ u : State, u.stand.standing.onLine = u.onLine := fun _ => rfl
  unfold State.addressed State.cfg
  rw [hon, hon, h1, h2, h3]

/-- A SETUP row: the request before the standing unit's part (R161). -/
theorem exec_setup {c : Instr} {n : BitVec 32} {r : RequestKind} (h : setupOfCommand c = some (n, r)) {kind : FrameKind}
    {sender : Byte} (hk : frameOf c = some (kind, sender)) (s : State) : ∃ f : State → State,
    (f = State.decideLock ∨ f = State.decideRestart ∨ ∃ code value, f = State.decideWrite code value) ∧
      exec c s = .next (((s.takeFrame .setup sender.toNat).setupFor n f).standingTakes sender.toNat) := by
  cases c <;> cases h <;> cases hk
  · exact ⟨_, .inr (.inr ⟨_, _, rfl⟩), rfl⟩
  · exact ⟨_, .inl rfl, rfl⟩
  · exact ⟨_, .inr (.inl rfl), rfl⟩

theorem State.setupReply_counters (s : State) (k : RequestKind) (code : ReplyCode) (action : Byte) :
    (s.setupReply k code action).line.counters = s.line.counters := by
  obtain ⟨r, part, hr, -, -, -, hplaces⟩ := s.setupReply_spec k code action
  rw [hr, hplaces.counters]

/-- A SETUP decided leaves the counters. -/
theorem State.setupDecided_counters {f : State → State}
    (h : f = State.decideLock ∨ f = State.decideRestart ∨ ∃ code value, f = State.decideWrite code value) (s : State) :
    (f s).line.counters = s.line.counters := by
  rcases h with rfl | rfl | ⟨code, value, rfl⟩
  · unfold State.decideLock
    split
    · exact s.setupReply_counters _ _ _
    · split
      · exact s.setupReply_counters _ _ _
      · exact (s.setInstaller s.store.installer.lock).setupReply_counters .lock .accepted 2
  · exact s.setupReply_counters .restart .accepted 3
  · unfold State.decideWrite
    rw [State.setupReply_counters]
    split <;> rfl

/-- Settles O34: by the request's fate; a QUERY's in both orders, a SETUP's before the standing unit's part. -/
theorem requestNotDecided : Obligations.RequestNotDecided := by
  intro c kind sender s hc
  refine ⟨fun q v hq => ?_, fun n r hr => ?_⟩
  · have hk := frameOf_query hq
    rw [hc] at hk
    cases hk
    have hline : (s.takeFrame .query q.sender.toNat).line.counters.lineErrors = s.line.counters.lineErrors ∧
        (s.takeFrame .query q.sender.toNat).line.counters.queriesDropped = s.line.counters.queriesDropped := by
      rw [State.takeFrame_counters]; exact ⟨rfl, rfl⟩
    obtain ⟨herrors, hdropped⟩ := hline
    refine ⟨_, exec_query hq s, fun h => ?_, fun h9 hform ha => ?_, fun h9 ha hp => ?_, s.queryFrame_stands q v⟩
    · obtain ⟨e, hi⟩ := State.queryFrame_counted (s := s) (q := q) (v := v) State.countLineError
        (fun c => { c with lineErrors := bump c.lineErrors }) (fun _ => rfl) (fun _ => rfl)
        (fun y _ _ _ _ => (y.queryTaken_cases q v).1 h)
      rw [e]
      exact ⟨congrArg bump herrors, hdropped, hi⟩
    · rw [← s.addressed_iff q] at ha
      obtain ⟨e, hi⟩ := State.queryFrame_counted (s := s) (q := q) (v := v) id id (fun _ => rfl) (fun _ => rfl)
        (fun y h1 h2 h3 _ => (y.queryTaken_cases q v).2.1 h9 hform (by rw [State.addressed_congr h1 h2 h3]; exact ha))
      rw [e]
      exact ⟨herrors, hdropped, hi⟩
    · rw [← s.addressed_iff q] at ha
      obtain ⟨e, hi⟩ := State.queryFrame_counted (s := s) (q := q) (v := v) State.countDropped
        (fun c => { c with queriesDropped := bump c.queriesDropped }) (fun _ => rfl) (fun _ => rfl)
        (fun y h1 h2 h3 h4 => ((y.queryTaken_cases q v).2.2 h9 (by rw [State.addressed_congr h1 h2 h3]; exact ha)).1
          (by rw [h4]; exact hp))
      rw [e]
      exact ⟨herrors, congrArg bump hdropped, hi⟩
  · obtain ⟨f, hf, hexec⟩ := exec_setup hr hc s
    generalize hw : s.takeFrame .setup sender.toNat = w at hexec
    have hwhole : w = { s with line := w.line } := by rw [← hw]; rfl
    have hcounters : w.line.counters.lineErrors = s.line.counters.lineErrors ∧
        w.line.counters.queriesDropped = s.line.counters.queriesDropped := by
      rw [← hw, State.takeFrame_counters]; exact ⟨rfl, rfl⟩
    obtain ⟨herrors, hdropped⟩ := hcounters
    have hserial : w.store.serial = s.store.serial := by rw [hwhole]
    refine ⟨_, hexec, fun hn => ?_, fun hn hp => ?_, ?_⟩
    · rw [show w.setupFor n f = w from if_neg (by rw [hserial]; exact hn)]
      rw [State.standingTakes_counters, State.standingTakes_inspect, State.standingTakes_store]
      exact ⟨hdropped, by rw [hwhole], by rw [hwhole],
        State.standingTakes_stand_congr (by rw [hwhole]) (by rw [hwhole]) _⟩
    · have hdrop : w.setupFor n f = w.countDropped := by
        rw [State.setupFor, if_pos (by rw [hserial]; exact hn), if_pos (by rw [hwhole]; exact hp)]
      rw [hdrop, State.standingTakes_counters, State.standingTakes_inspect, State.standingTakes_store]
      exact ⟨congrArg bump hdropped, by rw [hwhole]; rfl, by rw [hwhole]; rfl,
        State.standingTakes_stand_congr (by rw [hwhole]; rfl) (by rw [hwhole]; rfl) _⟩
    · rw [State.standingTakes_counters]
      unfold State.setupFor
      split
      · split
        · exact herrors
        · rw [State.setupDecided_counters hf]; exact herrors
      · exact herrors

/-! ### A query answered -/

/-- The views read everything but the line engine's frames, the free choices and the own claim. -/
theorem State.viewItems_congr {s t : State} (hstand : t.stand = s.stand) (htimer : t.timer = s.timer)
    (hstage : t.stage = s.stage) (hshare : t.share.allotment = s.share.allotment)
    (hcount : t.line.counters = s.line.counters) (hrest : t = { s with
      timer := t.timer, stand := t.stand, share := t.share, stage := t.stage, line := t.line, out := t.out
      choices := t.choices, freeCount := t.freeCount }) (view start count : Nat) :
    t.viewItems view start count = s.viewItems view start count := by
  have hpins : t.pins = s.pins := by rw [hrest]
  have hstore : t.store = s.store := by rw [hrest]
  have hpeers : t.peers = s.peers := by rw [hrest]
  have hsession : t.session = s.session := by rw [hrest]
  have hlast : t.last = s.last := by rw [hrest]
  have hnotices : t.notices = s.notices := by rw [hrest]
  have hmeter : t.meter = s.meter := by rw [hrest]
  have hthermal : t.thermal = s.thermal := by rw [hrest]
  have hinspect : t.inspect = s.inspect := by rw [hrest]
  have hcfg : t.cfg = s.cfg := by unfold State.cfg; rw [hrest]
  have hpeer : t.peerItem = s.peerItem := by funext e; unfold State.peerItem; rw [htimer]
  have hnotice : t.noticeItem = s.noticeItem := by funext e; unfold State.noticeItem; rw [htimer]
  have hrunning : t.runningWh = s.runningWh := by funext x; rw [hrest]; rfl
  unfold State.viewItems State.statusItems State.statusFlags State.peersSummary State.noticesSummary State.sessionItems
    State.lastItems State.configItems
  rw [hstand, htimer, hstage, hshare, hcount, hpins, hstore, hpeers, hsession, hlast, hnotices, hmeter, hthermal,
    hinspect, hpeer, hnotice, hrunning]

/-- A query answered, its reply named: the items of a known view, or none. -/
theorem State.answerQuery_spec (y : State) (q : QueryFrame) (v : Byte) : ∃ r code items,
    y.answerQuery q v = r ∧
      (1 ≤ v.toNat → v.toNat ≤ 6 → code = .shown ∧ y.viewItems v.toNat q.startIndex.toNat q.count.toNat = some items) ∧
      (v.toNat = 0 ∨ 6 < v.toNat → code = .viewUnknown ∧ items = []) ∧
      r = { y with line := r.line, inspect := r.inspect } ∧
      r.inspect = { y.inspect with pendingReply := some ⟨replyParts y.store.serial q.tag code v items, 1, .query⟩ } ∧
      y.line.Places r.line .reply ((replyParts y.store.serial q.tag code v items).headD []) := by
  unfold State.answerQuery
  split
  · next items hitems =>
    obtain ⟨r, hr, hspec⟩ := y.sendReply_spec .query q.tag .shown v items
    refine ⟨r, .shown, items, hr, fun _ _ => ⟨rfl, hitems⟩, fun h => ?_, hspec⟩
    rw [State.viewItems_unknown y _ _ _ h] at hitems
    cases hitems
  · next hnone =>
    obtain ⟨r, hr, hspec⟩ := y.sendReply_spec .query q.tag .viewUnknown v []
    refine ⟨r, .viewUnknown, [], hr, fun h1 h6 => ?_, fun _ => ⟨rfl, rfl⟩, hspec⟩
    generalize v.toNat = view at hnone h1 h6
    interval_cases view <;> cases hnone

theorem replyParts_cons (serial : BitVec 32) (tag : Byte) (code : ReplyCode) (subject : Byte) (items : List (List Byte)) :
    ∃ first rest, replyParts serial tag code subject items = first :: rest := by
  have hcut : cutParts [] items = (cutGroups [] items).map List.flatten := cutParts_eq_groups [] items
  obtain ⟨r, rest, h⟩ := cutGroups_head [] items
  rw [replyParts, hcut, h]
  exact ⟨_, _, rfl⟩

/-- Settles O31: the reply formed from the state the query is taken in, before or after the standing unit's part. -/
theorem queryAnswered : Obligations.QueryAnswered := by
  intro c q v s hq h9 hp hon hoff
  have haddressed : s.addressed q.form.toNat q.target = true := by
    rw [s.addressed_iff q]
    cases ho : s.onLine
    · exact .inr ⟨rfl, hoff ho⟩
    · exact .inl ⟨rfl, hon ho⟩
  have answered : ∀ y : State, y.onLine = s.onLine → y.settings = s.settings → y.store = s.store →
      y.inspect = s.inspect → y.queryTaken q v = y.answerQuery q v := fun y h1 h2 h3 h4 =>
    ((y.queryTaken_cases q v).2.2 h9 (by rw [State.addressed_congr h1 h2 h3]; exact haddressed)).2 (by rw [h4, hp])
  have hstand := (s.queryFrame_stands q v).2
  have hexec := exec_query hq s
  generalize hw : s.takeFrame .query q.sender.toNat = w
  have hwhole : w = { s with line := w.line } := by rw [← hw]; rfl
  have hcounters : w.line.counters.lineErrors = s.line.counters.lineErrors ∧
      w.line.counters.queriesDropped = s.line.counters.queriesDropped := by
    rw [← hw, State.takeFrame_counters]; exact ⟨rfl, rfl⟩
  obtain ⟨herrors, hdropped⟩ := hcounters
  obtain ⟨x, hx, horder⟩ := s.queryFrame_orders q v
  rw [hw] at hx
  have hxs : x = { s with line := w.line, choices := x.choices, freeCount := x.freeCount } := by rw [hx, hwhole]
  rcases horder with ht | ht
  · rw [answered x (by rw [hxs]; rfl) (by rw [hxs]) (by rw [hxs]) (by rw [hxs])] at ht
    obtain ⟨r, code, items, hr, hknown, hunknown, hrw, hinspect, hplaces⟩ := x.answerQuery_spec q v
    obtain ⟨first, rest, hparts⟩ := replyParts_cons x.store.serial q.tag code v items
    obtain ⟨al, sd, sh, li, g, o, e⟩ := r.standingTakes_whole q.sender.toNat
    rw [hparts] at hinspect hplaces
    have hview : ∀ a b c, w.viewItems a b c = x.viewItems a b c := fun a b c => by
      rw [hx]; exact (State.viewItems_congr rfl rfl rfl rfl rfl rfl a b c).symm
    refine ⟨_, w, code, items, first, rest, hexec, .inl rfl, fun h1 h6 => ?_, hunknown, ?_, ?_, ?_, ?_, ?_, hstand, ?_⟩
    · rw [hview]; exact hknown h1 h6
    · rw [← hparts, hxs]
    · rw [ht, hr, State.standingTakes_inspect, hinspect, hxs]
    · rw [ht, hr, State.standingTakes_reply, hplaces.reply]; rfl
    · rw [ht, hr, State.standingTakes_counters, hplaces.counters, hxs]; exact herrors
    · rw [ht, hr, State.standingTakes_counters, hplaces.counters, hxs]; exact hdropped
    · rw [ht, hr, e, hrw, hxs]
  · generalize hy : x.standingTakes q.sender.toNat = y at ht
    obtain ⟨al, sd, sh, li, g, o, e⟩ := x.standingTakes_whole q.sender.toNat
    rw [hy] at e
    have hys : y = { s with
        timer := { s.timer with aligned := al }, stand := sd, share := sh, line := li, stage := g, out := o
        choices := x.choices, freeCount := x.freeCount } := by rw [e, hxs]
    rw [answered y (by rw [← hy, State.standingTakes_onLine, hxs]; rfl) (by rw [hys]) (by rw [hys]) (by rw [hys])] at ht
    obtain ⟨r, code, items, hr, hknown, hunknown, hrw, hinspect, hplaces⟩ := y.answerQuery_spec q v
    obtain ⟨first, rest, hparts⟩ := replyParts_cons y.store.serial q.tag code v items
    rw [hparts] at hinspect hplaces
    have hcount : y.line.counters = w.line.counters := by rw [← hy, State.standingTakes_counters, hx]
    have hview : ∀ a b c, (w.standingTakes q.sender.toNat).viewItems a b c = y.viewItems a b c := fun a b c => by
      obtain ⟨htimer, hstage, -⟩ := State.standingTakes_stage_congr (s := w) (t := x) (by rw [hx]) (by rw [hx])
        (by rw [hx]) (by rw [hx]) (by rw [hx]) (by rw [hx]) (by rw [hx]) q.sender.toNat
      rw [hy] at htimer hstage
      obtain ⟨al', sd', sh', li', g', o', e'⟩ := w.standingTakes_whole q.sender.toNat
      refine (State.viewItems_congr ?_ htimer hstage ?_ (by rw [hcount, State.standingTakes_counters]) ?_ a b c).symm
      · rw [← hy]; exact State.standingTakes_stand_congr (by rw [hx]) (by rw [hx]) _
      · rw [← hy, State.standingTakes_allotment, State.standingTakes_allotment, hx]
      · rw [e', e, hx]
    refine ⟨_, _, code, items, first, rest, hexec, .inr rfl, fun h1 h6 => ?_, hunknown, ?_, ?_, ?_, ?_, ?_, hstand, ?_⟩
    · rw [hview]; exact hknown h1 h6
    · rw [← hparts, hys]
    · rw [ht, hr, hinspect, hys]
    · rw [ht, hr, hplaces.reply]; rfl
    · rw [ht, hr, hplaces.counters, hcount]; exact herrors
    · rw [ht, hr, hplaces.counters, hcount]; exact hdropped
    · rw [ht, hr, hrw, hys]

end Sys2Proof.Machine
end

section
/-! The meter input, PERMIT and the records of the post link (R74 to R83, R91, R92, R112, R113, R119, R126). -/

namespace Sys2Proof.Machine

/-! ### Stage control at an event -/

/-- What is owed to the stage is read off stage control and the words sent. -/
theorem State.SendsDue.of_same {s u t : State} (h : u.SendsDue t) (hg : u.stage = s.stage)
    (ho : u.out.stage = s.out.stage) : s.SendsDue t := by
  obtain ⟨h1, h2, h3, h4, h5, h6⟩ := h
  rw [hg] at h1 h2 h3 h4 h5 h6
  rw [ho] at h5
  exact ⟨h1, h2, h3, h4, h5, h6⟩

/-- Without permission the slice is not driven so far: ENABLE is off (R121). -/
theorem State.evalPermission_lost {u : State} (h : u.permission = false) :
    u.evalPermission.stage.enable = false ∧ u.evalPermission.stage.applied = 0 ∧
      u.evalPermission.stage.pendingIncrease = none ∧ u.evalPermission.stage.wordSent = 0 ∧
      u.evalPermission.stage.sliceDriven = false := by
  obtain ⟨he, ha, hi, hw⟩ := u.evalPermission_off h
  refine ⟨he, ha, hi, hw, Bool.eq_false_iff.2 fun hd => ?_⟩
  have := (u.evalPermission_sendsDue.driven.1 hd).2.1
  rw [he] at this
  cases this

/-- Evaluated again, the permission changes nothing. -/
theorem State.evalPermission_idem (u : State) : u.evalPermission.evalPermission = u.evalPermission := by
  have hdue := u.evalPermission_sendsDue
  have hword : u.evalPermission.stage.wordSent = u.evalPermission.stage.word := by
    rw [hdue.word, StageControl.word, hdue.cap]
  have hdriven : u.evalPermission.stage.sliceDriven = true → u.evalPermission.stage.enable = true :=
    fun hd => (hdue.driven.1 hd).2.1
  cases hp : u.permission
  · obtain ⟨he, ha, hi, -⟩ := u.evalPermission_lost hp
    exact State.evalPermission_still (by rw [he, State.evalPermission_permission, hp]) (fun _ => ⟨ha, hi⟩) hword hdriven
  · obtain ⟨he, -, -⟩ := u.evalPermission_on hp
    exact State.evalPermission_still (by rw [he, State.evalPermission_permission, hp])
      (fun h => by rw [State.evalPermission_permission, hp] at h; cases h) hword hdriven

/-- M_eff formed while nothing is applied sends no word. -/
theorem State.refreshMEff_still {u : State} (ha : u.stage.applied = 0) (hw : u.stage.wordSent = 0)
    (hd : u.stage.sliceDriven = false) :
    u.refreshMEff = { u with thermal := { u.thermal with mEff := u.formedMEff } } := by
  have hword : (StageControl.word { u.stage with applied := min u.stage.applied u.formedMEff }) = u.stage.wordSent := by
    rw [hw, StageControl.word, ha, Nat.zero_min, ite_self]
  have hstage : ∀ (g : StageControl) (m : Nat), g.applied = 0 → g.sliceDriven = false →
      { g with applied := min g.applied m, sliceDriven := g.sliceDriven && g.enable } = g := by
    rintro ⟨⟩ m rfl rfl
    simp
  unfold State.refreshMEff State.clampApplied State.sendIfChanged
  rw [if_pos hword]
  exact congrArg (fun g => { u with thermal := { u.thermal with mEff := u.formedMEff }, stage := g })
    (hstage u.stage u.formedMEff ha hd)

/-! ### A change of the session -/

/-- The session changed, before stage control acts: one PHASE record where phase or set changed, and a claim on entry to
a phase that re-forms it (R59, R74). -/
theorem State.changeSession_spec (s : State) (y : Option Session) : ∃ v : State, s.changeSession y = v.evalPermission ∧
    v = { s with session := y, out := { s.out with link := v.out.link }, share := v.share, line := v.line } ∧
    v.out.link = (if ({ s with session := y } : State).phase = s.phase ∧ ({ s with session := y } : State).holds = s.holds
      then s.out.link else s.out.link ++ [({ s with session := y } : State).phaseRecord]) ∧
    (s.onLine = true → ({ s with session := y } : State).phase ≠ s.phase →
      ({ s with session := y } : State).phase.reforms = true → ∃ c, c = ({ s with session := y } : State).claimNow ∧
        v.share = { s.share with ownClaim := some c, sequence := c.sequence } ∧ s.line.Places v.line .claim c.payload) ∧
    (({ s with session := y } : State).phase = s.phase ∨ ({ s with session := y } : State).phase.reforms = false ∨
        s.onLine = false → v.share = s.share ∧ v.line = s.line) := by
  obtain ⟨u, hu, hlink, hput⟩ := s.putSession_spec y
  have hphase : u.phase = ({ s with session := y } : State).phase := by rw [hu]; rfl
  have hholds : u.holds = ({ s with session := y } : State).holds := by rw [hu]; rfl
  have hrecord : u.phaseRecord = ({ s with session := y } : State).phaseRecord := by rw [hu]; rfl
  rw [hphase, hholds, hrecord] at hlink
  rw [hphase] at hput
  refine ⟨s.putSession y, rfl, ?_, ?_, fun hon hne hre => ?_, fun hsame => ?_⟩
  · obtain ⟨_, _, _, _, e⟩ := State.putSession_frame y s
    obtain ⟨hstage, hline⟩ := s.putSession_words y
    have hsession := s.putSession_session y
    rw [e] at hstage hline hsession ⊢
    obtain rfl := hsession
    simp only [← hstage, ← hline]
  · rw [← hlink, hput]
    split
    · rw [State.formClaim_out]
    · rfl
  · have hcu : u.claimNow = ({ s with session := y } : State).claimNow := by
      refine State.claimNow_congr ?_ ?_ ?_ ?_ ?_ ?_ ?_ ?_ <;> rw [hu]
    have hsu : u.stand = s.stand := by rw [hu]
    have hou : u.stand.standing.onLine = true := by rw [hsu]; exact hon
    refine ⟨_, rfl, ?_, ?_⟩ <;> rw [hput, if_pos ⟨hne, hre⟩]
    · rw [(u.formClaim_spec hou).1, show u.share = s.share by rw [hu], hcu]; rfl
    · rw [← hcu]
      have := State.formClaim_places hou
      rwa [show u.line = s.line by rw [hu]] at this
  · have hstill : s.putSession y = u := by
      rw [hput]
      split
      · next hc =>
        rcases hsame with h | h | h
        · exact absurd h hc.1
        · rw [hc.2] at h; cases h
        · exact State.formClaim_off u (by rw [hu]; exact h)
      · rfl
    rw [hstill, hu]
    exact ⟨rfl, rfl⟩

theorem State.addHold_absent {s : State} {x : Session} {r : HoldReason} (hx : s.session = some x)
    (hr : x.holds.has r = false) : s.addHold r =
      s.changeSession (some { x with holds := x.holds.put true r, phase := x.phase.afterHold }) := by
  simp only [State.addHold, hx, hr]; rfl

theorem State.addHold_present {s : State} {x : Session} {r : HoldReason} (hx : s.session = some x)
    (hr : x.holds.has r = true) : s.addHold r = s := by
  simp only [State.addHold, hx, hr]; rfl

theorem State.removeHold_present {s : State} {x : Session} {r : HoldReason} (hx : s.session = some x)
    (hr : x.holds.has r = true) : s.removeHold r = s.changeSession (some { x with holds := x.holds.put false r }) := by
  simp only [State.removeHold, hx, hr]; rfl

theorem State.removeHold_absent {s : State} {x : Session} {r : HoldReason} (hx : s.session = some x)
    (hr : x.holds.has r = false) : s.removeHold r = s := by
  simp only [State.removeHold, hx, hr]; rfl

theorem HoldSet.put_ne {h : HoldSet} {r : HoldReason} {b : Bool} (hr : h.has r = !b) : h.put b r ≠ h := by
  intro e
  have hput : (h.put b r).has r = b := by cases r <;> rfl
  rw [e, hr] at hput
  cases b <;> cases hput

theorem Phase.afterHold_open {p : Phase} (hv : p ≠ .vacant) (hf : p ≠ .fault) : p.afterHold = .held := by
  cases p <;> first | rfl | exact absurd rfl hv | exact absurd rfl hf

theorem Phase.afterHold_eq {p : Phase} (hv : p ≠ .vacant) : p.afterHold = if p = .fault then p else .held := by
  cases p <;> first | rfl | exact absurd rfl hv

/-- A reason added to an open session that lacks it (R59, R91, R113): the permission is lost, the set reported, and the
claim re-formed with q = 0 on entry to HELD. -/
theorem State.addHold_takes {s : State} {x : Session} {r : HoldReason} (hx : s.session = some x)
    (hv : x.phase ≠ .vacant) (hr : x.holds.has r = false) : ∃ v t : State, ∃ y : Session,
    y = { x with holds := x.holds.put true r, phase := if x.phase = .fault then x.phase else .held } ∧
    t = v.evalPermission ∧ s.addHold r = t ∧ v.permission = false ∧
    v = { s with session := some y, out := { s.out with link := v.out.link }, share := v.share, line := v.line } ∧
    v.out.link = s.out.link ++ [.phase y.phase y.holds (if y.phase = .fault then y.faultReason else none)] ∧
    (s.onLine = true → x.phase ≠ .held → x.phase ≠ .fault → ∃ c, c = ({ s with session := some y } : State).claimNow ∧
      c.q = 0 ∧ c.phase = .held ∧ c.hold = true ∧
      v.share = { s.share with ownClaim := some c, sequence := c.sequence } ∧ s.line.Places v.line .claim c.payload) ∧
    (x.phase = .held ∨ x.phase = .fault → v.share = s.share ∧ v.line = s.line) := by
  generalize hy : ({ x with holds := x.holds.put true r, phase := if x.phase = .fault then x.phase else .held } : Session) = y
  have hyphase : y.phase = if x.phase = .fault then x.phase else .held := by rw [← hy]
  have hyholds : y.holds = x.holds.put true r := by rw [← hy]
  obtain ⟨v, hchange, hwhole, hlink, hclaim, hsame⟩ := s.changeSession_spec (some y)
  have hphase : ({ s with session := some y } : State).phase = y.phase := rfl
  have hholds : ({ s with session := some y } : State).holds = y.holds := rfl
  have hsp : s.phase = x.phase := by simp only [State.phase, hx]
  have hsh : s.holds = x.holds := by simp only [State.holds, hx]
  rw [hphase, hsp] at hclaim hsame
  rw [hphase, hholds, hsh, if_neg (fun h => HoldSet.put_ne hr (hyholds ▸ h.2))] at hlink
  refine ⟨v, _, y, rfl, rfl, ?_, ?_, hwhole, hlink, fun hon hh hf => ?_, fun h => hsame ?_⟩
  · rw [State.addHold_absent hx hr, ← hchange, Phase.afterHold_eq hv, hy]
  · have hvp : v.phase = y.phase := by rw [hwhole]; rfl
    have hdraws : y.phase.draws = false := by
      rw [hyphase]
      split
      · next h => rw [h]; rfl
      · rfl
    simp only [State.permission, hvp, hdraws, Bool.false_and]
  · rw [if_neg hf] at hyphase
    obtain ⟨c, hc, hshare, hplaces⟩ := hclaim hon (by rw [hyphase]; exact Ne.symm hh) (by rw [hyphase]; rfl)
    obtain ⟨hcp, -, -, -, hcr, hq⟩ := State.claimNow_session (s := { s with session := some y }) (x := y) rfl
    have hhas : y.holds.has r = true := by rw [hyholds]; cases r <;> rfl
    have hhold : c.hold = true := by
      rw [hc, State.claimNow_hold, hcr]
      cases r
      · exact .inl hhas
      · exact .inr (.inl hhas)
      · exact .inr (.inr (.inl hhas))
      · exact .inr (.inr (.inr hhas))
    rw [← hc] at hcp hq
    exact ⟨c, hc, hq (.inr hhold), hcp.trans hyphase, hhold, hshare, hplaces⟩
  · left
    rw [hyphase]
    rcases h with h | h
    · rw [h]; rfl
    · rw [h]; rfl

/-- A reason taken out of the set of an open session that has it (R92): the phase stands, the smaller set is reported. -/
theorem State.removeHold_takes {s : State} {x : Session} {r : HoldReason} (hx : s.session = some x)
    (hr : x.holds.has r = true) : ∃ v t : State, ∃ y : Session, y = { x with holds := x.holds.put false r } ∧
    t = v.evalPermission ∧ s.removeHold r = t ∧
    v = { s with session := some y, out := { s.out with link := v.out.link } } ∧
    v.out.link = s.out.link ++ [.phase x.phase y.holds (if x.phase = .fault then x.faultReason else none)] := by
  generalize hy : ({ x with holds := x.holds.put false r } : Session) = y
  obtain ⟨v, hchange, hwhole, hlink, -, hsame⟩ := s.changeSession_spec (some y)
  have hyphase : y.phase = x.phase := by rw [← hy]
  have hyholds : y.holds = x.holds.put false r := by rw [← hy]
  have hsp : s.phase = x.phase := by simp only [State.phase, hx]
  have hsh : s.holds = x.holds := by simp only [State.holds, hx]
  have hphase : ({ s with session := some y } : State).phase = y.phase := rfl
  have hholds : ({ s with session := some y } : State).holds = y.holds := rfl
  obtain ⟨hshare, hline⟩ := hsame (.inl (by rw [hphase, hyphase, hsp]))
  rw [hphase, hholds, hsh, if_neg (fun h => HoldSet.put_ne hr (hyholds ▸ h.2))] at hlink
  refine ⟨v, _, y, rfl, rfl, ?_, ?_, ?_⟩
  · rw [State.removeHold_present hx hr, ← hchange, hy]
  · rw [hwhole, hshare, hline]
  · rw [hlink, ← hy]; rfl

/-- Stage control after an event that touched neither it nor the words sent. -/
theorem State.evalPermission_after {s v : State} (hg : v.stage = s.stage) (ho : v.out.stage = s.out.stage) :
    s.SendsDue v.evalPermission := v.evalPermission_sendsDue.of_same hg ho

end Sys2Proof.Machine
end

section
/-! The meter input and PERMIT, and the records HOLD and UNPLUG (R81, R83, R91, R92, R119, R126). -/

namespace Sys2Proof.Machine

/-! ### A hold reason, with the permission evaluated after it -/

theorem State.phase_of {s : State} {x : Session} (h : s.session = some x) : s.phase = x.phase := by
  simp only [State.phase, h]

theorem State.holds_of {s : State} {x : Session} (h : s.session = some x) : s.holds = x.holds := by
  simp only [State.holds, h]

theorem State.phaseRecord_eq (s : State) : s.phaseRecord =
    .phase s.phase s.holds (s.session.bind fun x => if x.phase = .fault then x.faultReason else none) := by
  unfold State.phaseRecord State.phase State.holds
  cases s.session <;> rfl

/-- Adding a reason, as stage control sees it: the session's part, and then the permission. -/
theorem State.addHold_before (s : State) (r : HoldReason) : ∃ v : State,
    (s.addHold r).evalPermission = v.evalPermission ∧
    v = { s with session := v.session, out := { s.out with link := v.out.link }, share := v.share, line := v.line } := by
  cases hx : s.session with
  | none => exact ⟨s, by rw [State.addHold_none r s hx], rfl⟩
  | some x =>
    cases hr : x.holds.has r
    · obtain ⟨v, hv, hwhole, -⟩ := s.changeSession_spec
        (some { x with holds := x.holds.put true r, phase := x.phase.afterHold })
      exact ⟨v, by rw [State.addHold_absent hx hr, hv, State.evalPermission_idem], by rw [hwhole]⟩
    · exact ⟨s, by rw [State.addHold_present hx hr], rfl⟩

/-- The same for a reason taken out: the set alone changes, and a smaller one is reported. -/
theorem State.removeHold_before (s : State) (r : HoldReason) : ∃ v : State,
    (s.removeHold r).evalPermission = v.evalPermission ∧
    v = { s with session := v.session, out := { s.out with link := v.out.link } } ∧
    (s.session = none → v.session = none) ∧
    (∀ x, s.session = some x → v.session = some { x with holds := x.holds.put false r }) ∧
    v.out.link = s.out.link ++ if s.holds.has r then [v.phaseRecord] else [] := by
  cases hx : s.session with
  | none =>
    have hh : s.holds.has r = false := by simp only [State.holds, hx]; cases r <;> rfl
    exact ⟨s, by rw [State.removeHold_none r s hx], rfl, fun _ => hx, nofun, by rw [hh]; simp⟩
  | some x =>
    rw [State.holds_of hx]
    cases hr : x.holds.has r
    · have hput : x.holds.put false r = x.holds := by
        have h1 := State.removeHold_session r s x hx
        rw [State.removeHold_absent hx hr, hx] at h1
        exact (congrArg Session.holds (Option.some.inj h1)).symm
      exact ⟨s, by rw [State.removeHold_absent hx hr], rfl, nofun,
        fun y hy => by cases hy; rw [hput, hx], by simp⟩
    · obtain ⟨v, t, y, hy, ht, hremove, hwhole, hlink⟩ := State.removeHold_takes hx hr
      have hvs : v.session = some y := by rw [hwhole]
      refine ⟨v, by rw [hremove, ht, State.evalPermission_idem], by rw [hwhole], nofun,
        fun z hz => by cases hz; rw [hvs, hy], ?_⟩
      rw [hlink, State.phaseRecord, hvs, hy]
      rfl

/-! ### The meter input and PERMIT -/

theorem permission_low {s : State} (h : s.pins.permit = false) : s.permission = false := by
  unfold State.permission; rw [h, Bool.and_false, Bool.false_and]

/-- PERMIT_FALLING as stage control sees it. -/
theorem State.permitFalls_stage {s t : State} (hp : s.pins.permit = true) (ht : t = s.permitFalls) :
    t.pins = { s.pins with permit := false } ∧ t.stage.enable = false ∧ t.stage.applied = 0 ∧
      t.stage.pendingIncrease = none ∧ t.stage.wordSent = 0 ∧ t.stage.sliceDriven = false ∧ s.SendsDue t ∧
      t.out.line = s.out.line ∧ t.share.allotment = s.share.allotment ∧
      t = { s with pins := t.pins, session := t.session, share := t.share, stage := t.stage, line := t.line, out := t.out } := by
  have hfalls : t = (({ s with pins := { s.pins with permit := false } } : State).addHold .permit).evalPermission := by
    rw [ht, State.permitFalls, if_pos hp]
  have hallot : t.share.allotment = s.share.allotment := by
    rw [hfalls, State.evalPermission_share, State.addHold_allotment]
  obtain ⟨v, hv, hwhole⟩ := State.addHold_before { s with pins := { s.pins with permit := false } } .permit
  rw [hv] at hfalls
  have hpins : v.pins = { s.pins with permit := false } := by rw [hwhole]
  obtain ⟨he, ha, hi, hw, hd⟩ := State.evalPermission_lost (u := v) (permission_low (by rw [hpins]))
  obtain ⟨g, o, e⟩ := v.evalPermission_frame
  refine ⟨?_, ?_, ?_, ?_, ?_, ?_, ?_, ?_, hallot, ?_⟩ <;> rw [hfalls]
  · rw [State.evalPermission_pins, hpins]
  · exact he
  · exact ha
  · exact hi
  · exact hw
  · exact hd
  · exact State.evalPermission_after (by rw [hwhole]) (by rw [hwhole])
  · rw [State.evalPermission_line_out, hwhole]
  · rw [e, hwhole]

/-- PERMIT_FALLING as the session unit sees it, over an open session. -/
theorem State.permitFalls_session {s t : State} {x : Session} (hp : s.pins.permit = true) (ht : t = s.permitFalls)
    (hx : s.session = some x) (hv : x.phase ≠ .vacant) :
    (t.session = some { x with
        holds := { x.holds with permit := true }
        phase := if x.holds.permit ∨ x.phase = .fault then x.phase else .held } ∧
      t.out.link = s.out.link ++ (if x.holds.permit then [] else
        [.phase t.phase t.holds (if x.phase = .fault then x.faultReason else none)])) ∧
    (s.onLine = true → x.phase ≠ .held → x.phase ≠ .fault → x.holds.permit = false →
      ∃ c, c = ({ s with session := t.session } : State).claimNow ∧ c.q = 0 ∧ c.phase = .held ∧ c.hold = true ∧
        c.sequence = (s.share.sequence + 1) % 256 ∧
        t.share = { s.share with ownClaim := some c, sequence := c.sequence } ∧
        s.line.Places t.line .claim c.payload) := by
  have hfalls : t = (({ s with pins := { s.pins with permit := false } } : State).addHold .permit).evalPermission := by
    rw [ht, State.permitFalls, if_pos hp]
  have hx0 : ({ s with pins := { s.pins with permit := false } } : State).session = some x := hx
  cases hr : x.holds.permit
  · obtain ⟨v, u, y, hy, hu, hadd, -, hwhole, hlink, hclaim, -⟩ := State.addHold_takes (r := .permit) hx0 hv hr
    rw [hadd, hu, State.evalPermission_idem] at hfalls
    have hts : t.session = some y := by rw [hfalls, State.evalPermission_session, hwhole]
    have hlt : t.out.link = v.out.link := by rw [hfalls, State.evalPermission_link]
    have hyp : y.phase = if x.phase = .fault then x.phase else .held := by rw [hy]
    refine ⟨⟨?_, ?_⟩, fun hon hh hf _ => ?_⟩
    · rw [hts, hy]
      simp only [Bool.false_eq_true, false_or]
      rfl
    · have hfault : y.phase = .fault ↔ x.phase = .fault := by
        rw [hyp]
        by_cases hf : x.phase = .fault
        · rw [if_pos hf]
        · rw [if_neg hf]; exact ⟨nofun, fun h => absurd h hf⟩
      have hreason : y.faultReason = x.faultReason := by rw [hy]
      rw [State.phase_of hts, State.holds_of hts, hlt, hlink, if_neg Bool.false_ne_true, hreason]
      simp only [hfault]
    · obtain ⟨c, hc, hq, hcp, hhold, hshare, hplaces⟩ := hclaim hon hh hf
      refine ⟨c, hc.trans (State.claimNow_congr rfl hts.symm rfl rfl rfl rfl rfl rfl), hq, hcp, hhold, by rw [hc]; rfl, ?_, ?_⟩
      · rw [hfalls, State.evalPermission_share, hshare]
      · rw [hfalls, State.evalPermission_line]; exact hplaces
  · rw [State.addHold_present (r := .permit) hx0 hr] at hfalls
    refine ⟨⟨?_, ?_⟩, fun _ _ _ h => by cases h⟩
    · rw [hfalls, State.evalPermission_session, if_pos (.inl rfl)]
      show s.session = _
      rw [hx, ← hr]
    · rw [hfalls, State.evalPermission_link, if_pos rfl, List.append_nil]

/-- Settles O46: the edge; PERMIT_FALLING by stage control and by the session; PERMIT_RISING by the reason taken out. -/
theorem inputEdges : Obligations.InputEdges := by
  refine ⟨fun s => ?_, fun s hp => ?_, fun s hp => ?_⟩
  · have hcount : s.edgeCounts = true ↔ s.timer.running = true ∧ (s.cfg.edges = 2 ∨ s.pins.meterIn = false) := by
      unfold State.edgeCounts; simp
    show Host.Outcome.next s.meterEdge = _
    simp only [State.meterEdge, hcount]
    rfl
  · obtain ⟨hpins, he, ha, hi, hw, hd, hdue, hline, hallot, hwhole⟩ := State.permitFalls_stage hp rfl
    refine ⟨s.permitFalls, rfl, hpins, he, ha, hi, hw, fun hx => ?_, fun x hx hv => (State.permitFalls_session hp rfl hx hv).1,
      fun x hx hon hv hh hf hr => (State.permitFalls_session hp rfl hx hv).2 hon hh hf hr, fun x hx hcase => ?_, hd, hdue, hline,
      hallot, hwhole⟩
    · have hfalls : s.permitFalls = ({ s with pins := { s.pins with permit := false } } : State).evalPermission := by
        rw [State.permitFalls, if_pos hp, State.addHold_none .permit _ (by exact hx)]
      obtain ⟨g, o, e⟩ := ({ s with pins := { s.pins with permit := false } } : State).evalPermission_frame
      exact ⟨by rw [hfalls, e], by rw [hfalls, State.evalPermission_link]⟩
    · rw [State.permitFalls, if_pos hp, State.evalPermission_share, State.evalPermission_line]
      have hx0 : ({ s with pins := { s.pins with permit := false } } : State).session = some x := hx
      cases hr : x.holds.permit
      · obtain ⟨v, hv, hvw, -, -, hsame⟩ := State.changeSession_spec { s with pins := { s.pins with permit := false } }
          (some { x with holds := x.holds.put true .permit, phase := x.phase.afterHold })
        rw [State.addHold_absent (r := .permit) hx0 hr, hv, State.evalPermission_share, State.evalPermission_line]
        refine hsame (.inl ?_)
        rw [State.phase_of hx0]
        show x.phase.afterHold = x.phase
        rcases hcase with h | h | h
        · rw [h]; rfl
        · rw [h]; rfl
        · rw [hr] at h; cases h
      · rw [State.addHold_present (r := .permit) hx0 hr]; exact ⟨rfl, rfl⟩
  · have hrises : s.permitRises =
        (({ s with pins := { s.pins with permit := true } } : State).removeHold .permit).evalPermission := by
      rw [State.permitRises, if_neg (by rw [hp]; decide)]
    obtain ⟨v, hv, hwhole, hnone, hsome, hlink⟩ :=
      State.removeHold_before { s with pins := { s.pins with permit := true } } .permit
    rw [hv] at hrises
    generalize ht : s.permitRises = t at hrises
    have hdue : s.SendsDue t := by
      rw [hrises]; exact State.evalPermission_after (by rw [hwhole]) (by rw [hwhole])
    have hsession : t.session = v.session := by rw [hrises, State.evalPermission_session]
    have hperm : t.permission = v.permission := by rw [hrises, State.evalPermission_permission]
    have hvs : v.stage = s.stage := by rw [hwhole]
    have on : t.permission = true → t.stage.enable = true ∧ t.stage.applied = s.stage.applied ∧
        t.stage.pendingIncrease = s.stage.pendingIncrease := fun h => by
      rw [hperm] at h
      rw [hrises, ← hvs]; exact v.evalPermission_on h
    have off : t.permission = false → t.stage.enable = false ∧ t.stage.applied = 0 ∧
        t.stage.pendingIncrease = none := fun h => by
      rw [hperm] at h
      obtain ⟨h1, h2, h3, -⟩ := v.evalPermission_off h
      rw [hrises]; exact ⟨h1, h2, h3⟩
    have henable : t.stage.enable = t.permission := by
      cases h : t.permission
      · exact (off h).1
      · exact (on h).1
    refine ⟨t, congrArg Host.Outcome.next ht, ?_, fun h => ?_, fun x hx => ?_, ?_, fun hd => ?_, fun hd h hword => ?_, hdue, ?_,
      henable, fun h => (off h).2, fun h => (on h).2, ?_⟩
    · rw [hrises, State.evalPermission_pins, hwhole]
    · rw [hsession]; exact hnone h
    · rw [hsession]; exact hsome x hx
    · have hrec : v.phaseRecord = .phase t.phase t.holds
          (t.session.bind fun x => if x.phase = .fault then x.faultReason else none) := by
        rw [State.phaseRecord_eq]; simp only [State.phase, State.holds, hsession]
      rw [hrises, State.evalPermission_link, hlink, hrec, ← hrises]
      rfl
    · obtain ⟨h1, h2, -⟩ := hdue.driven.1 hd
      exact ⟨h1, h2⟩
    · refine hdue.driven.2 ⟨hd, (on h).1, .inl ?_⟩
      rw [hdue.word, (on h).2.1, hword]
    · rw [hrises, State.evalPermission_line_out, hwhole]
    · obtain ⟨g, o, e⟩ := v.evalPermission_frame
      rw [hrises, e, hwhole]

/-! ### HOLD and UNPLUG -/

theorem State.record_on {s : State} (h : s.onLine = true) (k : RecordKind) (f : State → State) : s.record k f = f s :=
  if_pos h

/-- Settles O50: the two answers without effect, and DRIVER added. -/
theorem holdTaken : Obligations.HoldTaken := by
  intro s hon
  have hexec : exec .hold s = .next s.holdTaken := congrArg Host.Outcome.next (State.record_on hon _ _)
  rw [hexec]
  have taken : ∀ x, s.session = some x → x.phase ≠ .vacant → x.phase ≠ .fault →
      s.holdTaken = (s.ack .hold .taken).addHold .driver := fun x hx hv hf => by
    rw [State.holdTaken, if_neg (by rw [State.phase_of hx]; exact fun h => h.elim hv hf)]
  refine ⟨fun h => ?_, fun x hx hv hf hr => ?_, fun x hx hv hf hr => ?_⟩
  · rw [State.holdTaken, if_pos h]; rfl
  · rw [taken x hx hv hf, State.addHold_present (x := x) (by exact hx) (by exact hr)]; rfl
  · obtain ⟨v, t, y, hy, ht, hadd, hlost, hwhole, hlink, hclaim, hsame⟩ :=
      State.addHold_takes (s := s.ack .hold .taken) (r := .driver) hx hv hr
    rw [if_neg hf] at hy
    obtain ⟨he, ha, hi, hw, hd⟩ := State.evalPermission_lost hlost
    obtain ⟨g, o, e⟩ := v.evalPermission_frame
    have hts : t.session = some y := by rw [ht, State.evalPermission_session, hwhole]
    have hshare : t.share = v.share := by rw [ht, State.evalPermission_share]
    have hline : t.line = v.line := by rw [ht, State.evalPermission_line]
    have hyp : y.phase = .held := by rw [hy]
    refine ⟨t, _, by rw [taken x hx hv hf, hadd], rfl, by rw [hts, hy]; rfl, ?_, by rw [ht, ha], by rw [ht, hi],
      by rw [ht, he], by rw [ht, hw], by rw [ht, hd], ?_, ?_, fun hh => ?_, fun hh => ?_, ?_⟩
    · rw [ht, State.evalPermission_link, hlink, hyp, hy, if_neg (by decide), State.ack, State.sendLink]
      simp only [List.append_assoc]
      rfl
    · rw [ht]; exact State.evalPermission_after (by rw [hwhole]; rfl) (by rw [hwhole]; rfl)
    · rw [ht, State.evalPermission_line_out, hwhole]; rfl
    · obtain ⟨c, hc, hq, hcp, hhold, hcs, hplaces⟩ := hclaim hon hh hf
      refine ⟨c, ?_, hc.trans (State.claimNow_congr rfl hts.symm rfl rfl rfl rfl rfl rfl), hq, hhold, hcp, ?_⟩
      · rw [hshare, hcs, hc]; rfl
      · rw [hline]; exact hplaces
    · rw [hshare, hline]; exact hsame (.inl hh)
    · rw [ht, e, hwhole]; rfl

/-- Settles O51: the record of the last session, the session closed, and M_eff of no session. -/
theorem unplugTaken : Obligations.UnplugTaken := by
  intro s hon
  have hexec : exec .unplug s = .next s.unplugTaken := congrArg Host.Outcome.next (State.record_on hon _ _)
  rw [hexec]
  refine ⟨fun hx => ?_, fun x hx hv => ?_⟩
  · rw [show s.unplugTaken = s.ack .unplug .ignored by simp only [State.unplugTaken, hx]]; rfl
  · generalize ha : (s.writeLast .unplug).ack .unplug .taken = a
    have haw : a = { s with
        last := some { van := x.van, delivered := s.runningWh x, reason := .unplug, finalPhase := x.phase }
        out := { s.out with link := s.out.link ++ [.ack .unplug .taken] } } := by
      rw [← ha]; simp only [State.writeLast, hx]; rfl
    have hunplug : s.unplugTaken = (a.changeSession none).refreshMEff := by simp only [State.unplugTaken, hx, ha]
    have hap : a.phase = x.phase := State.phase_of (by rw [haw]; exact hx)
    have hon' : a.onLine = true := by rw [haw]; exact hon
    obtain ⟨v, hv', hwhole, hlink, hclaim, -⟩ := a.changeSession_spec none
    have hvacant : ({ a with session := none } : State).phase = .vacant := rfl
    rw [hvacant, hap] at hlink hclaim
    rw [if_neg (fun h => hv h.1.symm)] at hlink
    obtain ⟨c, hc, hshare, hplaces⟩ := hclaim hon' (Ne.symm hv) rfl
    have hvs : v.session = none := by rw [hwhole]
    have hlost : v.permission = false := by simp only [State.permission, State.phase, hvs]; rfl
    obtain ⟨he, hap0, hi, hw, hd⟩ := State.evalPermission_lost hlost
    rw [hv', State.refreshMEff_still hap0 hw hd] at hunplug
    have hmeff : v.evalPermission.formedMEff = 0 := by
      unfold State.formedMEff; rw [State.evalPermission_session, hvs]
    have hcs : c = ({ s with session := none } : State).claimNow :=
      hc.trans (by refine State.claimNow_congr ?_ ?_ ?_ ?_ ?_ ?_ ?_ ?_ <;> rw [haw])
    obtain ⟨hcp, hq, -⟩ := State.claimNow_vacant (s := { s with session := none }) rfl
    obtain ⟨g, o, e⟩ := v.evalPermission_frame
    have hdue : s.SendsDue v.evalPermission := State.evalPermission_after (by rw [hwhole, haw]) (by rw [hwhole, haw])
    rw [hmeff] at hunplug
    rw [hunplug]
    refine ⟨_, c, rfl, ?_, ?_, ?_, ?_, hcs, by rw [hcs]; exact hq, by rw [hcs]; exact hcp, ?_, hap0, hi, he, hw, hd,
      { hdue with }, ?_, ?_, ?_⟩
    · show v.evalPermission.session = none
      rw [State.evalPermission_session, hvs]
    · show v.evalPermission.last = _
      rw [State.evalPermission_last, hwhole, haw]
    · show v.evalPermission.out.link = _
      rw [State.evalPermission_link, hlink, haw]
      simp only [List.append_assoc]
      rfl
    · show v.evalPermission.share = _
      rw [State.evalPermission_share, hshare, hcs, haw]; rfl
    · show s.line.Places v.evalPermission.line .claim c.payload
      rw [State.evalPermission_line]
      rwa [show a.line = s.line by rw [haw]] at hplaces
    · show v.evalPermission.out.line = _
      rw [State.evalPermission_line_out, hwhole, haw]
    · show ({ v.evalPermission.thermal with mEff := 0 } : ThermalScan) = _
      rw [State.evalPermission_thermal, hwhole, haw]
    · rw [e, hwhole, haw]

end Sys2Proof.Machine
end

section
/-! The records PLUG, TAPER and RESUME (R76 to R80, R82). -/

namespace Sys2Proof.Machine

/-! ### PLUG -/

theorem PlugFields.clamped_eq_iff (rating : Nat) (p : PlugFields) : p.clamped rating = p ↔
    (p.clamped rating).need = p.need ∧ (p.clamped rating).vanMax = p.vanMax ∧ (p.clamped rating).floor = p.floor ∧
      (p.clamped rating).precondPower = p.precondPower ∧ (p.clamped rating).precondTime = p.precondTime := by
  obtain ⟨van, need, vanMax, floor, precondPower, precondTime⟩ := p
  simp [PlugFields.clamped]

/-- The departure a session opens with, by clock and notice (R78). -/
theorem openingDeparture_cases (clock : Option Nat) (notice : Option NoticeEntry) (default : Nat) :
    (clock = none → openingDeparture clock notice default = (28800, .horizon)) ∧
    (∀ now e d, clock = some now → notice = some e → d = (e.departure + 86400 - now) % 86400 →
      openingDeparture clock notice default = (if d ≤ 72000 then d else 0, .notice)) ∧
    (∀ now d, clock = some now → notice = none → d = (default + 86400 - now) % 86400 →
      openingDeparture clock notice default = (if d = 0 then 86400 else d, .default)) := by
  refine ⟨?_, ?_, ?_⟩
  · rintro rfl; rfl
  · rintro now e d rfl rfl rfl; rfl
  · rintro now d rfl rfl rfl; rfl

/-- The target a session opens with (R78). -/
theorem sessionTarget_cases (need : Nat) (notice : Option NoticeEntry) :
    (∀ e w, notice = some e → e.target = some w →
      sessionTarget need (notice.bind NoticeEntry.target) = (min need w, .notice)) ∧
    ((∀ e, notice = some e → e.target = none) →
      sessionTarget need (notice.bind NoticeEntry.target) = (need, .van)) := by
  refine ⟨?_, fun h => ?_⟩
  · rintro e w rfl h
    simp only [Option.bind_some, h, sessionTarget]
  · cases notice with
    | none => rfl
    | some e => simp only [Option.bind_some, h e rfl, sessionTarget]

/-- A session opened (R78, R79): the record of an open one, the notice consumed, the power lost, and M_eff formed. -/
theorem State.openSession_spec (s : State) (p : PlugFields) (result : AckResult) : ∃ v : State,
    s.openSession p result =
      { v.evalPermission with thermal := { s.thermal with mEff := v.evalPermission.formedMEff } } ∧
    v.permission = false ∧
    v = { s with
      session := some (s.newSession p)
      last := (s.writeLast .superseded).last
      notices := { s.notices with table := s.notices.table.filter fun e => decide (e.van ≠ p.van) }
      out := { s.out with link := s.out.link ++ [.ack .plug result, .phase .attached {} none] } } := by
  obtain ⟨l, hl⟩ := State.writeLast_frame .superseded s
  have hlast : (s.writeLast .superseded).last = l := by rw [hl]
  generalize hv : (({ (s.writeLast .superseded).consumeNotice p.van with
    session := some (s.newSession p) } : State).ack .plug result).sendPhase = v
  have hwhole : v = { s with
      session := some (s.newSession p)
      last := l
      notices := { s.notices with table := s.notices.table.filter fun e => decide (e.van ≠ p.van) }
      out := { s.out with link := s.out.link ++ [.ack .plug result, .phase .attached {} none] } } := by
    rw [← hv, hl]
    simp only [State.consumeNotice, State.ack, State.sendPhase, State.sendLink, List.append_assoc]
    rfl
  have hlost : v.permission = false := by rw [hwhole]; rfl
  obtain ⟨-, ha, -, hw, hd⟩ := State.evalPermission_lost hlost
  refine ⟨v, ?_, hlost, by rw [hlast]; exact hwhole⟩
  have hthermal : v.evalPermission.thermal = s.thermal := by rw [State.evalPermission_thermal, hwhole]
  rw [← hthermal, ← State.refreshMEff_still ha hw hd, ← hv]
  rfl

theorem State.writeLast_last (s : State) (r : EndReason) : (s.writeLast r).last = match s.session with
    | none => s.last
    | some x => some { van := x.van, delivered := s.runningWh x, reason := r, finalPhase := x.phase } := by
  unfold State.writeLast
  cases s.session <;> rfl

/-- Settles O48: the session opened by its fields, then what `openSession_spec` leaves. -/
theorem plugTaken : Obligations.PlugTaken := by
  intro s r hon
  have hexec : exec (.plug r) s = .next (s.plugTaken (plugFields r)) := congrArg Host.Outcome.next (State.record_on hon _ _)
  have hvan : (plugFields r).van = 0 ↔ r.van = 0 :=
    ⟨fun h => BitVec.eq_of_toNat_eq h, fun h => by simp only [plugFields, h]; rfl⟩
  rw [hexec]
  refine ⟨fun h => ?_, fun hv hf => ?_⟩
  · rw [State.plugTaken, if_pos (h.imp_left hvan.2)]; rfl
  · generalize hp : (plugFields r).clamped s.cfg.stageRating = p
    generalize hres : (if p = plugFields r then AckResult.taken else .clamped) = result
    have hplug : s.plugTaken (plugFields r) = s.openSession p result := by
      rw [State.plugTaken, if_neg (fun h => h.elim (fun h => hv (hvan.1 h)) hf), hp, hres]
    obtain ⟨v, hopen, hlost, hwhole⟩ := s.openSession_spec p result
    obtain ⟨he, ha, hi, hw, hd⟩ := State.evalPermission_lost hlost
    obtain ⟨hd1, hd2, hd3⟩ := openingDeparture_cases s.timer.clock (noticeOf p.van s.notices.table) s.cfg.defaultDeparture
    obtain ⟨ht1, ht2⟩ := sessionTarget_cases p.need (noticeOf p.van s.notices.table)
    have hpv : p.van = r.van.toNat := by rw [← hp]; rfl
    have hdue : s.SendsDue v.evalPermission := State.evalPermission_after (by rw [hwhole])
      (by rw [hwhole])
    obtain ⟨g, o, e⟩ := v.evalPermission_frame
    have hsession : v.evalPermission.session = some (s.newSession p) := by rw [State.evalPermission_session, hwhole]
    rw [hplug, hopen]
    refine ⟨_, s.newSession p, noticeOf p.van s.notices.table, result, rfl, hsession, hpv, rfl, ?_, ?_, ?_, ?_, ?_, rfl, rfl, rfl,
      rfl, rfl, rfl, rfl, rfl, rfl, by rw [hpv]; rfl, fun e w h1 h2 => ?_, fun h => ?_, fun h => ?_, fun now e d h1 h2 h3 => ?_,
      fun now d h1 h2 h3 => ?_, ?_, ?_, ?_, ?_, ?_, ha, hi, he, hw, ?_, ?_, { hdue with }, hd, ?_, ?_⟩
    · show p.need = _; rw [← hp]; rfl
    · show p.vanMax = _; rw [← hp]; rfl
    · show p.floor = min _ p.vanMax; rw [← hp]; rfl
    · show p.precondPower = _; rw [← hp]; rfl
    · show p.precondTime = _; rw [← hp]; rfl
    · exact ⟨congrArg Prod.fst (ht1 e w h1 h2), congrArg Prod.snd (ht1 e w h1 h2)⟩
    · exact ⟨congrArg Prod.fst (ht2 h), congrArg Prod.snd (ht2 h)⟩
    · exact ⟨congrArg Prod.fst (hd1 h), congrArg Prod.snd (hd1 h)⟩
    · exact ⟨congrArg Prod.snd (hd2 now e d h1 h2 h3), congrArg Prod.fst (hd2 now e d h1 h2 h3)⟩
    · exact ⟨congrArg Prod.snd (hd3 now d h1 h2 h3), congrArg Prod.fst (hd3 now d h1 h2 h3)⟩
    · have hiff := PlugFields.clamped_eq_iff s.cfg.stageRating (plugFields r)
      rw [hp] at hiff
      refine Iff.trans ?_ hiff
      rw [← hres]
      split
      · next h => exact ⟨fun _ => h, fun _ => rfl⟩
      · next h => exact ⟨nofun, fun hc => absurd hc h⟩
    · rw [← hres]
      split
      · exact .inl rfl
      · exact .inr rfl
    · show v.evalPermission.out.link = _
      rw [State.evalPermission_link, hwhole]
    · show v.evalPermission.notices = _
      rw [State.evalPermission_notices, hwhole, hpv]
    · show v.evalPermission.last = _
      rw [State.evalPermission_last, hwhole]
      exact s.writeLast_last .superseded
    · show v.evalPermission.out.stage = _
      rw [hdue.sent, hw]
      by_cases h0 : s.stage.wordSent = 0
      · rw [if_pos h0, if_pos h0.symm]
      · rw [if_neg h0, if_neg (Ne.symm h0)]
    · show v.evalPermission.out.line = _
      rw [State.evalPermission_line_out, hwhole]
    · have hot : s.thermal.hot = v.evalPermission.thermal.hot := by rw [State.evalPermission_thermal, hwhole]
      refine congrArg (fun m => ({ s.thermal with mEff := m } : ThermalScan)) (Eq.symm ?_)
      exact State.formedMEff_congr rfl hot rfl
    · rw [e, hwhole]

/-! ### TAPER and RESUME -/

/-- Settles O49: M_eff formed over the new van max power; DRIVER taken out. -/
theorem taperAndResume : Obligations.TaperAndResume := by
  refine ⟨fun s m hon => ?_, fun s hon => ?_⟩
  · have hexec : exec (.taper m) s = .next (s.taperTaken m.toNat) := congrArg Host.Outcome.next (State.record_on hon _ _)
    rw [hexec]
    refine ⟨fun hx => ?_, fun x hx => ?_⟩
    · rw [show s.taperTaken m.toNat = s.ack .taper .ignored by simp only [State.taperTaken, hx]]; rfl
    · generalize hu : (({ s with session := some { x with vanMax := min m.toNat s.cfg.stageRating } } : State).ack .taper
        (if min m.toNat s.cfg.stageRating = m.toNat then .taken else .clamped)) = u
      have huw : u = { s with
          session := some { x with vanMax := min m.toNat s.cfg.stageRating }
          out := { s.out with link := s.out.link ++
            [.ack .taper (if m.toNat ≤ s.cfg.stageRating then .taken else .clamped)] } } := by
        rw [← hu]; simp only [min_eq_left_iff]; rfl
      have htaper : s.taperTaken m.toNat = u.refreshMEff := by simp only [State.taperTaken, hx, hu]
      obtain ⟨b, w, hthermal, hstage, hlink, hline, -⟩ := u.refreshMEff_spec
      have hdue : s.SendsDue u.refreshMEff := u.refreshMEff_sendsDue.of_same (by rw [huw]) (by rw [huw])
      obtain ⟨g, o, th, e⟩ := u.refreshMEff_frame
      have hformed : u.refreshMEff.formedMEff = u.formedMEff :=
        State.formedMEff_congr (by rw [e]) (by rw [hthermal]) (by rw [e])
      rw [htaper]
      refine ⟨_, rfl, ?_, ?_, ?_, ?_, ?_, ?_, hdue, ?_, ?_⟩
      · rw [State.refreshMEff_session, huw]
      · rw [hlink, huw]
      · rw [hformed, hthermal, huw]
      · rw [hstage, hthermal, huw]
      · rw [hstage, huw]
      · rw [hstage, huw]
      · rw [hline, huw]
      · rw [e, huw]
  · have hexec : exec .resume s = .next s.resumeTaken := congrArg Host.Outcome.next (State.record_on hon _ _)
    rw [hexec]
    refine ⟨fun h => ?_, fun x hx hv hr => ?_⟩
    · rw [State.resumeTaken, if_neg (by rw [h]; decide)]; rfl
    · obtain ⟨v, t, y, hy, ht, hremove, hwhole, hlink⟩ :=
        State.removeHold_takes (s := s.ack .resume .taken) (r := .driver) hx hr
      have hresume : s.resumeTaken = v.evalPermission := by
        rw [State.resumeTaken, if_pos (by rw [State.holds_of hx]; exact hr), hremove, ht]
      have hvp : v.permission = s.permission := by
        have hphase : v.phase = s.phase := by rw [State.phase_of hx, hwhole, hy]; rfl
        simp only [State.permission, hphase]; rw [hwhole]; rfl
      have hvs : v.stage = s.stage := by rw [hwhole]; rfl
      obtain ⟨g, o, e⟩ := v.evalPermission_frame
      rw [hresume]
      refine ⟨_, _, rfl, rfl, ?_, ?_, ?_, fun h => ?_, fun h => ?_, fun h => ?_, State.evalPermission_after hvs (by rw [hwhole]; rfl),
        ?_, ?_⟩
      · rw [State.evalPermission_session, hwhole, hy]; rfl
      · rw [State.evalPermission_link, hlink, hy, State.ack, State.sendLink]
        simp only [List.append_assoc]
        rfl
      · cases hp : s.permission <;> rw [hp] at hvp
        · exact (v.evalPermission_off hvp).1
        · exact (v.evalPermission_on hvp).1
      · obtain ⟨-, ha, hi, -⟩ := v.evalPermission_off (hvp.trans h)
        exact ⟨ha, hi⟩
      · obtain ⟨-, ha, hi⟩ := v.evalPermission_on (hvp.trans h)
        rw [hvs] at ha hi
        exact ⟨ha, hi⟩
      · rw [h.evalPermission hvs hvp, hwhole]; exact ⟨rfl, rfl⟩
      · rw [State.evalPermission_line_out, hwhole]; rfl
      · rw [e, hwhole]; rfl

end Sys2Proof.Machine
end

section
/-! Events of the depot line, a claim read back, and an attempt begun (R151 to R153, R155 to R157, R160, R163). -/

namespace Sys2Proof.Machine

/-! ### Events of the line -/

/-- The line engine after a quiet gap on a quiet line (R160). -/
theorem State.quietGap_quiet {s : State} (hs : s.isSending = false) (ha : s.line.lineActive = false) :
    s.quietGap = { s with line := { s.line with
      quietTimer := max s.line.quietTimer 160, receiver := .hunt
      counters := { s.line.counters with
        lineErrors := match s.line.receiver with
          | .frame _ => min 65535 (s.line.counters.lineErrors + 1)
          | .hunt => s.line.counters.lineErrors
          | .skip _ => s.line.counters.lineErrors } } } := by
  unfold State.quietGap
  rw [hs, ha, if_neg (by decide)]
  cases hr : s.line.receiver with
  | hunt => simp only [Config.quietGapMicros]; rw [← hr]
  | frame chars => rfl
  | skip b => rfl

/-- A character in error is counted, but where a SKIP with nothing to count discards it (R160; log 9). -/
theorem State.receiveBad_spec (s : State) : s.receiveBad = { s with line := { s.line with
    receiver := .skip false
    counters := { s.line.counters with
      lineErrors := if s.line.receiver = .skip false then s.line.counters.lineErrors
        else min 65535 (s.line.counters.lineErrors + 1) } } } := by
  unfold State.receiveBad
  cases hr : s.line.receiver with
  | hunt => rfl
  | frame chars => rfl
  | skip b =>
    cases b
    · simp only [if_true]; rw [← hr]
    · rfl

/-- Settles O39: each event by its part of the line engine. -/
theorem lineEvents : Obligations.LineEvents := by
  refine ⟨fun _ _ _ => ⟨rfl, rfl, rfl⟩, fun s => rfl, fun s hs => ?_, fun s hs => ⟨fun ha => ?_, fun ha => ?_, ?_⟩⟩
  · show Host.Outcome.next (s.ofAttemptOr _ _) = _
    rw [State.ofAttemptOr_not_sending hs, State.receiveBad_spec]
    rfl
  · exact congrArg Host.Outcome.next (State.quietGap_quiet hs ha)
  · show Host.Outcome.next s.quietGap = _
    rw [State.quietGap, ha, if_pos (by rw [Bool.or_true])]
  · show Host.Outcome.next s.startBit = _
    rw [State.startBit, hs, if_neg Bool.false_ne_true]
    cases s.line.sender <;> rfl

/-! ### A claim read back -/

theorem Standing.ofClaimCode_byte {st : Standing} (h : st.onLine = true) :
    Standing.ofClaimCode (BitVec.ofNat 8 (st.code / 256 ^ 0)).toNat = some st := by
  cases st <;> first | rfl | cases h

theorem bitOf_flagByte_three (a b c : Bool) : bitOf (flagByte [a, b, c]) 0 = a ∧ bitOf (flagByte [a, b, c]) 1 = b ∧
    bitOf (flagByte [a, b, c]) 2 = c :=
  ⟨flagByte_getLsbD [a, b, c] 0 (by decide), flagByte_getLsbD [a, b, c] 1 (by decide),
    flagByte_getLsbD [a, b, c] 2 (by decide)⟩

theorem HoldSet.ofByte_byte (h : HoldSet) : HoldSet.ofByte h.byte = h := by
  have bit : ∀ i, i < 8 → bitOf h.byte i = [h.driver, h.permit, h.thermal, h.meter].getD i false :=
    fun i hi => flagByte_getLsbD _ i hi
  simp only [HoldSet.ofByte, bit 0 (by decide), bit 1 (by decide), bit 2 (by decide), bit 3 (by decide)]
  rfl

/-- A number below 65536 in its two bytes. -/
theorem numBE_pair {n : Nat} (h : n < 65536) : numBE [BitVec.ofNat 8 (n / 256 ^ 1), BitVec.ofNat 8 (n / 256 ^ 0)] = n :=
  numBE_bytesBE (k := 2) h

/-- A well-formed claim is entered field for field (R38, R153). -/
theorem peerEntryOf_payload {c : Claim} (h : c.WellFormed) (bay round : Nat) : peerEntryOf bay round c.payload = some
    { bay := bay, lastHeard := round, standing := c.standing, phase := BitVec.ofNat 8 c.phase.code, q := c.q, m := c.mEff
      f := c.f, k := c.k, pEff := c.pEff, thermal := c.thermal, clash := c.clash, hold := c.hold, reasons := c.reasons
      sequence := c.sequence } := by
  obtain ⟨hm, hf, hp⟩ := h.powers
  simp only [Config.maxPower] at hm hf hp
  have hasks := h.asks
  have hkey := h.key
  have hseq := h.sequence
  obtain ⟨b0, b1, b2⟩ := bitOf_flagByte_three c.thermal c.clash c.hold
  have hbyte : (BitVec.ofNat 8 (c.sequence / 256 ^ 0)).toNat = c.sequence := by
    rw [BitVec.toNat_ofNat, pow_zero, Nat.div_one, Nat.mod_eq_of_lt (by omega)]
  simp only [peerEntryOf, Claim.payload, bytesBE, List.cons_append, List.nil_append, Standing.ofClaimCode_byte h.standing,
    numBE_pair (by omega : c.q < 65536), numBE_pair (by omega : c.mEff < 65536), numBE_pair (by omega : c.f < 65536),
    numBE_pair (by omega : c.k < 65536), numBE_pair (by omega : c.pEff < 65536), b0, b1, b2, HoldSet.ofByte_byte, hbyte]
  rw [if_pos ⟨hm, hf, hp, hasks, h.floor⟩, pow_zero, Nat.div_one]

/-- Settles O42: the payload written out, and read back. -/
theorem claimReadBack : Obligations.ClaimReadBack := by
  refine ⟨fun c => ?_, fun c bay round h => ⟨_, peerEntryOf_payload h bay round, rfl, rfl, rfl, rfl, ?_, rfl, rfl, rfl, rfl, rfl,
    rfl, rfl, rfl, rfl, rfl⟩⟩
  · rw [Claim.payload, HoldSet.byte, flagByte_three, flagByte_four]
  · cases c.phase <;> rfl

/-! ### An attempt begun -/

theorem State.placeFrame_whole (s : State) (slot : Slot) (p : List Byte) :
    s.placeFrame slot p = { s with line := (s.placeFrame slot p).line } := by
  obtain ⟨_, e⟩ := s.placeFrame_frame slot p
  rw [e]

theorem prngNext_toNat (g : BitVec 16) : (prngNext g).toNat = (g.toNat * 7417 + 2851) % 65536 := by
  simp only [prngNext, BitVec.toNat_add, BitVec.toNat_mul, BitVec.toNat_ofNat]
  omega

/-- On a quiet line the highest occupied slot's frame goes out (R155, R156, R157). -/
theorem State.beginAttempt_highest {s : State} {b w : Nat} {slot : Slot} {f : Queued} (hw : s.line.sender = .waiting b w)
    (ha : s.line.lineActive = false) (ho : s.line.outbox.highest = some (slot, f)) :
    s.beginAttempt = { s with line := { s.line with
      sender := .sending ⟨slot, frameBytes slot.kind s.senderBay (s.payloadNow slot f), false, false, 0⟩ } } := by
  have hbegin : s.beginAttempt = s.setSender
      (.sending ⟨slot, frameBytes slot.kind s.senderBay (s.payloadNow slot f), false, false, 0⟩) := by
    simp only [State.beginAttempt, hw, ha, ho, Bool.false_eq_true, if_false]
  rw [hbegin]
  rfl

/-- Settles O43: the outbox, a frame placed, the generator, and the highest slot's frame on the line. -/
theorem attemptBegins : Obligations.AttemptBegins := by
  refine ⟨fun o f => ⟨rfl, rfl, rfl, rfl⟩, fun s slot p => ⟨s.placeFrame_places slot p, s.placeFrame_whole slot p⟩,
    fun g m => ⟨prngNext_toNat g, rfl⟩, ?_⟩
  rintro s b w bay hw ha rfl
  refine ⟨fun hm => ?_, fun f hm hc => ?_, fun f hm hc hr => ?_⟩
  · obtain ⟨f, hf⟩ := Option.isSome_iff_exists.1 hm
    exact congrArg Host.Outcome.next (State.beginAttempt_highest (f := f) hw ha (by simp only [Outbox.highest, hf]))
  · exact congrArg Host.Outcome.next (State.beginAttempt_highest hw ha (by simp only [Outbox.highest, hm, hc]))
  · exact congrArg Host.Outcome.next (State.beginAttempt_highest hw ha (by simp only [Outbox.highest, hm, hc, hr]))

end Sys2Proof.Machine
end

section
/-! An attempt ended: the frame sent in full, or a collision (R157 to R160, R164, R173). -/

namespace Sys2Proof.Machine

/-! ### After an attempt -/

/-- The sender after an attempt, the rest standing (R156, R163). -/
theorem State.afterAttempt_settles (m : Nat) (v : State) : ∃ t, v.afterAttempt m = t ∧
    t = { v with line := { v.line with sender := t.line.sender, prng := t.line.prng } } ∧
    (v.line.outbox.isEmpty = true → t.line.sender = .idle ∧ t.line.prng = v.line.prng) ∧
    (v.line.outbox.isEmpty = false →
      t.line.sender = .waiting (prngValue m (prngNext v.line.prng)) 0 ∧ t.line.prng = prngNext v.line.prng) := by
  obtain ⟨l, e⟩ := v.afterAttempt_frame m
  have hl : (v.afterAttempt m).line = l := by rw [e]
  cases h : v.line.outbox.isEmpty
  · rw [State.afterAttempt_waits m h] at hl
    rw [e]
    exact ⟨_, rfl, by rw [← hl], nofun, fun _ => by rw [← hl]; exact ⟨rfl, rfl⟩⟩
  · rw [State.afterAttempt_idle m h] at hl
    rw [e]
    exact ⟨_, rfl, by rw [← hl], fun _ => by rw [← hl]; exact ⟨rfl, rfl⟩, nofun⟩

/-! ### The frame sent in full -/

/-- The frame has left its slot; its owner is told, and the sender goes on (R157, R159). -/
theorem State.frameSent_told {s : State} {a : Attempt} (h : s.line.sender = .sending a) : ∃ u : State,
    u = { s with
      line := { s.line with quietTimer := 0, lineActive := false, receiver := .skip false
                            outbox := if a.replaced then s.line.outbox else s.line.outbox.set a.slot none }
      out := { s.out with line := s.out.line ++ [a.bytes] } } ∧
    (a.slot = .mark → s.frameSent a = u.afterAttempt 16) ∧
    (a.slot = .claim → s.frameSent a = (u.reportClaim true).afterAttempt 16) ∧
    (a.slot = .reply → s.frameSent a = u.replySent.afterAttempt 16) := by
  have hsender : s.line.sender.rewait = s.line.sender := by rw [h]; rfl
  refine ⟨if a.replaced
      then { s.attemptEnds with out := { s.attemptEnds.out with line := s.attemptEnds.out.line ++ [a.bytes] } }
      else ({ s.attemptEnds with
        out := { s.attemptEnds.out with line := s.attemptEnds.out.line ++ [a.bytes] } } : State).setSlot a.slot none,
    ?_, fun hs => ?_, fun hs => ?_, fun hs => ?_⟩
  · unfold State.attemptEnds State.characterEnds State.setReceiver
    rw [hsender]
    split
    · rfl
    · rfl
  all_goals simp only [State.frameSent, hs]

/-- What every attempt sent in full leaves, told `v` before the sender goes on. -/
theorem State.sent_common {s v t : State} {a : Attempt}
    (hline : v.line = { s.line with quietTimer := 0, lineActive := false, receiver := .skip false
                                    sender := v.line.sender, outbox := v.line.outbox })
    (hout : v.out.line = s.out.line ++ [a.bytes]) (ht : v.afterAttempt 16 = t) :
    t = { v with line := t.line } ∧ t.line.outbox = v.line.outbox ∧ t.out.line = s.out.line ++ [a.bytes] ∧
      t.line.receiver = .skip false ∧
      (t.line.outbox.isEmpty = true → t.line.sender = .idle) ∧
      (t.line.outbox.isEmpty = false → t.line.sender = .waiting (prngValue 16 (prngNext s.line.prng)) 0 ∧
        t.line.prng = prngNext s.line.prng) ∧
      t.line.counters = s.line.counters ∧ t.line.lineActive = false ∧ t.line.quietTimer = 0 ∧
        (t.line.outbox.isEmpty = true → t.line.prng = s.line.prng) := by
  obtain ⟨t', ht', hwhole, hidle, hwait⟩ := v.afterAttempt_settles 16
  obtain rfl := ht'.symm.trans ht
  have hbox : t'.line.outbox = v.line.outbox := by rw [hwhole]
  have hprng : v.line.prng = s.line.prng := by rw [hline]
  rw [hprng] at hidle hwait
  refine ⟨by rw [hwhole], hbox, by rw [hwhole]; exact hout, ?_, ?_, ?_, ?_, ?_, ?_, ?_⟩
  · rw [hwhole, hline]
  · rw [hbox]; exact fun h => (hidle h).1
  · rw [hbox]; exact hwait
  · rw [hwhole, hline]
  · rw [hwhole, hline]
  · rw [hwhole, hline]
  · rw [hbox]; exact fun h => (hidle h).2

theorem State.replySent_none {u : State} (h : u.inspect.pendingReply = none) : u.replySent = u := by
  simp only [State.replySent, h]

theorem State.replySent_done {u : State} {r : PendingReply} (h : u.inspect.pendingReply = some r) (hk : r.kind ≠ .restart)
    (hp : r.parts[r.placed]? = none) : u.replySent = u.setReply none := by
  simp only [State.replySent, h, hp, if_neg hk]

theorem State.replySent_next {u : State} {r : PendingReply} {part : List Byte} (h : u.inspect.pendingReply = some r)
    (hk : r.kind ≠ .restart) (hp : r.parts[r.placed]? = some part) :
    u.replySent = (u.setReply (some { r with placed := r.placed + 1 })).placeFrame .reply part := by
  simp only [State.replySent, h, hp, if_neg hk]

/-- Settles O44: by the slot of the attempt, and a REPLY by what is left of the pending one. -/
theorem sentInFull : Obligations.SentInFull := by
  intro s a h
  have hexec : exec .sentInFull s = .next (s.frameSent a) := congrArg Host.Outcome.next (State.ofAttemptOr_sending h _ _)
  rw [hexec]
  obtain ⟨u, hu, hmark, hclaim, hreply⟩ := State.frameSent_told h
  have husender : u.line.sender = .sending a := by rw [hu]; exact h
  cases hs : a.slot with
  | mark =>
    obtain ⟨hwhole, hbox, hline, hrec, hidle, hwait, hrest⟩ :=
      State.sent_common (s := s) (v := u) (a := a) (by rw [hu]) (by rw [hu]) (hmark hs).symm
    refine ⟨_, rfl, hline, hrec, hidle, hwait, fun _ => hrest, fun _ => ⟨?_, ?_⟩, nofun, nofun, nofun⟩
    · rw [hbox, hu]; simp only [hs]; rfl
    · rw [hwhole, hu]
  | claim =>
    obtain ⟨hwhole, hbox, hline, hrec, hidle, hwait, hrest⟩ :=
      State.sent_common (s := s) (v := u.reportClaim true) (a := a) (by rw [hu]; rfl) (by rw [hu]; rfl) (hclaim hs).symm
    refine ⟨_, rfl, hline, hrec, hidle, hwait, fun _ => hrest, nofun, fun _ => ⟨?_, ?_, ?_⟩, nofun, nofun⟩
    · rw [hbox, hu]; simp only [hs]; rfl
    · rw [hwhole, hu]; rfl
    · rw [hwhole, hu]; rfl
  | reply =>
    cases hp : s.inspect.pendingReply with
    | none =>
      rw [hreply hs, State.replySent_none (by rw [hu]; exact hp)]
      obtain ⟨hwhole, hbox, hline, hrec, hidle, hwait, hrest⟩ :=
        State.sent_common (s := s) (v := u) (a := a) (by rw [hu]) (by rw [hu]) rfl
      exact ⟨_, rfl, hline, hrec, hidle, hwait, fun _ => hrest, nofun, nofun, (fun _ r hr => by cases hr),
        fun _ _ => by rw [hwhole, hu]⟩
    | some r =>
      by_cases hk : r.kind = .restart
      · rw [State.frameSent_restart hs hp hk]
        refine ⟨_, rfl, ?_, ?_, ?_, ?_, fun hc => ?_, nofun, nofun, fun _ r' hr' => ⟨fun _ => ?_, fun hc => ?_, fun _ hc => ?_⟩,
          nofun⟩
        · rw [State.restart_eq]
        · rw [State.restart_eq]
        · rw [State.restart_eq]; exact fun _ => rfl
        · rw [State.restart_eq]; exact nofun
        · exact (hc.elim (fun hc => hc rfl) (fun hc => hc r rfl hk)).elim
        · rw [State.restart_eq]; exact ⟨rfl, rfl, rfl, rfl, rfl, rfl⟩
        · cases hr'; exact absurd hk hc
        · cases hr'; exact absurd hk hc
      · have hpu : u.inspect.pendingReply = some r := by rw [hu]; exact hp
        cases hn : r.parts[r.placed]? with
        | none =>
          rw [hreply hs, State.replySent_done hpu hk hn]
          obtain ⟨hwhole, hbox, hline, hrec, hidle, hwait, hrest⟩ :=
            State.sent_common (s := s) (v := u.setReply none) (a := a) (by rw [hu]; rfl) (by rw [hu]; rfl) rfl
          refine ⟨_, rfl, hline, hrec, hidle, hwait, fun _ => hrest, nofun, nofun, fun _ r' hr' => ⟨fun hc => ?_, fun _ _ => ⟨?_, ?_, ?_⟩,
            fun part _ hc => ?_⟩, nofun⟩
          · cases hr'; exact absurd hc hk
          · rw [hwhole, hu]; rfl
          · rw [hbox, hu]; simp only [hs]; rfl
          · rw [hwhole, hu]; rfl
          · cases hr'; rw [hn] at hc; cases hc
        | some part =>
          generalize hv : (u.setReply (some { r with placed := r.placed + 1 })).placeFrame .reply part = v
          have hvw : v = { u with
              inspect := { u.inspect with pendingReply := some { r with placed := r.placed + 1 } }, line := v.line } := by
            rw [← hv]; exact State.placeFrame_whole _ _ _
          have hvl : u.line.Places v.line .reply part := by
            rw [← hv]
            exact State.placeFrame_places .reply part (u.setReply (some { r with placed := r.placed + 1 }))
          have hprng := (hvl.sending a husender).1
          have hvline : v.line = { s.line with quietTimer := 0, lineActive := false, receiver := .skip false
                                               sender := v.line.sender, outbox := v.line.outbox } := by
            rw [hvl.others, hprng, hu]
          rw [hreply hs, State.replySent_next hpu hk hn, hv]
          obtain ⟨hwhole, hbox, hline, hrec, hidle, hwait, hrest⟩ :=
            State.sent_common (s := s) (v := v) (a := a) hvline (by rw [hvw, hu]) rfl
          refine ⟨_, rfl, hline, hrec, hidle, hwait, fun _ => hrest, nofun, nofun, fun _ r' hr' => ⟨fun hc => ?_, fun _ hc => ?_,
            fun part' _ hc => ?_⟩, nofun⟩
          · cases hr'; exact absurd hc hk
          · cases hr'; rw [hn] at hc; cases hc
          · cases hr'
            obtain rfl : part = part' := Option.some.inj (hn.symm.trans hc)
            refine ⟨by rw [hwhole, hvw, hu], ?_, by rw [hwhole, hvw, hu]⟩
            rw [hbox, hvl.inSlot, hu, hs]
            split <;> rfl

/-! ### A collision -/

/-- A reply discarded is abandoned, but a RESTART's stays occupied (R173, R180). -/
theorem State.replyDiscarded_eq (w : State) : w.replyDiscarded = { w with inspect := { w.inspect with
    pendingReply := w.inspect.pendingReply.bind fun r => if r.kind = .restart then some r else none } } := by
  unfold State.replyDiscarded
  cases h : w.inspect.pendingReply with
  | none =>
    exact congrArg (fun p => { w with inspect := { w.inspect with pendingReply := p } }) h
  | some r =>
    rw [Option.bind_some]
    by_cases hk : r.kind = .restart
    · simp only [if_pos hk]
      exact congrArg (fun p => { w with inspect := { w.inspect with pendingReply := p } }) h
    · simp only [if_neg hk]; rfl

/-- All that a collision can change of what is not the sender's. -/
theorem State.collideFrame_frame (u : State) (a : Attempt) : ∃ o n st i c k, u.collideFrame a = { u with
    line := { u.line with outbox := o, counters := { u.line.counters with claimsUnposted := n } }
    stand := st, inspect := i, choices := c, freeCount := k } := by
  have discard : ∀ w : State, ∀ slot, ∃ n st i, w.reportDiscard slot = { w with
      line := { w.line with counters := { w.line.counters with claimsUnposted := n } }, stand := st, inspect := i } := by
    intro w slot
    cases slot with
    | mark => exact ⟨_, _, _, rfl⟩
    | claim => exact ⟨_, _, _, rfl⟩
    | reply => rw [State.reportDiscard, State.replyDiscarded_eq]; exact ⟨_, _, _, rfl⟩
  unfold State.collideFrame
  split
  · split
    · rw [choose_eq u]
      split
      · obtain ⟨_, _, _, e⟩ := discard { u with choices := u.choose.2.choices, freeCount := u.choose.2.freeCount } .claim
        rw [e]; exact ⟨_, _, _, _, _, _, rfl⟩
      · exact ⟨_, _, _, _, _, _, rfl⟩
    · exact ⟨_, _, _, _, _, _, rfl⟩
  · split
    · exact ⟨_, _, _, _, _, _, rfl⟩
    · split
      · obtain ⟨_, _, _, e⟩ := discard (u.setSlot a.slot none) a.slot
        rw [e]; exact ⟨_, _, _, _, _, _, rfl⟩
      · exact ⟨_, _, _, _, _, _, rfl⟩

theorem State.collideFrame_replaced {u : State} {a : Attempt} (hr : a.replaced = true) :
    (u.collideFrame a).line.outbox = u.line.outbox ∧
      (a.slot ≠ .claim ∨ a.noRetry = false → u.collideFrame a = u) := by
  unfold State.collideFrame
  rw [if_pos hr]
  refine ⟨?_, fun h => if_neg ?_⟩
  · split
    · rw [choose_eq u]
      split <;> rfl
    · rfl
  · rintro ⟨h1, h2⟩
    rcases h with h | h
    · exact h h1
    · rw [h2] at h; cases h

theorem State.collideFrame_kept {u : State} {a : Attempt} {f : Queued} (hr : a.replaced = false)
    (hf : u.line.outbox.get a.slot = some f) (hn : a.noRetry = false) (hc : f.collisions + 1 < 8) :
    u.collideFrame a = u.setSlot a.slot (some { f with collisions := f.collisions + 1 }) := by
  unfold State.collideFrame
  rw [if_neg (by rw [hr]; decide), hf]
  refine if_neg ?_
  rintro (h | h)
  · rw [hn] at h; cases h
  · simp only [Config.maxCollisions] at h; omega

theorem State.collideFrame_discarded {u : State} {a : Attempt} {f : Queued} (hr : a.replaced = false)
    (hf : u.line.outbox.get a.slot = some f) (h : a.noRetry = true ∨ 8 ≤ f.collisions + 1) :
    u.collideFrame a = (u.setSlot a.slot none).reportDiscard a.slot := by
  unfold State.collideFrame
  rw [if_neg (by rw [hr]; decide), hf]
  exact if_pos h

/-- A CLAIM discarded is recorded UNSENT unless one was sent (R158). -/
theorem State.reportClaim_unsent (u : State) : u.reportClaim false = { u with stand := { u.stand with
    claimRecord := if u.stand.claimRecord = .sent then .sent else .unsent } } := by
  simp only [State.reportClaim, Bool.false_and, Bool.or_false]
  cases u.stand.claimRecord <;> rfl

/-- Settles O45: counted, the frame dealt with, and the sender after the attempt. -/
theorem collisionTaken : Obligations.CollisionTaken := by
  intro s a h
  have hsender : s.line.sender.rewait = s.line.sender := by rw [h]; rfl
  generalize hu : s.attemptEnds.countCollision = u
  have huw : u = { s with line := { s.line with
      quietTimer := 0, lineActive := false, receiver := .skip false
      counters := { s.line.counters with collisions := min 65535 (s.line.counters.collisions + 1) } } } := by
    rw [← hu]
    unfold State.attemptEnds State.characterEnds State.setReceiver State.countCollision
    rw [hsender]
    rfl
  generalize hv : u.collideFrame a = v
  obtain ⟨t, ht, hwhole, hidle, hwait⟩ := v.afterAttempt_settles 64
  have hcollides : s.frameCollides a = t := by rw [← ht, ← hv, ← hu]; rfl
  have hexec : exec .collision s = .next t := by
    rw [← hcollides]; exact congrArg Host.Outcome.next (State.ofAttemptOr_sending h _ _)
  have hexec' : exec .receiveError s = .next t := by
    rw [← hcollides]; exact congrArg Host.Outcome.next (State.ofAttemptOr_sending h _ _)
  obtain ⟨o, n, st, i, c, k, e⟩ := u.collideFrame_frame a
  rw [hv] at e
  have hbox : t.line.outbox = v.line.outbox := by rw [hwhole]
  have hcount : t.line.counters = v.line.counters := by rw [hwhole]
  have hprng : v.line.prng = s.line.prng := by rw [e, huw]
  rw [hprng] at hidle hwait
  have hget : u.line.outbox = s.line.outbox := by rw [huw]
  have hcu : u.line.counters.claimsUnposted = s.line.counters.claimsUnposted := by rw [huw]
  refine ⟨t, hexec, hexec', ?_, ?_, ?_, fun he => ?_, fun he => ?_, fun he => ?_, fun hr => ?_, fun f hr hf => ⟨fun hn hc => ?_, fun hd => ?_⟩⟩
  · rw [hcount, e, huw]
  · rw [hwhole, e, huw]
  · rw [hwhole, e, huw]
  · rw [hbox] at he; exact (hidle he).1
  · rw [hbox] at he; exact (hidle he).2
  · rw [hbox] at he; exact hwait he
  · obtain ⟨hsame, hstill⟩ := State.collideFrame_replaced (u := u) hr
    rw [hv] at hsame hstill
    refine ⟨by rw [hbox, hsame, hget], fun hc => ⟨?_, ?_⟩⟩
    · rw [hwhole, hstill hc, huw]
    · rw [hcount, hstill hc, hcu]
  · rw [State.collideFrame_kept hr (by rw [hget]; exact hf) hn hc] at hv
    refine ⟨?_, ?_, ?_⟩
    · rw [hwhole, ← hv, huw]; rfl
    · rw [hcount, ← hv]; exact hcu
    · rw [hbox, ← hv, ← hget]; rfl
  · rw [State.collideFrame_discarded hr (by rw [hget]; exact hf) hd] at hv
    have hout : v.line.outbox = s.line.outbox.set a.slot none := by
      rw [← hv, ← hget]
      cases a.slot with
      | mark => rfl
      | claim => rfl
      | reply => rw [State.reportDiscard, State.replyDiscarded_eq]; rfl
    refine ⟨hbox.trans hout, fun hs => ?_, fun hs => ?_, fun hs => ?_⟩ <;> rw [hs] at hv
    · rw [hwhole, ← hv, huw]; rfl
    · rw [State.reportDiscard, State.reportClaim_unsent] at hv
      refine ⟨?_, ?_, ?_⟩
      · rw [hwhole, ← hv, huw]; rfl
      · rw [hcount, ← hv, ← hcu]; rfl
      · rw [hwhole, ← hv, huw]; rfl
    · rw [State.reportDiscard, State.replyDiscarded_eq] at hv
      have hti : t.inspect = { s.inspect with
          pendingReply := s.inspect.pendingReply.bind fun r => if r.kind = .restart then some r else none } := by
        rw [hwhole, ← hv, huw]; rfl
      refine ⟨?_, by rw [hti], fun r hp => ?_⟩
      · rw [hwhole, ← hv, huw]; rfl
      · rw [hti, hp]; rfl

end Sys2Proof.Machine
end

section
/-! A character heard, and a frame heard character by character (R151, R152, R157, R160, R161). -/

namespace Sys2Proof.Machine

/-! ### The receiver -/

theorem Sender.rewait_idem (x : Sender) : x.rewait.rewait = x.rewait := by cases x <;> rfl

/-- Before its length a frame only grows. -/
theorem State.assemble_short {chars : List Byte} (h : chars.length < 4) (s : State) :
    s.assemble chars = s.setReceiver (.frame chars) := by
  match chars, h with
  | [], _ => rfl
  | [_], _ => rfl
  | [_, _], _ => rfl
  | [_, _, _], _ => rfl
  | _ :: _ :: _ :: _ :: _, h => simp only [List.length_cons] at h; omega

/-- A length above 56 is refused (R160). -/
theorem State.assemble_long (a kind sender len : Byte) (rest : List Byte) (h : 56 < len.toNat) (s : State) :
    s.assemble (a :: kind :: sender :: len :: rest) = s.countLineError.setReceiver (.skip false) := if_pos h

/-- Short of its last character a frame grows (R160). -/
theorem State.assemble_grows (a kind sender len : Byte) (rest : List Byte) (h : len.toNat ≤ 56)
    (hr : rest.length < len.toNat + 2) (s : State) : s.assemble (a :: kind :: sender :: len :: rest) =
      s.setReceiver (.frame (a :: kind :: sender :: len :: rest)) := by
  rw [State.assemble, if_neg (by simp only [Config.maxPayload]; omega), if_neg (by omega)]

/-- The last character brings CRC and kind to the check (R160). -/
theorem State.assemble_last (a kind sender len : Byte) (sum : List Byte) (h : len.toNat ≤ 56)
    (hr : sum.length = len.toNat + 2) (s : State) : s.assemble (a :: kind :: sender :: len :: sum) =
      s.completeFrame kind sender len (sum.take len.toNat) (sum.drop len.toNat) := by
  rw [State.assemble, if_neg (by simp only [Config.maxPayload]; omega), if_pos hr]

theorem FrameKind.ofCode_iff (b : Byte) (k : FrameKind) : FrameKind.ofCode b = some k ↔ k.code = b := by
  constructor
  · intro h
    unfold FrameKind.ofCode at h
    split at h <;> cases h
    all_goals exact BitVec.eq_of_toNat_eq (Eq.symm (by assumption))
  · rintro rfl
    cases k <;> rfl

theorem FrameKind.ofCode_none {b : Byte} (h : b = 0 ∨ 8 ≤ b.toNat) : FrameKind.ofCode b = none := by
  cases hk : FrameKind.ofCode b with
  | none => rfl
  | some k =>
    have hb := (FrameKind.ofCode_iff b k).1 hk
    rcases h with h | h
    · rw [h] at hb; cases k <;> cases hb
    · rw [← hb] at h; cases k <;> exact absurd h (by decide)

/-- A frame with a wrong CRC or no kind is rejected (R160). -/
theorem State.completeFrame_wrong {kind sender len : Byte} {payload sum : List Byte}
    (h : kind = 0 ∨ 8 ≤ kind.toNat ∨ sum ≠ bytesBE 2 (crc (kind :: sender :: len :: payload)).toNat) (s : State) :
    s.completeFrame kind sender len payload sum = s.rejectFrame := by
  unfold State.completeFrame
  split
  · next hs =>
    rw [FrameKind.ofCode_none (h.imp_right fun h => h.resolve_right (not_not.2 hs))]
  · rfl

/-- A list of characters with a fourth one. -/
theorem four_of_getElem? {l : List Byte} {len : Byte} (h : l[3]? = some len) :
    ∃ a b c rest, l = a :: b :: c :: len :: rest := by
  match l, h with
  | a :: b :: c :: d :: rest, h => exact ⟨a, b, c, rest, by cases h; rfl⟩

/-- A whole character by the receiver's state, but for the last of a valid frame (R160). -/
theorem State.receive_cases (s : State) (c : Byte) (r : Receiver) (errors : Nat)
    (h : (s.line.receiver = .hunt ∧ c = 0xA5 ∧ r = .frame [0xA5] ∧ errors = s.line.counters.lineErrors) ∨
      (s.line.receiver = .hunt ∧ c ≠ 0xA5 ∧ r = .skip false ∧
        errors = min 65535 (s.line.counters.lineErrors + 1)) ∨
      (s.line.receiver = .skip true ∧ r = .skip false ∧ errors = min 65535 (s.line.counters.lineErrors + 1)) ∨
      (s.line.receiver = .skip false ∧ r = .skip false ∧ errors = s.line.counters.lineErrors) ∨
      (∃ chars, s.line.receiver = .frame chars ∧ 1 ≤ chars.length ∧
        ((chars.length < 3 ∧ r = .frame (chars ++ [c]) ∧ errors = s.line.counters.lineErrors) ∨
         (chars.length = 3 ∧ 56 < c.toNat ∧ r = .skip false ∧
            errors = min 65535 (s.line.counters.lineErrors + 1)) ∨
         (chars.length = 3 ∧ c.toNat ≤ 56 ∧ r = .frame (chars ++ [c]) ∧ errors = s.line.counters.lineErrors) ∨
         (∃ len, chars[3]? = some len ∧ len.toNat ≤ 56 ∧ chars.length + 1 < len.toNat + 6 ∧
            r = .frame (chars ++ [c]) ∧ errors = s.line.counters.lineErrors) ∨
         (∃ kind sender len sum, len.toNat ≤ 56 ∧
            chars ++ [c] = 0xA5 :: kind :: sender :: len :: sum ∧ sum.length = len.toNat + 2 ∧
            (kind = 0 ∨ 8 ≤ kind.toNat ∨ sum.drop len.toNat ≠
              bytesBE 2 (crc (kind :: sender :: len :: sum.take len.toNat)).toNat) ∧
            r = .skip true ∧ errors = min 65535 (s.line.counters.lineErrors + 1))))) :
    s.characterEnds.receive c = { s with line := { s.line with
      quietTimer := 0, lineActive := false, sender := s.line.sender.rewait, receiver := r
      counters := { s.line.counters with lineErrors := errors } } } := by
  have hrec : s.characterEnds.line.receiver = s.line.receiver := rfl
  have framed : ∀ chars, s.line.receiver = .frame chars →
      s.characterEnds.receive c = s.characterEnds.assemble (chars ++ [c]) := fun chars h => by
    unfold State.receive; rw [hrec, h]
  rcases h with ⟨hr, hc, rfl, rfl⟩ | ⟨hr, hc, rfl, rfl⟩ | ⟨hr, rfl, rfl⟩ | ⟨hr, rfl, rfl⟩ | ⟨chars, hr, h1, h⟩
  · unfold State.receive; rw [hrec, hr, hc]; rfl
  · unfold State.receive; rw [hrec, hr]; exact if_neg hc
  · unfold State.receive; rw [hrec, hr]; rfl
  · have hstill : s.characterEnds.receive c = s.characterEnds := by unfold State.receive; rw [hrec, hr]
    rw [hstill, ← hr]; rfl
  · rw [framed chars hr]
    rcases h with ⟨hl, rfl, rfl⟩ | ⟨hl, hc, rfl, rfl⟩ | ⟨hl, hc, rfl, rfl⟩ | ⟨len, hl, h56, hlen, rfl, rfl⟩ |
      ⟨kind, sender, len, sum, h56, hchars, hsum, hbad, rfl, rfl⟩
    · rw [State.assemble_short (by simp only [List.length_append, List.length_singleton]; omega)]; rfl
    · obtain ⟨a, b, d, rfl⟩ := List.length_eq_three.1 hl
      exact State.assemble_long a b d c [] hc _
    · obtain ⟨a, b, d, rfl⟩ := List.length_eq_three.1 hl
      exact State.assemble_grows a b d c [] hc (by simp only [List.length_nil]; omega) _
    · obtain ⟨a, b, d, rest, rfl⟩ := four_of_getElem? hl
      simp only [List.length_cons] at hlen
      exact State.assemble_grows a b d len (rest ++ [c]) h56
        (by simp only [List.length_append, List.length_singleton]; omega) _
    · rw [hchars, State.assemble_last _ _ _ _ _ h56 hsum, State.completeFrame_wrong hbad]
      unfold State.rejectFrame State.characterEnds State.setReceiver State.countLineError
      rw [Sender.rewait_idem]
      rfl

/-- Settles O40: read back during an own attempt, and otherwise taken by the receiver's state. -/
theorem characterHeard : Obligations.CharacterHeard := by
  intro s c
  refine ⟨_, rfl, fun a ha => ⟨fun hc hl => ?_, fun hc hl => ?_, fun hc => ?_⟩, fun hs r errors h => ?_⟩
  · rw [State.ofAttemptOr_sending ha, State.readBack_match s hc hl]
    unfold State.characterEnds State.setSender
    rfl
  · rw [State.ofAttemptOr_sending ha, State.readBack_last s hc hl]
    exact congrArg Host.Outcome.next (State.ofAttemptOr_sending ha _ _)
  · rw [State.ofAttemptOr_sending ha, State.readBack_differs s hc]
    exact congrArg Host.Outcome.next (State.ofAttemptOr_sending ha _ _)
  · rw [State.ofAttemptOr_hearing hs]
    exact State.receive_cases s c r errors h

end Sys2Proof.Machine
end

section
/-! A frame heard character by character does what the row of the table for it does (R151, R152, R160, R161). -/

namespace Sys2Proof.Machine

/-! ### The row of a frame -/

theorem numBE_lt (bs : List Byte) : numBE bs < 256 ^ bs.length := by
  induction bs using List.reverseRecOn with
  | nil => decide
  | append_singleton bs b ih =>
    rw [numBE_append_byte, List.length_append, List.length_singleton, pow_succ]
    have := b.isLt
    omega

/-- A QUERY of another length is malformed whatever its fields (R169). -/
theorem State.queryFrame_malformed {q p : QueryFrame} (hq : q.length ≠ 9) (hp : p.length ≠ 9)
    (hs : p.sender = q.sender) (v w : Byte) (s : State) : s.queryFrame q v = s.queryFrame p w := by
  have hcount : ∀ r : QueryFrame, r.length ≠ 9 → ∀ u : Byte, State.queryTaken r u = State.countLineError := fun r hr u =>
    funext fun y => (y.queryTaken_cases r u).1 (.inl hr)
  unfold State.queryFrame State.deliverQuery
  rw [hcount q hq, hcount p hp, hs]

theorem ofNat_ne_nine {n : Nat} (h : n ≤ 56) (hn : n ≠ 9) : BitVec.ofNat 8 n ≠ (9 : Byte) := by
  intro e
  have := congrArg BitVec.toNat e
  rw [BitVec.toNat_ofNat, Nat.mod_eq_of_lt (by omega)] at this
  exact hn this

/-- A QUERY payload that is not of 9 bytes has no fields to read (R169). -/
theorem queryOf_of_length_ne_nine {payload : List Byte} (h9 : payload.length ≠ 9) (sender : Byte) :
    queryOf sender payload = (⟨sender, 0, 0, 0, 0, 0, 0⟩, 0) := by
  unfold queryOf
  split
  · exact absurd rfl h9
  · rfl

/-- Its row carries the length, as a byte, and no fields. -/
theorem rowOf_query_of_length_ne_nine {payload : List Byte} (h9 : payload.length ≠ 9) (sender : Byte) (temps : Temps) :
    rowOf .query sender payload temps = .queryStatus ⟨sender, BitVec.ofNat 8 payload.length, 0, 0, 0, 0, 0⟩ := by
  unfold rowOf
  dsimp only
  split
  · exact absurd rfl h9
  · rfl

/-- The row of a QUERY frame of 9 bytes delivers it, whatever view it asks for. -/
theorem exec_rowOf_query_nine (form t3 t2 t1 t0 tag view start count sender : Byte) (temps : Temps) (s : State) :
    exec (rowOf .query sender [form, t3, t2, t1, t0, tag, view, start, count] temps) s =
      .next (s.deliverFrame .query sender [form, t3, t2, t1, t0, tag, view, start, count]) := by
  have row : ∀ v : Byte, view.toNat = v.toNat → view = v := fun _ => BitVec.eq_of_toNat_eq
  unfold rowOf
  dsimp only
  split
  · next hv => rw [row 1 hv]; rfl
  · next hv => rw [row 2 hv]; rfl
  · next hv => rw [row 3 hv]; rfl
  · next hv => rw [row 4 hv]; rfl
  · next hv => rw [row 5 hv]; rfl
  · next hv => rw [row 6 hv]; rfl
  · rfl

/-- The row of a QUERY frame delivers it. -/
theorem exec_rowOf_query {payload : List Byte} (h : payload.length ≤ 56) (sender : Byte) (temps : Temps) (s : State) :
    exec (rowOf .query sender payload temps) s = .next (s.deliverFrame .query sender payload) := by
  by_cases h9 : payload.length = 9
  · match payload, h9 with
    | [form, t3, t2, t1, t0, tag, view, start, count], _ =>
      exact exec_rowOf_query_nine form t3 t2 t1 t0 tag view start count sender temps s
  · have hdeliver : s.deliverFrame .query sender payload =
        (s.takeFrame .query sender.toNat).deliverQuery (queryOf sender payload).1 (queryOf sender payload).2 := rfl
    rw [hdeliver, queryOf_of_length_ne_nine h9, rowOf_query_of_length_ne_nine h9]
    exact congrArg Host.Outcome.next (State.queryFrame_malformed (q := ⟨sender, BitVec.ofNat 8 payload.length, 0, 0, 0, 0, 0⟩)
      (p := ⟨sender, 0, 0, 0, 0, 0, 0⟩) (ofNat_ne_nine h h9) (show (0 : Byte) ≠ 9 by decide) rfl 1 0 s)

/-- The row of a SETUP frame delivers it. -/
theorem exec_rowOf_setup (sender : Byte) (payload : List Byte) (temps : Temps) (s : State) :
    exec (rowOf .setup sender payload temps) s = .next (s.deliverFrame .setup sender payload) := by
  have hdeliver : s.deliverFrame .setup sender payload = s.setupFrame sender (State.setupTaken payload) := rfl
  rw [hdeliver]
  unfold rowOf
  simp only
  split
  · next s3 s2 s1 s0 action field v3 v2 v1 v0 =>
    have hvalue : (BitVec.ofNat 32 (numBE [v3, v2, v1, v0])).toNat = numBE [v3, v2, v1, v0] := by
      rw [BitVec.toNat_ofNat]
      exact Nat.mod_eq_of_lt ((numBE_lt [v3, v2, v1, v0]).trans_le (by simp))
    have action_is : ∀ f, (∀ w : State, w.setupTaken [s3, s2, s1, s0, action, field, v3, v2, v1, v0] = f w) →
        State.setupTaken [s3, s2, s1, s0, action, field, v3, v2, v1, v0] = f := fun f hf => funext hf
    split
    · next ha =>
      rw [action_is (State.setupFor (BitVec.ofNat 32 (numBE [s3, s2, s1, s0]))
        (State.decideWrite field.toNat (numBE [v3, v2, v1, v0]))) fun w => by simp only [State.setupTaken, ha]]
      exact congrArg (fun n => Host.Outcome.next (s.setupFrame sender (State.setupFor (BitVec.ofNat 32 (numBE [s3, s2, s1, s0]))
        (State.decideWrite field.toNat n)))) hvalue
    · next ha =>
      rw [action_is (State.setupFor (BitVec.ofNat 32 (numBE [s3, s2, s1, s0])) State.decideLock)
        fun w => by simp only [State.setupTaken, ha]]
      rfl
    · next ha =>
      rw [action_is (State.setupFor (BitVec.ofNat 32 (numBE [s3, s2, s1, s0])) State.decideRestart)
        fun w => by simp only [State.setupTaken, ha]]
      rfl
    · rfl
  · rfl

/-- Every row of a valid frame delivers it (R161). -/
theorem exec_rowOf {payload : List Byte} (h : payload.length ≤ 56) (kind : FrameKind) (sender : Byte) (s : State) :
    exec (rowOf kind sender payload s.pins.temps) s = .next (s.deliverFrame kind sender payload) := by
  cases kind with
  | mark => rfl
  | claim => rfl
  | notice => rfl
  | limit => rfl
  | query => exact exec_rowOf_query h sender _ s
  | reply => rfl
  | setup => exact exec_rowOf_setup sender payload _ s

/-! ### The characters one by one -/

/-- The part after some characters of a frame, the others still to be heard. -/
def State.heardSoFar (chars rest : List Byte) (s : State) : State :=
  { s with
    line := { s.line with quietTimer := 0, lineActive := false, sender := s.line.sender.rewait, receiver := .frame chars }
    pending := rest.map Instr.characterHeard }

theorem Sender.rewait_not_sending {x : Sender} (h : ∀ a, x ≠ .sending a) : ∀ a, x.rewait ≠ .sending a := by
  cases x with
  | idle => exact nofun
  | waiting b w => exact nofun
  | sending a => exact absurd rfl (h a)

theorem State.heardSoFar_hears {s : State} (h : s.isSending = false) (chars rest : List Byte) :
    (s.heardSoFar chars rest).isSending = false := by
  unfold State.isSending State.heardSoFar at *
  cases hs : s.line.sender with
  | sending a => rw [hs] at h; cases h
  | idle => rfl
  | waiting b w => rfl

/-- One character heard with no attempt under way. -/
theorem step_characterHeard {s : State} {c : Byte} {rest : List Instr} (hp : s.pending = .characterHeard c :: rest)
    (hs : s.isSending = false) : step s = .next (({ s with pending := rest } : State).characterEnds.receive c) := by
  rw [step_cons hp]
  exact congrArg Host.Outcome.next (State.ofAttemptOr_hearing (s := { s with pending := rest }) (by exact hs) _ _)

/-- A run of one step more. -/
theorem run_of_step {s t : State} (h : step s = .next t) (k : Nat) :
    Host.Core.run Sys2Proof.core (k + 1) s = Host.Core.run Sys2Proof.core k t := by
  have hcore : Sys2Proof.core.step s = .next t := h
  simp only [Host.Core.run, hcore]

/-- The character of a frame that is not its last (R160). -/
theorem State.heardSoFar_step {s : State} (hs : s.isSending = false) {done rest : List Byte} {c : Byte}
    (hgrow : ∀ w : State, w.assemble (done ++ [c]) = w.setReceiver (.frame (done ++ [c]))) :
    step (s.heardSoFar done (c :: rest)) = .next (s.heardSoFar (done ++ [c]) rest) := by
  rw [step_characterHeard (c := c) (rest := rest.map Instr.characterHeard) rfl (State.heardSoFar_hears hs _ _)]
  show Host.Outcome.next (State.assemble (done ++ [c]) _) = _
  rw [hgrow]
  unfold State.heardSoFar State.characterEnds State.setReceiver
  simp only [Sender.rewait_idem]

/-- A frame taken is the same whatever of it was heard. -/
theorem State.deliverFrame_heardSoFar {s : State} (hp : s.pending = []) (chars : List Byte) (kind : FrameKind)
    (sender : Byte) (payload : List Byte) : ((s.heardSoFar chars []).characterEnds).deliverFrame kind sender payload =
      s.deliverFrame kind sender payload := by
  have htake : ∀ b, ((s.heardSoFar chars []).characterEnds).takeFrame kind b = s.takeFrame kind b := fun b => by
    unfold State.heardSoFar State.takeFrame State.characterEnds State.setReceiver
    simp only [Sender.rewait_idem, List.map_nil, ← hp]
  unfold State.deliverFrame
  rw [htake]

/-- The frame's characters after those heard, one by one, come to its delivery. -/
theorem run_heardSoFar {s : State} (hs : s.isSending = false) (hp : s.pending = []) {kind : FrameKind} {sender : Byte}
    {payload : List Byte} (h56 : payload.length ≤ 56) (rest : List Byte) :
    ∀ done, rest ≠ [] → frameBytes kind sender payload = done ++ rest →
      Host.Core.run Sys2Proof.core rest.length (s.heardSoFar done rest) = .next (s.deliverFrame kind sender payload) := by
  have hlen : (BitVec.ofNat 8 payload.length).toNat = payload.length := by
    rw [BitVec.toNat_ofNat]; omega
  generalize hsum : payload ++
    bytesBE 2 (crc (kind.code :: sender :: BitVec.ofNat 8 payload.length :: payload)).toNat = sum
  have hsumlen : sum.length = payload.length + 2 := by
    rw [← hsum, List.length_append, bytesBE_length]
  have hframe : frameBytes kind sender payload = 0xA5 :: kind.code :: sender :: BitVec.ofNat 8 payload.length :: sum := by
    rw [← hsum]; rfl
  rw [hframe]
  induction rest with
  | nil => exact fun _ h => absurd rfl h
  | cons c rest ih =>
    intro done _ hdone
    cases rest with
    | nil =>
      have hstep : step (s.heardSoFar done [c]) = .next (s.deliverFrame kind sender payload) := by
        rw [step_characterHeard (c := c) (rest := []) rfl (State.heardSoFar_hears hs _ _)]
        show Host.Outcome.next (State.assemble (done ++ [c]) (s.heardSoFar done []).characterEnds) = _
        have htake : sum.take payload.length = payload := by rw [← hsum, List.take_left]
        have hdrop : sum.drop payload.length =
            bytesBE 2 (crc (kind.code :: sender :: BitVec.ofNat 8 payload.length :: payload)).toNat := by
          rw [← hsum, List.drop_left]
        rw [← hdone, State.assemble_last _ _ _ _ _ (by rw [hlen]; exact h56) (by rw [hlen]; exact hsumlen), hlen, htake, hdrop,
          State.completeFrame, if_pos rfl, (FrameKind.ofCode_iff _ kind).2 rfl]
        exact congrArg Host.Outcome.next (State.deliverFrame_heardSoFar hp done kind sender payload)
      exact run_of_step hstep 0
    | cons d rest =>
      have hgrow : ∀ w : State, w.assemble (done ++ [c]) = w.setReceiver (.frame (done ++ [c])) := by
        intro w
        have hcut : (done ++ [c]) ++ (d :: rest) = 0xA5 :: kind.code :: sender :: BitVec.ofNat 8 payload.length :: sum := by
          rw [hdone]; simp
        generalize done ++ [c] = l at hcut
        match l, hcut with
        | [], _ => exact State.assemble_short (by decide) w
        | [_], _ => exact State.assemble_short (by simp) w
        | [_, _], _ => exact State.assemble_short (by simp) w
        | [_, _, _], _ => exact State.assemble_short (by simp) w
        | x :: y :: z :: len :: r, hcut =>
          simp only [List.cons_append, List.cons.injEq] at hcut
          obtain ⟨rfl, rfl, rfl, rfl, hr⟩ := hcut
          have := congrArg List.length hr
          simp only [List.length_append, List.length_cons, hsumlen] at this
          exact State.assemble_grows _ _ _ _ _ (by rw [hlen]; exact h56) (by rw [hlen]; omega) w
      have hstep := State.heardSoFar_step (rest := d :: rest) hs hgrow
      have hrest := ih (done ++ [c]) (List.cons_ne_nil d rest) (by rw [hdone]; simp)
      exact (run_of_step hstep (d :: rest).length).trans hrest

/-- A frame's characters heard from HUNT do what its row does. -/
theorem run_frameBytes {s : State} (hr : s.line.receiver = .hunt) (hs : s.isSending = false) (hp : s.pending = [])
    {payload : List Byte} (h56 : payload.length ≤ 56) (kind : FrameKind) (sender : Byte) :
    Host.Core.run Sys2Proof.core (payload.length + 6)
        { s with pending := (frameBytes kind sender payload).map Instr.characterHeard } =
      exec (rowOf kind sender payload s.pins.temps) s := by
  generalize hrest : kind.code :: sender :: BitVec.ofNat 8 payload.length :: (payload ++
    bytesBE 2 (crc (kind.code :: sender :: BitVec.ofNat 8 payload.length :: payload)).toNat) = rest
  have hframe : frameBytes kind sender payload = [0xA5] ++ rest := by rw [← hrest]; rfl
  have hlen : rest.length = payload.length + 5 := by
    rw [← hrest]; simp only [List.length_cons, List.length_append, bytesBE_length]
  have hfirst : step { s with pending := (frameBytes kind sender payload).map Instr.characterHeard } =
      .next (s.heardSoFar [0xA5] rest) := by
    rw [hframe]
    have hhunt := State.receive_cases { s with pending := rest.map Instr.characterHeard } 0xA5 (.frame [0xA5])
      s.line.counters.lineErrors (.inl ⟨hr, rfl, rfl, rfl⟩)
    exact (step_characterHeard (s := { s with pending := ([0xA5] ++ rest).map Instr.characterHeard }) rfl (by exact hs)).trans
      (congrArg Host.Outcome.next hhunt)
  have hrun := run_heardSoFar hs hp h56 rest [0xA5] (by rw [← hrest]; exact List.cons_ne_nil _ _) hframe
  rw [hlen] at hrun
  exact ((run_of_step hfirst (payload.length + 5)).trans hrun).trans (exec_rowOf h56 kind sender s).symm

theorem crcBit_cases (reg : BitVec 16) (bit : Bool) : ∃ shifted, shifted = BitVec.ofNat 16 (2 * reg.toNat) ∧
    (bit = reg.getLsbD 15 → crcBit reg bit = shifted) ∧
    (bit ≠ reg.getLsbD 15 → crcBit reg bit = shifted ^^^ 0x1021#16) := by
  have hshift : BitVec.ofNat 16 (2 * reg.toNat) = reg <<< 1 := by
    apply BitVec.eq_of_toNat_eq
    rw [BitVec.toNat_ofNat, BitVec.toNat_shiftLeft, Nat.shiftLeft_eq, pow_one, Nat.mul_comm]
  have hmsb : reg.msb = reg.getLsbD 15 := BitVec.msb_eq_getLsbD_last reg
  refine ⟨_, rfl, fun h => ?_, fun h => ?_⟩ <;> rw [crcBit, hmsb, hshift]
  · rw [h, bne_self_eq_false, if_neg Bool.false_ne_true]
  · rw [if_pos (bne_iff_ne.2 h)]

/-- Settles O41: the format as written, the CRC bit by bit, and the characters heard one by one. -/
theorem frameByCharacters : Obligations.FrameByCharacters := by
  refine ⟨⟨by decide, FrameKind.ofCode_iff⟩, fun kind sender payload => rfl, crcBit_cases, ⟨rfl, fun bs b => ?_⟩,
    fun s kind sender payload hr hs hp h56 => run_frameBytes hr hs hp h56 kind sender⟩
  rw [crc, List.foldl_append]
  rfl

end Sys2Proof.Machine
end

section
/-! Between round ends the allotment is held, and no command touches the queue (R67). -/

namespace Sys2Proof.Machine

/-! ### The queue -/

/-- No move touches the queue. -/
theorem moves_pending (q : List Instr) : Moves fun s => s.pending = q where
  line _ _ h := h
  out _ _ h := h
  inspect _ _ h := h
  order _ _ _ h := h
  temps _ _ h := h
  powerUp _ h := h
  restart s h := by rw [State.restart_eq]; exact h
  resetPin _ _ h := h
  read _ _ h := h
  started s h _ _ := by simpa [State.firstListening, State.enterListening, State.startRounds] using h
  toSetup _ h _ := h
  claim s h := by rw [State.formClaim_pending]; exact h
  postSlice _ _ h _ := h
  owe _ _ _ h _ := h
  hand _ h _ := h
  nextSlice _ h _ _ := h
  part p s h _ := by cases p <;> simpa [SlicePart.run] using h
  work s b c h _ := by
    obtain ⟨_, _, _, _, _, _, _, _, _, _, e⟩ := s.roundEndWork_frame b c
    rw [e]; exact h
  second _ h := h
  align _ h _ := h
  clock _ _ h _ := h
  hears s b h := by rw [State.standingTakes_pending]; exact h
  report _ _ h := h
  entry _ _ _ _ h _ _ _ _ _ := h
  notice s van d t h _ _ := by
    obtain ⟨_, _, _, _, _, _, e⟩ := State.applyNotice_frame van d (noticeTarget t) s
    rw [e]; exact h
  override _ _ h _ := h
  edge _ h := h
  permitFalls s h := by obtain ⟨_, _, _, _, _, _, e⟩ := s.permitFalls_frame; rw [e]; exact h
  permitRises s h := by obtain ⟨_, _, _, _, e⟩ := s.permitRises_frame; rw [e]; exact h
  plug s p r h _ _ := by
    obtain ⟨_, _, _, _, _, _, e⟩ := State.openSession_frame (p.clamped s.cfg.stageRating) r s
    rw [e]; exact h
  taper s n h _ := by obtain ⟨_, _, _, _, e⟩ := State.taperTaken_frame n s; rw [e]; exact h
  addHold s h _ := by rw [State.addHold_pending]; exact h
  removeHold s h _ := by rw [State.removeHold_pending]; exact h
  unplug s h _ := by obtain ⟨_, _, _, _, _, _, _, e⟩ := s.unplugTaken_frame; rw [e]; exact h
  write _ _ _ h _ := h
  lock _ h _ _ := h

/-! ### The allotment through a slice end -/

@[simp] theorem State.postClaim_allotment (s : State) : s.postClaim.share.allotment = s.share.allotment := by
  unfold State.postClaim
  split
  · exact s.formClaim_allotment
  · rfl

@[simp] theorem State.scan_allotment (s : State) : s.scan.share.allotment = s.share.allotment := by
  have hhold : ∀ u : State, u.thermalHold.share.allotment = u.share.allotment := fun u => by
    unfold State.thermalHold
    split
    · rfl
    · split
      · exact u.addHold_allotment .thermal
      · split
        · exact u.removeHold_allotment .thermal
        · rfl
  unfold State.scan
  rw [hhold, State.refreshMEff_share]

@[simp] theorem State.permitTest_allotment (s : State) : s.permitTest.share.allotment = s.share.allotment := by
  unfold State.permitTest
  split
  · rfl
  · exact s.addHold_allotment .permit

theorem SlicePart.run_allotment (p : SlicePart) (s : State) : (p.run s).share.allotment = s.share.allotment := by
  cases p with
  | meter => simp [SlicePart.run]
  | scan => exact s.scan_allotment
  | permit => exact s.permitTest_allotment
  | start => simp [SlicePart.run]
  | post =>
    show s.postUnlessOwed.share.allotment = _
    unfold State.postUnlessOwed
    split
    · rfl
    · exact s.postClaim_allotment
  | mark => simp [SlicePart.run]
  | topped => exact s.topIfReached_allotment

theorem State.sliceExpiry_allotment (s : State) : s.sliceExpiry.share.allotment = s.share.allotment :=
  sliceExpiry_keeps (P := fun t => t.share.allotment = s.share.allotment)
    (fun t h => by rw [choose_eq t]; exact h) (fun _ h => h) (fun _ _ _ h => h)
    (fun p t h => (p.run_allotment t).trans h) s rfl

/-! ### The allotment through the other events -/

theorem State.drawPostSlice_allotment (s : State) : s.drawPostSlice.share.allotment = s.share.allotment := rfl

theorem State.storeReadEnds_allotment (s : State) : s.storeReadEnds.share.allotment = s.share.allotment := by
  unfold State.storeReadEnds State.completeRead
  split
  · split
    · refine inAnyOrder_keeps (P := fun t => t.share.allotment = s.share.allotment) _
        (fun t h => by rw [choose_eq t]; exact h) (fun f hf t h => ?_) _ ?_
      · rcases List.mem_cons.1 hf with rfl | hf
        · exact (t.formClaim_allotment).trans h
        · obtain rfl := List.mem_singleton.1 hf
          exact (t.drawPostSlice_allotment).trans h
      · simp [State.firstListening, State.enterListening, State.startRounds, State.sendLink]
    · rfl
  · rfl

theorem State.applyNotice_allotment (s : State) (van d : Nat) (t : Option Nat) :
    (s.applyNotice van d t).share.allotment = s.share.allotment := by
  unfold State.applyNotice
  split
  · split
    · rw [State.topIfReached_allotment]
    · rfl
  · rfl

theorem State.noticeTaken_allotment (s : State) (f : NoticeFields) :
    (s.noticeTaken f).share.allotment = s.share.allotment := by
  obtain ⟨u, hu, hwhole, -⟩ := s.dispatchClock_spec f.dispatch
  simp only [State.noticeTaken, hu]
  split
  · rw [State.countLineError_share, hwhole]
  · rw [State.applyNotice_allotment, hwhole]

theorem State.limitTaken_share (s : State) (f : LimitFields) : (s.limitTaken f).share = s.share := by
  obtain ⟨u, hu, hwhole, -⟩ := s.dispatchClock_spec f.dispatch
  simp only [State.limitTaken, hu]
  split
  · split
    · rw [State.countLineError_share, hwhole]
    · rw [hwhole]
  · rw [hwhole]

theorem State.setupFor_share {f : State → State}
    (h : f = State.decideLock ∨ f = State.decideRestart ∨ ∃ code value, f = State.decideWrite code value)
    (n : BitVec 32) (s : State) : (s.setupFor n f).share = s.share := by
  have reply : ∀ (u : State) k code action, (u.setupReply k code action).share = u.share := fun u k code action => by
    obtain ⟨r, part, hr, -, hwhole, -⟩ := u.setupReply_spec k code action
    rw [hr, hwhole]
  unfold State.setupFor
  split
  · split
    · rfl
    · rcases h with rfl | rfl | ⟨code, value, rfl⟩
      · unfold State.decideLock
        split
        · exact reply _ _ _ _
        · split
          · exact reply _ _ _ _
          · exact reply (s.setInstaller s.store.installer.lock) .lock .accepted 2
      · exact reply s .restart .accepted 3
      · unfold State.decideWrite
        rw [reply]
        split <;> rfl
  · rfl

theorem State.setupTaken_share (s : State) (p : List Byte) : (s.setupTaken p).share = s.share := by
  unfold State.setupTaken
  split
  · simp only
    split
    · exact State.setupFor_share (.inr (.inr ⟨_, _, rfl⟩)) _ s
    · exact State.setupFor_share (.inl rfl) _ s
    · exact State.setupFor_share (.inr (.inl rfl)) _ s
    · rfl
  · rfl

theorem State.frameCollides_share (s : State) (a : Attempt) : (s.frameCollides a).share = s.share := by
  obtain ⟨o, n, st, i, c, k, e⟩ := (s.attemptEnds.countCollision).collideFrame_frame a
  unfold State.frameCollides
  rw [State.afterAttempt_share, e]
  rfl

theorem State.ofAttemptOr_share {f : Attempt → State → State} {g : State → State} {s : State}
    (hf : ∀ a, (f a s).share = s.share) (hg : (g s).share = s.share) : (s.ofAttemptOr f g).share = s.share := by
  unfold State.ofAttemptOr
  split
  · exact hf _
  · exact hg
  · exact hg

theorem State.queryFrame_allotment (s : State) (q : QueryFrame) (v : Byte) :
    (s.queryFrame q v).share.allotment = s.share.allotment := by
  obtain ⟨x, hx, h | h⟩ := s.queryFrame_orders q v <;> rw [h]
  · obtain ⟨r, hr, hwhole⟩ := x.queryTaken_frame q v
    rw [hr, State.standingTakes_allotment, hwhole, hx]; rfl
  · obtain ⟨r, hr, hwhole⟩ := (x.standingTakes q.sender.toNat).queryTaken_frame q v
    rw [hr, hwhole]
    show (x.standingTakes q.sender.toNat).share.allotment = _
    rw [State.standingTakes_allotment, hx]; rfl

theorem State.setupFrame_allotment {s : State} {b : Byte} {f : State → State} (hf : ∀ t : State, (f t).share = t.share) :
    (s.setupFrame b f).share.allotment = s.share.allotment := by
  unfold State.setupFrame
  rw [State.standingTakes_allotment, hf]
  rfl

theorem State.record_allotment {s : State} {k : RecordKind} {f : State → State}
    (hf : (f s).share.allotment = s.share.allotment) : (s.record k f).share.allotment = s.share.allotment := by
  unfold State.record
  split
  · exact hf
  · rfl

theorem State.permit_allotment (s : State) : s.permitFalls.share.allotment = s.share.allotment ∧
    s.permitRises.share.allotment = s.share.allotment := by
  refine ⟨?_, ?_⟩
  · unfold State.permitFalls
    split
    · rw [State.evalPermission_share, State.addHold_allotment]
    · rfl
  · obtain ⟨_, _, _, _, e⟩ := s.permitRises_frame
    rw [e]

theorem State.records_allotment (s : State) (p : PlugFields) (n : Nat) :
    (s.plugTaken p).share.allotment = s.share.allotment ∧ (s.taperTaken n).share.allotment = s.share.allotment ∧
    s.holdTaken.share.allotment = s.share.allotment ∧ s.resumeTaken.share.allotment = s.share.allotment ∧
    s.unplugTaken.share.allotment = s.share.allotment := by
  refine ⟨?_, ?_, ?_, ?_, ?_⟩
  · unfold State.plugTaken
    split
    · rfl
    · obtain ⟨_, _, _, _, _, _, e⟩ := State.openSession_frame (p.clamped s.cfg.stageRating)
        (if p.clamped s.cfg.stageRating = p then .taken else .clamped) s
      rw [e]
  · obtain ⟨_, _, _, _, e⟩ := State.taperTaken_frame n s
    rw [e]
  · unfold State.holdTaken
    split
    · rfl
    · exact (s.ack .hold .taken).addHold_allotment .driver
  · unfold State.resumeTaken
    split
    · exact (s.ack .resume .taken).removeHold_allotment .driver
    · rfl
  · unfold State.unplugTaken
    split
    · rfl
    · rw [State.refreshMEff_share, State.changeSession_allotment, State.ack, State.sendLink]
      exact congrArg ShareUnit.allotment (State.writeLast_share _ _)

/-- Settles O60: the queue by the moves every command is made of, the allotment command by command. -/
theorem allotmentHeld : Obligations.AllotmentHeld := by
  intro c s
  refine ⟨⟨_, exec_eq c s, (moves_pending s.pending).effect c s rfl⟩,
    fun hnatural hmark hcharacter hpower hreset hwait hsent => ⟨_, exec_eq c s, ?_⟩⟩
  cases c with
  | powerUp => exact absurd rfl hpower
  | resetAsserted => exact absurd rfl hreset
  | resetReleased =>
    show s.releaseReset.share.allotment = _
    unfold State.releaseReset State.beginRead
    split
    · simp only
      split <;> rfl
    · rfl
  | storeReadCompletes => exact s.storeReadEnds_allotment
  | sliceExpiry t => exact (s.setTemps t).sliceExpiry_allotment
  | naturalRoundEnd t => exact absurd rfl (hnatural t)
  | clockSecondEvent => rfl
  | markFrame b p t => exact absurd rfl (hmark b p t)
  | claimFrame b p =>
    show ((State.peersTake b.toNat p _).standingTakes b.toNat).share.allotment = _
    rw [State.standingTakes_allotment, State.peersTake_share]; rfl
  | noticeFrame b p =>
    show ((s.takeFrame .notice b.toNat).deliverNotice b.toNat p).share.allotment = _
    unfold State.deliverNotice
    split
    · rw [State.standingTakes_allotment]; rfl
    · next f _ =>
      refine inAnyOrder_keeps (P := fun t => t.share.allotment = s.share.allotment) _
        (fun t h => by rw [choose_eq t]; exact h) (fun g hg t h => ?_) _ rfl
      rcases List.mem_cons.1 hg with rfl | hg
      · exact (t.noticeTaken_allotment f).trans h
      · obtain rfl := List.mem_singleton.1 hg
        exact (t.standingTakes_allotment b.toNat).trans h
  | limitFrame b p =>
    show ((s.takeFrame .limit b.toNat).deliverLimit b.toNat p).share.allotment = _
    unfold State.deliverLimit
    split
    · rw [State.standingTakes_allotment]; rfl
    · rw [State.standingTakes_allotment, State.limitTaken_share]; rfl
  | replyFrame b p =>
    show ((s.takeFrame .reply b.toNat).standingTakes b.toNat).share.allotment = _
    rw [State.standingTakes_allotment]; rfl
  | queryStatus q => exact s.queryFrame_allotment q 1
  | queryPeers q => exact s.queryFrame_allotment q 2
  | queryNotices q => exact s.queryFrame_allotment q 3
  | querySession q => exact s.queryFrame_allotment q 4
  | queryLast q => exact s.queryFrame_allotment q 5
  | queryConfig q => exact s.queryFrame_allotment q 6
  | setupWrite b n f v => exact State.setupFrame_allotment (State.setupFor_share (.inr (.inr ⟨_, _, rfl⟩)) _)
  | setupLock b n => exact State.setupFrame_allotment (State.setupFor_share (.inl rfl) _)
  | setupRestart b n => exact State.setupFrame_allotment (State.setupFor_share (.inr (.inl rfl)) _)
  | restartWaitExpiry => exact absurd rfl hwait
  | invalidFrame => rfl
  | receiveError =>
    refine congrArg ShareUnit.allotment (State.ofAttemptOr_share (fun a => s.frameCollides_share a) ?_)
    rw [State.receiveBad_spec]; rfl
  | quietGap =>
    obtain ⟨l, e⟩ := s.quietGap_frame
    show s.quietGap.share.allotment = _
    rw [e]
  | sendAttempt =>
    obtain ⟨l, e⟩ := s.beginAttempt_frame
    show s.beginAttempt.share.allotment = _
    rw [e]
  | sentInFull => exact absurd rfl hsent
  | collision => exact congrArg ShareUnit.allotment (State.ofAttemptOr_share (fun a => s.frameCollides_share a) rfl)
  | meterEdge => rfl
  | permitFalling => exact s.permit_allotment.1
  | permitRising => exact s.permit_allotment.2
  | plug r =>
    obtain ⟨h, -⟩ := s.records_allotment (plugFields r) 0
    exact State.record_allotment h
  | taper n =>
    obtain ⟨-, h, -⟩ := s.records_allotment ⟨0, 0, 0, 0, 0, 0⟩ n.toNat
    exact State.record_allotment h
  | hold =>
    obtain ⟨-, -, h, -⟩ := s.records_allotment ⟨0, 0, 0, 0, 0, 0⟩ 0
    exact State.record_allotment h
  | resume =>
    obtain ⟨-, -, -, h, -⟩ := s.records_allotment ⟨0, 0, 0, 0, 0, 0⟩ 0
    exact State.record_allotment h
  | unplug =>
    obtain ⟨-, -, -, -, h⟩ := s.records_allotment ⟨0, 0, 0, 0, 0, 0⟩ 0
    exact State.record_allotment h
  | startBitHeard =>
    show s.startBit.share.allotment = _
    unfold State.startBit
    split <;> rfl
  | characterHeard b => exact absurd rfl (hcharacter b)
  | queryViewUnknown q v => exact s.queryFrame_allotment q v
  | malformedSetup b p => exact State.setupFrame_allotment fun t => t.setupTaken_share p

end Sys2Proof.Machine
end

section
/-! The reset released and the store read (R20, R21, R25, R57, R163, R167). -/

namespace Sys2Proof.Machine

theorem State.onLine_iff (s : State) : s.onLine = true ↔ s.stand.standing ≠ .starting ∧ s.stand.standing ≠ .setup := by
  unfold State.onLine
  cases s.stand.standing <;> simp [Standing.onLine]

/-- The claim formed with no session (R54, R58). -/
theorem State.claimNow_none {s : State} (h : s.session = none) : s.claimNow =
    { standing := s.stand.standing, phase := .vacant, q := 0, mEff := 0, f := 0, k := 0, pEff := s.share.allotment
      thermal := s.thermal.derating, clash := s.stand.bayClash, hold := false, reasons := {}
      sequence := (s.share.sequence + 1) % 256 } := by
  simp only [State.claimNow, State.phase, State.holds, h]
  rfl

/-- The first claim and the post slice, in either order (R57, R163): both reach the same share computer but for the value
drawn, and the line engine by the order of the draws. -/
theorem State.firstClaim_drawn {x t : State} (ho : x.stand.standing.onLine = true) (hx : x.session = none)
    (h : t = x.formClaim.drawPostSlice ∨ t = x.drawPostSlice.formClaim) : ∃ c p, c = x.claimNow ∧
    t = { x with share := t.share, line := t.line } ∧
    t.share = { x.share with ownClaim := some c, sequence := (x.share.sequence + 1) % 256
                             postSlice := some p, postOwed := false } ∧
    (∃ g, p = 1 + prngValue (x.cfg.roundDiv - 3) g) ∧
    (∃ g1 g2, g1 = prngNext x.line.prng ∧ g2 = prngNext g1 ∧
      (x.line.sender = .idle → t.line.prng = g2 ∧
        ((p = 1 + prngValue (x.cfg.roundDiv - 3) g1 ∧ t.line.sender = .waiting (prngValue 16 g2) 0) ∨
          (p = 1 + prngValue (x.cfg.roundDiv - 3) g2 ∧ t.line.sender = .waiting (prngValue 16 g1) 0))) ∧
      (x.line.sender ≠ .idle → t.line.prng = g1 ∧ p = 1 + prngValue (x.cfg.roundDiv - 3) g1)) ∧
    t.line.outbox.claim = some ⟨c.payload, 0⟩ := by
  have still : ∀ {l m : LineEngine} {p : List Byte}, l.Places m .claim p → l.sender ≠ .idle → m.prng = l.prng := by
    intro l m p hp hs
    cases hl : l.sender with
    | idle => exact absurd hl hs
    | waiting b w => exact (hp.waiting b w hl).1
    | sending a => exact (hp.sending a hl).1
  rcases h with rfl | rfl
  · have hplaces := State.formClaim_places ho
    obtain ⟨hshare, -⟩ := x.formClaim_spec ho
    obtain ⟨hpost, hline⟩ := x.formClaim.drawPostSlice_draw
    have hcfg : x.formClaim.cfg = x.cfg := by unfold State.cfg; rw [State.formClaim_settings]
    rw [hcfg] at hpost
    obtain ⟨l, sh, e⟩ := x.formClaim.drawPostSlice_frame
    obtain ⟨l', sh', e'⟩ := x.formClaim_frame
    have hwhole : x.formClaim.drawPostSlice.share = { x.formClaim.share with
        postSlice := x.formClaim.drawPostSlice.share.postSlice, postOwed := false } := rfl
    refine ⟨_, prngValue (x.cfg.roundDiv - 3) (prngNext x.formClaim.line.prng) + 1, rfl, ?_, ?_, ⟨_, Nat.add_comm _ _⟩,
      ⟨_, _, rfl, rfl, fun hs => ?_, fun hs => ?_⟩, ?_⟩
    · rw [e, e']
    · rw [hwhole, hpost, hshare]
    · obtain ⟨hp, hsender⟩ := hplaces.idle hs
      rw [hline, hp]
      exact ⟨rfl, .inr ⟨Nat.add_comm _ _, hsender⟩⟩
    · rw [hline, still hplaces hs]
      exact ⟨rfl, Nat.add_comm _ _⟩
    · rw [hline]
      show x.formClaim.line.outbox.claim = _
      rw [hplaces.inSlot]
      rfl
  · have hod : x.drawPostSlice.stand.standing.onLine = true := by rw [State.drawPostSlice_stand]; exact ho
    have hclaim : x.drawPostSlice.claimNow = x.claimNow := by
      rw [State.claimNow_none hx, State.claimNow_none (by rw [State.drawPostSlice_session]; exact hx)]
      rfl
    have hplaces := State.formClaim_places hod
    obtain ⟨hshare, -⟩ := x.drawPostSlice.formClaim_spec hod
    rw [hclaim] at hplaces hshare
    obtain ⟨-, hline⟩ := x.drawPostSlice_draw
    obtain ⟨l, sh, e⟩ := x.drawPostSlice.formClaim_frame
    obtain ⟨l', sh', e'⟩ := x.drawPostSlice_frame
    rw [hline] at hplaces
    refine ⟨_, prngValue (x.cfg.roundDiv - 3) (prngNext x.line.prng) + 1, rfl, ?_, ?_, ⟨_, Nat.add_comm _ _⟩,
      ⟨_, _, rfl, rfl, fun hs => ?_, fun hs => ?_⟩, ?_⟩
    · rw [e, e']
    · rw [hshare]; rfl
    · obtain ⟨hp, hsender⟩ := hplaces.idle hs
      exact ⟨hp, .inl ⟨Nat.add_comm _ _, hsender⟩⟩
    · have hprng := still hplaces (by exact hs)
      rw [hprng]
      exact ⟨rfl, Nat.add_comm _ _⟩
    · rw [hplaces.inSlot]
      rfl

/-- Settles O7: the facts on standing and settings, the release, and the read's two ends. -/
theorem releaseAndRead : Obligations.ReleaseAndRead := by
  refine ⟨fun s st i hi => ⟨s.onLine_iff, fun g hg => by rw [State.cfg, hg]; rfl, by rw [hi]; rfl⟩, fun s hp => ?_,
    fun s hr hs => ⟨fun hl => ?_, fun hl h8 hx => ?_⟩⟩
  · show Host.Outcome.next s.releaseReset = _
    unfold State.releaseReset
    rw [if_pos hp]
    simp only
    split
    · rfl
    · rfl
  · have hread : s.storeReadEnds = s.completeRead := if_pos (by rw [hr, hs]; rfl)
    show Host.Outcome.next s.storeReadEnds = _
    rw [hread, State.completeRead, if_neg (by rw [hl]; decide)]
    rfl
  · generalize hx0 : (({ s with storeRead := none } : State).sendLink (.phase .vacant {} none)).startRounds.firstListening = w
    have hexec : exec .storeReadCompletes s = .next (inAnyOrder [State.formClaim, State.drawPostSlice] w) := by
      show Host.Outcome.next s.storeReadEnds = _
      rw [show s.storeReadEnds = s.completeRead from if_pos (by rw [hr, hs]; rfl), State.completeRead, if_pos hl, ← hx0]
    have hww : w = { s with
        storeRead := none, settings := some (settingsOf s.store)
        timer := { s.timer with running := true, sliceCounter := 0, sliceIndex := 0, roundCount := 0, aligned := false }
        stand := { s.stand with standing := .listening, listenCount := 0, silentStreak := 0, rejoinCount := 0,
                                isolationCount := 0, listenHeard := false, listenPosted := false,
                                roundHeard := false, claimRecord := .nothing }
        stage := { s.stage with
          lagSlice := some (min (s.store.installer.stepLag.getD 0) (s.store.installer.roundDiv.getD 0 - 1)) }
        meter := { s.meter with ceiling := some 2, allDriven := true }
        out := { s.out with link := s.out.link ++ [.phase .vacant {} none] } } := by
      rw [← hx0]
      have hceil : ∀ a b c, ceilingFor 0 a b c = 2 := fun a b c => by simp [ceilingFor]
      unfold State.firstListening State.enterListening State.startRounds State.sendLink
      simp only [hceil]
      rfl
    have hxw := choose_eq w
    generalize hxs : w.choose.2 = x at hxw
    have hxx : x = { s with
        storeRead := none, settings := some (settingsOf s.store)
        timer := { s.timer with running := true, sliceCounter := 0, sliceIndex := 0, roundCount := 0, aligned := false }
        stand := { s.stand with standing := .listening, listenCount := 0, silentStreak := 0, rejoinCount := 0,
                                isolationCount := 0, listenHeard := false, listenPosted := false,
                                roundHeard := false, claimRecord := .nothing }
        stage := { s.stage with
          lagSlice := some (min (s.store.installer.stepLag.getD 0) (s.store.installer.roundDiv.getD 0 - 1)) }
        meter := { s.meter with ceiling := some 2, allDriven := true }
        out := { s.out with link := s.out.link ++ [.phase .vacant {} none] }
        choices := x.choices, freeCount := x.freeCount } := by
      rw [hxw, hww]
    have hpair := inAnyOrder_pair State.formClaim State.drawPostSlice w
    rw [hxs] at hpair
    generalize inAnyOrder [State.formClaim, State.drawPostSlice] w = t at hexec hpair
    obtain ⟨c, p, hc, hwhole, hshare, hp, hdraws, hclaim⟩ :=
      State.firstClaim_drawn (x := x) (t := t) (by rw [hxx]; rfl) (by rw [hxx]; exact hx) hpair
    have hdiv : x.cfg.roundDiv = s.store.installer.roundDiv.getD 0 := by rw [hxx]; rfl
    have hlx : x.line = s.line := by rw [hxx]
    rw [hdiv] at hp hdraws
    rw [hlx] at hdraws
    have hcs : c = _ := hc.trans (State.claimNow_none (by rw [hxx]; exact hx))
    have hpr : 1 ≤ p ∧ p + 3 ≤ s.store.installer.roundDiv.getD 0 := by
      obtain ⟨g, hg⟩ := hp
      have := prngValue_lt (s.store.installer.roundDiv.getD 0 - 3) g (by omega)
      omega
    refine ⟨t, c, p, hexec, ?_, ?_, ?_, ?_, ?_, ?_, ?_, ?_, ?_, ?_, ?_, ?_, ?_, ?_, ?_, ?_, hpr.1, hpr.2, hdraws, hclaim,
      ?_, ?_, ?_, ?_⟩
    · rw [hwhole, hxx]
    · rw [hwhole, hxx]
    · rw [hwhole, hxx]
    · rw [hshare, hxx]
    · rw [hcs, hxx]
    · rw [hcs]
    · rw [hcs]
    · rw [hcs]
    · rw [hcs]
    · rw [hcs]
    · rw [hcs, hxx]
    · rw [hcs, hxx]
    · rw [hcs, hxx]
    · rw [hcs]
    · rw [hcs]
    · rw [hcs, hxx]
    · rw [hwhole, hxx]
    · rw [hwhole, hxx]
    · rw [hwhole, hxx]
    · rw [hwhole, hxx]

end Sys2Proof.Machine
end

section
/-! A frame heard: what it leaves of the line engine, the share computer and stage control, whichever kind it is (R34,
R59, R112, R113, R155, R156, R159, R160, R164). -/

namespace Sys2Proof.Machine

/-! ### The line engine through claims and replies placed -/

/-- The line engine after `n` claims placed, and a reply placed or not, between frames of the line. -/
structure LineEngine.Hears (l m : LineEngine) (n : Nat) (replied : Bool) : Prop where
  waiting : ∀ b w, l.sender = .waiting b w → m.sender = .waiting b w ∧ m.prng = l.prng
  sending : ∀ a, l.sender = .sending a → m.prng = l.prng ∧ m.sender = .sending { a with
    replaced := a.replaced || (decide (a.slot = .claim) && decide (0 < n)) || (decide (a.slot = .reply) && replied) }
  still : l.sender = .idle → n = 0 → replied = false → m.sender = .idle ∧ m.prng = l.prng
  draws : l.sender = .idle → 0 < n ∨ replied = true →
    m.prng = prngNext l.prng ∧ m.sender = .waiting (prngValue 16 (prngNext l.prng)) 0
  mark : m.outbox.mark = l.outbox.mark
  claim : n = 0 → m.outbox.claim = l.outbox.claim
  reply : replied = false → m.outbox.reply = l.outbox.reply
  unposted : m.counters.claimsUnposted = l.counters.claimsUnposted

theorem LineEngine.Hears.of_same {l m : LineEngine} (hs : m.sender = l.sender) (hp : m.prng = l.prng)
    (ho : m.outbox = l.outbox) (hu : m.counters.claimsUnposted = l.counters.claimsUnposted) : l.Hears m 0 false where
  waiting b w h := ⟨hs.trans h, hp⟩
  sending a h := ⟨hp, by rw [hs, h]; simp⟩
  still h _ _ := ⟨hs.trans h, hp⟩
  draws _ h := by rcases h with h | h <;> cases h
  mark := by rw [ho]
  claim _ := by rw [ho]
  reply _ := by rw [ho]
  unposted := hu

theorem LineEngine.Places.hearsClaim {l m : LineEngine} {p : List Byte} (h : l.Places m .claim p) : l.Hears m 1 false where
  waiting b w hs := (h.waiting b w hs).symm
  sending a hs := by
    obtain ⟨h1, h2⟩ := h.sending a hs
    exact ⟨h1, by rw [h2]; simp⟩
  still _ h := by cases h
  draws hs _ := h.idle hs
  mark := by rw [h.inSlot]; rfl
  claim h := by cases h
  reply _ := by rw [h.inSlot]; rfl
  unposted := by rw [h.counters]

theorem LineEngine.Places.hearsReply {l m : LineEngine} {p : List Byte} (h : l.Places m .reply p) : l.Hears m 0 true where
  waiting b w hs := (h.waiting b w hs).symm
  sending a hs := by
    obtain ⟨h1, h2⟩ := h.sending a hs
    exact ⟨h1, by rw [h2]; simp⟩
  still _ _ h := by cases h
  draws hs _ := h.idle hs
  mark := by rw [h.inSlot]; rfl
  claim _ := by rw [h.inSlot]; rfl
  reply h := by cases h
  unposted := by rw [h.counters]

theorem LineEngine.Hears.trans {l m k : LineEngine} {n1 n2 : Nat} {r1 r2 : Bool} (h1 : l.Hears m n1 r1)
    (h2 : m.Hears k n2 r2) : l.Hears k (n1 + n2) (r1 || r2) where
  waiting b w h := by
    obtain ⟨ha, hb⟩ := h1.waiting b w h
    obtain ⟨hc, hd⟩ := h2.waiting b w ha
    exact ⟨hc, hd.trans hb⟩
  sending a h := by
    obtain ⟨ha, hb⟩ := h1.sending a h
    obtain ⟨hc, hd⟩ := h2.sending _ hb
    have hpos : decide (0 < n1 + n2) = (decide (0 < n1) || decide (0 < n2)) := by
      rw [← Bool.decide_or, decide_eq_decide]; omega
    refine ⟨hc.trans ha, hd.trans ?_⟩
    rw [hpos]
    cases a.replaced <;> cases decide (a.slot = .claim) <;> cases decide (a.slot = .reply) <;> cases r1 <;>
      cases decide (0 < n1) <;> simp
  still h hn hr := by
    rw [Bool.or_eq_false_iff] at hr
    obtain ⟨ha, hb⟩ := h1.still h (by omega) hr.1
    obtain ⟨hc, hd⟩ := h2.still ha (by omega) hr.2
    exact ⟨hc, hd.trans hb⟩
  draws h hn := by
    by_cases hc : 0 < n1 ∨ r1 = true
    · obtain ⟨ha, hb⟩ := h1.draws h hc
      obtain ⟨hd, he⟩ := h2.waiting _ _ hb
      exact ⟨he.trans ha, hd⟩
    · rw [not_or, Bool.not_eq_true] at hc
      obtain ⟨hn1, hr1⟩ := hc
      obtain ⟨ha, hb⟩ := h1.still h (by omega) hr1
      rw [hr1, Bool.false_or] at hn
      obtain ⟨hd, he⟩ := h2.draws ha (hn.imp_left (by omega))
      rw [hb] at hd he
      exact ⟨hd, he⟩
  mark := h2.mark.trans h1.mark
  claim h := (h2.claim (by omega)).trans (h1.claim (by omega))
  reply h := by
    rw [Bool.or_eq_false_iff] at h
    exact (h2.reply h.2).trans (h1.reply h.1)
  unposted := h2.unposted.trans h1.unposted

/-! ### The state through the same -/

/-- What a part of a frame's delivery leaves: `n` claims formed, and a reply formed or not. -/
structure State.Hears (s t : State) (n : Nat) (replied : Bool) : Prop where
  cap : t.stage.cap = s.stage.cap
  lagSlice : t.stage.lagSlice = s.stage.lagSlice
  owed : t.stage.startOwed = s.stage.startOwed
  outLine : t.out.line = s.out.line
  share : t.share = { s.share with ownClaim := t.share.ownClaim, sequence := t.share.sequence }
  unclaimed : n = 0 → t.share = s.share
  claimed : 0 < n → t.share.sequence = (s.share.sequence + n) % 256
  answered : replied = true → s.inspect.pendingReply = none ∧ t.inspect.pendingReply ≠ none
  unanswered : replied = false → t.inspect.pendingReply = s.inspect.pendingReply
  line : s.line.Hears t.line n replied

theorem State.Hears.of_same {s t : State} (hg : t.stage = s.stage) (ho : t.out = s.out) (hs : t.share = s.share)
    (hi : t.inspect.pendingReply = s.inspect.pendingReply) (hl : s.line.Hears t.line 0 false) : s.Hears t 0 false where
  cap := by rw [hg]
  lagSlice := by rw [hg]
  owed := by rw [hg]
  outLine := by rw [ho]
  share := by rw [hs]
  unclaimed _ := hs
  claimed h := by cases h
  answered h := by cases h
  unanswered _ := hi
  line := hl

theorem State.Hears.trans {s t u : State} {n1 n2 : Nat} {r1 r2 : Bool} (h1 : s.Hears t n1 r1) (h2 : t.Hears u n2 r2) :
    s.Hears u (n1 + n2) (r1 || r2) where
  cap := h2.cap.trans h1.cap
  lagSlice := h2.lagSlice.trans h1.lagSlice
  owed := h2.owed.trans h1.owed
  outLine := h2.outLine.trans h1.outLine
  share := by rw [h2.share, h1.share]
  unclaimed h := (h2.unclaimed (by omega)).trans (h1.unclaimed (by omega))
  claimed h := by
    rcases Nat.eq_zero_or_pos n2 with hz | hp
    · rw [h2.unclaimed hz, hz]; exact h1.claimed (by omega)
    · rw [h2.claimed hp]
      rcases Nat.eq_zero_or_pos n1 with hz | hp1
      · rw [h1.unclaimed hz, hz, Nat.zero_add]
      · rw [h1.claimed hp1]; omega
  answered h := by
    rcases Bool.eq_false_or_eq_true r1 with hr | hr
    · obtain ⟨ha, hb⟩ := h1.answered hr
      refine ⟨ha, ?_⟩
      rcases Bool.eq_false_or_eq_true r2 with hr2 | hr2
      · exact (h2.answered hr2).2
      · rw [h2.unanswered hr2]; exact hb
    · rw [hr, Bool.false_or] at h
      obtain ⟨ha, hb⟩ := h2.answered h
      exact ⟨(h1.unanswered hr).symm.trans ha, hb⟩
  unanswered h := by
    rw [Bool.or_eq_false_iff] at h
    exact (h2.unanswered h.2).trans (h1.unanswered h.1)
  line := h1.line.trans h2.line

/-- A claim formed and the permission evaluated. -/
theorem State.formEval_hears {u : State} (ho : u.stand.standing.onLine = true) :
    u.Hears u.formClaim.evalPermission 1 false := by
  obtain ⟨hshare, hplaces, -, -⟩ := State.formEval_spec ho
  have hdue := u.formClaim.evalPermission_sendsDue
  have hstage : u.formClaim.stage = u.stage := State.formClaim_stage u
  exact {
    cap := by rw [hdue.cap, hstage]
    lagSlice := by rw [hdue.lagSlice, hstage]
    owed := by rw [hdue.owed, hstage]
    outLine := by rw [State.evalPermission_line_out, State.formClaim_out]
    share := by rw [hshare]
    unclaimed := nofun
    claimed := fun _ => by rw [hshare]
    answered := nofun
    unanswered := fun _ => by rw [State.evalPermission_inspect, State.formClaim_inspect]
    line := hplaces.hearsClaim }

theorem State.Passed.hears_passage {x u : State} (h : x.Passed u) : x.Hears u.formClaim.evalPermission 1 false := by
  have := State.formEval_hears h.hears
  rw [h.whole] at this ⊢
  exact { this with }

/-- The standing unit's part: one claim with a passage, none without. -/
theorem State.standingTakes_hears (x : State) (b : Nat) : ((x.standingTakes b).stand.standing = x.stand.standing ∧
      x.standingTakes b = { x with stand := (x.standingTakes b).stand } ∧ x.Hears (x.standingTakes b) 0 false) ∨
    ∃ u, x.Passed u ∧ x.standingTakes b = u.formClaim.evalPermission ∧ x.Hears (x.standingTakes b) 1 false := by
  rcases x.standingTakes_cases b with ⟨hs, e⟩ | ⟨u, hu, e⟩
  · refine .inl ⟨hs, e, ?_⟩
    rw [e]
    exact State.Hears.of_same rfl rfl rfl rfl (LineEngine.Hears.of_same rfl rfl rfl rfl)
  · exact .inr ⟨u, hu, e, by rw [e]; exact hu.hears_passage⟩

theorem State.standingTakes_aligned (x : State) (b : Nat) : (x.standingTakes b).timer.aligned = (x.timer.aligned &&
    !(x.stand.standing == .cutoff && (x.standingTakes b).stand.standing == .listening)) := by
  rcases x.standingTakes_cases b with ⟨hs, e⟩ | ⟨u, hu, e⟩
  · rw [hs, e]
    cases x.stand.standing <;> simp
  · rw [e, State.evalPermission_timer, State.formClaim_timer, State.evalPermission_stand, State.formClaim_stand]
    exact hu.aligned

/-! ### The part of the block that owns the frame -/

/-- What the block that owns a frame does with it, beside the standing unit: with the phase as it was, no claim, and
nothing of stage control. -/
structure State.OwnPart (y z : State) (n : Nat) (replied : Bool) : Prop where
  hears : y.Hears z n replied
  few : n ≤ 1
  quiet : z.phase = y.phase → n = 0 ∧ z.stage = y.stage ∧ z.out = y.out
  aligned : z.timer.aligned = y.timer.aligned
  stand : z.stand = y.stand ∨ (y.onLine = false ∧ z.onLine = false)
  pins : z.pins = y.pins
  thermal : z.thermal = y.thermal
  meter : z.meter = y.meter
  settings : z.settings = y.settings

/-- A part that forms neither claim nor reply. -/
theorem State.OwnPart.plain {y z : State} (hl : y.line.Hears z.line 0 false)
    (h : z = { y with timer := z.timer, peers := z.peers, session := z.session, notices := z.notices, line := z.line })
    (ha : z.timer.aligned = y.timer.aligned) : y.OwnPart z 0 false where
  hears := State.Hears.of_same (by rw [h]) (by rw [h]) (by rw [h]) (by rw [h]) hl
  few := Nat.zero_le 1
  quiet _ := ⟨rfl, by rw [h], by rw [h]⟩
  aligned := ha
  stand := .inl (by rw [h])
  pins := by rw [h]
  thermal := by rw [h]
  meter := by rw [h]
  settings := by rw [h]

/-- A line error and nothing else. -/
theorem State.countLineError_ownPart (y : State) : y.OwnPart y.countLineError 0 false :=
  State.OwnPart.plain (LineEngine.Hears.of_same rfl rfl rfl rfl) rfl rfl

theorem State.countDropped_ownPart (y : State) : y.OwnPart y.countDropped 0 false :=
  State.OwnPart.plain (LineEngine.Hears.of_same rfl rfl rfl rfl) rfl rfl

theorem State.ownPart_refl (y : State) : y.OwnPart y 0 false :=
  State.OwnPart.plain (LineEngine.Hears.of_same rfl rfl rfl rfl) rfl rfl

/-- A part that forms a reply, none being pending. -/
theorem State.OwnPart.replies {y z : State} {p : List Byte} (hp : y.inspect.pendingReply = none)
    (hz : z.inspect.pendingReply ≠ none) (hl : y.line.Places z.line .reply p)
    (h : z = { y with store := z.store, storeRead := z.storeRead, stand := z.stand, line := z.line, inspect := z.inspect })
    (hs : z.stand = y.stand ∨ (y.onLine = false ∧ z.onLine = false)) : y.OwnPart z 0 true where
  hears := {
    cap := by rw [h]
    lagSlice := by rw [h]
    owed := by rw [h]
    outLine := by rw [h]
    share := by rw [h]
    unclaimed := fun _ => by rw [h]
    claimed := nofun
    answered := fun _ => ⟨hp, hz⟩
    unanswered := nofun
    line := hl.hearsReply }
  few := Nat.zero_le 1
  quiet _ := ⟨rfl, by rw [h], by rw [h]⟩
  aligned := by rw [h]
  stand := hs
  pins := by rw [h]
  thermal := by rw [h]
  meter := by rw [h]
  settings := by rw [h]

theorem State.peersTake_ownPart (b : Nat) (p : List Byte) (y : State) : y.OwnPart (y.peersTake b p) 0 false := by
  unfold State.peersTake
  split
  · split
    · exact y.countLineError_ownPart
    · exact State.OwnPart.plain (LineEngine.Hears.of_same rfl rfl rfl rfl) rfl rfl
  · exact y.ownPart_refl

theorem State.limitTaken_ownPart (f : LimitFields) (y : State) : y.OwnPart (y.limitTaken f) 0 false := by
  obtain ⟨u, hu, hwhole, htimer⟩ := y.dispatchClock_spec f.dispatch
  have hal : u.timer.aligned = y.timer.aligned := by rw [htimer]
  have hl : u.line = y.line := by rw [hwhole]
  simp only [State.limitTaken, hu]
  split
  · split
    · exact State.OwnPart.plain (by rw [← hl]; exact LineEngine.Hears.of_same rfl rfl rfl rfl)
        (by rw [hwhole]; rfl) hal
    · exact State.OwnPart.plain (by rw [← hl]; exact LineEngine.Hears.of_same rfl rfl rfl rfl)
        (by rw [hwhole]) hal
  · exact State.OwnPart.plain (by rw [← hl]; exact LineEngine.Hears.of_same rfl rfl rfl rfl)
      (by rw [hwhole]) hal

theorem State.markClock_ownPart (n : Nat) (y : State) : y.OwnPart (y.markClock n) 0 false := by
  rw [State.markClock_spec]
  refine State.OwnPart.plain (LineEngine.Hears.of_same rfl rfl rfl rfl) rfl ?_
  show (if y.timer.clock = none ∧ n < 86400 then _ else y.timer).aligned = _
  split <;> rfl

/-- A QUERY taken: a count, nothing, or a reply. -/
theorem State.queryTaken_ownPart (q : QueryFrame) (v : Byte) (y : State) : ∃ r, y.OwnPart (y.queryTaken q v) 0 r := by
  unfold State.queryTaken
  split
  · exact ⟨_, y.countLineError_ownPart⟩
  · split
    · split
      · exact ⟨_, y.countDropped_ownPart⟩
      · next hp =>
        have hp : y.inspect.pendingReply = none := by simpa using hp
        obtain ⟨r, code, items, hr, -, -, hwhole, hinspect, hplaces⟩ := y.answerQuery_spec q v
        rw [hr]
        exact ⟨true, State.OwnPart.replies hp (by rw [hinspect]; exact nofun) hplaces (by rw [hwhole])
          (.inl (by rw [hwhole]))⟩
    · exact ⟨_, y.ownPart_refl⟩

/-- A SETUP decided forms a reply; only LOCK moves the standing, from SETUP to STARTING. -/
theorem State.setupDecided_ownPart {f : State → State}
    (h : f = State.decideLock ∨ f = State.decideRestart ∨ ∃ code value, f = State.decideWrite code value) (y : State)
    (hp : y.inspect.pendingReply = none) : y.OwnPart (f y) 0 true := by
  have plain : ∀ (u : State) k code action, u = { y with store := u.store } →
      y.OwnPart (u.setupReply k code action) 0 true := fun u k code action hu => by
    obtain ⟨r, part, hr, -, hwhole, hinspect, hplaces⟩ := u.setupReply_spec k code action
    rw [hr]
    exact State.OwnPart.replies hp (by rw [hinspect]; exact nofun) (by rw [hu] at hplaces; exact hplaces)
      (by rw [hwhole, hu]) (.inl (by rw [hwhole, hu]))
  rcases h with rfl | rfl | ⟨code, value, rfl⟩
  · unfold State.decideLock
    split
    · exact plain y _ _ _ rfl
    · next hs =>
      have hoff : y.onLine = false := State.offLine_of_setup (not_not.1 hs)
      split
      · exact plain y _ _ _ rfl
      · obtain ⟨r, part, hr, -, hwhole, hinspect, hplaces⟩ :=
          (y.setInstaller y.store.installer.lock).setupReply_spec .lock .accepted 2
        simp only [hr]
        exact State.OwnPart.replies hp (by show r.inspect.pendingReply ≠ none; rw [hinspect]; exact nofun) hplaces
          (by rw [hwhole]; rfl) (.inr ⟨hoff, rfl⟩)
  · obtain ⟨r, part, hr, -, hwhole, hinspect, hplaces⟩ := y.setupReply_spec .restart .accepted 3
    unfold State.decideRestart
    simp only [hr]
    exact State.OwnPart.replies hp (by show r.inspect.pendingReply ≠ none; rw [hinspect]; exact nofun) hplaces
      (by rw [hwhole]) (.inl (by rw [hwhole]))
  · unfold State.decideWrite
    split
    · exact plain _ _ _ _ rfl
    · exact plain y _ _ _ rfl

theorem State.setupFor_ownPart {f : State → State}
    (h : f = State.decideLock ∨ f = State.decideRestart ∨ ∃ code value, f = State.decideWrite code value) (n : BitVec 32)
    (y : State) : ∃ r, y.OwnPart (y.setupFor n f) 0 r := by
  unfold State.setupFor
  split
  · split
    · exact ⟨_, y.countDropped_ownPart⟩
    · next hp => exact ⟨_, State.setupDecided_ownPart h y (by simpa using hp)⟩
  · exact ⟨_, y.ownPart_refl⟩

theorem State.setupTaken_ownPart (p : List Byte) (y : State) : ∃ r, y.OwnPart (y.setupTaken p) 0 r := by
  unfold State.setupTaken
  split
  · simp only
    split
    · exact State.setupFor_ownPart (.inr (.inr ⟨_, _, rfl⟩)) _ y
    · exact State.setupFor_ownPart (.inl rfl) _ y
    · exact State.setupFor_ownPart (.inr (.inl rfl)) _ y
    · exact ⟨_, y.countLineError_ownPart⟩
  · exact ⟨_, y.countLineError_ownPart⟩

end Sys2Proof.Machine
end

section
/-! A NOTICE's own part, and every frame's: the count, the last character, and what is left (R88, R94, R160 to R164). -/

namespace Sys2Proof.Machine

/-! ### The notice unit's part -/

theorem Phase.toppable_iff {p : Phase} : p.toppable = true ↔ p = .charging ∨ p = .deferred := by
  cases p <;> simp [Phase.toppable]

/-- A NOTICE by its fields, its van and the session (R88, R94, R99); `u` is the state with its clock set. -/
theorem State.noticeTaken_cases (f : NoticeFields) (y u : State) (hu : u = y.dispatchClock f.dispatch) :
    (f.van = 0 ∨ 86400 ≤ f.departure → y.noticeTaken f = u.countLineError) ∧
    (f.van ≠ 0 → f.departure < 86400 → (∀ x, y.session = some x → x.van ≠ f.van) → y.noticeTaken f =
      { u with notices := { u.notices with
          table := storeNotice ⟨f.van, f.departure, noticeTarget f.target⟩ u.notices.table } }) ∧
    (f.van ≠ 0 → f.departure < 86400 → ∀ x, y.session = some x → x.van = f.van → ∀ x' : Session,
      x' = x.noticed u.timer.clock f.departure (noticeTarget f.target) →
      (¬ (x.phase.toppable = true ∧ x'.target ≤ y.runningWh x) → y.noticeTaken f = { u with session := some x' }) ∧
      (x.phase.toppable = true ∧ x'.target ≤ y.runningWh x → y.noticeTaken f =
        ({ u with session := some x' } : State).changeSession (some { x' with phase := .topped }))) := by
  obtain ⟨w, hw, hwhole, -⟩ := y.dispatchClock_spec f.dispatch
  obtain rfl : u = w := hu.trans hw
  have hsession : u.session = y.session := by rw [hwhole]
  have fits : f.van ≠ 0 → f.departure < 86400 →
      y.noticeTaken f = u.applyNotice f.van f.departure (noticeTarget f.target) := fun hv hd => by
    simp only [State.noticeTaken, hw]
    exact if_neg (by simp only [Config.daySeconds]; omega)
  refine ⟨fun h => ?_, fun hv hd hx => ?_, fun hv hd x hx hxv x' hx' => ?_⟩
  · simp only [State.noticeTaken, hw]
    exact if_pos h
  · rw [fits hv hd, State.applyNotice, hsession]
    cases hy : y.session with
    | none => rfl
    | some x => exact if_neg (hx x hy)
  · have happly : y.noticeTaken f = ({ u with session := some x' } : State).topIfReached := by
      rw [fits hv hd, State.applyNotice, hsession, hx, hx']
      exact if_pos hxv
    have hphase : x'.phase = x.phase := by rw [hx']; rfl
    have hrun : ({ u with session := some x' } : State).runningWh x' = y.runningWh x := by rw [hx', hwhole]; rfl
    rw [happly]
    unfold State.topIfReached
    simp only [hrun, hphase]
    exact ⟨fun h => if_neg h, fun h => if_pos h⟩

/-- The session passed to TOPPED: the power is lost, one record goes out, and on the line a claim is formed (R59, R94). -/
theorem State.changeSession_topped {w : State} {x : Session} (hx : w.session = some x) (ht : x.phase.toppable = true) :
    ∃ v : State, w.changeSession (some { x with phase := .topped }) = v.evalPermission ∧ v.permission = false ∧
      v = { w with session := some { x with phase := .topped }, out := { w.out with link := v.out.link }
                   share := v.share, line := v.line } ∧
      v.out.link = w.out.link ++ [.phase .topped x.holds none] ∧
      (w.onLine = true → ∃ c, c = ({ w with session := some { x with phase := .topped } } : State).claimNow ∧
        v.share = { w.share with ownClaim := some c, sequence := c.sequence } ∧ w.line.Places v.line .claim c.payload) ∧
      (w.onLine = false → v.share = w.share ∧ v.line = w.line) := by
  obtain ⟨v, hv, hwhole, hlink, hclaim, hsame⟩ := w.changeSession_spec (some { x with phase := .topped })
  have hp : w.phase = x.phase := State.phase_of hx
  have hphase : ({ w with session := some { x with phase := .topped } } : State).phase = .topped := rfl
  have hne : (Phase.topped : Phase) ≠ x.phase := fun h => by rw [← h] at ht; cases ht
  rw [hphase, hp, if_neg (fun h => hne h.1)] at hlink
  rw [hphase, hp] at hclaim hsame
  have hvs : v.session = some { x with phase := .topped } := by rw [hwhole]
  refine ⟨v, hv, ?_, hwhole, hlink, fun hon => hclaim hon hne rfl, fun hoff => hsame (.inr (.inr hoff))⟩
  simp only [State.permission, State.phase_of hvs, Phase.draws, Bool.false_and]

/-- The notice unit's part: at most one claim, with the passage to TOPPED. -/
theorem State.noticeTaken_ownPart (f : NoticeFields) (y : State) : ∃ n, y.OwnPart (y.noticeTaken f) n false := by
  obtain ⟨u, hu, hwhole, htimer⟩ := y.dispatchClock_spec f.dispatch
  have hal : u.timer.aligned = y.timer.aligned := by rw [htimer]
  have hl : u.line = y.line := by rw [hwhole]
  obtain ⟨hbad, hstored, hown⟩ := State.noticeTaken_cases f y u hu.symm
  have plain : ∀ z : State, z = { u with session := z.session, notices := z.notices, line := z.line } →
      u.line.Hears z.line 0 false → y.OwnPart z 0 false := fun z hz hzl =>
    State.OwnPart.plain (by rw [← hl]; exact hzl) (by rw [hz, hwhole]) (by rw [hz]; exact hal)
  by_cases hmal : f.van = 0 ∨ 86400 ≤ f.departure
  · rw [hbad hmal]
    exact ⟨0, plain _ rfl (LineEngine.Hears.of_same rfl rfl rfl rfl)⟩
  · push Not at hmal
    by_cases hx : ∀ x, y.session = some x → x.van ≠ f.van
    · rw [hstored hmal.1 hmal.2 hx]
      exact ⟨0, plain _ rfl (LineEngine.Hears.of_same rfl rfl rfl rfl)⟩
    · push Not at hx
      obtain ⟨x, hx, hxv⟩ := hx
      obtain ⟨hstay, htop⟩ := hown hmal.1 hmal.2 x hx hxv _ rfl
      by_cases ht : x.phase.toppable = true ∧
          (x.noticed u.timer.clock f.departure (noticeTarget f.target)).target ≤ y.runningWh x
      · rw [htop ht]
        obtain ⟨v, hv, hlost, hvw, hlink, hclaim, hsame⟩ := State.changeSession_topped
          (w := { u with session := some (x.noticed u.timer.clock f.departure (noticeTarget f.target)) }) rfl
          (by exact ht.1)
        rw [hv]
        have hdue := v.evalPermission_sendsDue
        have hstage : v.stage = y.stage := by rw [hvw, hwhole]
        have hphase : v.evalPermission.phase ≠ y.phase := by
          have hvp : v.evalPermission.phase = .topped := by
            unfold State.phase; rw [State.evalPermission_session, hvw]
          rw [hvp, State.phase_of hx]
          intro h
          rw [← h] at ht
          cases ht.1
        have hshare : ∃ n, (n = 0 → v.share = y.share) ∧ (0 < n → v.share.sequence = (y.share.sequence + n) % 256) ∧
            v.share = { y.share with ownClaim := v.share.ownClaim, sequence := v.share.sequence } ∧
            y.line.Hears v.line n false ∧ n ≤ 1 := by
          have hus : u.share = y.share := by rw [hwhole]
          cases ho : u.onLine
          · obtain ⟨h1, h2⟩ := hsame ho
            refine ⟨0, fun _ => h1.trans hus, nofun, by rw [h1.trans hus], ?_, Nat.zero_le 1⟩
            rw [h2, ← hl]
            exact LineEngine.Hears.of_same rfl rfl rfl rfl
          · obtain ⟨c, hc, h1, h2⟩ := hclaim ho
            refine ⟨1, nofun, fun _ => ?_, by rw [h1, ← hus], by rw [← hl]; exact h2.hearsClaim, le_rfl⟩
            rw [h1, hc, ← hus]; rfl
        obtain ⟨n, h0, hpos, hsh, hline, hfew⟩ := hshare
        refine ⟨n, ?_, hfew, fun h => absurd h hphase, ?_, .inl ?_, ?_, ?_, ?_, ?_⟩
        · exact {
            cap := by rw [hdue.cap, hstage]
            lagSlice := by rw [hdue.lagSlice, hstage]
            owed := by rw [hdue.owed, hstage]
            outLine := by rw [State.evalPermission_line_out, hvw, hwhole]
            share := by rw [State.evalPermission_share]; exact hsh
            unclaimed := fun h => by rw [State.evalPermission_share]; exact h0 h
            claimed := fun h => by rw [State.evalPermission_share]; exact hpos h
            answered := nofun
            unanswered := fun _ => by rw [State.evalPermission_inspect, hvw, hwhole]
            line := by rw [State.evalPermission_line]; exact hline }
        · rw [State.evalPermission_timer, hvw]; exact hal
        · rw [State.evalPermission_stand, hvw, hwhole]
        · rw [State.evalPermission_pins, hvw, hwhole]
        · rw [State.evalPermission_thermal, hvw, hwhole]
        · rw [State.evalPermission_meter, hvw, hwhole]
        · rw [State.evalPermission_settings, hvw, hwhole]
      · rw [hstay ht]
        exact ⟨0, plain _ rfl (LineEngine.Hears.of_same rfl rfl rfl rfl)⟩

/-! ### The two parts of a frame's delivery -/

/-- A part that the own block takes of a frame, whatever state it finds. -/
def OwnBlock (own : State → State) : Prop := ∀ y : State, ∃ n r, y.OwnPart (own y) n r

theorem ownBlock_id : OwnBlock id := fun y => ⟨0, false, y.ownPart_refl⟩
theorem ownBlock_lineError : OwnBlock State.countLineError := fun y => ⟨0, false, y.countLineError_ownPart⟩

/-- Delivery in a free order, or the own block's part first: `x` is the state with the frame taken. -/
def State.Delivered (w t : State) (own : State → State) (bay : Nat) : Prop :=
  ∃ x : State, x = { w with choices := x.choices, freeCount := x.freeCount } ∧
    (t = (own x).standingTakes bay ∨ t = own (x.standingTakes bay))

theorem State.Delivered.first (w : State) (own : State → State) (bay : Nat) :
    w.Delivered ((own w).standingTakes bay) own bay := ⟨w, rfl, .inl rfl⟩

theorem State.Delivered.either (w : State) (own : State → State) (bay : Nat) :
    w.Delivered (inAnyOrder [own, State.standingTakes bay] w) own bay :=
  ⟨_, choose_eq w, inAnyOrder_pair own (State.standingTakes bay) w⟩

theorem State.deliverNotice_delivered (w : State) (b : Nat) (p : List Byte) :
    ∃ own, OwnBlock own ∧ w.Delivered (w.deliverNotice b p) own b := by
  unfold State.deliverNotice
  split
  · exact ⟨_, ownBlock_lineError, State.Delivered.first _ _ _⟩
  · next f _ =>
    refine ⟨State.noticeTaken f, fun y => ?_, State.Delivered.either w (State.noticeTaken f) b⟩
    obtain ⟨n, h⟩ := State.noticeTaken_ownPart f y
    exact ⟨n, false, h⟩

theorem State.deliverLimit_delivered (w : State) (b : Nat) (p : List Byte) :
    ∃ own, OwnBlock own ∧ w.Delivered (w.deliverLimit b p) own b := by
  unfold State.deliverLimit
  split
  · exact ⟨_, ownBlock_lineError, State.Delivered.first _ _ _⟩
  · next f _ => exact ⟨State.limitTaken f, fun y => ⟨0, false, State.limitTaken_ownPart f y⟩, State.Delivered.first _ _ _⟩

/-- A MARK of another length, in IDLE, or of no peer, is delivered as the other kinds. -/
theorem State.deliverMark_delivered (w : State) (b : Nat) (p : List Byte)
    (h : p.length ≠ 3 ∨ w.timer.running = false ∨ (w.onLine = true ∧ (b = 0 ∨ w.cfg.n < b))) :
    ∃ own, OwnBlock own ∧ w.Delivered (w.deliverMark b p) own b := by
  unfold State.deliverMark
  split
  · exact ⟨_, ownBlock_lineError, State.Delivered.first _ _ _⟩
  · next n hn =>
    split
    · next hpeer =>
      split
      · next hr =>
        exfalso
        rcases h with h | h | ⟨ho, h⟩
        · rw [markField_malformed h] at hn; cases hn
        · rw [h] at hr; cases hr
        · unfold State.isMarkPeer at hpeer
          rw [if_pos (by exact ho), State.isStation, decide_eq_true_eq] at hpeer
          omega
      · exact ⟨State.markClock n, fun y => ⟨0, false, State.markClock_ownPart n y⟩, State.Delivered.first _ _ _⟩
    · exact ⟨id, ownBlock_id, State.Delivered.first w id b⟩

/-- Every frame but a MARK that the running round timer takes is delivered so (R161). -/
theorem frame_delivered {c : Instr} {kind : FrameKind} {bay : Byte} (s : State) (hc : frameOf c = some (kind, bay))
    (hmark : ∀ b p temps, c = .markFrame b p temps →
      p.length ≠ 3 ∨ s.timer.running = false ∨ (s.onLine = true ∧ (bay.toNat = 0 ∨ s.cfg.n < bay.toNat))) :
    ∃ temps own, OwnBlock own ∧
      ((s.setTemps temps).takeFrame kind bay.toNat).Delivered (effect c s) own bay.toNat := by
  have query : ∀ (q : QueryFrame) (v : Byte), ∃ temps own, OwnBlock own ∧
      ((s.setTemps temps).takeFrame .query q.sender.toNat).Delivered (s.queryFrame q v) own q.sender.toNat := fun q v =>
    ⟨s.pins.temps, State.queryTaken q v, fun y => ⟨0, State.queryTaken_ownPart q v y⟩,
      State.Delivered.either (s.takeFrame .query q.sender.toNat) _ _⟩
  have setup : ∀ (b : Byte) (own : State → State), (∀ y : State, ∃ r, y.OwnPart (own y) 0 r) → ∃ temps own', OwnBlock own' ∧
      ((s.setTemps temps).takeFrame .setup b.toNat).Delivered (s.setupFrame b own) own' b.toNat := fun b own h =>
    ⟨s.pins.temps, own, fun y => ⟨0, h y⟩, State.Delivered.first (s.takeFrame .setup b.toNat) _ _⟩
  cases c <;> cases hc
  case markFrame p temps =>
    exact ⟨temps, State.deliverMark_delivered ((s.setTemps temps).takeFrame .mark bay.toNat) bay.toNat p (hmark _ _ _ rfl)⟩
  case claimFrame p =>
    exact ⟨s.pins.temps, State.peersTake bay.toNat p, fun y => ⟨0, false, State.peersTake_ownPart bay.toNat p y⟩,
      State.Delivered.first (s.takeFrame .claim bay.toNat) _ _⟩
  case noticeFrame p =>
    exact ⟨s.pins.temps, State.deliverNotice_delivered (s.takeFrame .notice bay.toNat) bay.toNat p⟩
  case limitFrame p =>
    exact ⟨s.pins.temps, State.deliverLimit_delivered (s.takeFrame .limit bay.toNat) bay.toNat p⟩
  case replyFrame p =>
    exact ⟨s.pins.temps, id, ownBlock_id, State.Delivered.first (s.takeFrame .reply bay.toNat) id _⟩
  case setupWrite n f v => exact setup bay _ (State.setupFor_ownPart (.inr (.inr ⟨_, _, rfl⟩)) n)
  case setupLock n => exact setup bay _ (State.setupFor_ownPart (.inl rfl) n)
  case setupRestart n => exact setup bay _ (State.setupFor_ownPart (.inr (.inl rfl)) n)
  case malformedSetup p => exact setup bay _ (State.setupTaken_ownPart p)
  all_goals exact query _ _

end Sys2Proof.Machine
end

section
/-! A frame heard as a whole: both parts of its delivery, and what the statement on frames says of them (R34, R112, R113,
R151, R155, R156, R160, R162, R164). -/

namespace Sys2Proof.Machine

/-- A claim of a passage stands in the outbox of `t`, formed in a state `v` by that passage. -/
def State.PassageClaim (w t v : State) : Prop :=
  t.share.ownClaim = some v.claimNow ∧ t.line.outbox.claim = some ⟨v.claimNow.payload, 0⟩ ∧ v.stand = t.stand ∧
    (v.session = w.session ∨ v.session = t.session) ∧ v.thermal = w.thermal ∧ v.meter = w.meter ∧
    v.settings = w.settings ∧ v.share = w.share

/-- What the blocks' work at a frame does to the state after its last character: `n` claims, a reply or none. -/
structure State.Takes (w t : State) (n : Nat) (replied : Bool) : Prop where
  hears : w.Hears t n replied
  few : n ≤ 2
  aligned : t.timer.aligned = (w.timer.aligned && !(w.stand.standing == .cutoff && t.stand.standing == .listening))
  stage : t.phase = w.phase → t.stand.standing = w.stand.standing ∨ w.DrawSafe → t.stage = w.stage ∧ t.out = w.out
  quiet : t.stand.standing = w.stand.standing → t.phase = w.phase → n = 0
  passage : w.onLine = true → t.stand.standing ≠ w.stand.standing → t.phase = w.phase →
    n = 1 ∧ ∃ v, w.PassageClaim t v

theorem State.phase_congr {s t : State} (h : t.session = s.session) : t.phase = s.phase := by
  unfold State.phase; rw [h]

theorem State.not_cutoff_of_offLine {s : State} (h : s.onLine = false) : (s.stand.standing == .cutoff) = false := by
  unfold State.onLine at h
  cases hs : s.stand.standing with
  | cutoff => rw [hs] at h; cases h
  | _ => rfl

theorem State.onLine_congr {s t : State} (h : t.stand.standing = s.stand.standing) : t.onLine = s.onLine := by
  unfold State.onLine; rw [h]

/-! ### A passage, and the own part beside it -/

theorem State.formEval_stand (u : State) : u.formClaim.evalPermission.stand = u.stand := by
  rw [State.evalPermission_stand, State.formClaim_stand]

namespace State.Passed
variable {x u : State} (h : x.Passed u)
include h

theorem ne_after : u.formClaim.evalPermission.stand.standing ≠ x.stand.standing := by rw [u.formEval_stand]; exact h.ne

theorem session_after : u.formClaim.evalPermission.session = x.session := by
  rw [State.evalPermission_session, State.formClaim_session, h.whole]

/-- Where stage control is as DrawKept keeps it, a passage leaves it (R112). -/
theorem still {w : State} (hw : w.DrawSafe) (hg : x.stage = w.stage) (hp : x.permission = w.permission) :
    u.formClaim.evalPermission.stage = x.stage ∧ u.formClaim.evalPermission.out = x.out := by
  have hperm : u.formClaim.permission = w.permission :=
    (State.permission_congr (by simp) (by simp) (by simp)).trans (h.permission.trans hp)
  have hstage : u.formClaim.stage = x.stage := by rw [State.formClaim_stage, h.whole]
  rw [hw.evalPermission (hstage.trans hg) hperm]
  exact ⟨hstage, by rw [State.formClaim_out, h.whole]⟩

theorem claims : u.formClaim.evalPermission.share.ownClaim = some u.claimNow ∧
    u.formClaim.evalPermission.line.outbox.claim = some ⟨u.claimNow.payload, 0⟩ := by
  obtain ⟨hshare, hplaces, -, -⟩ := State.formEval_spec h.hears
  exact ⟨by rw [hshare], by rw [hplaces.inSlot]; rfl⟩

end State.Passed

namespace State.OwnPart
variable {y z : State} {n : Nat} {r : Bool} (h : y.OwnPart z n r)
include h

theorem onLine : z.onLine = y.onLine := by
  rcases h.stand with e | ⟨e1, e2⟩
  · exact State.onLine_congr (by rw [e])
  · rw [e1, e2]

theorem stand_of_onLine (ho : y.onLine = true) : z.stand = y.stand :=
  h.stand.resolve_right fun e => by rw [e.1] at ho; cases ho

theorem cutoff : (z.stand.standing == .cutoff) = (y.stand.standing == .cutoff) := by
  rcases h.stand with e | ⟨e1, e2⟩
  · rw [e]
  · rw [State.not_cutoff_of_offLine e1, State.not_cutoff_of_offLine e2]

end State.OwnPart

/-! ### Both parts -/

/-- The own block first. -/
theorem State.OwnPart.thenStanding {w y : State} {n : Nat} {r : Bool} (h : w.OwnPart y n r) (b : Nat) :
    ∃ k, w.Takes (y.standingTakes b) k r := by
  have haligned : (y.standingTakes b).timer.aligned = (w.timer.aligned &&
      !(w.stand.standing == .cutoff && (y.standingTakes b).stand.standing == .listening)) := by
    rw [y.standingTakes_aligned b, h.aligned, h.cutoff]
  have hphase : (y.standingTakes b).phase = y.phase := State.phase_congr (State.standingTakes_session b y)
  have hfew := h.few
  rcases y.standingTakes_hears b with ⟨hs, e, hh⟩ | ⟨u, hu, e, hh⟩
  · have htrans := h.hears.trans hh
    rw [Nat.add_zero, Bool.or_false] at htrans
    refine ⟨n, htrans, by omega, haligned, fun hp _ => ?_, fun _ hp => (h.quiet (hphase.symm.trans hp)).1,
      fun ho hne _ => absurd (hs.trans (by rw [h.stand_of_onLine ho])) hne⟩
    obtain ⟨-, hg, hout⟩ := h.quiet (hphase.symm.trans hp)
    exact ⟨by rw [e]; exact hg, by rw [e]; exact hout⟩
  · have htrans := h.hears.trans hh
    rw [Bool.or_false] at htrans
    have hy : y.stand = w.stand := h.stand_of_onLine (h.onLine.symm.trans hu.onLine)
    have hne : (y.standingTakes b).stand.standing ≠ w.stand.standing := by rw [e, ← hy]; exact hu.ne_after
    refine ⟨n + 1, htrans, by omega, haligned, fun hp hsafe => ?_, fun hs => absurd hs hne, fun _ _ hp => ?_⟩
    · obtain ⟨-, hg, hout⟩ := h.quiet (hphase.symm.trans hp)
      have hperm : y.permission = w.permission := by
        rw [State.permission, State.permission, hphase.symm.trans hp, h.pins, hy]
      obtain ⟨h1, h2⟩ := hu.still (hsafe.resolve_left hne) hg hperm
      rw [e]
      exact ⟨h1.trans hg, h2.trans hout⟩
    · obtain ⟨hn, -⟩ := h.quiet (hphase.symm.trans hp)
      obtain ⟨hc, ho⟩ := hu.claims
      rw [e]
      refine ⟨by rw [hn], u, hc, ho, u.formEval_stand.symm, .inr ?_, ?_, ?_, ?_, ?_⟩
      · rw [hu.session_after, hu.whole]
      · rw [hu.whole]; exact h.thermal
      · rw [hu.whole]; exact h.meter
      · rw [hu.whole]; exact h.settings
      · rw [hu.whole]; exact h.hears.unclaimed hn

/-- The standing unit first. -/
theorem State.OwnPart.afterStanding {w t : State} {b n : Nat} {r : Bool} (h : (w.standingTakes b).OwnPart t n r) :
    ∃ k, w.Takes t k r := by
  have haligned : t.timer.aligned = (w.timer.aligned && !(w.stand.standing == .cutoff && t.stand.standing == .listening)) := by
    rw [h.aligned, w.standingTakes_aligned b]
    rcases h.stand with e | ⟨e, -⟩
    · rw [e]
    · have hw : w.onLine = false := by
        rw [← e]
        rcases w.standingTakes_cases b with ⟨hs, -⟩ | ⟨u, hu, e'⟩
        · exact (State.onLine_congr hs).symm
        · have := hu.hears
          rw [e', State.onLine, u.formEval_stand, this] at e
          cases e
      rw [State.not_cutoff_of_offLine hw, Bool.false_and, Bool.false_and]
  have hphase : (w.standingTakes b).phase = w.phase := State.phase_congr (State.standingTakes_session b w)
  have hfew := h.few
  rcases w.standingTakes_hears b with ⟨hs, e, hh⟩ | ⟨u, hu, e, hh⟩
  · have htrans := hh.trans h.hears
    rw [Nat.zero_add, Bool.false_or] at htrans
    refine ⟨n, htrans, by omega, haligned, fun hp _ => ?_, fun _ hp => (h.quiet (hp.trans hphase.symm)).1,
      fun ho hne _ => absurd ?_ hne⟩
    · obtain ⟨-, hg, hout⟩ := h.quiet (hp.trans hphase.symm)
      exact ⟨hg.trans (by rw [e]), hout.trans (by rw [e])⟩
    · rw [h.stand_of_onLine ((State.onLine_congr hs).trans ho), hs]
  · have htrans := hh.trans h.hears
    rw [Bool.false_or] at htrans
    have honline : (w.standingTakes b).onLine = true := by rw [e, State.onLine, u.formEval_stand]; exact hu.hears
    have ht : t.stand = u.stand := by rw [h.stand_of_onLine honline, e, u.formEval_stand]
    have hne : t.stand.standing ≠ w.stand.standing := by rw [ht]; exact hu.ne
    refine ⟨1 + n, htrans, by omega, haligned, fun hp hsafe => ?_, fun hs => absurd hs hne, fun _ _ hp => ?_⟩
    · obtain ⟨-, hg, hout⟩ := h.quiet (hp.trans hphase.symm)
      obtain ⟨h1, h2⟩ := hu.still (hsafe.resolve_left hne) rfl rfl
      rw [hg, hout, e]
      exact ⟨h1, h2⟩
    · obtain ⟨hn, -⟩ := h.quiet (hp.trans hphase.symm)
      obtain ⟨hc, ho⟩ := hu.claims
      refine ⟨by rw [hn], u, ?_, ?_, ht.symm, .inl ?_, ?_, ?_, ?_, ?_⟩
      · rw [h.hears.unclaimed hn, e, hc]
      · rw [h.hears.line.claim hn, e, ho]
      all_goals rw [hu.whole]

theorem State.Delivered.takes {w t : State} {own : State → State} {bay : Nat} (hown : OwnBlock own)
    (h : w.Delivered t own bay) : ∃ (x : State) (n : Nat) (r : Bool), x = { w with choices := x.choices, freeCount := x.freeCount } ∧ x.Takes t n r := by
  obtain ⟨x, hx, rfl | rfl⟩ := h
  · obtain ⟨n, r, hpart⟩ := hown x
    obtain ⟨k, ht⟩ := hpart.thenStanding bay
    exact ⟨x, k, r, hx, ht⟩
  · obtain ⟨n, r, hpart⟩ := hown (x.standingTakes bay)
    obtain ⟨k, ht⟩ := hpart.afterStanding
    exact ⟨x, k, r, hx, ht⟩

/-! ### The count and the last character -/

/-- What a frame's last character and its count leave, whatever the blocks do with the frame. -/
def LineEngine.FrameHeard (heard foreign collisions : Nat) (l : LineEngine) : Prop :=
  l.counters.framesHeard = heard ∧ l.counters.collisions = collisions ∧ l.counters.foreignFrames = foreign ∧
    l.receiver = .skip true ∧ l.quietTimer = 0 ∧ l.lineActive = false

theorem lineMoves_frameHeard (heard foreign collisions : Nat) :
    LineMoves (LineEngine.FrameHeard heard foreign collisions) where
  place s slot p h := by
    obtain ⟨_, _, e⟩ := s.placeFrame_line slot p
    rw [e]; exact h
  remove s slot _ h := by
    obtain ⟨_, e⟩ := State.removeFrame_line slot s
    rw [e]; exact h
  forbid s slot h := by
    unfold State.forbidRetry
    split
    · split
      · exact h
      · exact h
    · exact h
  drawn _ _ h := h
  counted _ _ _ _ h := h

theorem seq_add_ne {q n : Nat} (h1 : 0 < n) (h2 : n ≤ 2) : (q + n) % 256 ≠ q := by omega

/-- Settles O22: the count and the last character are kept by every block's work; the rest is what the two parts of a
frame's delivery do, in either order. -/
theorem framesAreCounted : Obligations.FramesAreCounted := by
  refine ⟨fun kind bay s => ⟨_, rfl, rfl, ?_, ?_⟩, fun c kind bay s hc => ⟨_, exec_eq c s, ?_⟩,
    fun c kind bay s hc hmark => ?_⟩
  · obtain ⟨w, hw, -, -, -, -, hcounters⟩ := s.takeFrame_spec kind bay
    rw [hw, hcounters, ← hw]
    have : (s.takeFrame kind bay).line = { s.line with
        receiver := .skip true, quietTimer := 0, lineActive := false, sender := s.line.sender.rewait
        counters := (s.takeFrame kind bay).line.counters } := rfl
    rw [this, hw, hcounters]
  · exact congrArg LineCounters.foreignFrames (State.takeFrame_counters s kind bay)
  · refine (lineMoves_frameHeard _ _ s.line.counters.collisions).frame hc s ⟨?_, ?_, ?_, rfl, rfl, rfl⟩
    · exact congrArg LineCounters.framesHeard (State.takeFrame_counters s kind bay.toNat)
    · show (s.takeFrame kind bay.toNat).line.counters.collisions = _
      rw [State.takeFrame_counters]
    · exact congrArg LineCounters.foreignFrames (State.takeFrame_counters s kind bay.toNat)
  · obtain ⟨temps, own, hown, hd⟩ := frame_delivered s hc hmark
    obtain ⟨x, n, r, hx, ht⟩ := hd.takes hown
    have hsame : x = { s with
        pins := { s.pins with temps := temps }, line := x.line, choices := x.choices, freeCount := x.freeCount } := by
      rw [hx]; rfl
    have hxs : x.stand = s.stand := by rw [hsame]
    have hxg : x.stage = s.stage := by rw [hsame]
    have hxo : x.out = s.out := by rw [hsame]
    have hxsh : x.share = s.share := by rw [hsame]
    have hxt : x.timer = s.timer := by rw [hsame]
    have hxi : x.inspect = s.inspect := by rw [hsame]
    have hxp : x.phase = s.phase := State.phase_congr (by rw [hsame])
    have hprng : x.line.prng = s.line.prng := by rw [hx]; rfl
    have hsender : x.line.sender = s.line.sender.rewait := by rw [hx]; rfl
    have houtbox : x.line.outbox = s.line.outbox := by rw [hx]; rfl
    have hunposted : x.line.counters.claimsUnposted = s.line.counters.claimsUnposted := by
      rw [hx]
      show ((s.setTemps temps).takeFrame kind bay.toNat).line.counters.claimsUnposted = _
      rw [State.takeFrame_counters]; rfl
    obtain ⟨hh, hfew, haligned, hstage, hquiet, hpass⟩ := ht
    rw [hxs] at haligned hstage hquiet hpass
    rw [hxp] at hstage hquiet hpass
    rw [hxt] at haligned
    rw [hxg, hxo] at hstage
    have hshare := hh.share
    have hunclaimed := hh.unclaimed
    have hclaimed := hh.claimed
    have hanswered := hh.answered
    have hunanswered := hh.unanswered
    rw [hxsh] at hshare hunclaimed hclaimed
    rw [hxi] at hanswered hunanswered
    obtain ⟨hwait, hsend, hstill, hdraws, hkeepmark, hkeepclaim, hkeepreply, hkeepcount⟩ := hh.line
    rw [hprng, hsender] at hwait hsend hstill hdraws
    rw [houtbox] at hkeepmark hkeepclaim hkeepreply
    have hpos : decide (0 < n) = true ↔ (effect c s).share.sequence ≠ s.share.sequence := by
      rw [decide_eq_true_eq]
      refine ⟨fun h => ?_, fun h => Nat.pos_of_ne_zero fun hz => h (by rw [hunclaimed hz])⟩
      rw [hclaimed h]
      exact seq_add_ne h hfew
    have hzero : decide (0 < n) = false → n = 0 := fun h => by
      rw [decide_eq_false_iff_not] at h; omega
    refine ⟨_, decide (0 < n), r, exec_eq c s, by rw [hh.cap, hxg], by rw [hh.lagSlice, hxg], by rw [hh.owed, hxg],
      by rw [hh.outLine, hxo], fun hp hs => hstage hp (hs.imp_right fun h => ?_), hshare, haligned, hpos, ?_,
      hkeepcount.trans hunposted, hkeepmark, ?_, ?_, ?_, ?_, ?_, ?_, ?_⟩
    · rw [hsame]; exact { h with }
    · refine ⟨hanswered, fun ⟨h1, h2⟩ => ?_⟩
      rcases Bool.eq_false_or_eq_true r with hr | hr
      · exact hr
      · exact absurd ((hunanswered hr).trans h1) h2
    · exact fun h => ⟨hkeepclaim (hzero h), by rw [hunclaimed (hzero h)]⟩
    · exact fun h => ⟨hkeepreply h, hunanswered h⟩
    · exact fun b w h => hwait b 0 (by rw [h]; rfl)
    · exact fun a h => hsend a (by rw [h]; rfl)
    · exact fun h => ⟨fun h1 h2 => hstill (by rw [h]; rfl) (hzero h1) h2,
        fun h1 => hdraws (by rw [h]; rfl) (h1.imp_left of_decide_eq_true)⟩
    · exact fun h1 h2 => decide_eq_false (by rw [hquiet h1 h2]; decide)
    · intro ho hne hp
      obtain ⟨hn, v, hc, hout, hst, hsess, hth, hm, hset, hsh⟩ := hpass (by rw [hsame]; exact ho) hne hp
      refine ⟨by rw [hclaimed (by omega), hn], v, hc, hout, hst, hsess.imp_left fun e => ?_, ?_, ?_, ?_, ?_⟩
      · rw [e, hsame]
      · rw [hth, hsame]
      · rw [hm, hsame]
      · rw [hset, hsame]
      · rw [hsh, hsame]

end Sys2Proof.Machine
end

section
/-! A NOTICE taken, beside a frame's standing part in either order (R34, R59, R78, R88, R94, R99 to R101, R112, R113). -/

namespace Sys2Proof.Machine

/-! ### What a NOTICE does to the session -/

/-- The session `x` becomes `y` at a NOTICE for its van, `wh` having been delivered so far (R78, R88, R94). -/
def Session.NoticedAs (x y : Session) (f : NoticeFields) (clock : Option Nat) (wh : Nat) : Prop :=
  (f.target = 0 → y.target = x.need ∧ y.targetSource = .van) ∧
  (0 < f.target → y.target = min x.need (min f.target 200000) ∧ y.targetSource = .notice) ∧
  (clock = none → y.departure = x.departure ∧ y.departureSource = x.departureSource) ∧
  (∀ now d, clock = some now → d = (f.departure + 86400 - now) % 86400 →
    y.departureSource = .notice ∧ y.departure = if d ≤ 72000 then d else 0) ∧
  y.phase = (if (x.phase = .charging ∨ x.phase = .deferred) ∧ y.target ≤ wh then .topped else x.phase) ∧
  y = { x with target := y.target, targetSource := y.targetSource, departure := y.departure
               departureSource := y.departureSource, phase := y.phase }

theorem Session.noticed_noticedAs (x y : Session) (f : NoticeFields) (clock : Option Nat) (wh : Nat)
    (hy : y = { x.noticed clock f.departure (noticeTarget f.target) with phase := y.phase })
    (hp : y.phase = (if (x.phase = .charging ∨ x.phase = .deferred) ∧
      (x.noticed clock f.departure (noticeTarget f.target)).target ≤ wh then .topped else x.phase)) :
    x.NoticedAs y f clock wh := by
  have htarget : y.target = (sessionTarget x.need (noticeTarget f.target)).1 := by rw [hy]; rfl
  have hsource : y.targetSource = (sessionTarget x.need (noticeTarget f.target)).2 := by rw [hy]; rfl
  have hdep : ∀ c, clock = c → y.departure = (x.noticed c f.departure none).departure ∧
      y.departureSource = (x.noticed c f.departure none).departureSource := by rintro c rfl; rw [hy]; exact ⟨rfl, rfl⟩
  refine ⟨fun h => ?_, fun h => ?_, hdep none, fun now d h hd => ?_, by rw [htarget]; exact hp, ?_⟩
  · rw [htarget, hsource, noticeTarget, if_pos h]; exact ⟨rfl, rfl⟩
  · rw [htarget, hsource, noticeTarget, if_neg (by omega)]; exact ⟨rfl, rfl⟩
  · rw [(hdep _ h).1, (hdep _ h).2, hd]; exact ⟨rfl, rfl⟩
  · rw [hy]; rfl

/-! ### What a NOTICE does to the state -/

/-- From `s` to `t` a NOTICE of these fields is taken. -/
structure State.NoticeDone (f : NoticeFields) (s t : State) : Prop where
  timer : t.timer = { s.timer with
    clock := if f.dispatch < 86400 then some f.dispatch else s.timer.clock
    subSecond := if f.dispatch < 86400 then 0 else s.timer.subSecond
    aligned := t.timer.aligned }
  override : t.notices.override = s.notices.override
  allotment : t.share.allotment = s.share.allotment
  claims : ∃ n, n = (if t.stand.standing = s.stand.standing then 0 else 1) + (if t.phase = s.phase then 0 else 1) ∧
    (n = 0 → t.share = s.share) ∧
    (0 < n → s.onLine = true → t.share.sequence = (s.share.sequence + n) % 256)
  link : t.out.link = s.out.link ++ (if t.phase = s.phase then [] else [.phase .topped s.holds none])
  lost : t.phase ≠ s.phase → t.stage.applied = 0 ∧ t.stage.pendingIncrease = none ∧ t.stage.enable = false ∧
    (s.stage.wordSent = (if s.stage.cap then 0 else s.stage.applied) → s.SendsDue t)
  malformed : f.van = 0 ∨ 86400 ≤ f.departure →
    t.line.counters.lineErrors = min 65535 (s.line.counters.lineErrors + 1) ∧
    t.notices.table = s.notices.table ∧ t.session = s.session
  stored : f.van ≠ 0 → f.departure < 86400 → (∀ x, s.session = some x → x.van ≠ f.van) →
    t.line.counters.lineErrors = s.line.counters.lineErrors ∧ t.session = s.session ∧
    t.notices.table = storeNotice ⟨f.van, f.departure, noticeTarget f.target⟩ s.notices.table
  own : f.van ≠ 0 → f.departure < 86400 → ∀ x, s.session = some x → x.van = f.van →
    t.line.counters.lineErrors = s.line.counters.lineErrors ∧ t.notices.table = s.notices.table ∧
    ∃ y, t.session = some y ∧ x.NoticedAs y f t.timer.clock (s.runningWh x)
  claim : s.onLine = true → t.phase ≠ s.phase →
    ∃ v : State, t.share.ownClaim = some v.claimNow ∧ t.share.sequence = v.claimNow.sequence ∧
      t.line.outbox.claim = some ⟨v.claimNow.payload, 0⟩ ∧ v.session = t.session ∧ v.thermal = s.thermal ∧
      v.meter = s.meter ∧ v.settings = s.settings ∧ v.share.allotment = s.share.allotment ∧
      (v.stand = s.stand ∨ v.stand = t.stand)
  whole : t = { s with
    timer := t.timer, stand := t.stand, share := t.share, session := t.session, notices := t.notices
    stage := t.stage, line := t.line, out := t.out, choices := t.choices, freeCount := t.freeCount }

/-- The notice unit's part alone: the standing stands, and a passage to TOPPED evaluates the permission last. -/
structure State.NoticeOwn (f : NoticeFields) (s t : State) : Prop extends State.NoticeDone f s t where
  stand : t.stand = s.stand
  topped : t.phase ≠ s.phase → ∃ v : State, t = v.evalPermission ∧ v.permission = false ∧ v.stage = s.stage ∧
    v.out.stage = s.out.stage

theorem State.runningWh_congr {s t : State} (hset : t.settings = s.settings) (hm : t.meter = s.meter) (x : Session) :
    t.runningWh x = s.runningWh x := by
  simp only [State.runningWh, State.runningCounts, State.whOf, State.cfg, hset, hm]

/-- The notice unit's part with the phase as it was: clock, count, table, session. -/
theorem State.NoticeOwn.plain {f : NoticeFields} {y u z : State} (hu : y.dispatchClock f.dispatch = u)
    (hz : z = { u with session := z.session, notices := z.notices, line := z.line })
    (ho : z.notices.override = y.notices.override) (hp : z.phase = y.phase)
    (hmal : f.van = 0 ∨ 86400 ≤ f.departure →
      z.line.counters.lineErrors = min 65535 (y.line.counters.lineErrors + 1) ∧
      z.notices.table = y.notices.table ∧ z.session = y.session)
    (hstored : f.van ≠ 0 → f.departure < 86400 → (∀ x, y.session = some x → x.van ≠ f.van) →
      z.line.counters.lineErrors = y.line.counters.lineErrors ∧ z.session = y.session ∧
      z.notices.table = storeNotice ⟨f.van, f.departure, noticeTarget f.target⟩ y.notices.table)
    (hown : f.van ≠ 0 → f.departure < 86400 → ∀ x, y.session = some x → x.van = f.van →
      z.line.counters.lineErrors = y.line.counters.lineErrors ∧ z.notices.table = y.notices.table ∧
      ∃ x', z.session = some x' ∧ x.NoticedAs x' f z.timer.clock (y.runningWh x)) : State.NoticeOwn f y z := by
  obtain ⟨_, rfl, hwhole, htimer⟩ := y.dispatchClock_spec f.dispatch
  rw [hu] at hwhole htimer
  have hshare : z.share = y.share := by rw [hz, hwhole]
  have hstand : z.stand = y.stand := by rw [hz, hwhole]
  exact {
    timer := by rw [hz, htimer]
    override := ho
    allotment := by rw [hshare]
    claims := ⟨0, by rw [if_pos (by rw [hstand]), if_pos hp], fun _ => hshare, nofun⟩
    link := by rw [if_pos hp, List.append_nil, hz, hwhole]
    lost := fun h => absurd hp h
    malformed := hmal
    stored := hstored
    own := hown
    claim := fun _ h => absurd hp h
    whole := by rw [hz, hwhole]
    stand := hstand
    topped := fun h => absurd hp h }

theorem State.noticeTaken_own (f : NoticeFields) (y : State) : State.NoticeOwn f y (y.noticeTaken f) := by
  obtain ⟨u, hu, hwhole, htimer⟩ := y.dispatchClock_spec f.dispatch
  have hl : u.line = y.line := by rw [hwhole]
  have hn : u.notices = y.notices := by rw [hwhole]
  have hs : u.session = y.session := by rw [hwhole]
  obtain ⟨hbad, hstored, hown⟩ := State.noticeTaken_cases f y u hu.symm
  by_cases hmal : f.van = 0 ∨ 86400 ≤ f.departure
  · rw [hbad hmal]
    refine State.NoticeOwn.plain hu rfl (congrArg NoticeUnit.override hn) (State.phase_congr hs) (fun _ => ⟨?_, ?_, hs⟩)
      (fun h1 h2 => by omega) (fun h1 h2 => by omega)
    · rw [← hl]; rfl
    · rw [← hn]; rfl
  · have hok := hmal
    push Not at hok
    by_cases hx : ∀ x, y.session = some x → x.van ≠ f.van
    · rw [hstored hok.1 hok.2 hx]
      refine State.NoticeOwn.plain hu rfl (by rw [← hn]) (State.phase_congr hs) (fun h => absurd h hmal)
        (fun _ _ _ => ⟨by rw [← hl], hs, by rw [← hn]⟩) (fun _ _ x h1 h2 => absurd h2 (hx x h1))
    · push Not at hx
      obtain ⟨x, hx, hxv⟩ := hx
      obtain ⟨hstay, htop⟩ := hown hok.1 hok.2 x hx hxv _ rfl
      have notother : (∀ x, y.session = some x → x.van ≠ f.van) → False := fun h => h x hx hxv
      by_cases ht : x.phase.toppable = true ∧
          (x.noticed u.timer.clock f.departure (noticeTarget f.target)).target ≤ y.runningWh x
      · rw [htop ht]
        have hreached := ht
        rw [Phase.toppable_iff] at hreached
        obtain ⟨v, hv, hlost, hvw, hlink, hclaim, hsame⟩ := State.changeSession_topped
          (w := { u with session := some (x.noticed u.timer.clock f.departure (noticeTarget f.target)) }) rfl
          (by exact ht.1)
        rw [hv]
        have hstage : v.stage = y.stage := by rw [hvw, hwhole]
        have hvl : v.out.stage = y.out.stage := by rw [hvw, hwhole]
        have hst : v.stand = y.stand := by rw [hvw, hwhole]
        have hushare : u.share = y.share := by rw [hwhole]
        have hsess : v.session =
            some { x.noticed u.timer.clock f.departure (noticeTarget f.target) with phase := .topped } := by rw [hvw]
        have hphase : v.evalPermission.phase = .topped := by
          rw [State.phase_congr (State.evalPermission_session v), State.phase_of hsess]
        have hne : v.evalPermission.phase ≠ y.phase := by
          rw [hphase, State.phase_of hx]
          intro h
          rw [← h] at ht
          cases ht.1
        have hvn : v.evalPermission.notices = y.notices := by rw [State.evalPermission_notices, hvw, hwhole]
        have hvt : v.evalPermission.timer = u.timer := by rw [State.evalPermission_timer, hvw]
        have herr : v.line.counters.lineErrors = y.line.counters.lineErrors := by
          cases ho : u.onLine
          · rw [(hsame ho).2]; exact congrArg (fun l => l.counters.lineErrors) hl
          · obtain ⟨c, -, -, hplaces⟩ := hclaim ho
            rw [hplaces.others]; exact congrArg (fun l => l.counters.lineErrors) hl
        have hon : y.onLine = true → u.onLine = true := fun h => (State.onLine_congr (by rw [hwhole])).trans h
        refine {
          timer := ?_
          override := ?_
          allotment := ?_
          claims := ?_
          link := ?_
          lost := fun _ => ?_
          malformed := fun h => absurd h hmal
          stored := fun _ _ h => (notother h).elim
          own := fun _ _ x0 hx0 _ => ?_
          claim := fun ho _ => ?_
          whole := ?_
          stand := ?_
          topped := fun _ => ⟨v, rfl, hlost, hstage, hvl⟩ }
        · rw [hvt, htimer]
        · rw [hvn]
        · rw [State.evalPermission_share]
          cases ho : u.onLine
          · rw [(hsame ho).1]; exact congrArg ShareUnit.allotment hushare
          · obtain ⟨c, -, hsh, -⟩ := hclaim ho
            rw [hsh, ← hushare]
        · refine ⟨1, by rw [if_neg hne, State.evalPermission_stand, if_pos (by rw [hst])], nofun, fun _ ho => ?_⟩
          obtain ⟨c, hc, hsh, -⟩ := hclaim (hon ho)
          rw [State.evalPermission_share, hsh, hc, ← hushare]; rfl
        · rw [if_neg hne, State.evalPermission_link, hlink, hwhole, State.holds_of hx]; rfl
        · obtain ⟨he, ha, hi, -⟩ := v.evalPermission_lost hlost
          exact ⟨ha, hi, he, fun _ => v.evalPermission_sendsDue.of_same hstage hvl⟩
        · obtain rfl : x = x0 := Option.some.inj (hx.symm.trans hx0)
          refine ⟨by rw [State.evalPermission_line]; exact herr, by rw [hvn], _,
            (State.evalPermission_session v).trans hsess, ?_⟩
          rw [hvt]
          exact Session.noticed_noticedAs _ _ _ _ _ rfl (by rw [if_pos hreached])
        · obtain ⟨c, hc, hsh, hplaces⟩ := hclaim (hon ho)
          have hc' : c = ({ u with session := v.session } : State).claimNow := by rw [hsess]; exact hc
          refine ⟨{ u with session := v.session }, ?_, ?_, ?_, (State.evalPermission_session v).symm, ?_, ?_, ?_, ?_,
            .inl ?_⟩
          · rw [State.evalPermission_share, hsh]; exact congrArg some hc'
          · rw [State.evalPermission_share, hsh]; exact congrArg Claim.sequence hc'
          · rw [State.evalPermission_line, hplaces.inSlot, ← hc']; rfl
          all_goals rw [hwhole]
        · obtain ⟨g, o, e⟩ := v.evalPermission_frame
          rw [e, hvw, hwhole]
        · rw [State.evalPermission_stand]; exact hst
      · rw [hstay ht]
        refine State.NoticeOwn.plain hu rfl (congrArg NoticeUnit.override hn) ?_ (fun h => absurd h hmal)
          (fun _ _ h => (notother h).elim) (fun _ _ x0 hx0 _ => ?_)
        · rw [State.phase_of hx]; rfl
        · obtain rfl : x = x0 := Option.some.inj (hx.symm.trans hx0)
          rw [Phase.toppable_iff] at ht
          exact ⟨by rw [← hl], by rw [← hn], _, rfl, Session.noticed_noticedAs _ _ _ _ _ rfl (by rw [if_neg ht]; rfl)⟩

end Sys2Proof.Machine
end

section
/-! A NOTICE taken and the standing unit's part of the frame, in either order (R34, R88, R94, R99 to R101). -/

namespace Sys2Proof.Machine

/-! ### The parts of stage control -/

/-- The permission evaluated twice, lost at the second time, sends what is due once. -/
theorem State.evalPermission_sendsDue_twice {u v : State} (hw : u.stage.wordSent = if u.stage.cap then 0 else u.stage.applied)
    (hv : v.permission = false) (hg : v.stage = u.evalPermission.stage) (ho : v.out.stage = u.evalPermission.out.stage) :
    u.SendsDue v.evalPermission := by
  have h1 := u.evalPermission_sendsDue
  have h2 := v.evalPermission_sendsDue.of_same hg ho
  cases hp : u.permission
  · obtain ⟨he, ha, hi, -, -⟩ := u.evalPermission_lost hp
    have hstill : v.evalPermission = v := by
      refine State.evalPermission_still (by rw [hg, he, hv]) (fun _ => by rw [hg]; exact ⟨ha, hi⟩) ?_ fun hd => ?_
      · rw [hg, h1.word, StageControl.word, h1.cap]
      · rw [hg] at hd ⊢; exact (h1.driven.1 hd).2.1
    rw [hstill] at h2 ⊢
    exact {
      cap := by rw [hg]; exact h1.cap
      lagSlice := by rw [hg]; exact h1.lagSlice
      owed := by rw [hg]; exact h1.owed
      word := by rw [hg]; exact h1.word
      sent := by rw [hg, ho]; exact h1.sent
      driven := by rw [hg]; exact h1.driven }
  · obtain ⟨he, ha, hi⟩ := u.evalPermission_on hp
    have hword : u.evalPermission.stage.wordSent = u.stage.wordSent := by rw [h1.word, ha, hw]
    have hout : u.evalPermission.out.stage = u.out.stage := by rw [h1.sent, if_pos hword, List.append_nil]
    have hdriven : u.evalPermission.stage.sliceDriven = true ↔ u.stage.sliceDriven = true := by
      rw [h1.driven]; exact ⟨fun h => h.1, fun h => ⟨h, he, .inl hword⟩⟩
    exact {
      cap := h2.cap.trans h1.cap
      lagSlice := h2.lagSlice.trans h1.lagSlice
      owed := h2.owed.trans h1.owed
      word := by rw [h2.word, h1.cap]
      sent := by rw [h2.sent, hout, hword]
      driven := by rw [h2.driven, hdriven, hword] }

/-! ### The standing unit's part after it, and before it -/

theorem State.standingTakes_link (b : Nat) (s : State) : (s.standingTakes b).out.link = s.out.link := by
  rcases s.standingTakes_cases b with ⟨-, e⟩ | ⟨u, hu, e⟩
  · rw [e]
  · rw [e, State.evalPermission_link, State.formClaim_out, hu.whole]

/-- A part of a frame's delivery that moves the standing or not: one claim or none. -/
theorem State.standingTakes_claims (s : State) (b : Nat) : ∃ n,
    n = (if (s.standingTakes b).stand.standing = s.stand.standing then 0 else 1) ∧ s.Hears (s.standingTakes b) n false := by
  rcases s.standingTakes_hears b with ⟨hs, -, h⟩ | ⟨u, hu, e, h⟩
  · exact ⟨0, by rw [if_pos hs], h⟩
  · exact ⟨1, by rw [if_neg (by rw [e]; exact hu.ne_after)], h⟩

/-- After a passage to TOPPED nothing is left for the standing unit's part to do on stage control. -/
theorem State.NoticeOwn.stage_thenStanding {f : NoticeFields} {y z : State} (h : State.NoticeOwn f y z) (hne : z.phase ≠ y.phase)
    (b : Nat) : (z.standingTakes b).stage = z.stage ∧ (z.standingTakes b).out = z.out := by
  rcases z.standingTakes_cases b with ⟨-, e⟩ | ⟨u, hu, e⟩
  · rw [e]; exact ⟨rfl, rfl⟩
  · obtain ⟨v, hv, hlost, -, -⟩ := h.topped hne
    have hperm : u.formClaim.permission = v.evalPermission.permission := by
      rw [← hv]
      exact (State.permission_congr (by simp) (by simp) (by simp)).trans hu.permission
    have := State.evalPermission_congr (s := v.evalPermission) (t := u.formClaim) hperm
      (by rw [State.formClaim_stage, hu.whole, ← hv]) (by rw [State.formClaim_out, hu.whole, ← hv])
    rw [v.evalPermission_idem, ← hv] at this
    rw [e]
    exact this

theorem State.NoticeOwn.thenStanding {f : NoticeFields} {y z : State} (h : State.NoticeOwn f y z) (b : Nat) :
    State.NoticeDone f y (z.standingTakes b) := by
  have hphase : (z.standingTakes b).phase = z.phase := State.phase_congr (State.standingTakes_session b z)
  obtain ⟨al, htimer⟩ := State.standingTakes_timer z b
  have hclock : (z.standingTakes b).timer.clock = z.timer.clock := by rw [htimer]
  obtain ⟨k, hk, hh⟩ := z.standingTakes_claims b
  refine {
    timer := ?_
    override := by rw [State.standingTakes_notices]; exact h.override
    allotment := by rw [State.standingTakes_allotment]; exact h.allotment
    claims := ?_
    link := by rw [State.standingTakes_link, hphase]; exact h.link
    lost := fun hne => ?_
    malformed := by rw [State.standingTakes_counters, State.standingTakes_notices, State.standingTakes_session]; exact h.malformed
    stored := by rw [State.standingTakes_counters, State.standingTakes_notices, State.standingTakes_session]; exact h.stored
    own := by
      rw [State.standingTakes_counters, State.standingTakes_notices, State.standingTakes_session, hclock]; exact h.own
    claim := fun ho hne => ?_
    whole := ?_ }
  · rw [htimer, h.timer]
  · obtain ⟨n, hn, hshare, hseq⟩ := h.claims
    rw [if_pos (by rw [h.stand])] at hn
    refine ⟨k + n, by rw [hk, hn, hphase, h.stand]; omega, fun hz => ?_, fun _ ho => ?_⟩
    · rw [hh.unclaimed (by omega), hshare (by omega)]
    · have hq : z.share.sequence = (y.share.sequence + n) % 256 ∨ (n = 0 ∧ z.share = y.share) := by
        rcases Nat.eq_zero_or_pos n with h0 | h0
        · exact .inr ⟨h0, hshare h0⟩
        · exact .inl (hseq h0 ho)
      rcases Nat.eq_zero_or_pos k with hk0 | hk0
      · rw [hh.unclaimed hk0, hk0, Nat.zero_add]
        rcases hq with hq | ⟨h0, -⟩
        · exact hq
        · omega
      · rw [hh.claimed hk0]
        rcases hq with hq | ⟨h0, hq⟩
        · rw [hq]; omega
        · rw [hq, h0, Nat.add_zero]
  · rw [hphase] at hne
    obtain ⟨hg, ho⟩ := h.stage_thenStanding hne b
    obtain ⟨ha, hi, he, hdue⟩ := h.lost hne
    rw [hg]
    refine ⟨ha, hi, he, fun hw => ?_⟩
    obtain ⟨d1, d2, d3, d4, d5, d6⟩ := hdue hw
    exact ⟨by rw [hg]; exact d1, by rw [hg]; exact d2, by rw [hg]; exact d3, by rw [hg]; exact d4,
      by rw [hg, ho]; exact d5, by rw [hg]; exact d6⟩
  · rw [hphase] at hne
    obtain ⟨v, hc, hq, hslot, hx, hth, hm, hset, hal, hst⟩ := h.claim ho hne
    rcases z.standingTakes_cases b with ⟨-, e⟩ | ⟨u, hu, e⟩
    · rw [e]
      refine ⟨v, hc, hq, hslot, hx, hth, hm, hset, hal, .inl (hst.elim id fun e => e.trans h.stand)⟩
    · obtain ⟨h1, h2⟩ := hu.claims
      obtain ⟨hsh, -, -, -⟩ := State.formEval_spec hu.hears
      have hz := h.whole
      rw [e]
      refine ⟨u, h1, by rw [hsh]; rfl, h2, ?_, ?_, ?_, ?_, ?_, .inr u.formEval_stand.symm⟩
      · rw [hu.session_after, hu.whole]
      · rw [hu.whole, hz]
      · rw [hu.whole, hz]
      · rw [hu.whole, hz]
      · rw [hu.whole]; exact h.allotment
  · obtain ⟨_, _, _, _, _, _, e⟩ := z.standingTakes_whole b
    rw [e, h.whole]

theorem State.NoticeOwn.afterStanding {f : NoticeFields} {s z : State} {b : Nat}
    (h : State.NoticeOwn f (s.standingTakes b) z) : State.NoticeDone f s z := by
  have hphase : (s.standingTakes b).phase = s.phase := State.phase_congr (State.standingTakes_session b s)
  have hholds : (s.standingTakes b).holds = s.holds := by unfold State.holds; rw [State.standingTakes_session]
  have hwh : ∀ x, (s.standingTakes b).runningWh x = s.runningWh x :=
    State.runningWh_congr (State.standingTakes_settings b s) (State.standingTakes_meter b s)
  obtain ⟨al, htimer⟩ := State.standingTakes_timer s b
  obtain ⟨k, hk, hh⟩ := s.standingTakes_claims b
  refine {
    timer := by rw [h.timer, htimer]
    override := by rw [h.override, State.standingTakes_notices]
    allotment := by rw [h.allotment, State.standingTakes_allotment]
    claims := ?_
    link := by rw [h.link, State.standingTakes_link, hphase, hholds]
    lost := fun hne => ?_
    malformed := ?_
    stored := ?_
    own := ?_
    claim := fun ho hne => ?_
    whole := ?_ }
  · obtain ⟨n, hn, hshare, hseq⟩ := h.claims
    rw [if_pos (by rw [h.stand])] at hn
    refine ⟨k + n, by rw [hk, hn, hphase, h.stand]; omega, fun hz => ?_, fun _ ho => ?_⟩
    · rw [hshare (by omega), hh.unclaimed (by omega)]
    · rcases Nat.eq_zero_or_pos n with h0 | h0
      · rw [hshare h0, h0, Nat.add_zero]
        exact hh.claimed (by omega)
      · rw [hseq h0 ((State.standingTakes_onLine s b).trans ho)]
        rcases Nat.eq_zero_or_pos k with hk0 | hk0
        · rw [hh.unclaimed hk0, hk0, Nat.zero_add]
        · rw [hh.claimed hk0]; omega
  · have hne' : z.phase ≠ (s.standingTakes b).phase := by rw [hphase]; exact hne
    obtain ⟨ha, hi, he, -⟩ := h.lost hne'
    refine ⟨ha, hi, he, fun hw => ?_⟩
    obtain ⟨v, hv, hlost, hg, ho⟩ := h.topped hne'
    rw [hv]
    rcases s.standingTakes_cases b with ⟨-, e⟩ | ⟨u, hu, e⟩
    · rw [e] at hg ho
      exact v.evalPermission_sendsDue.of_same hg ho
    · have hus : u.formClaim.stage = s.stage := by rw [State.formClaim_stage, hu.whole]
      have huo : u.formClaim.out = s.out := by rw [State.formClaim_out, hu.whole]
      rw [e] at hg ho
      exact (State.evalPermission_sendsDue_twice (by rw [hus]; exact hw) hlost hg ho).of_same hus (by rw [huo])
  · have := h.malformed
    rwa [State.standingTakes_counters, State.standingTakes_notices, State.standingTakes_session] at this
  · have := h.stored
    rwa [State.standingTakes_counters, State.standingTakes_notices, State.standingTakes_session] at this
  · have := h.own
    rw [State.standingTakes_counters, State.standingTakes_notices, State.standingTakes_session] at this
    exact fun h1 h2 x hx hv => by rw [← hwh x]; exact this h1 h2 x hx hv
  · have hne' : z.phase ≠ (s.standingTakes b).phase := by rw [hphase]; exact hne
    obtain ⟨v, hc, hq, hslot, hx, hth, hm, hset, hal, hst⟩ := h.claim ((State.standingTakes_onLine s b).trans ho) hne'
    exact ⟨v, hc, hq, hslot, hx, hth.trans (State.standingTakes_thermal b s), hm.trans (State.standingTakes_meter b s),
      hset.trans (State.standingTakes_settings b s), hal.trans (State.standingTakes_allotment b s),
      .inr (hst.elim (fun e => e.trans h.stand.symm) id)⟩
  · obtain ⟨_, _, _, _, _, _, e⟩ := s.standingTakes_whole b
    rw [h.whole, e]

/-! ### The frame -/

/-- The line engine before it, but for its errors counted, and the free choices are not read. -/
theorem State.NoticeDone.of_frame {f : NoticeFields} {s x t : State} (h : State.NoticeDone f x t)
    (hx : x = { s with line := x.line, choices := x.choices, freeCount := x.freeCount })
    (he : x.line.counters.lineErrors = s.line.counters.lineErrors) : State.NoticeDone f s t := by
  have hmal := h.malformed
  have hst := h.stored
  have hown := h.own
  have hclaim := h.claim
  have hwhole := h.whole
  have hp : x.phase = s.phase := State.phase_congr (by rw [hx])
  have hon : x.onLine = s.onLine := State.onLine_congr (by rw [hx])
  have hwh : ∀ y, x.runningWh y = s.runningWh y := State.runningWh_congr (by rw [hx]) (by rw [hx])
  rw [he] at hmal hst hown
  rw [hp, hon] at hclaim
  have hlost := h.lost
  have hclaims := h.claims
  have hlink := h.link
  rw [hp] at hlost hclaims hlink
  rw [hon] at hclaims
  have hholds : x.holds = s.holds := by unfold State.holds; rw [hx]
  rw [hholds] at hlink
  refine {
    timer := h.timer.trans (by rw [hx])
    override := h.override.trans (by rw [hx])
    allotment := h.allotment.trans (by rw [hx])
    claims := by rw [hx] at hclaims; exact hclaims
    link := by rw [hx] at hlink; exact hlink
    lost := fun hne => ?_
    malformed := by rw [hx] at hmal; exact hmal
    stored := by rw [hx] at hst; exact hst
    own := fun h1 h2 y hy hv => ?_
    claim := by rw [hx] at hclaim; exact hclaim
    whole := by rw [hx] at hwhole; exact hwhole }
  · obtain ⟨h1, h2, h3, h4⟩ := hlost hne
    refine ⟨h1, h2, h3, fun hw => (h4 (by rw [hx]; exact hw)).of_same (by rw [hx]) (by rw [hx])⟩
  · have := hown h1 h2 y (by rw [hx]; exact hy) hv
    rw [hwh] at this
    rw [hx] at this
    exact this

theorem noticeFields_eleven (v1 v0 d2 d1 d0 t2 t1 t0 c2 c1 c0 : Byte) :
    noticeFields [v1, v0, d2, d1, d0, t2, t1, t0, c2, c1, c0] = some ⟨v1.toNat * 256 + v0.toNat,
      d2.toNat * 65536 + d1.toNat * 256 + d0.toNat, t2.toNat * 65536 + t1.toNat * 256 + t0.toNat,
      c2.toNat * 65536 + c1.toNat * 256 + c0.toNat⟩ := by
  simp only [noticeFields, numBE_two, numBE_three]

/-- A NOTICE of well-formed length, in either order of its two parts. -/
theorem State.deliverNotice_done {w : State} {p : List Byte} {f : NoticeFields} (hf : noticeFields p = some f) (b : Nat) :
    (w.deliverNotice b p).stand = (w.standingTakes b).stand ∧
      ∃ x : State, x = { w with choices := x.choices, freeCount := x.freeCount } ∧
        State.NoticeDone f x (w.deliverNotice b p) := by
  have hdeliver : w.deliverNotice b p = inAnyOrder [State.noticeTaken f, State.standingTakes b] w := by
    rw [State.deliverNotice, hf]
  obtain ⟨x, hx, h⟩ := State.Delivered.either w (State.noticeTaken f) b
  rw [← hdeliver] at h
  have hxs : (x.standingTakes b).stand = (w.standingTakes b).stand :=
    State.standingTakes_stand_congr (by rw [hx]) (by rw [hx]) b
  rcases h with h | h
  · have hown := State.noticeTaken_own f x
    refine ⟨?_, x, hx, by rw [h]; exact hown.thenStanding b⟩
    rw [h, ← hxs]
    exact State.standingTakes_stand_congr hown.stand (by rw [hown.whole]) b
  · have hown := State.noticeTaken_own f (x.standingTakes b)
    exact ⟨by rw [h, hown.stand, hxs], x, hx, by rw [h]; exact hown.afterStanding⟩

/-- Settles O27: the notice unit's part by its fields, and beside it the standing unit's in either order. -/
theorem noticeTaken : Obligations.NoticeTaken := by
  rintro s bay v1 v0 d2 d1 d0 t2 t1 t0 c2 c1 c0 van departure target dispatch hvan hdep htar hdis
  have hf := noticeFields_eleven v1 v0 d2 d1 d0 t2 t1 t0 c2 c1 c0
  rw [← hvan, ← hdep, ← htar, ← hdis] at hf
  have hexec : exec (.noticeFrame bay [v1, v0, d2, d1, d0, t2, t1, t0, c2, c1, c0]) s = .next
    ((s.takeFrame .notice bay.toNat).deliverNotice bay.toNat [v1, v0, d2, d1, d0, t2, t1, t0, c2, c1, c0]) := rfl
  obtain ⟨hstand, x, hx, hdone⟩ := State.deliverNotice_done (w := s.takeFrame .notice bay.toNat) hf bay.toNat
  generalize (s.takeFrame .notice bay.toNat).deliverNotice bay.toNat _ = t at hexec hstand hdone
  have hxs : x = { s with line := x.line, choices := x.choices, freeCount := x.freeCount } := by rw [hx]; rfl
  have herr : x.line.counters.lineErrors = s.line.counters.lineErrors := by
    rw [hx]
    show (s.takeFrame .notice bay.toNat).line.counters.lineErrors = _
    rw [State.takeFrame_counters]
  obtain ⟨h1, h2, h3, h4, h5, h6, h7, h8, h9, h10, h11⟩ := hdone.of_frame hxs herr
  have hsame := State.standingTakes_stand_congr (s := s) (t := s.takeFrame .notice bay.toNat) rfl rfl bay.toNat
  refine ⟨t, hexec, hstand.trans hsame, h1, h2, h3, h4, h5, h6, h7,
    fun hv hd hx => ?_, fun hv hd y hy hyv => ?_, h11⟩
  · obtain ⟨e1, e2, e3⟩ := h8 hv hd hx
    exact ⟨e1, e2, _, rfl, e3⟩
  · obtain ⟨e1, e2, y', hy', n1, n2, n3, n4, n5, n6⟩ := h9 hv hd y hy hyv
    refine ⟨e1, e2, y', hy', n1, n2, n3, n4, n5, fun ho hne => h10 ho ?_, n6⟩
    rw [State.phase_of hy, State.phase_of hy']
    exact hne

end Sys2Proof.Machine
end

section
/-! The line engine through an event that places, discards and takes out frames and draws the post slice: what each step
makes of the outbox, the sender, the generator and the counters (R8, R9, R57, R155, R156, R158, R159, R163, R164). -/

namespace Sys2Proof.Machine

/-- The frame in this slot is the one on the line. -/
def Sender.carries (slot : Slot) : Sender → Bool
  | .sending a => a.slot == slot && !a.replaced
  | _ => false

theorem State.underWay_eq (slot : Slot) (s : State) : s.underWay slot = s.line.sender.carries slot := by
  unfold State.underWay Sender.carries
  cases s.line.sender <;> rfl

/-- An own CLAIM waits in the outbox. -/
def LineEngine.claimWaits (l : LineEngine) : Bool := l.outbox.claim.isSome && !l.sender.carries .claim

theorem State.claimWaits_iff (s : State) : s.ClaimWaits ↔ s.line.claimWaits = true := by
  unfold State.ClaimWaits LineEngine.claimWaits Sender.carries
  cases h : s.line.sender with
  | idle => simp
  | waiting b w => simp
  | sending a =>
    have hb : (!(a.slot == .claim && !a.replaced)) = true ↔ (a.slot = .claim → a.replaced = true) := by
      cases a.replaced <;> simp
    simp only [Bool.and_eq_true, hb]
    exact and_congr_right fun _ => ⟨fun h => h a rfl, fun h b e => by cases e; exact h⟩

/-- How far an event has come in its work on the line engine. -/
structure SendProgress where
  /-- No frame but a MARK leaves the outbox otherwise than by the discard of the CLAIM. -/
  natural : Bool
  early : Nat := 0
  late : Nat := 0
  backoffs : Nat := 0
  marked : Bool := false
  removed : Bool := false
  discarded : Bool := false
  spared : Bool := false
  drawn : Option Nat := none

/-- CLAIMs placed so far. -/
def SendProgress.claims (g : SendProgress) : Nat := g.early + g.late

/-- Advances of the generator so far. -/
def SendProgress.advances (g : SendProgress) : Nat := g.backoffs + g.drawn.isSome.toNat

/-- The sender waits a backoff drawn in the event, at another advance than the post slice. -/
def LineEngine.Backoff (l m : LineEngine) (g : SendProgress) : Prop :=
  ∃ i, 1 ≤ i ∧ i ≤ g.advances ∧ g.drawn ≠ some i ∧ m.sender = .waiting (prngValue 16 (prngAfter i l.prng)) 0

/-- The attempt under way, as the event leaves it. -/
def SendProgress.attempt (g : SendProgress) (a : Attempt) : Attempt := { a with
  noRetry := a.noRetry || (decide (a.slot = .claim) && g.discarded) || (decide (a.slot = .mark) && g.spared)
  replaced := a.replaced || (decide (a.slot = .mark) && g.marked) || (decide (a.slot = .claim) && decide (0 < g.claims)) }

/-- The line engine `m` that an event begun with `l` has come to. -/
structure LineEngine.Tracks (l m : LineEngine) (g : SendProgress) : Prop where
  prng : m.prng = prngAfter g.advances l.prng
  drawn : ∀ j, g.drawn = some j → 1 ≤ j ∧ j ≤ g.advances
  sending : ∀ a, l.sender = .sending a → g.backoffs = 0 ∧ m.sender = .sending (g.attempt a)
  hearing : (∀ a, l.sender ≠ .sending a) → m.sender = .idle ∨ m.sender = l.sender ∨ l.Backoff m g
  quiet : g.claims = 0 → g.marked = false → g.backoffs = 0
  idle : l.sender = .idle → g.backoffs = 0 → m.sender = .idle ∧ g.claims = 0 ∧ g.marked = false
  held : ∀ b w, l.sender = .waiting b w → l.outbox.reply ≠ none ∨ (l.outbox.mark ≠ none ∧ g.removed = false) →
    g.backoffs = 0 ∧ m.sender = .waiting b w
  few : g.backoffs ≤ 1 + g.discarded.toNat
  busy : g.backoffs = 1 + g.discarded.toNat → l.Backoff m g ∧ (g.natural = false → m.outbox.claim ≠ none)
  reply : m.outbox.reply = l.outbox.reply
  mark : m.outbox.mark =
    if g.marked then some ⟨[], 0⟩ else if g.removed && !l.sender.carries .mark then none else l.outbox.mark
  claimKept : g.claims = 0 → g.discarded = false → m.outbox.claim = l.outbox.claim
  claimPlaced : 0 < g.late ∨ (0 < g.early ∧ g.discarded = false) → m.outbox.claim ≠ none
  claimLeft : g.discarded = true → g.late = 0 →
    m.outbox.claim = if l.claimWaits = true ∨ 0 < g.early then none else l.outbox.claim
  counters : m.counters = { l.counters with claimsUnposted :=
    if g.discarded = true ∧ (l.claimWaits = true ∨ 0 < g.early) then min 65535 (l.counters.claimsUnposted + 1)
    else l.counters.claimsUnposted }
  unmixed : g.marked = true → g.natural = true
  order : g.discarded = false → g.late = 0

theorem LineEngine.Tracks.refl (l : LineEngine) (natural : Bool) : l.Tracks l { natural := natural } where
  prng := rfl
  drawn := nofun
  sending a h := ⟨rfl, by simp [h, SendProgress.attempt, SendProgress.claims]⟩
  hearing _ := .inr (.inl rfl)
  quiet _ _ := rfl
  idle h _ := ⟨h, rfl, rfl⟩
  held b w h _ := ⟨rfl, h⟩
  few := Nat.zero_le _
  busy h := by simp at h
  reply := rfl
  mark := rfl
  claimKept _ _ := rfl
  claimPlaced h := by simp at h
  claimLeft h := by cases h
  counters := by simp
  unmixed := nofun
  order _ := rfl

/-- What is tracked reads outbox, sender, generator and counters alone. -/
theorem LineEngine.Tracks.of_same {l m k : LineEngine} {g : SendProgress} (h : l.Tracks m g) (hs : k.sender = m.sender)
    (hp : k.prng = m.prng) (ho : k.outbox = m.outbox) (hc : k.counters = m.counters) : l.Tracks k g := by
  obtain ⟨h1, h2, h3, h4, h5, h6, h7, h8, h9, h10, h11, h12, h13, h14, h15, h16, h17⟩ := h
  have hb : l.Backoff m g → l.Backoff k g := fun ⟨i, e1, e2, e3, e4⟩ => ⟨i, e1, e2, e3, hs.trans e4⟩
  rw [← hs] at h3 h4 h6 h7
  rw [← hp] at h1
  rw [← ho] at h9 h10 h11 h12 h13 h14
  rw [← hc] at h15
  exact ⟨h1, h2, h3, fun h => (h4 h).imp_right (Or.imp_right hb), h5, h6, h7, h8, fun h => ⟨hb (h9 h).1, (h9 h).2⟩, h10,
    h11, h12, h13, h14, h15, h16, h17⟩

/-- The sender is IDLE. -/
def Sender.isIdle : Sender → Bool
  | .idle => true
  | _ => false

theorem Sender.isIdle_iff {x : Sender} : x.isIdle = true ↔ x = .idle := by cases x <;> simp [Sender.isIdle]

/-! ### A frame placed -/

/-- A CLAIM placed. -/
def SendProgress.claim (idle : Bool) (g : SendProgress) : SendProgress := { g with
  early := if g.discarded then g.early else g.early + 1
  late := if g.discarded then g.late + 1 else g.late
  backoffs := g.backoffs + idle.toNat }

/-- The own MARK placed. -/
def SendProgress.mark (idle : Bool) (g : SendProgress) : SendProgress := { g with
  marked := true
  backoffs := g.backoffs + idle.toNat }

theorem SendProgress.claim_claims (idle : Bool) (g : SendProgress) : (g.claim idle).claims = g.claims + 1 := by
  unfold SendProgress.claims SendProgress.claim
  cases g.discarded <;> simp <;> omega

/-- The sender of an engine in which a frame is placed: an IDLE one waits, at the next advance. -/
theorem LineEngine.Places.sender {m k : LineEngine} {slot : Slot} {p : List Byte} (h : m.Places k slot p) :
    (m.sender.isIdle = true → k.prng = prngNext m.prng ∧ k.sender = .waiting (prngValue 16 (prngNext m.prng)) 0) ∧
      (m.sender.isIdle = false → k.prng = m.prng ∧ ((∀ a, m.sender ≠ .sending a) → k.sender = m.sender)) := by
  cases hm : m.sender with
  | idle => exact ⟨fun _ => h.idle hm, nofun⟩
  | waiting b w => exact ⟨nofun, fun _ => ⟨(h.waiting b w hm).1, fun _ => (h.waiting b w hm).2⟩⟩
  | sending a => exact ⟨nofun, fun _ => ⟨(h.sending a hm).1, fun hn => absurd rfl (hn a)⟩⟩

namespace LineEngine.Tracks
variable {l m k : LineEngine} {g : SendProgress} (h : l.Tracks m g)
include h

/-- Where the sender is IDLE, another backoff is within the bound. -/
theorem room (hi : m.sender.isIdle = true) : g.backoffs ≤ g.discarded.toNat := by
  have hf := h.few
  by_contra hc
  obtain ⟨⟨i, -, -, -, hs⟩, -⟩ := h.busy (by omega)
  rw [hs] at hi
  cases hi

theorem not_sending (hl : ∀ a, l.sender ≠ .sending a) : ∀ a, m.sender ≠ .sending a := by
  intro a ha
  rcases h.hearing hl with e | e | ⟨i, -, -, -, e⟩
  · rw [e] at ha; cases ha
  · exact hl a (e.symm.trans ha)
  · rw [e] at ha; cases ha

/-- What placing any frame does to sender and generator, `g'` being the progress after it. -/
theorem placedSender {slot : Slot} {p : List Byte} (hp : m.Places k slot p) {g' : SendProgress}
    (hb : g'.backoffs = g.backoffs + m.sender.isIdle.toNat) (hd : g'.drawn = g.drawn) :
    k.prng = prngAfter g'.advances l.prng ∧
      ((∀ a, l.sender ≠ .sending a) → k.sender = .idle ∨ k.sender = l.sender ∨ l.Backoff k g') ∧
      (m.sender.isIdle = true → l.Backoff k g') ∧ (l.Backoff m g → l.Backoff k g') := by
  obtain ⟨hidle, hbusy⟩ := hp.sender
  have hadv : g'.advances = g.advances + m.sender.isIdle.toNat := by
    unfold SendProgress.advances; rw [hb, hd]; omega
  have draws : m.sender.isIdle = true → l.Backoff k g' := fun hi => by
    obtain ⟨hpr, hse⟩ := hidle hi
    rw [hi] at hadv
    refine ⟨g'.advances, by rw [hadv]; exact Nat.succ_pos _, le_rfl, fun e => ?_, ?_⟩
    · have := (h.drawn _ (hd ▸ e)).2
      rw [hadv] at this
      exact absurd this (Nat.not_succ_le_self _)
    · rw [hse, hadv, h.prng]; rfl
  have keeps : l.Backoff m g → l.Backoff k g' := fun ⟨i, h1, h2, h3, h4⟩ => by
    have hn : m.sender.isIdle = false := by rw [h4]; rfl
    refine ⟨i, h1, by omega, hd ▸ h3, ?_⟩
    rw [(hbusy hn).2 (by rw [h4]; exact nofun), h4]
  refine ⟨?_, fun hl => ?_, draws, keeps⟩
  · rw [hadv]
    cases hi : m.sender.isIdle with
    | true => rw [(hidle hi).1, h.prng]; rfl
    | false => rw [(hbusy hi).1, h.prng]; rfl
  · cases hi : m.sender.isIdle with
    | true => exact .inr (.inr (draws hi))
    | false =>
      have hk := (hbusy hi).2 (h.not_sending hl)
      rcases h.hearing hl with e | e | e
      · exact .inl (hk.trans e)
      · exact .inr (.inl (hk.trans e))
      · exact .inr (.inr (keeps e))

theorem sending_not_idle {a : Attempt} (ha : l.sender = .sending a) : m.sender.isIdle = false := by
  rw [(h.sending a ha).2]; rfl

theorem held_not_idle {b w : Nat} (hs : l.sender = .waiting b w)
    (ho : l.outbox.reply ≠ none ∨ (l.outbox.mark ≠ none ∧ g.removed = false)) : m.sender.isIdle = false := by
  rw [(h.held b w hs ho).2]; rfl

/-- An IDLE sender that has drawn nothing is IDLE yet. -/
theorem idle_of_quiet (hl : l.sender = .idle) (hb : g.backoffs = 0) : m.sender.isIdle = true := by
  rw [(h.idle hl hb).1]; rfl

theorem claim {p : List Byte} (hp : m.Places k .claim p) : l.Tracks k (g.claim m.sender.isIdle) := by
  obtain ⟨hprng, hhear, hdraws, hkeeps⟩ := h.placedSender hp (g' := g.claim m.sender.isIdle) rfl rfl
  have hclaims := g.claim_claims m.sender.isIdle
  have hslot : k.outbox.claim ≠ none := by rw [hp.inSlot]; exact nofun
  have hcount : k.counters = m.counters := by rw [hp.others]
  refine {
    prng := hprng
    drawn := fun j hj => ?_
    sending := fun a ha => ?_
    hearing := hhear
    quiet := fun hc => by omega
    idle := fun hl hb => ?_
    held := fun b w hs ho => ?_
    few := ?_
    busy := fun hb => ⟨?_, fun _ => hslot⟩
    reply := by rw [hp.inSlot]; exact h.reply
    mark := by rw [hp.inSlot]; exact h.mark
    claimKept := fun hc => by omega
    claimPlaced := fun _ => hslot
    claimLeft := fun hd hl => ?_
    counters := ?_
    unmixed := h.unmixed
    order := fun hd => ?_ }
  · have := h.drawn j hj
    have hadv : (g.claim m.sender.isIdle).advances = g.advances + m.sender.isIdle.toNat := by
      unfold SendProgress.advances SendProgress.claim; simp only []; omega
    omega
  · obtain ⟨hb, hs⟩ := h.sending a ha
    refine ⟨?_, ?_⟩
    · show g.backoffs + m.sender.isIdle.toNat = 0
      rw [h.sending_not_idle ha, hb]; rfl
    · rw [(hp.sending _ hs).2]
      unfold SendProgress.attempt
      rw [hclaims]
      have hpos : decide (0 < g.claims + 1) = true := by simp
      rw [hpos, Bool.and_true]
      congr 1
      simp only [SendProgress.claim, Attempt.mk.injEq, and_true, true_and]
      cases a.replaced <;> cases decide (a.slot = .claim) <;> simp
  · have hb' : g.backoffs + m.sender.isIdle.toNat = 0 := hb
    have hi := h.idle_of_quiet hl (by omega)
    rw [hi] at hb'
    exact absurd hb' (Nat.succ_ne_zero _)
  · obtain ⟨hb, hm⟩ := h.held b w hs ho
    refine ⟨?_, (hp.waiting b w hm).2⟩
    show g.backoffs + m.sender.isIdle.toNat = 0
    rw [h.held_not_idle hs ho, hb]; rfl
  · have hf := h.few
    show g.backoffs + m.sender.isIdle.toNat ≤ 1 + g.discarded.toNat
    cases hi : m.sender.isIdle with
    | false => exact hf
    | true => have := h.room hi; show g.backoffs + 1 ≤ _; omega
  · have hb' : g.backoffs + m.sender.isIdle.toNat = 1 + g.discarded.toNat := hb
    cases hi : m.sender.isIdle with
    | true => rw [← hi]; exact hdraws hi
    | false => rw [hi] at hb'; rw [← hi]; exact hkeeps (h.busy hb').1
  · have hd : g.discarded = true := hd
    have hl : (g.claim m.sender.isIdle).late = 0 := hl
    simp [SendProgress.claim, hd] at hl
  · rw [hcount, h.counters]
    unfold SendProgress.claim
    cases hd : g.discarded with
    | true => simp
    | false => simp
  · have hd : g.discarded = false := hd
    show (if g.discarded then g.late + 1 else g.late) = 0
    rw [hd]
    exact h.order hd

theorem placeMark {p : List Byte} (hp : m.Places k .mark p) (hn : g.natural = true) (hnil : p = []) :
    l.Tracks k (g.mark m.sender.isIdle) := by
  obtain ⟨hprng, hhear, hdraws, hkeeps⟩ := h.placedSender hp (g' := g.mark m.sender.isIdle) rfl rfl
  have hcount : k.counters = m.counters := by rw [hp.others]
  have hslot : k.outbox.claim = m.outbox.claim := by rw [hp.inSlot]; rfl
  refine {
    prng := hprng
    drawn := fun j hj => ?_
    sending := fun a ha => ?_
    hearing := hhear
    quiet := nofun
    idle := fun hl hb => ?_
    held := fun b w hs ho => ?_
    few := ?_
    busy := fun hb => ⟨?_, fun hn' => by rw [show g.natural = false from hn'] at hn; cases hn⟩
    reply := by rw [hp.inSlot]; exact h.reply
    mark := by rw [hp.inSlot, hnil]; rfl
    claimKept := by rw [hslot]; exact h.claimKept
    claimPlaced := by rw [hslot]; exact h.claimPlaced
    claimLeft := by rw [hslot]; exact h.claimLeft
    counters := by rw [hcount]; exact h.counters
    unmixed := fun _ => hn
    order := h.order }
  · have := h.drawn j hj
    have hadv : (g.mark m.sender.isIdle).advances = g.advances + m.sender.isIdle.toNat := by
      unfold SendProgress.advances SendProgress.mark; simp only []; omega
    omega
  · obtain ⟨hb, hs⟩ := h.sending a ha
    refine ⟨?_, ?_⟩
    · show g.backoffs + m.sender.isIdle.toNat = 0
      rw [h.sending_not_idle ha, hb]; rfl
    · rw [(hp.sending _ hs).2]
      unfold SendProgress.attempt
      congr 1
      simp only [SendProgress.mark, SendProgress.claims, Attempt.mk.injEq, and_true, true_and, Bool.and_true]
      cases a.replaced <;> cases decide (a.slot = .mark) <;> cases g.marked <;> simp
  · have hb' : g.backoffs + m.sender.isIdle.toNat = 0 := hb
    have hi := h.idle_of_quiet hl (by omega)
    rw [hi] at hb'
    exact absurd hb' (Nat.succ_ne_zero _)
  · obtain ⟨hb, hm⟩ := h.held b w hs ho
    refine ⟨?_, (hp.waiting b w hm).2⟩
    show g.backoffs + m.sender.isIdle.toNat = 0
    rw [h.held_not_idle hs ho, hb]; rfl
  · have hf := h.few
    show g.backoffs + m.sender.isIdle.toNat ≤ 1 + g.discarded.toNat
    cases hi : m.sender.isIdle with
    | false => exact hf
    | true => have := h.room hi; show g.backoffs + 1 ≤ _; omega
  · have hb' : g.backoffs + m.sender.isIdle.toNat = 1 + g.discarded.toNat := hb
    cases hi : m.sender.isIdle with
    | true => rw [← hi]; exact hdraws hi
    | false => rw [hi] at hb'; rw [← hi]; exact hkeeps (h.busy hb').1

end LineEngine.Tracks

end Sys2Proof.Machine
end

section
/-! The line engine through an event: the post slice drawn, the CLAIM discarded, the MARK taken out or spared another
attempt (R8, R9, R57, R156, R158, R163). -/

namespace Sys2Proof.Machine

/-! ### What the operations do -/

/-- The CLAIM discarded at a round end. -/
structure LineEngine.Discards (l m : LineEngine) : Prop where
  prng : m.prng = l.prng
  outbox : m.outbox = { l.outbox with claim := if l.claimWaits then none else l.outbox.claim }
  counters : m.counters = { l.counters with
    claimsUnposted := if l.claimWaits then min 65535 (l.counters.claimsUnposted + 1) else l.counters.claimsUnposted }
  sending : ∀ a, l.sender = .sending a → m.sender = .sending { a with noRetry := a.noRetry || decide (a.slot = .claim) }
  idle : l.sender = .idle → m.sender = .idle
  waiting : ∀ b w, l.sender = .waiting b w →
    m.sender = .waiting b w ∨ (m.sender = .idle ∧ l.outbox.mark = none ∧ l.outbox.reply = none)

theorem State.forbidRetry_line (slot : Slot) (s : State) : (s.forbidRetry slot).line = { s.line with sender :=
    match s.line.sender with
    | .sending a => .sending { a with noRetry := a.noRetry || decide (a.slot = slot) }
    | x => x } := by
  have hsame : ∀ x, x = s.line.sender → s.line = { s.line with sender := x } := by rintro _ rfl; rfl
  unfold State.forbidRetry
  cases h : s.line.sender with
  | idle => exact hsame _ h.symm
  | waiting b w => exact hsame _ h.symm
  | sending a =>
    by_cases hs : a.slot = slot
    · simp [hs, State.setSender]
    · simp only [if_neg hs, decide_eq_false hs, Bool.or_false]
      exact hsame _ h.symm

/-- A frame that is not on the line, taken out. -/
theorem State.removeFrame_sender (slot : Slot) (s : State) : (s.removeFrame slot).line.sender = s.line.sender ∨
    ((∃ b w, s.line.sender = .waiting b w) ∧ (s.removeFrame slot).line.sender = .idle ∧
      (s.line.outbox.set slot none).isEmpty = true) := by
  simp only [State.removeFrame]
  split
  · next b w h =>
    split
    · next he => exact .inr ⟨⟨b, w, h⟩, rfl, he⟩
    · exact .inl rfl
  · exact .inl rfl
  · exact .inl rfl

theorem State.discardClaim_discards (s : State) : s.line.Discards s.discardClaim.line := by
  have hline := s.forbidRetry_line .claim
  have hcarries : (s.forbidRetry .claim).line.sender.carries .claim = s.line.sender.carries .claim := by
    rw [hline]; cases h : s.line.sender <;> simp [Sender.carries]
  have hwaits : ((s.forbidRetry .claim).line.outbox.claim.isSome && !(s.forbidRetry .claim).underWay .claim) =
      s.line.claimWaits := by
    rw [State.underWay_eq, hcarries, LineEngine.claimWaits, hline]
  have hsender : ∀ a, s.line.sender = .sending a → (s.forbidRetry .claim).line.sender =
      .sending { a with noRetry := a.noRetry || decide (a.slot = .claim) } := fun a h => by rw [hline, h]
  have hother : (∀ a, s.line.sender ≠ .sending a) → (s.forbidRetry .claim).line.sender = s.line.sender := fun h => by
    rw [hline]
    cases hs : s.line.sender with
    | idle => rfl
    | waiting b w => rfl
    | sending a => exact absurd hs (h a)
  have hsame : s.line.outbox = (s.forbidRetry .claim).line.outbox := by rw [hline]
  unfold State.discardClaim
  simp only [hwaits]
  cases hw : s.line.claimWaits with
  | false =>
    rw [if_neg Bool.false_ne_true]
    exact {
      prng := by rw [hline]
      outbox := by rw [hline]; simp [hw]
      counters := by rw [hline]; simp [hw]
      sending := hsender
      idle := fun h => (hother (by rw [h]; exact fun _ => nofun)).trans h
      waiting := fun b w h => .inl ((hother (by rw [h]; exact fun _ => nofun)).trans h) }
  | true =>
    rw [if_pos rfl]
    obtain ⟨x, hx⟩ := (s.forbidRetry .claim).removeFrame_line .claim
    have hl : (((s.forbidRetry .claim).removeFrame .claim).reportClaim false).countUnposted.line = { s.line with
        outbox := { s.line.outbox with claim := none }, sender := ((s.forbidRetry .claim).removeFrame .claim).line.sender
        counters := { s.line.counters with claimsUnposted := min 65535 (s.line.counters.claimsUnposted + 1) } } := by
      have hc : (s.forbidRetry .claim).line.counters = s.line.counters := by rw [hline]
      have hr : ((s.forbidRetry .claim).removeFrame .claim).line = { s.line with
          outbox := { s.line.outbox with claim := none }, sender := x } := by rw [hx, hline]; rfl
      rw [hr]
      show ({ ((s.forbidRetry .claim).removeFrame .claim).line with counters := { ((s.forbidRetry .claim).removeFrame .claim).line.counters with
        claimsUnposted := bump ((s.forbidRetry .claim).removeFrame .claim).line.counters.claimsUnposted } } : LineEngine) = _
      rw [hr]; rfl
    have hs := (s.forbidRetry .claim).removeFrame_sender .claim
    rw [hl]
    refine {
      prng := rfl
      outbox := by simp [hw]
      counters := by simp [hw]
      sending := fun a h => ?_
      idle := fun h => ?_
      waiting := fun b w h => ?_ }
    · rcases hs with e | ⟨⟨b, w, e⟩, -⟩
      · exact e.trans (hsender a h)
      · rw [hsender a h] at e; cases e
    · have h' := (hother (by rw [h]; exact fun _ => nofun)).trans h
      rcases hs with e | ⟨⟨b, w, e⟩, -⟩
      · exact e.trans h'
      · rw [h'] at e; cases e
    · have h' := (hother (by rw [h]; exact fun _ => nofun)).trans h
      rcases hs with e | ⟨-, e, hempty⟩
      · exact .inl (e.trans h')
      · rw [← hsame, Outbox.isEmpty_iff] at hempty
        exact .inr ⟨e, hempty.1, hempty.2.2⟩

/-- The own MARK taken out unless it is on the line. -/
structure LineEngine.Removes (l m : LineEngine) : Prop where
  prng : m.prng = l.prng
  outbox : m.outbox = { l.outbox with mark := if l.sender.carries .mark then l.outbox.mark else none }
  counters : m.counters = l.counters
  sender : m.sender = l.sender ∨ ((∃ b w, l.sender = .waiting b w) ∧ m.sender = .idle ∧ l.outbox.mark ≠ none ∧
    l.outbox.claim = none ∧ l.outbox.reply = none)
  empties : ∀ b w, l.sender = .waiting b w → l.outbox.mark ≠ none → l.outbox.claim = none → l.outbox.reply = none →
    m.sender = .idle

theorem State.removeWaitingMark_removes (s : State) : s.line.Removes s.removeWaitingMark.line := by
  have hkeep : ∀ o : Outbox, (if s.line.sender.carries .mark then o.mark else none) = o.mark →
      o = { o with mark := if s.line.sender.carries .mark then o.mark else none } := fun o h => by rw [h]
  unfold State.removeWaitingMark
  rw [State.underWay_eq]
  by_cases hc : (s.line.outbox.mark.isSome && !s.line.sender.carries .mark) = true
  · rw [if_pos hc]
    rw [Bool.and_eq_true, Bool.not_eq_true'] at hc
    obtain ⟨hm, hn⟩ := hc
    obtain ⟨x, hx⟩ := s.removeFrame_line .mark
    refine { prng := by rw [hx], outbox := by rw [hx, hn]; rfl, counters := by rw [hx], sender := ?_, empties := ?_ }
    · refine (s.removeFrame_sender .mark).imp_right fun ⟨hw, hi, he⟩ => ?_
      rw [Outbox.isEmpty_iff] at he
      exact ⟨hw, hi, by rw [← Option.isSome_iff_ne_none]; exact hm, he.2.1, he.2.2⟩
    · intro b w hs _ h2 h3
      have he : (s.line.outbox.set .mark none).isEmpty = true := by rw [Outbox.isEmpty_iff]; exact ⟨rfl, h2, h3⟩
      have hset : (s.setSlot .mark none).line.outbox.isEmpty = true := he
      simp only [State.removeFrame, hs, if_pos hset]; rfl
  · rw [if_neg hc]
    refine { prng := rfl, outbox := hkeep _ ?_, counters := rfl, sender := .inl rfl, empties := ?_ }
    · cases hn : s.line.sender.carries .mark with
      | true => rfl
      | false =>
        rw [hn, Bool.not_false, Bool.and_true, Bool.not_eq_true, Option.isSome_eq_false_iff, Option.isNone_iff_eq_none] at hc
        rw [hc]; rfl
    · intro b w hs h1 _ _
      have hn : s.line.sender.carries .mark = false := by rw [hs]; rfl
      rw [hn, Bool.not_false, Bool.and_true, Bool.not_eq_true, Option.isSome_eq_false_iff, Option.isNone_iff_eq_none] at hc
      exact absurd hc h1

/-! ### What is tracked of them -/

namespace LineEngine.Tracks
variable {l m k : LineEngine} {g : SendProgress} (h : l.Tracks m g)
include h

/-- The post slice drawn. -/
theorem draw (hn : g.drawn = none) (hk : k = { m with prng := prngNext m.prng }) :
    l.Tracks k { g with drawn := some (g.advances + 1) } := by
  have hadv : g.advances = g.backoffs := by unfold SendProgress.advances; rw [hn]; rfl
  have hnew : ({ g with drawn := some (g.advances + 1) } : SendProgress).advances = g.advances + 1 := by
    rw [hadv]; rfl
  have keeps : l.Backoff m g → l.Backoff k { g with drawn := some (g.advances + 1) } := fun ⟨i, h1, h2, h3, h4⟩ => by
    refine ⟨i, h1, by rw [hnew]; omega, fun e => ?_, by rw [hk]; exact h4⟩
    have := Option.some.inj e
    omega
  exact {
    prng := by rw [hnew, hk, h.prng]; rfl
    drawn := fun j hj => by
      have := Option.some.inj hj
      rw [hnew]; omega
    sending := fun a ha => by rw [hk]; exact h.sending a ha
    hearing := fun hl => by
      rcases h.hearing hl with e | e | e
      · exact .inl (by rw [hk]; exact e)
      · exact .inr (.inl (by rw [hk]; exact e))
      · exact .inr (.inr (keeps e))
    quiet := h.quiet
    idle := fun h1 h2 => by rw [hk]; exact h.idle h1 h2
    held := fun b w h1 h2 => by rw [hk]; exact h.held b w h1 h2
    few := h.few
    busy := fun hb => ⟨keeps (h.busy hb).1, by rw [hk]; exact (h.busy hb).2⟩
    reply := by rw [hk]; exact h.reply
    mark := by rw [hk]; exact h.mark
    claimKept := by rw [hk]; exact h.claimKept
    claimPlaced := by rw [hk]; exact h.claimPlaced
    claimLeft := by rw [hk]; exact h.claimLeft
    counters := by rw [hk]; exact h.counters
    unmixed := h.unmixed
    order := h.order }

/-- Before the discard a CLAIM waits that waited at first, or that the event has placed. -/
theorem claimWaits (hd : g.discarded = false) : m.claimWaits = true ↔ l.claimWaits = true ∨ 0 < g.early := by
  have hl := h.order hd
  unfold LineEngine.claimWaits
  by_cases he : 0 < g.early
  · have hsome : m.outbox.claim.isSome = true := Option.isSome_iff_ne_none.2 (h.claimPlaced (.inr ⟨he, hd⟩))
    have hcar : m.sender.carries .claim = false := by
      by_cases hs : ∃ a, l.sender = .sending a
      · obtain ⟨a, ha⟩ := hs
        rw [(h.sending a ha).2]
        have hpos : decide (0 < g.claims) = true := decide_eq_true (by unfold SendProgress.claims; omega)
        simp only [Sender.carries, SendProgress.attempt, hpos, Bool.and_true]
        cases hc : decide (a.slot = .claim) with
        | true => simp
        | false => rw [decide_eq_false_iff_not] at hc; simp [hc]
      · push Not at hs
        have := h.not_sending hs
        cases hm : m.sender with
        | idle => rfl
        | waiting b w => rfl
        | sending a => exact absurd hm (this a)
    simp [hsome, hcar, he]
  · have hz : g.claims = 0 := by unfold SendProgress.claims; omega
    have hcar : m.sender.carries .claim = l.sender.carries .claim := by
      by_cases hs : ∃ a, l.sender = .sending a
      · obtain ⟨a, ha⟩ := hs
        rw [(h.sending a ha).2, ha]
        simp only [Sender.carries, SendProgress.attempt, hz, Nat.lt_irrefl, decide_false, Bool.and_false, Bool.or_false]
        cases hsl : a.slot <;> first | rfl | simp
      · push Not at hs
        have := h.not_sending hs
        cases hm : m.sender with
        | idle => cases hls : l.sender with
          | sending a => exact absurd hls (hs a)
          | _ => rfl
        | waiting b w => cases hls : l.sender with
          | sending a => exact absurd hls (hs a)
          | _ => rfl
        | sending a => exact absurd hm (this a)
    rw [h.claimKept hz hd, hcar]
    simp [he]

/-- The MARK on the line at first is on the line yet. -/
theorem carriesMark (hm : g.marked = false) : m.sender.carries .mark = l.sender.carries .mark := by
  by_cases hs : ∃ a, l.sender = .sending a
  · obtain ⟨a, ha⟩ := hs
    rw [(h.sending a ha).2, ha]
    simp only [Sender.carries, SendProgress.attempt, hm, Bool.and_false, Bool.or_false]
    cases hsl : a.slot <;> first | rfl | simp
  · push Not at hs
    have := h.not_sending hs
    cases hm : m.sender with
    | idle => cases hls : l.sender with
      | sending a => exact absurd hls (hs a)
      | _ => rfl
    | waiting b w => cases hls : l.sender with
      | sending a => exact absurd hls (hs a)
      | _ => rfl
    | sending a => exact absurd hm (this a)

theorem discard (hk : m.Discards k) (hd : g.discarded = false) : l.Tracks k { g with discarded := true } := by
  have hwaits := h.claimWaits hd
  have hlate := h.order hd
  have hfew := h.few
  rw [hd] at hfew
  have hout := hk.outbox
  have hsender : (∀ a, l.sender ≠ .sending a) → k.sender = .idle ∨ k.sender = m.sender := fun hl => by
    cases hm : m.sender with
    | idle => exact .inl (hk.idle hm)
    | waiting b w => exact (hk.waiting b w hm).elim .inr fun e => .inl e.1
    | sending a => exact absurd hm (h.not_sending hl a)
  refine {
    prng := hk.prng.trans h.prng
    drawn := h.drawn
    sending := fun a ha => ⟨(h.sending a ha).1, ?_⟩
    hearing := fun hl => ?_
    quiet := h.quiet
    idle := fun h1 h2 => ⟨hk.idle (h.idle h1 h2).1, (h.idle h1 h2).2⟩
    held := fun b w h1 h2 => ⟨(h.held b w h1 h2).1, ?_⟩
    few := Nat.le_succ_of_le hfew
    busy := fun hb => ?_
    reply := by rw [hout]; exact h.reply
    mark := by rw [hout]; exact h.mark
    claimKept := nofun
    claimPlaced := fun hp => ?_
    claimLeft := fun _ _ => ?_
    counters := ?_
    unmixed := h.unmixed
    order := nofun }
  · rw [hk.sending _ (h.sending a ha).2]
    simp only [SendProgress.attempt, SendProgress.claims, hd, Bool.and_false, Bool.and_true, Bool.or_false, Sender.sending.injEq,
      Attempt.mk.injEq, and_true, true_and]
    cases a.noRetry <;> cases decide (a.slot = .claim) <;> simp
  · rcases hsender hl with e | e
    · exact .inl e
    · rw [e]
      rcases h.hearing hl with e' | e' | ⟨i, h1, h2, h3, h4⟩
      · exact .inl e'
      · exact .inr (.inl e')
      · exact .inr (.inr ⟨i, h1, h2, h3, e.trans h4⟩)
  · obtain ⟨-, hm⟩ := h.held b w h1 h2
    refine (hk.waiting b w hm).resolve_right fun ⟨_, e1, e2⟩ => ?_
    rw [h.reply] at e2
    rw [h.mark] at e1
    rcases h2 with h2 | ⟨h2, hr⟩
    · exact h2 e2
    · have hr : g.removed = false := hr
      rw [hr] at e1
      split at e1
      · cases e1
      · exact h2 e1
  · have hb : g.backoffs = 1 + 1 := hb
    simp at hfew
    omega
  · rcases hp with hp | ⟨-, hp⟩
    · have hp : 0 < g.late := hp
      omega
    · cases hp
  · rw [hout]
    show (if m.claimWaits = true then none else m.outbox.claim) = if l.claimWaits = true ∨ 0 < g.early then none else l.outbox.claim
    by_cases hc : l.claimWaits = true ∨ 0 < g.early
    · rw [if_pos hc, if_pos (hwaits.2 hc)]
    · rw [if_neg hc, if_neg (mt hwaits.1 hc)]
      exact h.claimKept (by unfold SendProgress.claims; omega) hd
  · have hm := h.counters
    rw [if_neg (by rw [hd]; exact fun e => Bool.false_ne_true e.1)] at hm
    rw [hk.counters, hm]
    by_cases hc : l.claimWaits = true ∨ 0 < g.early
    · rw [if_pos (hwaits.2 hc), if_pos ⟨rfl, hc⟩]
    · rw [if_neg (mt hwaits.1 hc), if_neg fun e => hc e.2]

theorem remove (hk : m.Removes k) (hn : g.natural = false) : l.Tracks k { g with removed := true } := by
  have hmarked : g.marked = false := by
    cases hm : g.marked with
    | false => rfl
    | true => rw [h.unmixed hm] at hn; cases hn
  have hout := hk.outbox
  have hclaim : k.outbox.claim = m.outbox.claim := by rw [hout]
  have hreply : k.outbox.reply = m.outbox.reply := by rw [hout]
  refine {
    prng := hk.prng.trans h.prng
    drawn := h.drawn
    sending := fun a ha => ⟨(h.sending a ha).1, ?_⟩
    hearing := fun hl => ?_
    quiet := h.quiet
    idle := fun h1 h2 => ⟨?_, (h.idle h1 h2).2⟩
    held := fun b w h1 h2 => ⟨?_, ?_⟩
    few := h.few
    busy := fun hb => ?_
    reply := hreply.trans h.reply
    mark := ?_
    claimKept := by rw [hclaim]; exact h.claimKept
    claimPlaced := by rw [hclaim]; exact h.claimPlaced
    claimLeft := by rw [hclaim]; exact h.claimLeft
    counters := hk.counters.trans h.counters
    unmixed := h.unmixed
    order := h.order }
  · obtain ⟨-, hm⟩ := h.sending a ha
    rcases hk.sender with e | ⟨⟨b, w, e⟩, -⟩
    · exact e.trans hm
    · rw [hm] at e; cases e
  · rcases hk.sender with e | ⟨-, e, -⟩
    · rw [e]
      rcases h.hearing hl with e' | e' | ⟨i, h1, h2, h3, h4⟩
      · exact .inl e'
      · exact .inr (.inl e')
      · exact .inr (.inr ⟨i, h1, h2, h3, e.trans h4⟩)
    · exact .inl e
  · have hi := (h.idle h1 h2).1
    rcases hk.sender with e | ⟨-, e, -⟩
    · exact e.trans hi
    · exact e
  · exact (h.held b w h1 (h2.imp_right fun e => by cases e.2)).1
  · have hr : l.outbox.reply ≠ none := h2.resolve_right fun e => by cases e.2
    have hm := (h.held b w h1 (.inl hr)).2
    rcases hk.sender with e | ⟨-, -, -, -, e⟩
    · exact e.trans hm
    · exact absurd (h.reply.symm.trans e) hr
  · obtain ⟨⟨i, h1, h2, h3, h4⟩, hne⟩ := h.busy hb
    refine ⟨⟨i, h1, h2, h3, ?_⟩, by rw [hclaim]; exact hne⟩
    rcases hk.sender with e | ⟨-, -, -, e, -⟩
    · exact e.trans h4
    · exact absurd e (hne hn)
  · rw [hout]
    show (if m.sender.carries .mark then m.outbox.mark else none) = _
    rw [h.carriesMark hmarked, h.mark, hmarked]
    cases l.sender.carries .mark <;> simp

/-- The attempt of the MARK under way is not to be retried. -/
theorem spare (hk : k = { m with sender := match m.sender with
    | .sending a => .sending { a with noRetry := a.noRetry || decide (a.slot = Slot.mark) }
    | x => x }) : l.Tracks k { g with spared := true } := by
  have hother : (∀ a, m.sender ≠ .sending a) → k.sender = m.sender := fun hn => by
    rw [hk]
    cases hm : m.sender with
    | idle => rfl
    | waiting b w => rfl
    | sending a => exact absurd hm (hn a)
  have keeps : l.Backoff m g → l.Backoff k { g with spared := true } := fun ⟨i, h1, h2, h3, h4⟩ =>
    ⟨i, h1, h2, h3, (hother (by rw [h4]; exact fun _ => nofun)).trans h4⟩
  refine {
    prng := by rw [hk]; exact h.prng
    drawn := h.drawn
    sending := fun a ha => ⟨(h.sending a ha).1, ?_⟩
    hearing := fun hl => ?_
    quiet := h.quiet
    idle := fun h1 h2 => ⟨?_, (h.idle h1 h2).2⟩
    held := fun b w h1 h2 => ⟨(h.held b w h1 h2).1, ?_⟩
    few := h.few
    busy := fun hb => ⟨keeps (h.busy hb).1, by rw [hk]; exact (h.busy hb).2⟩
    reply := by rw [hk]; exact h.reply
    mark := by rw [hk]; exact h.mark
    claimKept := by rw [hk]; exact h.claimKept
    claimPlaced := by rw [hk]; exact h.claimPlaced
    claimLeft := by rw [hk]; exact h.claimLeft
    counters := by rw [hk]; exact h.counters
    unmixed := h.unmixed
    order := h.order }
  · rw [hk]
    show (match m.sender with
      | .sending a => Sender.sending { a with noRetry := a.noRetry || decide (a.slot = Slot.mark) }
      | x => x) = _
    rw [(h.sending a ha).2]
    have hor : ∀ r x y z : Bool, (r || x || (y && z) || y) = (r || x || (y && true)) := by decide
    exact congrArg (fun r => Sender.sending { g.attempt a with noRetry := r }) (hor _ _ _ _)
  · have hm := h.not_sending hl
    rcases h.hearing hl with e | e | e
    · exact .inl ((hother hm).trans e)
    · exact .inr (.inl ((hother hm).trans e))
    · exact .inr (.inr (keeps e))
  · have hi := (h.idle h1 h2).1
    exact (hother (by rw [hi]; exact fun _ => nofun)).trans hi
  · have hm := (h.held b w h1 h2).2
    exact (hother (by rw [hm]; exact fun _ => nofun)).trans hm

end LineEngine.Tracks

end Sys2Proof.Machine
end

section
/-! The thermal scan and the level test of PERMIT: the hold reason each may set, the record and the claim of it (R59,
R74, R91, R92, R95, R123, R141 to R147). -/

namespace Sys2Proof.Machine

/-! ### Claims formed and changes reported -/

/-- From `u` to `t` no claim is formed, or one, of the state `v`. -/
inductive State.Forms (u t : State) : Option State → Prop where
  | still (hs : t.share = u.share) (hl : t.line = u.line) : State.Forms u t none
  | claim (v : State) (hq : v.claimNow.sequence = (u.share.sequence + 1) % 256)
      (hs : t.share = { u.share with ownClaim := some v.claimNow, sequence := v.claimNow.sequence })
      (hl : u.line.Places t.line .claim v.claimNow.payload) : State.Forms u t (some v)

/-- From `u` to `t` one PHASE record goes out where the phase or the hold reasons change, and none otherwise. -/
def State.Reports (u t : State) : Prop :=
  (t.phase = u.phase ∧ t.holds = u.holds ∧ t.out.link = u.out.link) ∨
    ((t.phase ≠ u.phase ∨ t.holds ≠ u.holds) ∧ t.out.link = u.out.link ++ [t.phaseRecord])

theorem State.holds_congr {s t : State} (h : t.session = s.session) : t.holds = s.holds := by
  unfold State.holds; rw [h]

theorem State.phaseRecord_congr {s t : State} (h : t.session = s.session) : t.phaseRecord = s.phaseRecord := by
  unfold State.phaseRecord; rw [h]

theorem State.Reports.of_still {u t : State} (hs : t.session = u.session) (hl : t.out.link = u.out.link) : u.Reports t :=
  .inl ⟨State.phase_congr hs, State.holds_congr hs, hl⟩

/-- What is reported reads session and post link alone. -/
theorem State.Reports.of_same {u w t : State} (h : w.Reports t) (hs : w.session = u.session)
    (hl : w.out.link = u.out.link) : u.Reports t := by
  unfold State.Reports at h ⊢
  rw [State.phase_congr hs, State.holds_congr hs, hl] at h
  exact h

/-- A session changed, stage control beside it: the records and the claim of it. -/
theorem State.changeSession_part (s : State) (y : Option Session) : ∃ o,
    s.Reports (s.changeSession y) ∧ s.Forms (s.changeSession y) o ∧
    (o ≠ none ↔ s.onLine = true ∧ (s.changeSession y).phase ≠ s.phase ∧ (s.changeSession y).phase.reforms = true) ∧
    ∀ v, o = some v → v = { s with session := y } := by
  obtain ⟨v, hv, hwhole, hlink, hclaim, hsame⟩ := s.changeSession_spec y
  have hsess : (s.changeSession y).session = ({ s with session := y } : State).session := State.changeSession_session s y
  have hphase := State.phase_congr hsess
  have hholds := State.holds_congr hsess
  have hshare : (s.changeSession y).share = v.share := by rw [hv, State.evalPermission_share]
  have hline : (s.changeSession y).line = v.line := by rw [hv, State.evalPermission_line]
  have hout : (s.changeSession y).out.link = v.out.link := by rw [hv, State.evalPermission_link]
  have hrep : s.Reports (s.changeSession y) := by
    unfold State.Reports
    rw [hphase, hholds, hout, hlink, State.phaseRecord_congr hsess]
    by_cases hc : ({ s with session := y } : State).phase = s.phase ∧ ({ s with session := y } : State).holds = s.holds
    · exact .inl ⟨hc.1, hc.2, if_pos hc⟩
    · exact .inr ⟨not_and_or.1 hc, if_neg hc⟩
  rw [hphase]
  by_cases hc : s.onLine = true ∧ ({ s with session := y } : State).phase ≠ s.phase ∧
      ({ s with session := y } : State).phase.reforms = true
  · obtain ⟨c, hceq, hsh, hpl⟩ := hclaim hc.1 hc.2.1 hc.2.2
    have hforms : s.Forms (s.changeSession y) (some { s with session := y }) := by
      refine .claim _ rfl ?_ ?_
      · rw [hshare, hsh, hceq]
      · rw [hline, ← hceq]; exact hpl
    refine ⟨_, hrep, hforms, ⟨fun _ => hc, fun _ h => ?_⟩, fun w hw => ?_⟩
    · cases h
    · exact (Option.some.inj hw).symm
  · have hstill : ({ s with session := y } : State).phase = s.phase ∨
        ({ s with session := y } : State).phase.reforms = false ∨ s.onLine = false := by
      by_contra hn
      push Not at hn
      exact hc ⟨by simpa using hn.2.2, hn.1, by simpa using hn.2.1⟩
    obtain ⟨h1, h2⟩ := hsame hstill
    exact ⟨none, hrep, .still (hshare.trans h1) (hline.trans h2), ⟨fun h => absurd rfl h, fun h => absurd h hc⟩,
      fun v h => (Option.some_ne_none v h.symm).elim⟩

/-! ### A hold reason set -/

/-- A part of an event that can set one hold reason, and with it the phase (R91, R92). -/
structure State.SetsHold (r : HoldReason) (u t : State) (o : Option State) : Prop where
  gone : u.session = none → t.session = none ∧ o = none
  session : ∀ x, u.session = some x → ∃ y, t.session = some y ∧
    y = { x with phase := y.phase, holds := x.holds.put (y.holds.has r) r } ∧
    y.phase = if x.holds.has r = false ∧ y.holds.has r = true then x.phase.afterHold else x.phase
  reports : u.Reports t
  forms : u.Forms t o
  formed : o ≠ none ↔ u.onLine = true ∧ t.phase ≠ u.phase
  claim : ∀ v, o = some v → v.stand = u.stand ∧ v.settings = u.settings ∧ v.meter = u.meter ∧ v.share = u.share ∧
    v.thermal = t.thermal ∧ v.session = t.session
  whole : t = { u with
    session := t.session, thermal := t.thermal, stage := t.stage, share := t.share, line := t.line, out := t.out }
  outLine : t.out.line = u.out.line

theorem HoldSet.put_has (h : HoldSet) (b : Bool) (r : HoldReason) : (h.put b r).has r = b := by cases r <;> rfl

theorem HoldSet.put_same (h : HoldSet) (r : HoldReason) : h.put (h.has r) r = h := by cases r <;> rfl

theorem HoldSet.put_other (h : HoldSet) (b : Bool) {r q : HoldReason} (hne : q ≠ r) : (h.put b r).has q = h.has q := by
  cases r <;> cases q <;> first | rfl | exact absurd rfl hne

theorem Phase.afterHold_reforms {p : Phase} (h : p.afterHold ≠ p) : p.afterHold = .held := by
  cases p <;> first | rfl | exact absurd rfl h

/-- A part that leaves session, share, line and post link sets nothing. -/
theorem State.SetsHold.of_still {r : HoldReason} {u t : State} (hs : t.session = u.session) (hsh : t.share = u.share)
    (hl : t.line = u.line) (ho : t.out.link = u.out.link) (hol : t.out.line = u.out.line)
    (hw : t = { u with
      session := t.session, thermal := t.thermal, stage := t.stage, share := t.share, line := t.line, out := t.out }) :
    State.SetsHold r u t none where
  gone h := ⟨hs.trans h, rfl⟩
  session x h := by
    refine ⟨x, hs.trans h, by rw [HoldSet.put_same], Eq.symm (if_neg ?_)⟩
    rintro ⟨h1, h2⟩
    rw [h1] at h2
    cases h2
  reports := State.Reports.of_still hs ho
  forms := .still hsh hl
  formed := ⟨fun h => absurd rfl h, fun h => absurd (State.phase_congr hs) h.2⟩
  claim v h := (Option.some_ne_none v h.symm).elim
  whole := hw
  outLine := hol

/-- The session changed in one reason: put in, or taken out. -/
theorem State.changeSession_setsHold {s : State} {x : Session} {r : HoldReason} {b : Bool} (hx : s.session = some x)
    (hr : x.holds.has r = !b) {y : Session}
    (hy : y = { x with holds := x.holds.put b r, phase := if b then x.phase.afterHold else x.phase }) :
    ∃ o, State.SetsHold r s (s.changeSession (some y)) o := by
  obtain ⟨o, hrep, hforms, hformed, hclaim⟩ := s.changeSession_part (some y)
  obtain ⟨v, hv, hwhole, -⟩ := s.changeSession_spec (some y)
  obtain ⟨g, out, e⟩ := v.evalPermission_frame
  have hsess : (s.changeSession (some y)).session = some y := State.changeSession_session s (some y)
  have hyp : y.phase = if b then x.phase.afterHold else x.phase := by rw [hy]
  have hyh : y.holds.has r = b := by rw [hy]; exact HoldSet.put_has _ _ _
  have hwhole' : s.changeSession (some y) = { s with
      session := some y, stage := g, share := v.share, line := v.line, out := out } := by rw [hv, e, hwhole]
  refine ⟨o, {
    gone := fun h => by rw [hx] at h; cases h
    session := fun x' hx' => ⟨y, hsess, ?_, ?_⟩
    reports := hrep
    forms := hforms
    formed := hformed.trans (and_congr_right fun _ => ⟨fun h => h.1, fun h => ⟨h, ?_⟩⟩)
    claim := fun w hw => ?_
    whole := by rw [hwhole']
    outLine := ?_ }⟩
  · obtain rfl : x = x' := Option.some.inj (hx.symm.trans hx')
    rw [hyh, hy]
  · obtain rfl : x = x' := Option.some.inj (hx.symm.trans hx')
    rw [hyp, hyh, hr]
    cases b <;> rfl
  · rw [State.phase_of hsess, State.phase_of hx, hyp] at h
    rw [State.phase_of hsess, hyp]
    cases b with
    | false => exact absurd rfl h
    | true =>
      simp only [if_true] at h ⊢
      rw [Phase.afterHold_reforms h]; rfl
  · rw [hclaim w hw, hwhole']
    exact ⟨rfl, rfl, rfl, rfl, rfl, rfl⟩
  · rw [hv, State.evalPermission_line_out, hwhole]

theorem State.addHold_sets (r : HoldReason) (s : State) : (∃ o, State.SetsHold r s (s.addHold r) o) ∧
    (s.addHold r).thermal = s.thermal ∧ ∀ y, (s.addHold r).session = some y → y.holds.has r = true := by
  have hth : (s.addHold r).thermal = s.thermal := State.addHold_thermal r s
  cases hx : s.session with
  | none =>
    rw [State.addHold_none r s hx]
    exact ⟨⟨none, State.SetsHold.of_still rfl rfl rfl rfl rfl rfl⟩, rfl, fun y hy => by rw [hx] at hy; cases hy⟩
  | some x =>
    cases hr : x.holds.has r with
    | true =>
      rw [State.addHold_present hx hr]
      refine ⟨⟨none, State.SetsHold.of_still rfl rfl rfl rfl rfl rfl⟩, rfl, fun y hy => ?_⟩
      rw [hx] at hy
      rw [← Option.some.inj hy, hr]
    | false =>
      refine ⟨?_, hth, fun y hy => ?_⟩
      · rw [State.addHold_absent hx hr]
        exact State.changeSession_setsHold (b := true) hx hr rfl
      · rw [State.addHold_absent hx hr, State.changeSession_session] at hy
        rw [← Option.some.inj hy]
        exact HoldSet.put_has _ _ _

theorem State.removeHold_sets (r : HoldReason) (s : State) : (∃ o, State.SetsHold r s (s.removeHold r) o) ∧
    (s.removeHold r).thermal = s.thermal ∧ ∀ y, (s.removeHold r).session = some y → y.holds.has r = false := by
  have hth : (s.removeHold r).thermal = s.thermal := State.removeHold_thermal r s
  cases hx : s.session with
  | none =>
    rw [State.removeHold_none r s hx]
    exact ⟨⟨none, State.SetsHold.of_still rfl rfl rfl rfl rfl rfl⟩, rfl, fun y hy => by rw [hx] at hy; cases hy⟩
  | some x =>
    cases hr : x.holds.has r with
    | false =>
      rw [State.removeHold_absent hx hr]
      refine ⟨⟨none, State.SetsHold.of_still rfl rfl rfl rfl rfl rfl⟩, rfl, fun y hy => ?_⟩
      rw [hx] at hy
      rw [← Option.some.inj hy, hr]
    | true =>
      refine ⟨?_, hth, fun y hy => ?_⟩
      · rw [State.removeHold_present hx hr]
        exact State.changeSession_setsHold (b := false) hx hr (by simp)
      · rw [State.removeHold_present hx hr, State.changeSession_session] at hy
        rw [← Option.some.inj hy]
        exact HoldSet.put_has _ _ _

/-! ### The level test of PERMIT -/

theorem State.permitTest_sets (s : State) : (∃ o, State.SetsHold .permit s s.permitTest o) ∧ s.permitTest.thermal = s.thermal ∧
    ∀ x y, s.session = some x → s.permitTest.session = some y → y.holds.permit = (x.holds.permit || !s.pins.permit) := by
  unfold State.permitTest
  split
  · next hp =>
    refine ⟨⟨none, State.SetsHold.of_still rfl rfl rfl rfl rfl rfl⟩, rfl, fun x y hx hy => ?_⟩
    rw [Option.some.inj (hx.symm.trans hy), hp]; simp
  · next hp =>
    obtain ⟨h1, h2, h3⟩ := State.addHold_sets .permit s
    refine ⟨h1, h2, fun x y _ hy => ?_⟩
    rw [Bool.not_eq_true] at hp
    rw [hp, Bool.not_false, Bool.or_true]
    exact h3 y hy

/-! ### The scan -/

/-- The THERMAL reason after a scan with the hot value `h`, from `b` before it (R147). -/
def thermalAfter (te : Int) (h : Int) (b : Bool) : Bool := if te ≤ h then true else if h ≤ te - 5 then false else b

/-- The hot value of a scan of the present inputs. -/
def State.hotNow (s : State) : Int := hotValue s.cfg.derateEnd s.pins.temps

/-- The parts of a scan but for the hold reason: readings, M_eff, the applied power clamped. -/
def State.scanReads (s : State) : State := ({ s with thermal := s.scanned } : State).refreshMEff

theorem State.scan_eq (s : State) : s.scan = s.scanReads.thermalHold := rfl

theorem State.scanReads_still (s : State) : s.scanReads.session = s.session ∧ s.scanReads.share = s.share ∧
    s.scanReads.line = s.line ∧ s.scanReads.out.link = s.out.link ∧ s.scanReads.out.line = s.out.line ∧
    s.scanReads.thermal = { s.scanned with mEff := s.scannedMEff } ∧
    s.scanReads = { s with thermal := s.scanReads.thermal, stage := s.scanReads.stage, out := s.scanReads.out } := by
  obtain ⟨b, w, h1, h2, h3, h4, ws, h5⟩ := State.refreshMEff_spec ({ s with thermal := s.scanned } : State)
  obtain ⟨th, g, o, e⟩ := ({ s with thermal := s.scanned } : State).refreshMEff_frame
  refine ⟨?_, ?_, ?_, h3, ?_, h1, ?_⟩
  · rw [State.scanReads, e]
  · rw [State.scanReads, e]
  · rw [State.scanReads, e]
  · simp only [State.scanReads, State.refreshMEff, State.clampApplied, State.sendIfChanged_line_out]
  · rw [State.scanReads, e]

theorem State.thermalHold_sets {s : State} {h : Int} (hh : s.thermal.hot = some h) :
    (∃ o, State.SetsHold .thermal s s.thermalHold o) ∧ s.thermalHold.thermal = s.thermal ∧
    ∀ x y, s.session = some x → s.thermalHold.session = some y →
      y.holds.thermal = thermalAfter s.cfg.derateEnd h x.holds.thermal := by
  unfold State.thermalHold thermalAfter
  simp only [hh]
  split
  · obtain ⟨h1, h2, h3⟩ := State.addHold_sets .thermal s
    exact ⟨h1, h2, fun x y _ hy => h3 y hy⟩
  · split
    · obtain ⟨h1, h2, h3⟩ := State.removeHold_sets .thermal s
      exact ⟨h1, h2, fun x y _ hy => h3 y hy⟩
    · exact ⟨⟨none, State.SetsHold.of_still rfl rfl rfl rfl rfl rfl⟩, rfl, fun x y hx hy => by
        rw [Option.some.inj (hx.symm.trans hy)]⟩

/-- The scan's readings before its hold rule do not touch what is set. -/
theorem State.SetsHold.of_scanReads {r : HoldReason} {s t : State} {o : Option State}
    (h : State.SetsHold r s.scanReads t o) : State.SetsHold r s t o := by
  obtain ⟨e1, e2, e3, e4, e5, e6, e7⟩ := s.scanReads_still
  have hon : s.scanReads.onLine = s.onLine := State.onLine_congr (by rw [e7])
  exact {
    gone := by rw [← e1]; exact h.gone
    session := by rw [← e1]; exact h.session
    reports := h.reports.of_same e1 e4
    forms := by
      cases h.forms with
      | still hs hl => exact .still (hs.trans e2) (hl.trans e3)
      | claim v hq hs hl => exact .claim v (by rw [← e2]; exact hq) (by rw [← e2]; exact hs) (by rw [← e3]; exact hl)
    formed := by rw [← hon, ← State.phase_congr e1]; exact h.formed
    claim := fun v hv => by
      obtain ⟨h1, h2, h3, h4, h5, h6⟩ := h.claim v hv
      exact ⟨by rw [h1, e7], by rw [h2, e7], by rw [h3, e7], by rw [h4, e2], h5, h6⟩
    whole := h.whole.trans (by rw [e7])
    outLine := h.outLine.trans e5 }

/-- A scan: the readings, M_eff and THERMAL (R141 to R147). -/
theorem State.scan_sets (s : State) : (∃ o, State.SetsHold .thermal s s.scan o) ∧
    s.scan.thermal = { s.scanned with mEff := s.scannedMEff } ∧
    ∀ x y, s.session = some x → s.scan.session = some y →
      y.holds.thermal = thermalAfter s.cfg.derateEnd s.hotNow x.holds.thermal := by
  obtain ⟨e1, e2, e3, e4, e5, e6, e7⟩ := s.scanReads_still
  obtain ⟨⟨o, h1⟩, h2, h3⟩ := State.thermalHold_sets (s := s.scanReads) (h := s.hotNow) (by rw [e6]; rfl)
  have hcfg : s.scanReads.cfg = s.cfg := by rw [e7]; rfl
  rw [e1, hcfg] at h3
  exact ⟨⟨o, h1.of_scanReads⟩, h2.trans e6, h3⟩

end Sys2Proof.Machine
end

section
/-! The parts of a slice end and of a round end in any order: what a predicate over the parts done so far says of all of
them. And the scan and the level test of PERMIT, which both kinds of slice end make (R91, R95, R119, R123, R141 to R149). -/

namespace Sys2Proof.Machine

/-! ### Parts done so far -/

theorem placeAfter_perm (a x : SlicePart) (n : Nat) : ∀ l, (placeAfter a x n l).Perm (x :: l)
  | [] => .refl _
  | y :: l => by
    unfold placeAfter
    split
    · exact ((insertAt_perm x _ l).cons y).trans (.swap x y l)
    · exact ((placeAfter_perm a x n l).cons y).trans (.swap x y l)

/-- The part put after another has it before it. -/
theorem placeAfter_after {a x : SlicePart} {n : Nat} : ∀ {l p q : List SlicePart}, x ∉ l → a ∈ l →
    placeAfter a x n l = p ++ x :: q → a ∈ p
  | [], _, _, _, ha, _ => absurd ha List.not_mem_nil
  | y :: l, p, q, hx, ha, h => by
    have hxy : y ≠ x := fun e => hx (e ▸ List.mem_cons_self)
    unfold placeAfter at h
    cases p with
    | nil =>
      exfalso
      split at h
      · exact hxy (List.cons.inj h).1
      · exact hxy (List.cons.inj h).1
    | cons z p =>
      split at h
      · next e => rw [← (List.cons.inj h).1, e]; exact List.mem_cons_self
      · next e =>
        obtain ⟨-, htail⟩ := List.cons.inj h
        refine List.mem_cons_of_mem _ (placeAfter_after (fun hm => hx (List.mem_cons_of_mem _ hm)) ?_ htail)
        exact (List.mem_cons.1 ha).resolve_left fun e' => e e'.symm

theorem sliceOrder_nodup (c : Nat) : (sliceOrder c).Nodup := by
  refine ((placeAfter_perm _ _ _ _).trans ((arrange_perm c _).cons _)).nodup_iff.2 (by decide)

theorem topped_after_meter {c : Nat} {p q : List SlicePart} (h : sliceOrder c = p ++ .topped :: q) : .meter ∈ p :=
  placeAfter_after (by rw [mem_arrange]; decide) (by rw [mem_arrange]; decide) h

/-- A predicate over the parts done, carried from one part to the next, holds with the parts of a list done. -/
theorem runParts {I : List SlicePart → State → Prop} {l : List SlicePart}
    (step : ∀ done p rest u, l = done.reverse ++ p :: rest → I done u → I (p :: done) (p.run u)) {s : State} (h : I [] s) :
    I l.reverse (runAll (l.map SlicePart.run) s) := by
  have go : ∀ rest done u, l = done.reverse ++ rest → I done u →
      I (rest.reverse ++ done) (runAll (rest.map SlicePart.run) u) := by
    intro rest
    induction rest with
    | nil => exact fun done u _ h => h
    | cons p rest ih =>
      intro done u e h
      have := ih (p :: done) (p.run u) (by rw [e]; simp) (step done p rest u e h)
      rw [List.reverse_cons, List.append_assoc]
      exact this
  simpa using go l [] s (by simp) h

/-- The same for a whole slice end: each part once, `topped` after `meter`. -/
theorem runSliceOrder {I : List SlicePart → State → Prop} (c : Nat)
    (step : ∀ done p u, p ∉ done → (p = .topped → .meter ∈ done) → I done u → I (p :: done) (p.run u)) {s : State}
    (h : I [] s) : ∃ done, (∀ p, p ∈ done) ∧ I done (runAll ((sliceOrder c).map SlicePart.run) s) := by
  refine ⟨_, fun p => List.mem_reverse.2 (mem_sliceOrder c p), runParts ?_ h⟩
  intro done p rest u e hI
  have hnd := sliceOrder_nodup c
  rw [e, List.nodup_append] at hnd
  refine step done p u (fun hm => hnd.2.2 p (List.mem_reverse.2 hm) p List.mem_cons_self rfl) (fun hp => ?_) hI
  rw [hp] at e
  exact List.mem_reverse.1 (topped_after_meter e)

/-- The scan and the level test that a round end makes on one side of its work: `a` and `b` say which. -/
inductive HoldParts : Bool → Bool → State → State → Prop where
  | none (s : State) : HoldParts false false s s
  | scan {b : Bool} {s t : State} : HoldParts false b s t → HoldParts true b s t.scan
  | permit {a : Bool} {s t : State} : HoldParts a false s t → HoldParts a true s t.permitTest

theorem slicePartsOn_holdParts (c : Nat) (a b : Bool) (s : State) : HoldParts a b s (slicePartsOn c a b s) := by
  have hnone := HoldParts.none s
  have one : ∀ f : State → State, arrange c [f] = [f] := fun f => by
    simp only [arrange, List.length_nil, Nat.zero_add, Nat.mod_one]; rfl
  have two : ∀ f g : State → State, arrange c [f, g] = [f, g] ∨ arrange c [f, g] = [g, f] := fun f g => by
    simp only [arrange, List.length_nil, List.length_cons, Nat.zero_add, Nat.mod_one]
    rcases Nat.mod_two_eq_zero_or_one c with h | h
    · left; rw [h]; rfl
    · right; rw [h]; rfl
  unfold slicePartsOn runIn
  cases a <;> cases b
  · exact hnone
  · show HoldParts _ _ s (runAll (arrange c [State.permitTest]) s)
    rw [one]
    exact hnone.permit
  · show HoldParts _ _ s (runAll (arrange c [State.scan]) s)
    rw [one]
    exact hnone.scan
  · show HoldParts _ _ s (runAll (arrange c [State.scan, State.permitTest]) s)
    rcases two State.scan State.permitTest with h | h
    · rw [h]; exact hnone.scan.permit
    · rw [h]; exact hnone.permit.scan

/-- A round end: scan and level test on either side of the work. -/
theorem State.roundEnd_parts (n : Bool) (s : State) : ∃ (w u v : State) (a b : Bool) (c : Nat),
    w = { s with choices := w.choices, freeCount := w.freeCount } ∧ c = s.choose.1 / 8 ∧ HoldParts a b w.handDriven u ∧
      v = u.roundEndWork n c ∧ HoldParts (!a) (!b) v (s.roundEnd n) :=
  ⟨_, _, _, _, _, _, choose_eq s, rfl, slicePartsOn_holdParts _ _ _ _, rfl, slicePartsOn_holdParts _ _ _ _⟩

/-! ### What no part but the scan and the level test touches -/

/-- Membership of a hold reason in the session's set. -/
def State.holdOf (r : HoldReason) (s : State) : Option Bool := s.session.map fun x => x.holds.has r

/-- The powers the session's van gave. -/
def State.vanPowers (s : State) : Option (Nat × Nat) := s.session.map Session.powers

theorem State.formedMEff_of_powers {s t : State} (hp : t.vanPowers = s.vanPowers) (hh : t.thermal.hot = s.thermal.hot)
    (hset : t.settings = s.settings) : t.formedMEff = s.formedMEff := by
  have hcfg : t.cfg = s.cfg := by simp only [State.cfg, hset]
  have key : ∀ u : State, u.formedMEff = match u.vanPowers, u.thermal.hot with
      | some p, some h => flooredMax p.2 (deratedMax h u.cfg.derateStart u.cfg.derateEnd (min p.1 u.cfg.stageRating))
      | some _, none => 0
      | none, _ => 0 := by
    intro u
    unfold State.formedMEff State.vanPowers
    cases u.session <;> cases u.thermal.hot <;> rfl
  rw [key, key, hp, hh, hcfg]

/-- The scan's view of a state, where neither scan nor level test is made. -/
structure State.ScanSame (u t : State) : Prop where
  pins : t.pins = u.pins
  settings : t.settings = u.settings
  thermal : t.thermal = u.thermal
  powers : t.vanPowers = u.vanPowers
  holds : ∀ r, r ≠ .meter → t.holdOf r = u.holdOf r

theorem State.ScanSame.of_session {u t : State} (hp : t.pins = u.pins) (hset : t.settings = u.settings)
    (hth : t.thermal = u.thermal) (hs : t.session = u.session) : u.ScanSame t where
  pins := hp
  settings := hset
  thermal := hth
  powers := by unfold State.vanPowers; rw [hs]
  holds _ _ := by unfold State.holdOf; rw [hs]

theorem State.ScanSame.trans {s t u : State} (h1 : s.ScanSame t) (h2 : t.ScanSame u) : s.ScanSame u where
  pins := h2.pins.trans h1.pins
  settings := h2.settings.trans h1.settings
  thermal := h2.thermal.trans h1.thermal
  powers := h2.powers.trans h1.powers
  holds r hr := (h2.holds r hr).trans (h1.holds r hr)

theorem SlicePart.scanSame {p : SlicePart} (hs : p ≠ .scan) (hp : p ≠ .permit) (u : State) : u.ScanSame (p.run u) := by
  have still : ∀ t : State, (∃ m g o l sh, t = { u with meter := m, stage := g, out := o, line := l, share := sh }) →
      u.ScanSame t := by
    rintro t ⟨_, _, _, _, _, rfl⟩; exact State.ScanSame.of_session rfl rfl rfl rfl
  cases p with
  | scan => exact absurd rfl hs
  | permit => exact absurd rfl hp
  | meter => obtain ⟨_, _, _, e⟩ := u.meterSliceEnd_frame; exact still _ ⟨_, _, _, _, _, e⟩
  | start => obtain ⟨_, _, e⟩ := u.startUnlessOwed_frame; exact still _ ⟨_, _, _, _, _, e⟩
  | post => obtain ⟨_, _, e⟩ := u.postUnlessOwed_frame; exact still _ ⟨_, _, _, _, _, e⟩
  | mark => obtain ⟨_, e⟩ := u.discardMark_frame; exact still _ ⟨_, _, _, _, _, e⟩
  | topped =>
    obtain ⟨_, _, _, _, _, e⟩ := u.topIfReached_frame
    refine ⟨?_, ?_, ?_, ?_, fun r _ => ?_⟩
    · show u.topIfReached.pins = _; rw [e]
    · show u.topIfReached.settings = _; rw [e]
    · show u.topIfReached.thermal = _; rw [e]
    all_goals
      cases hx : u.session with
      | none => rw [SlicePart.run, State.topIfReached_none u hx]
      | some x =>
        have h := u.topIfReached_session x hx
        simp only [SlicePart.run, State.vanPowers, State.holdOf, h, hx, Option.map_some]
        split <;> rfl

end Sys2Proof.Machine
end

section
/-! What the two kinds of slice end make of the readings and the hold reasons (R91, R95, R119, R123, R141 to R149). -/

namespace Sys2Proof.Machine

/-! ### A hold reason set, and the others -/

namespace State.SetsHold
variable {r : HoldReason} {u t : State} {o : Option State} (h : State.SetsHold r u t o)
include h

theorem holdOf_other {q : HoldReason} (hq : q ≠ r) : t.holdOf q = u.holdOf q := by
  unfold State.holdOf
  cases hx : u.session with
  | none => rw [(h.gone hx).1]
  | some x =>
    obtain ⟨y, hy, hyx, -⟩ := h.session x hx
    rw [hy, hyx]
    exact congrArg some (HoldSet.put_other _ _ hq)

theorem vanPowers : t.vanPowers = u.vanPowers := by
  unfold State.vanPowers
  cases hx : u.session with
  | none => rw [(h.gone hx).1]
  | some x =>
    obtain ⟨y, hy, hyx, -⟩ := h.session x hx
    rw [hy, hyx]; rfl

/-- The reason it may set, by what it makes of it. -/
theorem holdOf_set {f : Bool → Bool}
    (hf : ∀ x y, u.session = some x → t.session = some y → y.holds.has r = f (x.holds.has r)) :
    t.holdOf r = (u.holdOf r).map f := by
  unfold State.holdOf
  cases hx : u.session with
  | none => rw [(h.gone hx).1]; rfl
  | some x =>
    obtain ⟨y, hy, -⟩ := h.session x hx
    rw [hy]
    exact congrArg some (hf x y hx hy)

theorem pins : t.pins = u.pins := by rw [h.whole]
theorem settings : t.settings = u.settings := by rw [h.whole]
theorem stand : t.stand = u.stand := by rw [h.whole]
theorem timer : t.timer = u.timer := by rw [h.whole]
theorem meter : t.meter = u.meter := by rw [h.whole]

end State.SetsHold

/-! ### Scan and level test, each made or not yet -/

/-- From `s` to `t` the scan is made if `a`, the level test if `b`. -/
structure State.ScanRun (s : State) (a b : Bool) (t : State) : Prop where
  pins : t.pins = s.pins
  settings : t.settings = s.settings
  powers : t.vanPowers = s.vanPowers
  driver : t.holdOf .driver = s.holdOf .driver
  permit : t.holdOf .permit = (s.holdOf .permit).map fun h => h || (b && !s.pins.permit)
  unscanned : a = false → t.thermal = s.thermal ∧ t.holdOf .thermal = s.holdOf .thermal
  scanned : a = true → t.thermal = { s.scanned with mEff := t.formedMEff } ∧
    t.holdOf .thermal = (s.holdOf .thermal).map (thermalAfter s.cfg.derateEnd s.hotNow)

theorem State.ScanRun.refl (s : State) : s.ScanRun false false s where
  pins := rfl
  settings := rfl
  powers := rfl
  driver := rfl
  permit := by simp
  unscanned _ := ⟨rfl, rfl⟩
  scanned := nofun

namespace State.ScanRun
variable {s u t : State} {a b : Bool} (h : s.ScanRun a b u)
include h

theorem same (hs : u.ScanSame t) : s.ScanRun a b t := by
  have hm : t.formedMEff = u.formedMEff := State.formedMEff_of_powers hs.powers (by rw [hs.thermal]) hs.settings
  exact {
    pins := hs.pins.trans h.pins
    settings := hs.settings.trans h.settings
    powers := hs.powers.trans h.powers
    driver := (hs.holds _ (by decide)).trans h.driver
    permit := (hs.holds _ (by decide)).trans h.permit
    unscanned := fun ha => ⟨hs.thermal.trans (h.unscanned ha).1, (hs.holds _ (by decide)).trans (h.unscanned ha).2⟩
    scanned := fun ha => ⟨by rw [hs.thermal, hm]; exact (h.scanned ha).1, (hs.holds _ (by decide)).trans (h.scanned ha).2⟩ }

theorem cfg : u.cfg = s.cfg := by simp only [State.cfg, h.settings]

theorem scan (ha : a = false) : s.ScanRun true b u.scan := by
  obtain ⟨⟨o, hset⟩, hth, hhold⟩ := u.scan_sets
  obtain ⟨huth, huhold⟩ := h.unscanned ha
  have hhot : u.hotNow = s.hotNow := by simp only [State.hotNow, h.cfg, h.pins]
  have hscanned : u.scanned = s.scanned := by simp only [State.scanned, h.cfg, h.pins, huth]
  have hm : u.scan.formedMEff = u.scannedMEff :=
    State.formedMEff_of_powers (s := { u with thermal := u.scanned }) hset.vanPowers (by rw [hth]) hset.settings
  exact {
    pins := hset.pins.trans h.pins
    settings := hset.settings.trans h.settings
    powers := hset.vanPowers.trans h.powers
    driver := (hset.holdOf_other (by decide)).trans h.driver
    permit := (hset.holdOf_other (by decide)).trans h.permit
    unscanned := nofun
    scanned := fun _ => ⟨by rw [hth, hm, hscanned], by
      rw [hset.holdOf_set hhold, huhold, h.cfg, hhot]⟩ }

theorem permitTest (hb : b = false) : s.ScanRun a true u.permitTest := by
  obtain ⟨⟨o, hset⟩, hth, hhold⟩ := u.permitTest_sets
  have hm : u.permitTest.formedMEff = u.formedMEff :=
    State.formedMEff_of_powers hset.vanPowers (by rw [hth]) hset.settings
  have hpermit := h.permit
  rw [hb] at hpermit
  exact {
    pins := hset.pins.trans h.pins
    settings := hset.settings.trans h.settings
    powers := hset.vanPowers.trans h.powers
    driver := (hset.holdOf_other (by decide)).trans h.driver
    permit := by
      rw [hset.holdOf_set (f := fun c => c || !u.pins.permit) hhold, hpermit, h.pins]
      cases s.holdOf .permit <;> simp
    unscanned := fun ha => ⟨hth.trans (h.unscanned ha).1, (hset.holdOf_other (by decide)).trans (h.unscanned ha).2⟩
    scanned := fun ha => ⟨by rw [hth, hm]; exact (h.scanned ha).1,
      (hset.holdOf_other (by decide)).trans (h.scanned ha).2⟩ }

end State.ScanRun

/-! ### The two slice ends -/

theorem HoldParts.scanRun {a b : Bool} {u v : State} (h : HoldParts a b u v) : ∀ {s : State} {c d : Bool},
    s.ScanRun c d u → (a = true → c = false) → (b = true → d = false) → s.ScanRun (c || a) (d || b) v := by
  induction h with
  | none s =>
    intro s c d h _ _
    rw [Bool.or_false, Bool.or_false]; exact h
  | scan h ih =>
    intro s c d hr ha hb
    have := (ih hr nofun hb).scan (by rw [ha rfl]; rfl)
    rwa [Bool.or_true]
  | permit h ih =>
    intro s c d hr ha hb
    have := (ih hr ha nofun).permitTest (by rw [hb rfl]; rfl)
    rwa [Bool.or_true]

/-- The session's round-end work sets no hold reason but METER, and leaves the powers the van gave. -/
theorem State.sessionAfterRound_holds (s : State) (c : Nat) (p q : Bool) (x : Session) {r : HoldReason} (hr : r ≠ .meter) :
    (s.sessionAfterRound c p q x).holds.has r = x.holds.has r := by
  have fault : ∀ f (y : Session), (y.enterFault f).holds = y.holds := fun f y => by
    unfold Session.enterFault; split <;> rfl
  have silence : ∀ y : Session, (y.applySilence q).holds.has r = y.holds.has r := fun y => by
    unfold Session.applySilence
    split
    · split
      · exact HoldSet.put_other _ _ hr
      · split
        · rw [fault]
        · rfl
    · rfl
  have streak : ∀ y : Session, y.applyStreak.holds = y.holds := fun y => by
    unfold Session.applyStreak
    split
    · exact fault _ y
    · rfl
  have count : ∀ y : Session, y.countHold.holds.has r = y.holds.has r := fun y => by
    unfold Session.countHold
    split
    · rfl
    · split
      · exact HoldSet.put_other _ _ hr
      · rfl
  have all : ((((x.credit c).countHold).updateStreak p).applyStreak.applySilence q).holds.has r = x.holds.has r := by
    rw [silence, streak]
    exact count (x.credit c)
  unfold State.sessionAfterRound
  simp only []
  split
  · exact all
  · exact all

theorem State.roundEndWork_scanSame (s : State) (n : Bool) (c : Nat) : s.ScanSame (s.roundEndWork n c) := by
  have still : ∀ t u : State, s.ScanSame t → u.pins = t.pins → u.settings = t.settings → u.thermal = t.thermal →
      u.session = t.session → s.ScanSame u := fun t u h h1 h2 h3 h4 => h.trans (State.ScanSame.of_session h1 h2 h3 h4)
  refine roundEndWork_keeps (P := fun t => s.ScanSame t) ?_ ?_ ?_ ?_ ?_ ?_ ?_ ?_ ?_ ?_ ?_ ?_ ?_ ?_ n c s
    (State.ScanSame.of_session rfl rfl rfl rfl)
  case refine_13 =>
    intro t a p q h
    refine h.trans ?_
    refine ⟨by simp, by simp, by simp, ?_, fun r hr => ?_⟩
    · unfold State.sessionRoundEnd
      cases hx : t.session with
      | none => simp [State.vanPowers, hx]
      | some x => simp [State.vanPowers, hx, State.sessionAfterRound_powers]
    · unfold State.sessionRoundEnd
      cases hx : t.session with
      | none => simp [State.holdOf, hx]
      | some x => simp [State.holdOf, hx, State.sessionAfterRound_holds t a p q x hr]
  all_goals
    intro t
    intros
  all_goals
    refine still t _ (by assumption) ?_ ?_ ?_ ?_ <;> simp

theorem State.roundEnd_scanRun (n : Bool) (s : State) : s.ScanRun true true (s.roundEnd n) := by
  obtain ⟨w, u, v, a, b, c, hw, -, hpre, hv, hpost⟩ := State.roundEnd_parts n s
  have h0 : s.ScanRun false false w.handDriven :=
    (State.ScanRun.refl s).same (State.ScanSame.of_session (by rw [hw]; rfl) (by rw [hw]; rfl) (by rw [hw]; rfl) (by rw [hw]; rfl))
  have h1 := hpre.scanRun h0 (fun _ => rfl) (fun _ => rfl)
  have h2 := h1.same (u.roundEndWork_scanSame n c)
  rw [← hv] at h2
  have h3 := hpost.scanRun h2 (by simp) (by simp)
  simpa using h3

theorem State.takeStarts_scanSame (s : State) : s.ScanSame s.takeStarts :=
  State.ScanSame.of_session (by simp) (by simp) (by simp) (by simp)

theorem State.sliceExpiry_scanRun {s : State} (hr : s.timer.running = true) (hl : s.inLastSlice = false) :
    s.ScanRun true true s.sliceExpiry := by
  have hfirst : ∀ d : State, s.takeStarts.choose.2 = d → s.ScanRun false false (d.handDriven.nextSlice.leaveStarts (s.takeStarts.choose.1 / 43200)) := by
    rintro _ rfl
    refine ((State.ScanRun.refl s).same s.takeStarts_scanSame).same
      (State.ScanSame.of_session ?_ ?_ ?_ ?_) <;> simp
  obtain ⟨done, hall, hrun⟩ := runSliceOrder (I := fun done t => s.ScanRun (decide (.scan ∈ done)) (decide (.permit ∈ done)) t)
    s.takeStarts.choose.1 (fun done p u hp _ h => by
      by_cases h1 : p = .scan
      · subst h1
        have := h.scan (decide_eq_false hp)
        show s.ScanRun _ _ u.scan
        simpa using this
      · by_cases h2 : p = .permit
        · subst h2
          have := h.permitTest (decide_eq_false hp)
          show s.ScanRun _ _ u.permitTest
          simpa using this
        · have := h.same (SlicePart.scanSame h1 h2 u)
          simpa [Ne.symm h1, Ne.symm h2] using this) (hfirst _ rfl)
  have := hrun
  rw [decide_eq_true (hall _), decide_eq_true (hall _)] at this
  rw [State.sliceExpiry, if_pos (by simp [hr, hl])]
  exact this

/-! ### The readings -/

theorem scannedChannel_converts (t : Int) : (scannedChannel t).Converts t := by
  unfold Channel.Converts scannedChannel converted Config.railLow Config.railHigh
  refine ⟨rfl, ?_⟩
  rw [decide_eq_true_eq]
  omega

theorem channelValue_counted (te : Nat) (t : Int) : channelValue te t = countedTemp te t := by
  have h := (scannedChannel_converts t).2
  unfold channelValue countedTemp
  by_cases hf : t ≤ -40 ∨ 150 ≤ t
  · rw [if_pos hf, if_pos (h.2 hf)]
  · rw [if_neg hf, if_neg (mt h.1 hf)]
    unfold converted Config.railLow Config.railHigh
    omega

theorem isLargest_max (a b c : Int) : IsLargest (max a (max b c)) a b c := by
  unfold IsLargest
  omega

/-- What a scan made in an event shows of the event. -/
theorem State.ScanRun.shows {s t : State} {temps : Temps} (h : (s.setTemps temps).ScanRun true true t) :
    ∃ hot : Int, t.thermal.ch0.Converts temps.connector ∧ t.thermal.ch1.Converts temps.cable ∧
      t.thermal.ch2.Converts temps.heatSink ∧ t.thermal.hot = some hot ∧
      IsLargest hot (countedTemp s.cfg.derateEnd temps.connector) (countedTemp s.cfg.derateEnd temps.cable)
        (countedTemp s.cfg.derateEnd temps.heatSink) ∧
      (t.thermal.derating = true ↔ (s.cfg.derateStart : Int) < hot) ∧ t.thermal.mEff = t.formedMEff ∧
      ∀ x, s.session = some x → ∃ y, t.session = some y ∧
        ((s.cfg.derateEnd : Int) ≤ hot → y.holds.thermal = true) ∧
        (hot + 5 ≤ s.cfg.derateEnd → y.holds.thermal = false) ∧
        (hot < s.cfg.derateEnd → (s.cfg.derateEnd : Int) < hot + 5 → y.holds.thermal = x.holds.thermal) ∧
        y.holds.permit = (x.holds.permit || !s.pins.permit) ∧ y.holds.driver = x.holds.driver := by
  obtain ⟨hth, hthermal⟩ := h.scanned rfl
  have hdriver := h.driver
  have hpermit := h.permit
  refine ⟨(s.setTemps temps).hotNow, ?_, ?_, ?_, by rw [hth]; rfl, ?_, ?_, by rw [hth], fun x hx => ?_⟩
  · rw [hth]; exact scannedChannel_converts _
  · rw [hth]; exact scannedChannel_converts _
  · rw [hth]; exact scannedChannel_converts _
  · have := isLargest_max (channelValue s.cfg.derateEnd temps.connector) (channelValue s.cfg.derateEnd temps.cable)
      (channelValue s.cfg.derateEnd temps.heatSink)
    simp only [channelValue_counted] at this ⊢
    have hv : (s.setTemps temps).hotNow = max (countedTemp s.cfg.derateEnd temps.connector)
        (max (countedTemp s.cfg.derateEnd temps.cable) (countedTemp s.cfg.derateEnd temps.heatSink)) := by
      simp only [← channelValue_counted]; rfl
    rw [hv]
    exact this
  · rw [hth]; exact decide_eq_true_iff
  · have hxs : (s.setTemps temps).session = some x := hx
    unfold State.holdOf at hthermal hdriver hpermit
    rw [hxs] at hthermal hdriver hpermit
    cases hy : t.session with
    | none => rw [hy] at hdriver; cases hdriver
    | some y =>
      rw [hy] at hthermal hdriver hpermit
      have h1 : y.holds.thermal = thermalAfter s.cfg.derateEnd (s.setTemps temps).hotNow x.holds.thermal :=
        Option.some.inj hthermal
      have h2 : y.holds.permit = (x.holds.permit || (true && !s.pins.permit)) := Option.some.inj hpermit
      refine ⟨y, rfl, fun hh => ?_, fun hh => ?_, fun h3 h4 => ?_, h2, Option.some.inj hdriver⟩
      · rw [h1, thermalAfter, if_pos hh]
      · rw [h1, thermalAfter, if_neg (by omega), if_pos (by omega)]
      · rw [h1, thermalAfter, if_neg (by omega), if_neg (by omega)]

/-- Settles O10: scan and level test are made once each, and no other part touches what they set. -/
theorem sliceEndScan : Obligations.SliceEndScan := by
  intro s temps c hr hc
  have hrun : (s.setTemps temps).ScanRun true true (effect c s) := by
    rcases hc with ⟨rfl, hi⟩ | ⟨rfl, hi⟩
    · exact State.sliceExpiry_scanRun (s := s.setTemps temps) hr (by
        show decide (s.cfg.roundDiv ≤ s.timer.sliceIndex + 1) = false
        rw [decide_eq_false_iff_not]; omega)
    · have : effect (.naturalRoundEnd temps) s = (s.setTemps temps).roundEnd true := by
        show (s.setTemps temps).naturalRoundEnd = _
        have hlast : (s.setTemps temps).inLastSlice = true := by
          show decide (s.cfg.roundDiv ≤ s.timer.sliceIndex + 1) = true
          rw [decide_eq_true_eq]; exact hi
        have hrun : (s.setTemps temps).timer.running = true := hr
        unfold State.naturalRoundEnd
        rw [hlast, hrun]; rfl
      rw [this]
      exact State.roundEnd_scanRun true _
  obtain ⟨hot, h⟩ := hrun.shows
  exact ⟨_, hot, exec_eq c s, h⟩

end Sys2Proof.Machine
end

section
/-! The scan and the level test of a round end together: the reasons they set, the records and the one claim of them
(R59, R74, R91, R92, R95, R149). -/

namespace Sys2Proof.Machine

/-! ### Sets of hold reasons -/

theorem HoldSet.ext_has {h k : HoldSet} (e : ∀ r, h.has r = k.has r) : h = k := by
  have h1 := e .driver
  have h2 := e .permit
  have h3 := e .thermal
  have h4 := e .meter
  cases h; cases k
  simp only [HoldSet.has] at h1 h2 h3 h4
  rw [h1, h2, h3, h4]

theorem HoldSet.isEmpty_false_of_has {h : HoldSet} {r : HoldReason} (e : h.has r = true) : h.isEmpty = false := by
  cases r <;> simp only [HoldSet.has] at e <;> simp [HoldSet.isEmpty, e]

/-- A reason counts where the two sets differ in it. -/
def HoldSet.differs (h k : HoldSet) (r : HoldReason) : Nat := if k.has r = h.has r then 0 else 1

/-- In how many reasons two sets differ. -/
def HoldSet.changes (h k : HoldSet) : Nat :=
  h.differs k .driver + h.differs k .permit + h.differs k .thermal + h.differs k .meter

theorem HoldSet.changes_self (h : HoldSet) : h.changes h = 0 := by simp [HoldSet.changes, HoldSet.differs]

/-- Setting a reason in which the sets agree. -/
theorem HoldSet.changes_put {h k : HoldSet} {r : HoldReason} (e : k.has r = h.has r) (b : Bool) :
    h.changes (k.put b r) = h.changes k + (if b = k.has r then 0 else 1) := by
  have hother : ∀ q, q ≠ r → h.differs (k.put b r) q = h.differs k q := fun q hq => by
    simp only [HoldSet.differs, HoldSet.put_other _ _ hq]
  have hat : h.differs (k.put b r) r = (if b = k.has r then 0 else 1) := by
    simp only [HoldSet.differs, HoldSet.put_has, e]
  have hzero : h.differs k r = 0 := by simp only [HoldSet.differs, e, if_true]
  unfold HoldSet.changes
  cases r
  · rw [hat, hzero, hother .permit (by decide), hother .thermal (by decide), hother .meter (by decide)]; omega
  · rw [hat, hzero, hother .driver (by decide), hother .thermal (by decide), hother .meter (by decide)]; omega
  · rw [hat, hzero, hother .driver (by decide), hother .permit (by decide), hother .meter (by decide)]; omega
  · rw [hat, hzero, hother .driver (by decide), hother .permit (by decide), hother .thermal (by decide)]; omega

/-- A reason that the second set has and the first lacks. -/
def HoldSet.Gains (h k : HoldSet) : Prop := ∃ r, h.has r = false ∧ k.has r = true

theorem HoldSet.not_gains_self (h : HoldSet) : ¬ h.Gains h := fun ⟨r, h1, h2⟩ => by rw [h1] at h2; cases h2

theorem HoldSet.changes_eq_zero {h k : HoldSet} (e : h.changes k = 0) : k = h := by
  have key : ∀ r, h.differs k r = 0 → k.has r = h.has r := fun r hr => by
    unfold HoldSet.differs at hr
    by_contra hc
    rw [if_neg hc] at hr
    cases hr
  unfold HoldSet.changes at e
  refine HoldSet.ext_has fun r => key r ?_
  cases r <;> omega

theorem HoldSet.Gains.changes {h k : HoldSet} (e : h.Gains k) : h.changes k ≠ 0 := fun hz => by
  rw [HoldSet.changes_eq_zero hz] at e
  exact h.not_gains_self e

theorem Phase.afterHold_idem (p : Phase) : p.afterHold.afterHold = p.afterHold := by cases p <;> rfl

/-! ### Several reasons set -/

/-- The state a claim was formed in, between `u` and `t`, on entry to HELD. -/
structure State.HeldClaim (u t v : State) : Prop where
  stand : v.stand = u.stand
  settings : v.settings = u.settings
  meter : v.meter = u.meter
  share : v.share = u.share
  thermal : v.thermal = u.thermal ∨ v.thermal = t.thermal
  session : ∀ x y, u.session = some x → t.session = some y → ∃ z, v.session = some z ∧
    z = { x with phase := .held, holds := z.holds } ∧
    (∀ r, z.holds.has r = x.holds.has r ∨ z.holds.has r = y.holds.has r) ∧
    ∃ r, x.holds.has r = false ∧ z.holds.has r = true ∧ y.holds.has r = true

/-- From `u` to `t` each of the reasons in `done` has been set or left once, and no other. -/
structure State.HoldsRun (done : HoldReason → Bool) (u t : State) : Prop where
  gone : u.session = none → t.session = none
  session : ∀ x, u.session = some x → ∃ y, t.session = some y ∧ y = { x with phase := y.phase, holds := y.holds } ∧
    (∀ r, done r = false → y.holds.has r = x.holds.has r) ∧
    (x.holds.Gains y.holds → y.phase = x.phase.afterHold) ∧ (¬ x.holds.Gains y.holds → y.phase = x.phase)
  records : ∃ rs, t.out.link = u.out.link ++ rs ∧ (∀ r ∈ rs, ∃ p h f, r = .phase p h f) ∧
    rs.length = u.holds.changes t.holds ∧ (rs ≠ [] → rs.getLast? = some t.phaseRecord)
  claims : ∃ o, u.Forms t o ∧ (o ≠ none ↔ u.onLine = true ∧ t.phase ≠ u.phase) ∧ ∀ v, o = some v → u.HeldClaim t v
  thermal : done .thermal = false → t.thermal = u.thermal
  whole : t = { u with
    session := t.session, thermal := t.thermal, stage := t.stage, share := t.share, line := t.line, out := t.out }
  outLine : t.out.line = u.out.line

theorem State.HoldsRun.refl (u : State) : State.HoldsRun (fun _ => false) u u where
  gone h := h
  session x h := ⟨x, h, rfl, fun _ _ => rfl, fun hg => absurd hg x.holds.not_gains_self, fun _ => rfl⟩
  records := ⟨[], by simp, by simp, u.holds.changes_self.symm, fun h => absurd rfl h⟩
  claims := ⟨none, .still rfl rfl, ⟨fun h => absurd rfl h, fun h => absurd rfl h.2⟩,
    fun v h => (Option.some_ne_none v h.symm).elim⟩
  thermal _ := rfl
  whole := rfl
  outLine := rfl

theorem State.Forms.after_still {u t w : State} {o : Option State} (h : t.Forms w o) (hs : t.share = u.share)
    (hl : t.line = u.line) : u.Forms w o := by
  cases h with
  | still h1 h2 => exact .still (h1.trans hs) (h2.trans hl)
  | claim v hq h1 h2 => exact .claim v (by rw [← hs]; exact hq) (by rw [← hs]; exact h1) (by rw [← hl]; exact h2)

theorem State.Forms.before_still {u t w : State} {o : Option State} (h : u.Forms t o) (hs : w.share = t.share)
    (hl : w.line = t.line) : u.Forms w o := by
  cases h with
  | still h1 h2 => exact .still (hs.trans h1) (hl.trans h2)
  | claim v hq h1 h2 => exact .claim v hq (hs.trans h1) (by rw [hl]; exact h2)

theorem State.Forms.of_none {u t : State} (h : u.Forms t none) : t.share = u.share ∧ t.line = u.line := by
  cases h with
  | still h1 h2 => exact ⟨h1, h2⟩

/-- Another reason set. -/
theorem State.HoldsRun.set {done : HoldReason → Bool} {u t w : State} (h : State.HoldsRun done u t) {r : HoldReason}
    {o : Option State} (hs : State.SetsHold r t w o) (hd : done r = false) (hth : r = .thermal ∨ w.thermal = t.thermal) :
    State.HoldsRun (Function.update done r true) u w := by
  have hwhole : w = { u with
      session := w.session, thermal := w.thermal, stage := w.stage, share := w.share, line := w.line, out := w.out } := by
    rw [hs.whole, h.whole]
  have hthermal : Function.update done r true .thermal = false → w.thermal = u.thermal := fun hn => by
    have hne : r ≠ .thermal := fun e => by rw [e, Function.update_self] at hn; cases hn
    rw [Function.update_of_ne (Ne.symm hne)] at hn
    rw [hth.resolve_left hne, h.thermal hn]
  obtain ⟨rs, hlink, hphases, hlen, hlast⟩ := h.records
  obtain ⟨o0, hforms, hiff, hclaim⟩ := h.claims
  have hon : t.onLine = u.onLine := State.onLine_congr (by rw [h.whole])
  have hvth : ∀ v : State, v.thermal = u.thermal ∨ v.thermal = t.thermal → v.thermal = u.thermal ∨ v.thermal = w.thermal := by
    intro v hv
    rcases hth with e | e
    · left
      rcases hv with hv | hv
      · exact hv
      · rw [hv, h.thermal (by rw [← e]; exact hd)]
    · rw [e]; exact hv
  cases hx : u.session with
  | none =>
    have ht := h.gone hx
    obtain ⟨hw, hno⟩ := hs.gone ht
    have hsess : w.session = t.session := hw.trans ht.symm
    have hstill : w.out.link = t.out.link := by
      rcases hs.reports with ⟨-, -, e⟩ | ⟨e, -⟩
      · exact e
      · rcases e with e | e
        · exact absurd (State.phase_congr hsess) e
        · exact absurd (State.holds_congr hsess) e
    obtain ⟨hsh, hl⟩ := (hno ▸ hs.forms).of_none
    exact {
      gone := fun _ => hw
      session := fun x hx' => by rw [hx] at hx'; cases hx'
      records := ⟨rs, hstill.trans hlink, hphases, by rw [State.holds_congr hsess]; exact hlen,
        fun hne => by rw [State.phaseRecord_congr hsess]; exact hlast hne⟩
      claims := ⟨o0, hforms.before_still hsh hl, by rw [State.phase_congr hsess]; exact hiff, fun v hv => by
        obtain ⟨a1, a2, a3, a4, a5, -⟩ := hclaim v hv
        exact ⟨a1, a2, a3, a4, hvth v a5, fun x y hx' => by rw [hx] at hx'; cases hx'⟩⟩
      thermal := hthermal
      whole := hwhole
      outLine := hs.outLine.trans h.outLine }
  | some x =>
    obtain ⟨y, hy, hyx, hkeep, hgain, hnot⟩ := h.session x hx
    obtain ⟨z, hz, hzy, hzphase⟩ := hs.session y hy
    have hzh : z.holds = y.holds.put (z.holds.has r) r := by rw [hzy]; exact congrArg (y.holds.put · r) (HoldSet.put_has _ _ _).symm
    have hyr : y.holds.has r = x.holds.has r := hkeep r hd
    have hother : ∀ q, q ≠ r → z.holds.has q = y.holds.has q := fun q hq => by rw [hzh]; exact HoldSet.put_other _ _ hq
    have hsome : ¬ (y.holds.has r = false ∧ z.holds.has r = true) → (x.holds.Gains z.holds ↔ x.holds.Gains y.holds) := by
      intro hn
      constructor
      · rintro ⟨q, h1, h2⟩
        by_cases hq : q = r
        · subst hq
          exact absurd ⟨hyr.trans h1, h2⟩ hn
        · exact ⟨q, h1, by rw [← hother q hq]; exact h2⟩
      · rintro ⟨q, h1, h2⟩
        have hq : q ≠ r := fun e => by subst e; rw [hyr, h1] at h2; cases h2
        exact ⟨q, h1, by rw [hother q hq]; exact h2⟩
    have hyp : y.phase = x.phase ∨ y.phase = x.phase.afterHold := by
      by_cases hg : x.holds.Gains y.holds
      · exact .inr (hgain hg)
      · exact .inl (hnot hg)
    have hzp : (x.holds.Gains z.holds → z.phase = x.phase.afterHold) ∧ (¬ x.holds.Gains z.holds → z.phase = x.phase) := by
      by_cases hc : y.holds.has r = false ∧ z.holds.has r = true
      · have hg : x.holds.Gains z.holds := ⟨r, hyr ▸ hc.1, hc.2⟩
        refine ⟨fun _ => ?_, fun hn => absurd hg hn⟩
        rw [hzphase, if_pos hc]
        rcases hyp with e | e
        · rw [e]
        · rw [e, Phase.afterHold_idem]
      · rw [hsome hc, hzphase, if_neg hc]
        exact ⟨hgain, hnot⟩
    have hut : u.holds = x.holds := State.holds_of hx
    have htt : t.holds = y.holds := State.holds_of hy
    have hwt : w.holds = z.holds := State.holds_of hz
    have hup : u.phase = x.phase := State.phase_of hx
    have htp : t.phase = y.phase := State.phase_of hy
    have hwp : w.phase = z.phase := State.phase_of hz
    rw [hut, htt] at hlen
    have hcount : x.holds.changes z.holds = x.holds.changes y.holds + (if z.holds.has r = y.holds.has r then 0 else 1) := by
      rw [hzh, HoldSet.put_has]
      exact HoldSet.changes_put hyr _
    refine {
      gone := fun hn => by rw [hx] at hn; cases hn
      session := fun x' hx' => ?_
      records := ?_
      claims := ?_
      thermal := hthermal
      whole := hwhole
      outLine := hs.outLine.trans h.outLine }
    · obtain rfl : x = x' := Option.some.inj (hx.symm.trans hx')
      refine ⟨z, hz, by rw [hzy, hyx], fun q hq => ?_, hzp.1, hzp.2⟩
      have hqr : q ≠ r := fun e => by rw [e, Function.update_self] at hq; cases hq
      rw [Function.update_of_ne hqr] at hq
      rw [hother q hqr, hkeep q hq]
    · rcases hs.reports with ⟨e1, e2, e3⟩ | ⟨e1, e2⟩
      · rw [hwt, htt] at e2
        refine ⟨rs, e3.trans hlink, hphases, by rw [hlen, hut, hwt, e2], fun hne => ?_⟩
        rw [hlast hne, State.phaseRecord_eq, State.phaseRecord_eq, e1, hwt, htt, e2, hz, hy]
        simp only [Option.bind_some]
        rw [hwp, htp] at e1
        have hf : z.faultReason = y.faultReason := by rw [hzy]
        rw [e1, hf]
      · have hne : z.holds.has r ≠ y.holds.has r := by
          rcases e1 with e1 | e1
          · rw [hwp, htp, hzphase] at e1
            split at e1
            · next hc => rw [hc.1, hc.2]; decide
            · exact absurd rfl e1
          · intro e
            rw [hwt, htt, hzh, e, HoldSet.put_same] at e1
            exact e1 rfl
        refine ⟨rs ++ [w.phaseRecord], by rw [e2, hlink, List.append_assoc], ?_, ?_, fun _ => List.getLast?_concat⟩
        · intro q hq
          rcases List.mem_append.1 hq with hq | hq
          · exact hphases q hq
          · rw [List.mem_singleton.1 hq, State.phaseRecord_eq]
            exact ⟨_, _, _, rfl⟩
        · rw [List.length_append, List.length_singleton, hlen, hut, hwt, hcount, if_neg hne]
    · cases o with
      | none =>
        obtain ⟨hsh, hl⟩ := hs.forms.of_none
        have hsame : t.onLine = true → w.phase = t.phase := fun ho => by
          by_contra hc
          exact (hs.formed.2 ⟨ho, hc⟩) rfl
        refine ⟨o0, hforms.before_still hsh hl, ?_, fun v hv => ?_⟩
        · rw [hiff]
          exact and_congr_right fun ho => by rw [hsame (hon.trans ho)]
        · obtain ⟨a1, a2, a3, a4, a5, a6⟩ := hclaim v hv
          refine ⟨a1, a2, a3, a4, hvth v a5, fun x' z' hx' hz' => ?_⟩
          obtain rfl : x = x' := Option.some.inj (hx.symm.trans hx')
          obtain rfl : z = z' := Option.some.inj (hz.symm.trans hz')
          obtain ⟨c, hc, hcx, hceach, q, hq1, hq2, hq3⟩ := a6 x y hx hy
          refine ⟨c, hc, hcx, fun q => ?_, q, hq1, hq2, ?_⟩
          · by_cases e : q = r
            · subst e
              have := hceach q
              rw [hyr] at this
              exact .inl (this.elim id id)
            · rw [hother q e]; exact hceach q
          · rw [hother q fun e => by subst e; rw [hyr, hq1] at hq3; cases hq3]; exact hq3
      | some v =>
        obtain ⟨ho, hne⟩ := hs.formed.1 (Option.some_ne_none v)
        obtain ⟨b1, b2, b3, b4, b5, b6⟩ := hs.claim v rfl
        rw [hwp, htp, hzphase] at hne
        have hc : y.holds.has r = false ∧ z.holds.has r = true := by
          by_contra hn
          rw [if_neg hn] at hne
          exact hne rfl
        rw [if_pos hc] at hne
        have hyx' : y.phase = x.phase := by
          rcases hyp with e | e
          · exact e
          · exact absurd (by rw [e, Phase.afterHold_idem]) hne
        have hnone : o0 = none := by
          by_contra hn
          exact (hiff.1 hn).2 (by rw [htp, hup, hyx'])
        obtain ⟨hsh, hl⟩ := (hnone ▸ hforms).of_none
        have hzheld : z.phase = .held := by rw [hzphase, if_pos hc]; exact Phase.afterHold_reforms hne
        refine ⟨some v, hs.forms.after_still hsh hl, ⟨fun _ => ⟨hon.symm.trans ho, ?_⟩, fun _ => Option.some_ne_none v⟩, fun v' hv' => ?_⟩
        · rw [hwp, hup, hzphase, if_pos hc, ← hyx']; exact hne
        · obtain rfl := Option.some.inj hv'
          refine ⟨by rw [b1, h.whole], by rw [b2, h.whole], by rw [b3, h.whole], b4.trans hsh, .inr b5, fun x' z' hx' hz' => ?_⟩
          obtain rfl : x = x' := Option.some.inj (hx.symm.trans hx')
          obtain rfl : z = z' := Option.some.inj (hz.symm.trans hz')
          refine ⟨z, b6.trans hz, by rw [← hzheld, hzy, hyx], fun q => .inr rfl, r, hyr ▸ hc.1, hc.2, hc.2⟩

/-- Scan and level test, each made if its flag says so. -/
def heldDone (a b : Bool) : HoldReason → Bool
  | .thermal => a
  | .permit => b
  | .driver => false
  | .meter => false

theorem heldDone_scan (b : Bool) : Function.update (heldDone false b) .thermal true = heldDone true b := by
  funext r; cases r <;> rfl

theorem heldDone_permit (a : Bool) : Function.update (heldDone a false) .permit true = heldDone a true := by
  funext r; cases r <;> rfl

theorem HoldParts.holdsRun {a b : Bool} {u t : State} (h : HoldParts a b u t) : State.HoldsRun (heldDone a b) u t := by
  induction h with
  | none s =>
    have hd : heldDone false false = fun _ => false := by funext r; cases r <;> rfl
    rw [hd]
    exact State.HoldsRun.refl s
  | scan _ ih =>
    obtain ⟨⟨o, hs⟩, -, -⟩ := State.scan_sets _
    rw [← heldDone_scan]
    exact ih.set hs rfl (.inl rfl)
  | permit _ ih =>
    obtain ⟨⟨o, hs⟩, hth, -⟩ := State.permitTest_sets _
    rw [← heldDone_permit]
    exact ih.set hs rfl (.inr hth)

end Sys2Proof.Machine
end

section
/-! The round-end work up to the allotment: what the meter, the outbox, the standing unit, the tables and the share
computation make of the state (R3, R4, R6, R23, R42 to R47, R51, R66, R102, R107, R128, R131, R158). -/

namespace Sys2Proof.Machine

/-! ### Sending, followed through an event -/

/-- From `s` to `t` the line engine has come as far as `g` says, and as many claims are counted in the sequence. -/
structure State.Sends (s t : State) (g : SendProgress) : Prop where
  line : s.line.Tracks t.line g
  kept : g.claims = 0 → t.share.ownClaim = s.share.ownClaim ∧ t.share.sequence = s.share.sequence
  counted : 0 < g.claims → t.share.sequence = (s.share.sequence + g.claims) % 256

/-- The claim on record, and in its slot, is the one formed in `v`. -/
structure State.Claimed (t v : State) : Prop where
  own : t.share.ownClaim = some v.claimNow
  sequence : t.share.sequence = v.claimNow.sequence
  slot : t.line.outbox.claim = some ⟨v.claimNow.payload, 0⟩

theorem State.Claimed.of_same {t w v : State} (h : t.Claimed v) (ho : w.share.ownClaim = t.share.ownClaim)
    (hs : w.share.sequence = t.share.sequence) (hl : w.line.outbox.claim = t.line.outbox.claim) : w.Claimed v :=
  ⟨ho.trans h.own, hs.trans h.sequence, hl.trans h.slot⟩

theorem State.Sends.refl (s : State) (natural : Bool) : s.Sends s { natural := natural } where
  line := .refl _ _
  kept _ := ⟨rfl, rfl⟩
  counted h := by cases h

/-- A step that forms no claim. -/
theorem State.Sends.step {s t w : State} {g g' : SendProgress} (h : s.Sends t g) (hl : s.line.Tracks w.line g')
    (hc : g'.claims = g.claims) (ho : w.share.ownClaim = t.share.ownClaim) (hq : w.share.sequence = t.share.sequence) :
    s.Sends w g' where
  line := hl
  kept hz := by rw [ho, hq]; exact h.kept (hc ▸ hz)
  counted hp := by rw [hq, hc]; exact h.counted (hc ▸ hp)

theorem State.Sends.of_same {s t w : State} {g : SendProgress} (h : s.Sends t g) (hs : w.share = t.share)
    (hl : w.line = t.line) : s.Sends w g := h.step (by rw [hl]; exact h.line) rfl (by rw [hs]) (by rw [hs])

/-- A claim formed, or none. -/
def SendProgress.after (g : SendProgress) (o : Option State) (idle : Bool) : SendProgress :=
  match o with
  | none => g
  | some _ => g.claim idle

theorem State.Sends.forms {s t w : State} {g : SendProgress} (h : s.Sends t g) {o : Option State} (hf : t.Forms w o) :
    s.Sends w (g.after o t.line.sender.isIdle) := by
  cases hf with
  | still hs hl => exact h.of_same hs hl
  | claim v hq hs hl =>
    have hclaims := g.claim_claims t.line.sender.isIdle
    refine ⟨h.line.claim hl, fun hz => ?_, fun _ => ?_⟩
    · have hz : (g.claim t.line.sender.isIdle).claims = 0 := hz
      omega
    · show _ = (s.share.sequence + (g.claim t.line.sender.isIdle).claims) % 256
      rw [hclaims, hs]
      show v.claimNow.sequence = _
      rw [hq]
      rcases Nat.eq_zero_or_pos g.claims with hz | hp
      · rw [(h.kept hz).2, hz]
      · rw [h.counted hp]; omega

theorem State.Forms.claimed {t w v : State} (hf : t.Forms w (some v)) : w.Claimed v := by
  cases hf with
  | claim v hq hs hl => exact ⟨by rw [hs], by rw [hs], by rw [hl.inSlot]; rfl⟩

/-- Forming a claim, on the line. -/
theorem State.formClaim_forms (s : State) : s.Forms s.formClaim (if s.onLine then some s else none) := by
  cases h : s.onLine
  · rw [s.formClaim_off h]; exact .still rfl rfl
  · exact .claim s rfl (by rw [(s.formClaim_spec h).1]; rfl) (State.formClaim_places h)

/-! ### The meter's part -/

/-- The round count with the last slice's count. -/
def State.countedRound (s : State) : Nat := min 65535 (s.meter.roundCount + s.meter.sliceCount)

theorem State.meterSliceEnd_spec (s : State) : ∃ capped, s.meterSliceEnd.meter = { s.meter with
      roundCount := s.countedRound, sliceCount := 0, capped := capped } ∧
    (capped = true ↔ s.meter.capped = true ∨ ∃ c, s.meter.ceiling = some c ∧ c < s.countedRound) ∧
    (s.meterSliceEnd.stage.cap = true ↔ s.stage.cap = true ∨ ∃ c, s.meter.ceiling = some c ∧ c < s.countedRound) ∧
    s.meterSliceEnd.out.link = s.out.link ∧ s.meterSliceEnd.out.line = s.out.line ∧
    s.meterSliceEnd = { s with meter := s.meterSliceEnd.meter, stage := s.meterSliceEnd.stage, out := s.meterSliceEnd.out } := by
  have hover : MeterCounter.overCeiling { s.meter with roundCount := s.countedRound, sliceCount := 0 } = true ↔
      ∃ c, s.meter.ceiling = some c ∧ c < s.countedRound := by
    unfold MeterCounter.overCeiling
    cases hc : s.meter.ceiling with
    | none => simp
    | some c => simp
  have hround : satAdd Config.top16 s.meter.roundCount s.meter.sliceCount = s.countedRound := rfl
  obtain ⟨m, g, o, e⟩ := s.meterSliceEnd_frame
  have hwhole : s.meterSliceEnd = { s with
      meter := s.meterSliceEnd.meter, stage := s.meterSliceEnd.stage, out := s.meterSliceEnd.out } := by rw [e]
  suffices h : ∃ capped, s.meterSliceEnd.meter = { s.meter with
        roundCount := s.countedRound, sliceCount := 0, capped := capped } ∧
      (capped = true ↔ s.meter.capped = true ∨ ∃ c, s.meter.ceiling = some c ∧ c < s.countedRound) ∧
      (s.meterSliceEnd.stage.cap = true ↔ s.stage.cap = true ∨ ∃ c, s.meter.ceiling = some c ∧ c < s.countedRound) ∧
      s.meterSliceEnd.out.link = s.out.link ∧ s.meterSliceEnd.out.line = s.out.line by
    obtain ⟨capped, h1, h2, h3, h4, h5⟩ := h
    exact ⟨capped, h1, h2, h3, h4, h5, hwhole⟩
  unfold State.meterSliceEnd State.ceilingTest
  simp only [hround]
  split
  · next hc =>
    have hc := hover.1 hc
    refine ⟨true, ?_, by simp [hc], ?_, ?_, ?_⟩
    · rw [State.sendIfChanged_meter]
    · obtain ⟨b, h⟩ := State.sendIfChanged_stage ({ s with
        meter := { s.meter with roundCount := s.countedRound, sliceCount := 0, capped := true }
        stage := { s.stage with cap := true } } : State)
      rw [h]
      simp [hc]
    · rw [State.sendIfChanged_link]
    · rw [State.sendIfChanged_line_out]
  · next hc =>
    have hc := mt hover.2 hc
    exact ⟨s.meter.capped, rfl, by simp [hc], by simp [hc], rfl, rfl⟩

/-! ### The work up to the allotment -/

/-- The own CLAIM's record at a round end: one that waits is unsent. -/
def ClaimRecord.discarded (waits : Bool) (r : ClaimRecord) : ClaimRecord :=
  if waits then (match r with | .sent => .sent | .nothing => .unsent | .unsent => .unsent) else r

theorem State.discardClaim_spec (s : State) : s.line.Discards s.discardClaim.line ∧
    s.discardClaim = { s with line := s.discardClaim.line, stand := s.discardClaim.stand } ∧
    s.discardClaim.stand.claimRecord = s.stand.claimRecord.discarded s.line.claimWaits ∧
    s.discardClaim.stand = { s.stand with claimRecord := s.discardClaim.stand.claimRecord } := by
  have hd := s.discardClaim_discards
  have hwaits : ((s.forbidRetry .claim).line.outbox.claim.isSome && !(s.forbidRetry .claim).underWay .claim) =
      s.line.claimWaits := by
    have hcarries : (s.forbidRetry .claim).line.sender.carries .claim = s.line.sender.carries .claim := by
      rw [State.forbidRetry_line]; cases h : s.line.sender <;> simp [Sender.carries]
    rw [State.underWay_eq, hcarries, LineEngine.claimWaits, State.forbidRetry_line]
  refine ⟨hd, ?_⟩
  unfold State.discardClaim ClaimRecord.discarded
  simp only [hwaits]
  obtain ⟨l, e⟩ := s.forbidRetry_frame .claim
  cases hw : s.line.claimWaits with
  | false =>
    rw [if_neg Bool.false_ne_true, if_neg Bool.false_ne_true, e]
    exact ⟨rfl, rfl, rfl⟩
  | true =>
    rw [if_pos rfl, if_pos rfl]
    obtain ⟨l2, e2⟩ := (s.forbidRetry .claim).removeFrame_frame .claim
    rw [e2, e]
    refine ⟨rfl, ?_, ?_⟩
    · show (if false = true then ClaimRecord.sent else _) = _
      rw [if_neg Bool.false_ne_true]; rfl
    · simp [State.reportClaim, State.countUnposted]

theorem LineEngine.Places.claimWaits {l m : LineEngine} {p : List Byte} (h : l.Places m .mark p) :
    m.claimWaits = l.claimWaits := by
  have hslot : m.outbox.claim = l.outbox.claim := by rw [h.inSlot]; rfl
  have hcar : m.sender.carries .claim = l.sender.carries .claim := by
    cases hs : l.sender with
    | idle => rw [(h.idle hs).2]; rfl
    | waiting b w => rw [(h.waiting b w hs).2]
    | sending a =>
      rw [(h.sending a hs).2]
      simp only [Sender.carries]
      cases a.slot <;> simp
  unfold LineEngine.claimWaits
  rw [hslot, hcar]

/-- What a choice of the allotment reads. -/
theorem State.allotmentFor_congr {s t : State} (hu : t.stand = s.stand) (ho : t.share.ownClaim = s.share.ownClaim)
    (hset : t.settings = s.settings) (hp : t.peers = s.peers) (hr : t.timer.roundCount = s.timer.roundCount) (pool : Pool) :
    t.allotmentFor pool = s.allotmentFor pool := by
  have hcfg : t.cfg = s.cfg := by simp only [State.cfg, hset]
  have hself : t.selfClaimant = s.selfClaimant := by simp only [State.selfClaimant, hu, ho, hcfg]
  have hgrant : t.ownGrant pool = s.ownGrant pool := by
    simp only [State.ownGrant, State.claimants, hself, hcfg, hp, hr]
  simp only [State.allotmentFor, hu, ho, hgrant]

/-- The round-end work up to the allotment, from `u` to `k`; `l` is the line engine with the own MARK placed first or not. -/
structure State.RoundCore (u k : State) (markFirst : Bool) (l : LineEngine) : Prop where
  mark : if markFirst then u.line.Places l .mark [] else l = u.line
  discards : l.Discards k.line
  stand : k.stand = ({ u.stand with claimRecord := u.stand.claimRecord.discarded u.line.claimWaits } : StandingUnit).roundEnd u.cfg.n
  timer : k.timer = { u.timer with
    sliceCounter := 0, sliceIndex := 0, roundCount := (u.timer.roundCount + 1) % 65536
    aligned := u.timer.aligned || (u.stand.standing == .listening &&
      (k.stand.standing == .joined || k.stand.standing == .isolated)) }
  meter : k.meter = { u.meterSliceEnd.meter with holdCount := u.countedRound }
  peers : k.peers =
    { entries := keptEntries u.timer.roundCount u.peers.entries
      dHanded := presumedDraws u.pool.lone u.timer.roundCount (keptEntries u.timer.roundCount u.peers.entries)
      claimantsHanded := (tableClaimants u.pool.lone u.timer.roundCount
        (keptEntries u.timer.roundCount u.peers.entries)).length }
  override : k.notices.override = u.countOverride.notices.override
  table : k.notices.table = u.expireNotices.notices.table
  share : k.share = { u.share with allotment := ({ u with stand := k.stand, peers := k.peers } : State).allotmentFor u.pool }
  whole : k = { u with
    timer := k.timer, stand := k.stand, peers := k.peers, share := k.share, notices := k.notices
    stage := u.meterSliceEnd.stage, out := u.meterSliceEnd.out, meter := k.meter, line := k.line }

theorem State.placeMark_of_aligned {s : State} (h : s.timer.aligned = true) : s.line.Places s.placeMark.line .mark [] := by
  unfold State.placeMark
  rw [if_pos h]
  exact s.placeFrame_places _ _

theorem State.placeMark_of_unaligned {s : State} (h : s.timer.aligned = false) : s.placeMark = s := by
  unfold State.placeMark
  rw [h]; rfl

/-- Ageing, the override's count, the expiry, the allotment and the next round, after the standing unit's work. -/
theorem State.roundEndCore_eq (u : State) (markFirst : Bool) : ∃ d e : State,
    d = (if markFirst then u.meterSliceEnd.holdRound.placeMark else u.meterSliceEnd.holdRound) ∧
    e = d.discardClaim.standingRoundEnd ∧
    u.roundEndCore markFirst =
      ((((e.agePeers e.pool.lone).countOverride).expireNotices).chooseAllotment e.pool).nextRound := ⟨_, _, rfl, rfl, rfl⟩

theorem State.roundEndCore_spec (u : State) {markFirst : Bool} (hm : markFirst = true → u.timer.aligned = true) :
    ∃ l, State.RoundCore u (u.roundEndCore markFirst) markFirst l := by
  obtain ⟨capped, hmeter, -, -, -, -, hmwhole⟩ := u.meterSliceEnd_spec
  obtain ⟨d, e, hd, he, hk⟩ := u.roundEndCore_eq markFirst
  have hround : u.meterSliceEnd.meter.roundCount = u.countedRound := by rw [hmeter]
  have hd' : d = { u with
      stage := u.meterSliceEnd.stage, out := u.meterSliceEnd.out, line := d.line
      meter := { u.meterSliceEnd.meter with holdCount := u.countedRound } } := by
    have h1 : u.meterSliceEnd.holdRound = { u with
        stage := u.meterSliceEnd.stage, out := u.meterSliceEnd.out
        meter := { u.meterSliceEnd.meter with holdCount := u.countedRound } } := by
      rw [← hround, State.holdRound]
      exact congrArg (fun s : State => { s with meter := { u.meterSliceEnd.meter with
        holdCount := u.meterSliceEnd.meter.roundCount } }) hmwhole
    rw [hd]
    cases markFirst with
    | false => rw [if_neg Bool.false_ne_true, h1]
    | true =>
      obtain ⟨x, hx⟩ := u.meterSliceEnd.holdRound.placeMark_frame
      rw [if_pos rfl, hx, h1]
  have hmark : if markFirst then u.line.Places d.line .mark [] else d.line = u.line := by
    have hl : u.meterSliceEnd.holdRound.line = u.line := by simp [State.holdRound]
    rw [hd]
    cases markFirst with
    | false => simp
    | true =>
      have := State.placeMark_of_aligned (s := u.meterSliceEnd.holdRound) (by
        show u.meterSliceEnd.timer.aligned = true
        rw [State.meterSliceEnd_timer]; exact hm rfl)
      rw [hl] at this
      exact this
  have hwaits : d.line.claimWaits = u.line.claimWaits := by
    cases markFirst with
    | false => rw [if_neg Bool.false_ne_true] at hmark; rw [hmark]
    | true => rw [if_pos rfl] at hmark; exact hmark.claimWaits
  obtain ⟨hdisc, hdwhole, hrecord, hstand⟩ := d.discardClaim_spec
  rw [hwaits] at hrecord
  have hdst : d.stand = u.stand := by rw [hd']
  have hdcfg : d.cfg = u.cfg := by rw [hd']; rfl
  have hdt : d.timer = u.timer := by rw [hd']
  rw [hdst] at hrecord hstand
  rw [hrecord] at hstand
  have hest : e.stand = ({ u.stand with claimRecord := u.stand.claimRecord.discarded u.line.claimWaits } : StandingUnit).roundEnd u.cfg.n := by
    rw [he, State.standingRoundEnd]
    show (d.discardClaim.stand).roundEnd d.discardClaim.cfg.n = _
    rw [hstand, hdwhole]
    show StandingUnit.roundEnd d.cfg.n _ = _
    rw [hdcfg]
  have heal : e.timer = { u.timer with aligned := u.timer.aligned || (u.stand.standing == .listening &&
      (e.stand.standing == .joined || e.stand.standing == .isolated)) } := by
    have h1 : d.discardClaim.timer = u.timer := by rw [hdwhole]; exact hdt
    have h2 : d.discardClaim.stand.standing = u.stand.standing := by rw [hstand]
    rw [he]
    show ({ d.discardClaim.timer with aligned := d.discardClaim.timer.aligned || (d.discardClaim.stand.standing == .listening && _) } : Timer) = _
    rw [h1, h2]; rfl
  have hewhole : e = { u with
      stage := u.meterSliceEnd.stage, out := u.meterSliceEnd.out, line := d.discardClaim.line
      meter := { u.meterSliceEnd.meter with holdCount := u.countedRound }, stand := e.stand, timer := e.timer } := by
    have h0 : e = { d.discardClaim with stand := e.stand, timer := e.timer } := by rw [he]; rfl
    rw [h0, hdwhole, hd']
  have hpool : e.pool = u.pool := by rw [hewhole]; rfl
  rw [hpool] at hk
  obtain ⟨n, hn⟩ := ((e.agePeers u.pool.lone).countOverride).expireNotices_frame
  refine ⟨d.line, {
    mark := hmark
    discards := ?_
    stand := ?_
    timer := ?_
    meter := ?_
    peers := ?_
    override := ?_
    table := ?_
    share := ?_
    whole := ?_ }⟩
  all_goals rw [hk]
  · show d.line.Discards (((e.agePeers u.pool.lone).countOverride).expireNotices).line
    rw [hn]
    show d.line.Discards e.line
    rw [hewhole]; exact hdisc
  · show (((e.agePeers u.pool.lone).countOverride).expireNotices).stand = _
    rw [hn]; exact hest
  · have hst : ((((e.agePeers u.pool.lone).countOverride).expireNotices).chooseAllotment u.pool).nextRound.stand = e.stand := by
      show (((e.agePeers u.pool.lone).countOverride).expireNotices).stand = _
      rw [hn]; rfl
    have ht : (((e.agePeers u.pool.lone).countOverride).expireNotices).timer = e.timer := by rw [hn]; rfl
    rw [hst]
    show ({ (((e.agePeers u.pool.lone).countOverride).expireNotices).timer with
      sliceCounter := 0, sliceIndex := 0
      roundCount := ((((e.agePeers u.pool.lone).countOverride).expireNotices).timer.roundCount + 1) % 65536 } : Timer) = _
    rw [ht, heal]
  · show (((e.agePeers u.pool.lone).countOverride).expireNotices).meter = _
    rw [hn]
    show e.meter = _
    rw [hewhole]
  · show (((e.agePeers u.pool.lone).countOverride).expireNotices).peers = _
    rw [hn]
    show (e.agePeers u.pool.lone).peers = _
    have h1 : e.peers = u.peers := by rw [hewhole]
    have h2 : e.timer.roundCount = u.timer.roundCount := by rw [heal]
    simp only [State.agePeers, h1, h2]
  · have h1 : e.notices = u.notices := by rw [hewhole]
    have hov : ∀ v : State, v.expireNotices.notices.override = v.notices.override := fun v => by
      unfold State.expireNotices; split <;> rfl
    show (((e.agePeers u.pool.lone).countOverride).expireNotices).notices.override = _
    rw [hov]
    show e.countOverride.notices.override = _
    simp only [State.countOverride, h1]
  · have h1 : e.notices = u.notices := by rw [hewhole]
    have h2 : e.timer.clock = u.timer.clock := by rw [heal]
    have htab : ∀ v w : State, v.notices.table = w.notices.table → v.timer.clock = w.timer.clock →
        v.expireNotices.notices.table = w.expireNotices.notices.table := fun v w hv hw => by
      unfold State.expireNotices
      rw [hw]
      cases w.timer.clock with
      | none => exact hv
      | some c => exact congrArg (List.filter fun e => decide (forwardDistance e.departure c ≤ Config.passedDistance)) hv
    exact htab ((e.agePeers u.pool.lone).countOverride) u (by rw [← h1]; rfl) h2
  · show ({ (((e.agePeers u.pool.lone).countOverride).expireNotices).share with
      allotment := (((e.agePeers u.pool.lone).countOverride).expireNotices).allotmentFor u.pool } : ShareUnit) = _
    have hsh : (((e.agePeers u.pool.lone).countOverride).expireNotices).share = u.share := by
      rw [hn]
      show e.share = _
      rw [hewhole]
    rw [hsh]
    refine congrArg (fun a => { u.share with allotment := a }) (State.allotmentFor_congr ?_ ?_ ?_ ?_ ?_ _)
    · rfl
    · rw [hsh]
    · rw [hn]; show e.settings = _; rw [hewhole]
    · rfl
    · rw [hn]; show e.timer.roundCount = _; rw [heal]
  · rw [hn]
    show _ = _
    rw [hewhole]; rfl

end Sys2Proof.Machine
end

section
/-! The round-end work after the allotment: the post slice, the own MARK, the claim of a standing change and the
session's work with stage control's, in any order (R6, R34, R57, R59, R74, R89, R114, R163). -/

namespace Sys2Proof.Machine

theorem State.Forms.share_rest {u t : State} {o : Option State} (h : u.Forms t o) : t.share = { u.share with
    ownClaim := t.share.ownClaim, sequence := t.share.sequence } := by
  cases h with
  | still hs _ => rw [hs]
  | claim v _ hs _ => rw [hs]

/-! ### Parts in any order, over any kind of part -/

/-- The parts whose order a round end leaves open. -/
inductive TailPart where
  | post | mark | reform | session
  deriving DecidableEq

/-- What each does. -/
def TailPart.run (mark : Bool) (before : Standing) (counts : Nat) (capped silence : Bool) : TailPart → State → State
  | .post => State.drawPostSlice
  | .mark => fun s => if mark then s.placeMark else s
  | .reform => State.reformIfChanged before
  | .session => fun s => (s.sessionRoundEnd counts capped silence).stageRoundEnd

theorem roundEndTail_eq (mark : Bool) (before : Standing) (counts : Nat) (capped silence : Bool) :
    roundEndTail mark before counts capped silence =
      [TailPart.post, .mark, .reform, .session].map (TailPart.run mark before counts capped silence) := rfl

/-- A predicate over the parts done, carried from one part to the next, holds with all of them done. -/
theorem runTail {I : List TailPart → State → Prop} {f : TailPart → State → State}
    (step : ∀ done p u, p ∉ done → I done u → I (p :: done) (f p u)) (c : Nat) {s : State} (h : I [] s) :
    ∃ done, (∀ p, p ∈ done) ∧ I done (runIn c ([TailPart.post, .mark, .reform, .session].map f) s) := by
  have hperm := arrange_perm c [TailPart.post, .mark, .reform, .session]
  have hnd : (arrange c [TailPart.post, .mark, .reform, .session]).Nodup := hperm.nodup_iff.2 (by decide)
  have go : ∀ rest done u, (done.reverse ++ rest).Nodup → I done u → I (rest.reverse ++ done) (runAll (rest.map f) u) := by
    intro rest
    induction rest with
    | nil => exact fun done u _ h => h
    | cons p rest ih =>
      intro done u hn h
      have hn' := hn
      rw [List.nodup_append] at hn'
      have := ih (p :: done) (f p u) (by simpa using hn)
        (step done p u (fun hm => hn'.2.2 p (List.mem_reverse.2 hm) p List.mem_cons_self rfl) h)
      rw [List.reverse_cons, List.append_assoc]
      exact this
  refine ⟨_, fun p => ?_, by rw [runIn, arrange_map]; exact go _ [] s (by simpa using hnd) h⟩
  rw [List.append_nil, List.mem_reverse, hperm.mem_iff]
  cases p <;> decide

/-! ### The session's round-end work -/

/-- The session after its round-end work. -/
def State.sessionDecided (counts : Nat) (capped silence : Bool) (s : State) : Option Session :=
  s.session.map (s.sessionAfterRound counts capped silence)

theorem State.sessionRoundEnd_part (counts : Nat) (capped silence : Bool) (e : State) : ∃ o,
    e.Reports (e.sessionRoundEnd counts capped silence) ∧ e.Forms (e.sessionRoundEnd counts capped silence) o ∧
    (e.sessionRoundEnd counts capped silence).session = e.sessionDecided counts capped silence ∧
    (o ≠ none ↔ e.onLine = true ∧ (e.sessionRoundEnd counts capped silence).phase ≠ e.phase ∧
      (e.sessionRoundEnd counts capped silence).phase.reforms = true) ∧
    (∀ v, o = some v → v = { e with session := e.sessionDecided counts capped silence }) ∧
    (e.sessionRoundEnd counts capped silence).out.line = e.out.line ∧
    (e.sessionRoundEnd counts capped silence).out.stage = e.out.stage := by
  unfold State.sessionRoundEnd State.sessionDecided
  cases hx : e.session with
  | none =>
    exact ⟨none, State.Reports.of_still rfl rfl, .still rfl rfl, hx, ⟨fun h => absurd rfl h, fun h => absurd rfl h.2.1⟩,
      fun v h => (Option.some_ne_none v h.symm).elim, rfl, rfl⟩
  | some x =>
    simp only [Option.map_some]
    generalize e.sessionAfterRound counts capped silence x = y
    obtain ⟨o, hrep, hforms, hformed, hclaim⟩ := e.changeSession_part (some y)
    have hsess : (e.changeSession (some y)).session = (e.putSession (some y)).session := by
      rw [State.changeSession_session, State.putSession_session]
    rw [State.phase_congr hsess] at hformed
    refine ⟨o, ?_, hforms.before_still ?_ ?_, State.putSession_session _ _, hformed, hclaim,
      (State.putSession_words e (some y)).2, (State.putSession_words e (some y)).1⟩
    · have hlink : (e.changeSession (some y)).out.link = (e.putSession (some y)).out.link := by
        rw [State.changeSession, State.evalPermission_link]
      unfold State.Reports at hrep ⊢
      rw [State.phase_congr hsess, State.holds_congr hsess, hlink, State.phaseRecord_congr hsess] at hrep
      exact hrep
    · rw [State.changeSession, State.evalPermission_share]
    · rw [State.changeSession, State.evalPermission_line]

theorem State.sessionAfterRound_congr {s t : State} (hu : t.stand.standing = s.stand.standing)
    (hset : t.settings = s.settings) (ha : t.share.allotment = s.share.allotment) (counts : Nat) (capped silence : Bool) :
    t.sessionAfterRound counts capped silence = s.sessionAfterRound counts capped silence := by
  funext x
  have hcfg : t.cfg = s.cfg := by simp only [State.cfg, hset]
  have hrem : ∀ y, t.remaining y = s.remaining y := fun y => by
    simp only [State.remaining, State.deliveredWh, State.whOf, hcfg]
  unfold State.sessionAfterRound
  simp only [hu, ha, hrem]

theorem State.stageRoundEnd_congr {s t : State} (hp : t.permission = s.permission) (hg : t.stage = s.stage)
    (ho : t.out.stage = s.out.stage) (ha : t.share.allotment = s.share.allotment) (hth : t.thermal = s.thermal) :
    t.stageRoundEnd.stage = s.stageRoundEnd.stage ∧ t.stageRoundEnd.out.stage = s.stageRoundEnd.out.stage := by
  unfold State.stageRoundEnd State.sendWord
  simp only [hp, hg, ho, ha, hth]
  exact ⟨trivial, trivial⟩

/-! ### What the parts done so far have done -/

/-- A claim the round-end work has formed: the state it was formed in. -/
structure State.WorkClaim (k after v : State) : Prop where
  stand : v.stand = k.stand
  settings : v.settings = k.settings
  allotment : v.share.allotment = k.share.allotment
  thermal : v.thermal = k.thermal
  meter : v.meter = k.meter
  session : v.session = k.session ∨ v.session = after.session

/-- Entry of the session's decision to a phase that re-forms the claim. -/
def State.Reforms (k after : State) : Prop := k.onLine = true ∧ after.phase ≠ k.phase ∧ after.phase.reforms = true

/-- A standing change that re-forms the claim. -/
def State.Restands (k : State) (before : Standing) : Prop := k.onLine = true ∧ k.stand.standing ≠ before

/-- The parts of `done` are done, from `k` to `e`; `after` is `k` with the session decided, and `g0` how far the line
engine had come from `s` to `k`. -/
structure State.TailRun (s k after : State) (g0 : SendProgress) (doMark : Bool) (before : Standing) (done : List TailPart)
    (e : State) : Prop where
  sends : ∃ (g : SendProgress) (a b : Bool), s.Sends e g ∧
    g = { g0 with
      late := a.toNat + b.toNat, backoffs := g.backoffs, drawn := g.drawn
      marked := g0.marked || (decide (.mark ∈ done) && doMark && k.timer.aligned) } ∧
    (a = true ↔ .reform ∈ done ∧ k.Restands before) ∧ (b = true ↔ .session ∈ done ∧ k.Reforms after) ∧
    (.post ∉ done → g.drawn = none) ∧
    (.post ∈ done → e.share.postOwed = false ∧ ∃ j, g.drawn = some j ∧
      e.share.postSlice = some (1 + prngValue (k.cfg.roundDiv - 3) (prngAfter j s.line.prng))) ∧
    (0 < g.late → ∃ v, e.Claimed v ∧ k.WorkClaim after v ∧ (b = true → v.session = after.session))
  session : e.session = if .session ∈ done then after.session else k.session
  reports : k.Reports e
  stage : .session ∉ done → e.stage = k.stage ∧ e.out = k.out
  staged : .session ∈ done → e.stage = after.stageRoundEnd.stage ∧ e.out.stage = after.stageRoundEnd.out.stage
  outLine : e.out.line = k.out.line
  allotment : e.share.allotment = k.share.allotment
  whole : e = { k with
    session := e.session, stage := e.stage, share := e.share, line := e.line, out := e.out }

section
variable {s k after : State} {g0 : SendProgress} {doMark : Bool} {before : Standing} {counts : Nat} {capped silence : Bool}

theorem State.TailRun.start (hs : s.Sends k g0) (hl : g0.late = 0) (hd : g0.drawn = none) :
    State.TailRun s k after g0 doMark before [] k where
  sends := ⟨g0, false, false, hs, by cases g0; simp_all, by simp, by simp, fun _ => hd, by simp, fun h => by omega⟩
  session := by simp
  reports := State.Reports.of_still rfl rfl
  stage _ := ⟨rfl, rfl⟩
  staged h := by simp at h
  outLine := rfl
  allotment := rfl
  whole := rfl

variable {done : List TailPart} {e : State} (h : State.TailRun s k after g0 doMark before done e)
include h

theorem State.TailRun.post (hn : TailPart.post ∉ done) :
    State.TailRun s k after g0 doMark before (.post :: done) e.drawPostSlice := by
  obtain ⟨g, a, b, hs, hg, ha, hb, hno, -, hclaim⟩ := h.sends
  have hcfg : e.cfg = k.cfg := by rw [h.whole]; rfl
  have hline := hs.line.draw (hno hn) (k := e.drawPostSlice.line) rfl
  refine {
    sends := ⟨_, a, b, hs.step hline rfl rfl rfl, ?_, by simpa using ha, by simpa using hb, by simp, fun _ => ⟨rfl, _, rfl, ?_⟩,
      fun hp => ?_⟩
    session := by rw [State.drawPostSlice_session, h.session]; simp
    reports := by
      have hr := h.reports
      unfold State.Reports at hr ⊢
      rw [State.phase_congr (State.drawPostSlice_session e), State.holds_congr (State.drawPostSlice_session e),
        State.phaseRecord_congr (State.drawPostSlice_session e), State.drawPostSlice_out]
      exact hr
    stage := fun hm => by
      rw [State.drawPostSlice_stage, State.drawPostSlice_out]
      exact h.stage (by simpa using hm)
    staged := fun hm => by
      rw [State.drawPostSlice_stage, State.drawPostSlice_out]
      exact h.staged (by simpa using hm)
    outLine := by rw [State.drawPostSlice_out]; exact h.outLine
    allotment := h.allotment
    whole := by
      obtain ⟨l, sh, hd⟩ := e.drawPostSlice_frame
      rw [hd, h.whole] }
  · rw [hg]; simp
  · rw [← hcfg, (State.drawPostSlice_draw e).1, Nat.add_comm, hs.line.prng]; rfl
  · obtain ⟨v, hv, hw, hb'⟩ := hclaim hp
    exact ⟨v, hv.of_same rfl rfl rfl, hw, hb'⟩

theorem State.TailRun.mark (hm : doMark = true → g0.natural = true) :
    State.TailRun s k after g0 doMark before (.mark :: done) (if doMark then e.placeMark else e) := by
  obtain ⟨g, a, b, hs, hg, ha, hb, hno, hpost, hclaim⟩ := h.sends
  have hal : e.timer.aligned = k.timer.aligned := by rw [h.whole]
  obtain ⟨w, hw, hwl⟩ : ∃ w : State, (if doMark then e.placeMark else e) = w ∧ w = { e with line := w.line } := by
    refine ⟨_, rfl, ?_⟩
    cases doMark with
    | false => rfl
    | true =>
      obtain ⟨l, hl⟩ := e.placeMark_frame
      rw [if_pos rfl, hl]
  have hshare : w.share = e.share := by rw [hwl]
  have hsess : w.session = e.session := by rw [hwl]
  have hout : w.out = e.out := by rw [hwl]
  have hstage : w.stage = e.stage := by rw [hwl]
  have hslot : w.line.outbox.claim = e.line.outbox.claim := by
    rw [← hw]
    split
    · cases ht : e.timer.aligned with
      | false => rw [State.placeMark_of_unaligned ht]
      | true => rw [(State.placeMark_of_aligned ht).inSlot]; rfl
    · rfl
  have hsends : ∃ g' : SendProgress, s.Sends w g' ∧ g' = { g with
      backoffs := g'.backoffs, marked := g.marked || (doMark && k.timer.aligned) } := by
    cases hmk : doMark && k.timer.aligned with
    | false =>
      have hwe : w = e := by
        rw [← hw]
        split
        · next hc => rw [hc, Bool.true_and] at hmk; exact State.placeMark_of_unaligned (hal.trans hmk)
        · rfl
      exact ⟨g, by rw [hwe]; exact hs, by simp⟩
    | true =>
      rw [Bool.and_eq_true] at hmk
      have hpl := State.placeMark_of_aligned (hal.trans hmk.2)
      rw [if_pos hmk.1] at hw
      rw [hw] at hpl
      have hnat : g.natural = true := by rw [hg]; exact hm hmk.1
      refine ⟨_, hs.step (hs.line.placeMark hpl hnat rfl) rfl (by rw [hshare]) (by rw [hshare]), ?_⟩
      simp [SendProgress.mark]
  obtain ⟨g', hs', hg'⟩ := hsends
  rw [hw]
  refine {
    sends := ⟨g', a, b, hs', ?_, by simpa using ha, by simpa using hb, fun hn => by rw [hg']; exact hno (by simpa using hn),
      fun hp => by rw [hg', hshare]; exact hpost (by simpa using hp), fun hp => ?_⟩
    session := by rw [hsess, h.session]; simp
    reports := by
      have hr := h.reports
      unfold State.Reports at hr ⊢
      rw [State.phase_congr hsess, State.holds_congr hsess, State.phaseRecord_congr hsess, hout]
      exact hr
    stage := fun hn => by rw [hstage, hout]; exact h.stage (by simpa using hn)
    staged := fun hn => by rw [hstage, hout]; exact h.staged (by simpa using hn)
    outLine := by rw [hout]; exact h.outLine
    allotment := by rw [hshare]; exact h.allotment
    whole := by rw [hwl, h.whole] }
  · rw [hg', hg]
    cases g0.marked <;> cases decide (TailPart.mark ∈ done) <;> cases doMark <;> cases k.timer.aligned <;> simp
  · rw [hg'] at hp
    obtain ⟨v, hv, hw', hb'⟩ := hclaim hp
    exact ⟨v, hv.of_same (by rw [hshare]) (by rw [hshare]) hslot, hw', hb'⟩

/-- What the state is that a claim of the work would be formed in. -/
theorem State.TailRun.workClaim {v : State} (hv : v = { e with session := v.session })
    (hx : v.session = k.session ∨ v.session = after.session) : k.WorkClaim after v where
  stand := by rw [hv, h.whole]
  settings := by rw [hv, h.whole]
  allotment := by rw [hv]; exact h.allotment
  thermal := by rw [hv, h.whole]
  meter := by rw [hv, h.whole]
  session := hx

theorem State.TailRun.reform (hd : g0.discarded = true)
    (hn : TailPart.reform ∉ done) :
    State.TailRun s k after g0 doMark before (.reform :: done) (e.reformIfChanged before) := by
  obtain ⟨g, a, b, hs, hg, ha, hb, hno, hpost, hclaim⟩ := h.sends
  have hst : e.stand = k.stand := by rw [h.whole]
  have hon : e.onLine = k.onLine := State.onLine_congr (by rw [hst])
  have hafalse : a = false := Bool.eq_false_iff.2 fun hc => hn (ha.1 hc).1
  obtain ⟨c, hc⟩ : ∃ c : Bool, c = true ↔ k.Restands before := by
    by_cases hr : k.Restands before
    · exact ⟨true, by simp [hr]⟩
    · exact ⟨false, by simp [hr]⟩
  have hforms : e.Forms (e.reformIfChanged before) (if c then some e else none) := by
    unfold State.reformIfChanged
    split
    · next he =>
      have : c = false := Bool.eq_false_iff.2 fun hcc => (hc.1 hcc).2 (by rw [← hst]; exact he)
      rw [this]
      exact .still rfl rfl
    · next he =>
      have hce : c = e.onLine := by
        rw [Bool.eq_iff_iff, hc, hon]
        exact ⟨fun x => x.1, fun x => ⟨x, by rw [← hst]; exact he⟩⟩
      rw [hce]
      exact e.formClaim_forms
  obtain ⟨hsess, hstage, hout, hwhole, hpo, hps, hal⟩ : (e.reformIfChanged before).session = e.session ∧
      (e.reformIfChanged before).stage = e.stage ∧ (e.reformIfChanged before).out = e.out ∧
      (e.reformIfChanged before) = { e with
        share := (e.reformIfChanged before).share, line := (e.reformIfChanged before).line } ∧
      (e.reformIfChanged before).share.postOwed = e.share.postOwed ∧
      (e.reformIfChanged before).share.postSlice = e.share.postSlice ∧
      (e.reformIfChanged before).share.allotment = e.share.allotment := by
    obtain ⟨sh, l, hf⟩ := e.reformIfChanged_frame before
    exact ⟨by rw [hf], by rw [hf], by rw [hf], by rw [hf], by rw [hforms.share_rest], by rw [hforms.share_rest],
      by rw [hforms.share_rest]⟩
  have hs' := hs.forms hforms
  have hdisc : g.discarded = true := by rw [hg]; exact hd
  have hg' : g.after (if c then some e else none) e.line.sender.isIdle = { g with
      late := g.late + c.toNat
      backoffs := (g.after (if c then some e else none) e.line.sender.isIdle).backoffs } := by
    cases c with
    | false => rfl
    | true => simp [SendProgress.after, SendProgress.claim, hdisc]
  refine {
    sends := ⟨_, c, b, hs', ?_, by rw [hc]; simp, by simpa using hb, fun hnp => by
      rw [hg']; exact hno (by simpa using hnp), fun hp => ?_, fun hp => ?_⟩
    session := by rw [hsess, h.session]; simp
    reports := by
      have hr := h.reports
      unfold State.Reports at hr ⊢
      rw [State.phase_congr hsess, State.holds_congr hsess, State.phaseRecord_congr hsess, hout]
      exact hr
    stage := fun hm => by rw [hstage, hout]; exact h.stage (by simpa using hm)
    staged := fun hm => by rw [hstage, hout]; exact h.staged (by simpa using hm)
    outLine := by rw [hout]; exact h.outLine
    allotment := hal.trans h.allotment
    whole := by rw [hwhole, h.whole] }
  · rw [hg', hg, hafalse]
    simp [Nat.add_comm]
  · rw [hg', hpo, hps]
    exact hpost (by simpa using hp)
  · cases c with
    | true =>
      refine ⟨e, State.Forms.claimed (by simpa using hforms), h.workClaim rfl ?_, fun hbt => ?_⟩
      · rw [h.session]
        split
        · exact .inr rfl
        · exact .inl rfl
      · rw [h.session, if_pos (hb.1 hbt).1]
    | false =>
      rw [hg'] at hp
      obtain ⟨v, hv, hw', hb'⟩ := hclaim hp
      obtain ⟨h1, h2⟩ := (by simpa using hforms : e.Forms (e.reformIfChanged before) none).of_none
      exact ⟨v, hv.of_same (by rw [h1]) (by rw [h1]) (by rw [h2]), hw', hb'⟩

omit h in
theorem State.TailRun.session_ (h : State.TailRun s k after g0 doMark before done e) (hd : g0.discarded = true)
    (hafter : after = { k with session := k.sessionDecided counts capped silence }) (hn : TailPart.session ∉ done) :
    State.TailRun s k after g0 doMark before (.session :: done) ((e.sessionRoundEnd counts capped silence).stageRoundEnd) := by
  obtain ⟨g, a, b, hs, hg, ha, hb, hno, hpost, hclaim⟩ := h.sends
  have hafter' : after = { k with session := after.session } := by rw [hafter]
  have hst : e.stand = k.stand := by rw [h.whole]
  have hset : e.settings = k.settings := by rw [h.whole]
  have hon : e.onLine = k.onLine := State.onLine_congr (by rw [hst])
  have hbfalse : b = false := Bool.eq_false_iff.2 fun hc => hn (hb.1 hc).1
  have hes : e.session = k.session := by rw [h.session, if_neg hn]
  obtain ⟨heg, heo⟩ := h.stage hn
  have hdec : e.sessionDecided counts capped silence = after.session := by
    rw [hafter]
    unfold State.sessionDecided
    rw [hes, State.sessionAfterRound_congr (by rw [hst]) hset h.allotment]
  obtain ⟨o, hrep, hforms, hsess, hformed, hv, hol, hos⟩ := e.sessionRoundEnd_part counts capped silence
  rw [hdec] at hsess hv
  have hphase : (e.sessionRoundEnd counts capped silence).phase = after.phase := State.phase_congr hsess
  have hformed' : o ≠ none ↔ k.Reforms after := by
    rw [hformed, hon, hphase, State.phase_congr hes]; exact Iff.rfl
  obtain ⟨se, ou, sh, li, hf⟩ := e.sessionRoundEnd_frame counts capped silence
  have hforms' : e.Forms (e.sessionRoundEnd counts capped silence).stageRoundEnd o :=
    hforms.before_still (State.stageRoundEnd_share _) (State.stageRoundEnd_line _)
  have hs' := hs.forms hforms'
  have hdisc : g.discarded = true := by rw [hg]; exact hd
  have hsame : (e.sessionRoundEnd counts capped silence).stageRoundEnd.session = after.session := hsess
  have hal : (e.sessionRoundEnd counts capped silence).stageRoundEnd.share.allotment = e.share.allotment := by
    rw [hforms'.share_rest]
  have hps : (e.sessionRoundEnd counts capped silence).stageRoundEnd.share.postSlice = e.share.postSlice := by
    rw [hforms'.share_rest]
  have hpo : (e.sessionRoundEnd counts capped silence).stageRoundEnd.share.postOwed = e.share.postOwed := by
    rw [hforms'.share_rest]
  obtain ⟨c, hc⟩ : ∃ c : Bool, c = true ↔ o ≠ none := by
    cases o with
    | none => exact ⟨false, by simp⟩
    | some v => exact ⟨true, by simp⟩
  have hg' : g.after o e.line.sender.isIdle = { g with
      late := g.late + c.toNat, backoffs := (g.after o e.line.sender.isIdle).backoffs } := by
    cases o with
    | none =>
      have : c = false := Bool.eq_false_iff.2 fun hcc => hc.1 hcc rfl
      rw [this]; rfl
    | some v =>
      have : c = true := hc.2 (Option.some_ne_none v)
      rw [this]
      simp [SendProgress.after, SendProgress.claim, hdisc]
  refine {
    sends := ⟨_, a, c, hs', ?_, by simpa using ha, by rw [hc, hformed']; simp, fun hnp => by
      rw [hg']; exact hno (by simpa using hnp), fun hp => ?_, fun hp => ?_⟩
    session := by rw [hsame]; simp
    reports := ?_
    stage := fun hm => by simp at hm
    staged := fun _ => ?_
    outLine := ?_
    allotment := hal.trans h.allotment
    whole := ?_ }
  · rw [hg', hg, hbfalse]
    simp
  · rw [hg', hpo, hps]
    exact hpost (by simpa using hp)
  · cases o with
    | some v =>
      have hvv := hv v rfl
      refine ⟨v, hforms'.claimed, h.workClaim (by rw [hvv]) (.inr (by rw [hvv])), fun _ => by rw [hvv]⟩
    | none =>
      have hcf : c = false := Bool.eq_false_iff.2 fun hcc => hc.1 hcc rfl
      obtain ⟨h1, h2⟩ := hforms'.of_none
      rw [hg', hcf] at hp
      obtain ⟨v, hv', hw', -⟩ := hclaim hp
      exact ⟨v, hv'.of_same (by rw [h1]) (by rw [h1]) (by rw [h2]), hw', fun hbt => by rw [hcf] at hbt; cases hbt⟩
  · have hr := hrep
    unfold State.Reports at hr ⊢
    rw [State.phase_congr hes, State.holds_congr hes, heo] at hr
    exact hr
  · refine State.stageRoundEnd_congr ?_ ?_ ?_ ?_ ?_
    · refine State.permission_congr (hsess) ?_ ?_
      · rw [hf, h.whole, hafter]
      · rw [hf]; show e.stand.standing = _; rw [hst, hafter]
    · rw [hf, hafter]; exact heg
    · rw [hos, heo, hafter]
    · show (e.sessionRoundEnd counts capped silence).stageRoundEnd.share.allotment = _
      rw [hal, h.allotment, hafter]
    · rw [hf, h.whole, hafter]
  · show (e.sessionRoundEnd counts capped silence).out.line = _
    rw [hol]; exact h.outLine
  · have : (e.sessionRoundEnd counts capped silence).stageRoundEnd = { e with
        session := (e.sessionRoundEnd counts capped silence).stageRoundEnd.session
        stage := (e.sessionRoundEnd counts capped silence).stageRoundEnd.stage
        share := (e.sessionRoundEnd counts capped silence).stageRoundEnd.share
        line := (e.sessionRoundEnd counts capped silence).stageRoundEnd.line
        out := (e.sessionRoundEnd counts capped silence).stageRoundEnd.out } := by rw [hf]; rfl
    rw [this, h.whole]

end

end Sys2Proof.Machine
end

section
/-! Stage control through the parts of a slice end that form M_eff or change the session (R111 to R113, R117, R121). -/

namespace Sys2Proof.Machine

/-! ### The demand words sent -/

/-- From `u` to `t` demand words go out, and the last of them is the word sent. -/
def State.Words (u t : State) : Prop := ∃ ws, t.out.stage = u.out.stage ++ ws ∧
  (ws = [] → t.stage.wordSent = u.stage.wordSent) ∧ (ws ≠ [] → ws.getLast? = some t.stage.wordSent)

theorem State.Words.of_same {u t : State} (hg : t.stage.wordSent = u.stage.wordSent) (ho : t.out.stage = u.out.stage) :
    u.Words t := ⟨[], by rw [ho, List.append_nil], fun _ => hg, fun h => absurd rfl h⟩

theorem State.Words.trans {u t w : State} (h1 : u.Words t) (h2 : t.Words w) : u.Words w := by
  obtain ⟨a, ha, hae, hal⟩ := h1
  obtain ⟨b, hb, hbe, hbl⟩ := h2
  refine ⟨a ++ b, by rw [hb, ha, List.append_assoc], fun h => ?_, fun h => ?_⟩
  · obtain ⟨h1, h2⟩ := List.append_eq_nil_iff.1 h
    rw [hbe h2, hae h1]
  · by_cases hn : b = []
    · rw [hbe hn, hn, List.append_nil]
      rw [hn, List.append_nil] at h
      exact hal h
    · rw [List.getLast?_append_of_ne_nil _ hn]
      exact hbl hn

theorem State.SendsDue.words {u t : State} (h : u.SendsDue t) : u.Words t := by
  refine ⟨_, h.sent, fun hn => ?_, fun hn => ?_⟩
  · by_contra hc
    rw [if_neg hc] at hn
    cases hn
  · split at hn
    · exact absurd rfl hn
    · next hc => rw [if_neg hc]; rfl

/-! ### Stage control eased -/

/-- A slice driven so far has ENABLE on and a word above 0 sent (R121). -/
def State.DrivenSafe (s : State) : Prop :=
  s.stage.sliceDriven = true → s.stage.enable = true ∧ 0 < s.stage.wordSent

/-- ENABLE is the permission, the word due is sent, and the slice is driven so far as they say. -/
structure State.Settled (s : State) : Prop where
  enable : s.stage.enable = s.permission
  word : s.stage.wordSent = s.stage.word
  driven : s.stage.sliceDriven = true ↔ s.stage.enable = true ∧ 0 < s.stage.wordSent

/-- Without permission nothing is applied or waits. -/
def State.Stopped (s : State) : Prop :=
  s.permission = false → s.stage.applied = 0 ∧ s.stage.pendingIncrease = none

/-- From `u` to `t` M_eff is formed if `scanned`, and permission may be lost: the power falls and nothing is started. -/
structure State.Slackens (scanned : Bool) (u t : State) : Prop where
  lagSlice : t.stage.lagSlice = u.stage.lagSlice
  owed : t.stage.startOwed = u.stage.startOwed
  words : u.Words t
  undriven : t.stage.sliceDriven = true → u.stage.sliceDriven = true
  safe : u.DrivenSafe → t.DrivenSafe
  enabled : u.stage.enable = u.permission → t.stage.enable = t.permission
  settled : u.Settled → t.Settled
  stopped : u.Stopped → t.Stopped
  permits : t.permission = true → u.permission = true
  on : t.permission = true → t.stage.pendingIncrease = u.stage.pendingIncrease ∧
    t.stage.applied = if scanned then min u.stage.applied t.thermal.mEff else u.stage.applied
  off : u.permission = true → t.permission = false →
    t.stage.applied = 0 ∧ t.stage.pendingIncrease = none ∧ t.stage.enable = false
  kept : u.permission = false → u.stage.enable = false → t.stage.enable = false
  less : t.stage.applied ≤ u.stage.applied
  cool : scanned = true → t.stage.applied ≤ t.thermal.mEff
  thermal : scanned = false → t.thermal = u.thermal

/-- The same, with the cap state as it was. -/
structure State.Eases (scanned : Bool) (u t : State) : Prop extends State.Slackens scanned u t where
  cap : t.stage.cap = u.stage.cap

theorem State.Eases.of_same {u t : State} (hg : t.stage = u.stage) (ho : t.out.stage = u.out.stage)
    (hp : t.permission = u.permission) (hth : t.thermal = u.thermal) : State.Eases false u t where
  cap := by rw [hg]
  lagSlice := by rw [hg]
  owed := by rw [hg]
  words := .of_same (by rw [hg]) ho
  undriven := by rw [hg]; exact id
  safe := by unfold State.DrivenSafe; rw [hg]; exact id
  enabled := by rw [hg, hp]; exact id
  settled := fun ⟨h1, h2, h3⟩ => ⟨by rw [hg, hp]; exact h1, by rw [hg]; exact h2, by rw [hg]; exact h3⟩
  stopped := by unfold State.Stopped; rw [hg, hp]; exact id
  permits := by rw [hp]; exact id
  on _ := by rw [hg]; exact ⟨rfl, rfl⟩
  off h1 h2 := by rw [hp, h1] at h2; cases h2
  kept _ h := by rw [hg]; exact h
  less := by rw [hg]
  cool := nofun
  thermal _ := hth

theorem State.Slackens.trans {a b : Bool} {u t w : State} (h1 : State.Slackens a u t) (h2 : State.Slackens b t w)
    (hab : a = true → b = false) : State.Slackens (a || b) u w where
  lagSlice := h2.lagSlice.trans h1.lagSlice
  owed := h2.owed.trans h1.owed
  words := h1.words.trans h2.words
  undriven := h1.undriven ∘ h2.undriven
  safe := h2.safe ∘ h1.safe
  enabled := h2.enabled ∘ h1.enabled
  settled := h2.settled ∘ h1.settled
  stopped := h2.stopped ∘ h1.stopped
  permits := h1.permits ∘ h2.permits
  on hw := by
    obtain ⟨hp2, ha2⟩ := h2.on hw
    obtain ⟨hp1, ha1⟩ := h1.on (h2.permits hw)
    refine ⟨hp2.trans hp1, ?_⟩
    rw [ha2, ha1]
    cases a with
    | false => rfl
    | true =>
      rw [hab rfl, h2.thermal (hab rfl)]; rfl
  off hu hw := by
    cases ht : t.permission with
    | true => exact h2.off ht hw
    | false =>
      obtain ⟨ha, hp, he⟩ := h1.off hu ht
      obtain ⟨ha2, hp2⟩ := h2.stopped (fun _ => ⟨ha, hp⟩) hw
      exact ⟨ha2, hp2, h2.kept ht he⟩
  kept hp he := h2.kept (Bool.eq_false_iff.2 fun ht => by rw [h1.permits ht] at hp; cases hp) (h1.kept hp he)
  less := h2.less.trans h1.less
  cool hc := by
    cases b with
    | true => exact h2.cool rfl
    | false =>
      rw [Bool.or_false] at hc
      rw [h2.thermal rfl]
      exact h2.less.trans (h1.cool hc)
  thermal hf := by
    rw [Bool.or_eq_false_iff] at hf
    rw [h2.thermal hf.2, h1.thermal hf.1]

theorem State.Eases.trans {a b : Bool} {u t w : State} (h1 : State.Eases a u t) (h2 : State.Eases b t w)
    (hab : a = true → b = false) : State.Eases (a || b) u w :=
  { h1.toSlackens.trans h2.toSlackens hab with cap := h2.cap.trans h1.cap }

/-- Where the word due is sent after an event that keeps the permission or loses it. -/
theorem State.SendsDue.safe {u t : State} (h : u.SendsDue t) : u.DrivenSafe → t.DrivenSafe := fun hs hd => by
  obtain ⟨h1, h2, h3⟩ := h.driven.1 hd
  refine ⟨h2, h3.elim (fun e => ?_) id⟩
  rw [e]
  exact (hs h1).2

theorem State.SendsDue.settled {u t : State} (h : u.SendsDue t) (hu : u.Settled) (he : t.stage.enable = t.permission)
    (hp : t.permission = true → u.permission = true) (hl : t.stage.applied ≤ u.stage.applied) : t.Settled where
  enable := he
  word := by rw [h.word, StageControl.word, h.cap]
  driven := by
    rw [h.driven]
    constructor
    · rintro ⟨h1, h2, h3⟩
      refine ⟨h2, h3.elim (fun e => ?_) id⟩
      rw [e]
      exact (hu.driven.1 h1).2
    · rintro ⟨h1, h2⟩
      have hpos : 0 < u.stage.wordSent := by
        rw [hu.word, StageControl.word]
        rw [h.word] at h2
        split at h2
        · exact absurd h2 (Nat.lt_irrefl 0)
        · next hc => rw [if_neg hc]; omega
      exact ⟨hu.driven.2 ⟨by rw [hu.enable]; exact hp (he ▸ h1), hpos⟩, h1, .inr h2⟩

/-- Permission evaluated after an event that left stage control and the words alone. -/
theorem State.evalPermission_eases {u v : State} (hg : v.stage = u.stage) (ho : v.out.stage = u.out.stage)
    (hth : v.thermal = u.thermal) (hp : v.permission = true → u.permission = true) :
    State.Eases false u v.evalPermission := by
  have hdue := State.evalPermission_after hg ho
  have hperm := v.evalPermission_permission
  have hless : v.evalPermission.stage.applied ≤ u.stage.applied := by
    cases hv : v.permission with
    | true => rw [(v.evalPermission_on hv).2.1, hg]
    | false => rw [(v.evalPermission_off hv).2.1]; exact Nat.zero_le _
  have henable : v.evalPermission.stage.enable = v.evalPermission.permission := by
    rw [hperm]
    cases hv : v.permission with
    | true => exact (v.evalPermission_on hv).1
    | false => exact (v.evalPermission_off hv).1
  have hpt : v.evalPermission.permission = true → u.permission = true := by rw [hperm]; exact hp
  exact {
    cap := hdue.cap
    lagSlice := hdue.lagSlice
    owed := hdue.owed
    words := hdue.words
    undriven := fun hd => (hdue.driven.1 hd).1
    safe := hdue.safe
    enabled := fun _ => henable
    settled := fun hu => hdue.settled hu henable hpt hless
    stopped := fun _ hv => by
      rw [hperm] at hv
      obtain ⟨-, ha, hi, -⟩ := v.evalPermission_off hv
      exact ⟨ha, hi⟩
    permits := hpt
    on := fun hv => by
      rw [hperm] at hv
      obtain ⟨-, ha, hi⟩ := v.evalPermission_on hv
      rw [ha, hi, hg]
      exact ⟨rfl, rfl⟩
    off := fun _ hv => by
      rw [hperm] at hv
      obtain ⟨he, ha, hi, -⟩ := v.evalPermission_off hv
      exact ⟨ha, hi, he⟩
    kept := fun hu _ => by rw [henable]; exact Bool.eq_false_iff.2 fun ht => by rw [hpt ht] at hu; cases hu
    less := hless
    cool := nofun
    thermal := fun _ => by rw [State.evalPermission_thermal]; exact hth }

theorem State.changeSession_eases {u : State} {y : Option Session}
    (hp : ({ u with session := y } : State).permission = true → u.permission = true) :
    State.Eases false u (u.changeSession y) := by
  obtain ⟨v, hv, hwhole, -⟩ := u.changeSession_spec y
  have hpv : v.permission = ({ u with session := y } : State).permission := by
    refine State.permission_congr ?_ ?_ ?_ <;> rw [hwhole]
  rw [hv]
  refine State.evalPermission_eases ?_ ?_ ?_ (by rw [hpv]; exact hp) <;> rw [hwhole]

/-- A phase that draws is not one a hold reason has been put to. -/
theorem Phase.draws_of_afterHold {p : Phase} (h : p.afterHold.draws = true) : p.draws = true := by
  cases p <;> first | exact h | cases h

theorem State.permission_of_phase {u t : State} (hph : t.phase.draws = true → u.phase.draws = true)
    (hp : t.pins.permit = u.pins.permit) (hs : t.stand.standing = u.stand.standing) :
    t.permission = true → u.permission = true := by
  unfold State.permission
  rw [hp, hs, Bool.and_eq_true, Bool.and_eq_true, Bool.and_eq_true, Bool.and_eq_true]
  exact fun ⟨⟨h1, h2⟩, h3⟩ => ⟨⟨hph h1, h2⟩, h3⟩

theorem State.addHold_eases (r : HoldReason) (u : State) : State.Eases false u (u.addHold r) := by
  cases hx : u.session with
  | none => rw [State.addHold_none r u hx]; exact .of_same rfl rfl rfl rfl
  | some x =>
    cases hr : x.holds.has r with
    | true => rw [State.addHold_present hx hr]; exact .of_same rfl rfl rfl rfl
    | false =>
      rw [State.addHold_absent hx hr]
      refine State.changeSession_eases (State.permission_of_phase ?_ rfl rfl)
      rw [State.phase_of hx]
      exact Phase.draws_of_afterHold

theorem State.removeHold_eases (r : HoldReason) (u : State) : State.Eases false u (u.removeHold r) := by
  cases hx : u.session with
  | none => rw [State.removeHold_none r u hx]; exact .of_same rfl rfl rfl rfl
  | some x =>
    cases hr : x.holds.has r with
    | false => rw [State.removeHold_absent hx hr]; exact .of_same rfl rfl rfl rfl
    | true =>
      rw [State.removeHold_present hx hr]
      refine State.changeSession_eases (State.permission_of_phase ?_ rfl rfl)
      rw [State.phase_of hx]
      exact id

theorem State.permitTest_eases (u : State) : State.Eases false u u.permitTest := by
  unfold State.permitTest
  split
  · exact .of_same rfl rfl rfl rfl
  · exact State.addHold_eases _ _

theorem State.topIfReached_eases (u : State) : State.Eases false u u.topIfReached := by
  unfold State.topIfReached
  split
  · exact .of_same rfl rfl rfl rfl
  · split
    · exact State.changeSession_eases (State.permission_of_phase nofun rfl rfl)
    · exact .of_same rfl rfl rfl rfl

/-- M_eff formed, and the power clamped to it (R117, R145). -/
theorem State.scanReads_eases (u : State) : State.Eases true u u.scanReads := by
  obtain ⟨b, w, hth, hst, -⟩ := State.refreshMEff_spec ({ u with thermal := u.scanned } : State)
  obtain ⟨hsess, -, -, -, -, -, hwhole⟩ := u.scanReads_still
  have hdue : u.SendsDue u.scanReads :=
    (State.refreshMEff_sendsDue ({ u with thermal := u.scanned } : State)).of_same rfl rfl
  have hperm : u.scanReads.permission = u.permission := State.permission_congr hsess (by rw [hwhole]) (by rw [hwhole])
  have happ : u.scanReads.stage.applied = min u.stage.applied u.scanReads.thermal.mEff := by
    have h1 : u.scanReads.stage = _ := hst
    have h2 : u.scanReads.thermal = _ := hth
    rw [h1, h2]
  have hpend : u.scanReads.stage.pendingIncrease = u.stage.pendingIncrease := by
    have h1 : u.scanReads.stage = _ := hst
    rw [h1]
  have hen : u.scanReads.stage.enable = u.stage.enable := by
    have h1 : u.scanReads.stage = _ := hst
    rw [h1]
  have hless : u.scanReads.stage.applied ≤ u.stage.applied := happ ▸ Nat.min_le_left _ _
  exact {
    cap := hdue.cap
    lagSlice := hdue.lagSlice
    owed := hdue.owed
    words := hdue.words
    undriven := fun hd => (hdue.driven.1 hd).1
    safe := hdue.safe
    enabled := by rw [hen, hperm]; exact id
    settled := fun hu => hdue.settled hu (by rw [hen, hperm]; exact hu.enable) (by rw [hperm]; exact id) hless
    stopped := fun hu hv => by
      rw [hperm] at hv
      rw [happ, hpend, (hu hv).1, (hu hv).2]
      exact ⟨Nat.zero_min _, rfl⟩
    permits := by rw [hperm]; exact id
    on := fun _ => ⟨hpend, happ⟩
    off := fun h1 h2 => by rw [hperm, h1] at h2; cases h2
    kept := fun _ he => hen.trans he
    less := hless
    cool := fun _ => happ ▸ Nat.min_le_right _ _
    thermal := nofun }

theorem State.thermalHold_eases (u : State) : State.Eases false u u.thermalHold := by
  unfold State.thermalHold
  split
  · exact .of_same rfl rfl rfl rfl
  · split
    · exact State.addHold_eases _ _
    · split
      · exact State.removeHold_eases _ _
      · exact .of_same rfl rfl rfl rfl

theorem State.scan_eases (u : State) : State.Eases true u u.scan := by
  rw [State.scan_eq]
  exact u.scanReads_eases.trans (State.thermalHold_eases _) fun _ => rfl

theorem HoldParts.eases {a b : Bool} {u t : State} (h : HoldParts a b u t) : State.Eases a u t := by
  induction h with
  | none s => exact .of_same rfl rfl rfl rfl
  | scan _ ih => exact ih.trans (State.scan_eases _) nofun
  | permit _ ih => simpa using ih.trans (State.permitTest_eases _) fun _ => rfl

end Sys2Proof.Machine
end

section
/-! The whole round-end work, from the state it starts in to the one it leaves (R3, R6, R34, R57, R59, R66, R74, R89,
R114, R128, R129, R158, R163). -/

namespace Sys2Proof.Machine

theorem State.meterSliceEnd_words (u : State) : u.Words u.meterSliceEnd := by
  unfold State.meterSliceEnd State.ceilingTest
  split
  · have h := State.sendIfChanged_sendsDue (s := ({ u with
        meter := { u.meter with
          roundCount := satAdd Config.top16 u.meter.roundCount u.meter.sliceCount, sliceCount := 0, capped := true }
        stage := { u.stage with cap := true } } : State)) (t := ({ u with
        meter := { u.meter with
          roundCount := satAdd Config.top16 u.meter.roundCount u.meter.sliceCount, sliceCount := 0, capped := true }
        stage := { u.stage with cap := true } } : State)) rfl rfl
    exact (State.Words.of_same (t := ({ u with
        meter := { u.meter with
          roundCount := satAdd Config.top16 u.meter.roundCount u.meter.sliceCount, sliceCount := 0, capped := true }
        stage := { u.stage with cap := true } } : State)) rfl rfl).trans h.words
  · exact .of_same rfl rfl

/-- The state the allotment leaves, with the session's decision made on it. -/
def State.decidedFrom (u k : State) : State := { k with
  session := k.sessionDecided u.meterSliceEnd.meter.roundCount u.meterSliceEnd.meter.capped u.meterSliceEnd.meter.silent }

/-- The own MARK goes first, before the CLAIM is discarded. -/
def State.marksFirst (u : State) (n : Bool) (c : Nat) : Bool := n && u.timer.aligned && decide (c % 2 = 1)

/-- The state the round-end work has come to with the allotment chosen. -/
def State.coreOf (u : State) (n : Bool) (c : Nat) : State := u.roundEndCore (u.marksFirst n c)

/-- The round-end work from `u` to `v`, `k` being the state with the allotment chosen; the line engine had come as far
as `g0` from `s` to `u`. -/
structure State.WorkRun (s u k v : State) (g0 : SendProgress) (n : Bool) : Prop where
  core : ∃ m l, State.RoundCore u k m l
  sends : ∃ (g : SendProgress) (j : Nat) (a b : Bool), s.Sends v g ∧
    g = { g0 with
      late := a.toNat + b.toNat, backoffs := g.backoffs, drawn := some j, discarded := true
      marked := g0.marked || (n && k.timer.aligned) } ∧
    v.share.postSlice = some (1 + prngValue (u.cfg.roundDiv - 3) (prngAfter j s.line.prng)) ∧
    (a = true ↔ k.Restands u.stand.standing) ∧ (b = true ↔ k.Reforms (u.decidedFrom k))
  still : ¬ k.Restands u.stand.standing → ¬ k.Reforms (u.decidedFrom k) →
    v.share.ownClaim = u.share.ownClaim ∧ v.share.sequence = u.share.sequence
  claimed : k.Restands u.stand.standing ∨ k.Reforms (u.decidedFrom k) → ∃ w, v.Claimed w ∧
    k.WorkClaim (u.decidedFrom k) w ∧ (k.Reforms (u.decidedFrom k) → w.session = (u.decidedFrom k).session)
  session : v.session = (u.decidedFrom k).session
  reports : u.Reports v
  stage : v.stage = (u.decidedFrom k).stageRoundEnd.stage
  words : ∃ ws, v.out.stage = u.out.stage ++ ws ∧ ws.getLast? = some v.stage.wordSent
  outLine : v.out.line = u.out.line
  allotment : v.share.allotment = k.share.allotment
  postOwed : v.share.postOwed = false
  meter : v.meter = { k.meter with
    ceiling := some (ceilingFor k.share.allotment (u.cfg.sliceDiv * u.cfg.roundDiv) u.cfg.ppk u.cfg.edges)
    roundCount := 0, capped := false, allDriven := true }
  whole : v = { k with
    session := v.session, stage := v.stage, meter := v.meter, share := v.share, line := v.line, out := v.out }

/-- Up to the allotment. -/
theorem State.roundEndCore_sends {s u : State} {g0 : SendProgress} (h : s.Sends u g0) {n : Bool} (c : Nat)
    (hd : g0.discarded = false) (hn : n = true → g0.natural = true) : ∃ l g1,
    State.RoundCore u (u.coreOf n c) (u.marksFirst n c) l ∧ s.Sends (u.coreOf n c) g1 ∧
    g1 = { g0 with discarded := true, backoffs := g1.backoffs, marked := g0.marked || u.marksFirst n c } := by
  obtain ⟨l, hcore⟩ := u.roundEndCore_spec (markFirst := u.marksFirst n c) fun hm => by
    unfold State.marksFirst at hm
    rw [Bool.and_eq_true, Bool.and_eq_true] at hm
    exact hm.1.2
  have hshare : (u.coreOf n c).share.ownClaim = u.share.ownClaim ∧ (u.coreOf n c).share.sequence = u.share.sequence := by
    unfold State.coreOf
    rw [hcore.share]
    exact ⟨rfl, rfl⟩
  suffices hmid : ∃ g, s.line.Tracks l g ∧ g.claims = g0.claims ∧
      g = { g0 with backoffs := g.backoffs, marked := g0.marked || u.marksFirst n c } by
    obtain ⟨g, ht, hcl, hg⟩ := hmid
    refine ⟨l, { g with discarded := true }, hcore, ?_, by rw [hg]⟩
    exact h.step (ht.discard hcore.discards (by rw [hg]; exact hd)) hcl hshare.1 hshare.2
  have hm := hcore.mark
  cases hmf : u.marksFirst n c with
  | false =>
    rw [hmf, if_neg Bool.false_ne_true] at hm
    exact ⟨g0, by rw [hm]; exact h.line, rfl, by simp⟩
  | true =>
    rw [hmf, if_pos rfl] at hm
    have hnat : g0.natural = true := hn (by
      unfold State.marksFirst at hmf
      rw [Bool.and_eq_true, Bool.and_eq_true] at hmf
      exact hmf.1.1)
    exact ⟨_, h.line.placeMark hm hnat rfl, rfl, by simp [SendProgress.mark]⟩

section
variable {s u : State} {g0 : SendProgress} (h : s.Sends u g0) {n : Bool} (c : Nat)
  (hd : g0.discarded = false) (hdr : g0.drawn = none) (hn : n = true → g0.natural = true)
include h hd hdr hn

/-- The parts after it, all of them done. -/
theorem State.roundEndWork_tail : ∃ l g1 done e,
    State.RoundCore u (u.coreOf n c) (u.marksFirst n c) l ∧
    g1 = { g0 with discarded := true, backoffs := g1.backoffs, marked := g0.marked || u.marksFirst n c } ∧
    (∀ p : TailPart, p ∈ done) ∧
    State.TailRun s (u.coreOf n c) (u.decidedFrom (u.coreOf n c)) g1 (n && !u.marksFirst n c) u.stand.standing done e ∧
    u.roundEndWork n c = e.beginMeterRound := by
  obtain ⟨l, g1, hcore, hs, hg1⟩ := State.roundEndCore_sends h c hd hn
  have hlate : g1.late = 0 := by rw [hg1]; exact h.line.order hd
  have hdrawn : g1.drawn = none := by rw [hg1]; exact hdr
  have hdisc : g1.discarded = true := by rw [hg1]
  have hmark : (n && !u.marksFirst n c) = true → g1.natural = true := fun hm => by
    rw [hg1]
    rw [Bool.and_eq_true] at hm
    exact hn hm.1
  obtain ⟨done, hall, hrun⟩ := runTail (I := State.TailRun s (u.coreOf n c) (u.decidedFrom (u.coreOf n c)) g1
      (n && !u.marksFirst n c) u.stand.standing)
    (f := TailPart.run (n && !u.marksFirst n c) u.stand.standing u.meterSliceEnd.meter.roundCount
      u.meterSliceEnd.meter.capped u.meterSliceEnd.meter.silent)
    (fun done p e hp hI => by
      cases p with
      | post => exact hI.post hp
      | mark => exact hI.mark hmark
      | reform => exact hI.reform hdisc hp
      | session => exact hI.session_ hdisc rfl hp) (c / 2) (State.TailRun.start hs hlate hdrawn)
  exact ⟨l, g1, done, _, hcore, hg1, hall, hrun, rfl⟩

end

theorem State.roundEndWork_run {s u : State} {g0 : SendProgress} (h : s.Sends u g0) {n : Bool} (c : Nat)
    (hd : g0.discarded = false) (hdr : g0.drawn = none) (hn : n = true → g0.natural = true) :
    State.WorkRun s u (u.coreOf n c) (u.roundEndWork n c) g0 n := by
  obtain ⟨l, g1, done, e, hcore, hg1, hall, hrun, hv⟩ := State.roundEndWork_tail h c hd hdr hn
  obtain ⟨g, a, b, hs, hg, ha, hb, -, hpost, hclaim⟩ := hrun.sends
  obtain ⟨hpo, j, hj, hps⟩ := hpost (hall _)
  have ha' : a = true ↔ (u.coreOf n c).Restands u.stand.standing := by rw [ha]; simp [hall]
  have hb' : b = true ↔ (u.coreOf n c).Reforms (u.decidedFrom (u.coreOf n c)) := by rw [hb]; simp [hall]
  have hshare : (u.roundEndWork n c).share = e.share := by rw [hv]; rfl
  have hline : (u.roundEndWork n c).line = e.line := by rw [hv]; rfl
  have hsess : (u.roundEndWork n c).session = e.session := by rw [hv]; rfl
  have hstage : (u.roundEndWork n c).stage = e.stage := by rw [hv]; rfl
  have hout : (u.roundEndWork n c).out = e.out := by rw [hv]; rfl
  have hes : e.session = (u.decidedFrom (u.coreOf n c)).session := by rw [hrun.session, if_pos (hall _)]
  have hkcfg : (u.coreOf n c).cfg = u.cfg := by
    have := hcore.whole
    rw [this]; rfl
  have hksess : (u.coreOf n c).session = u.session := by
    have := hcore.whole
    rw [this]
  have hkout : (u.coreOf n c).out = u.meterSliceEnd.out := by
    have := hcore.whole
    rw [this]
  have hecfg : e.cfg = u.cfg := by
    rw [← hkcfg, hrun.whole]; rfl
  obtain ⟨m, -, -, -, hmlink, hmline, -⟩ := u.meterSliceEnd_spec
  refine {
    core := ⟨_, l, hcore⟩
    sends := ⟨g, j, a, b, hs.of_same hshare hline, ?_, by rw [hshare, hps, hkcfg], ha', hb'⟩
    still := fun hna hnb => ?_
    claimed := fun hc => ?_
    session := hsess.trans hes
    reports := ?_
    stage := hstage.trans (hrun.staged (hall _)).1
    words := ?_
    outLine := by rw [hout, hrun.outLine, hkout, hmline]
    allotment := by rw [hshare]; exact hrun.allotment
    postOwed := by rw [hshare]; exact hpo
    meter := ?_
    whole := ?_ }
  · rw [← hj]
    rw [hg]
    have hdm : decide (TailPart.mark ∈ done) = true := decide_eq_true (hall _)
    rw [hdm]
    have hmarked : (g1.marked || (true && (n && !u.marksFirst n c) && (u.coreOf n c).timer.aligned)) =
        (g0.marked || (n && (u.coreOf n c).timer.aligned)) := by
      have hg1m : g1.marked = (g0.marked || u.marksFirst n c) := by rw [hg1]
      rw [hg1m]
      cases hm : u.marksFirst n c with
      | false => simp
      | true =>
        unfold State.marksFirst at hm
        rw [Bool.and_eq_true, Bool.and_eq_true] at hm
        have hal : (u.coreOf n c).timer.aligned = true := by
          rw [hcore.timer, hm.1.2]; rfl
        rw [hal]
        simp [hm.1.1]
    rw [hmarked, hg1]
  · obtain ⟨l2, g2, done2, e2, hcore2, hg2, hall2, hrun2, hv2⟩ := State.roundEndWork_tail (State.Sends.refl u true)
      (n := n) c rfl rfl (fun _ => rfl)
    obtain ⟨g', a', b', hs', hg', ha2, hb2, -, -, -⟩ := hrun2.sends
    have hzero : g'.claims = 0 := by
      have h1 : a' = false := Bool.eq_false_iff.2 fun hc => hna (ha2.1 hc).2
      have h2 : b' = false := Bool.eq_false_iff.2 fun hc => hnb (hb2.1 hc).2
      rw [hg', h1, h2, hg2]; rfl
    have := hs'.kept hzero
    rw [hv2]
    exact this
  · have hpos : 0 < g.late := by
      rw [hg]
      show 0 < a.toNat + b.toNat
      rcases hc with hc | hc
      · rw [ha'.2 hc]; simp
      · rw [hb'.2 hc]; simp
    obtain ⟨w, hw, hwork, hbs⟩ := hclaim hpos
    exact ⟨w, hw.of_same (by rw [hshare]) (by rw [hshare]) (by rw [hline]), hwork, fun hr => hbs (hb'.2 hr)⟩
  · have hr := hrun.reports.of_same hksess (by rw [hkout, hmlink])
    unfold State.Reports at hr ⊢
    rw [State.phase_congr hsess, State.holds_congr hsess, State.phaseRecord_congr hsess, hout]
    exact hr
  · obtain ⟨ws, hws, -⟩ := u.meterSliceEnd_words
    obtain ⟨d, -, hst, ho⟩ := (u.decidedFrom (u.coreOf n c)).stageRoundEnd_stage
    have hdo : (u.decidedFrom (u.coreOf n c)).out = u.meterSliceEnd.out := hkout
    refine ⟨ws ++ [d.applied], ?_, ?_⟩
    · rw [hout, (hrun.staged (hall _)).2, ho, hdo]
      show u.meterSliceEnd.out.stage ++ _ = _
      rw [hws, List.append_assoc]
    · rw [List.getLast?_concat, hstage, (hrun.staged (hall _)).1, hst]
  · have hem : e.meter = (u.coreOf n c).meter := by rw [hrun.whole]
    rw [hv]
    show ({ e.meter with
      ceiling := some (ceilingFor e.share.allotment (e.cfg.sliceDiv * e.cfg.roundDiv) e.cfg.ppk e.cfg.edges)
      roundCount := 0, capped := false, allDriven := true } : MeterCounter) = _
    rw [hem, hrun.allotment, hecfg]
  · have h1 : u.roundEndWork n c = { e with meter := (u.roundEndWork n c).meter } := by rw [hv]; rfl
    have h2 := hrun.whole
    rw [hsess, hstage, hshare, hline, hout]
    refine h1.trans ?_
    exact congrArg (fun x : State => { x with meter := (u.roundEndWork n c).meter }) h2

end Sys2Proof.Machine
end

section
/-! A whole round end: the scan and the level test before or after the work, and what of each lasts to the end (R3, R91,
R95, R123, R149). -/

namespace Sys2Proof.Machine

/-! ### The decision -/

/-- The session's phase after its round-end work: FAULT, or what R89 decides. -/
theorem State.sessionAfterRound_phase (k : State) (c : Nat) (p q : Bool) (x : Session) :
    (k.sessionAfterRound c p q x).phase = .fault ∨ (k.sessionAfterRound c p q x).phase =
      decidedPhase (k.sessionAfterRound c p q x).holds k.stand.standing (k.remaining (k.sessionAfterRound c p q x))
        (k.sessionAfterRound c p q x).preWindow k.share.allotment := by
  unfold State.sessionAfterRound
  simp only []
  split
  · next hf => exact .inl hf
  · exact .inr rfl

theorem State.sessionAfterRound_held (k : State) (c : Nat) (p q : Bool) {x : Session} {r : HoldReason}
    (h : (k.sessionAfterRound c p q x).holds.has r = true) :
    (k.sessionAfterRound c p q x).phase = .held ∨ (k.sessionAfterRound c p q x).phase = .fault := by
  rcases k.sessionAfterRound_phase c p q x with e | e
  · exact .inr e
  · rw [(decidedPhase_spec _ _ _ _ _).1 (HoldSet.isEmpty_false_of_has h)] at e
    exact .inl e

/-! ### The parts of a round end -/

/-- A round end from `s` to `t`: from `p` to `u` the scan if `a` and the level test if `b`, from `u` to `v` the work, `k`
being the state with the allotment chosen, and from `v` to `t` the other two. -/
structure State.RoundRun (n : Bool) (s p u k v t : State) (a b early : Bool) (g0 : SendProgress) : Prop where
  start : p = { s with
    choices := p.choices, freeCount := p.freeCount
    meter := { s.meter with allDriven := s.meter.allDriven && s.stage.sliceDriven } }
  before : State.HoldsRun (heldDone a b) p u
  easedBefore : State.Eases a p u
  entry : early = true ↔ s.onLine = true ∧ u.phase ≠ s.phase
  progress : g0 = { natural := n, early := early.toNat, backoffs := g0.backoffs }
  sends : s.Sends u g0
  work : State.WorkRun s u k v g0 n
  after : State.HoldsRun (heldDone (!a) (!b)) v t
  easedAfter : State.Eases (!a) v t

theorem State.roundEnd_run (n : Bool) (s : State) : ∃ p u v a b early g0 c,
    State.RoundRun n s p u (u.coreOf n c) v (s.roundEnd n) a b early g0 ∧ v = u.roundEndWork n c ∧
    c = s.choose.1 / 8 := by
  obtain ⟨w, u, v, a, b, c, hw, hc, hpre, hv, hpost⟩ := State.roundEnd_parts n s
  have hp : w.handDriven = { s with
      choices := w.choices, freeCount := w.freeCount
      meter := { s.meter with allDriven := s.meter.allDriven && s.stage.sliceDriven } } := by rw [hw]; rfl
  have hrun := hpre.holdsRun
  obtain ⟨o, hforms, hiff, -⟩ := hrun.claims
  have hsp : s.Sends w.handDriven { natural := n } := (State.Sends.refl s n).of_same (by rw [hp]) (by rw [hp])
  obtain ⟨early, hearly⟩ : ∃ e : Bool, e = true ↔ o ≠ none := by
    cases o with
    | none => exact ⟨false, by simp⟩
    | some x => exact ⟨true, by simp⟩
  have hprog : ({ natural := n } : SendProgress).after o w.handDriven.line.sender.isIdle = { natural := n, early := early.toNat, backoffs := (({ natural := n } : SendProgress).after o w.handDriven.line.sender.isIdle).backoffs } := by
    cases o with
    | none =>
      have : early = false := Bool.eq_false_iff.2 fun h => hearly.1 h rfl
      rw [this]; rfl
    | some x =>
      have : early = true := hearly.2 (Option.some_ne_none x)
      rw [this]; rfl
  have hsu := hsp.forms hforms
  rw [hprog] at hsu
  refine ⟨w.handDriven, u, v, a, b, early, _, c, ⟨hp, hrun, hpre.eases, ?_, ?_, hsu, ?_, hpost.holdsRun, hpost.eases⟩, hv, hc⟩
  · rw [hearly, hiff]
    have h1 : w.handDriven.phase = s.phase := State.phase_congr (by rw [hp])
    have h2 : w.handDriven.onLine = s.onLine := State.onLine_congr (by rw [hp])
    rw [h1, h2]
  · rfl
  · rw [hv]
    exact State.roundEndWork_run hsu c rfl rfl fun h => h

namespace State.RoundRun
variable {n : Bool} {s p u k v t : State} {a b early : Bool} {g0 : SendProgress}
  (h : State.RoundRun n s p u k v t a b early g0)
include h

theorem startSession : p.session = s.session := by rw [h.start]

theorem k_eq : ∃ w : State, k = { u with
    timer := k.timer, stand := k.stand, peers := k.peers, share := k.share, notices := k.notices
    stage := w.stage, out := w.out, meter := k.meter, line := k.line } := by
  obtain ⟨m, l, hc⟩ := h.work.core
  exact ⟨_, hc.whole⟩

theorem u_eq : u = { s with
    choices := u.choices, freeCount := u.freeCount, meter := u.meter
    session := u.session, thermal := u.thermal, stage := u.stage, share := u.share, line := u.line, out := u.out } := by
  have h1 := h.before.whole
  rw [h.start] at h1
  rw [h1]

/-- The session at each of the stages. -/
theorem sessions {x : Session} (hx : s.session = some x) : ∃ (xu xv y : Session) (c : Nat) (o q : Bool),
    u.session = some xu ∧ v.session = some xv ∧ t.session = some y ∧
    c = u.meterSliceEnd.meter.roundCount ∧ o = u.meterSliceEnd.meter.capped ∧ q = u.meterSliceEnd.meter.silent ∧
    xv = k.sessionAfterRound c o q xu ∧
    xu = { x with phase := xu.phase, holds := xu.holds } ∧ y = { xv with phase := y.phase, holds := y.holds } ∧
    (x.holds.Gains xu.holds → xu.phase = x.phase.afterHold) ∧ (¬ x.holds.Gains xu.holds → xu.phase = x.phase) ∧
    (xv.holds.Gains y.holds → y.phase = xv.phase.afterHold) ∧ (¬ xv.holds.Gains y.holds → y.phase = xv.phase) ∧
    (∀ r, r ≠ .meter → xv.holds.has r = xu.holds.has r) ∧
    (∀ r, heldDone a b r = false → xu.holds.has r = x.holds.has r) ∧
    (∀ r, heldDone (!a) (!b) r = false → y.holds.has r = xv.holds.has r) := by
  obtain ⟨xu, hu, hxu, hk1, hg1, hn1⟩ := h.before.session x (h.startSession.trans hx)
  obtain ⟨w, hk⟩ := h.k_eq
  have hks : k.session = some xu := by rw [hk]; exact hu
  have hv : v.session = some (k.sessionAfterRound u.meterSliceEnd.meter.roundCount u.meterSliceEnd.meter.capped
      u.meterSliceEnd.meter.silent xu) := by
    rw [h.work.session]
    show k.session.map _ = _
    rw [hks]; rfl
  obtain ⟨y, hy, hyv, hk2, hg2, hn2⟩ := h.after.session _ hv
  exact ⟨xu, _, y, _, _, _, hu, hv, hy, rfl, rfl, rfl, rfl, hxu, hyv, hg1, hn1, hg2, hn2,
    fun r hr => k.sessionAfterRound_holds _ _ _ _ hr, hk1, hk2⟩

theorem gone (hx : s.session = none) : u.session = none ∧ v.session = none ∧ t.session = none := by
  have hu := h.before.gone (h.startSession.trans hx)
  obtain ⟨w, hk⟩ := h.k_eq
  have hks : k.session = none := by rw [hk]; exact hu
  have hv : v.session = none := by
    rw [h.work.session]
    show k.session.map _ = _
    rw [hks]; rfl
  exact ⟨hu, hv, h.after.gone hv⟩

/-- A reason set before the work lasts. -/
theorem lasts {r : HoldReason} (hd : heldDone a b r = true) {x y xu : Session} (hx : s.session = some x)
    (hu : u.session = some xu) (hy : t.session = some y) : y.holds.has r = xu.holds.has r := by
  obtain ⟨xu', xv, y', c, o, q, hu', hv, hy', -, -, -, -, -, -, -, -, -, -, hkeep, -, hk2⟩ := h.sessions hx
  obtain rfl := Option.some.inj (hu.symm.trans hu')
  obtain rfl := Option.some.inj (hy.symm.trans hy')
  rw [hk2 r (by cases r <;> simp_all [heldDone]), hkeep r (by rintro rfl; cases hd)]

/-- A phase changed before the work is HELD, by THERMAL or PERMIT, which lasts. -/
theorem entered {x : Session} (hx : s.session = some x) (hne : u.phase ≠ s.phase) : ∃ xu r, u.session = some xu ∧
    xu.phase = .held ∧ x.phase ≠ .held ∧ x.phase ≠ .fault ∧ heldDone a b r = true ∧ x.holds.has r = false ∧
    xu.holds.has r = true := by
  obtain ⟨xu, hu, hxu, hk1, hg1, hn1⟩ := h.before.session x (h.startSession.trans hx)
  rw [State.phase_of hu, State.phase_of hx] at hne
  have hg : x.holds.Gains xu.holds := by
    by_contra hc
    exact hne (hn1 hc)
  have hph := hg1 hg
  obtain ⟨r, h1, h2⟩ := hg
  rw [hph] at hne
  refine ⟨xu, r, hu, hph.trans (Phase.afterHold_reforms hne), fun e => hne (by rw [e]; rfl), fun e => hne (by rw [e]; rfl), ?_, h1, h2⟩
  cases hd : heldDone a b r with
  | true => rfl
  | false => rw [hk1 r hd, h1] at h2; cases h2

theorem entersHeld (hne : u.phase ≠ s.phase) : s.EntersHeld t := by
  cases hx : s.session with
  | none => exact absurd (State.phase_congr ((h.gone hx).1.trans hx.symm)) hne
  | some x =>
    obtain ⟨xu, r, hu, -, h1, h2, hd, h3, h4⟩ := h.entered hx hne
    obtain ⟨xu', xv, y, c, o, q, hu', hv, hy, -⟩ := h.sessions hx
    obtain rfl := Option.some.inj (hu.symm.trans hu')
    have hl := h.lasts hd hx hu hy
    rw [h4] at hl
    refine ⟨x, y, hx, hy, h1, h2, ?_⟩
    cases r with
    | thermal => exact .inl ⟨h3, hl⟩
    | permit => exact .inr ⟨h3, hl⟩
    | driver => cases hd
    | meter => cases hd

/-- After entry to HELD before the work, the work leaves the session HELD or in FAULT, and nothing after it enters HELD. -/
theorem entered_stays (hne : u.phase ≠ s.phase) : (v.phase = .held ∨ v.phase = .fault) ∧ t.phase = v.phase := by
  cases hx : s.session with
  | none => exact absurd (State.phase_congr ((h.gone hx).1.trans hx.symm)) hne
  | some x =>
    obtain ⟨xu, r, hu, -, h1, h2, hd, h3, h4⟩ := h.entered hx hne
    obtain ⟨xu', xv, y, c, o, q, hu', hv, hy, -, -, -, hxv, -, -, -, -, hg, hn, hkeep, -⟩ := h.sessions hx
    obtain rfl := Option.some.inj (hu.symm.trans hu')
    have hr : xv.holds.has r = true := (hkeep r (by rintro rfl; cases hd)).trans h4
    have hph : xv.phase = .held ∨ xv.phase = .fault := by
      rw [hxv] at hr ⊢
      exact k.sessionAfterRound_held _ _ _ hr
    rw [State.phase_of hv, State.phase_of hy]
    refine ⟨hph, ?_⟩
    by_cases hgain : xv.holds.Gains y.holds
    · rw [hg hgain]
      rcases hph with e | e <;> rw [e] <;> rfl
    · exact hn hgain

/-- A phase changed after the work is HELD. -/
theorem late_held (hne : t.phase ≠ v.phase) : t.phase = .held := by
  cases hx : s.session with
  | none =>
    obtain ⟨-, h1, h2⟩ := h.gone hx
    exact absurd (State.phase_congr (h2.trans h1.symm)) hne
  | some x =>
    obtain ⟨xu', xv, y, c, o, q, hu', hv, hy, -, -, -, hxv, -, -, -, -, hg, hn, -⟩ := h.sessions hx
    rw [State.phase_of hv, State.phase_of hy] at hne
    rw [State.phase_of hy]
    by_cases hgain : xv.holds.Gains y.holds
    · rw [hg hgain] at hne ⊢
      exact Phase.afterHold_reforms hne
    · exact absurd (hn hgain) hne

theorem k_onLine : k.onLine = s.onLine := by
  obtain ⟨m, l, hc⟩ := h.work.core
  unfold State.onLine
  rw [hc.stand, StandingUnit.roundEnd_onLine]
  show u.stand.standing.onLine = _
  rw [h.u_eq]

theorem v_eq : v = { k with
    session := v.session, stage := v.stage, meter := v.meter, share := v.share, line := v.line, out := v.out } :=
  h.work.whole

theorem v_onLine : v.onLine = s.onLine := by
  rw [← h.k_onLine]
  exact State.onLine_congr (by rw [h.v_eq])

/-- What the round end does with the line engine and the claims. -/
theorem progressAll : ∃ (g : SendProgress) (j : Nat) (x y z : Bool), s.Sends t g ∧
    g = { natural := n, early := early.toNat, late := x.toNat + y.toNat + z.toNat, backoffs := g.backoffs
          marked := n && k.timer.aligned, discarded := true, drawn := some j } ∧
    v.share.postSlice = some (1 + prngValue (u.cfg.roundDiv - 3) (prngAfter j s.line.prng)) ∧
    (x = true ↔ k.Restands u.stand.standing) ∧ (y = true ↔ k.Reforms (u.decidedFrom k)) ∧
    (z = true ↔ s.onLine = true ∧ t.phase ≠ v.phase) := by
  obtain ⟨g, j, x, y, hs, hg, hps, hx, hy⟩ := h.work.sends
  obtain ⟨o, hforms, hiff, -⟩ := h.after.claims
  rw [h.v_onLine] at hiff
  have hs' := hs.forms hforms
  obtain ⟨z, hz⟩ : ∃ e : Bool, e = true ↔ o ≠ none := by
    cases o with
    | none => exact ⟨false, by simp⟩
    | some x => exact ⟨true, by simp⟩
  refine ⟨_, j, x, y, z, hs', ?_, hps, hx, hy, hz.trans hiff⟩
  have hprog := h.progress
  cases o with
  | none =>
    have : z = false := Bool.eq_false_iff.2 fun h => hz.1 h rfl
    rw [this]
    show g = _
    rw [hg, hprog]; simp [SendProgress.after]
  | some w =>
    have : z = true := hz.2 (Option.some_ne_none w)
    rw [this]
    show g.claim _ = _
    unfold SendProgress.claim
    have hdisc : g.discarded = true := by rw [hg]
    rw [hdisc]
    simp only [if_true]
    have h1 : g.late = x.toNat + y.toNat := by rw [hg]
    have h2 : g.early = early.toNat := by rw [hg, hprog]
    have h3 : g.natural = n := by rw [hg, hprog]
    have h4 : g.marked = (n && k.timer.aligned) := by rw [hg, hprog]; simp
    have h5 : g.removed = false := by rw [hg, hprog]
    have h6 : g.spared = false := by rw [hg, hprog]
    have h7 : g.drawn = some j := by rw [hg]
    rw [h1, h2, h3, h4, h5, h6, h7]
    simp [SendProgress.after, SendProgress.claim]

end State.RoundRun

end Sys2Proof.Machine
end

section
/-! The standing at a round end (R24 to R29, R33), and the own allotment it goes with (R31, R53, R66). -/

namespace Sys2Proof.Machine

/-! ### The standing unit's work -/

namespace StandingUnit

/-- A passage leaves the bay clash; the clash update leaves the rest. -/
theorem endPassage_clash (n : Nat) (u : StandingUnit) : (u.endPassage n).bayClash = u.bayClash ∧
    (u.endPassage n).clashClear = u.clashClear ∧ (u.endPassage n).roundClash = u.roundClash := by
  unfold endPassage
  split
  · unfold endListening
    repeat' split
    all_goals exact ⟨rfl, rfl, rfl⟩
  · unfold endJoined
    repeat' split
    all_goals exact ⟨rfl, rfl, rfl⟩
  · exact ⟨rfl, rfl, rfl⟩
  · unfold endRejoining
    repeat' split
    all_goals exact ⟨rfl, rfl, rfl⟩
  all_goals exact ⟨rfl, rfl, rfl⟩

theorem endClash_eq (u : StandingUnit) : u.endClash = { u with
    bayClash := u.endClash.bayClash, clashClear := u.endClash.clashClear, roundClash := u.endClash.roundClash } := by
  unfold endClash
  repeat' split
  all_goals rfl

theorem endClash_of_clash {u : StandingUnit} (h : u.roundClash = true) :
    u.endClash.bayClash = u.bayClash ∧ u.endClash.clashClear = 0 ∧ u.endClash.roundClash = false := by
  unfold endClash
  rw [if_pos h]
  exact ⟨rfl, rfl, rfl⟩

theorem endClash_of_quiet {u : StandingUnit} (h : u.roundClash = false) : u.endClash.roundClash = false ∧
    u.endClash.bayClash = (u.bayClash && decide (u.clashClear + 1 < 3)) ∧
    u.endClash.clashClear = if u.bayClash then (if u.clashClear + 1 < 3 then u.clashClear + 1 else 0) else u.clashClear := by
  unfold endClash
  rw [if_neg (by rw [h]; decide)]
  cases hb : u.bayClash with
  | false => exact ⟨h, hb, rfl⟩
  | true =>
    rw [if_pos rfl, if_pos rfl]
    by_cases hc : u.clashClear + 1 < 3
    · rw [if_neg (by omega), if_pos hc, decide_eq_true hc]
      exact ⟨h, rfl, rfl⟩
    · rw [if_pos (by omega), if_neg hc, decide_eq_false hc]
      exact ⟨h, rfl, rfl⟩

theorem endClash_congr {u v : StandingUnit} (h1 : v.bayClash = u.bayClash) (h2 : v.clashClear = u.clashClear)
    (h3 : v.roundClash = u.roundClash) : v.endClash.bayClash = u.endClash.bayClash ∧
      v.endClash.clashClear = u.endClash.clashClear ∧ v.endClash.roundClash = false ∧ u.endClash.roundClash = false := by
  cases hc : u.roundClash with
  | true =>
    obtain ⟨a1, a2, a3⟩ := endClash_of_clash hc
    obtain ⟨b1, b2, b3⟩ := endClash_of_clash (h3.trans hc)
    exact ⟨by rw [a1, b1, h1], by rw [a2, b2], b3, a3⟩
  | false =>
    obtain ⟨a1, a2, a3⟩ := endClash_of_quiet hc
    obtain ⟨b1, b2, b3⟩ := endClash_of_quiet (h3.trans hc)
    exact ⟨by rw [a2, b2, h1, h2], by rw [a3, b3, h1, h2], b1, a1⟩

/-- The whole: the passage beside the clash update, and the round's own records cleared. -/
theorem roundEnd_eq (n : Nat) (u : StandingUnit) : u.roundEnd n = { u.endPassage n with
    bayClash := u.endClash.bayClash, clashClear := u.endClash.clashClear, roundClash := false
    roundHeard := false, claimRecord := .nothing } := by
  obtain ⟨h1, h2, h3⟩ := u.endPassage_clash n
  obtain ⟨c1, c2, c3, -⟩ := endClash_congr h1 h2 h3
  unfold roundEnd
  rw [endClash_eq (u.endPassage n), c1, c2, c3]

/-- The round is silent (R24). -/
theorem silent_iff (n : Nat) (u : StandingUnit) :
    u.silent n = true ↔ 2 ≤ n ∧ (u.roundHeard = false ∨ u.claimRecord = .unsent) := by
  unfold silent
  rw [Bool.and_eq_true, decide_eq_true_eq, Bool.or_eq_true, Bool.not_eq_true', beq_iff_eq]

/-- R25. -/
theorem endListening_rows (n : Nat) (u : StandingUnit) (hs : u.standing = .listening) :
    (u.listenCount = 0 → (u.endListening n).standing = .listening ∧ (u.endListening n).listenCount = 1 ∧
      (u.endListening n).listenHeard = u.listenHeard ∧ (u.endListening n).listenPosted = u.listenPosted) ∧
    (1 ≤ u.listenCount → (u.endListening n).listenCount = 0 ∧ (u.endListening n).listenHeard = false ∧
      (u.endListening n).listenPosted = false ∧
      (2 ≤ n → u.listenPosted = false → (u.endListening n).standing = .listening) ∧
      (n = 1 ∨ (u.listenPosted = true ∧ u.listenHeard = true) →
        (u.endListening n).standing = .joined ∧ (u.endListening n).silentStreak = 0) ∧
      (2 ≤ n → u.listenPosted = true → u.listenHeard = false → (u.endListening n).standing = .isolated ∧
        (u.endListening n).silentStreak = 0 ∧ (u.endListening n).rejoinCount = 0 ∧
        (u.endListening n).isolationCount = 0)) := by
  unfold endListening
  constructor
  · intro h
    rw [if_pos (by omega)]
    exact ⟨hs, congrArg (· + 1) h, rfl, rfl⟩
  · intro h
    rw [if_neg (by omega)]
    simp only []
    split
    · next hc => exact ⟨rfl, rfl, rfl, fun _ _ => hs, fun h' => by rcases h' with h' | ⟨h', -⟩ <;> simp_all, fun _ h' => by simp_all⟩
    · next hc =>
      split
      · next hj => exact ⟨rfl, rfl, rfl, fun h1 h2 => absurd ⟨h1, h2⟩ hc, fun _ => ⟨rfl, rfl⟩, fun h1 _ h3 => by
          rcases hj with hj | hj
          · rw [h3] at hj; cases hj
          · omega⟩
      · next hj => exact ⟨rfl, rfl, rfl, fun h1 h2 => absurd ⟨h1, h2⟩ hc, fun h' => by
          rcases h' with h' | ⟨-, h'⟩
          · exact absurd (.inr h') hj
          · exact absurd (.inl h') hj, fun _ _ _ => ⟨rfl, rfl, rfl, rfl⟩⟩

/-- R26. -/
theorem endJoined_rows (n : Nat) (u : StandingUnit) (hs : u.standing = .joined) :
    (u.silent n = false → (u.endJoined n).standing = .joined ∧ (u.endJoined n).silentStreak = 0) ∧
    (u.silent n = true → u.silentStreak + 1 < 3 →
      (u.endJoined n).standing = .joined ∧ (u.endJoined n).silentStreak = u.silentStreak + 1) ∧
    (u.silent n = true → 3 ≤ u.silentStreak + 1 → (u.endJoined n).standing = .isolated ∧
      (u.endJoined n).silentStreak = 0 ∧ (u.endJoined n).rejoinCount = 0 ∧ (u.endJoined n).isolationCount = 0) := by
  unfold endJoined
  refine ⟨fun h => ?_, fun h h' => ?_, fun h h' => ?_⟩
  · rw [if_neg (by rw [h]; decide)]; exact ⟨hs, rfl⟩
  · rw [if_pos h, if_neg (by omega)]; exact ⟨hs, rfl⟩
  · rw [if_pos h, if_pos h']; exact ⟨rfl, rfl, rfl, rfl⟩

theorem isolationNext_eq (u : StandingUnit) : u.isolationNext = min 18 (u.isolationCount + 1) := rfl

/-- R27. -/
theorem endIsolated_rows (u : StandingUnit) : u.endIsolated.isolationCount = min 18 (u.isolationCount + 1) ∧
    (u.isolationCount + 1 < 18 → u.endIsolated.standing = .isolated) ∧
    (18 ≤ u.isolationCount + 1 → u.endIsolated.standing = .cutoff) := by
  refine ⟨rfl, fun h => ?_, fun h => ?_⟩
  · exact if_neg (by rw [isolationNext_eq, Config.isolationLimit]; omega)
  · exact if_pos (by rw [isolationNext_eq, Config.isolationLimit]; omega)

/-- R28. -/
theorem endRejoining_rows (n : Nat) (u : StandingUnit) (hs : u.standing = .rejoining) :
    (u.silent n = true → 18 ≤ u.isolationCount + 1 → (u.endRejoining n).standing = .cutoff ∧
      (u.endRejoining n).isolationCount = 18 ∧ (u.endRejoining n).silentStreak = u.silentStreak + 1 ∧
      (u.endRejoining n).rejoinCount = 0) ∧
    (u.silent n = true → u.isolationCount + 1 < 18 →
      (u.endRejoining n).isolationCount = u.isolationCount + 1 ∧ (u.endRejoining n).rejoinCount = 0 ∧
      (3 ≤ u.silentStreak + 1 → (u.endRejoining n).standing = .isolated ∧ (u.endRejoining n).silentStreak = 0) ∧
      (u.silentStreak + 1 < 3 →
        (u.endRejoining n).standing = .rejoining ∧ (u.endRejoining n).silentStreak = u.silentStreak + 1)) ∧
    (u.silent n = false → (u.endRejoining n).silentStreak = 0 ∧
      (1 ≤ u.rejoinCount → (u.endRejoining n).standing = .joined ∧ (u.endRejoining n).rejoinCount = 0 ∧
        (u.endRejoining n).isolationCount = 0) ∧
      (u.rejoinCount = 0 → (u.endRejoining n).standing = .rejoining ∧ (u.endRejoining n).rejoinCount = 1 ∧
        (u.endRejoining n).isolationCount = min 18 (u.isolationCount + 1))) := by
  have hlimit : u.isolationNext = Config.isolationLimit ↔ 18 ≤ u.isolationCount + 1 := by
    rw [isolationNext_eq, Config.isolationLimit]; omega
  unfold endRejoining
  refine ⟨fun h h' => ?_, fun h h' => ?_, fun h => ?_⟩
  · rw [if_pos h, if_pos (hlimit.2 h')]
    exact ⟨rfl, hlimit.2 h', rfl, rfl⟩
  · rw [if_pos h, if_neg (mt hlimit.1 (by omega))]
    have hn : u.isolationNext = u.isolationCount + 1 := by rw [isolationNext_eq]; omega
    split
    · next hc => exact ⟨hn, rfl, fun _ => ⟨rfl, rfl⟩, fun hc' => by omega⟩
    · next hc => exact ⟨hn, rfl, fun hc' => absurd hc' hc, fun _ => ⟨hs, rfl⟩⟩
  · rw [if_neg (by rw [h]; decide)]
    split
    · next hc => exact ⟨rfl, fun _ => ⟨rfl, rfl, rfl⟩, fun hc' => by omega⟩
    · next hc => exact ⟨rfl, fun hc' => by omega, fun hc' => ⟨hs, congrArg (· + 1) hc', rfl⟩⟩

/-- The passage of a standing, and R29's: CUTOFF stands. -/
theorem endPassage_of {n : Nat} {u : StandingUnit} :
    (u.standing = .listening → u.endPassage n = u.endListening n) ∧ (u.standing = .joined → u.endPassage n = u.endJoined n) ∧
    (u.standing = .isolated → u.endPassage n = u.endIsolated) ∧
    (u.standing = .rejoining → u.endPassage n = u.endRejoining n) ∧ (u.standing = .cutoff → u.endPassage n = u) := by
  unfold endPassage
  refine ⟨fun h => ?_, fun h => ?_, fun h => ?_, fun h => ?_, fun h => ?_⟩ <;> rw [h]

end StandingUnit

/-! ### The round end's standing -/

theorem ClaimRecord.discarded_spec (w : Bool) (r : ClaimRecord) :
    (r.discarded w = r ∨ (r.discarded w = .unsent ∧ r = .nothing)) ∧
    (w = true → r = .nothing → r.discarded w = .unsent) ∧ (r.discarded w ≠ r → w = true) := by
  cases w <;> cases r <;> decide

/-- A natural round end is the round end of the temperatures it brings. -/
theorem effect_naturalRoundEnd {s : State} {temps : Temps} (hr : s.timer.running = true)
    (hi : s.cfg.roundDiv ≤ s.timer.sliceIndex + 1) :
    effect (.naturalRoundEnd temps) s = (s.setTemps temps).roundEnd true := by
  show (s.setTemps temps).naturalRoundEnd = _
  have hlast : (s.setTemps temps).inLastSlice = true := by
    show decide (s.cfg.roundDiv ≤ s.timer.sliceIndex + 1) = true
    rw [decide_eq_true_eq]; exact hi
  have hrun : (s.setTemps temps).timer.running = true := hr
  unfold State.naturalRoundEnd
  rw [hlast, hrun]; rfl

section
variable {n : Bool} {s p u k v t : State} {a b early : Bool} {g0 : SendProgress}
  (h : State.RoundRun n s p u k v t a b early g0)
include h

theorem State.RoundRun.t_stand : t.stand = k.stand := by rw [h.after.whole, h.v_eq]

/-- An own CLAIM waits at the discard: one that waited before the event, or that entry to HELD has placed. -/
theorem State.RoundRun.waits : u.line.claimWaits = true ↔ s.ClaimWaits ∨ early = true := by
  rw [h.sends.line.claimWaits (by rw [h.progress]), s.claimWaits_iff, h.progress]
  cases early <;> simp

theorem State.RoundRun.standing : ∃ r, t.stand = ({ s.stand with claimRecord := r } : StandingUnit).roundEnd s.cfg.n ∧
    (r = s.stand.claimRecord ∨ (r = .unsent ∧ s.stand.claimRecord = .nothing)) ∧
    (s.ClaimWaits → s.stand.claimRecord = .nothing → r = .unsent) ∧
    (r ≠ s.stand.claimRecord → s.ClaimWaits ∨ s.EntersHeld t) := by
  obtain ⟨m, l, hc⟩ := h.work.core
  have hus : u.stand = s.stand := by rw [h.u_eq]
  have hucfg : u.cfg = s.cfg := by rw [h.u_eq]; rfl
  have hst := hc.stand
  rw [hus, hucfg] at hst
  obtain ⟨h1, h2, h3⟩ := s.stand.claimRecord.discarded_spec u.line.claimWaits
  refine ⟨_, h.t_stand.trans hst, h1, fun hw => h2 (h.waits.2 (.inl hw)), fun hne => ?_⟩
  exact (h.waits.1 (h3 hne)).imp_right fun he => h.entersHeld (h.entry.1 he).2

end

/-- Settles O13: an own CLAIM that waits is reported before the standing unit's work, which is that of R24 to R29 and
R33. -/
theorem roundEndStanding : Obligations.RoundEndStanding := by
  constructor
  · intro s temps hr hi
    obtain ⟨p, u, v, a, b, early, g0, c, hrun, -, -⟩ := (s.setTemps temps).roundEnd_run true
    obtain ⟨r, h⟩ := hrun.standing
    exact ⟨_, r, by rw [exec_eq, effect_naturalRoundEnd hr hi], h⟩
  · intro n u
    obtain ⟨hl, hj, hi, hre, hc⟩ := StandingUnit.endPassage_of (n := n) (u := u)
    refine ⟨_, rfl, u.silent_iff n, ?_⟩
    rw [StandingUnit.roundEnd_eq]
    refine ⟨rfl, rfl, rfl, fun hs => ?_, fun hs => ?_, fun hs => ?_, fun hs => ?_, fun hs => ?_, fun hq => ?_,
      fun hq hb hn => ?_, fun hq hb hn => ?_, fun hq hb => ?_⟩
    · rw [hl hs]; exact u.endListening_rows n hs
    · rw [hj hs]; exact u.endJoined_rows n hs
    · rw [hi hs]; exact u.endIsolated_rows
    · rw [hre hs]; exact u.endRejoining_rows n hs
    · rw [hc hs]; exact ⟨hs, rfl, rfl, rfl⟩
    · obtain ⟨h1, h2, -⟩ := StandingUnit.endClash_of_clash hq
      exact ⟨h1, h2⟩
    · obtain ⟨-, h1, h2⟩ := StandingUnit.endClash_of_quiet hq
      exact ⟨by rw [h1, hb, decide_eq_true hn]; rfl, by rw [h2, if_pos hb, if_pos hn]⟩
    · obtain ⟨-, h1, h2⟩ := StandingUnit.endClash_of_quiet hq
      exact ⟨by rw [h1, hb, decide_eq_false (by omega)]; rfl, by rw [h2, if_pos hb, if_neg (by omega)]⟩
    · obtain ⟨-, h1, h2⟩ := StandingUnit.endClash_of_quiet hq
      exact ⟨by rw [h1, hb]; rfl, by rw [h2, if_neg (by rw [hb]; decide)]⟩

end Sys2Proof.Machine
end

section
/-! The own allotment of a round end (R31, R53, R66). -/

namespace Sys2Proof.Machine

/-! ### The own grant -/

theorem grants_who (available : Nat) (cs : List Claimant) : (grants available cs).map Grant.who = cs := by
  rw [grants, pass2_who, pass1_who]

theorem grantOf_le_available (available bay : Nat) (cs : List Claimant) : grantOf bay (grants available cs) ≤ available := by
  refine grantOf_le fun g hg => ?_
  exact (List.le_sum_of_mem (List.mem_map_of_mem hg)).trans (grants_sum_le available cs)

/-- The grant of the one claimant of its bay is in the list. -/
theorem grantOf_mem {available : Nat} {cs : List Claimant} {self : Claimant} (hmem : self ∈ cs)
    (hone : ∀ c ∈ cs, c.bay = self.bay → c = self) :
    (⟨self, grantOf self.bay (grants available cs)⟩ : Grant) ∈ grants available cs := by
  have hwho : ∀ g ∈ grants available cs, g.who ∈ cs := fun g hg => by
    have := List.mem_map_of_mem (f := Grant.who) hg
    rwa [grants_who] at this
  have hex : ∃ g ∈ grants available cs, g.who = self := by
    rw [← grants_who available cs] at hmem
    exact List.mem_map.1 hmem
  unfold grantOf
  split
  · next hn =>
    obtain ⟨g, hg, he⟩ := hex
    have := List.find?_eq_none.1 hn g hg
    rw [he] at this
    exact absurd (decide_eq_true rfl) this
  · next g hg =>
    have hbay : g.who.bay = self.bay := by simpa using List.find?_some hg
    have hin := List.mem_of_find?_eq_some hg
    have := hone g.who (hwho g hin) hbay
    rw [← this]
    exact hin

/-- The grant of the own bay among the table's claimants and the self claimant. -/
theorem State.ownGrant_spec (pool : Pool) (s : State) {c : Claim} (hs : s.stand.standing = .joined)
    (hc : s.share.ownClaim = some c) (hq : 0 < c.q) : ∃ (self : Claimant) (gs : List Grant),
    self = ⟨s.cfg.bay, c.q, c.mEff, c.f, c.k⟩ ∧
    gs = grants (pool.usable - s.peers.dHanded)
      (deadlineOrder (tableClaimants pool.lone s.timer.roundCount s.peers.entries ++ [self])) ∧
    ((∀ e ∈ s.peers.entries, e.bay ≠ s.cfg.bay) → ⟨self, grantOf s.cfg.bay gs⟩ ∈ gs) ∧
    s.ownGrant pool = grantOf s.cfg.bay gs := by
  have hself : s.selfClaimant = some ⟨s.cfg.bay, c.q, c.mEff, c.f, c.k⟩ := by
    simp only [State.selfClaimant, hc, hs, true_or, true_and]
    rw [if_pos hq]
  refine ⟨_, _, rfl, rfl, fun hb => ?_, ?_⟩
  · refine grantOf_mem (self := ⟨s.cfg.bay, c.q, c.mEff, c.f, c.k⟩) ((deadlineOrder_perm _).mem_iff.2 (List.mem_append_right _ List.mem_cons_self))
      fun d hd he => ?_
    rcases List.mem_append.1 ((deadlineOrder_perm _).mem_iff.1 hd) with hd | hd
    · obtain ⟨e, hm, rfl⟩ := List.mem_map.1 hd
      exact absurd he (hb e (List.mem_filter.1 hm).1)
    · exact List.mem_singleton.1 hd
  · simp only [State.ownGrant, State.claimants, hself, Option.toList]

theorem State.ownGrant_none (pool : Pool) (s : State) (hc : ∀ c, s.share.ownClaim = some c → c.q = 0) :
    s.ownGrant pool = 0 := by
  have hself : s.selfClaimant = none := by
    unfold State.selfClaimant
    split
    · rfl
    · next c h => rw [if_neg fun hn => by have := hc c h; omega]
  simp only [State.ownGrant, hself]

theorem State.ownGrant_le (pool : Pool) (s : State) : s.ownGrant pool ≤ pool.usable - s.peers.dHanded := by
  unfold State.ownGrant
  split
  · exact Nat.zero_le _
  · exact grantOf_le_available _ _ _

/-! ### The claim it goes by -/

/-- A claim formed on entry to HELD asks for nothing (R54). -/
theorem State.HeldClaim.claim {u t v : State} (h : u.HeldClaim t v) {x y : Session} (hx : u.session = some x)
    (hy : t.session = some y) : v.claimNow.phase = .held ∧ v.claimNow.q = 0 ∧ v.claimNow.hold = true := by
  obtain ⟨z, hz, hzx, -, r, -, hr, -⟩ := h.session x y hx hy
  obtain ⟨h1, -, -, -, h4, h5⟩ := State.claimNow_session hz
  have hhold : v.claimNow.hold = true := by
    rw [State.claimNow_hold, h4]
    cases r
    · exact .inl hr
    · exact .inr (.inl hr)
    · exact .inr (.inr (.inl hr))
    · exact .inr (.inr (.inr hr))
  exact ⟨by rw [h1, hzx], h5 (.inr hhold), hhold⟩

section
variable {n : Bool} {s p u k v t : State} {a b early : Bool} {g0 : SendProgress}
  (h : State.RoundRun n s p u k v t a b early g0)
include h

theorem State.RoundRun.ownClaim_of_early (he : early = true) :
    ∃ c, u.share.ownClaim = some c ∧ c.phase = .held ∧ c.q = 0 := by
  obtain ⟨o, hforms, hiff, hclaim⟩ := h.before.claims
  have hps : p.phase = s.phase := State.phase_congr h.startSession
  have hon : p.onLine = s.onLine := State.onLine_congr (by rw [h.start])
  rw [hps, hon, ← h.entry] at hiff
  cases o with
  | none => exact absurd rfl (hiff.2 he)
  | some w =>
    have hne := (h.entry.1 he).2
    refine ⟨_, hforms.claimed.own, ?_⟩
    cases hx : s.session with
    | none => exact absurd (State.phase_congr ((h.gone hx).1.trans hx.symm)) hne
    | some x =>
      obtain ⟨xu, r, hu, -⟩ := h.entered hx hne
      obtain ⟨h1, h2, -⟩ := (hclaim w rfl).claim (h.startSession.trans hx) hu
      exact ⟨h1, h2⟩

theorem State.RoundRun.share_of_not_early (he : early = false) : u.share = s.share := by
  obtain ⟨o, hforms, hiff, -⟩ := h.before.claims
  have hps : p.phase = s.phase := State.phase_congr h.startSession
  have hon : p.onLine = s.onLine := State.onLine_congr (by rw [h.start])
  rw [hps, hon, ← h.entry, he] at hiff
  cases o with
  | none => rw [(hforms.of_none).1, h.start]
  | some w => exact absurd (hiff.1 (Option.some_ne_none w)) Bool.false_ne_true

/-- The own claim the allotment is chosen by: the record as it stood, or that of entry to HELD at this event. -/
theorem State.RoundRun.ownClaim : u.share.ownClaim = s.share.ownClaim ∨
    (s.EntersHeld t ∧ ∃ c, u.share.ownClaim = some c ∧ c.phase = .held ∧ c.q = 0) := by
  cases he : early with
  | false => exact .inl (by rw [h.share_of_not_early he])
  | true => exact .inr ⟨h.entersHeld (h.entry.1 he).2, h.ownClaim_of_early he⟩

theorem State.RoundRun.t_share : t.share.allotment = k.share.allotment := by
  obtain ⟨o, hforms, -⟩ := h.after.claims
  rw [hforms.share_rest]
  exact h.work.allotment

theorem State.RoundRun.t_peers : t.peers = k.peers := by rw [h.after.whole, h.v_eq]

/-- The state whose allotment it is. -/
theorem State.RoundRun.allotment : ∃ y : State, y.stand = t.stand ∧ y.peers = t.peers ∧ y.cfg = s.cfg ∧
    y.timer.roundCount = s.timer.roundCount ∧ y.share.ownClaim = u.share.ownClaim ∧
    t.share.allotment = y.allotmentFor s.pool := by
  obtain ⟨m, l, hc⟩ := h.work.core
  have hpool : u.pool = s.pool := by rw [h.u_eq]; rfl
  refine ⟨{ u with stand := k.stand, peers := k.peers }, h.t_stand.symm, h.t_peers.symm, by rw [h.u_eq]; rfl,
    by rw [h.u_eq], rfl, ?_⟩
  rw [h.t_share, hc.share, hpool]

end

/-- Settles O14: the allotment is chosen from the standing, the table and the own claim as they stand then, and nothing
after it touches it. -/
theorem roundEndAllotment : Obligations.RoundEndAllotment := by
  intro s temps hr hi
  obtain ⟨p, u, v, a, b, early, g0, c, hrun, -, -⟩ := (s.setTemps temps).roundEnd_run true
  obtain ⟨y, hst, hpe, hcfg, hround, hown, hall⟩ := hrun.allotment
  have hcfg : y.cfg = s.cfg := hcfg
  have hround : y.timer.roundCount = s.timer.roundCount := hround
  have hall : _ = y.allotmentFor s.pool := hall
  refine ⟨_, u.share.ownClaim, by rw [exec_eq, effect_naturalRoundEnd hr hi], hrun.ownClaim, ?_⟩
  rw [hall, ← hst, ← hpe]
  have hjoined : y.stand.standing = .joined →
      y.allotmentFor s.pool = if y.stand.bayClash then min (y.ownGrant s.pool) s.pool.lone else y.ownGrant s.pool :=
    fun hs => by unfold State.allotmentFor; rw [hs]
  refine ⟨fun hs c hc hq => ?_, fun hs hz => ?_, fun hs => ?_, fun hs => ?_, fun hs => ?_, fun hs hb => ?_⟩
  · obtain ⟨self, gs, h1, h2, h3, h4⟩ := y.ownGrant_spec s.pool hs (hown.trans hc) hq
    rw [hcfg] at h1 h3 h4
    rw [hround] at h2
    exact ⟨self, gs, _, h1, h2, h3, rfl, by rw [hjoined hs, h4]⟩
  · rw [hjoined hs, y.ownGrant_none s.pool fun c hc => hz c (hown.symm.trans hc)]
    simp
  · have hlone : y.allotmentFor s.pool = loneShare s.pool.lone u.share.ownClaim := by
      unfold State.allotmentFor
      rcases hs with hs | hs <;> rw [hs, ← hown]
    rw [hlone]
    exact ⟨fun hn => by rw [hn]; rfl, fun c hc => by rw [hc]; rfl⟩
  · unfold State.allotmentFor
    rcases hs with hs | hs <;> rw [hs]
  · rw [hjoined hs]
    have := y.ownGrant_le s.pool
    split <;> omega
  · rw [hjoined hs, if_pos hb]
    exact Nat.min_le_right _ _

end Sys2Proof.Machine
end

section
/-! The session's round-end work, field by field (R85, R87, R89, R90, R93, R133, R136). -/

namespace Sys2Proof.Machine

/-! ### The session's own part -/

/-- Credit, METER hold and streak, before the meter's results are applied. -/
theorem Session.counted_eq (counts : Nat) (capped : Bool) (x : Session) :
    ((x.credit counts).countHold).updateStreak capped = { x with
      delivered := min 4294967295 (x.delivered + (counts - (if x.openedThisRound then x.opening else 0)))
      openedThisRound := false
      meterRoundsLeft := x.meterRoundsLeft - 1
      holds := if x.meterRoundsLeft = 1 then x.holds.put false .meter else x.holds
      overdrawStreak := if capped then min 3 (x.overdrawStreak + 1) else 0 } := by
  have hcount : ∀ w : Session, w.countHold = { w with
      meterRoundsLeft := w.meterRoundsLeft - 1
      holds := if w.meterRoundsLeft = 1 then w.holds.put false .meter else w.holds } := fun w => by
    unfold Session.countHold
    by_cases h0 : w.meterRoundsLeft = 0
    · have hsub : w.meterRoundsLeft - 1 = w.meterRoundsLeft := by omega
      rw [if_pos h0, if_neg (by omega), hsub]
    · rw [if_neg h0]
      by_cases h1 : w.meterRoundsLeft = 1
      · rw [h1]; rfl
      · rw [if_neg (by omega), if_neg h1]
  rw [hcount]
  rfl

/-- A session with the meter's results applied. -/
structure Session.Judged (silence : Bool) (x y : Session) : Prop where
  meterHolds : y.meterHolds = if silence = true ∧ x.meterHolds ≤ 2 then x.meterHolds + 1 else x.meterHolds
  meterRoundsLeft : y.meterRoundsLeft = if silence = true ∧ x.meterHolds < 2 then 6 else x.meterRoundsLeft
  holds : y.holds = if silence = true ∧ x.meterHolds < 2 then x.holds.put true .meter else x.holds
  fault : y.phase = .fault ↔ x.phase = .fault ∨ x.overdrawStreak = 3 ∨ (silence = true ∧ x.meterHolds = 2)
  overdraw : x.phase ≠ .fault → x.overdrawStreak = 3 → y.faultReason = some .overdraw
  meter : x.phase ≠ .fault → x.overdrawStreak ≠ 3 → silence = true → x.meterHolds = 2 → y.faultReason = some .meter
  faulted : x.phase = .fault → y.faultReason = x.faultReason
  free : y.phase ≠ .fault → y.faultReason = x.faultReason
  whole : y = { x with
    phase := y.phase, faultReason := y.faultReason, meterHolds := y.meterHolds
    meterRoundsLeft := y.meterRoundsLeft, holds := y.holds }

theorem Session.enterFault_eq (r : FaultReason) (x : Session) : x.enterFault r = { x with
    phase := .fault, faultReason := if x.phase = .fault then x.faultReason else some r } := by
  unfold Session.enterFault
  split
  · next h => rw [← h]
  · rfl

/-- The overdraw streak applied. -/
theorem Session.applyStreak_eq (x : Session) : x.applyStreak = { x with
    phase := if x.overdrawStreak = 3 then .fault else x.phase
    faultReason := if x.overdrawStreak = 3 ∧ x.phase ≠ .fault then some .overdraw else x.faultReason } := by
  unfold Session.applyStreak
  by_cases h : x.overdrawStreak = 3
  · rw [if_pos h, Session.enterFault_eq, if_pos h]
    by_cases hf : x.phase = .fault
    · rw [if_pos hf, if_neg fun hc => hc.2 hf]
    · rw [if_neg hf, if_pos ⟨h, hf⟩]
  · rw [if_neg h, if_neg h, if_neg fun hc => h hc.1]

theorem Session.judged (silence : Bool) (x : Session) : Session.Judged silence x (x.applyStreak.applySilence silence) := by
  have hst := x.applyStreak_eq
  have hstreakFault : x.applyStreak.phase = .fault ↔ x.phase = .fault ∨ x.overdrawStreak = 3 := by
    rw [hst]
    show (if _ then _ else _) = _ ↔ _
    split
    · next h => simp [h]
    · next h => simp [h]
  have hover : x.phase ≠ .fault → x.overdrawStreak = 3 → x.applyStreak.faultReason = some .overdraw := fun h1 h2 => by
    rw [hst]; exact if_pos ⟨h2, h1⟩
  have hkeep : x.phase = .fault ∨ x.overdrawStreak ≠ 3 → x.applyStreak.faultReason = x.faultReason := fun h => by
    rw [hst]; exact if_neg fun hc => h.elim (fun e => hc.2 e) (fun e => e hc.1)
  have hheld : x.applyStreak.meterHolds = x.meterHolds := by rw [hst]
  have hholds : x.applyStreak.holds = x.holds := by rw [hst]
  have hleft : x.applyStreak.meterRoundsLeft = x.meterRoundsLeft := by rw [hst]
  have hwhole : x.applyStreak = { x with phase := x.applyStreak.phase, faultReason := x.applyStreak.faultReason } := by
    rw [hst]
  have hfree : x.applyStreak.phase ≠ .fault → x.applyStreak.faultReason = x.faultReason := fun h =>
    hkeep (.inr fun e => h (hstreakFault.2 (.inr e)))
  have none_ : ∀ y, y = x.applyStreak → ¬ (silence = true ∧ x.meterHolds ≤ 2) → Session.Judged silence x y := by
    rintro y rfl hn
    have hn1 : ¬ (silence = true ∧ x.meterHolds < 2) := fun h => hn ⟨h.1, by omega⟩
    exact {
      meterHolds := by rw [if_neg hn, hheld]
      meterRoundsLeft := by rw [if_neg hn1, hleft]
      holds := by rw [if_neg hn1, hholds]
      fault := hstreakFault.trans ⟨fun h => h.imp_right .inl, fun h => h.imp_right fun h =>
        h.resolve_right fun hc => hn ⟨hc.1, by omega⟩⟩
      overdraw := hover
      meter := fun _ _ h1 h2 => absurd ⟨h1, by omega⟩ hn
      faulted := fun h => hkeep (.inl h)
      free := hfree
      whole := by rw [hst] }
  unfold Session.applySilence
  rw [hheld, hholds]
  cases hs : silence with
  | false =>
    have := none_ _ rfl (by rw [hs]; exact fun h => Bool.false_ne_true h.1)
    rw [hs] at this
    exact this
  | true =>
    rw [if_pos rfl]
    by_cases h2 : x.meterHolds < 2
    · rw [if_pos h2]
      exact {
        meterHolds := (if_pos ⟨rfl, by omega⟩).symm
        meterRoundsLeft := (if_pos ⟨rfl, h2⟩).symm
        holds := (if_pos ⟨rfl, h2⟩).symm
        fault := Phase.afterHold_fault.trans (hstreakFault.trans ⟨fun h => h.imp_right .inl, fun h => h.imp_right fun h =>
          h.resolve_right fun hc => by omega⟩)
        overdraw := hover
        meter := fun _ _ _ h => absurd h (by omega)
        faulted := fun h => hkeep (.inl h)
        free := fun h => hfree (mt Phase.afterHold_fault.2 h)
        whole := by rw [hst] }
    · rw [if_neg h2]
      by_cases h3 : x.meterHolds = 2
      · rw [if_pos h3, Session.enterFault_eq]
        exact {
          meterHolds := (show 3 = x.meterHolds + 1 by omega).trans (if_pos ⟨rfl, by omega⟩).symm
          meterRoundsLeft := hleft.trans (if_neg fun h => h2 h.2).symm
          holds := (if_neg fun h => h2 h.2).symm
          fault := ⟨fun _ => .inr (.inr ⟨rfl, h3⟩), fun _ => rfl⟩
          overdraw := fun h1 h => by
            show (if x.applyStreak.phase = .fault then _ else _) = _
            rw [if_pos (hstreakFault.2 (.inr h))]
            exact hover h1 h
          meter := fun h1 h _ _ => by
            show (if x.applyStreak.phase = .fault then _ else _) = _
            exact if_neg fun hc => (hstreakFault.1 hc).elim h1 h
          faulted := fun h => by
            show (if x.applyStreak.phase = .fault then _ else _) = _
            rw [if_pos (hstreakFault.2 (.inl h))]
            exact hkeep (.inl h)
          free := fun h => absurd rfl h
          whole := by rw [hst] }
      · rw [if_neg h3]
        have := none_ _ rfl (by omega)
        rw [hs] at this
        exact this

/-- The whole of the session's work: the meter's results, and the decision of R89. -/
theorem State.sessionAfterRound_eq (k : State) (counts : Nat) (capped silence : Bool) (x : Session) : ∃ z ph,
    Session.Judged silence (((x.credit counts).countHold).updateStreak capped) z ∧
    k.sessionAfterRound counts capped silence x = { z with phase := ph } ∧ (ph = .fault ↔ z.phase = .fault) ∧
    (ph ≠ .fault → ph = decidedPhase z.holds k.stand.standing (k.remaining { z with phase := ph }) z.preWindow
      k.share.allotment) := by
  have hj := Session.judged silence (((x.credit counts).countHold).updateStreak capped)
  refine ⟨_, (k.sessionAfterRound counts capped silence x).phase, hj, ?_, ?_, ?_⟩
  all_goals
    unfold State.sessionAfterRound
    simp only []
    generalize (((x.credit counts).countHold).updateStreak capped).applyStreak.applySilence silence = z
    split
  · rfl
  · rfl
  · rfl
  · next hf => exact ⟨fun h => absurd h (decidedPhase_spec _ _ _ _ _).2.2, fun h => absurd h hf⟩
  · next hf => exact fun h => absurd hf h
  · exact fun _ => rfl

/-! ### The phase decided -/

theorem Session.preWindow_iff (x : Session) :
    x.preWindow = true ↔ 0 < x.precondPower ∧ 0 < x.departure ∧ x.departure ≤ x.precondTime := by
  unfold Session.preWindow
  rw [decide_eq_true_eq]

/-- The table of R89 for an empty set of hold reasons. -/
theorem decidedPhase_of_empty {h : HoldSet} (he : h.isEmpty = true) (u : Standing) (e p : Nat) (w : Bool) :
    (u = .listening ∨ u = .cutoff → decidedPhase h u e w p = .attached) ∧
    (u ≠ .listening → u ≠ .cutoff →
      (e = 0 → w = false → decidedPhase h u e w p = .topped) ∧ (w = true → decidedPhase h u e w p = .precondition) ∧
      (0 < e → w = false → 0 < p → decidedPhase h u e w p = .charging) ∧
      (0 < e → w = false → p = 0 → decidedPhase h u e w p = .deferred)) := by
  unfold decidedPhase
  rw [he, Bool.not_true, if_neg Bool.false_ne_true]
  refine ⟨fun hu => if_pos hu, fun h1 h2 => ?_⟩
  rw [if_neg fun hc => hc.elim h1 h2]
  refine ⟨fun h3 h4 => if_pos ⟨h3, h4⟩, fun h3 => ?_, fun h3 h4 h5 => ?_, fun h3 h4 h5 => ?_⟩
  · rw [if_neg (fun hc => by rw [h3] at hc; exact absurd hc.2 (by decide)), h3, if_pos rfl]
  · rw [if_neg fun hc => by omega, h4, if_neg Bool.false_ne_true, if_pos h5]
  · rw [if_neg fun hc => by omega, h4, if_neg Bool.false_ne_true, if_neg (by omega)]

/-- HELD is decided only with a hold reason. -/
theorem decidedPhase_held {h : HoldSet} {u : Standing} {e p : Nat} {w : Bool} (hd : decidedPhase h u e w p = .held) :
    h.isEmpty = false := by
  cases he : h.isEmpty with
  | false => rfl
  | true =>
    unfold decidedPhase at hd
    rw [he, Bool.not_true, if_neg Bool.false_ne_true] at hd
    repeat' split at hd
    all_goals cases hd

theorem HoldSet.has_of_not_isEmpty {h : HoldSet} (he : h.isEmpty = false) : ∃ r, h.has r = true := by
  by_contra hc
  push Not at hc
  have : h.isEmpty = true := HoldSet.isEmpty_iff.2 ⟨Bool.eq_false_iff.2 (hc .driver), Bool.eq_false_iff.2 (hc .permit),
    Bool.eq_false_iff.2 (hc .thermal), Bool.eq_false_iff.2 (hc .meter)⟩
  rw [this] at he; cases he

/-- What remains to be delivered reads need, deliveries and settings alone. -/
theorem State.remaining_congr {s t : State} (hset : t.settings = s.settings) {x y : Session}
    (hd : y.delivered = x.delivered) (hn : y.target = x.target) : t.remaining y = s.remaining x := by
  have hcfg : t.cfg = s.cfg := by simp only [State.cfg, hset]
  simp only [State.remaining, State.deliveredWh, State.whOf, hcfg, hd, hn]

end Sys2Proof.Machine
end

section
/-! The session at a round end, from the state before it to the state after (R85, R87, R89 to R95, R133, R136). -/

namespace Sys2Proof.Machine

section
variable {n : Bool} {s p u k v t : State} {a b early : Bool} {g0 : SendProgress}
  (h : State.RoundRun n s p u k v t a b early g0)
include h

theorem State.RoundRun.u_meter : u.meter = { s.meter with allDriven := s.meter.allDriven && s.stage.sliceDriven } := by
  have hup : u.meter = p.meter := by rw [h.before.whole]
  rw [hup, h.start]

/-- The meter's figures of the ending round, as the session's work takes them. -/
theorem State.RoundRun.figures : u.meterSliceEnd.meter.roundCount = s.countedRound ∧
    (u.meterSliceEnd.meter.capped = true ↔ s.meter.capped = true ∨ ∃ c, s.meter.ceiling = some c ∧ c < s.countedRound) ∧
    (u.meterSliceEnd.meter.silent = true ↔
      s.meter.allDriven = true ∧ s.stage.sliceDriven = true ∧ s.countedRound = 0) := by
  have hcounted : u.countedRound = s.countedRound := by unfold State.countedRound; rw [h.u_meter]
  obtain ⟨capped, hm, hc, -⟩ := u.meterSliceEnd_spec
  rw [hcounted] at hm hc
  rw [h.u_meter] at hm hc
  refine ⟨by rw [hm], by rw [hm]; exact hc, ?_⟩
  rw [hm]
  unfold MeterCounter.silent
  simp only [Bool.and_eq_true, beq_iff_eq, and_assoc]

/-- The session after a round end, by the phase the work decided and what the scan or the level test after it made of it. -/
theorem State.RoundRun.decided {x : Session} (hx : s.session = some x) : ∃ (z y : Session) (capped silence : Bool),
    t.session = some y ∧ capped = u.meterSliceEnd.meter.capped ∧ silence = u.meterSliceEnd.meter.silent ∧
    Session.Judged silence { x with
      phase := u.phase, delivered := min 4294967295 (x.delivered + (s.countedRound - (if x.openedThisRound then x.opening else 0)))
      openedThisRound := false, meterRoundsLeft := x.meterRoundsLeft - 1
      holds := if x.meterRoundsLeft = 1 then u.holds.put false .meter else u.holds
      overdrawStreak := if capped then min 3 (x.overdrawStreak + 1) else 0 } z ∧
    y = { z with phase := y.phase, holds := y.holds } ∧ y.holds.meter = z.holds.meter ∧
    u.holds.meter = x.holds.meter ∧ (u.phase = .fault ↔ x.phase = .fault) ∧ (y.phase = .fault ↔ z.phase = .fault) ∧
    (y.phase ≠ .fault → y.phase = .held ∨
      y.phase = decidedPhase y.holds t.stand.standing (t.remaining y) y.preWindow t.share.allotment) ∧
    (y.phase = .held → y.holds.isEmpty = false ∨ z.holds.thermal = true ∨ z.holds.permit = true) ∧
    (y.holds.thermal = z.holds.thermal ∨ u.holds.thermal = x.holds.thermal) ∧
    (y.holds.permit = z.holds.permit ∨ u.holds.permit = x.holds.permit) := by
  obtain ⟨xu, xv, y, c, o, q, hu, hv, hy, hc, ho, hq, hxv, hxu, hyv, hg1, hn1, hg2, hn2, hkeep, hk1, hk2⟩ := h.sessions hx
  obtain ⟨z, ph, hj, hz, hfault, hdec⟩ := k.sessionAfterRound_eq c o q xu
  rw [Session.counted_eq] at hj
  have huh : u.holds = xu.holds := State.holds_of hu
  have hup : u.phase = xu.phase := State.phase_of hu
  have hcounts : c = s.countedRound := hc.trans h.figures.1
  have hvz : xv = { z with phase := ph } := hxv.trans hz
  have hyz : y = { z with phase := y.phase, holds := y.holds } := by rw [hyv, hvz]
  have hxvh : xv.holds = z.holds := by rw [hvz]
  have hxvp : xv.phase = ph := by rw [hvz]
  have hxp : xu.phase = x.phase ∨ xu.phase = x.phase.afterHold := by
    by_cases hg : x.holds.Gains xu.holds
    · exact .inr (hg1 hg)
    · exact .inl (hn1 hg)
  have hyp : y.phase = xv.phase ∨ y.phase = xv.phase.afterHold := by
    by_cases hg : xv.holds.Gains y.holds
    · exact .inr (hg2 hg)
    · exact .inl (hn2 hg)
  have hset : t.settings = k.settings := by rw [h.after.whole, h.v_eq]
  refine ⟨z, y, o, q, hy, ho, hq, ?_, hyz, ?_, ?_, ?_, ?_, fun hnf => ?_, fun hheld => ?_, ?_, ?_⟩
  · rw [hup, huh, ← hcounts]
    have e1 : xu.delivered = x.delivered := by rw [hxu]
    have e2 : xu.openedThisRound = x.openedThisRound := by rw [hxu]
    have e3 : xu.opening = x.opening := by rw [hxu]
    have e4 : xu.meterRoundsLeft = x.meterRoundsLeft := by rw [hxu]
    have e5 : xu.overdrawStreak = x.overdrawStreak := by rw [hxu]
    rw [e1, e2, e3, e4, e5] at hj
    rw [hxu] at hj
    exact hj
  · rw [← hxvh]; exact hk2 .meter rfl
  · rw [huh]; exact hk1 .meter rfl
  · rw [hup]
    rcases hxp with e | e
    · rw [e]
    · rw [e]; exact Phase.afterHold_fault
  · rw [← hfault, ← hxvp]
    rcases hyp with e | e
    · rw [e]
    · rw [e]; exact Phase.afterHold_fault
  · have hph : ph ≠ .fault := fun e => hnf (by
      rcases hyp with e' | e'
      · rw [e', hxvp, e]
      · rw [e', hxvp, e]; rfl)
    have hd := hdec hph
    by_cases hg : xv.holds.Gains y.holds
    · left
      rw [hg2 hg, hxvp]
      have hv' : ph ≠ .vacant := by
        rw [hd]; exact (decidedPhase_spec _ _ _ _ _).2.1
      exact Phase.afterHold_open hv' hph
    · rw [hn2 hg, hxvp]
      cases he : z.holds.isEmpty with
      | false => left; rw [hd]; exact (decidedPhase_spec _ _ _ _ _).1 he
      | true =>
        right
        have hsame : y.holds = z.holds := by
          refine HoldSet.ext_has fun r => ?_
          have hzr : z.holds.has r = false := by
            cases hc' : z.holds.has r with
            | false => rfl
            | true => rw [HoldSet.isEmpty_false_of_has hc'] at he; cases he
          cases hyr : y.holds.has r with
          | false => exact hzr.symm
          | true => exact absurd ⟨r, by rw [hxvh]; exact hzr, hyr⟩ hg
        have hrem : t.remaining y = k.remaining { z with phase := ph } :=
          State.remaining_congr hset (by rw [hyz]) (by rw [hyz])
        have hpre : y.preWindow = z.preWindow := by rw [hyz]; rfl
        rw [hsame, hrem, hpre, h.t_stand, h.t_share]
        exact hd
  · by_cases hg : xv.holds.Gains y.holds
    · obtain ⟨r, -, hr⟩ := hg
      exact .inl (HoldSet.isEmpty_false_of_has hr)
    · have hph : ph = .held := by rw [← hxvp, ← hn2 hg]; exact hheld
      have hd := hdec (by rw [hph]; decide)
      rw [hph] at hd
      obtain ⟨r, hr⟩ := HoldSet.has_of_not_isEmpty (decidedPhase_held hd.symm)
      cases r with
      | thermal => exact .inr (.inl hr)
      | permit => exact .inr (.inr hr)
      | driver => exact .inl (HoldSet.isEmpty_false_of_has (r := .driver) ((hk2 .driver rfl).trans (by rw [hxvh]; exact hr)))
      | meter => exact .inl (HoldSet.isEmpty_false_of_has (r := .meter) ((hk2 .meter rfl).trans (by rw [hxvh]; exact hr)))
  · cases a with
    | true => left; rw [← hxvh]; exact hk2 .thermal rfl
    | false => right; rw [huh]; exact hk1 .thermal rfl
  · cases b with
    | true => left; rw [← hxvh]; exact hk2 .permit rfl
    | false => right; rw [huh]; exact hk1 .permit rfl

end

/-- Settles O15: the work runs once, on the session as the parts before it leave it, and the parts after it can only put
the phase at HELD; what R89 decides is read off its table. -/
theorem roundEndSession : Obligations.RoundEndSession := by
  constructor
  · intro s temps hr hi
    obtain ⟨p, u, v, a, b, early, g0, c, hrun, -, -⟩ := (s.setTemps temps).roundEnd_run true
    refine ⟨_, _, by rw [exec_eq, effect_naturalRoundEnd hr hi], rfl, fun hx => (hrun.gone hx).2.2, fun x hx => ?_⟩
    obtain ⟨z, y, capped, silence, hy, hcapped, hsilence, hj, hyz, hmeter, hum, huf, hyf, hdec, hheld, hth, hpe⟩ :=
      hrun.decided (x := x) hx
    obtain ⟨-, hfc, hfs⟩ := hrun.figures
    rw [← hcapped] at hfc
    rw [← hsilence] at hfs
    obtain ⟨j1, j2, j3, j4, j5, j6, j7, j8, j9⟩ := hj
    simp only [huf] at j4
    have hcount : ∀ d : HoldSet, d = (if x.meterRoundsLeft = 1 then u.holds.put false .meter else u.holds) →
        d.meter = if x.meterRoundsLeft = 1 then false else x.holds.meter := by
      rintro _ rfl
      split
      · exact HoldSet.put_has _ _ .meter
      · exact hum
    have hzmeter : z.holds.meter = if silence = true ∧ x.meterHolds < 2 then true
        else if x.meterRoundsLeft = 1 then false else x.holds.meter := by
      by_cases hc : silence = true ∧ x.meterHolds < 2
      · rw [j3, if_pos hc, if_pos hc]
        exact HoldSet.put_has _ _ .meter
      · rw [j3, if_neg hc, if_neg hc]
        exact hcount _ rfl
    have hother : ∀ r, r ≠ .meter → z.holds.has r = u.holds.has r := fun r hr => by
      rw [j3]
      simp only []
      split <;> split
      · rw [HoldSet.put_other _ _ hr, HoldSet.put_other _ _ hr]
      · rw [HoldSet.put_other _ _ hr]
      · rw [HoldSet.put_other _ _ hr]
      · rfl
    have hscan := (State.roundEnd_scanRun true (s.setTemps temps)).permit
    unfold State.holdOf at hscan
    rw [hy, show (s.setTemps temps).session = some x from hx] at hscan
    have hpermit : y.holds.permit = (x.holds.permit || (true && !s.pins.permit)) := Option.some.inj hscan
    refine ⟨y, capped, silence, hy, hfc, hfs, ?_, ?_, ?_, ?_, ?_, ?_, ?_, ?_, ?_, fun hf => ?_, fun hnf => ?_, fun hh => ?_, ?_⟩
    · rw [hyz, j9]; rfl
    · rw [hyz, j9]
    · rw [hyz, j9]
    · rw [hyz]; exact j1
    · rw [hyz]; exact j2
    · exact hmeter.trans hzmeter
    · rw [hyf, j4, hyz, j9]
    · intro h1 h2
      rw [hyz] at h2 ⊢
      rw [j9] at h2
      exact j5 (mt huf.1 h1) h2
    · intro h1 h2 h3 h4
      rw [hyz] at h2 ⊢
      rw [j9] at h2
      exact j6 (mt huf.1 h1) h2 h3 h4
    · rw [hyz]; exact j7 (huf.2 hf)
    · exact ⟨by rw [hyz]; exact j8 (mt hyf.2 hnf), hdec hnf⟩
    · rcases hheld hh with e | e | e
      · exact .inl e
      · rcases hth with e' | e'
        · exact .inl (HoldSet.isEmpty_false_of_has (r := .thermal) (e'.trans e))
        · exact .inr (e'.symm.trans ((hother .thermal (by decide)).symm.trans e))
      · left
        rcases hpe with e' | e'
        · exact HoldSet.isEmpty_false_of_has (r := .permit) (e'.trans e)
        · have : x.holds.permit = true := e'.symm.trans ((hother .permit (by decide)).symm.trans e)
          refine HoldSet.isEmpty_false_of_has (r := .permit) (hpermit.trans ?_)
          rw [this]; rfl
    · rw [hyz, j9]
  · intro g u e p x
    refine ⟨x.preWindow_iff, HoldSet.isEmpty_iff, fun h => (decidedPhase_spec _ _ _ _ _).1 h, fun h => ?_⟩
    exact decidedPhase_of_empty h u e p x.preWindow

end Sys2Proof.Machine
end

section
/-! The records and the claims of a round end, put together over its parts (R34, R59, R74). -/

namespace Sys2Proof.Machine

/-! ### The records -/

/-- The fault reason a PHASE record gives. -/
def State.reason (s : State) : Option FaultReason := s.session.bind fun x => if x.phase = .fault then x.faultReason else none

theorem State.phaseRecord_reason (s : State) : s.phaseRecord = .phase s.phase s.holds s.reason := State.phaseRecord_eq s

/-- Scan and level test leave the fault reason reported. -/
theorem State.HoldsRun.reason {done : HoldReason → Bool} {u t : State} (h : State.HoldsRun done u t)
    (hp : t.phase = u.phase) : t.reason = u.reason := by
  unfold State.reason
  cases hx : u.session with
  | none => rw [h.gone hx]
  | some x =>
    obtain ⟨y, hy, hyx, -⟩ := h.session x hx
    rw [State.phase_of hx, State.phase_of hy] at hp
    rw [hy]
    have hf : y.faultReason = x.faultReason := by rw [hyx]
    simp only [Option.bind_some, hp, hf]

/-- In how many of THERMAL and PERMIT two sets differ. -/
theorem HoldSet.changes_eq {h k : HoldSet} (hd : k.driver = h.driver) (hm : k.meter = h.meter) :
    h.changes k = (if k.thermal = h.thermal then 0 else 1) + (if k.permit = h.permit then 0 else 1) := by
  have h1 : h.differs k .driver = 0 := if_pos hd
  have h2 : h.differs k .meter = 0 := if_pos hm
  have h3 : h.differs k .thermal = if k.thermal = h.thermal then 0 else 1 := rfl
  have h4 : h.differs k .permit = if k.permit = h.permit then 0 else 1 := rfl
  unfold HoldSet.changes
  rw [h1, h2, h3, h4]
  omega

theorem State.HoldsRun.holds {done : HoldReason → Bool} {u t : State} (h : State.HoldsRun done u t) {r : HoldReason}
    (hr : done r = false) : t.holds.has r = u.holds.has r := by
  cases hx : u.session with
  | none => rw [State.holds_congr ((h.gone hx).trans hx.symm)]
  | some x =>
    obtain ⟨y, hy, -, hk, -⟩ := h.session x hx
    rw [State.holds_of hx, State.holds_of hy]
    exact hk r hr

theorem State.HoldsRun.phase_of_holds {done : HoldReason → Bool} {u t : State} (h : State.HoldsRun done u t)
    (he : ¬ u.holds.Gains t.holds) : t.phase = u.phase := by
  cases hx : u.session with
  | none => exact State.phase_congr ((h.gone hx).trans hx.symm)
  | some x =>
    obtain ⟨y, hy, -, -, -, hn⟩ := h.session x hx
    rw [State.holds_of hx, State.holds_of hy] at he
    rw [State.phase_of hx, State.phase_of hy]
    exact hn he

section
variable {n : Bool} {s p u k v t : State} {a b early : Bool} {g0 : SendProgress}
  (h : State.RoundRun n s p u k v t a b early g0)
include h

theorem State.RoundRun.p_phase : p.phase = s.phase := State.phase_congr h.startSession

theorem State.RoundRun.p_holds : p.holds = s.holds := State.holds_congr h.startSession

/-- The work sets no hold reason but METER. -/
theorem State.RoundRun.work_holds {r : HoldReason} (hr : r ≠ .meter) : v.holds.has r = u.holds.has r := by
  cases hx : s.session with
  | none =>
    obtain ⟨h1, h2, -⟩ := h.gone hx
    rw [State.holds_congr (h2.trans h1.symm)]
  | some x =>
    obtain ⟨xu, xv, y, c, o, q, hu, hv, -, -, -, -, -, -, -, -, -, -, -, hkeep, -⟩ := h.sessions hx
    rw [State.holds_of hu, State.holds_of hv]
    exact hkeep r hr

theorem State.RoundRun.t_holds {r : HoldReason} (hr : r ≠ .meter) :
    (heldDone a b r = true → t.holds.has r = u.holds.has r ∧ t.holds.has r = v.holds.has r) ∧
    (heldDone a b r = false → u.holds.has r = s.holds.has r ∧ v.holds.has r = s.holds.has r) := by
  have hw := h.work_holds hr
  constructor
  · intro hd
    have : t.holds.has r = v.holds.has r := h.after.holds (by cases r <;> simp_all [heldDone])
    exact ⟨this.trans hw, this⟩
  · intro hd
    have := h.before.holds hd
    rw [h.p_holds] at this
    exact ⟨this, hw.trans this⟩

/-- The two sides together make the changes of THERMAL and PERMIT. -/
theorem State.RoundRun.changes : p.holds.changes u.holds + v.holds.changes t.holds =
    (if t.holds.thermal = s.holds.thermal then 0 else 1) + (if t.holds.permit = s.holds.permit then 0 else 1) := by
  have e1 := HoldSet.changes_eq (h := p.holds) (k := u.holds) (h.before.holds (r := .driver) rfl)
    (h.before.holds (r := .meter) rfl)
  have e2 := HoldSet.changes_eq (h := v.holds) (k := t.holds) (h.after.holds (r := .driver) rfl)
    (h.after.holds (r := .meter) rfl)
  rw [h.p_holds] at e1
  rw [h.p_holds, e1, e2]
  have side : ∀ r : HoldReason, r ≠ .meter →
      (if u.holds.has r = s.holds.has r then 0 else 1) + (if t.holds.has r = v.holds.has r then 0 else 1) =
        (if t.holds.has r = s.holds.has r then 0 else 1) := by
    intro r hr
    obtain ⟨h1, h2⟩ := h.t_holds hr
    cases hd : heldDone a b r with
    | true =>
      obtain ⟨e1, e2⟩ := h1 hd
      rw [if_pos e2, e1, Nat.add_zero]
    | false =>
      obtain ⟨e1, e2⟩ := h2 hd
      rw [if_pos e1, e2, Nat.zero_add]
  have s1 : (if u.holds.thermal = s.holds.thermal then 0 else 1) + (if t.holds.thermal = v.holds.thermal then 0 else 1) =
    (if t.holds.thermal = s.holds.thermal then 0 else 1) := side .thermal (by decide)
  have s2 : (if u.holds.permit = s.holds.permit then 0 else 1) + (if t.holds.permit = v.holds.permit then 0 else 1) =
    (if t.holds.permit = s.holds.permit then 0 else 1) := side .permit (by decide)
  omega

theorem State.RoundRun.work_reason (hp : v.phase = u.phase) : v.reason = u.reason := by
  unfold State.reason
  cases hx : s.session with
  | none =>
    obtain ⟨h1, h2, -⟩ := h.gone hx
    rw [h1, h2]
  | some x =>
    obtain ⟨xu, xv, y, c, o, q, hu, hv, -, -, -, -, hxv, -⟩ := h.sessions hx
    obtain ⟨z, ph, hj, hz, hfault, -⟩ := k.sessionAfterRound_eq c o q xu
    rw [State.phase_of hu, State.phase_of hv] at hp
    rw [hu, hv]
    simp only [Option.bind_some, hp]
    split
    · next hf =>
      rw [hxv, hz]
      have := hj.faulted
      rw [Session.counted_eq] at this
      exact this hf
    · rfl

/-- The records of a round end (R74). -/
theorem State.RoundRun.reports : ∃ rs, s.ReportsChanges t rs := by
  obtain ⟨r1, l1, p1, n1, x1⟩ := h.before.records
  obtain ⟨r2, l2, p2, n2, x2⟩ := h.after.records
  have hchanges := h.changes
  have hlp : p.out.link = s.out.link := by rw [h.start]
  obtain ⟨r, hlink, hphases, hlen, hstill, hlast⟩ : ∃ r : List LinkRecord, v.out.link = u.out.link ++ r ∧
      (∀ q ∈ r, ∃ p h f, q = .phase p h f) ∧ r.length ≤ 1 ∧
      (r = [] → v.phase = u.phase ∧ v.holds = u.holds) ∧ (r ≠ [] → r.getLast? = some v.phaseRecord ∧
        (v.phase ≠ u.phase ∨ v.holds ≠ u.holds)) := by
    rcases h.work.reports with ⟨e1, e2, e3⟩ | ⟨e1, e2⟩
    · exact ⟨[], by rw [e3, List.append_nil], by simp, by simp, fun _ => ⟨e1, e2⟩, fun hn => absurd rfl hn⟩
    · refine ⟨[v.phaseRecord], e2, fun q hq => ?_, by simp, nofun, fun _ => ⟨rfl, e1⟩⟩
      rw [List.mem_singleton.1 hq, State.phaseRecord_eq]
      exact ⟨_, _, _, rfl⟩
  have hu0 : r1 = [] → u.holds = s.holds ∧ u.phase = s.phase := fun hn => by
    have he : u.holds = p.holds := HoldSet.changes_eq_zero (by rw [← n1, hn]; rfl)
    refine ⟨he.trans h.p_holds, (h.before.phase_of_holds ?_).trans h.p_phase⟩
    rw [he]; exact HoldSet.not_gains_self _
  have ht0 : r2 = [] → t.holds = v.holds ∧ t.phase = v.phase := fun hn => by
    have he : t.holds = v.holds := HoldSet.changes_eq_zero (by rw [← n2, hn]; rfl)
    refine ⟨he, h.after.phase_of_holds ?_⟩
    rw [he]; exact HoldSet.not_gains_self _
  refine ⟨r1 ++ r ++ r2, ?_, ?_, ?_, ?_, r.length, hlen, ?_⟩
  · rw [l2, hlink, l1, hlp]; simp
  · intro q hq
    rcases List.mem_append.1 hq with hq | hq
    · rcases List.mem_append.1 hq with hq | hq
      · exact p1 q hq
      · exact hphases q hq
    · exact p2 q hq
  · intro hp hh
    rw [hh] at hchanges
    have hz : r1.length + r2.length = 0 := by rw [n1, n2, hh]; simpa using hchanges
    have hr1 : r1 = [] := List.eq_nil_of_length_eq_zero (by omega)
    have hr2 : r2 = [] := List.eq_nil_of_length_eq_zero (by omega)
    obtain ⟨u1, u2⟩ := hu0 hr1
    obtain ⟨t1, t2⟩ := ht0 hr2
    have hr : r = [] := by
      by_contra hn
      rcases (hlast hn).2 with e | e
      · exact e (by rw [← t2, u2, hp])
      · exact e (by rw [← t1, u1, hh])
    rw [hr1, hr2, hr]; rfl
  · intro hc
    have hrec : t.phaseRecord = .phase t.phase t.holds t.reason := t.phaseRecord_reason
    by_cases hr2 : r2 = []
    · obtain ⟨t1, t2⟩ := ht0 hr2
      have hrt : t.reason = v.reason := h.after.reason t2
      have htv : t.phaseRecord = v.phaseRecord := by rw [t.phaseRecord_reason, v.phaseRecord_reason, t1, t2, hrt]
      rw [hr2, List.append_nil]
      by_cases hr : r = []
      · obtain ⟨v1, v2⟩ := hstill hr
        have hvu : v.phaseRecord = u.phaseRecord := by
          rw [v.phaseRecord_reason, u.phaseRecord_reason, v1, v2, h.work_reason v1]
        rw [hr, List.append_nil]
        have hr1 : r1 ≠ [] := fun hn => by
          obtain ⟨u1, u2⟩ := hu0 hn
          rcases hc with e | e
          · exact e (by rw [t2, v1, u2])
          · exact e (by rw [t1, v2, u1])
        rw [x1 hr1, ← hvu, ← htv, hrec]; rfl
      · rw [List.getLast?_append_of_ne_nil _ hr, (hlast hr).1, ← htv, hrec]; rfl
    · rw [List.getLast?_append_of_ne_nil _ hr2, x2 hr2, hrec]; rfl
  · rw [List.length_append, List.length_append, n1, n2, Nat.add_assoc r.length, ← hchanges]
    omega

end

end Sys2Proof.Machine
end

section
/-! The claims of a round end: how many, and what the last of them is formed of (R34, R54, R59). -/

namespace Sys2Proof.Machine

/-- A claim of a HELD session asks for nothing (R54). -/
theorem State.claimNow_held {w : State} {z : Session} (hw : w.session = some z) (hp : z.phase = .held)
    (hh : z.holds.isEmpty = false) : w.claimNow.phase = .held ∧ w.claimNow.q = 0 := by
  obtain ⟨h1, -, -, -, h4, h5⟩ := State.claimNow_session hw
  have hhold : w.claimNow.hold = true := by
    obtain ⟨r, hr⟩ := HoldSet.has_of_not_isEmpty hh
    rw [State.claimNow_hold, h4]
    cases r
    · exact .inl hr
    · exact .inr (.inl hr)
    · exact .inr (.inr (.inl hr))
    · exact .inr (.inr (.inr hr))
  exact ⟨h1.trans hp, h5 (.inr hhold)⟩

theorem heldDone_other {a b : Bool} {r : HoldReason} (h : heldDone (!a) (!b) r = true) : heldDone a b r = false := by
  cases r <;> simp_all [heldDone]

/-- With no more claims than the sequence tells apart, it stands where none is formed, and only there. -/
theorem State.Sends.sequence_iff {s t : State} {g : SendProgress} (h : s.Sends t g) (hn : g.claims ≤ 3) :
    t.share.sequence = s.share.sequence ↔ g.claims = 0 := by
  constructor
  · intro he
    by_contra hc
    have := h.counted (by omega)
    omega
  · exact fun hz => (h.kept hz).2

section
variable {n : Bool} {s p u k v t : State} {a b early : Bool} {g0 : SendProgress}
  (h : State.RoundRun n s p u k v t a b early g0)
include h

theorem State.RoundRun.restands_iff : k.Restands u.stand.standing ↔
    s.onLine = true ∧ t.stand.standing ≠ s.stand.standing := by
  have hus : u.stand = s.stand := by rw [h.u_eq]
  rw [State.Restands, h.k_onLine, h.t_stand, hus]

theorem State.RoundRun.reforms_iff : k.Reforms (u.decidedFrom k) ↔
    s.onLine = true ∧ v.phase ≠ u.phase ∧ v.phase.reforms = true := by
  obtain ⟨w, hk⟩ := h.k_eq
  have h1 : (u.decidedFrom k).phase = v.phase := State.phase_congr h.work.session.symm
  have h2 : k.phase = u.phase := State.phase_congr (by rw [hk])
  rw [State.Reforms, h.k_onLine, h1, h2]

/-- The work decides HELD with a hold reason. -/
theorem State.RoundRun.work_held {xv : Session} (hv : v.session = some xv) (hp : xv.phase = .held) :
    xv.holds.isEmpty = false := by
  cases hx : s.session with
  | none =>
    rw [(h.gone hx).2.1] at hv
    cases hv
  | some x =>
    obtain ⟨xu, xv', y, c, o, q, hu, hv', hy, -, -, -, hxv, -⟩ := h.sessions hx
    obtain rfl := Option.some.inj (hv.symm.trans hv')
    rcases k.sessionAfterRound_phase c o q xu with e | e
    · rw [← hxv, hp] at e; cases e
    · rw [← hxv, hp] at e
      exact decidedPhase_held e.symm

/-- How many claims a round end forms. -/
theorem State.RoundRun.claims_le {x y z : Bool} (hz : z = true ↔ s.onLine = true ∧ t.phase ≠ v.phase) :
    early.toNat + (x.toNat + y.toNat + z.toNat) ≤ 3 := by
  have hnot : early = true → z = false := fun he => Bool.eq_false_iff.2 fun hc =>
    (hz.1 hc).2 (h.entered_stays (h.entry.1 he).2).2
  cases early with
  | false => cases x <;> cases y <;> cases z <;> decide
  | true => rw [hnot rfl]; cases x <;> cases y <;> decide

theorem State.RoundRun.after_none (hp : s.onLine = true → t.phase = v.phase) : t.share = v.share ∧ t.line = v.line := by
  obtain ⟨o, hforms, hiff, -⟩ := h.after.claims
  rw [h.v_onLine] at hiff
  cases o with
  | none => exact hforms.of_none
  | some w => exact absurd (hp (hiff.1 (Option.some_ne_none w)).1) (hiff.1 (Option.some_ne_none w)).2

/-- Entry to HELD after the work forms the last claim. -/
theorem State.RoundRun.after_some (hon : s.onLine = true) (hp : t.phase ≠ v.phase) : ∃ w, t.Claimed w ∧ v.HeldClaim t w := by
  obtain ⟨o, hforms, hiff, hclaim⟩ := h.after.claims
  rw [h.v_onLine] at hiff
  cases o with
  | none => exact absurd rfl (hiff.2 ⟨hon, hp⟩)
  | some w => exact ⟨w, hforms.claimed, hclaim w rfl⟩

/-- Entry to HELD re-forms the claim with q = 0 (R59). -/
theorem State.RoundRun.heldClaim (hon : s.onLine = true) (ht : t.phase = .held) (hs : s.phase ≠ .held) :
    ∃ c, t.share.ownClaim = some c ∧ c.phase = .held ∧ c.q = 0 := by
  cases hx : s.session with
  | none =>
    have := State.phase_congr ((h.gone hx).2.2.trans hx.symm)
    exact absurd (this.symm.trans ht) hs
  | some x =>
    obtain ⟨xu, xv, y, c, o, q, hu, hv, hy, -, -, -, hxv, -, -, -, -, -, -, hkeep, -⟩ := h.sessions hx
    by_cases hz : t.phase = v.phase
    · obtain ⟨hsh, -⟩ := h.after_none fun _ => hz
      rw [hsh]
      have hvp : xv.phase = .held := by rw [← State.phase_of hv, ← hz, ht]
      have hvh := h.work_held hv hvp
      by_cases hy' : v.phase = u.phase
      · have hne : u.phase ≠ s.phase := by rw [← hy', ← hz, ht]; exact hs.symm
        have hup : xu.phase = .held := by rw [← State.phase_of hu, ← hy', ← hz, ht]
        have hnr : ¬ k.Reforms (u.decidedFrom k) := fun hc => (h.reforms_iff.1 hc).2.1 hy'
        obtain ⟨xu', r, hu', -, -, -, hd, -, hr⟩ := h.entered hx hne
        obtain rfl := Option.some.inj (hu.symm.trans hu')
        by_cases hr' : k.Restands u.stand.standing
        · obtain ⟨w, hw, hwork, -⟩ := h.work.claimed (.inl hr')
          obtain ⟨k', hk⟩ := h.k_eq
          refine ⟨_, hw.own, ?_⟩
          rcases hwork.session with e | e
          · exact State.claimNow_held (e.trans (by rw [hk]; exact hu)) hup (HoldSet.isEmpty_false_of_has hr)
          · exact State.claimNow_held (e.trans (h.work.session.symm.trans hv)) hvp hvh
        · rw [(h.work.still hr' hnr).1]
          exact h.ownClaim_of_early (h.entry.2 ⟨hon, hne⟩)
      · have hr : k.Reforms (u.decidedFrom k) := h.reforms_iff.2 ⟨hon, hy', by rw [← hz, ht]; rfl⟩
        obtain ⟨w, hw, -, hws⟩ := h.work.claimed (.inr hr)
        exact ⟨_, hw.own, State.claimNow_held ((hws hr).trans (h.work.session.symm.trans hv)) hvp hvh⟩
    · obtain ⟨w, hw, hheld⟩ := h.after_some hon hz
      obtain ⟨h1, h2, -⟩ := hheld.claim hv hy
      exact ⟨_, hw.own, h1, h2⟩

/-- With standing, THERMAL and PERMIT as they were, and no phase entered that re-forms the claim, none is formed. -/
theorem State.RoundRun.noClaim (hst : t.stand.standing = s.stand.standing)
    (hp : (t.phase = .attached ∨ t.phase = .charging ∨ t.phase = .deferred ∨ t.phase = .precondition) ∨
      (t.phase = s.phase ∧ t.holds.thermal = s.holds.thermal ∧ t.holds.permit = s.holds.permit)) :
    ¬ (s.onLine = true ∧ u.phase ≠ s.phase) ∧ ¬ k.Restands u.stand.standing ∧ ¬ k.Reforms (u.decidedFrom k) ∧
      ¬ (s.onLine = true ∧ t.phase ≠ v.phase) := by
  have hearly : u.phase = s.phase := by
    by_contra hne
    rcases hp with hp | ⟨-, h1, h2⟩
    · obtain ⟨h1, h2⟩ := h.entered_stays hne
      rw [← h2] at h1
      rcases h1 with h1 | h1 <;> rw [h1] at hp <;> rcases hp with hp | hp | hp | hp <;> cases hp
    · obtain ⟨x, y, hx, hy, -, -, hr⟩ := h.entersHeld hne
      rw [State.holds_of hx, State.holds_of hy] at h1 h2
      rcases hr with ⟨e1, e2⟩ | ⟨e1, e2⟩
      · rw [h1, e1] at e2; cases e2
      · rw [h2, e1] at e2; cases e2
  have hlate : t.phase = v.phase := by
    by_contra hne
    rcases hp with hp | ⟨-, h1, h2⟩
    · rw [h.late_held hne] at hp
      rcases hp with hp | hp | hp | hp <;> cases hp
    · refine hne (h.after.phase_of_holds ?_)
      rintro ⟨r, e1, e2⟩
      have hts : t.holds.has r = s.holds.has r → heldDone a b r = false → r ≠ .meter → False := fun e hd hr => by
        rw [e, ← ((h.t_holds hr).2 hd).2, e1] at e2; cases e2
      have hdone : heldDone (!a) (!b) r = true := by
        by_contra hc
        rw [h.after.holds (Bool.eq_false_iff.2 hc), e1] at e2; cases e2
      cases r with
      | thermal => exact hts h1 (by cases a <;> simp_all [heldDone]) (by decide)
      | permit => exact hts h2 (by cases b <;> simp_all [heldDone]) (by decide)
      | driver => cases hdone
      | meter => cases hdone
  refine ⟨fun hc => hc.2 hearly, fun hc => (h.restands_iff.1 hc).2 hst, fun hc => ?_, fun hc => hc.2 hlate⟩
  obtain ⟨-, h1, h2⟩ := h.reforms_iff.1 hc
  rcases hp with hp | ⟨hp, -⟩
  · rw [← hlate] at h2
    rcases hp with hp | hp | hp | hp <;> rw [hp] at h2 <;> cases h2
  · exact h1 (by rw [← hlate, hp, hearly])

theorem State.RoundRun.thermal_of : (u.thermal = s.thermal ∨ u.thermal = t.thermal) ∧ v.thermal = u.thermal := by
  have hv : v.thermal = u.thermal := by
    obtain ⟨w, hk⟩ := h.k_eq
    rw [h.v_eq, hk]
  refine ⟨?_, hv⟩
  cases a with
  | false =>
    left
    rw [h.before.thermal rfl, h.start]
  | true =>
    right
    rw [h.after.thermal rfl, hv]

/-- A passage to TOPPED or FAULT is the work's decision. -/
theorem State.RoundRun.reforms_of_passage (hon : s.onLine = true) (hz : t.phase = v.phase) (h1 : t.phase ≠ s.phase)
    (h2 : t.phase = .topped ∨ t.phase = .fault) : k.Reforms (u.decidedFrom k) := by
  refine h.reforms_iff.2 ⟨hon, fun he => ?_, by rw [← hz]; rcases h2 with e | e <;> rw [e] <;> rfl⟩
  have hne : u.phase ≠ s.phase := by rw [← he, ← hz]; exact h1
  cases hx : s.session with
  | none => exact hne (State.phase_congr ((h.gone hx).1.trans hx.symm))
  | some x =>
    obtain ⟨xu, r, hu, hup, -⟩ := h.entered hx hne
    rw [hz, he, State.phase_of hu, hup] at h2
    rcases h2 with e | e <;> cases e

/-- A change of standing, and a passage to TOPPED or FAULT, re-form the claim (R34, R59). -/
theorem State.RoundRun.reformed (hon : s.onLine = true)
    (hc : t.stand.standing ≠ s.stand.standing ∨ (t.phase ≠ s.phase ∧ (t.phase = .topped ∨ t.phase = .fault))) :
    ∃ w : State, t.Claimed w ∧ w.stand = t.stand ∧ w.settings = s.settings ∧ w.share.allotment = t.share.allotment ∧
      (w.thermal = s.thermal ∨ w.thermal = t.thermal) ∧
      (w.meter.roundCount = t.meter.holdCount ∨ w.meter.roundCount = 0) ∧
      (t.phase ≠ s.phase → t.phase = .topped ∨ t.phase = .fault → w.phase = t.phase) ∧
      (s.session = none → w.session = none) ∧
      ∀ x y, s.session = some x → t.session = some y → ∃ z, w.session = some z ∧
        (z = { x with phase := z.phase, holds := z.holds } ∨ z = { y with phase := z.phase, holds := z.holds }) ∧
        (z.phase = x.phase ∨ z.phase = y.phase ∨ (z.phase = .held ∧ s.EntersHeld t)) ∧
        ∀ r, z.holds.has r = x.holds.has r ∨ z.holds.has r = y.holds.has r := by
  obtain ⟨k', hk⟩ := h.k_eq
  obtain ⟨m, l, hcore⟩ := h.work.core
  obtain ⟨hth, hvth⟩ := h.thermal_of
  have hkset : k.settings = s.settings := by rw [hk, h.u_eq]
  have hmeter : t.meter = v.meter := by rw [h.after.whole]
  by_cases hz : t.phase = v.phase
  · obtain ⟨hsh, hli⟩ := h.after_none fun _ => hz
    have hforms : k.Restands u.stand.standing ∨ k.Reforms (u.decidedFrom k) := by
      rcases hc with hc | ⟨h1, h2⟩
      · exact .inl (h.restands_iff.2 ⟨hon, hc⟩)
      · exact .inr (h.reforms_of_passage hon hz h1 h2)
    obtain ⟨w, hw, hwork, hws⟩ := h.work.claimed hforms
    refine ⟨w, hw.of_same (by rw [hsh]) (by rw [hsh]) (by rw [hli]), hwork.stand.trans h.t_stand.symm,
      hwork.settings.trans hkset, hwork.allotment.trans h.t_share.symm, ?_, .inl ?_, fun h1 h2 => ?_, fun hx => ?_,
      fun x y hx hy => ?_⟩
    · have : w.thermal = u.thermal := by rw [hwork.thermal, hk]
      rw [this]; exact hth
    · rw [hwork.meter, hmeter, h.work.meter, hcore.meter]
      show u.meterSliceEnd.meter.roundCount = u.countedRound
      obtain ⟨_, hm, -⟩ := u.meterSliceEnd_spec
      rw [hm]
    · have hr := h.reforms_of_passage hon hz h1 h2
      rw [hz]
      exact State.phase_congr ((hws hr).trans h.work.session.symm)
    · obtain ⟨g1, g2, -⟩ := h.gone hx
      rcases hwork.session with e | e
      · rw [e, hk]; exact g1
      · rw [e, ← h.work.session]; exact g2
    · obtain ⟨xu, xv, y', c, o, q, hu, hv, hy', -, -, -, hxv, hxu, hyv, -, -, -, -, hkeep, hk1, hk2⟩ := h.sessions hx
      obtain rfl := Option.some.inj (hy.symm.trans hy')
      have hmix : ∀ r, r ≠ .meter → (xu.holds.has r = x.holds.has r ∨ xu.holds.has r = y.holds.has r) := fun r hr => by
        cases hd : heldDone a b r with
        | false => exact .inl (hk1 r hd)
        | true => exact .inr (h.lasts hd hx hu hy).symm
      rcases hwork.session with e | e
      · refine ⟨xu, e.trans (by rw [hk]; exact hu), .inl hxu, ?_, fun r => ?_⟩
        · by_cases hne : u.phase = s.phase
          · left; rw [← State.phase_of hu, hne, State.phase_of hx]
          · obtain ⟨xu', r, hu', hup, -⟩ := h.entered hx hne
            obtain rfl := Option.some.inj (hu.symm.trans hu')
            exact .inr (.inr ⟨hup, h.entersHeld hne⟩)
        · by_cases hr : r = .meter
          · exact .inl (by rw [hr]; exact hk1 .meter rfl)
          · exact hmix r hr
      · refine ⟨xv, e.trans (h.work.session.symm.trans hv), .inr ?_, .inr (.inl ?_), fun r => ?_⟩
        · rw [hyv]
        · rw [← State.phase_of hv, ← State.phase_of hy, hz]
        · by_cases hr : r = .meter
          · exact .inr (by rw [hr]; exact (hk2 .meter rfl).symm)
          · rw [hkeep r hr]; exact hmix r hr
  · obtain ⟨w, hw, hheld⟩ := h.after_some hon hz
    refine ⟨w, hw, ?_, ?_, ?_, ?_, .inr ?_, fun _ h2 => ?_, fun hx => ?_, fun x y hx hy => ?_⟩
    · rw [hheld.stand, h.after.whole]
    · rw [hheld.settings, h.v_eq]; exact hkset
    · rw [hheld.share, h.work.allotment]; exact h.t_share.symm
    · rcases hheld.thermal with e | e
      · rw [e, hvth]; exact hth
      · exact .inr e
    · rw [hheld.meter, h.work.meter]
    · rw [h.late_held hz] at h2
      rcases h2 with e | e <;> cases e
    · obtain ⟨-, g1, g2⟩ := h.gone hx
      exact absurd (State.phase_congr (g2.trans g1.symm)) hz
    · obtain ⟨xu, xv, y', c, o, q, hu, hv, hy', -, -, -, hxv, hxu, hyv, -, -, -, -, hkeep, hk1, hk2⟩ := h.sessions hx
      obtain rfl := Option.some.inj (hy.symm.trans hy')
      obtain ⟨z, hz', hzx, heach, -⟩ := hheld.session xv y hv hy
      have hyh : y.phase = .held := by rw [← State.phase_of hy]; exact h.late_held hz
      refine ⟨z, hz', .inr ?_, .inr (.inl ?_), fun r => ?_⟩
      · rw [hzx, hyv]
      · rw [hzx, hyh]
      · rcases heach r with e | e
        · cases hd : heldDone (!a) (!b) r with
          | false => exact .inr (e.trans (hk2 r hd).symm)
          | true =>
            left
            rw [e, hkeep r (by rintro rfl; cases hd)]
            exact hk1 r (heldDone_other hd)
        · exact .inr e

end

end Sys2Proof.Machine
end

section
/-! A whole round end as the model shows it: stage control, the line engine, and what stands (R3, R57, R59, R111 to R121,
R158, R163). -/

namespace Sys2Proof.Machine

section
variable {n : Bool} {s p u k v t : State} {a b early : Bool} {g0 : SendProgress}
  (h : State.RoundRun n s p u k v t a b early g0)
include h

/-! ### Stage control -/

theorem State.RoundRun.after_permission : (u.decidedFrom k).permission = v.permission := by
  refine (State.permission_congr ?_ ?_ ?_).symm
  · exact h.work.session
  · rw [h.v_eq]; rfl
  · rw [h.v_eq]; rfl

/-- Stage control as the work leaves it (R114). -/
theorem State.RoundRun.work_stage : v.Settled ∧ v.Stopped ∧ v.stage.cap = false ∧ v.stage.startOwed = false ∧
    v.stage.lagSlice = s.stage.lagSlice ∧
    (v.permission = true →
      (k.share.allotment ≤ u.stage.applied ∨ s.stage.lagSlice = some 0 →
        v.stage.applied = min k.share.allotment u.thermal.mEff ∧ v.stage.pendingIncrease = none) ∧
      (u.stage.applied < k.share.allotment → s.stage.lagSlice ≠ some 0 →
        v.stage.applied = u.stage.applied ∧ v.stage.pendingIncrease = some k.share.allotment)) := by
  obtain ⟨g, hg, hst, -⟩ := (u.decidedFrom k).stageRoundEnd_stage
  rw [← h.work.stage, h.after_permission] at hst
  obtain ⟨c, w, d, hm⟩ := u.meterSliceEnd_stage
  obtain ⟨m, l, hcore⟩ := h.work.core
  have hks : k.stage = u.meterSliceEnd.stage := by
    have := hcore.whole
    rw [this]
  have hkth : k.thermal = u.thermal := by
    have := hcore.whole
    rw [this]
  rw [h.after_permission] at hg
  have hg : g = ({ u.stage with
      cap := false, wordSent := w, sliceDriven := true, pendingIncrease := none, enable := v.permission, startOwed := false } :
      StageControl).decide v.permission k.share.allotment u.thermal.mEff := by
    rw [hg]
    show StageControl.decide { k.stage with
      pendingIncrease := none, cap := false, enable := v.permission, sliceDriven := true, startOwed := false } _ _ k.thermal.mEff = _
    rw [hks, hm, hkth]
    rfl
  have hframe := StageControl.decide_frame ({ u.stage with
      cap := false, wordSent := w, sliceDriven := true, pendingIncrease := none, enable := v.permission, startOwed := false } :
      StageControl) v.permission k.share.allotment u.thermal.mEff
  rw [← hg] at hframe
  have hlag : u.stage.lagSlice = s.stage.lagSlice := by
    rw [h.easedBefore.lagSlice, h.start]
  have hgl : g.lagSlice = s.stage.lagSlice := by rw [hframe]; exact hlag
  have hgc : g.cap = false := by rw [hframe]
  have hgo : g.startOwed = false := by rw [hframe]
  have hge : g.enable = v.permission := by rw [hframe]
  rw [hst]
  refine ⟨⟨?_, ?_, ?_⟩, fun hp => ?_, hgc, hgo, hgl, fun hp => ⟨fun hc => ?_, fun hc hl => ?_⟩⟩
  · rw [hst]; exact hge
  · rw [hst]
    show g.applied = if g.cap then 0 else g.applied
    rw [hgc]; rfl
  · rw [hst]
    show (decide (0 < g.applied) && v.permission) = true ↔ g.enable = true ∧ 0 < g.applied
    rw [hge, Bool.and_eq_true, decide_eq_true_eq, and_comm]
  · rw [hst]
    show g.applied = 0 ∧ g.pendingIncrease = none
    rw [hg, hp]
    exact ⟨rfl, rfl⟩
  · show g.applied = _ ∧ g.pendingIncrease = none
    rw [hg, hp]
    unfold StageControl.decide
    rw [if_pos rfl]
    by_cases hle : k.share.allotment ≤ u.stage.applied
    · rw [if_pos hle]; exact ⟨rfl, rfl⟩
    · rw [if_neg hle, if_pos (hlag.trans (hc.resolve_left hle))]; exact ⟨rfl, rfl⟩
  · show g.applied = _ ∧ g.pendingIncrease = _
    rw [hg, hp]
    unfold StageControl.decide
    rw [if_pos rfl, if_neg (by exact Nat.not_le.2 hc), if_neg fun e => hl (hlag.symm.trans e)]
    exact ⟨rfl, rfl⟩

/-- The demand words of a round end: at least one, and the last is the word sent. -/
theorem State.RoundRun.words : ∃ ws, ws.getLast? = some t.stage.wordSent ∧ t.out.stage = s.out.stage ++ ws := by
  obtain ⟨w1, e1, -⟩ := h.easedBefore.words
  obtain ⟨w2, e2, l2⟩ := h.work.words
  obtain ⟨w3, e3, s3, l3⟩ := h.easedAfter.words
  have hp : p.out.stage = s.out.stage := by rw [h.start]
  refine ⟨w1 ++ w2 ++ w3, ?_, by rw [e3, e2, e1, hp]; simp⟩
  by_cases hn : w3 = []
  · rw [hn, List.append_nil, s3 hn, List.getLast?_append_of_ne_nil _ fun hc => by rw [hc] at l2; cases l2]
    exact l2
  · rw [List.getLast?_append_of_ne_nil _ hn]
    exact l3 hn

theorem State.RoundRun.outLine : t.out.line = s.out.line := by
  rw [h.after.outLine, h.work.outLine, h.before.outLine, h.start]

/-! ### What stands -/

theorem State.RoundRun.t_eq : t = { s with
    timer := t.timer, stand := t.stand, peers := t.peers, share := t.share, session := t.session, notices := t.notices
    stage := t.stage, meter := t.meter, thermal := t.thermal, line := t.line, out := t.out, choices := t.choices
    freeCount := t.freeCount } := by
  have e1 := h.after.whole
  obtain ⟨w, e3⟩ := h.k_eq
  rw [h.v_eq, e3, h.u_eq] at e1
  rw [e1]

theorem State.RoundRun.t_timer : t.timer = { s.timer with
    sliceCounter := 0, sliceIndex := 0, roundCount := (s.timer.roundCount + 1) % 65536
    aligned := s.timer.aligned || (s.stand.standing == .listening &&
      (t.stand.standing == .joined || t.stand.standing == .isolated)) } := by
  obtain ⟨m, l, hc⟩ := h.work.core
  have htk : t.timer = k.timer := by rw [h.after.whole, h.v_eq]
  have hus : u.stand = s.stand := by rw [h.u_eq]
  have hut : u.timer = s.timer := by rw [h.u_eq]
  rw [htk, hc.timer, h.t_stand, hus, hut]

theorem State.RoundRun.aligned : t.timer.aligned = k.timer.aligned := by rw [h.after.whole, h.v_eq]

theorem State.RoundRun.t_meter : t.meter =
    { sliceCount := 0, roundCount := 0, holdCount := s.countedRound
      ceiling := some (t.share.allotment * (s.cfg.sliceDiv * s.cfg.roundDiv) * s.cfg.ppk * s.cfg.edges * 9 /
        288000000 + 2)
      capped := false, allDriven := true } := by
  obtain ⟨m, l, hc⟩ := h.work.core
  obtain ⟨_, hm, -⟩ := u.meterSliceEnd_spec
  have htv : t.meter = v.meter := by rw [h.after.whole]
  have hcfg : u.cfg = s.cfg := by rw [h.u_eq]; rfl
  have hcounted : u.countedRound = s.countedRound := by unfold State.countedRound; rw [h.u_meter]
  rw [htv, h.work.meter, hc.meter, hm, h.t_share, hcfg, hcounted]
  rfl

theorem State.RoundRun.peers : t.peers =
    { entries := keptEntries s.timer.roundCount s.peers.entries
      dHanded := presumedDraws s.pool.lone s.timer.roundCount (keptEntries s.timer.roundCount s.peers.entries)
      claimantsHanded := (tableClaimants s.pool.lone s.timer.roundCount
        (keptEntries s.timer.roundCount s.peers.entries)).length } := by
  obtain ⟨m, l, hc⟩ := h.work.core
  have hpool : u.pool = s.pool := by rw [h.u_eq]; rfl
  have hut : u.timer = s.timer := by rw [h.u_eq]
  have hup : u.peers = s.peers := by rw [h.u_eq]
  rw [h.t_peers, hc.peers, hpool, hut, hup]

theorem State.RoundRun.notices : t.notices.override = s.countOverride.notices.override ∧
    t.notices.table = s.expireNotices.notices.table := by
  obtain ⟨m, l, hc⟩ := h.work.core
  have htk : t.notices = k.notices := by rw [h.after.whole, h.v_eq]
  have hun : u.notices = s.notices := by rw [h.u_eq]
  have hut : u.timer = s.timer := by rw [h.u_eq]
  rw [htk, hc.override, hc.table]
  constructor
  · simp only [State.countOverride, hun]
  · unfold State.expireNotices
    rw [hut]
    cases s.timer.clock with
    | none => exact congrArg _ hun
    | some c => exact congrArg (fun x : NoticeUnit => x.table.filter _) hun

end

end Sys2Proof.Machine
end

section
/-! What a natural round end does (R3, R4, R6, R13, R42 to R47, R59, R102, R107, R128, R129, R158, R163). -/

namespace Sys2Proof.Machine

/-- The draws of an event that discards the CLAIM and draws the post slice, at advance `j`. -/
theorem LineEngine.Tracks.draws {l m : LineEngine} {g : SendProgress} {j : Nat} (h : l.Tracks m g)
    (hj : g.drawn = some j) : 1 ≤ j ∧ j ≤ g.backoffs + 1 ∧ g.backoffs + 1 ≤ 3 ∧
    m.prng = prngAfter (g.backoffs + 1) l.prng ∧
    ((∀ a, l.sender ≠ .sending a) → m.sender = .idle ∨ m.sender = l.sender ∨
      ∃ i, 1 ≤ i ∧ i ≤ g.backoffs + 1 ∧ i ≠ j ∧ m.sender = .waiting (prngValue 16 (prngAfter i l.prng)) 0) := by
  have hadv : g.advances = g.backoffs + 1 := by unfold SendProgress.advances; rw [hj]; rfl
  obtain ⟨h1, h2⟩ := h.drawn j hj
  have hfew := h.few
  have hle : g.discarded.toNat ≤ 1 := by cases g.discarded <;> decide
  refine ⟨h1, hadv ▸ h2, by omega, hadv ▸ h.prng, fun hl => ?_⟩
  refine (h.hearing hl).imp_right fun e => e.imp_right ?_
  rintro ⟨i, i1, i2, i3, i4⟩
  exact ⟨i, i1, hadv ▸ i2, fun e => i3 (by rw [hj, e]), i4⟩

theorem postSlice_range {b : Nat} (hb : 8 ≤ b) (x : BitVec 16) :
    1 ≤ 1 + prngValue (b - 3) x ∧ 1 + prngValue (b - 3) x + 3 ≤ b := by
  have := prngValue_lt (b - 3) x (by omega)
  omega

theorem State.not_isSending {s : State} (h : s.isSending = false) : ∀ a, s.line.sender ≠ .sending a := by
  intro a ha
  unfold State.isSending at h
  rw [ha] at h
  cases h

theorem State.countOverride_eq (s : State) : s.countOverride.notices.override = (match s.notices.override with
    | none => none
    | some o => if o.rounds ≤ 1 then none else some { o with rounds := o.rounds - 1 }) := by
  unfold State.countOverride
  cases s.notices.override with
  | none => rfl
  | some o =>
    simp only []
    by_cases h : o.rounds ≤ 1
    · rw [if_pos (by omega), if_pos h]
    · rw [if_neg (by omega), if_neg h]

theorem State.expireNotices_eq (s : State) : s.expireNotices.notices.table = (match s.timer.clock with
    | none => s.notices.table
    | some now => s.notices.table.filter fun e => decide ((e.departure + 86400 - now) % 86400 ≤ 72000)) := by
  unfold State.expireNotices
  cases s.timer.clock <;> rfl

/-- On the line, no claim formed means no passage that re-forms it. -/
theorem State.RoundRun.unformed {n : Bool} {s p u k v t : State} {a b early x y z : Bool} {g0 : SendProgress}
    (h : State.RoundRun n s p u k v t a b early g0) (hon : s.onLine = true)
    (hx : x = true ↔ k.Restands u.stand.standing) (hy : y = true ↔ k.Reforms (u.decidedFrom k))
    (hz : z = true ↔ s.onLine = true ∧ t.phase ≠ v.phase) (h0 : early.toNat + (x.toNat + y.toNat + z.toNat) = 0) :
    t.stand.standing = s.stand.standing ∧ u.phase = s.phase ∧ t.phase = v.phase ∧
      (v.phase.reforms = true → v.phase = u.phase) := by
  have he : early = false := Bool.toNat_eq_zero.1 (by omega)
  have hxf : x = false := Bool.toNat_eq_zero.1 (by omega)
  have hyf : y = false := Bool.toNat_eq_zero.1 (by omega)
  have hzf : z = false := Bool.toNat_eq_zero.1 (by omega)
  refine ⟨?_, ?_, ?_, fun hr => ?_⟩ <;> by_contra hne
  · exact Bool.false_ne_true (hxf.symm.trans (hx.2 (h.restands_iff.2 ⟨hon, hne⟩)))
  · exact Bool.false_ne_true (he.symm.trans (h.entry.2 ⟨hon, hne⟩))
  · exact Bool.false_ne_true (hzf.symm.trans (hz.2 ⟨hon, hne⟩))
  · exact Bool.false_ne_true (hyf.symm.trans (hy.2 (h.reforms_iff.2 ⟨hon, hne, hr⟩)))

/-- Settles O12: the parts of the round end in any order, followed from the state before it. -/
theorem naturalRoundEnd : Obligations.NaturalRoundEnd := by
  intro s temps hr hi
  obtain ⟨p, u, v, a, b, early, g0, c, h, -, -⟩ := (s.setTemps temps).roundEnd_run true
  obtain ⟨g, j, x, y, z, hs, hg, hps, hx, hy, hz⟩ := h.progressAll
  obtain ⟨hov, htab⟩ := h.notices
  obtain ⟨rs, hrs⟩ := h.reports
  have hle := h.claims_le (x := x) (y := y) hz
  have hclaims : g.claims = early.toNat + (x.toNat + y.toNat + z.toNat) := by rw [hg]; rfl
  have hcl3 : g.claims ≤ 3 := hclaims ▸ hle
  have hseq := hs.sequence_iff hcl3
  have hdisc : g.discarded = true := by rw [hg]
  have hearlyg : g.early = early.toNat := by rw [hg]
  have hmarked : g.marked = ((s.setTemps temps).roundEnd true).timer.aligned := by rw [hg, h.aligned, Bool.true_and]
  have hdrawn : g.drawn = some j := by rw [hg]
  have hremoved : g.removed = false := by rw [hg]
  have hspared : g.spared = false := by rw [hg]
  have hwaits : (s.setTemps temps).line.claimWaits = true ↔ s.ClaimWaits := (s.claimWaits_iff).symm
  have hnoclaim : ∀ hq : ((s.setTemps temps).roundEnd true).share.sequence = s.share.sequence,
      g.early = 0 ∧ g.late = 0 := fun hq => by
    have := hseq.1 hq
    unfold SendProgress.claims at this
    omega
  obtain ⟨-, -, hcap, howed, hlag, -⟩ := h.work_stage
  have hpo : ((s.setTemps temps).roundEnd true).share.postOwed = false := by
    obtain ⟨o, hforms, -⟩ := h.after.claims
    rw [hforms.share_rest]; exact h.work.postOwed
  have hpsl : ((s.setTemps temps).roundEnd true).share.postSlice = v.share.postSlice := by
    obtain ⟨o, hforms, -⟩ := h.after.claims
    rw [hforms.share_rest]
  have hucfg : u.cfg = s.cfg := by rw [h.u_eq]; rfl
  obtain ⟨d1, d2, d3, d4, d5⟩ := hs.line.draws hdrawn
  refine ⟨_, by rw [exec_eq, effect_naturalRoundEnd hr hi], h.t_timer, h.t_meter, h.peers,
    hov.trans (State.countOverride_eq _), htab.trans (State.expireNotices_eq _), fun hal => ?_, fun hal => ?_, hs.line.reply,
    ⟨_, { hrs with }⟩, ?_, fun hw => ⟨?_, fun hq => ?_⟩, fun hw he => ?_, fun hw hq => ⟨?_, ?_⟩,
    ⟨_, j, g.backoffs + 1, hpsl.trans hps, by rw [hucfg]; rfl, d1, d2, d3, d4, fun h8 => ?_, fun at_ hat => ?_,
      fun hid => ?_, fun b' w' hwt => ⟨fun ho => ?_, fun hal hq => ?_⟩, fun hns => d5 (State.not_isSending hns)⟩,
    ?_, fun hst hph => ?_, fun hon ht hsp => ?_, fun hon hc => ⟨?_, ?_⟩, ?_, hpo, ?_, ?_, h.words, h.outLine, h.t_eq⟩
  · rw [hs.line.mark, hmarked, hal]; rfl
  · rw [hs.line.mark, hmarked, hal, hremoved]; rfl
  · rw [hs.line.counters]; rfl
  · rw [hs.line.counters]
    exact if_pos ⟨hdisc, .inl (hwaits.2 hw)⟩
  · rw [hs.line.claimLeft hdisc (hnoclaim hq).2, if_pos (.inl (hwaits.2 hw))]
  · have hne : early = false := Bool.eq_false_iff.2 fun hc => he (h.entersHeld (h.entry.1 hc).2)
    rw [hs.line.counters, if_neg fun hc => hc.2.elim (fun e => hw (hwaits.1 e)) fun e => by
      rw [hearlyg, hne] at e; exact absurd e (by decide)]
    rfl
  · rw [hs.line.counters, if_neg fun hc => hc.2.elim (fun e => hw (hwaits.1 e)) fun e => by
      rw [(hnoclaim hq).1] at e; exact absurd e (by decide)]
    rfl
  · rw [hs.line.claimLeft hdisc (hnoclaim hq).2, if_neg fun hc => hc.elim (fun e => hw (hwaits.1 e)) fun e => by
      rw [(hnoclaim hq).1] at e; exact absurd e (by decide)]
    rfl
  · rw [hucfg]; exact postSlice_range h8 _
  · obtain ⟨e1, e2⟩ := hs.line.sending at_ hat
    refine ⟨by rw [e1], e2.trans ?_⟩
    have hpos : decide (0 < g.claims) =
        decide (((s.setTemps temps).roundEnd true).share.sequence ≠ s.share.sequence) := by
      rw [decide_eq_decide, ne_eq, show (_ = s.share.sequence) ↔ _ from hseq]
      omega
    rw [SendProgress.attempt, hdisc, hspared, hmarked, hpos]
    simp
  · constructor
    · intro hk
      obtain ⟨-, e2, e3⟩ := hs.line.idle hid (by omega)
      exact ⟨hmarked.symm.trans e3, hseq.2 e2⟩
    · rintro ⟨e1, e2⟩
      rw [hs.line.quiet (hseq.1 e2) (hmarked.trans e1)]
  · obtain ⟨e1, e2⟩ := hs.line.held b' w' hwt (ho.symm.imp_right fun e => ⟨e, hremoved⟩)
    exact ⟨by rw [e1], e2⟩
  · rw [hs.line.quiet (hseq.1 hq) (hmarked.trans hal)]
  · rcases Nat.eq_zero_or_pos g.claims with h0 | h0
    · exact .inl (hseq.2 h0)
    · exact .inr ⟨g.claims, h0, hcl3, hs.counted h0⟩
  · obtain ⟨n1, n2, n3, n4⟩ := h.noClaim hst hph
    refine hs.kept ?_
    rw [hclaims, Bool.eq_false_iff.2 (mt h.entry.1 n1), Bool.eq_false_iff.2 (mt hx.1 n2), Bool.eq_false_iff.2 (mt hy.1 n3),
      Bool.eq_false_iff.2 (mt hz.1 n4)]
    rfl
  · obtain ⟨cl, h1, h2, h3⟩ := h.heldClaim hon ht hsp
    refine ⟨cl, h1, h2, h3, fun hq => ?_⟩
    have h0 := hseq.1 hq
    rw [hclaims] at h0
    obtain ⟨-, e1, e2, e3⟩ := h.unformed hon hx hy hz h0
    exact hsp (e1.symm.trans ((e3 (by rw [← e2, ht]; rfl)).symm.trans (e2.symm.trans ht)))
  · intro hq
    have h0 := hseq.1 hq
    rw [hclaims] at h0
    obtain ⟨e0, e1, e2, e3⟩ := h.unformed hon hx hy hz h0
    rcases hc with hc | ⟨h1, h2⟩
    · exact hc e0
    · exact h1 (by rw [e2, e3 (by rw [← e2]; rcases h2 with e | e <;> rw [e] <;> rfl), e1]; rfl)
  · obtain ⟨w, ⟨hw1, hw2, hw3⟩, hrest⟩ := h.reformed hon hc
    exact ⟨w, hw1, hw2, hw3, hrest⟩
  · rw [h.easedAfter.owed]; exact howed
  · rw [h.easedAfter.cap]; exact hcap
  · rw [h.easedAfter.lagSlice]; exact hlag

end Sys2Proof.Machine
end

section
/-! Stage control through the parts of a slice end in any order (R111, R113, R115, R117, R120, R121, R127, R131). -/

namespace Sys2Proof.Machine

/-! ### The parts one by one -/

/-- The cap put on: the word falls to 0, and permission stands. -/
theorem State.meterSliceEnd_slackens (u : State) : State.Slackens false u u.meterSliceEnd := by
  obtain ⟨c, w, b, hst⟩ := u.meterSliceEnd_stage
  obtain ⟨m, g, o, e⟩ := u.meterSliceEnd_frame
  have hperm : u.meterSliceEnd.permission = u.permission := State.permission_congr (by rw [e]) (by rw [e]) (by rw [e])
  have hth : u.meterSliceEnd.thermal = u.thermal := by rw [e]
  have hen : u.meterSliceEnd.stage.enable = u.stage.enable := by rw [hst]
  have happ : u.meterSliceEnd.stage.applied = u.stage.applied := by rw [hst]
  have hpend : u.meterSliceEnd.stage.pendingIncrease = u.stage.pendingIncrease := by rw [hst]
  obtain ⟨hund, hsafe, hset⟩ : (u.meterSliceEnd.stage.sliceDriven = true → u.stage.sliceDriven = true) ∧
      (u.DrivenSafe → u.meterSliceEnd.DrivenSafe) ∧ (u.Settled → u.meterSliceEnd.Settled) := by
    unfold State.meterSliceEnd State.ceilingTest
    split
    · generalize hx : ({ u with
        meter := { u.meter with
          roundCount := satAdd Config.top16 u.meter.roundCount u.meter.sliceCount, sliceCount := 0, capped := true }
        stage := { u.stage with cap := true } } : State) = x
      have hxs : x.stage = { u.stage with cap := true } := by rw [← hx]
      have hxp : x.permission = u.permission := by
        refine State.permission_congr ?_ ?_ ?_ <;> rw [← hx]
      have hdue : x.SendsDue x.sendIfChanged := State.sendIfChanged_sendsDue rfl rfl
      have hword : x.sendIfChanged.stage.wordSent = 0 := by rw [hdue.word, hxs]; rfl
      obtain ⟨d, hd⟩ := x.sendIfChanged_stage
      have hxe : x.sendIfChanged.stage.enable = u.stage.enable := by rw [hd, hxs]
      have hundriven : x.sendIfChanged.stage.sliceDriven = true → u.stage.sliceDriven = true := fun h => by
        have := (hdue.driven.1 h).1
        rw [hxs] at this
        exact this
      have hnot : u.DrivenSafe → x.sendIfChanged.stage.sliceDriven = false := fun hu => Bool.eq_false_iff.2 fun h => by
        obtain ⟨-, h2⟩ := hdue.safe (by unfold State.DrivenSafe at hu ⊢; rw [hxs]; exact hu) h
        rw [hword] at h2
        exact absurd h2 (by decide)
      refine ⟨hundriven, fun hu h => ?_, fun hu => ⟨?_, ?_, ?_⟩⟩
      · rw [hnot hu] at h; cases h
      · rw [hxe, State.sendIfChanged_permission, hxp]; exact hu.enable
      · rw [hdue.word, StageControl.word, hdue.cap]
      · rw [hnot fun h => hu.driven.1 h, hword]
        exact ⟨nofun, fun h => absurd h.2 (by decide)⟩
    · exact ⟨id, id, fun ⟨h1, h2, h3⟩ => ⟨h1, h2, h3⟩⟩
  exact {
    lagSlice := by rw [hst]
    owed := by rw [hst]
    words := u.meterSliceEnd_words
    undriven := hund
    safe := hsafe
    enabled := by rw [hen, hperm]; exact id
    settled := hset
    stopped := by unfold State.Stopped; rw [hperm, happ, hpend]; exact id
    permits := by rw [hperm]; exact id
    on := fun _ => ⟨hpend, happ⟩
    off := fun h1 h2 => by rw [hperm, h1] at h2; cases h2
    kept := fun _ h => hen.trans h
    less := by rw [happ]
    cool := nofun
    thermal := fun _ => hth }

/-- Every part but the start of the slice slackens. -/
theorem SlicePart.run_slackens {p : SlicePart} (hp : p ≠ .start) (u : State) :
    State.Slackens (decide (p = .scan)) u (p.run u) := by
  have still : ∀ t : State, (∃ l sh, t = { u with line := l, share := sh }) → State.Slackens false u t := by
    rintro t ⟨_, _, rfl⟩
    exact State.Eases.toSlackens (State.Eases.of_same (u := u) rfl rfl rfl rfl)
  cases p with
  | start => exact absurd rfl hp
  | meter => exact u.meterSliceEnd_slackens
  | scan => exact u.scan_eases.toSlackens
  | permit => exact u.permitTest_eases.toSlackens
  | topped => exact u.topIfReached_eases.toSlackens
  | post => obtain ⟨_, _, e⟩ := u.postUnlessOwed_frame; exact still _ ⟨_, _, e⟩
  | mark => obtain ⟨_, e⟩ := u.discardMark_frame; exact still _ ⟨_, _, e⟩

/-- The cap state is the meter's part alone. -/
theorem SlicePart.run_cap {p : SlicePart} (hp : p ≠ .meter) (u : State) : (p.run u).stage.cap = u.stage.cap := by
  cases p with
  | meter => exact absurd rfl hp
  | scan => exact u.scan_eases.cap
  | permit => exact u.permitTest_eases.cap
  | topped => exact u.topIfReached_eases.cap
  | post => exact congrArg StageControl.cap u.postUnlessOwed_stage
  | mark => exact congrArg StageControl.cap u.discardMark_stage
  | start =>
    show u.startUnlessOwed.stage.cap = _
    unfold State.startUnlessOwed
    split
    · rfl
    · exact u.startSlice_stage.2.2.2.2

/-- The start of a slice: the power and the waiting increase settled, then the word. -/
theorem State.startSlice_eq (u : State) : ∃ g : StageControl, g.startOwed = u.stage.startOwed ∧
    u.startSlice = ({ u with stage := { g with sliceDriven := true } } : State).sendWord := by
  refine ⟨_, ?_, rfl⟩
  split
  · rfl
  · split <;> rfl

/-- Its word is sent, and the slice driven so far where ENABLE is on and the word is above 0. -/
theorem State.startSlice_word (u : State) : u.startSlice.stage.wordSent = u.startSlice.stage.word ∧
    u.startSlice.out = { u.out with stage := u.out.stage ++ [u.startSlice.stage.wordSent] } ∧
    (u.startSlice.stage.sliceDriven = true ↔ u.startSlice.stage.enable = true ∧ 0 < u.startSlice.stage.wordSent) ∧
    u.startSlice.stage.startOwed = u.stage.startOwed := by
  obtain ⟨g, howed, e⟩ := u.startSlice_eq
  rw [e]
  refine ⟨rfl, rfl, ?_, howed⟩
  show (true && decide (0 < _) && g.enable) = true ↔ g.enable = true ∧ _
  rw [Bool.true_and, Bool.and_eq_true, decide_eq_true_eq, and_comm]
  exact Iff.rfl

/-! ### All of them -/

/-- The start of the slice is among the parts done, and was not left owed. -/
def State.Started (d : State) (done : List SlicePart) : Prop := .start ∈ done ∧ d.stage.startOwed = false

/-- A waiting increase is due in this slice. -/
def State.Due (d : State) (p : Nat) : Prop :=
  d.stage.pendingIncrease = some p ∧ d.stage.lagSlice = some d.timer.sliceIndex

/-- Stage control with the parts `done` of a slice end begun in `d`. -/
structure State.SliceStage (d : State) (done : List SlicePart) (t : State) : Prop where
  lagSlice : t.stage.lagSlice = d.stage.lagSlice
  owed : t.stage.startOwed = d.stage.startOwed
  words : ∃ ws, (d.Started done → ws ≠ []) ∧ t.out.stage = d.out.stage ++ ws ∧
    (ws = [] → t.stage.wordSent = d.stage.wordSent) ∧ (ws ≠ [] → ws.getLast? = some t.stage.wordSent)
  undriven : d.stage.startOwed = true → t.stage.sliceDriven = true → d.stage.sliceDriven = true
  safe : d.Started done → t.DrivenSafe
  enabled : d.stage.enable = d.permission → t.stage.enable = t.permission
  settled : d.Started done → d.stage.enable = d.permission → t.Settled
  permits : t.permission = true → d.permission = true
  off : d.permission = true → t.permission = false →
    t.stage.applied = 0 ∧ t.stage.pendingIncrease = none ∧ t.stage.enable = false
  thermal : .scan ∉ done → t.thermal = d.thermal
  waits : t.permission = true → ¬ d.Started done ∨ (∀ p, ¬ d.Due p) →
    t.stage.pendingIncrease = d.stage.pendingIncrease ∧
    t.stage.applied = if .scan ∈ done then min d.stage.applied t.thermal.mEff else d.stage.applied
  takes : t.permission = true → d.Started done → ∀ p, d.Due p → t.stage.pendingIncrease = none ∧
    ((.scan ∉ done ∧ t.stage.applied = min p d.thermal.mEff) ∨
      (.scan ∈ done ∧ (t.stage.applied = min p t.thermal.mEff ∨
        t.stage.applied = min (min p d.thermal.mEff) t.thermal.mEff)))

theorem State.SliceStage.start (d : State) : d.SliceStage [] d where
  lagSlice := rfl
  owed := rfl
  words := ⟨[], fun h => by simp [State.Started] at h, by simp, fun _ => rfl, fun h => absurd rfl h⟩
  undriven _ h := h
  safe h := by simp [State.Started] at h
  enabled h := h
  settled h := by simp [State.Started] at h
  permits h := h
  off h1 h2 := by rw [h1] at h2; cases h2
  thermal _ := rfl
  waits _ _ := by simp
  takes _ h := by simp [State.Started] at h

section
variable {d t w : State} {done : List SlicePart} (h : d.SliceStage done t)
include h

theorem State.SliceStage.slacken {p : SlicePart} (hp : p ≠ .start) (hn : p ∉ done)
    (hs : State.Slackens (decide (p = .scan)) t w) : d.SliceStage (p :: done) w := by
  have hstarted : d.Started (p :: done) ↔ d.Started done := by
    unfold State.Started; simp [Ne.symm hp]
  have hscan : SlicePart.scan ∈ p :: done ↔ p = .scan ∨ .scan ∈ done := by
    rw [List.mem_cons]; exact or_congr_left eq_comm
  obtain ⟨ws, w1, w2, w3, w4⟩ := h.words
  obtain ⟨vs, v2, v3, v4⟩ := State.Words.trans ⟨ws, w2, w3, w4⟩ hs.words
  refine {
    lagSlice := hs.lagSlice.trans h.lagSlice
    owed := hs.owed.trans h.owed
    words := ⟨vs, fun hst he => ?_, v2, v3, v4⟩
    undriven := fun ho hd => h.undriven ho (hs.undriven hd)
    safe := fun hst => hs.safe (h.safe (hstarted.1 hst))
    enabled := fun he => hs.enabled (h.enabled he)
    settled := fun hst he => hs.settled (h.settled (hstarted.1 hst) he)
    permits := fun hw => h.permits (hs.permits hw)
    off := fun hd hw => ?_
    thermal := fun hns => ?_
    waits := fun hw hc => ?_
    takes := fun hw hst q hq => ?_ }
  · obtain ⟨xs, x2, -⟩ := hs.words
    have : d.out.stage ++ vs = d.out.stage ++ (ws ++ xs) := by rw [← v2, x2, w2, List.append_assoc]
    rw [List.append_cancel_left this] at he
    exact w1 (hstarted.1 hst) (List.append_eq_nil_iff.1 he).1
  · cases ht : t.permission with
    | true => exact hs.off ht hw
    | false =>
      obtain ⟨h1, h2, h3⟩ := h.off hd ht
      obtain ⟨h4, h5⟩ := hs.stopped (fun _ => ⟨h1, h2⟩) hw
      exact ⟨h4, h5, hs.kept ht h3⟩
  · rw [hscan, not_or] at hns
    rw [hs.thermal (decide_eq_false hns.1), h.thermal hns.2]
  · obtain ⟨e1, e2⟩ := hs.on hw
    obtain ⟨e3, e4⟩ := h.waits (hs.permits hw) (hc.imp_left (mt hstarted.2))
    refine ⟨e1.trans e3, ?_⟩
    rw [e2, e4]
    by_cases hps : p = .scan
    · subst hps
      rw [decide_eq_true rfl, if_pos rfl, if_neg hn, if_pos List.mem_cons_self]
    · rw [decide_eq_false hps, if_neg Bool.false_ne_true]
      by_cases hd : SlicePart.scan ∈ done
      · rw [if_pos hd, if_pos (hscan.2 (.inr hd)), hs.thermal (decide_eq_false hps)]
      · rw [if_neg hd, if_neg (mt hscan.1 (by simp [hps, hd]))]
  · obtain ⟨e1, e2⟩ := hs.on hw
    obtain ⟨e3, e4⟩ := h.takes (hs.permits hw) (hstarted.1 hst) q hq
    refine ⟨e1.trans e3, ?_⟩
    by_cases hps : p = .scan
    · subst hps
      rw [decide_eq_true rfl, if_pos rfl] at e2
      right
      rcases e4 with ⟨-, e4⟩ | ⟨e4, -⟩
      · exact ⟨List.mem_cons_self, .inr (by rw [e2, e4])⟩
      · exact absurd e4 hn
    · rw [decide_eq_false hps, if_neg Bool.false_ne_true] at e2
      rcases e4 with ⟨e4, e5⟩ | ⟨e4, e5⟩
      · exact .inl ⟨mt hscan.1 (by simp [hps, e4]), e2.trans e5⟩
      · refine .inr ⟨hscan.2 (.inr e4), ?_⟩
        rw [e2, hs.thermal (decide_eq_false hps)]
        exact e5

theorem State.SliceStage.startPart (hn : SlicePart.start ∉ done) (htime : t.timer.sliceIndex = d.timer.sliceIndex) :
    d.SliceStage (.start :: done) t.startUnlessOwed := by
  have hscan : SlicePart.scan ∈ SlicePart.start :: done ↔ SlicePart.scan ∈ done := by simp
  unfold State.startUnlessOwed
  by_cases ho : d.stage.startOwed = true
  · rw [if_pos (h.owed.trans ho)]
    have hno : ∀ l, ¬ d.Started l := fun l hc => by rw [hc.2] at ho; cases ho
    obtain ⟨ws, w1, w2, w3, w4⟩ := h.words
    exact {
      lagSlice := h.lagSlice
      owed := h.owed
      words := ⟨ws, fun hc => absurd hc (hno _), w2, w3, w4⟩
      undriven := h.undriven
      safe := fun hc => absurd hc (hno _)
      enabled := h.enabled
      settled := fun hc => absurd hc (hno _)
      permits := h.permits
      off := h.off
      thermal := fun hc => h.thermal (mt hscan.2 hc)
      waits := fun hp _ => by
        obtain ⟨h1, h2⟩ := h.waits hp (.inl (hno _))
        refine ⟨h1, h2.trans ?_⟩
        by_cases hd : SlicePart.scan ∈ done
        · rw [if_pos hd, if_pos (hscan.2 hd)]
        · rw [if_neg hd, if_neg (mt hscan.1 hd)]
      takes := fun _ hc => absurd hc (hno _) }
  · have hof : d.stage.startOwed = false := Bool.eq_false_iff.2 ho
    rw [if_neg (by rw [h.owed]; exact ho)]
    obtain ⟨hap, hpe, hen, hlag, hcap⟩ := t.startSlice_stage
    obtain ⟨hw, hout, hdr, howed⟩ := t.startSlice_word
    have hperm : t.startSlice.permission = t.permission := rfl
    have hth : t.startSlice.thermal = t.thermal := rfl
    obtain ⟨ws, w1, w2, w3, w4⟩ := h.words
    have hnot : ¬ d.Started done := fun hc => hn hc.1
    have hdue : ∀ q, t.permission = true → (d.Due q ↔ t.stage.pendingIncrease = some q ∧
        t.stage.lagSlice = some t.timer.sliceIndex) := fun q hp => by
      rw [State.Due, (h.waits hp (.inl hnot)).1, h.lagSlice, htime]
    refine {
      lagSlice := hlag.trans h.lagSlice
      owed := howed.trans h.owed
      words := ⟨ws ++ [t.startSlice.stage.wordSent], fun _ => by simp, by rw [hout]; show t.out.stage ++ _ = _; rw [w2, List.append_assoc],
        fun hc => by simp at hc, fun _ => List.getLast?_concat⟩
      undriven := fun hc => by rw [hof] at hc; cases hc
      safe := fun _ hd => hdr.1 hd
      enabled := fun he => hen.trans (h.enabled he)
      settled := fun _ he => ⟨hen.trans (h.enabled he), hw, hdr⟩
      permits := h.permits
      off := fun h1 h2 => ?_
      thermal := fun hc => h.thermal (mt hscan.2 hc)
      waits := fun hp hc => ?_
      takes := fun hp _ q hq => ?_ }
    · obtain ⟨h3, h4, h5⟩ := h.off h1 h2
      rw [hap, hpe, hen, h4]
      exact ⟨h3, rfl, h5⟩
    · have hnd : ∀ q, ¬ d.Due q := hc.resolve_left fun hc => hc ⟨List.mem_cons_self, hof⟩
      obtain ⟨h1, h2⟩ := h.waits hp (.inl hnot)
      have hsame : t.startSlice.stage.applied = t.stage.applied ∧
          t.startSlice.stage.pendingIncrease = t.stage.pendingIncrease := by
        rw [hap, hpe]
        cases hq : t.stage.pendingIncrease with
        | none => exact ⟨rfl, rfl⟩
        | some q =>
          simp only []
          rw [if_neg fun hl => hnd q ((hdue q hp).2 ⟨hq, hl⟩), if_neg fun hl => hnd q ((hdue q hp).2 ⟨hq, hl⟩)]
          exact ⟨rfl, rfl⟩
      refine ⟨hsame.2.trans h1, hsame.1.trans (h2.trans ?_)⟩
      by_cases hd : SlicePart.scan ∈ done
      · rw [if_pos hd, if_pos (hscan.2 hd)]; rfl
      · rw [if_neg hd, if_neg (mt hscan.1 hd)]
    · obtain ⟨hq1, hq2⟩ := (hdue q hp).1 hq
      rw [hap, hpe, hq1]
      simp only []
      rw [if_pos hq2, if_pos hq2]
      refine ⟨rfl, ?_⟩
      by_cases hd : SlicePart.scan ∈ done
      · exact .inr ⟨hscan.2 hd, .inl rfl⟩
      · exact .inl ⟨mt hscan.1 hd, by rw [h.thermal hd]⟩

/-- Another part done. -/
theorem State.SliceStage.step {p : SlicePart} (hn : p ∉ done) (htime : t.timer.sliceIndex = d.timer.sliceIndex) :
    d.SliceStage (p :: done) (p.run t) := by
  by_cases hp : p = .start
  · subst hp
    exact h.startPart hn htime
  · exact h.slacken hp hn (SlicePart.run_slackens hp t)

end

end Sys2Proof.Machine
end

section
/-! The owed starts, the state a slice end begins in, and the applied power at a slice end and at a round end (R60, R114 to
R117, R121). -/

namespace Sys2Proof.Machine

/-! ### The temperatures and the owed starts -/

theorem State.setTemps_placeFrame (temps : Temps) (slot : Slot) (p : List Byte) (s : State) :
    (s.setTemps temps).placeFrame slot p = (s.placeFrame slot p).setTemps temps := by
  have hl : (s.setTemps temps).line.sender = s.line.sender := rfl
  unfold State.placeFrame
  rw [hl]
  cases s.line.sender with
  | idle => rfl
  | waiting b w => rfl
  | sending a =>
    simp only []
    split <;> rfl

theorem State.setTemps_formClaim (temps : Temps) (s : State) :
    (s.setTemps temps).formClaim = s.formClaim.setTemps temps := by
  have ho : (s.setTemps temps).stand.standing.onLine = s.stand.standing.onLine := rfl
  have hc : (s.setTemps temps).claimNow = s.claimNow := State.claimNow_congr rfl rfl rfl rfl rfl rfl rfl rfl
  unfold State.formClaim
  rw [ho, hc]
  split
  · exact State.setTemps_placeFrame temps .claim s.claimNow.payload
      { s with share := { s.share with ownClaim := some s.claimNow, sequence := s.claimNow.sequence } }
  · rfl

theorem State.setTemps_startSlice (temps : Temps) (s : State) :
    (s.setTemps temps).startSlice = s.startSlice.setTemps temps := by
  have h : ∀ w : State, w = s.setTemps temps → w.startSlice = s.startSlice.setTemps temps := by
    intro w hw
    have h1 : w.stage = s.stage := by rw [hw]; rfl
    have h2 : w.timer = s.timer := by rw [hw]; rfl
    have h3 : w.thermal = s.thermal := by rw [hw]; rfl
    simp only [State.startSlice, h1, h2, h3]
    rw [hw]; rfl
  exact h _ rfl

theorem State.setTemps_takeStarts (temps : Temps) (s : State) :
    (s.setTemps temps).takeStarts = s.takeStarts.setTemps temps := by
  have h1 : (s.setTemps temps).timer.running = s.timer.running := rfl
  have h2 : (s.setTemps temps).stage.startOwed = s.stage.startOwed := rfl
  have h3 : (s.setTemps temps).share.postOwed = s.share.postOwed := rfl
  have h4 : (s.setTemps temps).oweStarts false false = (s.oweStarts false false).setTemps temps := rfl
  have hpost : ∀ w : State, (w.setTemps temps).postClaim = w.postClaim.setTemps temps := fun w => by
    have h5 : (w.setTemps temps).share.postSlice = w.share.postSlice := rfl
    have h6 : (w.setTemps temps).timer = w.timer := rfl
    unfold State.postClaim
    rw [h5, h6]
    split
    · exact State.setTemps_formClaim temps w
    · rfl
  unfold State.takeStarts
  simp only [h1, h2, h3, h4, State.setTemps_startSlice]
  split
  · split
    · split
      · exact hpost _
      · exact hpost _
    · split <;> rfl
  · rfl

/-! ### The owed starts -/

/-- The state with the owed start of the slice taken, the claim of the post slice yet to come. -/
def State.startTaken (s : State) : State :=
  if s.stage.startOwed then (s.oweStarts false false).startSlice else s.oweStarts false false

theorem State.takeStarts_eq {s : State} (hr : s.timer.running = true) :
    s.takeStarts = if s.share.postOwed then s.startTaken.postClaim else s.startTaken := by
  unfold State.takeStarts State.startTaken
  rw [hr]; rfl

theorem State.startTaken_eq (s : State) : s.startTaken = { s with
    stage := s.startTaken.stage, share := { s.share with postOwed := false }, out := s.startTaken.out } := by
  unfold State.startTaken
  cases s.stage.startOwed with
  | false => rfl
  | true =>
    obtain ⟨g, -, e⟩ := (s.oweStarts false false).startSlice_eq
    rw [if_pos rfl, e]; rfl

/-- What is owed is not read by a claim. -/
theorem State.claimNow_oweStarts (s : State) (a b : Bool) : (s.oweStarts a b).claimNow = s.claimNow := by
  have hask : (s.oweStarts a b).asksUncredited = s.asksUncredited := by
    simp only [State.asksUncredited, State.choose_fst_congr (s := s) (t := s.oweStarts a b) rfl rfl]
  have henergy : ∀ x, (s.oweStarts a b).claimEnergy x = s.claimEnergy x := fun x => by
    rw [State.claimEnergy, State.claimEnergy, hask]; rfl
  have hreq : ∀ x, (s.oweStarts a b).required x = s.required x := fun x => by
    rw [State.required, State.required, henergy]; rfl
  unfold State.claimNow
  simp only [hreq]
  rfl

/-- Taking the starts: stage control and words with the start, share and line with the claim. -/
theorem State.takeStarts_spec {s : State} (hr : s.timer.running = true) :
    s.takeStarts.stage = s.startTaken.stage ∧ s.takeStarts.out = s.startTaken.out ∧
    (s.share.postOwed = false → s.takeStarts.share = { s.share with postOwed := false } ∧ s.takeStarts.line = s.line) ∧
    (s.share.postOwed = true → s.share.postSlice = some s.timer.sliceIndex → s.onLine = true →
      s.takeStarts.share = { s.share with ownClaim := some s.claimNow, sequence := s.claimNow.sequence, postOwed := false } ∧
      s.line.Places s.takeStarts.line .claim s.claimNow.payload) ∧
    s.takeStarts.share.postOwed = false ∧ s.takeStarts.share.allotment = s.share.allotment ∧
    s.takeStarts.share.postSlice = s.share.postSlice ∧
    s.takeStarts = { s with
      stage := s.takeStarts.stage, share := s.takeStarts.share, line := s.takeStarts.line, out := s.takeStarts.out } := by
  have hw := s.startTaken_eq
  rw [State.takeStarts_eq hr]
  cases hp : s.share.postOwed with
  | false =>
    rw [if_neg Bool.false_ne_true, hw]
    exact ⟨rfl, rfl, fun _ => ⟨rfl, rfl⟩, nofun, rfl, rfl, rfl, rfl⟩
  | true =>
    rw [if_pos rfl]
    have hsh : s.startTaken.share = { s.share with postOwed := false } := by rw [hw]
    have hli : s.startTaken.line = s.line := by rw [hw]
    have hcl : s.startTaken.claimNow = s.claimNow := by
      rw [← s.claimNow_oweStarts false false]
      refine State.claimNow_congr ?_ ?_ ?_ ?_ ?_ ?_ ?_ ?_ <;> rw [hw] <;> rfl
    have hon : s.startTaken.onLine = s.onLine := State.onLine_congr (by rw [hw])
    have htime : s.startTaken.timer = s.timer := by rw [hw]
    unfold State.postClaim
    rw [hsh, htime]
    by_cases hps : s.share.postSlice = some s.timer.sliceIndex
    · rw [if_pos (by exact hps)]
      have hforms := s.startTaken.formClaim_forms
      have hrest := hforms.share_rest
      obtain ⟨sh, l, hf⟩ := s.startTaken.formClaim_frame
      refine ⟨by rw [hf], by rw [hf], nofun, fun _ _ ho => ?_, by rw [hrest, hsh], by rw [hrest, hsh], by rw [hrest, hsh],
        by rw [hf, hw]⟩
      have hso : s.startTaken.onLine = true := hon.trans ho
      obtain ⟨h1, -⟩ := s.startTaken.formClaim_spec hso
      have hpl := State.formClaim_places hso
      rw [hcl, hli] at hpl
      rw [hcl, hsh] at h1
      exact ⟨h1, hpl⟩
    · rw [if_neg (by exact hps), hw]
      exact ⟨rfl, rfl, nofun, fun _ hc => absurd hc hps, rfl, rfl, rfl, rfl⟩

/-- The start taken: as R115 has it, and the word sent. -/
theorem State.startTaken_stage (s : State) : s.startTaken.stage.startOwed = false ∧
    (s.stage.startOwed = false → s.startTaken.stage = { s.stage with startOwed := false } ∧ s.startTaken.out = s.out) ∧
    s.startTaken.stage.enable = s.stage.enable ∧ s.startTaken.stage.cap = s.stage.cap ∧
    s.startTaken.stage.lagSlice = s.stage.lagSlice ∧
    (s.stage.startOwed = true →
      s.startTaken.stage.wordSent = (if s.stage.cap then 0 else s.startTaken.stage.applied) ∧
      s.startTaken.out = { s.out with stage := s.out.stage ++ [s.startTaken.stage.wordSent] } ∧
      (s.startTaken.stage.sliceDriven = true ↔
        s.startTaken.stage.enable = true ∧ 0 < s.startTaken.stage.wordSent) ∧
      (∀ p, s.stage.pendingIncrease = some p → s.stage.lagSlice = some s.timer.sliceIndex →
        s.startTaken.stage.pendingIncrease = none ∧ s.startTaken.stage.applied = min p s.thermal.mEff) ∧
      (s.stage.pendingIncrease = none ∨ s.stage.lagSlice ≠ some s.timer.sliceIndex →
        s.startTaken.stage.pendingIncrease = s.stage.pendingIncrease ∧
          s.startTaken.stage.applied = s.stage.applied)) := by
  unfold State.startTaken
  cases ho : s.stage.startOwed with
  | false =>
    rw [if_neg Bool.false_ne_true]
    exact ⟨rfl, fun _ => ⟨rfl, rfl⟩, rfl, rfl, rfl, nofun⟩
  | true =>
    rw [if_pos rfl]
    obtain ⟨hap, hpe, hen, hlag, hcap⟩ := (s.oweStarts false false).startSlice_stage
    obtain ⟨hw, hout, hdr, howed⟩ := (s.oweStarts false false).startSlice_word
    refine ⟨howed, nofun, hen, hcap, hlag, fun _ => ⟨?_, hout, hdr, fun p h1 h2 => ?_, fun hc => ?_⟩⟩
    · rw [hw, StageControl.word, hcap]; rfl
    · have h1' : (s.oweStarts false false).stage.pendingIncrease = some p := h1
      rw [hap, hpe, h1']
      exact ⟨if_pos h2, if_pos h2⟩
    · have hps : (s.oweStarts false false).stage.pendingIncrease = s.stage.pendingIncrease := rfl
      rw [hap, hpe, hps]
      rcases hc with hc | hc
      · rw [hc]; exact ⟨rfl, rfl⟩
      · cases hq : s.stage.pendingIncrease with
        | none => exact ⟨rfl, rfl⟩
        | some q => exact ⟨if_neg hc, if_neg hc⟩

/-! ### The state the parts begin in -/

/-- The next slice begun, before the parts of the slice end. -/
def State.sliceBase (s : State) : State :=
  s.takeStarts.choose.2.handDriven.nextSlice.leaveStarts (s.takeStarts.choose.1 / 43200)

/-- A slice end is its parts in some order, from there. -/
theorem State.sliceExpiry_eq {s : State} (hr : s.timer.running = true) (hl : s.inLastSlice = false) :
    s.sliceExpiry = runAll ((sliceOrder s.takeStarts.choose.1).map SlicePart.run) s.sliceBase := by
  rw [State.sliceExpiry, if_pos (by simp [hr, hl])]
  rfl

theorem State.sliceBase_eq (s : State) : s.sliceBase = { s.takeStarts with
    choices := s.sliceBase.choices, freeCount := s.sliceBase.freeCount
    meter := { s.takeStarts.meter with
      allDriven := s.takeStarts.meter.allDriven && s.takeStarts.stage.sliceDriven }
    timer := { s.takeStarts.timer with sliceCounter := 0, sliceIndex := s.takeStarts.timer.sliceIndex + 1 }
    stage := { s.takeStarts.stage with startOwed := s.sliceBase.stage.startOwed }
    share := { s.takeStarts.share with postOwed := s.sliceBase.share.postOwed } } := by
  have hc := choose_eq s.takeStarts
  unfold State.sliceBase
  rw [hc]
  rfl

theorem State.sliceBase_owed {s : State} :
    (s.sliceBase.stage.startOwed = true → s.timer.sliceIndex = 1 ∧ s.takeStarts.stage.lagSlice = some 2) ∧
    (s.sliceBase.share.postOwed = true → s.timer.sliceIndex = 1 ∧ s.takeStarts.share.postSlice = some 2) := by
  obtain ⟨h1, h2, -⟩ := State.leaveStarts_spec (s.takeStarts.choose.1 / 43200) s.takeStarts.choose.2.handDriven.nextSlice
  have hc := choose_eq s.takeStarts
  have htime : s.takeStarts.choose.2.handDriven.nextSlice.timer.sliceIndex = s.timer.sliceIndex + 1 := by
    rw [hc]
    show s.takeStarts.timer.sliceIndex + 1 = _
    rw [State.takeStarts_timer]
  have hst : s.takeStarts.choose.2.handDriven.nextSlice.stage = s.takeStarts.stage := by rw [hc]; rfl
  have hsh : s.takeStarts.choose.2.handDriven.nextSlice.share = s.takeStarts.share := by rw [hc]; rfl
  rw [htime, hst] at h1
  rw [htime, hsh] at h2
  refine ⟨fun h => ?_, fun h => ?_⟩
  · obtain ⟨e1, e2⟩ := h1 h
    exact ⟨by omega, e2⟩
  · obtain ⟨e1, e2⟩ := h2 h
    exact ⟨by omega, e2⟩

/-- Stage control at a slice end. -/
theorem State.sliceExpiry_stage {s : State} (hr : s.timer.running = true) (hl : s.inLastSlice = false) :
    ∃ done, (∀ p : SlicePart, p ∈ done) ∧ s.sliceBase.SliceStage done s.sliceExpiry := by
  rw [State.sliceExpiry_eq hr hl]
  obtain ⟨done, hall, h⟩ := runSliceOrder
    (I := fun done t => s.sliceBase.SliceStage done t ∧ t.timer = s.sliceBase.timer) s.takeStarts.choose.1
    (fun done p u hp _ ⟨h1, h2⟩ => ⟨h1.step hp (by rw [h2]), by rw [SlicePart.run_timer, h2]⟩)
    ⟨State.SliceStage.start _, rfl⟩
  exact ⟨done, hall, h.1⟩

theorem effect_sliceExpiry (s : State) (temps : Temps) : effect (.sliceExpiry temps) s = (s.setTemps temps).sliceExpiry := rfl

theorem State.inLastSlice_false {s : State} (h : s.timer.sliceIndex + 1 < s.cfg.roundDiv) : s.inLastSlice = false := by
  unfold State.inLastSlice
  rw [decide_eq_false_iff_not]; omega

/-! ### The round end's power -/

section
variable {n : Bool} {s p u k v t : State} {a b early : Bool} {g0 : SendProgress}
  (h : State.RoundRun n s p u k v t a b early g0)
include h

/-- With permission at the end, the parts before the work clamp the power and do nothing else to it. -/
theorem State.RoundRun.applied_before (hidle : s.permission = false → s.stage.applied = 0) (ht : t.permission = true) :
    u.stage.applied = if a then min s.stage.applied u.thermal.mEff else s.stage.applied := by
  have hv := h.easedAfter.permits ht
  have hpp : p.permission = s.permission := by
    refine State.permission_congr ?_ ?_ ?_ <;> rw [h.start]
  have hpa : p.stage.applied = s.stage.applied := by rw [h.start]
  cases hs : s.permission with
  | false =>
    have hz := hidle hs
    have hless := h.easedBefore.less
    rw [hpa, hz] at hless
    rw [hz, Nat.zero_min, ite_self]
    exact Nat.le_zero.1 hless
  | true =>
    have hphase : u.phase = s.phase := by
      by_contra hne
      have hd := (State.permission_iff.1 hv).1
      rcases (h.entered_stays hne).1 with e | e <;> rw [e] at hd <;> rcases hd with hd | hd <;> cases hd
    have hu : u.permission = true := by
      have hsame : u.permission = s.permission := by
        unfold State.permission
        rw [hphase, h.u_eq]
      exact hsame.trans hs
    have := (h.easedBefore.on hu).2
    rw [hpa] at this
    exact this

/-- The applied power a round end leaves (R114, R117). -/
theorem State.RoundRun.applied (hidle : s.permission = false → s.stage.applied = 0) (ht : t.permission = true) :
    t.stage.applied ≤ t.share.allotment ∧ t.stage.applied ≤ t.thermal.mEff ∧
    (s.stage.applied < t.share.allotment → s.stage.lagSlice ≠ some 0 →
      t.stage.pendingIncrease = some t.share.allotment ∧ t.stage.applied = min s.stage.applied t.thermal.mEff) ∧
    (s.stage.applied < t.share.allotment → s.stage.lagSlice = some 0 → t.stage.pendingIncrease = none ∧
      (t.stage.applied = min t.share.allotment t.thermal.mEff ∨
        t.stage.applied = min (min t.share.allotment s.thermal.mEff) t.thermal.mEff)) ∧
    (t.share.allotment ≤ s.stage.applied → t.share.allotment ≤ s.thermal.mEff → t.share.allotment ≤ t.thermal.mEff →
      t.stage.pendingIncrease = none ∧ t.stage.applied = t.share.allotment) := by
  have hu := h.applied_before hidle ht
  have hv := h.easedAfter.permits ht
  obtain ⟨hpend, happ⟩ := h.easedAfter.on ht
  obtain ⟨-, -, -, -, -, hwork⟩ := h.work_stage
  obtain ⟨hnow, hlater⟩ := hwork hv
  obtain ⟨-, hvth⟩ := h.thermal_of
  have hth : (a = true → t.thermal = u.thermal) ∧ (a = false → u.thermal = s.thermal) := by
    refine ⟨fun ha => ?_, fun ha => ?_⟩
    · rw [h.easedAfter.thermal (by rw [ha]; rfl), hvth]
    · rw [h.easedBefore.thermal ha, h.start]
  rw [hpend, happ, h.t_share]
  cases a with
  | true =>
    have ht := hth.1 rfl
    rw [if_pos rfl, ← ht] at hu
    rw [← ht] at hnow
    rw [show (!true) = false from rfl, if_neg Bool.false_ne_true]
    by_cases hle : k.share.allotment ≤ u.stage.applied ∨ s.stage.lagSlice = some 0
    · obtain ⟨h1, h2⟩ := hnow hle
      rw [h1, h2]
      refine ⟨Nat.min_le_left _ _, Nat.min_le_right _ _, fun h3 h4 => ?_, fun _ _ => ⟨rfl, .inl rfl⟩, fun _ _ h5 => ⟨rfl, by omega⟩⟩
      have := hle.resolve_right h4
      omega
    · push Not at hle
      obtain ⟨h1, h2⟩ := hlater hle.1 hle.2
      rw [h1, h2]
      exact ⟨by omega, by omega, fun _ _ => ⟨rfl, hu⟩, fun _ h4 => absurd h4 hle.2, fun h3 _ h5 => by omega⟩
  | false =>
    have ht := hth.2 rfl
    rw [if_neg Bool.false_ne_true] at hu
    rw [ht] at hnow
    rw [show (!false) = true from rfl, if_pos rfl]
    by_cases hle : k.share.allotment ≤ u.stage.applied ∨ s.stage.lagSlice = some 0
    · obtain ⟨h1, h2⟩ := hnow hle
      rw [h1, h2]
      refine ⟨by omega, Nat.min_le_right _ _, fun h3 h4 => ?_, fun _ _ => ⟨rfl, .inr rfl⟩, fun _ _ h5 => ⟨rfl, by omega⟩⟩
      have := hle.resolve_right h4
      omega
    · push Not at hle
      obtain ⟨h1, h2⟩ := hlater hle.1 hle.2
      rw [h1, h2, hu]
      exact ⟨by omega, Nat.min_le_right _ _, fun _ _ => ⟨rfl, rfl⟩, fun _ h4 => absurd h4 hle.2, fun h3 _ h5 => by omega⟩

end

/-- Settles O11: the parts of a slice end follow stage control in any order, and at a round end the work decides between the
parts before and after it. -/
theorem appliedPower : Obligations.AppliedPower := by
  constructor
  · intro s temps hr hi
    have hr' : (s.setTemps temps).timer.running = true := hr
    have hl : (s.setTemps temps).inLastSlice = false := State.inLastSlice_false (s := s.setTemps temps) hi
    obtain ⟨done, hall, h⟩ := State.sliceExpiry_stage hr' hl
    obtain ⟨hst, -, -, -, -, -, -, hwhole⟩ := State.takeStarts_spec hr
    have hsame : (s.setTemps temps).takeStarts.stage = s.takeStarts.stage := by rw [State.setTemps_takeStarts]; rfl
    have hbase := (s.setTemps temps).sliceBase_eq
    have hds : (s.setTemps temps).sliceBase.stage = { s.takeStarts.stage with
        startOwed := (s.setTemps temps).sliceBase.stage.startOwed } := by rw [hbase, hsame]
    have hth : (s.setTemps temps).sliceBase.thermal = s.thermal := by rw [hbase, State.takeStarts_thermal]; rfl
    have hdi : (s.setTemps temps).sliceBase.timer.sliceIndex = s.timer.sliceIndex + 1 := by
      rw [hbase, State.takeStarts_timer]; rfl
    have hpe : (s.setTemps temps).sliceBase.stage.pendingIncrease = s.takeStarts.stage.pendingIncrease := by rw [hds]
    have hlag : (s.setTemps temps).sliceBase.stage.lagSlice = s.stage.lagSlice := by
      rw [hds, hst]; exact s.startTaken_stage.2.2.2.2.1
    have hap : (s.setTemps temps).sliceBase.stage.applied = s.takeStarts.stage.applied := by rw [hds]
    have hperm : (s.setTemps temps).sliceBase.permission = s.permission := by
      refine State.permission_congr ?_ ?_ ?_
      · rw [hbase, State.takeStarts_session]; rfl
      · rw [hbase, State.takeStarts_pins]; rfl
      · rw [hbase, State.takeStarts_stand]; rfl
    have hdue : ∀ q, (s.setTemps temps).sliceBase.Due q ↔
        s.takeStarts.stage.pendingIncrease = some q ∧ s.stage.lagSlice = some (s.timer.sliceIndex + 1) := fun q => by
      rw [State.Due, hpe, hlag, hdi]
    refine ⟨_, _, by rw [exec_eq, effect_sliceExpiry], rfl, fun ht q hq hlq ho => ?_, fun ht hc => ?_, fun h1 h2 => ?_⟩
    · obtain ⟨h1, h2⟩ := h.takes ht ⟨hall _, h.owed.symm.trans ho⟩ q ((hdue q).2 ⟨hq, hlq⟩)
      rw [hth] at h2
      exact ⟨h1, (h2.resolve_left fun hc => hc.1 (hall _)).2⟩
    · have hno : ¬ (s.setTemps temps).sliceBase.Started done ∨ ∀ q, ¬ (s.setTemps temps).sliceBase.Due q := by
        rcases hc with hc | hc | hc
        · exact .inr fun q hq => hc ((hdue q).1 hq).2
        · refine .inl fun hd => ?_
          rw [h.owed, hd.2] at hc
          cases hc
        · exact .inr fun q hq => by rw [((hdue q).1 hq).1] at hc; cases hc
      obtain ⟨h1, h2⟩ := h.waits ht hno
      rw [if_pos (hall _), hap] at h2
      exact ⟨h1.trans hpe, h2⟩
    · exact h.off (hperm.trans h1) h2
  · intro s temps hr hi hidle
    obtain ⟨p, u, v, a, b, early, g0, c, h, -, -⟩ := (s.setTemps temps).roundEnd_run true
    obtain ⟨hset, hstop, hcap, -⟩ := h.work_stage
    have hts := h.easedAfter.settled hset
    have htc := h.easedAfter.cap.trans hcap
    refine ⟨_, _, by rw [exec_eq, effect_naturalRoundEnd hr hi], rfl, hts.enable, ?_, hts.driven,
      h.easedAfter.stopped hstop, fun ht => h.applied hidle ht⟩
    rw [hts.word, StageControl.word, htc]; rfl

end Sys2Proof.Machine
end

section
/-! The session and its records through the parts of a slice end in any order (R74, R85, R88, R91, R92, R94). -/

namespace Sys2Proof.Machine

/-! ### What a part does to the session -/

theorem HoldSet.gains_put {h k m : HoldSet} {r : HoldReason} (hr : k.has r = h.has r) (hm : m = k.put (m.has r) r) :
    h.Gains m ↔ h.Gains k ∨ (k.has r = false ∧ m.has r = true) := by
  have hother : ∀ q, q ≠ r → m.has q = k.has q := fun q hq => by rw [hm]; exact HoldSet.put_other _ _ hq
  constructor
  · rintro ⟨q, h1, h2⟩
    by_cases hq : q = r
    · subst hq
      exact .inr ⟨hr.trans h1, h2⟩
    · exact .inl ⟨q, h1, by rw [← hother q hq]; exact h2⟩
  · rintro (⟨q, h1, h2⟩ | ⟨h1, h2⟩)
    · have hq : q ≠ r := fun e => by subst e; rw [hr, h1] at h2; cases h2
      exact ⟨q, h1, by rw [hother q hq]; exact h2⟩
    · exact ⟨r, hr.symm.trans h1, h2⟩

/-- CHARGING or DEFERRED with the target reached, in `t` (R94). -/
def Session.Reached (t : State) (x : Session) : Prop := x.phase.toppable = true ∧ x.target ≤ t.runningWh x

theorem State.runningWh_of_counts {s t : State} (hset : t.settings = s.settings) (hm : t.meter.roundCount = s.meter.roundCount)
    {x y : Session} (h1 : y.delivered = x.delivered) (h2 : y.openedThisRound = x.openedThisRound)
    (h3 : y.opening = x.opening) : t.runningWh y = s.runningWh x := by
  have hcfg : t.cfg = s.cfg := by simp only [State.cfg, hset]
  simp only [State.runningWh, State.runningCounts, State.whOf, hcfg, hm, h1, h2, h3]

theorem State.topIfReached_cases (u : State) : (u.topIfReached = u ∧ ∀ x, u.session = some x → ¬ x.Reached u) ∨
    ∃ x, u.session = some x ∧ x.Reached u ∧ u.topIfReached = u.changeSession (some { x with phase := .topped }) := by
  unfold State.topIfReached
  cases hx : u.session with
  | none => exact .inl ⟨rfl, fun x h => by cases h⟩
  | some x =>
    simp only []
    split
    · next h => exact .inr ⟨x, rfl, h, rfl⟩
    · next h => exact .inl ⟨rfl, fun y hy => by rw [← Option.some.inj hy]; exact h⟩

/-- TOPPED where the target is reached: one PHASE record, and a claim of it (R59, R74, R94). -/
theorem State.topIfReached_part (u : State) : ∃ o, u.Reports u.topIfReached ∧ u.Forms u.topIfReached o ∧
    (o ≠ none ↔ u.onLine = true ∧ u.topIfReached.phase ≠ u.phase) ∧
    (∀ v, o = some v → v = { u with session := u.topIfReached.session }) ∧
    u.topIfReached.out.line = u.out.line := by
  rcases u.topIfReached_cases with ⟨e, -⟩ | ⟨x, hx, hr, e⟩
  · rw [e]
    exact ⟨none, State.Reports.of_still rfl rfl, .still rfl rfl, ⟨fun h => absurd rfl h, fun h => absurd rfl h.2⟩,
      fun v h => (Option.some_ne_none v h.symm).elim, rfl⟩
  · obtain ⟨o, h1, h2, h3, h4⟩ := u.changeSession_part (some { x with phase := .topped })
    obtain ⟨v, hv, hwhole, -⟩ := u.changeSession_spec (some { x with phase := .topped })
    rw [e]
    refine ⟨o, h1, h2, h3.trans (and_congr_right fun _ => ⟨fun h => h.1, fun h => ⟨h, ?_⟩⟩), fun w hw => ?_, ?_⟩
    · rw [State.phase_of (State.changeSession_session _ _)]; rfl
    · rw [h4 w hw, State.changeSession_session]
    · rw [hv, State.evalPermission_line_out, hwhole]

/-- The hold reason that a part may set. -/
def SlicePart.reason : SlicePart → Option HoldReason
  | .scan => some .thermal
  | .permit => some .permit
  | .meter => none
  | .start => none
  | .post => none
  | .mark => none
  | .topped => none

theorem SlicePart.setsHold {p : SlicePart} {r : HoldReason} (h : p.reason = some r) (u : State) :
    ∃ o, State.SetsHold r u (p.run u) o := by
  cases p with
  | scan => cases h; exact u.scan_sets.1
  | permit => cases h; exact u.permitTest_sets.1
  | _ => cases h

theorem SlicePart.session_still {p : SlicePart} (h : p.reason = none) (ht : p ≠ .topped) (u : State) :
    (p.run u).session = u.session ∧ (p.run u).out.link = u.out.link ∧ (p.run u).out.line = u.out.line := by
  cases p with
  | topped => exact absurd rfl ht
  | scan => cases h
  | permit => cases h
  | meter =>
    obtain ⟨_, -, -, -, h1, h2, -⟩ := u.meterSliceEnd_spec
    exact ⟨u.meterSliceEnd_session, h1, h2⟩
  | start =>
    show u.startUnlessOwed.session = _ ∧ u.startUnlessOwed.out.link = _ ∧ u.startUnlessOwed.out.line = _
    unfold State.startUnlessOwed
    split
    · exact ⟨rfl, rfl, rfl⟩
    · obtain ⟨-, e, -⟩ := u.startSlice_word
      rw [e]; exact ⟨rfl, rfl, rfl⟩
  | post => exact ⟨u.postUnlessOwed_session, congrArg Outputs.link u.postUnlessOwed_out, congrArg Outputs.line u.postUnlessOwed_out⟩
  | mark => exact ⟨u.discardMark_session, congrArg Outputs.link u.discardMark_out, congrArg Outputs.line u.discardMark_out⟩

/-! ### The session with parts done -/

/-- The hold reasons set or left by the parts done. -/
def reasonDone (done : List SlicePart) (r : HoldReason) : Prop := ∃ p ∈ done, SlicePart.reason p = some r

/-- The session and its records with the parts `done` of a slice end begun in `d`. -/
structure State.SliceSession (d : State) (done : List SlicePart) (t : State) : Prop where
  gone : d.session = none → t.session = none
  session : ∀ x, d.session = some x → ∃ y, t.session = some y ∧ y = { x with phase := y.phase, holds := y.holds } ∧
    (∀ r, ¬ reasonDone done r → y.holds.has r = x.holds.has r) ∧
    (x.holds.Gains y.holds → y.phase = x.phase.afterHold) ∧
    (¬ x.holds.Gains y.holds → (.topped ∈ done ∧ x.Reached t → y.phase = .topped) ∧
      (¬ (.topped ∈ done ∧ x.Reached t) → y.phase = x.phase))
  records : ∃ rs k, t.out.link = d.out.link ++ rs ∧ (∀ r ∈ rs, ∃ p h f, r = .phase p h f) ∧
    rs.length = d.holds.changes t.holds + k ∧ k ≤ 1 ∧ (.topped ∉ done → k = 0) ∧
    (rs ≠ [] → rs.getLast? = some t.phaseRecord) ∧ (t.phase = d.phase → k = 0) ∧
    (k = 0 → ¬ d.holds.Gains t.holds → t.phase = d.phase)
  outLine : t.out.line = d.out.line
  settings : t.settings = d.settings

theorem State.SliceSession.start (d : State) : d.SliceSession [] d where
  gone h := h
  session x hx := ⟨x, hx, rfl, fun _ _ => rfl, fun h => absurd h x.holds.not_gains_self, fun _ =>
    ⟨fun h => by simp at h, fun _ => rfl⟩⟩
  records := ⟨[], 0, by simp, by simp, by simp [HoldSet.changes_self], by simp, fun _ => rfl, fun h => absurd rfl h, fun _ => rfl,
    fun _ _ => rfl⟩
  outLine := rfl
  settings := rfl

theorem SlicePart.run_settings (p : SlicePart) (u : State) : (p.run u).settings = u.settings := by
  cases p <;> simp [SlicePart.run]

theorem SlicePart.run_meter {p : SlicePart} (hp : p ≠ .meter) (u : State) : (p.run u).meter = u.meter := by
  cases p with
  | meter => exact absurd rfl hp
  | _ => simp [SlicePart.run]

theorem Phase.toppable_afterHold {p : Phase} (h : p.toppable = true) : p.afterHold = .held ∧ p ≠ .topped ∧ p ≠ .held := by
  revert h; cases p <;> decide

theorem Phase.afterHold_not_toppable (p : Phase) : p.afterHold.toppable = false := by cases p <;> rfl

/-- But for the meter's part, no part moves the delivered energy. -/
theorem SlicePart.run_reached {p : SlicePart} (hm : p ≠ .meter) (t : State) (x : Session) :
    x.Reached (p.run t) ↔ x.Reached t := by
  unfold Session.Reached
  rw [State.runningWh_of_counts (x := x) (p.run_settings t) (by rw [SlicePart.run_meter hm]) rfl rfl rfl]

theorem SlicePart.reason_inj {p q : SlicePart} {r : HoldReason} (hp : p.reason = some r) (hq : q.reason = some r) :
    q = p := by
  revert hp hq
  cases p <;> cases q <;> cases r <;> decide

section
variable {d t : State} {done : List SlicePart} (h : d.SliceSession done t) {p : SlicePart}
include h

theorem State.SliceSession.stay (hn : p ∉ done) (ho : .topped ∈ done → .meter ∈ done) (hr : p.reason = none)
    (ht : p ≠ .topped) : d.SliceSession (p :: done) (p.run t) := by
  obtain ⟨hs, hl, hol⟩ := SlicePart.session_still hr ht t
  have hdone : ∀ r, reasonDone (p :: done) r ↔ reasonDone done r := fun r => by
    unfold reasonDone
    simp [hr]
  have htop : SlicePart.topped ∈ p :: done ↔ SlicePart.topped ∈ done := by simp [Ne.symm ht]
  have hre : ∀ x : Session, (SlicePart.topped ∈ p :: done ∧ x.Reached (p.run t)) ↔ (SlicePart.topped ∈ done ∧ x.Reached t) := fun x => by
    rw [htop]
    exact and_congr_right fun hc => SlicePart.run_reached (fun e => hn (by rw [e]; exact ho hc)) t x
  obtain ⟨rs, k, r1, r2, r3, r4, r5, r6, r7, r8⟩ := h.records
  exact {
    gone := fun hx => hs.trans (h.gone hx)
    session := fun x hx => by
      obtain ⟨y, hy, h1, h2, h3, h4⟩ := h.session x hx
      exact ⟨y, hs.trans hy, h1, fun r hc => h2 r (mt (hdone r).2 hc), h3, fun hg => by rw [hre]; exact h4 hg⟩
    records := ⟨rs, k, hl.trans r1, r2, by rw [State.holds_congr hs]; exact r3, r4, fun hc => r5 (mt htop.2 hc),
      by rw [State.phaseRecord_congr hs]; exact r6, by rw [State.phase_congr hs]; exact r7,
      by rw [State.phase_congr hs, State.holds_congr hs]; exact r8⟩
    outLine := hol.trans h.outLine
    settings := (p.run_settings t).trans h.settings }

theorem State.SliceSession.phases {x y : Session} (hx : d.session = some x) (hy : t.session = some y) :
    y.phase = x.phase ∨ y.phase = x.phase.afterHold ∨ (.topped ∈ done ∧ y.phase = .topped ∧ x.phase.toppable = true) := by
  obtain ⟨y', hy', -, -, hgain, hnot⟩ := h.session x hx
  obtain rfl := Option.some.inj (hy.symm.trans hy')
  by_cases hg : x.holds.Gains y.holds
  · exact .inr (.inl (hgain hg))
  · by_cases ht : SlicePart.topped ∈ done ∧ x.Reached t
    · exact .inr (.inr ⟨ht.1, (hnot hg).1 ht, ht.2.1⟩)
    · exact .inl ((hnot hg).2 ht)

theorem State.SliceSession.afterHold {x y : Session} (hx : d.session = some x) (hy : t.session = some y) :
    y.phase.afterHold = x.phase.afterHold := by
  rcases h.phases hx hy with e | e | ⟨-, e, e'⟩
  · rw [e]
  · rw [e, Phase.afterHold_idem]
  · rw [e, (Phase.toppable_afterHold e').1]; rfl

/-- A phase that a hold reason puts back where it was at first was there before it. -/
theorem State.SliceSession.afterHold_back {x y : Session} (hx : d.session = some x) (hy : t.session = some y)
    (e : y.phase.afterHold = x.phase) : y.phase = x.phase := by
  rcases h.phases hx hy with e' | e' | ⟨-, -, e'⟩
  · exact e'
  · rw [e', ← h.afterHold hx hy, e]
  · rw [h.afterHold hx hy, (Phase.toppable_afterHold e').1] at e
    exact absurd e.symm (Phase.toppable_afterHold e').2.2

theorem State.SliceSession.hold (hn : p ∉ done) (ho : .topped ∈ done → .meter ∈ done) {r : HoldReason}
    (hr : p.reason = some r) : d.SliceSession (p :: done) (p.run t) := by
  obtain ⟨o, hs⟩ := SlicePart.setsHold hr t
  have htp : p ≠ .topped := fun e => by rw [e] at hr; cases hr
  have hdone : ∀ q, reasonDone (p :: done) q ↔ q = r ∨ reasonDone done q := fun q => by
    unfold reasonDone
    simp only [List.mem_cons, exists_eq_or_imp, hr, Option.some.injEq]
    exact or_congr_left eq_comm
  have hfresh : ¬ reasonDone done r := fun ⟨q, h1, h2⟩ => hn (SlicePart.reason_inj hr h2 ▸ h1)
  have htop : SlicePart.topped ∈ p :: done ↔ SlicePart.topped ∈ done := by simp [Ne.symm htp]
  have hre : ∀ x : Session, (SlicePart.topped ∈ p :: done ∧ x.Reached (p.run t)) ↔ (SlicePart.topped ∈ done ∧ x.Reached t) := fun x => by
    rw [htop]
    exact and_congr_right fun hc => SlicePart.run_reached (fun e => hn (by rw [e]; exact ho hc)) t x
  obtain ⟨rs, k, r1, r2, r3, r4, r5, r6, r7, r8⟩ := h.records
  cases hx : d.session with
  | none =>
    have ht := h.gone hx
    obtain ⟨hw, -⟩ := hs.gone ht
    have hsess : (p.run t).session = t.session := hw.trans ht.symm
    have hl : (p.run t).out.link = t.out.link := by
      rcases hs.reports with ⟨-, -, e⟩ | ⟨e, -⟩
      · exact e
      · rcases e with e | e
        · exact absurd (State.phase_congr hsess) e
        · exact absurd (State.holds_congr hsess) e
    exact {
      gone := fun _ => hw
      session := fun x hx' => by rw [hx] at hx'; cases hx'
      records := ⟨rs, k, hl.trans r1, r2, by rw [State.holds_congr hsess]; exact r3, r4, fun hc => r5 (mt htop.2 hc),
        by rw [State.phaseRecord_congr hsess]; exact r6, by rw [State.phase_congr hsess]; exact r7,
        by rw [State.phase_congr hsess, State.holds_congr hsess]; exact r8⟩
      outLine := hs.outLine.trans h.outLine
      settings := (p.run_settings t).trans h.settings }
  | some x =>
    obtain ⟨y, hy, hyx, hkeep, hgain, hnot⟩ := h.session x hx
    obtain ⟨z, hz, hzy, hzphase⟩ := hs.session y hy
    have hzh : z.holds = y.holds.put (z.holds.has r) r := by
      rw [hzy]; exact congrArg (y.holds.put · r) (HoldSet.put_has _ _ _).symm
    have hyr : y.holds.has r = x.holds.has r := hkeep r hfresh
    have hg := HoldSet.gains_put hyr hzh
    have hdp : d.phase = x.phase := State.phase_of hx
    have htp' : t.phase = y.phase := State.phase_of hy
    have hwp : (p.run t).phase = z.phase := State.phase_of hz
    have hdh : d.holds = x.holds := State.holds_of hx
    have hth : t.holds = y.holds := State.holds_of hy
    have hwh : (p.run t).holds = z.holds := State.holds_of hz
    have hcount : x.holds.changes z.holds = x.holds.changes y.holds + (if z.holds.has r = y.holds.has r then 0 else 1) := by
      rw [hzh, HoldSet.put_has]
      exact HoldSet.changes_put hyr _
    refine {
      gone := fun hc => by rw [hx] at hc; cases hc
      session := fun x' hx' => ?_
      records := ?_
      outLine := hs.outLine.trans h.outLine
      settings := (p.run_settings t).trans h.settings }
    · obtain rfl := Option.some.inj (hx.symm.trans hx')
      refine ⟨z, hz, by rw [hzy, hyx], fun q hq => ?_, fun hgz => ?_, fun hgz => ?_⟩
      · rw [hdone, not_or] at hq
        rw [hzh, HoldSet.put_other _ _ hq.1]
        exact hkeep q hq.2
      · rw [hzphase]
        split
        · exact h.afterHold hx hy
        · next hc => exact hgain ((hg.1 hgz).resolve_right hc)
      · have hnc : ¬ (y.holds.has r = false ∧ z.holds.has r = true) := fun hc => hgz (hg.2 (.inr hc))
        rw [hzphase, if_neg hnc, hre]
        exact hnot fun hc => hgz (hg.2 (.inl hc))
    · rw [hdh, hth] at r3 r8
      rw [hdp, htp'] at r7 r8
      rw [hdp, hdh, hwp, hwh]
      have hzk : z.phase = x.phase → k = 0 := fun e => by
        refine r7 ?_
        rw [hzphase] at e
        split at e
        · exact h.afterHold_back hx hy e
        · exact e
      have hzn : k = 0 → ¬ x.holds.Gains z.holds → z.phase = x.phase := fun e hgz => by
        rw [hzphase, if_neg fun hc => hgz (hg.2 (.inr hc))]
        exact r8 e fun hc => hgz (hg.2 (.inl hc))
      rcases hs.reports with ⟨e1, e2, e3⟩ | ⟨e1, e2⟩
      · rw [hwh, hth] at e2
        refine ⟨rs, k, e3.trans r1, r2, by rw [e2]; exact r3, r4, fun hc => r5 (mt htop.2 hc), fun hne => ?_, hzk, hzn⟩
        rw [r6 hne, State.phaseRecord_eq, State.phaseRecord_eq, e1, hwh, hth, e2, hz, hy]
        simp only [Option.bind_some]
        have hf : z.faultReason = y.faultReason := by rw [hzy]
        rw [hwp, htp'] at e1
        rw [e1, hf]
      · have hne : z.holds.has r ≠ y.holds.has r := by
          rcases e1 with e1 | e1
          · rw [hwp, htp', hzphase] at e1
            split at e1
            · next hc => rw [hc.1, hc.2]; decide
            · exact absurd rfl e1
          · intro e
            rw [hwh, hth, hzh, e, HoldSet.put_same] at e1
            exact e1 rfl
        refine ⟨rs ++ [(p.run t).phaseRecord], k, by rw [e2, r1, List.append_assoc], fun q hq => ?_, ?_, r4,
          fun hc => r5 (mt htop.2 hc), fun _ => List.getLast?_concat, hzk, hzn⟩
        · rcases List.mem_append.1 hq with hq | hq
          · exact r2 q hq
          · rw [List.mem_singleton.1 hq, State.phaseRecord_eq]
            exact ⟨_, _, _, rfl⟩
        · rw [List.length_append, List.length_singleton, r3, hcount, if_neg hne]
          omega

theorem State.SliceSession.top (hn : .topped ∉ done) :
    d.SliceSession (.topped :: done) t.topIfReached := by
  obtain ⟨o, hrep, -, -, -, hol⟩ := t.topIfReached_part
  have hdone : ∀ r, reasonDone (.topped :: done) r ↔ reasonDone done r := fun r => by
    unfold reasonDone
    simp [SlicePart.reason]
  obtain ⟨rs, k, r1, r2, r3, r4, r5, r6, r7, r8⟩ := h.records
  have hk0 := r5 hn
  have hmem : SlicePart.topped ∈ SlicePart.topped :: done := List.mem_cons_self
  have hsame : ∀ x : Session, x.Reached t.topIfReached ↔ x.Reached t := fun x =>
    SlicePart.run_reached (p := .topped) (by decide) t x
  have hmove : ∀ {x y : Session}, y = { x with phase := y.phase, holds := y.holds } → y.phase = x.phase →
      (y.Reached t ↔ x.Reached t) := fun {x y} e hp => by
    unfold Session.Reached
    rw [State.runningWh_of_counts (s := t) (t := t) (x := x) (y := y) rfl rfl (by rw [e]) (by rw [e]) (by rw [e]), hp]
    rw [e]
  rcases t.topIfReached_cases with ⟨e, hno⟩ | ⟨y, hy, hre, e⟩
  · rw [e] at hsame ⊢
    exact {
      gone := h.gone
      session := fun x hx => by
        obtain ⟨y, hy, h1, h2, h3, h4⟩ := h.session x hx
        refine ⟨y, hy, h1, fun r hc => h2 r (mt (hdone r).2 hc), h3, fun hg => ?_⟩
        have hp : y.phase = x.phase := (h4 hg).2 fun hc => hn hc.1
        exact ⟨fun hc => absurd ((hmove h1 hp).2 hc.2) (hno y hy), fun _ => hp⟩
      records := ⟨rs, k, r1, r2, r3, r4, fun _ => hk0, r6, r7, r8⟩
      outLine := h.outLine
      settings := h.settings }
  · have hts : t.topIfReached.session = some { y with phase := .topped } := by
      rw [e]; exact State.changeSession_session _ _
    cases hx : d.session with
    | none => rw [h.gone hx] at hy; cases hy
    | some x =>
      obtain ⟨y', hy', h1, h2, h3, h4⟩ := h.session x hx
      obtain rfl := Option.some.inj (hy.symm.trans hy')
      have hg : ¬ x.holds.Gains y.holds := fun hg => by
        have := hre.1
        rw [h3 hg, Phase.afterHold_not_toppable] at this
        cases this
      have hp : y.phase = x.phase := (h4 hg).2 fun hc => hn hc.1
      have hxr : x.Reached t := (hmove h1 hp).1 hre
      have hnt : x.phase ≠ .topped := (Phase.toppable_afterHold hxr.1).2.1
      refine {
        gone := fun hc => by rw [hx] at hc; cases hc
        session := fun x' hx' => ?_
        records := ?_
        outLine := hol.trans h.outLine
        settings := (SlicePart.run_settings .topped t).trans h.settings }
      · obtain rfl := Option.some.inj (hx.symm.trans hx')
        refine ⟨_, hts, by rw [h1], fun r hc => h2 r (mt (hdone r).2 hc), fun hc => absurd hc hg, fun _ =>
          ⟨fun _ => rfl, fun hc => absurd ⟨hmem, (hsame x).2 hxr⟩ hc⟩⟩
      · have hholds : t.topIfReached.holds = t.holds := by rw [State.holds_of hts, State.holds_of hy]
        have hphase : t.topIfReached.phase = .topped := State.phase_of hts
        have htp : t.phase = x.phase := (State.phase_of hy).trans hp
        have hdp : d.phase = x.phase := State.phase_of hx
        have hlink : t.topIfReached.out.link = t.out.link ++ [t.topIfReached.phaseRecord] := by
          rcases hrep with ⟨e1, -⟩ | ⟨-, e2⟩
          · rw [hphase, htp] at e1; exact absurd e1.symm hnt
          · exact e2
        refine ⟨rs ++ [t.topIfReached.phaseRecord], 1, by rw [hlink, r1, List.append_assoc], fun q hq => ?_, ?_, le_rfl,
          fun hc => absurd hmem hc, fun _ => List.getLast?_concat, fun hc => ?_, nofun⟩
        · rcases List.mem_append.1 hq with hq | hq
          · exact r2 q hq
          · rw [List.mem_singleton.1 hq, State.phaseRecord_eq]
            exact ⟨_, _, _, rfl⟩
        · rw [List.length_append, List.length_singleton, r3, hholds, hk0]
        · rw [hphase, hdp] at hc
          exact absurd hc.symm hnt

/-- What a part leaves as it was at first was so before it. -/
theorem State.SliceSession.back (hn : p ∉ done) : ((p.run t).phase = d.phase → t.phase = d.phase) ∧
    ((p.run t).session = d.session → t.session = d.session) := by
  cases hx : d.session with
  | none =>
    have hd : t.session = d.session := (h.gone hx).trans hx.symm
    exact ⟨fun _ => State.phase_congr hd, fun _ => hd.trans hx⟩
  | some x =>
    obtain ⟨y, hy, hyx, hkeep, -⟩ := h.session x hx
    rw [State.phase_of hx, State.phase_of hy]
    by_cases htp : p = .topped
    · subst htp
      show (t.topIfReached.phase = _ → _) ∧ (t.topIfReached.session = _ → _)
      rcases t.topIfReached_cases with ⟨e, -⟩ | ⟨y', hy', hre, e⟩
      · rw [e, State.phase_of hy]; exact ⟨id, id⟩
      · obtain rfl := Option.some.inj (hy.symm.trans hy')
        have hts : t.topIfReached.session = some { y with phase := .topped } := by
          rw [e]; exact State.changeSession_session _ _
        have hne : x.phase ≠ .topped := by
          rcases h.phases hx hy with e' | e' | ⟨-, -, e'⟩
          · rw [← e']; exact (Phase.toppable_afterHold hre.1).2.1
          · have := hre.1
            rw [e', Phase.afterHold_not_toppable] at this
            cases this
          · exact (Phase.toppable_afterHold e').2.1
        rw [State.phase_of hts, hts]
        refine ⟨fun hc => absurd hc.symm hne, fun hc => ?_⟩
        have := congrArg Session.phase (Option.some.inj hc)
        exact absurd this.symm hne
    · cases hr : p.reason with
      | none =>
        obtain ⟨hs, -⟩ := SlicePart.session_still hr htp t
        rw [State.phase_of (hs.trans hy), hs]
        exact ⟨id, id⟩
      | some r =>
        obtain ⟨o, hs⟩ := SlicePart.setsHold hr t
        obtain ⟨z, hz, hzy, hzphase⟩ := hs.session y hy
        have hyr : y.holds.has r = x.holds.has r := hkeep r fun ⟨q, h1, h2⟩ => hn (SlicePart.reason_inj hr h2 ▸ h1)
        have hback : z.phase = x.phase → y.phase = x.phase := fun e => by
          rw [hzphase] at e
          split at e
          · exact h.afterHold_back hx hy e
          · exact e
        rw [State.phase_of hz, hz, hy]
        refine ⟨hback, fun hc => ?_⟩
        obtain rfl := Option.some.inj hc
        have hholds : y.holds = z.holds := by
          refine HoldSet.ext_has fun q => ?_
          by_cases hq : q = r
          · rw [hq]; exact hyr
          · rw [hzy]; exact (HoldSet.put_other _ _ hq).symm
        rw [hyx, hback rfl, hholds]

/-- TOPPED where it was not so at first, by the test made; HELD where it was not so, with a reason gained. -/
theorem State.SliceSession.entered (hne : t.phase ≠ d.phase) : ∃ x y, d.session = some x ∧ t.session = some y ∧
    (t.phase = .topped → .topped ∈ done) ∧ (t.phase = .held → y.holds.isEmpty = false) := by
  cases hx : d.session with
  | none => exact absurd (State.phase_congr ((h.gone hx).trans hx.symm)) hne
  | some x =>
    obtain ⟨y, hy, -, -, hgain, hnot⟩ := h.session x hx
    rw [State.phase_of hx, State.phase_of hy] at hne
    refine ⟨x, y, rfl, hy, fun ht => ?_, fun ht => ?_⟩
    · rw [State.phase_of hy] at ht
      rcases h.phases hx hy with e | e | ⟨e, -⟩
      · exact absurd e hne
      · rw [e] at ht
        cases hp : x.phase <;> rw [hp] at ht <;> cases ht
      · exact e
    · rw [State.phase_of hy] at ht
      by_cases hg : x.holds.Gains y.holds
      · obtain ⟨r, -, hr⟩ := hg
        exact HoldSet.isEmpty_false_of_has hr
      · by_cases hc : SlicePart.topped ∈ done ∧ x.Reached t
        · rw [(hnot hg).1 hc] at ht; cases ht
        · exact absurd ((hnot hg).2 hc) hne

/-- Another part done. -/
theorem State.SliceSession.step (hn : p ∉ done) (hm : .topped ∈ done → .meter ∈ done) :
    d.SliceSession (p :: done) (p.run t) := by
  by_cases ht : p = .topped
  · subst ht
    exact h.top hn
  · cases hr : p.reason with
    | none => exact h.stay hn hm hr ht
    | some r => exact h.hold hn hm hr

end

end Sys2Proof.Machine
end

section
/-! The claims and the line engine through the parts of a slice end in any order (R8, R57, R59, R155, R156, R159, R163). -/

namespace Sys2Proof.Machine

/-- A claim formed between `d` and `t`: the state `v` it was formed in. -/
structure State.SliceClaim (d t v : State) : Prop where
  stand : v.stand = d.stand
  settings : v.settings = d.settings
  allotment : v.share.allotment = d.share.allotment
  thermal : v.thermal = d.thermal ∨ v.thermal = t.thermal
  counted : v.meter.roundCount = d.meter.roundCount ∨ v.meter.roundCount = t.meter.roundCount
  gone : d.session = none → v.session = none
  session : ∀ x, d.session = some x → ∃ y, v.session = some y ∧ y = { x with phase := y.phase, holds := y.holds } ∧
    (t.session = d.session → y = x)
  held : t.phase = .held → d.phase ≠ .held → ∃ y, v.session = some y ∧ y.phase = .held ∧ y.holds.isEmpty = false
  topped : t.phase = .topped → d.phase ≠ .topped → v.phase = .topped ∧ v.meter.roundCount = t.meter.roundCount

/-- The claim of the post slice is due, and not left owed. -/
def State.Posts (d : State) : Prop :=
  d.share.postOwed = false ∧ d.share.postSlice = some d.timer.sliceIndex ∧ d.onLine = true

/-- The claims and the line engine with the parts `done` of a slice end begun in `d`. -/
structure State.SliceClaims (d : State) (done : List SlicePart) (t : State) : Prop where
  sends : ∃ (g : SendProgress) (post : Bool) (e : Nat), d.Sends t g ∧
    g = { natural := false, early := post.toNat + e, backoffs := g.backoffs
          removed := decide (.mark ∈ done ∧ d.timer.sliceIndex = 2)
          spared := decide (.mark ∈ done ∧ d.timer.sliceIndex = 2) } ∧
    (post = true ↔ .post ∈ done ∧ d.Posts) ∧
    e ≤ (if .topped ∈ done then 1 else 0) + (if t.phase = .held then 1 else 0) ∧ (t.phase = d.phase → e = 0) ∧
    (d.onLine = true → t.phase ≠ d.phase → e ≠ 0) ∧ (0 < post.toNat + e → d.onLine = true) ∧
    (0 < post.toNat + e → ∃ v, t.Claimed v ∧ d.SliceClaim t v)
  rest : t.share = { d.share with ownClaim := t.share.ownClaim, sequence := t.share.sequence }

theorem State.SliceClaims.start (d : State) : d.SliceClaims [] d where
  sends := ⟨{ natural := false }, false, 0, State.Sends.refl d false, by simp, by simp, by simp, fun _ => rfl,
    fun _ h => absurd rfl h, fun h => absurd h (by decide), fun h => absurd h (by decide)⟩
  rest := rfl

/-- What a part leaves: timer, standing and settings; thermal but for the scan's, counts but for the meter's. -/
structure State.PartFrame (d : State) (done : List SlicePart) (t : State) : Prop where
  timer : t.timer = d.timer
  stand : t.stand = d.stand
  thermal : .scan ∉ done → t.thermal = d.thermal
  meter : .meter ∉ done → t.meter = d.meter

theorem SlicePart.run_thermal {p : SlicePart} (hp : p ≠ .scan) (u : State) : (p.run u).thermal = u.thermal := by
  cases p with
  | scan => exact absurd rfl hp
  | _ => simp [SlicePart.run]

theorem SlicePart.run_stand (p : SlicePart) (u : State) : (p.run u).stand = u.stand := by
  cases p <;> simp [SlicePart.run]

theorem State.PartFrame.start (d : State) : State.PartFrame d [] d := ⟨rfl, rfl, fun _ => rfl, fun _ => rfl⟩

theorem State.PartFrame.onLine {d t : State} {done : List SlicePart} (h : State.PartFrame d done t) : t.onLine = d.onLine :=
  State.onLine_congr (by rw [h.stand])

theorem State.PartFrame.step {d t : State} {done : List SlicePart} (h : State.PartFrame d done t) (p : SlicePart) :
    State.PartFrame d (p :: done) (p.run t) where
  timer := (p.run_timer t).trans h.timer
  stand := (p.run_stand t).trans h.stand
  thermal hn := by
    rw [List.mem_cons, not_or] at hn
    rw [SlicePart.run_thermal (Ne.symm hn.1), h.thermal hn.2]
  meter hn := by
    rw [List.mem_cons, not_or] at hn
    rw [SlicePart.run_meter (Ne.symm hn.1), h.meter hn.2]

section
variable {d t : State} {done : List SlicePart} {p : SlicePart} (hf : State.PartFrame d done t)
  (hs : d.SliceSession done t) (hn : p ∉ done) (hm : .topped ∈ done → .meter ∈ done)
include hf hs hn hm

/-- A claim formed before a part that forms none stands for what comes after it. -/
theorem State.SliceClaim.keep {v : State} (h : d.SliceClaim t v) (hp : (p.run t).phase = t.phase) :
    d.SliceClaim (p.run t) v where
  stand := h.stand
  settings := h.settings
  allotment := h.allotment
  thermal := by
    by_cases hps : p = .scan
    · left
      subst hps
      rcases h.thermal with e | e
      · exact e
      · rw [e, hf.thermal hn]
    · rw [SlicePart.run_thermal hps]; exact h.thermal
  counted := by
    by_cases hpm : p = .meter
    · left
      subst hpm
      rcases h.counted with e | e
      · exact e
      · rw [e, hf.meter hn]
    · rw [SlicePart.run_meter hpm]; exact h.counted
  gone := h.gone
  session x hx := by
    obtain ⟨y, h1, h2, h3⟩ := h.session x hx
    exact ⟨y, h1, h2, fun hc => h3 ((hs.back hn).2 hc)⟩
  held h1 h2 := h.held (hp ▸ h1) h2
  topped h1 h2 := by
    rw [hp] at h1
    obtain ⟨h3, h4⟩ := h.topped h1 h2
    refine ⟨h3, ?_⟩
    have hpm : p ≠ .meter := fun e => by
      obtain ⟨x, y, -, -, ht, -⟩ := hs.entered (by rw [h1]; exact h2.symm)
      exact hn (by rw [e]; exact hm (ht h1))
    rw [SlicePart.run_meter hpm]; exact h4

omit hn hm in
/-- The claim that a part forms. -/
theorem State.SliceClaim.formed (hs' : d.SliceSession (p :: done) (p.run t)) {v : State} (hpm : p ≠ .meter)
    (h1 : v.stand = t.stand) (h2 : v.settings = t.settings) (h3 : v.share.allotment = d.share.allotment)
    (h4 : v.thermal = (p.run t).thermal) (h5 : v.meter = t.meter) (h6 : v.session = (p.run t).session) :
    d.SliceClaim (p.run t) v where
  stand := h1.trans hf.stand
  settings := h2.trans hs.settings
  allotment := h3
  thermal := .inr h4
  counted := .inr (by rw [h5, SlicePart.run_meter hpm])
  gone hx := h6.trans (hs'.gone hx)
  session x hx := by
    obtain ⟨y, hy, hyx, -⟩ := hs'.session x hx
    exact ⟨y, h6.trans hy, hyx, fun hc => Option.some.inj (hy.symm.trans (hc.trans hx))⟩
  held ht hd := by
    obtain ⟨x, y, -, hy, -, hh⟩ := hs'.entered (by rw [ht]; exact hd.symm)
    exact ⟨y, h6.trans hy, by rw [← State.phase_of hy]; exact ht, hh ht⟩
  topped ht _ := ⟨by rw [State.phase_congr h6]; exact ht, by rw [h5, SlicePart.run_meter hpm]⟩

end

section
variable {d t : State} {done : List SlicePart} {p : SlicePart} (h : d.SliceClaims done t) (hf : State.PartFrame d done t)
  (hs : d.SliceSession done t) (hn : p ∉ done) (hm : .topped ∈ done → .meter ∈ done)
include h hf hs hn hm

/-- A part that forms no claim and leaves the phase; `mark` if it takes the own MARK out. -/
theorem State.SliceClaims.quiet (hsh : (p.run t).share = t.share) (hph : d.onLine = true → (p.run t).phase = t.phase)
    (hcl : (p.run t).line.outbox.claim = t.line.outbox.claim)
    (hline : ∀ g, d.line.Tracks t.line g → g.natural = false →
      d.line.Tracks (p.run t).line { g with
        removed := g.removed || decide (p = .mark ∧ d.timer.sliceIndex = 2)
        spared := g.spared || decide (p = .mark ∧ d.timer.sliceIndex = 2) })
    (hpost : p = .post → ¬ d.Posts) : d.SliceClaims (p :: done) (p.run t) := by
  obtain ⟨g, post, e, hsend, hg, hp, he, hz, hnz, hon, hcl'⟩ := h.sends
  have hdec : (decide (SlicePart.mark ∈ done ∧ d.timer.sliceIndex = 2) || decide (p = .mark ∧ d.timer.sliceIndex = 2)) =
      decide (SlicePart.mark ∈ p :: done ∧ d.timer.sliceIndex = 2) := by
    rw [← Bool.decide_or, decide_eq_decide, List.mem_cons, ← or_and_right, or_comm, eq_comm]
  refine ⟨⟨_, post, e, hsend.step (hline g hsend.line (by rw [hg])) rfl (by rw [hsh]) (by rw [hsh]), ?_, ?_, ?_,
    fun hc => hz ((hs.back hn).1 hc), fun ho => by rw [hph ho]; exact hnz ho, hon, fun hpos => ?_⟩, ?_⟩
  · rw [hg]
    simp only [hdec]
  · rw [hp, List.mem_cons]
    exact and_congr_left fun hc => ⟨.inr, fun h' => h'.resolve_left fun e => hpost e.symm hc⟩
  · by_cases ho : d.onLine = true
    · rw [hph ho]
      have : (if SlicePart.topped ∈ done then 1 else 0) ≤ if SlicePart.topped ∈ p :: done then 1 else 0 := by
        split
        · next hc => rw [if_pos (List.mem_cons_of_mem _ hc)]
        · exact Nat.zero_le _
      omega
    · have : ¬ 0 < post.toNat + e := fun hc => ho (hon hc)
      omega
  · obtain ⟨v, hv, hc⟩ := hcl' hpos
    exact ⟨v, hv.of_same (by rw [hsh]) (by rw [hsh]) hcl, hc.keep hf hs hn hm (hph (hon hpos))⟩
  · rw [hsh]; exact h.rest

/-- A part that leaves share and line. -/
theorem State.SliceClaims.idle (hsh : (p.run t).share = t.share) (hl : (p.run t).line = t.line)
    (hph : d.onLine = true → (p.run t).phase = t.phase) (hpk : p ≠ .mark) (hpost : p = .post → ¬ d.Posts) :
    d.SliceClaims (p :: done) (p.run t) := by
  refine h.quiet hf hs hn hm hsh hph (by rw [hl]) (fun g hg _ => ?_) hpost
  have hd : decide (p = .mark ∧ d.timer.sliceIndex = 2) = false := decide_eq_false fun hc => hpk hc.1
  rw [hd, Bool.or_false, Bool.or_false, hl]
  exact hg

omit hm in
/-- A part that forms a claim, of the post slice or of a phase entered. -/
theorem State.SliceClaims.claim (hs' : d.SliceSession (p :: done) (p.run t)) (hpm : p ≠ .meter) (hpk : p ≠ .mark) {v : State}
    (hforms : t.Forms (p.run t) (some v)) (ho : d.onLine = true)
    (hv : v.stand = t.stand ∧ v.settings = t.settings ∧ v.share.allotment = d.share.allotment ∧
      v.thermal = (p.run t).thermal ∧ v.meter = t.meter ∧ v.session = (p.run t).session)
    (hwhy : (p = .post ∧ d.Posts ∧ (p.run t).phase = t.phase) ∨
      (p ≠ .post ∧ (p.run t).phase ≠ t.phase ∧ (p = .topped ∨ (p.run t).phase = .held))) :
    d.SliceClaims (p :: done) (p.run t) := by
  obtain ⟨g, post, e, hsend, hg, hp, he, hz, hnz, hon, -⟩ := h.sends
  obtain ⟨v1, v2, v3, v4, v5, v6⟩ := hv
  have hclaimed : ∃ v, (p.run t).Claimed v ∧ d.SliceClaim (p.run t) v :=
    ⟨v, hforms.claimed, State.SliceClaim.formed hf hs hs' hpm v1 v2 v3 v4 v5 v6⟩
  have hrest : (p.run t).share = { d.share with
      ownClaim := (p.run t).share.ownClaim, sequence := (p.run t).share.sequence } := by
    have := hforms.share_rest
    rw [h.rest] at this
    rw [this]
  have hmk : decide (SlicePart.mark ∈ p :: done ∧ d.timer.sliceIndex = 2) = decide (SlicePart.mark ∈ done ∧ d.timer.sliceIndex = 2) := by
    rw [decide_eq_decide, List.mem_cons]
    exact and_congr_left fun _ => ⟨fun h' => h'.resolve_left fun e => hpk e.symm, .inr⟩
  have hgd : g.discarded = false := by rw [hg]
  have hge : g.early = post.toNat + e := by rw [hg]
  have hgnew : g.after (some v) t.line.sender.isIdle = { natural := false, early := post.toNat + e + 1
                                                         backoffs := (g.after (some v) t.line.sender.isIdle).backoffs
                                                         removed := decide (.mark ∈ p :: done ∧ d.timer.sliceIndex = 2)
                                                         spared := decide (.mark ∈ p :: done ∧ d.timer.sliceIndex = 2) } := by
    rw [hmk]
    show g.claim _ = { natural := false, early := _, backoffs := (g.claim _).backoffs, removed := _, spared := _ }
    unfold SendProgress.claim
    rw [hgd, hge]
    rw [hg]; rfl
  have hs2 := hsend.forms hforms
  have hle : (if SlicePart.topped ∈ done then 1 else 0) ≤ if SlicePart.topped ∈ p :: done then 1 else 0 := by
    split
    · next hc => rw [if_pos (List.mem_cons_of_mem _ hc)]
    · exact Nat.zero_le _
  rcases hwhy with ⟨hpp, hposts, hsame⟩ | ⟨hpp, hne, hkind⟩
  · have hpf : post = false := Bool.eq_false_iff.2 fun hc => hn (hpp ▸ (hp.1 hc).1)
    refine ⟨⟨_, true, e, hs2, ?_, ?_, ?_, by rw [hsame]; exact hz, by rw [hsame]; exact hnz, fun _ => ho, fun _ => hclaimed⟩, hrest⟩
    · rw [hgnew, hpf]
      simp [Nat.add_comm]
    · simp [hpp, hposts]
    · rw [hsame]; omega
  · refine ⟨⟨_, post, e + 1, hs2, ?_, ?_, ?_, fun hc => ?_, fun _ _ => Nat.succ_ne_zero _, fun _ => ho, fun _ => hclaimed⟩, hrest⟩
    · rw [hgnew]; rfl
    · rw [hp, List.mem_cons]
      exact and_congr_left fun _ => ⟨.inr, fun h' => h'.resolve_left (Ne.symm hpp)⟩
    · by_cases htop : p = .topped
      · subst htop
        rw [if_neg hn] at he
        rw [if_pos List.mem_cons_self]
        have hth : t.phase ≠ .held := fun hc => by
          rcases t.topIfReached_cases with ⟨e', -⟩ | ⟨y, hy, hre, -⟩
          · exact hne (by show t.topIfReached.phase = _; rw [e'])
          · rw [State.phase_of hy] at hc
            exact (Phase.toppable_afterHold hre.1).2.2 hc
        rw [if_neg hth] at he
        omega
      · have hheld := hkind.resolve_left htop
        rw [if_pos hheld]
        have hth : (if t.phase = .held then 1 else 0) = 0 := if_neg fun hc => hne (hheld.trans hc.symm)
        omega
    · exact absurd (hc.trans ((hs.back hn).1 hc).symm) hne

end

end Sys2Proof.Machine
end

section
/-! The claims and the line engine through each part of a slice end, and the meter's part (R8, R57, R60, R110, R127). -/

namespace Sys2Proof.Machine

section
variable {d t : State} {done : List SlicePart} {p : SlicePart} (h : d.SliceClaims done t) (hf : State.PartFrame d done t)
  (hs : d.SliceSession done t) (hn : p ∉ done) (hm : .topped ∈ done → .meter ∈ done)
include h hf hs hn hm

/-- A part that may set a hold reason. -/
theorem State.SliceClaims.hold {r : HoldReason} (hr : p.reason = some r) : d.SliceClaims (p :: done) (p.run t) := by
  have hpm : p ≠ .meter ∧ p ≠ .mark ∧ p ≠ .post := by cases p <;> cases hr <;> decide
  obtain ⟨o, hset⟩ := SlicePart.setsHold hr t
  have hon : t.onLine = d.onLine := hf.onLine
  have hformed := hset.formed
  rw [hon] at hformed
  cases o with
  | none =>
    obtain ⟨h1, h2⟩ := hset.forms.of_none
    refine h.idle hf hs hn hm h1 h2 (fun ho => ?_) hpm.2.1 fun e => absurd e hpm.2.2
    by_contra hne
    exact absurd rfl (hformed.2 ⟨ho, hne⟩)
  | some v =>
    obtain ⟨ho, hne⟩ := hformed.1 (Option.some_ne_none v)
    obtain ⟨v1, v2, v3, v4, v5, v6⟩ := hset.claim v rfl
    have hheld : (p.run t).phase = .held := by
      cases hx : t.session with
      | none => exact (Option.some_ne_none v (hset.gone hx).2).elim
      | some x =>
        obtain ⟨y, hy, -, hp⟩ := hset.session x hx
        rw [State.phase_of hy, State.phase_of hx] at hne
        rw [State.phase_of hy]
        split at hp
        · rw [hp] at hne ⊢
          exact Phase.afterHold_reforms hne
        · exact absurd hp hne
    exact h.claim hf hs hn (hs.step hn hm) hpm.1 hpm.2.1 hset.forms ho
      ⟨v1, v2, by rw [v4, h.rest], v5, v3, v6⟩ (.inr ⟨hpm.2.2, hne, .inr hheld⟩)

/-- The test of R94. -/
theorem State.SliceClaims.top (hp : p = .topped) : d.SliceClaims (p :: done) (p.run t) := by
  subst hp
  have hon : t.onLine = d.onLine := hf.onLine
  obtain ⟨o, -, hforms, hformed, hv, -⟩ := t.topIfReached_part
  rw [hon] at hformed
  cases o with
  | none =>
    obtain ⟨h1, h2⟩ := hforms.of_none
    refine h.idle hf hs hn hm h1 h2 (fun ho => ?_) (by decide) nofun
    by_contra hne
    exact absurd rfl (hformed.2 ⟨ho, hne⟩)
  | some v =>
    obtain ⟨ho, hne⟩ := hformed.1 (Option.some_ne_none v)
    have hv' := hv v rfl
    refine h.claim hf hs hn (hs.step hn hm) (by decide) (by decide) hforms ho
      ⟨by rw [hv'], by rw [hv'], by rw [hv', h.rest], ?_, by rw [hv'], by rw [hv']; rfl⟩ (.inr ⟨by decide, hne, .inl rfl⟩)
    rw [SlicePart.run_thermal (by decide), hv']

/-- The claim of the post slice. -/
theorem State.SliceClaims.post (hp : p = .post) : d.SliceClaims (p :: done) (p.run t) := by
  subst hp
  have hon : t.onLine = d.onLine := hf.onLine
  have hphase : (SlicePart.run .post t).phase = t.phase := State.phase_congr t.postUnlessOwed_session
  have howed : t.share.postOwed = d.share.postOwed := by rw [h.rest]
  have hslice : t.share.postSlice = d.share.postSlice := by rw [h.rest]
  by_cases hposts : d.Posts
  · have hrun : SlicePart.run .post t = t.formClaim := by
      show (if t.share.postOwed then t else t.postClaim) = _
      rw [if_neg (by rw [howed, hposts.1]; decide), State.postClaim, if_pos (by rw [hslice, hf.timer]; exact hposts.2.1)]
    have hforms := t.formClaim_forms
    rw [if_pos (hon.trans hposts.2.2), ← hrun] at hforms
    refine h.claim hf hs hn (hs.step hn hm) (by decide) (by decide) hforms hposts.2.2
      ⟨rfl, rfl, by rw [h.rest], ?_, rfl, t.postUnlessOwed_session.symm⟩ (.inl ⟨rfl, hposts, hphase⟩)
    exact (SlicePart.run_thermal (by decide) t).symm
  · have hstill : (SlicePart.run .post t).share = t.share ∧ (SlicePart.run .post t).line = t.line := by
      show (if t.share.postOwed then t else t.postClaim).share = _ ∧ (if t.share.postOwed then t else t.postClaim).line = _
      split
      · exact ⟨rfl, rfl⟩
      · next ho =>
        unfold State.postClaim
        split
        · next hps =>
          have hoff : t.onLine = false := Bool.eq_false_iff.2 fun hc => hposts
            ⟨by rw [← howed]; exact Bool.eq_false_iff.2 ho, by rw [← hslice, ← hf.timer]; exact hps, hon.symm.trans hc⟩
          rw [t.formClaim_off hoff]
          exact ⟨rfl, rfl⟩
        · exact ⟨rfl, rfl⟩
    exact h.idle hf hs hn hm hstill.1 hstill.2 (fun _ => hphase) (by decide) fun _ => hposts

/-- The own MARK taken out at the expiry of slice 1. -/
theorem State.SliceClaims.discard (hp : p = .mark) : d.SliceClaims (p :: done) (p.run t) := by
  subst hp
  have hphase : (SlicePart.run .mark t).phase = t.phase := State.phase_congr t.discardMark_session
  by_cases hi : d.timer.sliceIndex = 2
  · have hrun : SlicePart.run .mark t = t.removeWaitingMark.forbidRetry .mark := if_pos (by rw [hf.timer]; exact hi)
    have hline := t.removeWaitingMark.forbidRetry_line .mark
    have hrem := t.removeWaitingMark_removes
    refine h.quiet hf hs hn hm t.discardMark_share (fun _ => hphase) ?_ (fun g hg hnat => ?_) nofun
    · rw [hrun, hline]
      show t.removeWaitingMark.line.outbox.claim = _
      rw [hrem.outbox]
    · rw [decide_eq_true ⟨rfl, hi⟩, Bool.or_true, Bool.or_true, hrun]
      exact (hg.remove hrem hnat).spare hline
  · have hrun : SlicePart.run .mark t = t := if_neg (by rw [hf.timer]; exact hi)
    refine h.quiet hf hs hn hm t.discardMark_share (fun _ => hphase) (by rw [hrun]) (fun g hg _ => ?_) nofun
    rw [decide_eq_false fun hc => hi hc.2, Bool.or_false, Bool.or_false, hrun]
    exact hg

/-- Another part done. -/
theorem State.SliceClaims.step : d.SliceClaims (p :: done) (p.run t) := by
  have still : p.reason = none → p ≠ .topped → (p.run t).phase = t.phase := fun h1 h2 =>
    State.phase_congr (SlicePart.session_still h1 h2 t).1
  cases p with
  | scan => exact h.hold hf hs hn hm rfl
  | permit => exact h.hold hf hs hn hm rfl
  | topped => exact h.top hf hs hn hm rfl
  | post => exact h.post hf hs hn hm rfl
  | mark => exact h.discard hf hs hn hm rfl
  | meter =>
    exact h.idle hf hs hn hm t.meterSliceEnd_share t.meterSliceEnd_line (fun _ => still rfl (by decide)) (by decide) nofun
  | start =>
    exact h.idle hf hs hn hm t.startUnlessOwed_share t.startUnlessOwed_line (fun _ => still rfl (by decide)) (by decide) nofun

end

/-! ### The meter's part -/

/-- The meter and the cap state with the parts `done` of a slice end begun in `d`. -/
structure State.SliceMeter (d : State) (done : List SlicePart) (t : State) : Prop where
  before : .meter ∉ done → t.meter = d.meter ∧ t.stage.cap = d.stage.cap
  after : .meter ∈ done → ∃ capped, t.meter = { d.meter with
      roundCount := d.countedRound, sliceCount := 0, capped := capped } ∧
    (capped = true ↔ d.meter.capped = true ∨ ∃ c, d.meter.ceiling = some c ∧ c < d.countedRound) ∧
    (t.stage.cap = true ↔ d.stage.cap = true ∨ ∃ c, d.meter.ceiling = some c ∧ c < d.countedRound)

theorem State.SliceMeter.start (d : State) : d.SliceMeter [] d := ⟨fun _ => ⟨rfl, rfl⟩, nofun⟩

theorem State.SliceMeter.step {d t : State} {done : List SlicePart} {p : SlicePart} (h : d.SliceMeter done t)
    (hn : p ∉ done) : d.SliceMeter (p :: done) (p.run t) := by
  by_cases hp : p = .meter
  · subst hp
    obtain ⟨hm, hc⟩ := h.before hn
    obtain ⟨c, h1, h2, h3, -⟩ := t.meterSliceEnd_spec
    have hcount : t.countedRound = d.countedRound := by unfold State.countedRound; rw [hm]
    rw [hcount, hm] at h1 h2 h3
    rw [hc] at h3
    exact ⟨fun hc => absurd List.mem_cons_self hc, fun _ => ⟨c, h1, h2, h3⟩⟩
  · have hmem : SlicePart.meter ∈ p :: done ↔ SlicePart.meter ∈ done := by simp [Ne.symm hp]
    refine ⟨fun hc => ?_, fun hc => ?_⟩
    · rw [SlicePart.run_meter hp, SlicePart.run_cap hp]
      exact h.before (mt hmem.2 hc)
    · rw [SlicePart.run_meter hp, SlicePart.run_cap hp]
      exact h.after (hmem.1 hc)

end Sys2Proof.Machine
end

section
/-! A slice expiry: the owed starts, the next slice, and the parts (R3, R60, R110, R115). -/

namespace Sys2Proof.Machine

/-! ### The owed starts, on the line engine -/

/-- Taking the owed starts forms at most one claim. -/
theorem State.takeStarts_forms {s : State} (hr : s.timer.running = true) : ∃ o, s.startTaken.Forms s.takeStarts o := by
  rw [State.takeStarts_eq hr]
  split
  · unfold State.postClaim
    split
    · exact ⟨_, s.startTaken.formClaim_forms⟩
    · exact ⟨none, .still rfl rfl⟩
  · exact ⟨none, .still rfl rfl⟩

/-- What taking them leaves of the line engine. -/
theorem State.takeStarts_line {s : State} (hr : s.timer.running = true) :
    s.takeStarts.line.outbox.mark = s.line.outbox.mark ∧ s.takeStarts.line.outbox.reply = s.line.outbox.reply ∧
    s.takeStarts.line.counters = s.line.counters ∧
    (∀ a, s.line.sender = .sending a → a.slot = .mark → s.takeStarts.line.sender = .sending a) ∧
    ((∀ a, s.line.sender = .sending a → a.slot ≠ .mark) → ∀ a, s.takeStarts.line.sender = .sending a → a.slot ≠ .mark) := by
  obtain ⟨o, ho⟩ := State.takeStarts_forms hr
  have hl : s.startTaken.line = s.line := by rw [s.startTaken_eq]
  have htr := ((State.Sends.refl s.startTaken false).forms ho).line
  rw [hl] at htr
  cases o with
  | none =>
    rw [(ho.of_none).2, hl]
    exact ⟨rfl, rfl, rfl, fun a h _ => h, fun h => h⟩
  | some v =>
    have hsent : ∀ a, s.line.sender = .sending a →
        s.takeStarts.line.sender = .sending { a with replaced := a.replaced || decide (a.slot = .claim) } := fun a ha => by
      rw [(htr.sending a ha).2]
      simp [SendProgress.attempt, SendProgress.after, SendProgress.claim, SendProgress.claims]
    refine ⟨htr.mark, htr.reply, ?_, fun a ha hs => ?_, fun h a ha => ?_⟩
    · rw [htr.counters]
      simp [SendProgress.after, SendProgress.claim]
    · have hslot : decide (a.slot = .claim) = false := by rw [hs]; rfl
      rw [hsent a ha, hslot, Bool.or_false]
    · by_cases hb : ∃ b, s.line.sender = .sending b
      · obtain ⟨b, hb⟩ := hb
        rw [hsent b hb] at ha
        rw [← Sender.sending.inj ha]
        exact h b hb
      · push Not at hb
        exact absurd ha (htr.not_sending hb a)

theorem State.takeStarts_out {s : State} (hr : s.timer.running = true) :
    s.takeStarts.out = { s.out with stage := s.takeStarts.out.stage } := by
  obtain ⟨-, hout, -⟩ := State.takeStarts_spec hr
  obtain ⟨-, hnot, -, -, -, howed⟩ := s.startTaken_stage
  rw [hout]
  cases ho : s.stage.startOwed with
  | false => rw [(hnot ho).2]
  | true => rw [(howed ho).2.1]

/-! ### The whole of it -/

/-- The slice expiry of `s` at `temps`: `u` with the owed starts taken, `d` where the parts begin, `t` with `done` done. -/
structure State.SliceRun (s : State) (temps : Temps) (done : List SlicePart) (u d t : State) : Prop where
  taken : u = s.takeStarts
  base : d = { u with
    pins := { u.pins with temps := temps }, choices := d.choices, freeCount := d.freeCount
    meter := { u.meter with allDriven := u.meter.allDriven && u.stage.sliceDriven }
    timer := { u.timer with sliceCounter := 0, sliceIndex := u.timer.sliceIndex + 1 }
    stage := { u.stage with startOwed := d.stage.startOwed }, share := { u.share with postOwed := d.share.postOwed } }
  owed : (d.stage.startOwed = true → s.timer.sliceIndex = 1 ∧ u.stage.lagSlice = some 2) ∧
    (d.share.postOwed = true → s.timer.sliceIndex = 1 ∧ u.share.postSlice = some 2)
  all : ∀ p, p ∈ done
  stage : d.SliceStage done t
  session : d.SliceSession done t
  frame : State.PartFrame d done t
  claims : d.SliceClaims done t
  meter : d.SliceMeter done t
  whole : t = { d with meter := t.meter, stage := t.stage, out := t.out, line := t.line, share := t.share
                       session := t.session, thermal := t.thermal }

theorem State.slice_run {s : State} (temps : Temps) (hr : s.timer.running = true) (hi : s.timer.sliceIndex + 1 < s.cfg.roundDiv) :
    ∃ done d, s.SliceRun temps done s.takeStarts d (effect (.sliceExpiry temps) s) := by
  have hr' : (s.setTemps temps).timer.running = true := hr
  have hl : (s.setTemps temps).inLastSlice = false := State.inLastSlice_false (s := s.setTemps temps) hi
  have htake := State.setTemps_takeStarts temps s
  obtain ⟨done, hall, h⟩ := runSliceOrder
    (I := fun done t => (.topped ∈ done → .meter ∈ done) ∧ (s.setTemps temps).sliceBase.SliceStage done t ∧
      (s.setTemps temps).sliceBase.SliceSession done t ∧ State.PartFrame (s.setTemps temps).sliceBase done t ∧
      (s.setTemps temps).sliceBase.SliceClaims done t ∧ (s.setTemps temps).sliceBase.SliceMeter done t ∧
      t = { (s.setTemps temps).sliceBase with
        meter := t.meter, stage := t.stage, out := t.out, line := t.line, share := t.share, session := t.session
        thermal := t.thermal })
    (s.setTemps temps).takeStarts.choose.1
    (fun done p t hn hpm ⟨hm, h1, h2, h3, h4, h5, h6⟩ => by
      obtain ⟨_, _, _, _, _, _, _, e⟩ := p.run_frame t
      refine ⟨fun hc => ?_, h1.step hn (by rw [h3.timer]), h2.step hn hm, h3.step p, h4.step h3 h2 hn hm, h5.step hn, ?_⟩
      · rcases List.mem_cons.1 hc with hc | hc
        · exact List.mem_cons_of_mem _ (hpm hc.symm)
        · exact List.mem_cons_of_mem _ (hm hc)
      · rw [e, h6])
    ⟨nofun, .start _, .start _, .start _, .start _, .start _, rfl⟩
  obtain ⟨-, h1, h2, h3, h4, h5, h6⟩ := h
  rw [← State.sliceExpiry_eq hr' hl] at h1 h2 h3 h4 h5 h6
  have hbase := (s.setTemps temps).sliceBase_eq
  have howed := State.sliceBase_owed (s := s.setTemps temps)
  rw [htake] at hbase howed
  exact ⟨done, _, rfl, hbase, howed, hall, h1, h2, h3, h4, h5, h6⟩

section
variable {s u d t : State} {temps : Temps} {done : List SlicePart} (h : s.SliceRun temps done u d t)
include h

theorem State.SliceRun.u_eq : u = { s with stage := u.stage, out := u.out, share := u.share, line := u.line } := by
  obtain ⟨_, _, _, _, e⟩ := s.takeStarts_frame
  rw [h.taken, e]

/-- The state the parts begin in, against the state before the event. -/
theorem State.SliceRun.d_eq : d = { s with
    pins := { s.pins with temps := temps }, choices := d.choices, freeCount := d.freeCount
    meter := { s.meter with allDriven := s.meter.allDriven && u.stage.sliceDriven }
    timer := { s.timer with sliceCounter := 0, sliceIndex := s.timer.sliceIndex + 1 }
    stage := { u.stage with startOwed := d.stage.startOwed }
    share := { u.share with postOwed := d.share.postOwed }, line := u.line, out := u.out } := by
  have := h.base
  rw [h.u_eq] at this
  exact this

theorem State.SliceRun.d_permission : d.permission = s.permission :=
  State.permission_congr (by rw [h.d_eq]) (by rw [h.d_eq]) (by rw [h.d_eq])

theorem State.SliceRun.d_phase : d.phase = s.phase := State.phase_congr (by rw [h.d_eq])

theorem State.SliceRun.d_onLine : d.onLine = s.onLine := State.onLine_congr (by rw [h.d_eq])

theorem State.SliceRun.started (ho : t.stage.startOwed = false) : d.Started done :=
  ⟨h.all _, h.stage.owed.symm.trans ho⟩

/-- The records of a slice expiry (R74). -/
theorem State.SliceRun.reports (hout : u.out.link = s.out.link) : ∃ rs, s.ReportsChanges t rs := by
  obtain ⟨rs, k, r1, r2, r3, r4, -, r6, r7, r8⟩ := h.session.records
  have hlink : d.out.link = s.out.link := by rw [h.d_eq]; exact hout
  have hholds : d.holds = s.holds := State.holds_congr (by rw [h.d_eq])
  have hkeep : ∀ r, ¬ reasonDone done r → t.holds.has r = s.holds.has r := fun r hr => by
    cases hx : d.session with
    | none => rw [State.holds_congr ((h.session.gone hx).trans hx.symm), hholds]
    | some x =>
      obtain ⟨y, hy, -, hk, -⟩ := h.session.session x hx
      rw [State.holds_of hy, ← hholds, State.holds_of hx]
      exact hk r hr
  have hnever : ∀ r, (∀ p : SlicePart, p.reason ≠ some r) → t.holds.has r = s.holds.has r := fun r hr =>
    hkeep r fun ⟨p, _, hp⟩ => hr p hp
  rw [h.d_phase] at r7 r8
  rw [hholds] at r3 r8
  have hcount := HoldSet.changes_eq (h := s.holds) (k := t.holds) (hnever .driver fun p => by cases p <;> nofun)
    (hnever .meter fun p => by cases p <;> nofun)
  refine ⟨rs, r1.trans (by rw [hlink]), r2, fun hp hh => ?_, fun hc => ?_, k, r4, by omega⟩
  · rw [hh, HoldSet.changes_self, r7 hp] at r3
    exact List.length_eq_zero_iff.1 r3
  · rw [← State.phaseRecord_eq]
    refine r6 fun he => ?_
    rw [he, List.length_nil] at r3
    have hsame : t.holds = s.holds := HoldSet.changes_eq_zero (by omega)
    rcases hc with hc | hc
    · refine hc (r8 (by omega) fun hg => ?_)
      rw [hsame] at hg
      exact s.holds.not_gains_self hg
    · exact hc hsame

end

end Sys2Proof.Machine
end

section
/-! What a slice expiry does (R8, R57, R59, R60, R74, R91, R94, R110, R115, R121, R127). -/

namespace Sys2Proof.Machine

section
variable {s u d t : State} {temps : Temps} {done : List SlicePart} (h : s.SliceRun temps done u d t)
include h

/-! ### Session -/

/-- The session of a slice expiry (R91, R94). -/
theorem State.SliceRun.sessions {x : Session} (hx : s.session = some x) : ∃ y, t.session = some y ∧
    y = { x with phase := y.phase, holds := y.holds } ∧ y.holds.meter = x.holds.meter ∧
    (x.phase = .charging ∨ x.phase = .deferred → x.target ≤ t.runningWh x → y.phase = .topped ∨ y.phase = .held) ∧
    ((∀ r, y.holds.has r = true → x.holds.has r = true) →
      ¬ ((x.phase = .charging ∨ x.phase = .deferred) ∧ x.target ≤ t.runningWh x) → y.phase = x.phase) ∧
    (y.phase = .topped → x.phase = .topped ∨
      ((x.phase = .charging ∨ x.phase = .deferred) ∧ x.target ≤ t.runningWh x)) ∧
    (y.phase = x.phase ∨ y.phase = .topped ∨ y.phase = .held) ∧ (x.phase = .fault → y.phase = .fault) ∧
    (x.phase ≠ .fault → x.phase ≠ .vacant → ∀ r, y.holds.has r = true → x.holds.has r = false → y.phase = .held) := by
  obtain ⟨y, hy, hyx, hkeep, hgain, hnot⟩ := h.session.session x (by rw [h.d_eq]; exact hx)
  have htop : ∀ z : Session, z.phase.toppable = true ↔ z.phase = .charging ∨ z.phase = .deferred := fun z => by
    cases z.phase <;> decide
  have hre : (.topped ∈ done ∧ x.Reached t) ↔ (x.phase = .charging ∨ x.phase = .deferred) ∧ x.target ≤ t.runningWh x := by
    rw [Session.Reached, htop]
    exact and_iff_right (h.all _)
  have hheld : ∀ p : Phase, p.afterHold = p ∨ p.afterHold = .held := fun p => by cases p <;> decide
  have hmeter : y.holds.meter = x.holds.meter := hkeep .meter fun ⟨p, _, hp⟩ => by
    cases p <;> cases hp
  rw [hre] at hnot
  refine ⟨y, hy, hyx, hmeter, fun h1 h2 => ?_, fun h1 h2 => ?_,
    fun ht => ?_, ?_, fun hf => ?_, fun hf hv r h1 h2 => ?_⟩
  · by_cases hg : x.holds.Gains y.holds
    · right
      rw [hgain hg]
      exact (Phase.toppable_afterHold ((htop x).2 h1)).1
    · exact .inl ((hnot hg).1 ⟨h1, h2⟩)
  · have hg : ¬ x.holds.Gains y.holds := fun ⟨r, e1, e2⟩ => by rw [h1 r e2] at e1; cases e1
    exact (hnot hg).2 h2
  · by_cases hg : x.holds.Gains y.holds
    · rw [hgain hg] at ht
      rcases hheld x.phase with e | e
      · exact .inl (e.symm.trans ht)
      · rw [e] at ht; cases ht
    · by_cases hc : (x.phase = .charging ∨ x.phase = .deferred) ∧ x.target ≤ t.runningWh x
      · exact .inr hc
      · exact .inl (((hnot hg).2 hc).symm.trans ht)
  · by_cases hg : x.holds.Gains y.holds
    · rw [hgain hg]
      exact (hheld x.phase).imp_right .inr
    · by_cases hc : (x.phase = .charging ∨ x.phase = .deferred) ∧ x.target ≤ t.runningWh x
      · exact .inr (.inl ((hnot hg).1 hc))
      · exact .inl ((hnot hg).2 hc)
  · by_cases hg : x.holds.Gains y.holds
    · rw [hgain hg, hf]; rfl
    · have hno : ¬ ((x.phase = .charging ∨ x.phase = .deferred) ∧ x.target ≤ t.runningWh x) := fun hc => by
        rw [hf] at hc
        rcases hc.1 with e | e <;> cases e
      rw [(hnot hg).2 hno, hf]
  · rw [hgain ⟨r, h2, h1⟩]
    revert hf hv
    cases x.phase <;> decide

/-! ### Claims -/

/-- The claim of the post slice, due and not left owed. -/
theorem State.SliceRun.posts_iff (hu : u.share.postSlice = s.share.postSlice) : d.Posts ↔
    (t.share.postOwed = false ∧ s.share.postSlice = some (s.timer.sliceIndex + 1) ∧ s.onLine = true) := by
  have h1 : t.share.postOwed = d.share.postOwed := by rw [h.claims.rest]
  have h2 : d.share.postSlice = s.share.postSlice := by rw [h.d_eq]; exact hu
  have h3 : d.timer.sliceIndex = s.timer.sliceIndex + 1 := by rw [h.d_eq]
  rw [State.Posts, h1, h2, h3, h.d_onLine]

/-- How the claims and the line engine of a slice expiry come out. -/
theorem State.SliceRun.progress (hu : u.share.postSlice = s.share.postSlice) : ∃ g, d.Sends t g ∧ g.natural = false ∧
    g.marked = false ∧ g.discarded = false ∧ g.drawn = none ∧ g.claims ≤ 3 ∧
    g.removed = decide (s.timer.sliceIndex = 1) ∧ g.spared = decide (s.timer.sliceIndex = 1) ∧
    (s.onLine = true → t.share.postOwed = false → s.share.postSlice = some (s.timer.sliceIndex + 1) → 0 < g.claims ∧
      (t.phase = s.phase → g.claims = 1)) ∧
    (s.onLine = true → t.phase ≠ s.phase → 0 < g.claims) ∧
    (s.share.postSlice ≠ some (s.timer.sliceIndex + 1) → t.phase = s.phase → g.claims = 0) ∧
    (0 < g.claims → ∃ v, t.Claimed v ∧ d.SliceClaim t v) := by
  obtain ⟨g, post, e, hsend, hg, hp, he, hz, hnz, -, hcl⟩ := h.claims.sends
  rw [h.d_phase] at hz hnz
  rw [h.d_onLine] at hnz
  rw [and_iff_right (h.all _), h.posts_iff hu] at hp
  have hidx : (SlicePart.mark ∈ done ∧ d.timer.sliceIndex = 2) ↔ s.timer.sliceIndex = 1 := by
    have : d.timer.sliceIndex = s.timer.sliceIndex + 1 := by rw [h.d_eq]
    rw [and_iff_right (h.all _), this]
    omega
  have hclaims : g.claims = post.toNat + e := by
    show g.early + g.late = _
    rw [hg]
    exact Nat.add_zero _
  have hle : e ≤ 2 := by
    refine he.trans ?_
    split <;> split <;> decide
  have hpost : post.toNat ≤ 1 := by cases post <;> decide
  refine ⟨g, hsend, by rw [hg], by rw [hg], by rw [hg], by rw [hg], by omega, ?_, ?_, fun ho h1 h2 => ?_, fun ho h1 => ?_,
    fun h1 h2 => ?_, fun hc => hcl (hclaims ▸ hc)⟩
  · rw [hg]; exact decide_eq_decide.2 hidx
  · rw [hg]; exact decide_eq_decide.2 hidx
  · rw [hclaims, hp.2 ⟨h1, h2, ho⟩]
    refine ⟨by simp, fun hph => by rw [hz hph]; rfl⟩
  · have := hnz ho h1
    omega
  · have hpf : post = false := Bool.eq_false_iff.2 fun hc => h1 (hp.1 hc).2.1
    rw [hclaims, hpf, hz h2]; rfl

end

end Sys2Proof.Machine
end

section
/-! What a slice expiry does, settled: its claims and its line engine, and the owed starts taken (R8, R57, R59, R60, R115,
R155, R156, R159, R163). -/

namespace Sys2Proof.Machine

/-! ### Claims and line engine -/

section
variable {s u d t : State} {temps : Temps} {done : List SlicePart} (h : s.SliceRun temps done u d t)
  (hr : s.timer.running = true)
include h hr

theorem State.SliceRun.u_postSlice : u.share.postSlice = s.share.postSlice := by
  obtain ⟨-, -, -, -, -, -, hps, -⟩ := State.takeStarts_spec hr
  rw [h.taken]; exact hps

theorem State.SliceRun.u_allotment : u.share.allotment = s.share.allotment := by
  obtain ⟨-, -, -, -, -, hal, -⟩ := State.takeStarts_spec hr
  rw [h.taken]; exact hal

/-- The state a claim of the event was formed in, against the state before the event. -/
theorem State.SliceRun.claim_facts {v : State} (hv : d.SliceClaim t v) :
    v.stand = s.stand ∧ v.settings = s.settings ∧ v.share.allotment = s.share.allotment ∧
    (v.thermal = s.thermal ∨ v.thermal = t.thermal) ∧
    (v.meter.roundCount = s.meter.roundCount ∨ v.meter.roundCount = t.meter.roundCount) ∧
    (s.session = none → v.session = none) ∧
    (∀ x, s.session = some x → ∃ y, v.session = some y ∧ y = { x with phase := y.phase, holds := y.holds } ∧
      (t.session = s.session → y = x)) := by
  have hse : d.session = s.session := by rw [h.d_eq]
  have hstand : d.stand = s.stand := by rw [h.d_eq]
  have hset : d.settings = s.settings := by rw [h.d_eq]
  have hth : d.thermal = s.thermal := by rw [h.d_eq]
  have hcount : d.meter.roundCount = s.meter.roundCount := by rw [h.d_eq]
  have hal : d.share.allotment = s.share.allotment := by rw [h.d_eq]; exact h.u_allotment hr
  refine ⟨hv.stand.trans hstand, hv.settings.trans hset, hv.allotment.trans hal, hth ▸ hv.thermal, hcount ▸ hv.counted,
    fun hx => hv.gone (hse.trans hx), fun x hx => ?_⟩
  obtain ⟨y, h1, h2, h3⟩ := hv.session x (hse.trans hx)
  exact ⟨y, h1, h2, fun hc => h3 (hc.trans hse.symm)⟩

/-- A claim of a HELD session (R54, R59). -/
theorem State.SliceRun.held_claim {v : State} (hc : t.Claimed v) (hv : d.SliceClaim t v) (ht : t.phase = .held)
    (hs : s.phase ≠ .held) : t.share.ownClaim = some v.claimNow ∧ v.claimNow.phase = .held ∧ v.claimNow.q = 0 ∧
    v.claimNow.hold = true ∧ v.claimNow.standing = s.stand.standing ∧ v.claimNow.pEff = s.share.allotment ∧
    v.claimNow.sequence = t.share.sequence ∧ t.line.outbox.claim = some ⟨v.claimNow.payload, 0⟩ := by
  obtain ⟨y, hy, hp, hh⟩ := hv.held ht (by rw [h.d_phase]; exact hs)
  obtain ⟨h1, h2⟩ := State.claimNow_held hy hp hh
  obtain ⟨f1, -, f3, -⟩ := h.claim_facts hr hv
  have hhold : v.claimNow.hold = true := by
    simp only [State.claimNow, State.holds, hy, hh]; rfl
  exact ⟨hc.own, h1, h2, hhold, by rw [← f1]; rfl, by rw [← f3]; rfl, hc.sequence.symm, hc.slot⟩

/-- The claim of a session that passes to TOPPED (R59, R94). -/
theorem State.SliceRun.topped_claim {v : State} (hv : d.SliceClaim t v) (ht : t.phase = .topped) (hs : s.phase ≠ .topped) :
    v.phase = .topped ∧ v.meter.roundCount = t.meter.roundCount ∧
    ∀ x, s.session = some x → ∃ y, v.session = some y ∧ y = { x with phase := .topped, holds := y.holds } := by
  obtain ⟨h1, h2⟩ := hv.topped ht (by rw [h.d_phase]; exact hs)
  obtain ⟨-, -, -, -, -, -, f7⟩ := h.claim_facts hr hv
  refine ⟨h1, h2, fun x hx => ?_⟩
  obtain ⟨y, hy, hyx, -⟩ := f7 x hx
  rw [State.phase_of hy] at h1
  exact ⟨y, hy, by rw [← h1]; exact hyx⟩

end

section
variable {l m : LineEngine} {g : SendProgress} (h : l.Tracks m g)
include h

/-- The generator and the backoff of an event that discards nothing and draws no post slice (R158, R159, R163). -/
theorem LineEngine.Tracks.generator (hd : g.discarded = false) (hw : g.drawn = none) :
    (m.prng = l.prng ∨ (m.prng = prngNext l.prng ∧ m.sender = .waiting (prngValue 16 (prngNext l.prng)) 0)) ∧
    (l.sender = .idle → 0 < g.claims → m.prng = prngNext l.prng) := by
  have hadv : g.advances = g.backoffs := by unfold SendProgress.advances; rw [hw]; rfl
  have hprng := h.prng
  have hfew := h.few
  have hbusy := h.busy
  rw [hd] at hfew hbusy
  rw [hadv] at hprng
  refine ⟨?_, fun hi hc => ?_⟩
  · rcases Nat.lt_or_ge 0 g.backoffs with hb | hb
    · have hone : g.backoffs = 1 := Nat.le_antisymm hfew hb
      obtain ⟨⟨i, i1, i2, -, i4⟩, -⟩ := hbusy hone
      obtain rfl : i = 1 := by omega
      rw [hone] at hprng
      exact .inr ⟨hprng, i4⟩
    · rw [Nat.le_zero.1 hb] at hprng
      exact .inl hprng
  · have hone : g.backoffs = 1 := by
      refine Nat.le_antisymm hfew (Nat.pos_of_ne_zero fun hz => ?_)
      have := (h.idle hi hz).2.1
      omega
    rw [hone] at hprng
    exact hprng

/-- The own MARK, where it is neither placed nor drawn for. -/
theorem LineEngine.Tracks.ownMark (hm : g.marked = false) (hd : g.discarded = false) :
    (g.removed = false → m.outbox.mark = l.outbox.mark) ∧
    (g.removed = true → g.spared = true →
      (∀ a, l.sender = .sending a → a.slot = .mark → m.sender = .sending { a with noRetry := true } ∧
        m.outbox.mark = if a.replaced then none else l.outbox.mark) ∧
      ((∀ a, l.sender = .sending a → a.slot ≠ .mark) → m.outbox.mark = none)) := by
  have hmark := h.mark
  rw [hm, if_neg Bool.false_ne_true] at hmark
  refine ⟨fun hr => by rw [hmark, hr]; exact if_neg Bool.false_ne_true, fun hr hsp => ⟨fun a ha hs => ⟨?_, ?_⟩, fun hno => ?_⟩⟩
  · rw [(h.sending a ha).2]
    simp [SendProgress.attempt, hs, hm, hd, hsp]
  · rw [hmark, hr, ha]
    simp only [Sender.carries, hs]
    cases a.replaced <;> rfl
  · rw [hmark, hr]
    refine if_pos ?_
    cases hx : l.sender with
    | sending a => simp [Sender.carries, hno a hx]
    | idle => rfl
    | waiting b w => rfl

end

/-- Settles O9: the owed starts are taken, the parts run in any order, and each rule is read off what they keep. -/
theorem sliceExpiry : Obligations.SliceExpiry := by
  refine ⟨fun s temps hr hi => ?_, fun s temps hr hi hon => ?_, fun s hr => ?_⟩
  · obtain ⟨done, d, h⟩ := s.slice_run temps hr hi
    obtain ⟨hust, -, -, -, -, hual, hups, -⟩ := State.takeStarts_spec hr
    obtain ⟨-, -, hen, hcap, hlag, -⟩ := s.startTaken_stage
    rw [← hust] at hen hcap hlag
    have hout := State.takeStarts_out hr
    have hol : s.takeStarts.out.line = s.out.line := by rw [hout]
    have holink : s.takeStarts.out.link = s.out.link := by rw [hout]
    obtain ⟨-, -, hcnt, -⟩ := State.takeStarts_line hr
    obtain ⟨g, hsend, -, -, hgd, -⟩ := h.progress hups
    obtain ⟨c, m1, m2, m3⟩ := h.meter.after (h.all _)
    have hd := h.d_eq
    have hcount : d.countedRound = min 65535 (s.meter.roundCount + s.meter.sliceCount) := by
      rw [State.countedRound, hd]
    have hdm : d.meter = { s.meter with allDriven := s.meter.allDriven && s.takeStarts.stage.sliceDriven } := by rw [hd]
    have hds : d.stage = { s.takeStarts.stage with startOwed := d.stage.startOwed } := by rw [hd]
    have hdl : d.line = s.takeStarts.line := by rw [hd]
    rw [hcount] at m1 m2 m3
    have hround : (effect (.sliceExpiry temps) s).meter.roundCount = min 65535 (s.meter.roundCount + s.meter.sliceCount) := by
      rw [m1]
    have hdc : d.stage.cap = s.stage.cap := by rw [hds]; exact hcap
    have hde : d.stage.enable = s.stage.enable := by rw [hds]; exact hen
    have hdp : d.share = { s.takeStarts.share with postOwed := d.share.postOwed } := by rw [hd]
    have hrest := h.claims.rest
    rw [hdm] at m1
    rw [hdc, hdm] at m3
    rw [hdm] at m2
    refine ⟨_, _, by rw [exec_eq], rfl, ?_, hround, by rw [m1], by rw [m1], ?_, ?_, ?_, ?_, ?_, ?_, fun ho => ⟨?_, fun h1 h2 h3 => ?_⟩,
      fun h1 h2 => ?_, fun h1 => ?_, fun h1 => ?_, fun hx => ?_, fun x hx => h.sessions hx, ?_, ?_, ?_, ?_⟩
    · rw [h.frame.timer, hd]
    · rw [hround, m1]; exact m2
    · rw [hround]; exact m3
    · obtain ⟨ws, w1, w2, w3, w4⟩ := h.stage.words
      refine ⟨ws, fun ho => w1 (h.started ho), by rw [w2, hd], fun hc => (w3 hc).trans (by rw [hds]), w4⟩
    · rw [h.stage.lagSlice, hds]; exact hlag
    · rw [h.session.outLine, hd]
      exact hol
    · exact h.reports holink
    · exact h.stage.safe (h.started ho)
    · exact (h.stage.settled (h.started ho) (by rw [hde, h.d_permission]; exact h1)).driven.2 ⟨h2, h3⟩
    · have := h.stage.undriven (h.stage.owed.symm.trans h1) h2
      rw [hds] at this
      exact this
    · obtain ⟨e1, e2⟩ := h.owed.1 (h.stage.owed.symm.trans h1)
      exact ⟨e1, hlag.symm.trans e2⟩
    · rw [hrest] at h1
      obtain ⟨e1, e2⟩ := h.owed.2 h1
      exact ⟨e1, hups.symm.trans e2⟩
    · exact h.session.gone (by rw [hd]; exact hx)
    · rw [hrest, hdp]; exact hual
    · rw [hrest, hdp]; exact hups
    · have hk := hsend.line.counters
      rw [hgd, if_neg fun hc => Bool.false_ne_true hc.1] at hk
      rw [hk, hdl, hcnt]
    · have hw := h.whole
      rw [m1, hd] at hw
      have hch : (effect (.sliceExpiry temps) s).choices = d.choices := by rw [hw]
      have hfr : (effect (.sliceExpiry temps) s).freeCount = d.freeCount := by rw [hw]
      rw [hch, hfr, h.frame.timer, m1, hd]
      exact hw
  · obtain ⟨done, d, h⟩ := s.slice_run temps hr hi
    obtain ⟨hmark, hreply, -, hkept, hother⟩ := State.takeStarts_line hr
    obtain ⟨g, hsend, hgn, hgm, hgd, hgw, hg3, hgr, hgs, hpost, hmove, hstill, hclaim⟩ := h.progress (h.u_postSlice hr)
    have hd := h.d_eq
    have hdl : d.line = s.takeStarts.line := by rw [hd]
    have hdo : d.share.ownClaim = s.takeStarts.share.ownClaim := by rw [hd]
    have hdq : d.share.sequence = s.takeStarts.share.sequence := by rw [hd]
    have htr := hsend.line
    have hkeep := hsend.kept
    have hcounted := hsend.counted
    have hiff := hsend.sequence_iff hg3
    rw [hdl] at htr
    rw [hdo, hdq] at hkeep
    rw [hdq] at hcounted hiff
    obtain ⟨hprng, hidle⟩ := htr.generator hgd hgw
    obtain ⟨hmarkStays, hmarkOut⟩ := htr.ownMark hgm hgd
    refine ⟨_, _, by rw [exec_eq], rfl, fun h1 h2 => ?_, ?_, fun h1 h2 h3 => ?_, fun h1 h2 => ?_, fun h1 h2 => ?_,
      fun h1 h2 => ?_, fun h1 => ?_, fun h1 => ?_, htr.reply.trans hreply, hprng, fun h1 h2 => ?_⟩
    · obtain ⟨v, hv, hvc⟩ := hclaim (hpost hon h2 h1).1
      exact ⟨v, hv.own, hv.sequence, hv.slot, h.claim_facts hr hvc⟩
    · rcases Nat.eq_zero_or_pos g.claims with hz | hp
      · exact .inl (hkeep hz).2
      · exact .inr ⟨g.claims, hp, hg3, hcounted hp⟩
    · obtain ⟨hp, hone⟩ := hpost hon h2 h1
      rw [hcounted hp, hone (State.phase_congr h3)]
    · have hp := hmove hon (by rw [h1]; exact h2.symm)
      obtain ⟨v, hv, hvc⟩ := hclaim hp
      obtain ⟨c1, c2, c3, c4, c5, c6, c7, c8⟩ := h.held_claim hr hv hvc h1 h2
      exact ⟨_, c1, c2, c3, c4, c5, c6, c7, c8, fun hc => absurd (hiff.1 hc) hp.ne'⟩
    · have hp := hmove hon (by rw [h1]; exact h2.symm)
      obtain ⟨v, hv, hvc⟩ := hclaim hp
      obtain ⟨f1, f2, f3, f4, -⟩ := h.claim_facts hr hvc
      obtain ⟨t1, t2, t3⟩ := h.topped_claim hr hvc h1 h2
      exact ⟨fun hc => absurd (hiff.1 hc) hp.ne', v, hv.own, hv.sequence, hv.slot, t1, f1, f2, f3, f4, t2, t3⟩
    · have hz := hstill h1 h2
      exact ⟨(hkeep hz).1, (hkeep hz).2, htr.claimKept hz hgd⟩
    · have hyes : decide (s.timer.sliceIndex = 1) = true := decide_eq_true h1
      obtain ⟨e1, e2⟩ := hmarkOut (hgr.trans hyes) (hgs.trans hyes)
      exact ⟨fun a ha hs => by rw [← hmark]; exact e1 a (hkept a ha hs) hs, fun hno => e2 (hother hno)⟩
    · exact (hmarkStays (hgr.trans (decide_eq_false h1))).trans hmark
    · exact hidle h1 (Nat.pos_of_ne_zero fun hz => h2 (hiff.2 hz))
  · obtain ⟨h1, h2, h3, h4, h5, -, -, h8⟩ := State.takeStarts_spec hr
    obtain ⟨g1, g2, g3, g4, g5, g6⟩ := s.startTaken_stage
    rw [← h1] at g1 g2 g3 g4 g5 g6
    rw [← h2] at g2 g6
    refine ⟨_, rfl, g1, h5, fun ho => ?_, fun ho => ?_, fun hp => ?_, h4, h8⟩
    · obtain ⟨e1, e2⟩ := g2 ho
      exact ⟨by rw [e1, ← ho], e2⟩
    · obtain ⟨e1, e2, e3, e4, e5⟩ := g6 ho
      exact ⟨g3, g4, g5, e1, e2, e3, e4, e5⟩
    · obtain ⟨e1, e2⟩ := h3 hp
      exact ⟨by rw [e1, ← hp], e2⟩

end Sys2Proof.Machine
end

section
/-! States that differ in what a claim, the permission and the session do not read: the temperatures, the slice index, the
clock, the post slice and the line engine. What an operation does to one it does to the other. -/

namespace Sys2Proof.Machine

/-! ### The variation -/

/-- What two states may differ in. -/
structure Variation where
  temps : Temps
  sliceIndex : Nat
  clock : Option Nat
  subSecond : Nat
  postSlice : Option Nat
  line : LineEngine

/-- The state with these in place of its own. -/
def State.varied (v : Variation) (a : State) : State := { a with
  pins := { a.pins with temps := v.temps }
  timer := { a.timer with sliceIndex := v.sliceIndex, clock := v.clock, subSecond := v.subSecond }
  share := { a.share with postSlice := v.postSlice }
  line := v.line }

/-- What the state has of them. -/
def State.variation (a : State) : Variation :=
  ⟨a.pins.temps, a.timer.sliceIndex, a.timer.clock, a.timer.subSecond, a.share.postSlice, a.line⟩

theorem State.varied_self (a : State) : a.varied a.variation = a := rfl

theorem State.claimNow_varied (v : Variation) (a : State) : (a.varied v).claimNow = a.claimNow := by
  have hask : (a.varied v).asksUncredited = a.asksUncredited := by
    simp only [State.asksUncredited, State.choose_fst_congr (s := a) (t := a.varied v) rfl rfl]
  have henergy : ∀ x, (a.varied v).claimEnergy x = a.claimEnergy x := fun x => by
    rw [State.claimEnergy, State.claimEnergy, hask]; rfl
  have hreq : ∀ x, (a.varied v).required x = a.required x := fun x => by
    rw [State.required, State.required, henergy]; rfl
  unfold State.claimNow
  simp only [hreq]
  rfl

theorem State.sendIfChanged_varied (v : Variation) (a : State) :
    (a.varied v).sendIfChanged = a.sendIfChanged.varied v := by
  have h : (a.varied v).stage = a.stage := rfl
  unfold State.sendIfChanged
  rw [h]
  split <;> rfl

theorem State.evalPermission_varied (v : Variation) (a : State) :
    (a.varied v).evalPermission = a.evalPermission.varied v := by
  have h : (a.varied v).permission = a.permission := rfl
  unfold State.evalPermission
  rw [h, ← State.sendIfChanged_varied]
  cases a.permission <;> rfl

/-- A frame placed, in each on its own line engine. -/
theorem State.placeFrame_varied (slot : Slot) (p : List Byte) (v : Variation) (a : State) :
    (a.varied v).placeFrame slot p =
      (a.placeFrame slot p).varied { v with line := ((a.varied v).placeFrame slot p).line } := by
  obtain ⟨_, e1⟩ := a.placeFrame_frame slot p
  obtain ⟨_, e2⟩ := (a.varied v).placeFrame_frame slot p
  rw [e2, e1]
  rfl

/-! ### Pairs of states -/

/-- A relation between line engines that a claim placed in both keeps. -/
def KeepsClaims (R : LineEngine → LineEngine → Prop) : Prop :=
  ∀ (a b : State) (p : List Byte), R a.line b.line → R (a.placeFrame .claim p).line (b.placeFrame .claim p).line

theorem keepsClaims_true : KeepsClaims fun _ _ => True := fun _ _ _ _ => trivial

theorem keepsClaims_eq : KeepsClaims Eq := fun a b p (h : a.line = b.line) => by
  have hw : ∀ a b : State, a.line = b.line → ∃ l, a.placeFrame .claim p = { a with line := l } ∧
      b.placeFrame .claim p = { b with line := l } := fun a b h => by
    unfold State.placeFrame State.startWait State.draw State.setSender State.setSlot
    rw [h]
    cases b.line.sender with
    | idle => exact ⟨_, rfl, rfl⟩
    | waiting _ _ => exact ⟨_, rfl, rfl⟩
    | sending x =>
      simp only []
      split
      · exact ⟨_, rfl, rfl⟩
      · exact ⟨_, rfl, rfl⟩
  obtain ⟨l, e1, e2⟩ := hw a b h
  rw [e1, e2]

/-- `b` is `a` but for a variation: with `strict` one that keeps temperatures and clock, and with line engines related
by `R`. -/
def State.Alike (strict : Prop) (R : LineEngine → LineEngine → Prop) (a b : State) : Prop :=
  ∃ v, b = a.varied v ∧ (strict → v.temps = a.pins.temps ∧ v.clock = a.timer.clock) ∧ R a.line v.line

section
variable {strict : Prop} {R : LineEngine → LineEngine → Prop} {a b : State}

/-- An operation that treats the two alike and leaves line engine, temperatures and clock. -/
theorem State.Alike.step {f : State → State} (h : State.Alike strict R a b) (hf : ∀ v, f (a.varied v) = (f a).varied v)
    (hl : (f a).line = a.line) (ht : (f a).pins.temps = a.pins.temps) (hc : (f a).timer.clock = a.timer.clock) :
    State.Alike strict R (f a) (f b) := by
  obtain ⟨v, rfl, hs, hr⟩ := h
  exact ⟨v, hf v, fun h => by rw [ht, hc]; exact hs h, by rw [hl]; exact hr⟩

theorem State.Alike.evalPermission (h : State.Alike strict R a b) : State.Alike strict R a.evalPermission b.evalPermission :=
  h.step (fun v => State.evalPermission_varied v a) (by simp) (by simp) (by simp)

theorem State.Alike.formClaim (hR : KeepsClaims R) (h : State.Alike strict R a b) :
    State.Alike strict R a.formClaim b.formClaim := by
  obtain ⟨v, rfl, hs, hr⟩ := h
  have hon : (a.varied v).stand.standing.onLine = a.stand.standing.onLine := rfl
  unfold State.formClaim
  rw [hon, State.claimNow_varied]
  split
  · have e := State.placeFrame_varied .claim a.claimNow.payload v
      { a with share := { a.share with ownClaim := some a.claimNow, sequence := a.claimNow.sequence } }
    refine ⟨_, e, fun h => ?_, hR _ _ _ hr⟩
    simpa using hs h
  · exact ⟨v, rfl, hs, hr⟩

/-- The standing unit's part. -/
theorem State.Alike.standingTakes (hR : KeepsClaims R) (h : State.Alike strict R a b) (n : Nat) :
    State.Alike strict R (a.standingTakes n) (b.standingTakes n) := by
  obtain ⟨v, rfl, hs, hr⟩ := h
  have pass : ∀ x : State, x.line = a.line → x.pins = a.pins → x.timer.clock = a.timer.clock →
      State.Alike strict R x.formClaim.evalPermission (x.varied v).formClaim.evalPermission := fun x e1 e2 e3 =>
    (State.Alike.formClaim hR ⟨v, rfl, fun h => by rw [e2, e3]; exact hs h, by rw [e1]; exact hr⟩).evalPermission
  have only : ∀ u, State.Alike strict R { a with stand := u } { a.varied v with stand := u } := fun _ => ⟨v, rfl, hs, hr⟩
  by_cases h0 : a.onLine = false ∨ n = 0 ∨ a.cfg.n < n
  · rw [State.standingTakes_unheard h0, State.standingTakes_unheard (s := a.varied v) h0]
    exact only a.stand
  · push Not at h0
    obtain ⟨ho, h1, h2⟩ := h0
    have ho : a.onLine = true := by simpa using ho
    have hn : 1 ≤ n := Nat.pos_of_ne_zero h1
    by_cases hb : n = a.cfg.bay
    · rw [State.standingTakes_own ho hn h2 hb, State.standingTakes_own (s := a.varied v) ho hn h2 hb]
      exact only _
    · rw [State.standingTakes_peer ho hn h2 hb, State.standingTakes_peer (s := a.varied v) ho hn h2 hb]
      have hst : (a.varied v).stand = a.stand := rfl
      rw [hst]
      cases a.stand.standing with
      | isolated => exact pass { a with stand := _ } rfl rfl rfl
      | cutoff => exact pass ({ a with stand := a.stand.hears false } : State).enterListening rfl rfl rfl
      | _ => exact only _

end

end Sys2Proof.Machine
end

section
/-! Round ends of two states that differ in slice index, post slice and line engine: the parts before and after the work,
and the work up to the allotment (R3, R91, R123, R128, R158). -/

namespace Sys2Proof.Machine

/-! ### Scan and level test -/

section
variable {strict : Prop} {R : LineEngine → LineEngine → Prop} {a b : State}

theorem State.Alike.same (h : State.Alike strict R a b) : b.session = a.session ∧ b.stand = a.stand ∧
    b.settings = a.settings ∧ b.thermal = a.thermal ∧ b.meter = a.meter ∧ b.stage = a.stage ∧ b.out = a.out ∧
    b.pins.permit = a.pins.permit := by
  obtain ⟨v, rfl, -⟩ := h
  exact ⟨rfl, rfl, rfl, rfl, rfl, rfl, rfl, rfl⟩

theorem State.Alike.putSession (hR : KeepsClaims R) (h : State.Alike strict R a b) (x : Option Session) :
    State.Alike strict R (a.putSession x) (b.putSession x) := by
  have hset : State.Alike strict R { a with session := x } { b with session := x } :=
    h.step (f := fun s => { s with session := x }) (fun _ => rfl) rfl rfl rfl
  have hsend : State.Alike strict R ({ a with session := x } : State).sendPhase ({ b with session := x } : State).sendPhase :=
    hset.step (f := State.sendPhase) (fun _ => rfl) rfl rfl rfl
  obtain ⟨hs, -⟩ := h.same
  have hp : b.phase = a.phase := State.phase_congr hs
  have hh : b.holds = a.holds := State.holds_congr hs
  have hxp : ({ b with session := x } : State).phase = ({ a with session := x } : State).phase := State.phase_congr rfl
  have hxh : ({ b with session := x } : State).holds = ({ a with session := x } : State).holds := State.holds_congr rfl
  unfold State.putSession
  simp only [hp, hh, hxp, hxh]
  have hboth : State.Alike strict R
      (if ({ a with session := x } : State).phase = a.phase ∧ ({ a with session := x } : State).holds = a.holds
        then { a with session := x } else ({ a with session := x } : State).sendPhase)
      (if ({ a with session := x } : State).phase = a.phase ∧ ({ a with session := x } : State).holds = a.holds
        then { b with session := x } else ({ b with session := x } : State).sendPhase) := by
    split
    · exact hset
    · exact hsend
  by_cases hc : ({ a with session := x } : State).phase ≠ a.phase ∧ ({ a with session := x } : State).phase.reforms = true
  · rw [if_pos hc, if_pos hc]
    exact hboth.formClaim hR
  · rw [if_neg hc, if_neg hc]
    exact hboth

theorem State.Alike.changeSession (hR : KeepsClaims R) (h : State.Alike strict R a b) (x : Option Session) :
    State.Alike strict R (a.changeSession x) (b.changeSession x) := (h.putSession hR x).evalPermission

theorem State.Alike.addHold (hR : KeepsClaims R) (h : State.Alike strict R a b) (r : HoldReason) :
    State.Alike strict R (a.addHold r) (b.addHold r) := by
  obtain ⟨hs, -⟩ := h.same
  unfold State.addHold
  rw [hs]
  cases a.session with
  | none => exact h
  | some x =>
    simp only []
    split
    · exact h
    · exact h.changeSession hR _

theorem State.Alike.removeHold (hR : KeepsClaims R) (h : State.Alike strict R a b) (r : HoldReason) :
    State.Alike strict R (a.removeHold r) (b.removeHold r) := by
  obtain ⟨hs, -⟩ := h.same
  unfold State.removeHold
  rw [hs]
  cases a.session with
  | none => exact h
  | some x =>
    simp only []
    split
    · exact h.changeSession hR _
    · exact h

theorem State.Alike.permitTest (hR : KeepsClaims R) (h : State.Alike strict R a b) :
    State.Alike strict R a.permitTest b.permitTest := by
  obtain ⟨-, -, -, -, -, -, -, hp⟩ := h.same
  unfold State.permitTest
  rw [hp]
  split
  · exact h
  · exact h.addHold hR _

theorem State.refreshMEff_varied (v : Variation) (a : State) : (a.varied v).refreshMEff = a.refreshMEff.varied v := by
  unfold State.refreshMEff State.clampApplied
  exact State.sendIfChanged_varied v { a with
    thermal := { a.thermal with mEff := a.formedMEff }, stage := { a.stage with applied := min a.stage.applied a.formedMEff } }

theorem State.Alike.scan (hR : KeepsClaims R) (h : State.Alike True R a b) : State.Alike True R a.scan b.scan := by
  have hreads : State.Alike True R { a with thermal := a.scanned } { b with thermal := b.scanned } := by
    obtain ⟨v, rfl, hs, hr⟩ := h
    obtain ⟨ht, hc⟩ := hs trivial
    refine ⟨v, ?_, hs, hr⟩
    have : (a.varied v).scanned = a.scanned := by
      unfold State.scanned
      rw [show (a.varied v).pins.temps = a.pins.temps from ht]
      rfl
    rw [this]; rfl
  have hfresh := hreads.step (f := State.refreshMEff) (fun v => State.refreshMEff_varied v _) (by simp) (by simp) (by simp)
  obtain ⟨-, -, hset, hth, -⟩ := hfresh.same
  have hcfg : ({ b with thermal := b.scanned } : State).refreshMEff.cfg = ({ a with thermal := a.scanned } : State).refreshMEff.cfg := by
    unfold State.cfg; rw [hset]
  unfold State.scan State.thermalHold
  rw [hth, hcfg]
  split
  · exact hfresh
  · split
    · exact hfresh.addHold hR _
    · split
      · exact hfresh.removeHold hR _
      · exact hfresh

/-- The scan and the level test of one side of the work. -/
theorem State.Alike.slicePartsOn (hR : KeepsClaims R) (h : State.Alike True R a b) (c : Nat) (x y : Bool) :
    State.Alike True R (slicePartsOn c x y a) (slicePartsOn c x y b) := by
  have hall : ∀ l : List (State → State), (∀ f ∈ l, f = State.scan ∨ f = State.permitTest) →
      ∀ {a b}, State.Alike True R a b → State.Alike True R (runAll l a) (runAll l b) := by
    intro l
    induction l with
    | nil => exact fun _ _ _ h => h
    | cons f l ih =>
      intro hl a b h
      refine ih (fun g hg => hl g (List.mem_cons_of_mem _ hg)) ?_
      rcases hl f List.mem_cons_self with rfl | rfl
      · exact h.scan hR
      · exact h.permitTest hR
  refine hall _ (fun f hf => ?_) h
  rw [(arrange_perm c _).mem_iff, List.mem_append] at hf
  rcases hf with hf | hf
  · cases x with
    | false => cases hf
    | true => exact .inl (List.mem_singleton.1 hf)
  · cases y with
    | false => cases hf
    | true => exact .inr (List.mem_singleton.1 hf)

/-! ### The work up to the allotment -/

theorem State.ceilingTest_varied (v : Variation) (a : State) : (a.varied v).ceilingTest = a.ceilingTest.varied v := by
  have h : (a.varied v).meter = a.meter := rfl
  unfold State.ceilingTest
  rw [h]
  split
  · exact State.sendIfChanged_varied v { a with meter := { a.meter with capped := true }, stage := { a.stage with cap := true } }
  · rfl

theorem State.meterSliceEnd_varied (v : Variation) (a : State) : (a.varied v).meterSliceEnd = a.meterSliceEnd.varied v :=
  State.ceilingTest_varied v { a with
    meter := { a.meter with roundCount := satAdd Config.top16 a.meter.roundCount a.meter.sliceCount, sliceCount := 0 } }

end

/-- Line engines with the same CLAIM in the slot and on the line, and the same counters. -/
structure LineEngine.SameClaim (l m : LineEngine) : Prop where
  claim : m.outbox.claim = l.outbox.claim
  counters : m.counters = l.counters
  carries : m.sender.carries .claim = l.sender.carries .claim

/-- What a placed frame leaves the sender carrying. -/
theorem LineEngine.Places.carries {l m : LineEngine} {slot : Slot} {p : List Byte} (h : l.Places m slot p) (q : Slot) :
    m.sender.carries q = (l.sender.carries q && !decide (q = slot)) := by
  cases hs : l.sender with
  | idle => rw [(h.idle hs).2]; rfl
  | waiting b w => rw [(h.waiting b w hs).2]; rfl
  | sending a =>
    rw [(h.sending a hs).2]
    simp only [Sender.carries, Bool.not_or, ← Bool.and_assoc]
    by_cases hq : a.slot = q
    · rw [hq]
    · rw [beq_false_of_ne hq]; rfl

theorem LineEngine.SameClaim.placesClaim {l m l' m' : LineEngine} {p : List Byte} (h : l.SameClaim m)
    (h1 : l.Places l' .claim p) (h2 : m.Places m' .claim p) : l'.SameClaim m' where
  claim := by rw [h1.inSlot, h2.inSlot]; rfl
  counters := by rw [h1.others, h2.others]; exact h.counters
  carries := by rw [h1.carries, h2.carries]; simp

theorem LineEngine.SameClaim.placesMark {l m m' : LineEngine} {p : List Byte} (h : l.SameClaim m)
    (h2 : m.Places m' .mark p) : l.SameClaim m' where
  claim := by rw [h2.inSlot]; exact h.claim
  counters := by rw [h2.others]; exact h.counters
  carries := by rw [h2.carries, h.carries]; simp

theorem keepsClaims_sameClaim : KeepsClaims LineEngine.SameClaim := fun a b p h =>
  h.placesClaim (a.placeFrame_places .claim p) (b.placeFrame_places .claim p)

theorem LineEngine.Discards.carries {l m : LineEngine} (h : l.Discards m) (q : Slot) :
    m.sender.carries q = l.sender.carries q := by
  cases hs : l.sender with
  | idle => rw [h.idle hs]
  | waiting b w =>
    rcases h.waiting b w hs with e | ⟨e, -⟩
    · rw [e]
    · rw [e]; rfl
  | sending a => rw [h.sending a hs]; rfl

theorem LineEngine.SameClaim.claimWaits {l m : LineEngine} (h : l.SameClaim m) : m.claimWaits = l.claimWaits := by
  unfold LineEngine.claimWaits
  rw [h.claim, h.carries]

theorem LineEngine.SameClaim.discards {l m l' m' : LineEngine} (h : l.SameClaim m) (h1 : l.Discards l')
    (h2 : m.Discards m') : l'.SameClaim m' where
  claim := by rw [h1.outbox, h2.outbox, h.claimWaits]; simp only [h.claim]
  counters := by rw [h1.counters, h2.counters, h.claimWaits, h.counters]
  carries := by rw [h1.carries, h2.carries, h.carries]

section
variable {a b : State} (h : State.Alike True LineEngine.SameClaim a b)
include h

/-- The own MARK placed in one of the two. -/
theorem State.Alike.placeMark_right : State.Alike True LineEngine.SameClaim a b.placeMark := by
  unfold State.placeMark
  split
  · obtain ⟨v, rfl, hs, hr⟩ := h
    obtain ⟨l, e⟩ := (a.varied v).placeFrame_frame .mark []
    refine ⟨{ v with line := ((a.varied v).placeFrame .mark []).line }, ?_, hs, ?_⟩
    · rw [e]; rfl
    · exact hr.placesMark ((a.varied v).placeFrame_places .mark [])
  · exact h

theorem State.Alike.discardClaim : State.Alike True LineEngine.SameClaim a.discardClaim b.discardClaim := by
  obtain ⟨v, rfl, hs, hr⟩ := h
  have hstand : ∀ s : State, s.discardClaim = { s with
      line := s.discardClaim.line
      stand := { s.stand with claimRecord := s.stand.claimRecord.discarded s.line.claimWaits } } := fun s => by
    obtain ⟨-, e1, e2, e3⟩ := s.discardClaim_spec
    rw [← e2, ← e3]
    exact e1
  have hr' : a.line.SameClaim (a.varied v).line := hr
  refine ⟨{ v with line := (a.varied v).discardClaim.line }, ?_, ?_, ?_⟩
  · rw [hstand (a.varied v), hstand a, hr'.claimWaits]
    rfl
  · rw [hstand a]; exact hs
  · exact hr'.discards a.discardClaim_discards (a.varied v).discardClaim_discards

end

end Sys2Proof.Machine
end

section
/-! An early round end beside the natural one: but for the own MARK, the sender, the generator and the post slice they come
out the same (R3, R11, R13). -/

namespace Sys2Proof.Machine

section
variable {a b : State} (h : State.Alike True LineEngine.SameClaim a b)
include h

theorem State.Alike.expireNotices : State.Alike True LineEngine.SameClaim a.expireNotices b.expireNotices := by
  obtain ⟨v, rfl, hs, hr⟩ := h
  have hc : (a.varied v).timer.clock = a.timer.clock := (hs trivial).2
  unfold State.expireNotices
  rw [hc]
  cases a.timer.clock with
  | none => exact ⟨v, rfl, hs, hr⟩
  | some now => exact ⟨v, rfl, hs, hr⟩

theorem State.Alike.nextRound : State.Alike True LineEngine.SameClaim a.nextRound b.nextRound := by
  obtain ⟨v, rfl, hs, hr⟩ := h
  exact ⟨{ v with sliceIndex := 0 }, rfl, hs, hr⟩

theorem State.Alike.drawPostSlice : State.Alike True LineEngine.SameClaim a.drawPostSlice b.drawPostSlice := by
  obtain ⟨v, rfl, hs, hr⟩ := h
  have hdraw : ∀ w : State, ∃ x p, w.drawPostSlice = { w with
      line := { w.line with prng := x }, share := { w.share with postSlice := p, postOwed := false } } :=
    fun w => by simp only [State.drawPostSlice, State.draw]; exact ⟨_, _, rfl⟩
  obtain ⟨x, p, e1⟩ := hdraw a
  obtain ⟨y, q, e2⟩ := hdraw (a.varied v)
  rw [e1, e2]
  exact ⟨{ v with line := { v.line with prng := y }, postSlice := q }, rfl, hs, ⟨hr.claim, hr.counters, hr.carries⟩⟩

theorem State.Alike.reformIfChanged (before : Standing) :
    State.Alike True LineEngine.SameClaim (a.reformIfChanged before) (b.reformIfChanged before) := by
  obtain ⟨-, hst, -⟩ := h.same
  unfold State.reformIfChanged
  rw [hst]
  split
  · exact h
  · exact h.formClaim keepsClaims_sameClaim

theorem State.Alike.sessionRoundEnd (counts : Nat) (capped silence : Bool) : State.Alike True LineEngine.SameClaim
    ((a.sessionRoundEnd counts capped silence).stageRoundEnd) ((b.sessionRoundEnd counts capped silence).stageRoundEnd) := by
  refine State.Alike.step (f := State.stageRoundEnd) ?_ (fun _ => rfl) rfl rfl rfl
  obtain ⟨hs, -⟩ := h.same
  have hafter : b.sessionAfterRound counts capped silence = a.sessionAfterRound counts capped silence := by
    obtain ⟨v, rfl, -⟩ := h
    exact State.sessionAfterRound_congr (s := a) (t := a.varied v) rfl rfl rfl counts capped silence
  unfold State.sessionRoundEnd
  rw [hs, hafter]
  cases a.session with
  | none => exact h
  | some x => exact h.putSession keepsClaims_sameClaim _

/-- The work up to the allotment; the own MARK may be placed in the second. -/
theorem State.Alike.roundEndCore (m : Bool) :
    State.Alike True LineEngine.SameClaim (a.roundEndCore false) (b.roundEndCore m) := by
  have hmeter := h.step (f := State.meterSliceEnd) (fun v => State.meterSliceEnd_varied v a) (by simp) (by simp) (by simp)
  have hhold := hmeter.step (f := State.holdRound) (fun _ => rfl) rfl rfl rfl
  have hmark : State.Alike True LineEngine.SameClaim a.meterSliceEnd.holdRound
      (if m then b.meterSliceEnd.holdRound.placeMark else b.meterSliceEnd.holdRound) := by
    split
    · exact hhold.placeMark_right
    · exact hhold
  have hstand := hmark.discardClaim.step (f := State.standingRoundEnd) (fun _ => rfl) rfl rfl rfl
  have hpool : ∀ {x y : State}, State.Alike True LineEngine.SameClaim x y → y.pool = x.pool := fun hxy => by
    obtain ⟨v, rfl, -⟩ := hxy; rfl
  show State.Alike True LineEngine.SameClaim
    ((((a.meterSliceEnd.holdRound.discardClaim.standingRoundEnd.agePeers
      a.meterSliceEnd.holdRound.discardClaim.standingRoundEnd.pool.lone).countOverride).expireNotices).chooseAllotment
      a.meterSliceEnd.holdRound.discardClaim.standingRoundEnd.pool).nextRound
    (((((if m then b.meterSliceEnd.holdRound.placeMark else b.meterSliceEnd.holdRound).discardClaim.standingRoundEnd.agePeers
      (if m then b.meterSliceEnd.holdRound.placeMark
        else b.meterSliceEnd.holdRound).discardClaim.standingRoundEnd.pool.lone).countOverride).expireNotices).chooseAllotment
      (if m then b.meterSliceEnd.holdRound.placeMark
        else b.meterSliceEnd.holdRound).discardClaim.standingRoundEnd.pool).nextRound
  rw [hpool hstand]
  have hage := hstand.step (f := State.agePeers a.meterSliceEnd.holdRound.discardClaim.standingRoundEnd.pool.lone)
    (fun _ => rfl) rfl rfl rfl
  have hcount := hage.step (f := State.countOverride) (fun _ => rfl) rfl rfl rfl
  have hshare := hcount.expireNotices.step
    (f := State.chooseAllotment a.meterSliceEnd.holdRound.discardClaim.standingRoundEnd.pool) (fun _ => rfl) rfl rfl rfl
  exact hshare.nextRound

/-- The parts after the allotment, in the same order; the own MARK may be placed in the second. -/
theorem State.Alike.roundEndTail (m : Bool) (before : Standing) (counts : Nat) (capped silence : Bool) (c : Nat) :
    State.Alike True LineEngine.SameClaim (runIn c (roundEndTail false before counts capped silence) a)
      (runIn c (roundEndTail m before counts capped silence) b) := by
  have go : ∀ l : List TailPart, ∀ {a b : State}, State.Alike True LineEngine.SameClaim a b →
      State.Alike True LineEngine.SameClaim (runAll (l.map (TailPart.run false before counts capped silence)) a)
        (runAll (l.map (TailPart.run m before counts capped silence)) b) := by
    intro l
    induction l with
    | nil => exact fun h => h
    | cons p l ih =>
      intro a b h
      refine ih ?_
      cases p with
      | post => exact h.drawPostSlice
      | reform => exact h.reformIfChanged before
      | session => exact h.sessionRoundEnd counts capped silence
      | mark =>
        show State.Alike _ _ a (if m then b.placeMark else b)
        split
        · exact h.placeMark_right
        · exact h
  rw [roundEndTail_eq, roundEndTail_eq, runIn, runIn, arrange_map, arrange_map]
  exact go _ h

theorem State.Alike.roundEndWork (c : Nat) :
    State.Alike True LineEngine.SameClaim (a.roundEndWork false c) (b.roundEndWork true c) := by
  obtain ⟨-, hst, -⟩ := h.same
  have hmeter : b.meterSliceEnd.meter = a.meterSliceEnd.meter := by
    obtain ⟨v, rfl, -⟩ := h
    rw [State.meterSliceEnd_varied]; rfl
  have htail := State.Alike.roundEndTail (h.roundEndCore (true && b.timer.aligned && decide (c % 2 = 1)))
    (true && !(true && b.timer.aligned && decide (c % 2 = 1))) a.stand.standing a.meterSliceEnd.meter.roundCount
    a.meterSliceEnd.meter.capped a.meterSliceEnd.meter.silent (c / 2)
  have := htail.step (f := State.beginMeterRound) (fun _ => rfl) rfl rfl rfl
  unfold State.roundEndWork
  rw [hst, hmeter]
  exact this

/-- An early round end beside a natural one, with the same free choice. -/
theorem State.Alike.roundEnd : State.Alike True LineEngine.SameClaim (a.roundEnd false) (b.roundEnd true) := by
  have hsame : b.choose.1 = a.choose.1 := by
    obtain ⟨v, rfl, -⟩ := h
    exact State.choose_fst_congr (s := a) (t := a.varied v) rfl rfl
  have hchoose : State.Alike True LineEngine.SameClaim a.choose.2 b.choose.2 := by
    refine h.step (f := fun s => s.choose.2) (fun v => ?_) (by simp) (by simp) (by simp)
    have hc : (a.varied v).choices = a.choices := rfl
    unfold State.choose
    rw [hc]
    cases a.choices <;> rfl
  have hhand := hchoose.step (f := State.handDriven) (fun _ => rfl) rfl rfl rfl
  unfold State.roundEnd State.roundEndIn
  rw [hsame]
  exact ((hhand.slicePartsOn keepsClaims_sameClaim _ _ _).roundEndWork _).slicePartsOn keepsClaims_sameClaim _ _ _

end

end Sys2Proof.Machine
end

section
/-! A peer's MARK with rounds running: in whatever order its parts come, some come before the round end and the others after
it, and the clock rule meets neither the outbox nor the standing unit (R8, R10 to R13, R16, R22). -/

namespace Sys2Proof.Machine

/-! ### The parts -/

/-- The parts of the delivery of a MARK. -/
inductive MarkPart where
  | remove | round | clock | stand
  deriving DecidableEq

/-- What each does. -/
def MarkPart.run (bay field : Nat) : MarkPart → State → State
  | .remove => State.removeWaitingMark
  | .round => State.markRound
  | .clock => State.markClock field
  | .stand => State.standingTakes bay

theorem State.markClock_varied (field : Nat) (s : State) : ∃ t x, s.markClock field = s.varied { s.variation with clock := t, subSecond := x } := by
  rw [State.markClock_spec]
  split
  · exact ⟨some field, 0, rfl⟩
  · exact ⟨s.timer.clock, s.timer.subSecond, rfl⟩

theorem State.removeWaitingMark_varied (s : State) (v : Variation) (hv : v.line = s.line) :
    (s.varied v).removeWaitingMark = s.removeWaitingMark.varied { v with line := s.removeWaitingMark.line } := by
  have hsame : ∀ l, l = s.line → v = { v with line := l } := by rintro _ rfl; rw [← hv]
  have hl : (s.varied v).line = s.line := hv
  have hu : (s.varied v).underWay .mark = s.underWay .mark := by rw [State.underWay_eq, State.underWay_eq, hl]
  unfold State.removeWaitingMark
  rw [hl, hu]
  split
  · unfold State.removeFrame
    have hset : (s.varied v).setSlot .mark none = (s.setSlot .mark none).varied { v with line := (s.setSlot .mark none).line } := by
      unfold State.setSlot
      rw [hl]; rfl
    simp only [hset, hl]
    split
    · split
      · next h1 => rw [if_pos (by exact h1)]; rfl
      · next h1 => rw [if_neg (by exact h1)]
    · rfl
    · rfl
  · exact congrArg (fun v => s.varied v) (hsame _ rfl)

theorem State.standingTakes_varied (bay : Nat) (s : State) (v : Variation) (hv : v.line = s.line) :
    (s.varied v).standingTakes bay = (s.standingTakes bay).varied { v with line := (s.standingTakes bay).line } := by
  have halike : State.Alike False Eq s (s.varied v) := ⟨v, rfl, nofun, hv.symm⟩
  obtain ⟨⟨t, i, c, x, p, l⟩, e, -, hl⟩ := halike.standingTakes keepsClaims_eq bay
  obtain ⟨al, htimer⟩ := (s.varied v).standingTakes_timer bay
  have ht : ((s.varied v).standingTakes bay).pins.temps = v.temps := by rw [State.standingTakes_pins]; rfl
  have hi : ((s.varied v).standingTakes bay).timer.sliceIndex = v.sliceIndex := by rw [htimer]; rfl
  have hc : ((s.varied v).standingTakes bay).timer.clock = v.clock := by rw [htimer]; rfl
  have hx : ((s.varied v).standingTakes bay).timer.subSecond = v.subSecond := by rw [htimer]; rfl
  have hp : ((s.varied v).standingTakes bay).share.postSlice = v.postSlice := by rw [State.standingTakes_postSlice]; rfl
  rw [e] at ht hi hc hx hp
  rw [e, ← ht, ← hi, ← hc, ← hx, ← hp, hl]
  rfl

theorem State.markClock_cases (field : Nat) (s : State) : (s.timer.clock = none ∧ field < 86400 ∧
      s.markClock field = s.varied { s.variation with clock := some field, subSecond := 0 }) ∨
    ((s.timer.clock ≠ none ∨ 86400 ≤ field) ∧ s.markClock field = s) := by
  rw [State.markClock_spec]
  split
  · next h => exact .inl ⟨h.1, h.2, rfl⟩
  · next h => exact .inr ⟨by rw [← Nat.not_lt]; exact not_and_or.1 h, rfl⟩

/-- The clock rule and a part that reads nothing of the clock and leaves it. -/
theorem State.markClock_comm {f : State → State} (field : Nat) (s : State)
    (hf : ∀ v : Variation, v.line = s.line → f (s.varied v) = (f s).varied { v with line := (f s).line })
    (ht : (f s).pins.temps = s.pins.temps ∧ (f s).timer.sliceIndex = s.timer.sliceIndex ∧
      (f s).timer.clock = s.timer.clock ∧ (f s).share.postSlice = s.share.postSlice) :
    f (s.markClock field) = (f s).markClock field := by
  obtain ⟨h1, h2, h3, h4⟩ := ht
  rcases s.markClock_cases field with ⟨hc, hn, e⟩ | ⟨hc, e⟩ <;>
    rcases (f s).markClock_cases field with ⟨hc', hn', e'⟩ | ⟨hc', e'⟩
  · rw [e, e', hf _ rfl]
    unfold State.variation
    rw [h1, h2, h4]
  · rw [h3] at hc'
    exact (hc'.elim (fun h => h hc) fun h => by omega).elim
  · rw [h3] at hc'
    exact (hc.elim (fun h => h hc') fun h => by omega).elim
  · rw [e, e']

theorem State.removeWaitingMark_markClock (field : Nat) (s : State) :
    (s.markClock field).removeWaitingMark = s.removeWaitingMark.markClock field :=
  State.markClock_comm field s (fun v hv => s.removeWaitingMark_varied v hv) (by simp)

theorem State.standingTakes_markClock (bay field : Nat) (s : State) :
    (s.markClock field).standingTakes bay = (s.standingTakes bay).markClock field := by
  obtain ⟨al, htimer⟩ := s.standingTakes_timer bay
  exact State.markClock_comm field s (fun v hv => s.standingTakes_varied bay v hv)
    ⟨by simp, by rw [htimer], by rw [htimer], s.standingTakes_postSlice bay⟩

/-! ### The order -/

/-- What comes before the round end and what after it, the clock rule apart. -/
inductive MarkSplit (bay : Nat) : (State → State) → (State → State) → Prop where
  | lateRemoveFirst : MarkSplit bay id fun s => s.removeWaitingMark.standingTakes bay
  | lateStandFirst : MarkSplit bay id fun s => (s.standingTakes bay).removeWaitingMark
  | removeFirst : MarkSplit bay State.removeWaitingMark (State.standingTakes bay)
  | standFirst : MarkSplit bay (State.standingTakes bay) State.removeWaitingMark
  | earlyRemoveFirst : MarkSplit bay (fun s => s.removeWaitingMark.standingTakes bay) id
  | earlyStandFirst : MarkSplit bay (fun s => (s.standingTakes bay).removeWaitingMark) id

/-- The clock rule, or nothing. -/
def State.clockIf (field : Nat) (b : Bool) (s : State) : State := if b then s.markClock field else s

/-- Parts that are neither the round's nor the clock's. -/
def MarkPart.sides : List (List MarkPart) := [[], [.remove], [.stand], [.remove, .stand], [.stand, .remove]]

theorem MarkPart.mem_sides {l : List MarkPart} (hn : l.Nodup) (hr : .round ∉ l) (hc : .clock ∉ l) :
    l ∈ MarkPart.sides := by
  have only : ∀ p ∈ l, p = .remove ∨ p = .stand := fun p hp => by
    cases p with
    | remove => exact .inl rfl
    | stand => exact .inr rfl
    | round => exact absurd hp hr
    | clock => exact absurd hp hc
  rcases l with _ | ⟨p, _ | ⟨q, _ | ⟨r, l⟩⟩⟩
  · decide
  · rcases only p (by simp) with rfl | rfl <;> decide
  · rcases only p (by simp) with rfl | rfl <;> rcases only q (by simp) with rfl | rfl
    · simp at hn
    · decide
    · decide
    · simp at hn
  · rcases only p (by simp) with rfl | rfl <;> rcases only q (by simp) with rfl | rfl <;>
      rcases only r (by simp) with rfl | rfl <;> simp at hn

/-- The clock rule before parts that are neither the round's nor the clock's does as well after them. -/
theorem runAll_markClock (bay field : Nat) : ∀ l : List MarkPart, .round ∉ l → .clock ∉ l → ∀ s,
    runAll (l.map (MarkPart.run bay field)) (s.markClock field) =
      (runAll (l.map (MarkPart.run bay field)) s).markClock field
  | [], _, _, _ => rfl
  | p :: l, hr, hc, s => by
    rw [List.mem_cons, not_or] at hr hc
    have hp : p.run bay field (s.markClock field) = (p.run bay field s).markClock field := by
      cases p with
      | round => exact absurd rfl hr.1
      | clock => exact absurd rfl hc.1
      | remove => exact s.removeWaitingMark_markClock field
      | stand => exact s.standingTakes_markClock bay field
    show runAll (l.map (MarkPart.run bay field)) (p.run bay field (s.markClock field)) = _
    rw [hp]
    exact runAll_markClock bay field l hr.2 hc.2 _

/-- The clock rule moved behind the parts on its side of the round end. -/
theorem runAll_clockLast (bay field : Nat) : ∀ l : List MarkPart, l.Nodup → .round ∉ l → ∀ s,
    runAll (l.map (MarkPart.run bay field)) s =
      (runAll ((l.erase .clock).map (MarkPart.run bay field)) s).clockIf field (decide (.clock ∈ l))
  | [], _, _, _ => rfl
  | p :: l, hn, hr, s => by
    rw [List.nodup_cons] at hn
    rw [List.mem_cons, not_or] at hr
    by_cases hp : p = .clock
    · subst hp
      rw [List.erase_cons_head, decide_eq_true List.mem_cons_self]
      exact runAll_markClock bay field l hr.2 hn.1 s
    · have hmem : decide (MarkPart.clock ∈ p :: l) = decide (MarkPart.clock ∈ l) := by
        simp [Ne.symm hp]
      rw [List.erase_cons_tail (by simpa using hp), hmem]
      exact runAll_clockLast bay field l hn.2 hr.2 _

/-- The parts that are on one side of the round end are not on the other. -/
theorem MarkPart.sides_complement : ∀ x ∈ MarkPart.sides, ∀ y ∈ MarkPart.sides,
    (MarkPart.remove ∈ y ↔ MarkPart.remove ∉ x) → (MarkPart.stand ∈ y ↔ MarkPart.stand ∉ x) → (x, y) ∈
      [([], [MarkPart.remove, .stand]), ([], [.stand, .remove]), ([.remove], [.stand]), ([.stand], [.remove]),
        ([.remove, .stand], []), ([.stand, .remove], [])] := by decide

/-- A peer's MARK with rounds running. -/
theorem deliverMark_split {bay field : Nat} {p : List Byte} {s : State} (hp : markField p = some field)
    (hr : s.timer.running = true) (hb : s.isMarkPeer bay = true) : ∃ before after c, MarkSplit bay before after ∧
    s.deliverMark bay p =
      (after ((before s.choose.2).clockIf field c).markRound).clockIf field (!c) := by
  have hform : s.deliverMark bay p = runAll ((arrange s.choose.1 [MarkPart.remove, .round, .clock, .stand]).map
      (MarkPart.run bay field)) s.choose.2 := by
    unfold State.deliverMark
    rw [hp]
    simp only []
    rw [if_pos hb, if_pos hr, ← arrange_map]
    rfl
  have hperm := arrange_perm s.choose.1 [MarkPart.remove, .round, .clock, .stand]
  obtain ⟨pre, post, hl⟩ := List.append_of_mem (hperm.mem_iff.2 (by decide : MarkPart.round ∈ _))
  rw [hl] at hperm hform
  have hnd : (pre ++ .round :: post).Nodup := hperm.nodup_iff.2 (by decide)
  obtain ⟨n1, n2, n3⟩ := List.nodup_append.1 hnd
  obtain ⟨n4, n5⟩ := List.nodup_cons.1 n2
  have hrpre : MarkPart.round ∉ pre := fun h => n3 _ h _ List.mem_cons_self rfl
  have hin : ∀ q : MarkPart, q ≠ .round → (q ∈ post ↔ q ∉ pre) := fun q hq => by
    have h1 : q ∈ pre ++ MarkPart.round :: post := hperm.mem_iff.2 (by cases q <;> decide)
    rw [List.mem_append, List.mem_cons] at h1
    exact ⟨fun h h' => n3 q h' q (List.mem_cons_of_mem _ h) rfl, fun h => (h1.resolve_left h).resolve_left hq⟩
  have hsides : ∀ l : List MarkPart, l.Nodup → .round ∉ l → l.erase .clock ∈ MarkPart.sides := fun l h1 h2 =>
    MarkPart.mem_sides (h1.erase _) (fun h => h2 (List.mem_of_mem_erase h)) (fun h => (h1.mem_erase_iff.1 h).1 rfl)
  have hkeep : ∀ (l : List MarkPart) q, q ≠ .clock → (q ∈ l.erase .clock ↔ q ∈ l) := fun l q hq =>
    List.mem_erase_of_ne hq
  have hrun : runAll ((pre ++ .round :: post).map (MarkPart.run bay field)) s.choose.2 =
      runAll (post.map (MarkPart.run bay field)) (runAll (pre.map (MarkPart.run bay field)) s.choose.2).markRound := by
    simp [runAll, MarkPart.run]
  rw [hrun, runAll_clockLast bay field pre n1 hrpre, runAll_clockLast bay field post n5 n4,
    show decide (MarkPart.clock ∈ post) = !decide (MarkPart.clock ∈ pre) from by
      rw [← decide_not, decide_eq_decide]; exact hin _ (by decide)] at hform
  have hrem : MarkPart.remove ∈ post.erase .clock ↔ MarkPart.remove ∉ pre.erase .clock := by
    rw [hkeep _ _ (by decide), hkeep _ _ (by decide)]; exact hin _ (by decide)
  have hstd : MarkPart.stand ∈ post.erase .clock ↔ MarkPart.stand ∉ pre.erase .clock := by
    rw [hkeep _ _ (by decide), hkeep _ _ (by decide)]; exact hin _ (by decide)
  have hpre := hsides pre n1 hrpre
  have hpost := hsides post n5 n4
  have hsix := MarkPart.sides_complement _ hpre _ hpost hrem hstd
  simp only [List.mem_cons, List.not_mem_nil, or_false, Prod.mk.injEq] at hsix
  rcases hsix with ⟨e1, e2⟩ | ⟨e1, e2⟩ | ⟨e1, e2⟩ | ⟨e1, e2⟩ | ⟨e1, e2⟩ | ⟨e1, e2⟩ <;> rw [e1, e2] at hform
  · exact ⟨_, _, _, .lateRemoveFirst, hform⟩
  · exact ⟨_, _, _, .lateStandFirst, hform⟩
  · exact ⟨_, _, _, .removeFirst, hform⟩
  · exact ⟨_, _, _, .standFirst, hform⟩
  · exact ⟨_, _, _, .earlyRemoveFirst, hform⟩
  · exact ⟨_, _, _, .earlyStandFirst, hform⟩

end Sys2Proof.Machine
end

section
/-! The claims and the line engine through a peer's MARK (R8, R13, R34, R59, R155, R156, R158, R159, R163). -/

namespace Sys2Proof.Machine

/-! ### The standing unit's part -/

/-- A passage forms one claim, of the state it leaves but for the claim itself; without one none is formed. -/
theorem State.standingTakes_forms (s : State) (b : Nat) : ∃ o, s.Forms (s.standingTakes b) o ∧
    (o ≠ none ↔ (s.standingTakes b).stand.standing ≠ s.stand.standing) ∧
    ∀ v, o = some v → v.stand = (s.standingTakes b).stand ∧ v.session = s.session ∧ v.thermal = s.thermal ∧
      v.meter = s.meter ∧ v.settings = s.settings ∧ v.share = s.share := by
  rcases s.standingTakes_cases b with ⟨hs, e⟩ | ⟨u, hu, e⟩
  · refine ⟨none, .still (by rw [e]) (by rw [e]), ⟨fun h => absurd rfl h, fun h => absurd hs h⟩, fun v h => ?_⟩
    exact (Option.some_ne_none v h.symm).elim
  · have hst : (s.standingTakes b).stand = u.stand := by rw [e]; simp
    have hforms := u.formClaim_forms
    rw [if_pos (show u.onLine = true from hu.hears)] at hforms
    have hw := hu.whole
    refine ⟨some u, ?_, ⟨fun _ => by rw [hst]; exact hu.ne, fun _ => Option.some_ne_none u⟩, fun v h => ?_⟩
    · cases hforms with
      | claim v hq hs hl =>
        refine .claim _ ?_ ?_ ?_
        · rw [hq, hw]
        · rw [e, State.evalPermission_share, hs, hw]
        · rw [e, State.evalPermission_line]
          have : s.line = u.line := by rw [hw]
          rw [this]; exact hl
    · obtain rfl := Option.some.inj h
      rw [hst]
      exact ⟨rfl, by rw [hw], by rw [hw], by rw [hw], by rw [hw], by rw [hw]⟩

theorem State.Sends.sequence_unmoved_iff {s t : State} {g : SendProgress} (h : s.Sends t g) (hn : g.claims < 256) :
    t.share.sequence = s.share.sequence ↔ g.claims = 0 := by
  constructor
  · intro he
    by_contra hc
    have := h.counted (by omega)
    omega
  · exact fun hz => (h.kept hz).2

/-! ### How far a MARK has come -/

/-- From `x` to `t` a waiting own MARK removed if `removed`, the round ended if `ends`, and at most `n` claims formed. -/
structure State.MarkSends (x t : State) (removed ends : Bool) (n : Nat) (g : SendProgress) : Prop where
  sends : x.Sends t g
  settings : t.settings = x.settings
  natural : g.natural = false
  marked : g.marked = false
  spared : g.spared = false
  removed : g.removed = removed
  discarded : g.discarded = ends
  undrawn : ends = false → g.drawn = none
  drawn : ends = true → ∃ j, g.drawn = some j ∧ t.share.postOwed = false ∧
    t.share.postSlice = some (1 + prngValue (x.cfg.roundDiv - 3) (prngAfter j x.line.prng))
  few : g.claims ≤ n

theorem State.MarkSends.start (x : State) : x.MarkSends x false false 0 { natural := false } where
  sends := .refl x false
  settings := rfl
  natural := rfl
  marked := rfl
  spared := rfl
  removed := rfl
  discarded := rfl
  undrawn _ := rfl
  drawn := nofun
  few := Nat.le_refl 0

section
variable {x t w : State} {removed ends : Bool} {n : Nat} {g : SendProgress} (h : x.MarkSends t removed ends n g)
include h

/-- A step that leaves share, line engine and settings. -/
theorem State.MarkSends.of_same (hs : w.share = t.share) (hl : w.line = t.line) (hc : w.settings = t.settings) :
    x.MarkSends w removed ends n g :=
  { h with
    sends := h.sends.of_same hs hl
    settings := hc.trans h.settings
    drawn := fun he => by rw [hs]; exact h.drawn he }

theorem State.MarkSends.clock (field : Nat) (b : Bool) : x.MarkSends (t.clockIf field b) removed ends n g := by
  cases b with
  | false => exact h
  | true =>
    obtain ⟨c, y, e⟩ := t.markClock_varied field
    exact h.of_same (by show (t.markClock field).share = _; rw [e]; rfl) (by show (t.markClock field).line = _; rw [e]; rfl)
      (by show (t.markClock field).settings = _; rw [e]; rfl)

/-- The own MARK removed. -/
theorem State.MarkSends.remove : x.MarkSends t.removeWaitingMark true ends n { g with removed := true } :=
  { h with
    sends := h.sends.step (h.sends.line.remove t.removeWaitingMark_removes h.natural) rfl (by simp) (by simp)
    settings := (by simp : t.removeWaitingMark.settings = t.settings).trans h.settings
    removed := rfl
    drawn := fun he => by rw [State.removeWaitingMark_share]; exact h.drawn he }

/-- A step that forms at most one claim. -/
theorem State.MarkSends.forms {o : Option State} (hf : t.Forms w o) (hset : w.settings = t.settings) :
    x.MarkSends w removed ends (n + 1) (g.after o t.line.sender.isIdle) := by
  have hshare := hf.share_rest
  have hpost : ∀ {p}, t.share.postOwed = false ∧ t.share.postSlice = p → w.share.postOwed = false ∧ w.share.postSlice = p :=
    fun hp => by rw [hshare]; exact hp
  cases o with
  | none =>
    exact { h with
      sends := h.sends.forms hf
      settings := hset.trans h.settings
      drawn := fun he => by
        obtain ⟨j, h1, h2⟩ := h.drawn he
        exact ⟨j, h1, hpost h2⟩
      few := Nat.le_succ_of_le h.few }
  | some v =>
    exact { h with
      sends := h.sends.forms hf
      settings := hset.trans h.settings
      drawn := fun he => by
        obtain ⟨j, h1, h2⟩ := h.drawn he
        exact ⟨j, h1, hpost h2⟩
      few := by
        show (g.claim _).claims ≤ _
        rw [g.claim_claims]
        exact Nat.succ_le_succ h.few }

/-- The standing unit's part. -/
theorem State.MarkSends.stand (b : Nat) : ∃ g', x.MarkSends (t.standingTakes b) removed ends (n + 1) g' := by
  obtain ⟨o, ho, -⟩ := t.standingTakes_forms b
  exact ⟨_, h.forms ho (by simp)⟩

end

/-- An early round end. -/
theorem State.MarkSends.roundEnd {x t : State} {removed : Bool} {n : Nat} {g : SendProgress}
    (h : x.MarkSends t removed false n g) : ∃ g', x.MarkSends (t.roundEnd false) removed true (n + 4) g' := by
  obtain ⟨w, u, v, a, b, c, hw, -, hpre, hv, hpost⟩ := State.roundEnd_parts false t
  obtain ⟨o, hforms, -⟩ := hpre.holdsRun.claims
  obtain ⟨o', hforms', -⟩ := hpost.holdsRun.claims
  have hstart : x.MarkSends w.handDriven removed false n g := h.of_same (by rw [hw]; rfl) (by rw [hw]; rfl) (by rw [hw]; rfl)
  have hu := hstart.forms hforms (by rw [hpre.holdsRun.whole])
  have hrun := State.roundEndWork_run hu.sends c hu.discarded (hu.undrawn rfl) (n := false) nofun
  obtain ⟨g2, j, p, q, hs, hg, hps, -⟩ := hrun.sends
  have hset : v.settings = u.settings := by
    obtain ⟨m, l, hcore⟩ := hrun.core
    rw [hv, hrun.whole, hcore.whole]
  rw [← hv] at hs hps
  have hvs : x.MarkSends v removed true (n + 3) g2 := {
    sends := hs
    settings := hset.trans hu.settings
    natural := by rw [hg]; exact hu.natural
    marked := by rw [hg]; exact (Bool.or_false _).trans hu.marked
    spared := by rw [hg]; exact hu.spared
    removed := by rw [hg]; exact hu.removed
    discarded := by rw [hg]
    undrawn := nofun
    drawn := fun _ => ⟨j, by rw [hg], by rw [hv]; exact hrun.postOwed, by
      rw [hps, show u.cfg = x.cfg by unfold State.cfg; rw [hu.settings]]⟩
    few := by
      have he : g2.early ≤ n + 1 := by rw [hg]; exact (Nat.le_add_right _ _).trans hu.few
      have hl : g2.late = p.toNat + q.toNat := by rw [hg]
      have hp : p.toNat ≤ 1 := by cases p <;> decide
      have hq : q.toNat ≤ 1 := by cases q <;> decide
      unfold SendProgress.claims
      omega }
  exact ⟨_, hvs.forms hforms' (by rw [hpost.holdsRun.whole])⟩

/-! ### The round's part -/

/-- A peer's MARK ends the round here: as the alignment of LISTENING, or from slice 2 on (R11, R13). -/
def State.EndsRound (y : State) : Prop := (y.stand.standing = .listening ∧ y.timer.aligned = false) ∨ 2 ≤ y.timer.sliceIndex

/-- The aligned indicator, set by an alignment. -/
def State.alignedFor (y : State) : State :=
  { y with timer := { y.timer with aligned := y.timer.aligned || y.stand.standing == .listening } }

theorem State.markRound_cases (y : State) :
    (y.EndsRound ∧ y.markRound = y.alignedFor.roundEnd false) ∨ (¬ y.EndsRound ∧ y.markRound = y) := by
  have hal : ∀ b, b = (y.timer.aligned || y.stand.standing == .listening) →
      y.alignedFor = { y with timer := { y.timer with aligned := b } } := by rintro _ rfl; rfl
  unfold State.markRound State.EndsRound
  by_cases h1 : y.stand.standing = .listening ∧ y.timer.aligned = false
  · rw [if_pos h1, hal true (by rw [h1.1, h1.2]; rfl)]
    exact .inl ⟨.inl h1, rfl⟩
  · rw [if_neg h1]
    by_cases h2 : 2 ≤ y.timer.sliceIndex
    · rw [if_pos h2, hal y.timer.aligned (by
        cases ha : y.timer.aligned with
        | true => rfl
        | false => rw [Bool.false_or, beq_false_of_ne fun hs => h1 ⟨hs, ha⟩])]
      exact .inl ⟨.inr h2, rfl⟩
    · rw [if_neg h2]
      exact .inr ⟨fun h => h.elim h1 h2, rfl⟩

/-- The whole delivery, whatever the order. -/
theorem MarkSplit.sends {bay field : Nat} {before after : State → State} (h : MarkSplit bay before after) (x : State)
    (c : Bool) : ∃ g ends, x.MarkSends ((after (((before x).clockIf field c).markRound)).clockIf field (!c)) true ends 6 g ∧
      (ends = true ↔ ((before x).clockIf field c).EndsRound) := by
  have hround : ∀ {y : State} {removed n g}, x.MarkSends y removed false n g → ∃ g' ends,
      x.MarkSends (y.clockIf field c).markRound removed ends (n + 4) g' ∧
      (ends = true ↔ (y.clockIf field c).EndsRound) := fun {y removed n g} hy => by
    have hy := hy.clock field c
    rcases (y.clockIf field c).markRound_cases with ⟨he, e⟩ | ⟨he, e⟩
    · rw [e]
      obtain ⟨g', hg'⟩ := (hy.of_same (w := (y.clockIf field c).alignedFor) rfl rfl rfl).roundEnd
      exact ⟨g', true, hg', by simp [he]⟩
    · rw [e]
      exact ⟨g, false, { hy with few := hy.few.trans (Nat.le_add_right _ _) }, by simp [he]⟩
  have hstart := State.MarkSends.start x
  have hle : ∀ {t removed ends n g}, x.MarkSends t removed ends n g → n ≤ 6 → x.MarkSends t removed ends 6 g :=
    fun ht hn => { ht with few := ht.few.trans hn }
  cases h with
  | lateRemoveFirst =>
    obtain ⟨g, ends, hz, hiff⟩ := hround hstart
    obtain ⟨g', ht⟩ := hz.remove.stand bay
    exact ⟨_, ends, hle (ht.clock field _) (by decide), hiff⟩
  | lateStandFirst =>
    obtain ⟨g, ends, hz, hiff⟩ := hround hstart
    obtain ⟨g', ht⟩ := hz.stand bay
    exact ⟨_, ends, hle (ht.remove.clock field _) (by decide), hiff⟩
  | removeFirst =>
    obtain ⟨g, ends, hz, hiff⟩ := hround hstart.remove
    obtain ⟨g', ht⟩ := hz.stand bay
    exact ⟨_, ends, hle (ht.clock field _) (by decide), hiff⟩
  | standFirst =>
    obtain ⟨g', ht⟩ := hstart.stand bay
    obtain ⟨g, ends, hz, hiff⟩ := hround ht
    exact ⟨_, ends, hle (hz.remove.clock field _) (by decide), hiff⟩
  | earlyRemoveFirst =>
    obtain ⟨g', ht⟩ := hstart.remove.stand bay
    obtain ⟨g, ends, hz, hiff⟩ := hround ht
    exact ⟨_, ends, hle (hz.clock field _) (by decide), hiff⟩
  | earlyStandFirst =>
    obtain ⟨g', ht⟩ := hstart.stand bay
    obtain ⟨g, ends, hz, hiff⟩ := hround ht.remove
    exact ⟨_, ends, hle (hz.clock field _) (by decide), hiff⟩

end Sys2Proof.Machine
end

section
/-! A peer's MARK: the state its parts begin in, what the parts beside the round's leave, and the clock (R8, R10, R13, R15,
R16, R22, R34). -/

namespace Sys2Proof.Machine

/-! ### Where the parts begin -/

/-- The state in which the parts of a MARK's delivery are done. -/
def State.markStart (s : State) (temps : Temps) (bay : Nat) : State := ((s.setTemps temps).takeFrame .mark bay).choose.2

/-- The state with the free choices of another. -/
def State.choosing (s t : State) : State := { s with choices := t.choices, freeCount := t.freeCount }

theorem State.markStart_eq (s : State) (temps : Temps) (bay : Nat) : s.markStart temps bay =
    (s.choosing (s.markStart temps bay)).varied { s.variation with
      temps := temps, line := ((s.choosing (s.markStart temps bay)).takeFrame .mark bay).line } := by
  have h := choose_eq ((s.setTemps temps).takeFrame .mark bay)
  unfold State.markStart
  rw [h]
  rfl

/-- Its line engine. -/
theorem State.markStart_line (s : State) (temps : Temps) (bay : Nat) :
    (s.markStart temps bay).line.outbox = s.line.outbox ∧ (s.markStart temps bay).line.prng = s.line.prng ∧
    (s.markStart temps bay).line.sender = s.line.sender.rewait ∧
    (s.markStart temps bay).line.counters.claimsUnposted = s.line.counters.claimsUnposted ∧
    (s.markStart temps bay).line.counters.lineErrors = s.line.counters.lineErrors := by
  unfold State.markStart
  rw [State.choose_line]
  refine ⟨rfl, rfl, rfl, ?_, ?_⟩ <;> rw [State.takeFrame_counters] <;> rfl

/-- A peer's MARK with rounds running, on the line. -/
theorem effect_markFrame {s : State} {bay c2 c1 c0 : Byte} (temps : Temps) (hr : s.timer.running = true)
    (ho : s.onLine = true) (h1 : 1 ≤ bay.toNat) (hn : bay.toNat ≤ s.cfg.n) : ∃ before after c,
    MarkSplit bay.toNat before after ∧ effect (.markFrame bay [c2, c1, c0] temps) s =
      (after (((before (s.markStart temps bay.toNat)).clockIf (c2.toNat * 65536 + c1.toNat * 256 + c0.toNat) c).markRound)).clockIf
        (c2.toNat * 65536 + c1.toNat * 256 + c0.toNat) (!c) := by
  have hpeer : ((s.setTemps temps).takeFrame .mark bay.toNat).isMarkPeer bay.toNat = true := by
    unfold State.isMarkPeer
    rw [if_pos (by exact ho)]
    exact decide_eq_true ⟨h1, hn⟩
  have hfield : markField [c2, c1, c0] = some (c2.toNat * 65536 + c1.toNat * 256 + c0.toNat) :=
    congrArg some (numBE_three c2 c1 c0)
  exact deliverMark_split (s := (s.setTemps temps).takeFrame .mark bay.toNat) hfield hr hpeer

/-! ### The parts beside the round's -/

/-- What the outbox's part and the standing unit's leave of `x`. -/
structure State.Around (x y : State) : Prop where
  whole : y = { x with
    stand := y.stand, timer := { x.timer with aligned := y.timer.aligned }, stage := y.stage, line := y.line
    share := { x.share with ownClaim := y.share.ownClaim, sequence := y.share.sequence }
    out := { x.out with stage := y.out.stage } }
  steady : x.stand.standing ≠ .cutoff → y.timer.aligned = x.timer.aligned ∧ y.stand.standing ≠ .cutoff ∧
    (y.stand.standing = .listening ↔ x.stand.standing = .listening)

theorem State.Around.refl (x : State) : x.Around x := ⟨rfl, fun h => ⟨rfl, h, Iff.rfl⟩⟩

theorem State.Around.trans {x y z : State} (h1 : x.Around y) (h2 : y.Around z) : x.Around z where
  whole := by
    have e := h2.whole
    rw [h1.whole] at e
    exact e
  steady h := by
    obtain ⟨a1, a2, a3⟩ := h1.steady h
    obtain ⟨b1, b2, b3⟩ := h2.steady a2
    exact ⟨b1.trans a1, b2, b3.trans a3⟩

theorem State.removeWaitingMark_around (x : State) : x.Around x.removeWaitingMark := by
  obtain ⟨l, e⟩ := x.removeWaitingMark_frame
  rw [e]
  exact ⟨rfl, fun h => ⟨rfl, h, Iff.rfl⟩⟩

theorem State.standingTakes_around (x : State) (b : Nat) : x.Around (x.standingTakes b) where
  whole := by
    obtain ⟨o, hf, -⟩ := x.standingTakes_forms b
    obtain ⟨al, sd, sh, li, g, ou, e⟩ := x.standingTakes_whole b
    have hshare := hf.share_rest
    have hlink := x.standingTakes_link b
    have hline : (x.standingTakes b).out.line = x.out.line := by
      rcases x.standingTakes_cases b with ⟨-, e⟩ | ⟨u, hu, e⟩
      · rw [e]
      · rw [e, State.evalPermission_line_out, State.formClaim_out, hu.whole]
    have hout : ∀ o p : Outputs, o.link = p.link → o.line = p.line → o = { p with stage := o.stage } := by
      rintro ⟨_, _, _⟩ ⟨_, _, _⟩ rfl rfl; rfl
    rw [← hshare, ← hout _ _ hlink hline, e]
  steady h := by
    rcases x.standingTakes_cases b with ⟨hs, e⟩ | ⟨u, hu, e⟩
    · exact ⟨by rw [e], by rw [hs]; exact h, by rw [hs]⟩
    · rcases hu.moved with ⟨h1, h2, h3⟩ | ⟨h1, -⟩
      · have hst : (x.standingTakes b).stand.standing = .rejoining := by rw [e]; simpa using h2
        refine ⟨by rw [e]; simpa using h3, by rw [hst]; decide, by rw [hst, h1]; decide⟩
      · exact absurd h1 h

section
variable {bay : Nat} {before after : State → State} (h : MarkSplit bay before after)
include h

theorem MarkSplit.before_around (x : State) : x.Around (before x) := by
  cases h with
  | lateRemoveFirst => exact .refl x
  | lateStandFirst => exact .refl x
  | removeFirst => exact x.removeWaitingMark_around
  | standFirst => exact x.standingTakes_around bay
  | earlyRemoveFirst => exact x.removeWaitingMark_around.trans (State.standingTakes_around _ bay)
  | earlyStandFirst => exact (x.standingTakes_around bay).trans (State.removeWaitingMark_around _)

theorem MarkSplit.after_around (x : State) : x.Around (after x) := by
  cases h with
  | lateRemoveFirst => exact x.removeWaitingMark_around.trans (State.standingTakes_around _ bay)
  | lateStandFirst => exact (x.standingTakes_around bay).trans (State.removeWaitingMark_around _)
  | removeFirst => exact x.standingTakes_around bay
  | standFirst => exact x.removeWaitingMark_around
  | earlyRemoveFirst => exact .refl x
  | earlyStandFirst => exact .refl x

/-- Without a round end between them they are the outbox's part and the standing unit's, in either order. -/
theorem MarkSplit.both (x : State) : after (before x) = x.removeWaitingMark.standingTakes bay ∨
    after (before x) = (x.standingTakes bay).removeWaitingMark := by
  cases h with
  | lateRemoveFirst => exact .inl rfl
  | lateStandFirst => exact .inr rfl
  | removeFirst => exact .inl rfl
  | standFirst => exact .inr rfl
  | earlyRemoveFirst => exact .inl rfl
  | earlyStandFirst => exact .inr rfl

theorem MarkSplit.after_clock (field : Nat) (x : State) : after (x.markClock field) = (after x).markClock field := by
  cases h with
  | lateRemoveFirst => show State.standingTakes _ _ = _; rw [State.removeWaitingMark_markClock, State.standingTakes_markClock]
  | lateStandFirst => show State.removeWaitingMark _ = _; rw [State.standingTakes_markClock, State.removeWaitingMark_markClock]
  | removeFirst => exact State.standingTakes_markClock bay field x
  | standFirst => exact State.removeWaitingMark_markClock field x
  | earlyRemoveFirst => rfl
  | earlyStandFirst => rfl

end

/-! ### The clock -/

/-- Clock and sub-second count. -/
def State.time (s : State) : Option Nat × Nat := (s.timer.clock, s.timer.subSecond)

/-- What a MARK's field makes of them. -/
def markedTime (field : Nat) (x : Option Nat × Nat) : Option Nat × Nat :=
  if x.1 = none ∧ field < 86400 then (some field, 0) else x

theorem State.markClock_time (field : Nat) (s : State) : (s.markClock field).time = markedTime field s.time := by
  rw [State.markClock_spec]
  unfold markedTime State.time
  simp only []
  split <;> rfl

theorem State.Around.time {x y : State} (h : x.Around y) : y.time = x.time := by
  unfold State.time
  rw [h.whole]

theorem State.markRound_time (y : State) : y.markRound.time = y.time := by
  rcases y.markRound_cases with ⟨-, e⟩ | ⟨-, e⟩
  · rw [e]
    obtain ⟨p, u, v, a, b, early, g0, c, h, -⟩ := y.alignedFor.roundEnd_run false
    unfold State.time
    rw [h.t_timer]; rfl
  · rw [e]

/-- The clock rule is applied once. -/
theorem MarkSplit.time {bay field : Nat} {before after : State → State} (h : MarkSplit bay before after) (x : State)
    (c : Bool) : ((after (((before x).clockIf field c).markRound)).clockIf field (!c)).time = markedTime field x.time := by
  cases c with
  | true =>
    show (after ((before x).markClock field).markRound).time = _
    rw [(h.after_around _).time, State.markRound_time, State.markClock_time, (h.before_around x).time]
  | false =>
    show ((after (before x).markRound).markClock field).time = _
    rw [State.markClock_time, (h.after_around _).time, State.markRound_time, (h.before_around x).time]

end Sys2Proof.Machine
end

section
/-! What a peer's MARK does (R8, R10 to R13, R16, R22, R27, R29, R32, R34, R59, R155, R156, R159). -/

namespace Sys2Proof.Machine

/-! ### Generator and sender without a round end -/

section
variable {l m : LineEngine} {g : SendProgress} (h : l.Tracks m g)
include h

theorem LineEngine.Tracks.unclaimed (hc : g.claims = 0) (hm : g.marked = false) (hw : g.drawn = none) :
    m.prng = l.prng ∧ (l.sender = .idle → m.sender = .idle) := by
  have hb := h.quiet hc hm
  have hprng := h.prng
  rw [show g.advances = 0 by unfold SendProgress.advances; rw [hb, hw]; rfl] at hprng
  exact ⟨hprng, fun hi => (h.idle hi hb).1⟩

theorem LineEngine.Tracks.idleClaims (hi : l.sender = .idle) (hc : 0 < g.claims) (hd : g.discarded = false)
    (hw : g.drawn = none) : m.prng = prngNext l.prng ∧ m.sender = .waiting (prngValue 16 (prngNext l.prng)) 0 := by
  have hadv : g.advances = g.backoffs := by unfold SendProgress.advances; rw [hw]; rfl
  have hfew := h.few
  rw [hd] at hfew
  have hone : g.backoffs = 1 := Nat.le_antisymm hfew (Nat.pos_of_ne_zero fun hz => by
    have := (h.idle hi hz).2.1
    omega)
  have hprng := h.prng
  rw [hadv, hone] at hprng
  obtain ⟨⟨i, i1, i2, -, i4⟩, -⟩ := h.busy (by rw [hone, hd]; rfl)
  obtain rfl : i = 1 := by omega
  exact ⟨hprng, i4⟩

end

/-! ### Where the round ends -/

theorem State.endsRound_clockIf (y : State) (field : Nat) (b : Bool) : (y.clockIf field b).EndsRound ↔ y.EndsRound := by
  cases b with
  | false => exact Iff.rfl
  | true =>
    obtain ⟨c, x, e⟩ := y.markClock_varied field
    show (y.markClock field).EndsRound ↔ _
    rw [e]; exact Iff.rfl

theorem State.Around.sliceIndex {x y : State} (h : x.Around y) : y.timer.sliceIndex = x.timer.sliceIndex := by rw [h.whole]

theorem State.Around.endsRound {x y : State} (h : x.Around y) (hc : x.stand.standing ≠ .cutoff) :
    y.EndsRound ↔ x.EndsRound := by
  obtain ⟨h1, -, h3⟩ := h.steady hc
  unfold State.EndsRound
  rw [h1, h3, h.sliceIndex]

/-! ### A late MARK -/

/-- The outbox's part and the standing unit's, in either order. -/
def State.LateMark (bay : Nat) (x w : State) : Prop :=
  w = x.removeWaitingMark.standingTakes bay ∨ w = (x.standingTakes bay).removeWaitingMark

section
variable {bay : Nat} {x w : State} (h : State.LateMark bay x w)
include h

/-- Standing unit, share, stage control and outputs are those that the standing unit's part leaves. -/
theorem State.LateMark.same : w.stand = (x.standingTakes bay).stand ∧ w.stage = (x.standingTakes bay).stage ∧
    w.out = (x.standingTakes bay).out ∧ w.timer = (x.standingTakes bay).timer := by
  rcases h with rfl | rfl
  · obtain ⟨l, e⟩ := x.removeWaitingMark_frame
    have halike : State.Alike False (fun _ _ => True) x x.removeWaitingMark :=
      ⟨{ x.variation with line := l }, by rw [e]; rfl, nofun, trivial⟩
    obtain ⟨v, hv, -⟩ := halike.standingTakes keepsClaims_true bay
    obtain ⟨a1, e1⟩ := x.standingTakes_timer bay
    obtain ⟨a2, e2⟩ := x.removeWaitingMark.standingTakes_timer bay
    have hal : (x.removeWaitingMark.standingTakes bay).timer.aligned = (x.standingTakes bay).timer.aligned := by rw [hv]; rfl
    rw [e1, e2, State.removeWaitingMark_timer] at hal
    exact ⟨by rw [hv]; rfl, by rw [hv]; rfl, by rw [hv]; rfl, by
      rw [e1, e2, State.removeWaitingMark_timer]; exact congrArg (fun a => { x.timer with aligned := a }) hal⟩
  · exact ⟨by simp, by simp, by simp, by simp⟩

/-- A change of standing forms one claim; without one share, stage control and outputs stand. -/
theorem State.LateMark.claim : (w.stand.standing ≠ x.stand.standing → w.share.sequence = (x.share.sequence + 1) % 256 ∧
      ∃ v, w.Claimed v ∧ v.stand = w.stand ∧ v.session = x.session ∧ v.thermal = x.thermal ∧ v.meter = x.meter ∧
        v.settings = x.settings ∧ v.share = x.share) ∧
    (w.stand.standing = x.stand.standing → w.share = x.share ∧ w.stage = x.stage ∧ w.out = x.out) := by
  have key : ∀ u : State, u.session = x.session → u.thermal = x.thermal → u.meter = x.meter → u.settings = x.settings →
      u.share = x.share → u.stand = x.stand → u.stage = x.stage → u.out = x.out →
      ∃ o, u.Forms (u.standingTakes bay) o ∧
        ((u.standingTakes bay).stand.standing ≠ x.stand.standing → ∃ v, o = some v ∧
          v.stand = (u.standingTakes bay).stand ∧ v.session = x.session ∧ v.thermal = x.thermal ∧ v.meter = x.meter ∧
          v.settings = x.settings ∧ v.share = x.share) ∧
        ((u.standingTakes bay).stand.standing = x.stand.standing → (u.standingTakes bay).share = x.share ∧
          (u.standingTakes bay).stage = x.stage ∧ (u.standingTakes bay).out = x.out) := by
    intro u h1 h2 h3 h4 h5 h6 h7 h8
    obtain ⟨o, ho, hiff, hv⟩ := u.standingTakes_forms bay
    rw [h6] at hiff
    refine ⟨o, ho, fun hne => ?_, fun hs => ?_⟩
    · cases o with
      | none => exact absurd rfl (hiff.2 hne)
      | some v =>
        obtain ⟨v1, v2, v3, v4, v5, v6⟩ := hv v rfl
        exact ⟨v, rfl, v1, v2.trans h1, v3.trans h2, v4.trans h3, v5.trans h4, v6.trans h5⟩
    · rw [State.standingTakes_unmoved (s := u) (b := bay) (by rw [h6]; exact hs)]
      exact ⟨h5, h7, h8⟩
  have seq : ∀ {u v : State}, u.share = x.share → u.Forms (u.standingTakes bay) (some v) →
      (u.standingTakes bay).share.sequence = (x.share.sequence + 1) % 256 := fun {u v} hs hf => by
    cases hf with
    | claim v hq hsh hl => rw [hsh, ← hs]; exact hq
  rcases h with rfl | rfl
  · obtain ⟨o, ho, hne, hs⟩ := key x.removeWaitingMark (by simp) (by simp) (by simp) (by simp) (by simp) (by simp) (by simp)
      (by simp)
    refine ⟨fun hd => ?_, hs⟩
    obtain ⟨v, rfl, hv⟩ := hne hd
    exact ⟨seq (by simp) ho, v, ho.claimed, hv⟩
  · obtain ⟨o, ho, hne, hs⟩ := key x rfl rfl rfl rfl rfl rfl rfl rfl
    refine ⟨fun hd => ?_, fun hd => ?_⟩
    · obtain ⟨v, rfl, hv⟩ := hne (by simpa using hd)
      rw [State.removeWaitingMark_share, State.removeWaitingMark_stand]
      refine ⟨seq rfl ho, v, ho.claimed.of_same (by simp) (by simp) ?_, hv⟩
      rw [(x.standingTakes bay).removeWaitingMark_removes.outbox]
    · simpa using hs (by simpa using hd)

/-- The wait of a sender that keeps a frame, and of one that loses its last. -/
theorem State.LateMark.wait {b q : Nat} (hw : x.line.sender = .waiting b q) :
    (x.line.outbox.claim ≠ none ∨ x.line.outbox.reply ≠ none → w.line.sender = .waiting b q ∧ w.line.prng = x.line.prng) ∧
    (x.line.outbox.claim = none → x.line.outbox.reply = none → x.line.outbox.mark ≠ none →
      w.stand.standing = x.stand.standing → w.line.sender = .idle ∧ w.line.prng = x.line.prng) := by
  have removed : ∀ y : State, y.line.sender = .waiting b q → y.line.outbox.claim ≠ none ∨ y.line.outbox.reply ≠ none →
      y.removeWaitingMark.line.sender = .waiting b q := fun y hy hc => by
    rcases y.removeWaitingMark_removes.sender with e | ⟨-, -, -, h1, h2⟩
    · rw [e, hy]
    · exact (hc.elim (fun e => e h1) fun e => e h2).elim
  have heard : ∀ y : State, y.line.sender = .waiting b q → (y.standingTakes bay).line.sender = .waiting b q ∧
      (y.standingTakes bay).line.prng = y.line.prng ∧
      (y.line.outbox.claim ≠ none ∨ y.line.outbox.reply ≠ none →
        (y.standingTakes bay).line.outbox.claim ≠ none ∨ (y.standingTakes bay).line.outbox.reply ≠ none) := fun y hy => by
    obtain ⟨o, ho, -⟩ := y.standingTakes_forms bay
    cases ho with
    | still hs hl => rw [hl]; exact ⟨hy, rfl, id⟩
    | claim v hq hs hl =>
      obtain ⟨h1, h2⟩ := hl.waiting b q hy
      refine ⟨h2, h1, fun _ => .inl ?_⟩
      rw [hl.inSlot]
      exact Option.some_ne_none _
  have hsame : ∀ y : State, (y.standingTakes bay).stand.standing = y.stand.standing →
      (y.standingTakes bay).line = y.line := fun y hs => by
    rw [State.standingTakes_unmoved hs]
  rcases h with rfl | rfl
  · refine ⟨fun hc => ?_, fun h1 h2 h3 hs => ?_⟩
    · obtain ⟨e1, e2, -⟩ := heard _ (removed x hw hc)
      exact ⟨e1, e2.trans x.removeWaitingMark_removes.prng⟩
    · rw [hsame x.removeWaitingMark (by simpa using hs)]
      exact ⟨x.removeWaitingMark_removes.empties b q hw h3 h1 h2, x.removeWaitingMark_removes.prng⟩
  · obtain ⟨e1, e2, e3⟩ := heard x hw
    refine ⟨fun hc => ⟨removed _ e1 (e3 hc), (State.removeWaitingMark_removes _).prng.trans e2⟩, fun h1 h2 h3 hs => ?_⟩
    have hl := hsame x (by simpa using hs)
    refine ⟨(State.removeWaitingMark_removes _).empties b q e1 (by rw [hl]; exact h3) (by rw [hl]; exact h1)
      (by rw [hl]; exact h2), (State.removeWaitingMark_removes _).prng.trans e2⟩

end

/-- Without a round end the clock rule is the last of the parts. -/
theorem MarkSplit.late {bay field : Nat} {before after : State → State} (h : MarkSplit bay before after) {x : State}
    {c : Bool} (hn : ¬ ((before x).clockIf field c).EndsRound) : ∃ w, State.LateMark bay x w ∧
    (after (((before x).clockIf field c).markRound)).clockIf field (!c) = w.markClock field := by
  refine ⟨after (before x), h.both x, ?_⟩
  rcases ((before x).clockIf field c).markRound_cases with ⟨he, -⟩ | ⟨-, e⟩
  · exact absurd he hn
  · rw [e]
    cases c with
    | false => rfl
    | true => exact h.after_clock field (before x)

end Sys2Proof.Machine
end

section
/-! What a peer's MARK does, settled. -/

namespace Sys2Proof.Machine

/-! ### The state the parts begin in, beside the state before the event -/

/-- The free choices are not read by the standing unit's part but in its claim. -/
theorem State.standingTakes_choosing (s t : State) (bay : Nat) :
    ((s.choosing t).standingTakes bay).stand = (s.standingTakes bay).stand ∧
    ((s.choosing t).standingTakes bay).timer = (s.standingTakes bay).timer ∧
    ((s.choosing t).standingTakes bay).stage = (s.standingTakes bay).stage ∧
    ((s.choosing t).standingTakes bay).out = (s.standingTakes bay).out :=
  ⟨State.standingTakes_stand_congr (s := s) (t := s.choosing t) rfl rfl bay, State.standingTakes_stage_congr (s := s) (t := s.choosing t) rfl rfl rfl rfl rfl rfl rfl bay⟩

/-- What the standing unit's part makes of the state the parts begin in. -/
theorem State.markStart_standingTakes (s : State) (temps : Temps) (bay : Nat) :
    ((s.markStart temps bay).standingTakes bay).stand = (s.standingTakes bay).stand ∧
    ((s.markStart temps bay).standingTakes bay).timer.aligned = (s.standingTakes bay).timer.aligned ∧
    ((s.markStart temps bay).standingTakes bay).stage = (s.standingTakes bay).stage ∧
    ((s.markStart temps bay).standingTakes bay).out = (s.standingTakes bay).out := by
  have halike : State.Alike False (fun _ _ => True) (s.choosing (s.markStart temps bay)) (s.markStart temps bay) :=
    ⟨_, s.markStart_eq temps bay, nofun, trivial⟩
  obtain ⟨v, hv, -⟩ := halike.standingTakes keepsClaims_true bay
  obtain ⟨h1, h2, h3, h4⟩ := s.standingTakes_choosing (s.markStart temps bay) bay
  have h5 := congrArg Timer.aligned h2
  rw [hv]
  exact ⟨h1, h5, h3, h4⟩

/-- With stage control as DrawKept keeps it, the standing unit's part leaves it. -/
theorem State.DrawSafe.standingTakes_still {s : State} (h : s.DrawSafe) (bay : Nat) :
    (s.standingTakes bay).stage = s.stage ∧ (s.standingTakes bay).out = s.out := by
  rcases s.standingTakes_cases bay with ⟨-, e⟩ | ⟨u, hu, e⟩
  · rw [e]; exact ⟨rfl, rfl⟩
  · rw [e]; exact hu.still h rfl rfl

/-- All that a peer's MARK can change. -/
def State.MarkFrame (s : State) (temps : Temps) (t : State) : Prop := t = { s with
  pins := { s.pins with temps := temps }, timer := t.timer, stand := t.stand, peers := t.peers
  share := t.share, session := t.session, notices := t.notices, stage := t.stage, meter := t.meter
  thermal := t.thermal, line := t.line, out := t.out, choices := t.choices, freeCount := t.freeCount }

theorem State.markStart_frame (s : State) (temps : Temps) (bay : Nat) : s.MarkFrame temps (s.markStart temps bay) := by
  have h := s.markStart_eq temps bay
  unfold State.MarkFrame
  rw [h]; rfl

section
variable {s y z : State} {temps : Temps} (h : s.MarkFrame temps y)
include h

theorem State.MarkFrame.around (ha : y.Around z) : s.MarkFrame temps z := by
  have e := ha.whole
  unfold State.MarkFrame at h ⊢
  rw [h] at e
  rw [e]

theorem State.MarkFrame.clockIf (field : Nat) (c : Bool) : s.MarkFrame temps (y.clockIf field c) := by
  cases c with
  | false => exact h
  | true =>
    obtain ⟨a, b, e⟩ := y.markClock_varied field
    show s.MarkFrame temps (y.markClock field)
    unfold State.MarkFrame at h ⊢
    rw [e]
    rw [h]; rfl

theorem State.MarkFrame.markRound : s.MarkFrame temps y.markRound := by
  rcases y.markRound_cases with ⟨-, e⟩ | ⟨-, e⟩
  · rw [e]
    obtain ⟨p, u, v, a, b, early, g0, c, hr, -⟩ := y.alignedFor.roundEnd_run false
    have e2 := hr.t_eq
    unfold State.MarkFrame at h ⊢
    unfold State.alignedFor at e2 ⊢
    rw [h] at e2 ⊢
    rw [e2]
  · rw [e]; exact h

end

end Sys2Proof.Machine
end

section
/-! A peer's MARK, settled (R8, R10 to R13, R16, R22, R34, R158, R163). -/

namespace Sys2Proof.Machine

theorem endListening_standing (n : Nat) (u : StandingUnit) (hs : u.standing = .listening) :
    (u.endListening n).standing ≠ .cutoff := by
  unfold StandingUnit.endListening
  split
  · rw [hs]; decide
  · simp only []
    split
    · rw [hs]; decide
    · split
      · exact nofun
      · exact nofun

/-- A round end does not take LISTENING to CUTOFF (R25). -/
theorem StandingUnit.roundEnd_of_listening {n : Nat} {u : StandingUnit} (hs : u.standing = .listening) :
    (u.roundEnd n).standing ≠ .cutoff := by
  rw [StandingUnit.roundEnd_eq]
  show (u.endPassage n).standing ≠ _
  unfold StandingUnit.endPassage
  rw [hs]
  exact endListening_standing n u hs

theorem State.markStart_whole (s : State) (temps : Temps) (bay : Nat) : s.markStart temps bay = { s with
    pins := { s.pins with temps := temps }, line := (s.markStart temps bay).line
    choices := (s.markStart temps bay).choices, freeCount := (s.markStart temps bay).freeCount } := by
  have h := s.markStart_eq temps bay
  rw [h]; rfl

theorem State.clockIf_whole (y : State) (field : Nat) (c : Bool) : y.clockIf field c = { y with
    timer := { y.timer with clock := (y.clockIf field c).time.1, subSecond := (y.clockIf field c).time.2 } } := by
  cases c with
  | false => rfl
  | true =>
    obtain ⟨a, b, e⟩ := y.markClock_varied field
    show y.markClock field = { y with
      timer := { y.timer with clock := (y.markClock field).time.1, subSecond := (y.markClock field).time.2 } }
    rw [e]; rfl

/-- The whole event, with rounds running and on the line: `y` before the round's part, `z` after it. -/
structure State.MarkRun (s : State) (temps : Temps) (bay field : Nat) (before after : State → State) (c : Bool)
    (y z t : State) : Prop where
  split : MarkSplit bay before after
  y_eq : y = (before (s.markStart temps bay)).clockIf field c
  z_eq : z = y.markRound
  t_eq : t = (after z).clockIf field (!c)

section
variable {s y z t : State} {temps : Temps} {bay field : Nat} {before after : State → State} {c : Bool}
  (h : s.MarkRun temps bay field before after c y z t)
include h

theorem State.MarkRun.frame : s.MarkFrame temps t := by
  rw [h.t_eq, h.z_eq, h.y_eq]
  exact ((((s.markStart_frame temps bay).around (h.split.before_around _)).clockIf field c).markRound.around
    (h.split.after_around _)).clockIf field _

theorem State.MarkRun.sends : ∃ g ends, (s.markStart temps bay).MarkSends t true ends 6 g ∧ (ends = true ↔ y.EndsRound) := by
  obtain ⟨g, ends, h1, h2⟩ := h.split.sends (field := field) (s.markStart temps bay) c
  rw [← h.y_eq] at h1 h2
  rw [← h.z_eq, ← h.t_eq] at h1
  exact ⟨g, ends, h1, h2⟩

theorem State.MarkRun.time : t.time = markedTime field s.time := by
  have ht := h.split.time (field := field) (s.markStart temps bay) c
  rw [← h.y_eq, ← h.z_eq, ← h.t_eq] at ht
  have hx : (s.markStart temps bay).time = s.time := by rw [s.markStart_whole temps bay]; rfl
  rw [ht, hx]

/-- The parts before the round's leave all but standing, claim, stage control, line engine, clock and free choices. -/
theorem State.MarkRun.y_whole : y = { s with
    pins := { s.pins with temps := temps }, stand := y.stand
    timer := { s.timer with aligned := y.timer.aligned, clock := y.time.1, subSecond := y.time.2 }, stage := y.stage
    line := y.line, share := { s.share with ownClaim := y.share.ownClaim, sequence := y.share.sequence }
    out := { s.out with stage := y.out.stage }, choices := y.choices, freeCount := y.freeCount } := by
  have key : ∀ x w : State,
      x = { s with pins := { s.pins with temps := temps }, line := x.line, choices := x.choices, freeCount := x.freeCount } →
      x.Around w → y = { w with timer := { w.timer with clock := y.time.1, subSecond := y.time.2 } } → y = { s with
        pins := { s.pins with temps := temps }, stand := y.stand
        timer := { s.timer with aligned := y.timer.aligned, clock := y.time.1, subSecond := y.time.2 }, stage := y.stage
        line := y.line, share := { s.share with ownClaim := y.share.ownClaim, sequence := y.share.sequence }
        out := { s.out with stage := y.out.stage }, choices := y.choices, freeCount := y.freeCount } := by
    intro x w hx hw hy
    have hw := hw.whole
    rw [hx] at hw
    rw [hw] at hy
    rw [hy]; rfl
  have hy := (before (s.markStart temps bay)).clockIf_whole field c
  rw [← h.y_eq] at hy
  exact key _ _ (s.markStart_whole temps bay) (h.split.before_around _) hy

/-- The parts after the round's leave all but standing, claim, stage control, line engine and clock. -/
theorem State.MarkRun.t_whole : t = { z with
    stand := t.stand, timer := { z.timer with aligned := t.timer.aligned, clock := t.time.1, subSecond := t.time.2 }
    stage := t.stage, line := t.line, share := { z.share with ownClaim := t.share.ownClaim, sequence := t.share.sequence }
    out := { z.out with stage := t.out.stage } } := by
  have e1 := (after z).clockIf_whole field (!c)
  have e2 := (h.split.after_around z).whole
  rw [← h.t_eq] at e1
  rw [e2] at e1
  rw [e1]; rfl

end

/-- The round end of a MARK that ends the round. -/
theorem State.MarkRun.ended {s y z t : State} {temps : Temps} {bay field : Nat} {before after : State → State} {c : Bool}
    (h : s.MarkRun temps bay field before after c y z t) (he : y.EndsRound) : z = y.alignedFor.roundEnd false ∧
    ∃ p u k v a b early g0, State.RoundRun false y.alignedFor p u k v z a b early g0 := by
  rcases y.markRound_cases with ⟨-, e⟩ | ⟨hn, -⟩
  · obtain ⟨p, u, v, a, b, early, g0, c', hr, -⟩ := y.alignedFor.roundEnd_run false
    rw [← e, ← h.z_eq] at hr
    exact ⟨h.z_eq.trans e, p, u, _, v, a, b, early, g0, hr⟩
  · exact absurd he hn

end Sys2Proof.Machine
end

section
/-! What a peer's MARK does, settled (R8, R10 to R13, R16, R22, R34, R158, R163). -/

namespace Sys2Proof.Machine

section
variable {s y z t : State} {temps : Temps} {bay field : Nat} {before after : State → State} {c : Bool}
  (h : s.MarkRun temps bay field before after c y z t)
include h

/-! ### Where the round ends -/

theorem State.MarkRun.endsRound_iff : y.EndsRound ↔ (before (s.markStart temps bay)).EndsRound := by
  rw [h.y_eq]; exact State.endsRound_clockIf _ field c

theorem State.MarkRun.endsRound_of_slice (hi : 2 ≤ s.timer.sliceIndex) : y.EndsRound := by
  refine .inr ?_
  rw [h.y_whole]; exact hi

theorem State.MarkRun.endsRound_steady (hc : s.stand.standing ≠ .cutoff) :
    y.EndsRound ↔ 2 ≤ s.timer.sliceIndex ∨ (s.stand.standing = .listening ∧ s.timer.aligned = false) := by
  have hx := s.markStart_whole temps bay
  have hst : (s.markStart temps bay).stand = s.stand := by rw [hx]
  have htm : (s.markStart temps bay).timer = s.timer := by rw [hx]
  rw [h.endsRound_iff, (h.split.before_around _).endsRound (by rw [hst]; exact hc), State.EndsRound, hst, htm, or_comm]

/-! ### A round end -/

/-- Slice, round count and meter after a MARK that ends the round (R3, R4, R128). -/
theorem State.MarkRun.ended_counts (he : y.EndsRound) : t.timer.sliceCounter = 0 ∧ t.timer.sliceIndex = 0 ∧
    t.timer.roundCount = (s.timer.roundCount + 1) % 65536 ∧
    t.meter.holdCount = min 65535 (s.meter.roundCount + s.meter.sliceCount) ∧ t.meter.roundCount = 0 := by
  obtain ⟨-, p, u, k, v, a, b, early, g0, hrun⟩ := h.ended he
  have htm : t.timer.sliceCounter = z.timer.sliceCounter ∧ t.timer.sliceIndex = z.timer.sliceIndex ∧
      t.timer.roundCount = z.timer.roundCount ∧ t.meter = z.meter := by
    rw [h.t_whole]; exact ⟨rfl, rfl, rfl, rfl⟩
  obtain ⟨e1, e2, e3, e4⟩ := htm
  have hround : y.alignedFor.timer.roundCount = s.timer.roundCount := by rw [h.y_whole]; rfl
  have hcount : y.alignedFor.countedRound = min 65535 (s.meter.roundCount + s.meter.sliceCount) := by rw [h.y_whole]; rfl
  rw [e1, e2, e3, e4, hrun.t_timer, hrun.t_meter, hround, hcount]
  exact ⟨rfl, rfl, rfl, rfl, rfl⟩

/-- The alignment of LISTENING (R13). -/
theorem State.MarkRun.aligned (hl : s.stand.standing = .listening) (ha : s.timer.aligned = false) :
    t.timer.aligned = true := by
  have hc : s.stand.standing ≠ .cutoff := by rw [hl]; decide
  have he := (h.endsRound_steady hc).2 (.inr ⟨hl, ha⟩)
  obtain ⟨-, p, u, k, v, a, b, early, g0, hrun⟩ := h.ended he
  have hyl : y.stand.standing = .listening := by
    have hx := s.markStart_whole temps bay
    have hst : (s.markStart temps bay).stand = s.stand := by rw [hx]
    have := ((h.split.before_around (s.markStart temps bay)).steady (by rw [hst]; exact hc)).2.2.2 (by rw [hst]; exact hl)
    have hys : y.stand = (before (s.markStart temps bay)).stand := by
      rw [h.y_eq, State.clockIf_whole]
    rw [hys]; exact this
  have hzs : z.stand.standing ≠ .cutoff := by
    obtain ⟨r, hst, -⟩ := hrun.standing
    rw [hst]
    exact StandingUnit.roundEnd_of_listening hyl
  have hza : z.timer.aligned = true := by
    rw [hrun.t_timer]
    show ((y.timer.aligned || y.stand.standing == .listening) || _) = true
    rw [hyl]
    simp
  have hta : t.timer.aligned = (after z).timer.aligned := by rw [h.t_eq, State.clockIf_whole]
  rw [hta, ((h.split.after_around z).steady hzs).1, hza]

/-! ### The line engine -/

/-- The own MARK, the REPLY slot and the line errors (R8, R155). -/
theorem State.MarkRun.outbox : t.line.outbox.reply = s.line.outbox.reply ∧
    t.line.counters.lineErrors = s.line.counters.lineErrors ∧
    (∀ a, s.line.sender = .sending a → a.slot = .mark → a.replaced = false →
      t.line.outbox.mark = s.line.outbox.mark) ∧
    ((∀ a, s.line.sender = .sending a → a.slot = .mark → a.replaced = true) → t.line.outbox.mark = none) := by
  obtain ⟨g, ends, hms, -⟩ := h.sends
  obtain ⟨x1, x2, x3, x4, x5⟩ := s.markStart_line temps bay
  have htr := hms.sends.line
  have hmark := htr.mark
  rw [hms.marked, if_neg Bool.false_ne_true, hms.removed, x3, Bool.true_and] at hmark
  refine ⟨htr.reply.trans (by rw [x1]), ?_, fun a ha hs hr => ?_, fun hno => ?_⟩
  · rw [htr.counters]; exact x5
  · rw [hmark, ha]
    simp [Sender.rewait, Sender.carries, hs, hr, x1]
  · rw [hmark]
    refine if_pos ?_
    cases hx : s.line.sender with
    | idle => rfl
    | waiting b w => rfl
    | sending a =>
      simp only [Sender.rewait, Sender.carries, Bool.not_and, Bool.not_not, Bool.or_eq_true]
      by_cases hs : a.slot = .mark
      · exact .inr (hno a hx hs)
      · left; simpa using hs

/-- A late MARK and the line engine (R34, R155, R156, R159). -/
theorem State.MarkRun.late_line (hn : ¬ y.EndsRound) :
    t.line.counters.claimsUnposted = s.line.counters.claimsUnposted ∧
    (t.share.sequence = s.share.sequence → t.line.outbox.claim = s.line.outbox.claim) ∧
    (∀ a, s.line.sender = .sending a → t.line.prng = s.line.prng ∧ t.line.sender = .sending { a with
      replaced := a.replaced || (decide (a.slot = .claim) && decide (t.share.sequence ≠ s.share.sequence)) }) ∧
    (∀ b w, s.line.sender = .waiting b w → s.line.outbox.claim ≠ none ∨ s.line.outbox.reply ≠ none →
      t.line.sender = .waiting b 0 ∧ t.line.prng = s.line.prng) ∧
    (∀ b w, s.line.sender = .waiting b w → s.line.outbox = ⟨s.line.outbox.mark, none, none⟩ →
      s.line.outbox.mark ≠ none → t.share.sequence = s.share.sequence →
      t.line.sender = .idle ∧ t.line.prng = s.line.prng) ∧
    (s.line.sender = .idle →
      (t.share.sequence = s.share.sequence → t.line.sender = .idle ∧ t.line.prng = s.line.prng) ∧
      (t.share.sequence ≠ s.share.sequence → t.line.prng = prngNext s.line.prng ∧
        t.line.sender = .waiting (prngValue 16 (prngNext s.line.prng)) 0)) := by
  obtain ⟨g, ends, hms, hends⟩ := h.sends
  obtain rfl : ends = false := Bool.eq_false_iff.2 fun hc => hn (hends.1 hc)
  obtain ⟨x1, x2, x3, x4, x5⟩ := s.markStart_line temps bay
  have htr := hms.sends.line
  have hd := hms.discarded
  have hw := hms.undrawn rfl
  have hxs : (s.markStart temps bay).share = s.share := by rw [s.markStart_whole temps bay]
  have hseq := hms.sends.sequence_unmoved_iff (Nat.lt_of_le_of_lt hms.few (by decide))
  rw [hxs] at hseq
  have hposEq : decide (0 < g.claims) = decide (t.share.sequence ≠ s.share.sequence) := by
    rw [decide_eq_decide, ne_eq, hseq]; omega
  obtain ⟨w, hlate, htw⟩ := h.split.late (field := field) (x := s.markStart temps bay) (c := c) (by rw [← h.y_eq]; exact hn)
  rw [← h.y_eq, ← h.z_eq, ← h.t_eq] at htw
  have htl : t.line = w.line := by rw [htw, State.markClock_spec]
  refine ⟨?_, fun hq => ?_, fun a ha => ?_, fun b v hv hc => ?_, fun b v hv ho hm hq => ?_, fun hi => ⟨fun hq => ?_, fun hq => ?_⟩⟩
  · rw [htr.counters, hd, ← x4]
    simp
  · rw [htr.claimKept (hseq.1 hq) hd, x1]
  · have hsend : (s.markStart temps bay).line.sender = .sending a := by rw [x3, ha]; rfl
    obtain ⟨hb, hs⟩ := htr.sending a hsend
    refine ⟨?_, hs.trans ?_⟩
    · have hprng := htr.prng
      rw [show g.advances = 0 by unfold SendProgress.advances; rw [hb, hw]; rfl] at hprng
      exact hprng.trans x2
    · rw [SendProgress.attempt, hd, hms.spared, hms.marked, hposEq]
      simp
  · obtain ⟨h1, -⟩ := hlate.wait (b := b) (q := 0) (by rw [x3, hv]; rfl)
    obtain ⟨e1, e2⟩ := h1 (by rw [x1]; exact hc)
    rw [htl]
    exact ⟨e1, e2.trans x2⟩
  · obtain ⟨-, h2⟩ := hlate.wait (b := b) (q := 0) (by rw [x3, hv]; rfl)
    have hc : s.line.outbox.claim = none := by rw [ho]
    have hrp : s.line.outbox.reply = none := by rw [ho]
    have hsame : w.stand.standing = (s.markStart temps bay).stand.standing := by
      by_contra hne
      have := (hlate.claim.1 hne).1
      have hts : t.share.sequence = w.share.sequence := by rw [htw, State.markClock_spec]
      rw [← hts, hxs, hq] at this
      omega
    obtain ⟨e1, e2⟩ := h2 (by rw [x1]; exact hc) (by rw [x1]; exact hrp) (by rw [x1]; exact hm) hsame
    rw [htl]
    exact ⟨e1, e2.trans x2⟩
  · obtain ⟨e1, e2⟩ := htr.unclaimed (hseq.1 hq) hms.marked hw
    exact ⟨e2 (by rw [x3, hi]; rfl), e1.trans x2⟩
  · have := htr.idleClaims (by rw [x3, hi]; rfl) (Nat.pos_of_ne_zero fun hz => hq (hseq.2 hz)) hd hw
    rw [x2] at this
    exact this

/-- A late MARK and all but the line engine (R13, R22, R34, R113). -/
theorem State.MarkRun.late_state (hr : s.timer.running = true) (hn : ¬ y.EndsRound) :
    t.timer.sliceCounter = s.timer.sliceCounter ∧ t.timer.sliceIndex = s.timer.sliceIndex ∧
    t.timer.roundCount = s.timer.roundCount ∧ t.meter = s.meter ∧ t.thermal = s.thermal ∧
    t.peers = s.peers ∧ t.notices = s.notices ∧ t.session = s.session ∧
    t.share.allotment = s.share.allotment ∧ t.share.postSlice = s.share.postSlice ∧ t.out.link = s.out.link ∧
    t.timer.running = true ∧ (s.stand.standing ≠ .cutoff → t.timer.aligned = s.timer.aligned) ∧
    (∃ q : State, q = s.standingTakes bay ∧
      t.stand = q.stand ∧ t.timer.aligned = q.timer.aligned ∧ t.stage = q.stage ∧ t.out = q.out) ∧
    (s.DrawSafe → t.stage = s.stage ∧ t.out = s.out) ∧ t.share.postOwed = s.share.postOwed ∧
    (t.stand.standing ≠ s.stand.standing → t.share.sequence = (s.share.sequence + 1) % 256 ∧
      ∃ v : State, t.share.ownClaim = some v.claimNow ∧ t.line.outbox.claim = some ⟨v.claimNow.payload, 0⟩ ∧
        v.stand = t.stand ∧ v.session = s.session ∧ v.thermal = s.thermal ∧ v.meter = s.meter ∧
        v.settings = s.settings ∧ v.share = s.share) ∧
    (t.stand.standing = s.stand.standing → t.share = s.share ∧ t.stage = s.stage ∧ t.out = s.out) := by
  obtain ⟨w, hlate, htw⟩ := h.split.late (field := field) (x := s.markStart temps bay) (c := c) (by rw [← h.y_eq]; exact hn)
  rw [← h.y_eq, ← h.z_eq, ← h.t_eq] at htw
  have hz : z = y := by
    rcases y.markRound_cases with ⟨he, -⟩ | ⟨-, e⟩
    · exact absurd he hn
    · exact h.z_eq.trans e
  have ht := h.t_whole
  rw [hz, h.y_whole] at ht
  have hx := s.markStart_whole temps bay
  have hxst : (s.markStart temps bay).stand = s.stand := by rw [hx]
  have hxse : (s.markStart temps bay).session = s.session := by rw [hx]
  have hxth : (s.markStart temps bay).thermal = s.thermal := by rw [hx]
  have hxme : (s.markStart temps bay).meter = s.meter := by rw [hx]
  have hxsg : (s.markStart temps bay).stage = s.stage := by rw [hx]
  have hxou : (s.markStart temps bay).out = s.out := by rw [hx]
  have hxset : (s.markStart temps bay).settings = s.settings := by rw [hx]
  have hxsh : (s.markStart temps bay).share = s.share := by rw [hx]
  have htst : t.stand = w.stand := by rw [htw, State.markClock_spec]
  have htsg : t.stage = w.stage := by rw [htw, State.markClock_spec]
  have htou : t.out = w.out := by rw [htw, State.markClock_spec]
  have htsh : t.share = w.share := by rw [htw, State.markClock_spec]
  have htli : t.line = w.line := by rw [htw, State.markClock_spec]
  have htal : t.timer.aligned = w.timer.aligned := by
    rw [htw, State.markClock_spec]
    show (if w.timer.clock = none ∧ field < 86400 then _ else w.timer).aligned = _
    split <;> rfl
  obtain ⟨w1, w2, w3, w4⟩ := hlate.same
  obtain ⟨q1, q2, q3, q4⟩ := s.markStart_standingTakes temps bay
  have haln := htal.trans ((congrArg Timer.aligned w4).trans q2)
  obtain ⟨hne, hsame⟩ := hlate.claim
  rw [hxst, hxsh, hxse, hxth, hxme, hxset] at hne
  rw [hxst, hxsh, hxsg, hxou] at hsame
  refine ⟨by rw [ht], by rw [ht], by rw [ht], by rw [ht], by rw [ht], by rw [ht], by rw [ht], by rw [ht], by rw [ht],
    by rw [ht], by rw [ht], by rw [ht]; exact hr, fun hc => ?_,
    ⟨_, rfl, htst.trans (w1.trans q1), haln, htsg.trans (w2.trans q3), htou.trans (w3.trans q4)⟩, fun hs => ?_, by rw [ht],
    fun hd => ?_, fun hd => ?_⟩
  · rw [haln]; exact ((s.standingTakes_around bay).steady hc).1
  · obtain ⟨e1, e2⟩ := hs.standingTakes_still bay
    exact ⟨htsg.trans (w2.trans (q3.trans e1)), htou.trans (w3.trans (q4.trans e2))⟩
  · rw [htst] at hd
    obtain ⟨e1, v, hv, v1, v2⟩ := hne hd
    rw [htsh, htli, htst]
    exact ⟨e1, v, hv.own, hv.slot, v1, v2⟩
  · rw [htst] at hd
    rw [htsh, htsg, htou]
    exact hsame hd

end

/-- Settles O23: the parts come before the round's or after it; a late MARK is the outbox's part and the standing unit's
alone, and one that ends the round is the round end between them. -/
theorem peerMark : Obligations.PeerMark := by
  intro s bay c2 c1 c0 temps field hr ho h1 hn hf
  subst hf
  obtain ⟨before, after, c, hsp, he⟩ := effect_markFrame (c2 := c2) (c1 := c1) (c0 := c0) temps hr ho h1 hn
  have h : s.MarkRun temps bay.toNat (c2.toNat * 65536 + c1.toNat * 256 + c0.toNat) before after c _ _
    (effect (.markFrame bay [c2, c1, c0] temps) s) := ⟨hsp, rfl, rfl, he⟩
  obtain ⟨g, ends, -, hends⟩ := h.sends
  obtain ⟨o1, o2, o3, o4⟩ := h.outbox
  have htime := h.time
  refine ⟨_, ends, by rw [exec_eq], fun hc => hends.trans (h.endsRound_steady hc), fun hi => hends.2 (h.endsRound_of_slice hi),
    fun hen => h.ended_counts (hends.1 hen), fun hen => ?_, o1, o2, o3, o4, fun hc hl => ?_, fun hc => ?_, h.aligned, h.frame⟩
  · have hno : ¬ State.EndsRound _ := fun hc => by
      rw [hends.2 hc] at hen
      cases hen
    obtain ⟨a1, a2, a3, a4, a5, a6, a7, a8, a9, a10, a11, a12, a13, a14, a15, a16, a17, a18⟩ := h.late_state hr hno
    obtain ⟨b1, b2, b3, b4, b5, b6⟩ := h.late_line hno
    exact ⟨a1, a2, a3, a4, a5, a6, a7, a8, a9, a10, a11, a12, a13, a14, a15, a16, a17, b1, b2, a18, b3, b4, b5, b6⟩
  · rw [markedTime, if_pos ⟨hc, hl⟩] at htime
    exact ⟨congrArg Prod.fst htime, congrArg Prod.snd htime⟩
  · rw [markedTime, if_neg fun hk => hc.elim (fun e => e hk.1) fun e => absurd hk.2 (Nat.not_lt.2 e)] at htime
    exact ⟨congrArg Prod.fst htime, congrArg Prod.snd htime⟩

end Sys2Proof.Machine
end

section
/-! A peer's MARK that ends the round, beside the natural round end of the state it is taken in (R3, R11, R13, R158, R163). -/

namespace Sys2Proof.Machine

/-! ### The parts before, beside those of the frame heard -/

/-- The frame heard, with the free choices of the event. -/
def State.markHeard (s : State) (temps : Temps) (bay : Nat) : State := (s.choosing (s.markStart temps bay)).takeFrame .mark bay

theorem State.markStart_heard (s : State) (temps : Temps) (bay : Nat) : s.markStart temps bay =
    (s.markHeard temps bay).varied { (s.markHeard temps bay).variation with temps := temps } := by
  have h : ∀ c : State, (s.choosing c).varied
      { s.variation with temps := temps, line := ((s.choosing c).takeFrame .mark bay).line } =
      ((s.choosing c).takeFrame .mark bay).varied
        { ((s.choosing c).takeFrame .mark bay).variation with temps := temps } := fun _ => rfl
  exact (s.markStart_eq temps bay).trans (h _)

theorem State.removeWaitingMark_temps (f : State) (temps : Temps) :
    (f.varied { f.variation with temps := temps }).removeWaitingMark =
      f.removeWaitingMark.varied { f.removeWaitingMark.variation with temps := temps } := by
  rw [State.removeWaitingMark_varied f { f.variation with temps := temps } rfl]
  obtain ⟨l, e⟩ := f.removeWaitingMark_frame
  rw [e]; rfl

theorem State.standingTakes_temps (f : State) (temps : Temps) (bay : Nat) :
    (f.varied { f.variation with temps := temps }).standingTakes bay =
      (f.standingTakes bay).varied { (f.standingTakes bay).variation with temps := temps } := by
  rw [State.standingTakes_varied bay f { f.variation with temps := temps } rfl]
  obtain ⟨al, e⟩ := f.standingTakes_timer bay
  have hp := f.standingTakes_postSlice bay
  unfold State.variation
  rw [e, hp]

/-- Standing, share, stage control and outputs that the standing unit's part leaves do not hang on the line engine. -/
theorem State.standingTakes_ofLine (v f : State) (bay : Nat) (hf : f = { v with line := f.line }) :
    (f.standingTakes bay).stand = (v.standingTakes bay).stand ∧ (f.standingTakes bay).share = (v.standingTakes bay).share ∧
    (f.standingTakes bay).stage = (v.standingTakes bay).stage ∧ (f.standingTakes bay).out = (v.standingTakes bay).out ∧
    (f.standingTakes bay).timer = (v.standingTakes bay).timer := by
  have halike : State.Alike False (fun _ _ => True) v f := ⟨{ v.variation with line := f.line }, by rw [hf]; rfl, nofun, trivial⟩
  obtain ⟨r, hr, -⟩ := halike.standingTakes keepsClaims_true bay
  have hps : (f.standingTakes bay).share.postSlice = (v.standingTakes bay).share.postSlice := by
    rw [State.standingTakes_postSlice, State.standingTakes_postSlice, hf]
  obtain ⟨a1, e1⟩ := v.standingTakes_timer bay
  obtain ⟨a2, e2⟩ := f.standingTakes_timer bay
  have hft : f.timer = v.timer := by rw [hf]
  have hal : (f.standingTakes bay).timer.aligned = (v.standingTakes bay).timer.aligned := by rw [hr]; rfl
  rw [e1, e2, hft] at hal
  refine ⟨by rw [hr]; rfl, ?_, by rw [hr]; rfl, by rw [hr]; rfl, by
    rw [e1, e2, hft]; exact congrArg (fun a => { v.timer with aligned := a }) hal⟩
  have hshare : (f.standingTakes bay).share = { (v.standingTakes bay).share with
      postSlice := (f.standingTakes bay).share.postSlice } := by rw [hr]; rfl
  rw [hshare, hps]

/-- The state before the round's part: the frame has been heard by the standing unit, or has not. -/
theorem MarkSplit.before_cases {bay : Nat} {before after : State → State} (h : MarkSplit bay before after) (s : State)
    (temps : Temps) :
    ((∀ z, after z = z ∨ after z = z.removeWaitingMark) ∧
      (before (s.markStart temps bay)).stand = ((s.choosing (s.markStart temps bay)).standingTakes bay).stand ∧
      (before (s.markStart temps bay)).share = ((s.choosing (s.markStart temps bay)).standingTakes bay).share ∧
      (before (s.markStart temps bay)).stage = ((s.choosing (s.markStart temps bay)).standingTakes bay).stage ∧
      (before (s.markStart temps bay)).out = ((s.choosing (s.markStart temps bay)).standingTakes bay).out ∧
      (before (s.markStart temps bay)).timer.aligned =
        ((s.choosing (s.markStart temps bay)).standingTakes bay).timer.aligned ∧
      ((before (s.markStart temps bay)).line = ((s.markHeard temps bay).standingTakes bay).line ∨
        (before (s.markStart temps bay)).line = ((s.markHeard temps bay).removeWaitingMark.standingTakes bay).line ∨
        (before (s.markStart temps bay)).line = ((s.markHeard temps bay).standingTakes bay).removeWaitingMark.line)) ∨
    ((∀ z, after z = z.standingTakes bay ∨ after z = z.removeWaitingMark.standingTakes bay ∨
        after z = (z.standingTakes bay).removeWaitingMark) ∧
      (before (s.markStart temps bay)).stand = s.stand ∧ (before (s.markStart temps bay)).share = s.share ∧
      (before (s.markStart temps bay)).stage = s.stage ∧ (before (s.markStart temps bay)).out = s.out ∧
      (before (s.markStart temps bay)).timer = s.timer ∧
      ((before (s.markStart temps bay)).line = (s.markHeard temps bay).line ∨
        (before (s.markStart temps bay)).line = (s.markHeard temps bay).removeWaitingMark.line)) := by
  have hstart := s.markStart_heard temps bay
  have hrem : (s.markStart temps bay).removeWaitingMark = (s.markHeard temps bay).removeWaitingMark.varied
      { (s.markHeard temps bay).removeWaitingMark.variation with temps := temps } := by
    rw [hstart]; exact State.removeWaitingMark_temps _ temps
  have hstand : ∀ f : State, f = { s.choosing (s.markStart temps bay) with line := f.line } →
      ∀ x, x = f.varied { f.variation with temps := temps } →
      x.standingTakes bay = (f.standingTakes bay).varied { (f.standingTakes bay).variation with temps := temps } ∧
      (x.standingTakes bay).stand = ((s.choosing (s.markStart temps bay)).standingTakes bay).stand ∧
      (x.standingTakes bay).share = ((s.choosing (s.markStart temps bay)).standingTakes bay).share ∧
      (x.standingTakes bay).stage = ((s.choosing (s.markStart temps bay)).standingTakes bay).stage ∧
      (x.standingTakes bay).out = ((s.choosing (s.markStart temps bay)).standingTakes bay).out ∧
      (x.standingTakes bay).timer.aligned = ((s.choosing (s.markStart temps bay)).standingTakes bay).timer.aligned ∧
      (x.standingTakes bay).line = (f.standingTakes bay).line := by
    rintro f hf x rfl
    have e := State.standingTakes_temps f temps bay
    obtain ⟨e1, e2, e3, e4, e5⟩ := State.standingTakes_ofLine _ f bay hf
    rw [e]
    exact ⟨rfl, e1, e2, e3, e4, congrArg Timer.aligned e5, rfl⟩
  have hfrem : (s.markHeard temps bay).removeWaitingMark = { s.choosing (s.markStart temps bay) with
      line := (s.markHeard temps bay).removeWaitingMark.line } := by
    obtain ⟨l, e⟩ := (s.markHeard temps bay).removeWaitingMark_frame
    rw [e]; rfl
  obtain ⟨a0, a1, a2, a3, a4, a5, a6⟩ := hstand _ rfl _ hstart
  obtain ⟨-, b1, b2, b3, b4, b5, b6⟩ := hstand _ hfrem _ hrem
  have hx := s.markStart_whole temps bay
  have hnone : ∀ x : State, (∃ l, x = { s.markStart temps bay with line := l }) →
      x.stand = s.stand ∧ x.share = s.share ∧ x.stage = s.stage ∧ x.out = s.out ∧ x.timer = s.timer := by
    rintro x ⟨l, rfl⟩
    rw [hx]; exact ⟨rfl, rfl, rfl, rfl, rfl⟩
  obtain ⟨l, hl⟩ := (s.markStart temps bay).removeWaitingMark_frame
  have hsr : ((s.markStart temps bay).standingTakes bay).removeWaitingMark.line =
      ((s.markHeard temps bay).standingTakes bay).removeWaitingMark.line := by
    rw [a0, State.removeWaitingMark_temps]; rfl
  cases h with
  | lateRemoveFirst =>
    obtain ⟨c1, c2, c3, c4, c5⟩ := hnone (s.markStart temps bay) ⟨_, rfl⟩
    exact .inr ⟨fun _ => .inr (.inl rfl), c1, c2, c3, c4, c5, .inl (by rw [hstart]; rfl)⟩
  | lateStandFirst =>
    obtain ⟨c1, c2, c3, c4, c5⟩ := hnone (s.markStart temps bay) ⟨_, rfl⟩
    exact .inr ⟨fun _ => .inr (.inr rfl), c1, c2, c3, c4, c5, .inl (by rw [hstart]; rfl)⟩
  | removeFirst =>
    obtain ⟨c1, c2, c3, c4, c5⟩ := hnone _ ⟨l, hl⟩
    exact .inr ⟨fun _ => .inl rfl, c1, c2, c3, c4, c5, .inr (by rw [hrem]; rfl)⟩
  | standFirst => exact .inl ⟨fun _ => .inr rfl, a1, a2, a3, a4, a5, .inl a6⟩
  | earlyRemoveFirst => exact .inl ⟨fun _ => .inl rfl, b1, b2, b3, b4, b5, .inr (.inl b6)⟩
  | earlyStandFirst =>
    refine .inl ⟨fun _ => .inl rfl, ?_, ?_, ?_, ?_, ?_, .inr (.inr hsr)⟩
    · rw [State.removeWaitingMark_stand]; exact a1
    · rw [State.removeWaitingMark_share]; exact a2
    · rw [State.removeWaitingMark_stage]; exact a3
    · rw [State.removeWaitingMark_out]; exact a4
    · rw [State.removeWaitingMark_timer]; exact a5

end Sys2Proof.Machine
end

section
/-! An early round end, settled (R3, R11, R13, R57, R158, R163). -/

namespace Sys2Proof.Machine

/-! ### After the round end -/

theorem LineEngine.Removes.carries {l m : LineEngine} (h : l.Removes m) (q : Slot) :
    m.sender.carries q = l.sender.carries q := by
  rcases h.sender with e | ⟨⟨b, w, hw⟩, e, -⟩
  · rw [e]
  · rw [e, hw]; rfl

/-- The own MARK taken out of the first of the two. -/
theorem State.Alike.removeWaitingMark_left {z w : State} (h : State.Alike True LineEngine.SameClaim z w) :
    State.Alike True LineEngine.SameClaim z.removeWaitingMark w := by
  obtain ⟨v, rfl, hs, hr⟩ := h
  have hrem := z.removeWaitingMark_removes
  obtain ⟨l, e⟩ := z.removeWaitingMark_frame
  rw [e] at hrem ⊢
  refine ⟨v, rfl, hs, ⟨?_, ?_, ?_⟩⟩
  · rw [hr.claim]
    show _ = l.outbox.claim
    rw [hrem.outbox]
  · rw [hr.counters]
    exact hrem.counters.symm
  · rw [hr.carries]
    exact (hrem.carries .claim).symm

/-- The line engine heard through a frame keeps the CLAIM that waits. -/
theorem State.markStart_claimWaits (s : State) (temps : Temps) (bay : Nat) :
    (s.markStart temps bay).line.claimWaits = true ↔ s.ClaimWaits := by
  obtain ⟨x1, -, x3, -⟩ := s.markStart_line temps bay
  rw [s.claimWaits_iff]
  unfold LineEngine.claimWaits
  rw [x1, x3]
  cases s.line.sender <;> rfl

/-- The natural round end beside an early one is taken in the same state, with the slice index at B−1. -/
def State.lastSliceOf (y : State) : State :=
  { y.alignedFor with timer := { y.alignedFor.timer with sliceIndex := y.cfg.roundDiv - 1 } }

theorem effect_naturalRoundEnd_lastSliceOf {y : State} {temps : Temps} (hr : y.timer.running = true)
    (ht : y.pins.temps = temps) : effect (.naturalRoundEnd temps) y.lastSliceOf = y.lastSliceOf.roundEnd true := by
  have hi : y.lastSliceOf.cfg.roundDiv ≤ y.lastSliceOf.timer.sliceIndex + 1 := by
    show y.cfg.roundDiv ≤ y.cfg.roundDiv - 1 + 1
    omega
  subst ht
  exact effect_naturalRoundEnd (s := y.lastSliceOf) (temps := y.pins.temps) hr hi

theorem State.roundEnd_alike (y : State) :
    State.Alike True LineEngine.SameClaim (y.alignedFor.roundEnd false) (y.lastSliceOf.roundEnd true) :=
  State.Alike.roundEnd ⟨{ y.alignedFor.variation with sliceIndex := y.cfg.roundDiv - 1 }, rfl,
    fun _ => ⟨rfl, rfl⟩, ⟨rfl, rfl, rfl⟩⟩

/-- Beside the natural round end `w`: what the parts after the round's make of the one is what the standing unit's part, or
nothing, makes of the other. -/
theorem State.Alike.afterParts {bay : Nat} {after : State → State} {z w x : State}
    (hzw : State.Alike True LineEngine.SameClaim z w)
    (hx : ((∀ z, after z = z ∨ after z = z.removeWaitingMark) ∧ x = w) ∨
      ((∀ z, after z = z.standingTakes bay ∨ after z = z.removeWaitingMark.standingTakes bay ∨
        after z = (z.standingTakes bay).removeWaitingMark) ∧ x = w.standingTakes bay)) :
    State.Alike True LineEngine.SameClaim (after z) x ∧ x.line.counters = w.line.counters := by
  rcases hx with ⟨ha, rfl⟩ | ⟨ha, rfl⟩
  · refine ⟨?_, rfl⟩
    rcases ha z with e | e <;> rw [e]
    · exact hzw
    · exact hzw.removeWaitingMark_left
  · refine ⟨?_, by simp⟩
    rcases ha z with e | e | e <;> rw [e]
    · exact hzw.standingTakes keepsClaims_sameClaim bay
    · exact hzw.removeWaitingMark_left.standingTakes keepsClaims_sameClaim bay
    · exact (hzw.standingTakes keepsClaims_sameClaim bay).removeWaitingMark_left

section
variable {s y z t : State} {temps : Temps} {bay field : Nat} {before after : State → State} {c : Bool}
  (h : s.MarkRun temps bay field before after c y z t)
include h

/-- The free choices and the generator of an early round end (R57, R156, R159, R163). -/
theorem State.MarkRun.draws (he : y.EndsRound) : t.share.postOwed = false ∧
    (s.ClaimWaits → t.line.counters.claimsUnposted = min 65535 (s.line.counters.claimsUnposted + 1) ∧
      (t.share.sequence = s.share.sequence → t.line.outbox.claim = none)) ∧
    (¬ s.ClaimWaits → t.share.sequence = s.share.sequence →
      t.line.counters.claimsUnposted = s.line.counters.claimsUnposted ∧
      t.line.outbox.claim = s.line.outbox.claim) ∧
    ∃ p j k, t.share.postSlice = some p ∧ p = 1 + prngValue (s.cfg.roundDiv - 3) (prngAfter j s.line.prng) ∧
      1 ≤ j ∧ j ≤ k ∧ k ≤ 3 ∧ t.line.prng = prngAfter k s.line.prng ∧
      (8 ≤ s.cfg.roundDiv → 1 ≤ p ∧ p + 3 ≤ s.cfg.roundDiv) ∧
      (∀ a, s.line.sender = .sending a → k = 1 ∧ t.line.sender = .sending { a with
        noRetry := a.noRetry || decide (a.slot = .claim)
        replaced := a.replaced || (decide (a.slot = .claim) && decide (t.share.sequence ≠ s.share.sequence)) }) ∧
      (s.line.sender = .idle → (k = 1 ↔ t.share.sequence = s.share.sequence)) ∧
      (∀ b w, s.line.sender = .waiting b w →
        (s.line.outbox.reply ≠ none → k = 1 ∧ t.line.sender = .waiting b 0) ∧
        (t.share.sequence = s.share.sequence → k = 1)) ∧
      (s.isSending = false → t.line.sender = .idle ∨ t.line.sender = s.line.sender.rewait ∨
        ∃ i, 1 ≤ i ∧ i ≤ k ∧ i ≠ j ∧ t.line.sender = .waiting (prngValue 16 (prngAfter i s.line.prng)) 0) := by
  obtain ⟨g, ends, hms, hends⟩ := h.sends
  obtain rfl := hends.2 he
  obtain ⟨x1, x2, x3, x4, -⟩ := s.markStart_line temps bay
  have hxw := s.markStart_claimWaits temps bay
  have hx := s.markStart_whole temps bay
  have hxs : (s.markStart temps bay).share = s.share := by rw [hx]
  have hxc : (s.markStart temps bay).cfg = s.cfg := by rw [hx]; rfl
  obtain ⟨j, hj, hpo, hps⟩ := hms.drawn rfl
  have htr := hms.sends.line
  obtain ⟨d1, d2, d3, d4, d5⟩ := htr.draws hj
  have hseq := hms.sends.sequence_unmoved_iff (Nat.lt_of_le_of_lt hms.few (by decide))
  rw [hxs] at hseq
  rw [hxc, x2] at hps
  rw [x2] at d4 d5
  have hparts : g.claims = 0 → g.early = 0 ∧ g.late = 0 := fun hz => Nat.add_eq_zero_iff.1 hz
  refine ⟨hpo, fun hw => ⟨?_, fun hq => ?_⟩, fun hw hq => ⟨?_, ?_⟩, _, j, g.backoffs + 1, hps, rfl, d1, d2, d3, d4, fun h8 => ?_,
    fun a ha => ?_, fun hi => ⟨fun hk => ?_, fun hq => ?_⟩, fun b w hwt => ⟨fun hrp => ?_, fun hq => ?_⟩, fun hns => ?_⟩
  · rw [htr.counters, ← x4]
    exact if_pos ⟨hms.discarded, .inl (hxw.2 hw)⟩
  · rw [htr.claimLeft hms.discarded (hparts (hseq.1 hq)).2, if_pos (.inl (hxw.2 hw))]
  · have hno : ¬ ((s.markStart temps bay).line.claimWaits = true ∨ 0 < g.early) := fun hc => hc.elim (fun e => hw (hxw.1 e))
      fun e => Nat.ne_of_gt e (hparts (hseq.1 hq)).1
    rw [htr.counters, ← x4]
    exact if_neg fun hc => hno hc.2
  · have hno : ¬ ((s.markStart temps bay).line.claimWaits = true ∨ 0 < g.early) := fun hc => hc.elim (fun e => hw (hxw.1 e))
      fun e => Nat.ne_of_gt e (hparts (hseq.1 hq)).1
    rw [htr.claimLeft hms.discarded (hparts (hseq.1 hq)).2, if_neg hno, x1]
  · exact postSlice_range h8 _
  · obtain ⟨e1, e2⟩ := htr.sending a (by rw [x3, ha]; rfl)
    have hpos : decide (0 < g.claims) = decide (t.share.sequence ≠ s.share.sequence) := by
      rw [decide_eq_decide, ne_eq, hseq]; omega
    refine ⟨by rw [e1], e2.trans ?_⟩
    rw [SendProgress.attempt, hms.discarded, hms.spared, hms.marked, hpos]
    simp
  · have hb : g.backoffs = 0 := by omega
    exact hseq.2 (htr.idle (by rw [x3, hi]; rfl) hb).2.1
  · rw [htr.quiet (hseq.1 hq) hms.marked]
  · obtain ⟨e1, e2⟩ := htr.held b 0 (by rw [x3, hwt]; rfl) (.inl (by rw [x1]; exact hrp))
    exact ⟨by rw [e1], e2⟩
  · rw [htr.quiet (hseq.1 hq) hms.marked]
  · refine (d5 fun a ha => ?_).imp_right (Or.imp_left fun e => e.trans x3)
    have hnot := State.not_isSending hns
    rw [x3] at ha
    cases hsd : s.line.sender with
    | sending b => exact hnot b hsd
    | idle => rw [hsd] at ha; cases ha
    | waiting b w => rw [hsd] at ha; cases ha

/-- The owed start of a slice goes with the round end (R116). -/
theorem State.MarkRun.startOwed (he : y.EndsRound) : t.stage.startOwed = false := by
  obtain ⟨-, p, u, k, v, a, b, early, g0, hrun⟩ := h.ended he
  obtain ⟨-, -, -, howed, -⟩ := hrun.work_stage
  have hz : z.stage.startOwed = false := hrun.easedAfter.owed.trans howed
  have hstand : ∀ x : State, (x.standingTakes bay).stage.startOwed = x.stage.startOwed := fun x => by
    obtain ⟨n, -, hh⟩ := x.standingTakes_claims bay
    exact hh.owed
  have hts : t.stage = (after z).stage := by rw [h.t_eq, State.clockIf_whole]
  rw [hts]
  have hcases : (∀ z, after z = z ∨ after z = z.removeWaitingMark) ∨ (∀ z, after z = z.standingTakes bay ∨
      after z = z.removeWaitingMark.standingTakes bay ∨ after z = (z.standingTakes bay).removeWaitingMark) :=
    (h.split.before_cases s temps).imp And.left And.left
  rcases hcases with hc | hc
  · rcases hc z with e | e <;> rw [e]
    · exact hz
    · rw [State.removeWaitingMark_stage]; exact hz
  · rcases hc z with e | e | e <;> rw [e]
    · rw [hstand]; exact hz
    · rw [hstand, State.removeWaitingMark_stage]; exact hz
    · rw [State.removeWaitingMark_stage, hstand]; exact hz

/-- What an early round end leaves is what the natural one and the frame heard leave. -/
theorem State.MarkRun.as_natural {w x : State} (hzw : State.Alike True LineEngine.SameClaim z w)
    (hx : State.Alike True LineEngine.SameClaim (after z) x) (hxc : x.line.counters = w.line.counters) :
    t.line.counters = w.line.counters ∧
    t.peers = w.peers ∧ t.notices = w.notices ∧ t.meter = w.meter ∧ t.thermal = w.thermal ∧ t.session = w.session ∧
    t.share.allotment = w.share.allotment ∧ t.timer.roundCount = w.timer.roundCount ∧ t.timer.aligned = x.timer.aligned ∧
    t.stand = x.stand ∧ t.share.ownClaim = x.share.ownClaim ∧ t.share.sequence = x.share.sequence ∧
    t.line.outbox.claim = x.line.outbox.claim ∧ t.stage = x.stage ∧ t.out = x.out ∧ t.out.link = w.out.link := by
  obtain ⟨v, hw, -⟩ := hzw
  obtain ⟨v', hx', -, hr⟩ := hx
  have ht := (after z).clockIf_whole field (!c)
  rw [← h.t_eq] at ht
  have htl : t.line = (after z).line := by rw [ht]
  have hrx : (after z).line.SameClaim x.line := by rw [hx']; exact hr
  have htw := h.t_whole
  refine ⟨by rw [htl, ← hrx.counters, hxc], ?_, ?_, ?_, ?_, ?_, ?_, ?_, ?_, ?_, ?_, ?_, by rw [htl, hrx.claim], ?_, ?_, ?_⟩
  · rw [htw, hw]; rfl
  · rw [htw, hw]; rfl
  · rw [htw, hw]; rfl
  · rw [htw, hw]; rfl
  · rw [htw, hw]; rfl
  · rw [htw, hw]; rfl
  · rw [htw, hw]; rfl
  · rw [ht, hx']; rfl
  · rw [ht, hx']; rfl
  · rw [ht, hx']; rfl
  · rw [ht, hx']; rfl
  · rw [ht, hx']; rfl
  · rw [ht, hx']; rfl
  · rw [htw, hw]; rfl

/-- The clock of the state the round end is taken in is the one before the event or the one after it. -/
theorem State.MarkRun.y_clock : y.timer.clock = s.timer.clock ∨ y.timer.clock = t.timer.clock := by
  have hx : (s.markStart temps bay).time = s.time := by rw [s.markStart_whole temps bay]; rfl
  have hy := h.y_eq
  have ht := h.time
  cases c with
  | false =>
    left
    have : y.time = s.time := by rw [hy, ← hx]; exact (h.split.before_around _).time
    exact congrArg Prod.fst this
  | true =>
    right
    have : y.time = t.time := by
      calc y.time = ((before (s.markStart temps bay)).markClock field).time := congrArg State.time hy
        _ = markedTime field (before (s.markStart temps bay)).time := State.markClock_time field _
        _ = t.time := by rw [(h.split.before_around _).time, hx, ht]
    exact congrArg Prod.fst this

end

end Sys2Proof.Machine
end

section
/-! An early round end, settled (R3, R11, R13, R158, R163). -/

namespace Sys2Proof.Machine

/-- The aligned indicator an early round end is taken with: the alignment of LISTENING sets it (R13). -/
theorem State.standingTakes_alignedFor (v : State) (bay : Nat) :
    ((v.standingTakes bay).timer.aligned || (v.standingTakes bay).stand.standing == .listening) =
      (v.timer.aligned || (v.standingTakes bay).stand.standing == .listening) := by
  rw [v.standingTakes_aligned]
  cases (v.standingTakes bay).stand.standing == .listening <;> simp

/-- The standing unit has heard the frame before the round end, or hears it after; the natural round end `w` beside the early
one then leaves `x`, or the state the standing unit takes to `x`. -/
theorem State.MarkRun.heard {s y z t : State} {temps : Temps} {bay field : Nat} {before after : State → State} {c : Bool}
    (h : s.MarkRun temps bay field before after c y z t)
    (hzw : State.Alike True LineEngine.SameClaim z (y.lastSliceOf.roundEnd true)) : ∃ x : State,
    ((y.stand = ((s.choosing (s.markStart temps bay)).standingTakes bay).stand ∧
      y.share = ((s.choosing (s.markStart temps bay)).standingTakes bay).share ∧
      y.stage = ((s.choosing (s.markStart temps bay)).standingTakes bay).stage ∧
      y.out = ((s.choosing (s.markStart temps bay)).standingTakes bay).out ∧ x = y.lastSliceOf.roundEnd true ∧
      (y.line = ((s.markHeard temps bay).standingTakes bay).line ∨
        y.line = ((s.markHeard temps bay).removeWaitingMark.standingTakes bay).line ∨
        y.line = ((s.markHeard temps bay).standingTakes bay).removeWaitingMark.line)) ∨
    (y.stand = s.stand ∧ y.share = s.share ∧ y.stage = s.stage ∧ y.out = s.out ∧
      x = (y.lastSliceOf.roundEnd true).standingTakes bay ∧
      (y.line = (s.markHeard temps bay).line ∨ y.line = (s.markHeard temps bay).removeWaitingMark.line))) ∧
    (y.timer.aligned || y.stand.standing == .listening) = (s.timer.aligned || y.stand.standing == .listening) ∧
    State.Alike True LineEngine.SameClaim (after z) x ∧
    x.line.counters = (y.lastSliceOf.roundEnd true).line.counters := by
  have hc := (before (s.markStart temps bay)).clockIf_whole field c
  rw [← h.y_eq] at hc
  have e1 : y.stand = (before (s.markStart temps bay)).stand := by rw [hc]
  have e2 : y.share = (before (s.markStart temps bay)).share := by rw [hc]
  have e3 : y.stage = (before (s.markStart temps bay)).stage := by rw [hc]
  have e4 : y.out = (before (s.markStart temps bay)).out := by rw [hc]
  have e5 : y.line = (before (s.markStart temps bay)).line := by rw [hc]
  have e6 : y.timer.aligned = (before (s.markStart temps bay)).timer.aligned := by rw [hc]
  rw [e1, e2, e3, e4, e5, e6]
  rcases h.split.before_cases s temps with ⟨ha, b1, b2, b3, b4, b5, b6⟩ | ⟨ha, b1, b2, b3, b4, b5, b6⟩
  · obtain ⟨a1, a2⟩ := State.Alike.afterParts (bay := bay) hzw (.inl ⟨ha, rfl⟩)
    refine ⟨_, .inl ⟨b1, b2, b3, b4, rfl, b6⟩, ?_, a1, a2⟩
    rw [b5, b1, State.standingTakes_alignedFor]
    rfl
  · obtain ⟨a1, a2⟩ := State.Alike.afterParts hzw (.inr ⟨ha, rfl⟩)
    exact ⟨_, .inr ⟨b1, b2, b3, b4, rfl, b6⟩, by rw [b5], a1, a2⟩

/-- Settles O24: the delivery has the round end between parts that are those of the frame heard, and a round end beside a
natural one differs from it in the own MARK, the sender, the generator and the post slice. -/
theorem earlyRoundEnd : Obligations.EarlyRoundEnd := by
  intro s bay c2 c1 c0 temps hr ho h1 hn
  obtain ⟨before, after, c, hsp, hexec⟩ := effect_markFrame (c2 := c2) (c1 := c1) (c0 := c0) temps hr ho h1 hn
  obtain ⟨y, hy⟩ : ∃ y, y = (before (s.markStart temps bay.toNat)).clockIf (c2.toNat * 65536 + c1.toNat * 256 + c0.toNat) c :=
    ⟨_, rfl⟩
  obtain ⟨t, ht⟩ : ∃ t, t = effect (.markFrame bay [c2, c1, c0] temps) s := ⟨_, rfl⟩
  have h : s.MarkRun temps bay.toNat (c2.toNat * 65536 + c1.toNat * 256 + c0.toNat) before after c y y.markRound t :=
    ⟨hsp, hy, rfl, by rw [ht, hexec, hy]⟩
  refine ⟨t, by rw [exec_eq, ← ht], fun hc => ?_, fun hne => ?_⟩
  · have he : y.EndsRound := by
      rcases hc with hc | hc
      · exact h.endsRound_of_slice hc
      · exact (h.endsRound_steady (by rw [hc.1]; decide)).2 (.inr hc)
    obtain ⟨-, -, hround, -⟩ := h.ended_counts he
    rw [hround]
    omega
  · have he : y.EndsRound := by
      by_contra hno
      obtain ⟨-, -, hround, -⟩ := h.late_state hr hno
      exact hne hround
    obtain ⟨hz, -⟩ := h.ended he
    obtain ⟨hcounter, hslice, -⟩ := h.ended_counts he
    obtain ⟨hpo, hwaits, hnowait, hdraws⟩ := h.draws he
    obtain ⟨hreply, -⟩ := h.outbox
    have hyw := h.y_whole
    have hyr : y.timer.running = true := by rw [hyw]; exact hr
    have hyt : y.pins.temps = temps := by rw [hyw]
    have hycfg : y.cfg = s.cfg := by rw [hyw]; rfl
    have hzw := y.roundEnd_alike
    rw [← hz] at hzw
    obtain ⟨x, hside, hal, hafter, hcnt⟩ := h.heard hzw
    obtain ⟨n1, n2, n3, n4, n5, n6, n7, n8, n9, n10, n11, n12, n13, n14, n15, n16⟩ := h.as_natural hzw hafter hcnt
    have hlink : y.out.link = s.out.link := by rw [hyw]
    refine ⟨y.lastSliceOf, s.choosing (s.markStart temps bay.toNat), s.markHeard temps bay.toNat,
      y.lastSliceOf.roundEnd true, x, ?_, rfl, rfl, hside, h.y_clock, hal, ?_, n1, n2, n3, n4, n5, n6, n7, n8, hslice, hcounter,
      n9, n10, n11, n12, n13, n14, n15, h.startOwed he, hpo, hlink, n16, hreply, hwaits, hnowait, hdraws⟩
    · rw [exec_eq, effect_naturalRoundEnd_lastSliceOf hyr hyt]
    · unfold State.lastSliceOf State.alignedFor
      rw [hycfg]
      rw [hyw]

end Sys2Proof.Machine
end
